-- ==== Sys2Proof/Word.lean ====
section
/-! DEFINITION. The word types of the DZ-7740 (00 R3, R4) and the sparse map that holds numbered things. -/

namespace Sys2Proof

/-- A byte is 8 bits (R4). -/
abbrev Byte := BitVec 8

/-- A word is 32 bits; registration is kept per word (R4). -/
abbrev Word := BitVec 32

/-- A dword is 64 bits (R4); a scalar register holds one (R31). -/
abbrev DWord := BitVec 64

/-- An instruction address: line address in [55:6], head index in [5:0] (R14). -/
abbrev Pc := BitVec 56

/-- A 6-bit register number (R12, R18). -/
abbrev Reg := BitVec 6

/-- A sparse map from a number to a value, keys rising. What an absent key stands for is said where the map is used. -/
abbrev NMap (α : Type) := List (Nat × α)

end Sys2Proof
end

