-- ==== Sys2Proof/Config.lean ====
section
/-! DEFINITION. What the spec leaves open: free values, as constants with no body, and the few constants an
implementation fixes. Each is named in the assumption log. -/

namespace Sys2Proof.Config

/-- A free value (log 20): the bytes that a 256-byte unit of HBM, written under one key, shows when it is read under
another (R113, R448: "unrelated bytes"). The arguments are the code of the writing key, the code of the reading key, the
unit's number, the plain bytes under the writing key, and the byte asked for. -/
opaque foreignByte : Nat → Nat → Nat → List Byte → Nat → Byte

/-- A free value (log 21): the order in which a home slice performs the elements of one vector atomic that name one word
(R198: "in an order the device chooses"). Given the free-value counter and the number of colliding elements, a number that
selects the order. -/
opaque collisionOrder : Nat → Nat → Nat

/-- A free value (log 22): the verdict of an ECDSA P-384 check (R460). Key, digest and signature are byte strings. -/
opaque ecdsaVerify : List Byte → List Byte → List Byte → Bool

/-- A free value (log 22): the signature that the device identity key makes over a byte string (R462). -/
opaque ecdsaSign : List Byte → List Byte

/-- A free value (log 22): the payload of an SPDM response whose bytes DMTF SPDM 1.2 fixes and this spec does not
(R462). The arguments are the message code and the request. -/
opaque spdmPayload : Nat → List Byte → List Byte

/-- A free value (log 22): the public keys of a certificate chain that verifies to the root key, the signing key last (R460). -/
opaque chainKeys : List Byte → Option (List (List Byte))

/-- A free value (log 22): the security version and the version that an image's header gives (R460, R462). -/
opaque imageSvn : List Byte → BitVec 32
opaque imageVersion : List Byte → Nat

/-- A free value (log 42): whether a new management image has reported itself healthy (R463). -/
opaque imageHealthy : Nat → Bool

/-- A free value (log 42): the digest of the link training configuration (2) or of the fuse settings (3) that bring-up extends a
measurement register with (R461, R468). The second argument is the free-value counter. -/
opaque bringUpDigest : Nat → Nat → BitVec 384

/-- A free value (log 42): whether a bring-up step of R468 fails for a reason that the spec does not give. -/
opaque bringUpFails : Nat → Nat → Bool

/-- A free value (log 42): how long a restart of the management core lasts, up to its bound (R463). -/
opaque restartTime : Nat → Nat

/-- A free value (log 23): the reading of a die's hottest sensor in degrees Celsius (R464). The arguments are the die and the
free-value counter. -/
opaque hottest : Nat → Nat → Nat

/-- A free value (log 23): the estimated module power in watts at a lane grant, from the readings (R464). The arguments are
the die, the grant's lane count and the free-value counter. -/
opaque powerEstimate : Nat → Nat → Nat → Nat

/-- A free value (log 24): which of the die's eight copy engines takes a command (R236, R241). -/
opaque copyEngine : Nat → Nat

/-- A free value (log 25): which registered L1 lines lie in a bank taken into brick storage (R250): the arguments are the
free-value counter, the bank and the line. -/
opaque lineInBank : Nat → Nat → Nat → Bool

/-- A free value (log 26): how much of the beat that a stop cut off an engine had read (R230), or how far a stopped drain had computed
ahead of what it wrote (R319). -/
opaque readAhead : Nat → Nat

/-- A free value (log 27): the bytes of a SRAM or HBM word met with an uncorrectable error are never delivered; the
generator value of the management core's random bit generator (R462, R468). -/
opaque randomBits : Nat → BitVec 512

/-- A free value (log 28): the word that a sampling instruction finds on the abort line in the first 64 cycles after an
`abort` (R344). -/
opaque abortSeen : Nat → Bool

/-- A free value (log 32): which of its line records a home slice reclaims when all are taken (R150). -/
opaque reclaimedLine : Nat → Nat

/-- A free value (log 102): which line an L1 evicts when it has no room for one more (R156), and which leased line a full home slice
writes back to its lender (R441). -/
opaque evictedLine : Nat → Nat

/-- A free value (log 33): which of several free things the device takes where the spec only says that it takes one (a
reservation's index, a lender entry, a sibling sequencer, a ready sequencer). -/
opaque choice : Nat → Nat

/-- A free value (log 34): HCRC of a packet that this device sends (R432: a CRC-16 for switches, no polynomial given), from
header bytes 0x00 to 0x17. -/
opaque headerCrc : List Byte → BitVec 16

/-- A free value (log 35): whether a lender no longer holds an offer open when the acceptance reaches it (R142). -/
opaque offerClosed : Nat → Bool

/-- The entry of the boot firmware (R468 step 8). The spec gives no address: DESIGN CHOICE (log 3). -/
def bootEntry : Pc := 0

/-- The device number the management core sets at bring-up (R431, R468). The spec gives no number: DESIGN CHOICE (log 3). -/
def deviceNumber : Nat := 0

/-- A line record of a home slice (R150). -/
def sliceLineRecords : Nat := 32768

/-- The bits of fixed-point precision carried by the approximations before their one rounding (R300): DEDUCED (log 30). -/
def approxBits : Nat := 256

end Sys2Proof.Config
end

