-- ==== Sys2Proof/Syntax.lean ====
section
/-! DEFINITION. The steps of the DZ-7740 as syntax: operand records of the tail formats (01 R18-R30) and one constructor
per row of the opcode table. Rows of other agents (95) have no encoding; their operands are the step's inputs. -/

namespace Sys2Proof

/-- Element types, in the order of their TY codes (R27). -/
inductive Ty where
  | i8 | i16 | i32 | i64 | n8 | n16 | n32 | n64 | f64 | f32 | bf16 | f16 | fp8a | fp8b
deriving DecidableEq, Repr

/-- Rounding modes, in the order of their RND codes (R28). -/
inductive Rnd where
  | rne | rna | rtz | rdn | rup | rsr | dyn
deriving DecidableEq, Repr

/-- Scopes, in the order of their codes (R29). -/
inductive Scope where
  | seq | core | clu | die | dev | sys
deriving DecidableEq, Repr

/-- Orders, in the order of their codes (R30). -/
inductive Ord where
  | rlx | acq | rel | ar
deriving DecidableEq, Repr

/-- The register files whose registers carry a full/empty bit (R31, R35). -/
inductive RegFile where
  | scalar | brick | acc
deriving DecidableEq, Repr

/-- A 7-bit source field: register number and W (R18). -/
structure Src where
  reg : Reg
  w : Bool
deriving DecidableEq, Repr

/-- An offset triple (R23): three two's-complement values from -4 to 3. -/
structure Off where
  dz : BitVec 3
  dy : BitVec 3
  dx : BitVec 3
deriving DecidableEq, Repr

/-- Operands of a T32 R-form head (R20): D, SA, SB, MOD. -/
structure RArgs where
  d : Reg
  sa : Src
  sb : Src
  mod : BitVec 10
deriving DecidableEq, Repr

/-- Operands of a scalar floating head (R336): MOD split into TY, RND and COND or OT. -/
structure FArgs where
  d : Reg
  sa : Src
  sb : Src
  cond : BitVec 3
  rnd : Rnd
  ty : Ty
deriving DecidableEq, Repr

/-- Operands of a scalar atomic head (R202). -/
structure AArgs where
  d : Reg
  sa : Src
  sb : Src
  ord : Ord
  scope : Scope
  sz : BitVec 2
deriving DecidableEq, Repr

/-- Operands of a SYNC head (R390). -/
structure SArgs where
  d : Reg
  sa : Src
  sb : Src
  ord : Ord
  scope : Scope
  fm : BitVec 5
deriving DecidableEq, Repr

/-- Operands of a T32 IA head (R21). -/
structure IArgs where
  d : Reg
  sa : Src
  imm : BitVec 17
deriving DecidableEq, Repr

/-- Operands of a scalar load or store (R41, R183): MN split into ORD, SCOPE and type. -/
structure LArgs where
  d : Reg
  ord : Ord
  scope : Scope
  ty : BitVec 3
  sa : Src
  imm : BitVec 17
deriving DecidableEq, Repr

/-- Operands of a T16 B head (R19). -/
structure BArgs where
  d : Reg
  disp : BitVec 11
  head : BitVec 5
deriving DecidableEq, Repr

/-- Operands of `strip` (R21 IS, R340). -/
structure StripArgs where
  d : Reg
  disp : BitVec 11
  head : BitVec 5
  p : BitVec 6
  n : BitVec 2
  sz : BitVec 8
deriving DecidableEq, Repr

/-- Operands of a T64 V head (R23). -/
structure VArgs where
  d : Reg
  sa : Src
  sb : Src
  sc : Src
  offA : Off
  offB : Off
  me : Bool
  msel : BitVec 3
  ty : Ty
  rnd : Rnd
  vmod : BitVec 6
deriving DecidableEq, Repr

/-- Operands of a T64 M head (R24). -/
structure MArgs where
  d : Reg
  sa : Src
  sb : Src
  sc : Src
  scope : Scope
  ord : Ord
  mod : BitVec 14
  imm : BitVec 16
deriving DecidableEq, Repr

/-- Traffic classes of a die boundary (R427), which a Relov flow carries on (R432). -/
inductive NetClass where
  | req | wr | rsp | eng
deriving DecidableEq, Repr

/-- A flit of a die boundary (R427): sequence number, class, source and destination die, payload, whether its CRC holds at the receiver,
and whether it has come back to its source die. -/
structure Flit where
  num : BitVec 16
  cls : NetClass
  source : Nat
  dest : Nat
  payload : List Byte
  crcOk : Bool
  back : Bool := false
deriving DecidableEq, Repr

/-- The KIND byte of a Relov packet (R432). -/
inductive PacketKind where
  | write | add64 | arrive | read | data | done | ack | lease
  | reserved (code : Byte)
deriving DecidableEq, Repr

/-- A Relov packet as it stands at the receiving gateway (R432). `crc` is the trailer's CRC-32 field and `stomp` its STOMP
bit; `hcrc` is for switches. -/
structure Packet where
  dst : BitVec 16
  src : BitVec 16
  kind : PacketKind
  flow : Byte
  num : Word
  tag : Word
  addr : DWord
  hcrc : BitVec 16
  rsvd : BitVec 48
  payload : List Byte
  crc : Word
  stomp : Bool
deriving DecidableEq, Repr

/-- A host AtomicOp that reaches the device (R442, R443). -/
inductive HostOp where
  | fetchAdd | swap | cas | other
deriving DecidableEq, Repr

/-- The firmware images that flash holds in two slots (R461, R463). -/
inductive ImageKind where
  | management | computeBoot
deriving DecidableEq, Repr

/-- A firmware image (R460): its header, its signing certificate with the chain, its payload and the signature. -/
structure Image where
  header : List Byte
  chain : List Byte
  payload : List Byte
  signature : List Byte
deriving DecidableEq, Repr

/-- What an image's signature and its measurement cover: header and payload (R460). -/
def Image.body (i : Image) : List Byte := i.header ++ i.payload

/-- What the mailbox closes, reopens, takes out of service or re-enables (R419, R469). -/
inductive Agent where
  | core (n : Nat) | cluster (n : Nat) | die (n : Nat)
deriving DecidableEq, Repr

/-- The steps: one constructor per row of the opcode table. The encoded instructions come first, in the table's order,
those without operands after them; the steps of other agents (95) come last. Those have no encoding, and their inputs are
what stands at the agent's port (`State.input`), so they have no operands here. -/
inductive Instr where
  /-- R333. Scalar add: s[D] := s[SA] + s[SB] modulo 2^64. -/
  | add (o : RArgs)
  /-- R333. Scalar subtract modulo 2^64. -/
  | sub (o : RArgs)
  /-- R333. Scalar bitwise AND. -/
  | andB (o : RArgs)
  /-- R333. Scalar bitwise OR. -/
  | orB (o : RArgs)
  /-- R333. Scalar bitwise XOR. -/
  | xorB (o : RArgs)
  /-- R333. Scalar a AND NOT b. -/
  | andn (o : RArgs)
  /-- R333. Scalar shift left by b[5:0]. -/
  | shl (o : RArgs)
  /-- R333. Scalar logical shift right by b[5:0]. -/
  | shr (o : RArgs)
  /-- R333. Scalar arithmetic shift right by b[5:0]. -/
  | sra (o : RArgs)
  /-- R333. Low 64 bits of the scalar product. -/
  | mul (o : RArgs)
  /-- R333. High 64 bits of the signed 128-bit product. -/
  | mulh (o : RArgs)
  /-- R333. High 64 bits of the unsigned 128-bit product. -/
  | mulhn (o : RArgs)
  /-- R333. Signed division truncated towards zero; a zero divisor traps with cause 0x19. -/
  | div (o : RArgs)
  /-- R333. Unsigned division; a zero divisor traps with cause 0x19. -/
  | divn (o : RArgs)
  /-- R333. Signed remainder with the sign of a; a zero divisor traps. -/
  | rem (o : RArgs)
  /-- R333. Unsigned remainder; a zero divisor traps. -/
  | remn (o : RArgs)
  /-- R333. Signed minimum of two scalars. -/
  | min (o : RArgs)
  /-- R333. Signed maximum of two scalars. -/
  | max (o : RArgs)
  /-- R333. Unsigned minimum of two scalars. -/
  | minn (o : RArgs)
  /-- R333. Unsigned maximum of two scalars. -/
  | maxn (o : RArgs)
  /-- R333. Writes 1 if a < b as signed values, else 0. -/
  | slt (o : RArgs)
  /-- R333. Writes 1 if a < b as unsigned values, else 0. -/
  | sltn (o : RArgs)
  /-- R333. Counts the leading zeros of a; zero gives 64. -/
  | clz (o : RArgs)
  /-- R333. Counts the trailing zeros of a; zero gives 64. -/
  | ctz (o : RArgs)
  /-- R333. Counts the set bits of a. -/
  | popc (o : RArgs)
  /-- R334. Adds the sign-extended 17-bit immediate to a scalar. -/
  | addi (o : IArgs)
  /-- R334. ANDs a scalar with the sign-extended immediate. -/
  | andi (o : IArgs)
  /-- R334. ORs a scalar with the sign-extended immediate. -/
  | ori (o : IArgs)
  /-- R334. XORs a scalar with the sign-extended immediate. -/
  | xori (o : IArgs)
  /-- R334. Shifts a scalar left by IMM17[5:0]. -/
  | shli (o : IArgs)
  /-- R334. Shifts a scalar logically right by IMM17[5:0]. -/
  | shri (o : IArgs)
  /-- R334. Shifts a scalar arithmetically right by IMM17[5:0]. -/
  | srai (o : IArgs)
  /-- R334. Signed compare of a scalar with the immediate. -/
  | slti (o : IArgs)
  /-- R334. Unsigned compare of a scalar with the immediate. -/
  | sltni (o : IArgs)
  /-- R335. Writes the sign-extended 32-bit immediate to s[D]. -/
  | movi (d : Reg) (imm : BitVec 32)
  /-- R335. Writes the 64-bit immediate to s[D]. -/
  | moviW64 (d : Reg) (imm : DWord)
  /-- R335. Computes a code address from the line displacement and head index without transferring control. -/
  | lea (d : Reg) (disp : BitVec 27) (head : BitVec 5)
  /-- R336. Scalar floating add, rounded once. -/
  | fadd (o : FArgs)
  /-- R336. Scalar floating subtract, rounded once. -/
  | fsub (o : FArgs)
  /-- R336. Scalar floating multiply, rounded once. -/
  | fmul (o : FArgs)
  /-- R336. Scalar fused multiply-add with the old s[D] as addend, rounded once. -/
  | ffma (o : FArgs)
  /-- R336. Scalar floating divide. -/
  | fdiv (o : FArgs)
  /-- R336. Scalar floating square root. -/
  | fsqrt (o : FArgs)
  /-- R336. Scalar floating minimum, ordering as vfmin. -/
  | fmin (o : FArgs)
  /-- R336. Scalar floating maximum, ordering as vfmax. -/
  | fmax (o : FArgs)
  /-- R336. Scalar floating compare into a predicate. -/
  | fcmp (o : FArgs)
  /-- R336. Scalar conversion between floating and integer types with one rounding. -/
  | fcvt (o : FArgs)
  /-- R338. Conditional branch on a predicate, optionally inverted. -/
  | br (o : BArgs)
  /-- R338. Unconditional line-relative jump. -/
  | j (o : BArgs)
  /-- R338. Writes the next PC to s[D] and jumps to a line-relative target. -/
  | jl (o : BArgs)
  /-- R338. Writes the next PC to s[D] and jumps to the address in s[SA]. -/
  | jlr (o : RArgs)
  /-- R338. Jumps to the address in s[SA]. -/
  | jr (o : RArgs)
  /-- R339. Pushes a loop-stack entry with the iteration count, or skips the body when the count is zero. -/
  | loop (o : BArgs)
  /-- R340. Consumes SLEN elements, advances pointers, sets the next VL and loops while elements remain. -/
  | strip (o : StripArgs)
  /-- R341. Starts a sibling sequencer on a free sequencer of the same core after a release at core scope. -/
  | fork (o : BArgs)
  /-- R342. Waits for a child to end, acquires at core scope and returns its end code. -/
  | rdv (o : RArgs)
  /-- R343. Raises the launch's abort line on the issuer's cluster after a release at cluster scope. -/
  | abortLine (o : RArgs)
  /-- R343. Writes the state of the launch's abort line to a predicate. -/
  | abchk (o : RArgs)
  /-- R345. Samples the abort line, reads a record, releases at dev and appends it if the queue has room. -/
  | qpush (o : RArgs)
  /-- R345. Samples the abort line and removes the oldest record into memory with an acquire, or reports empty. -/
  | qpop (o : RArgs)
  /-- R345. Returns a snapshot of a queue's record count, capacity, record size and kind. -/
  | qstat (o : RArgs)
  /-- R337. Sets a predicate from a signed or unsigned comparison of two scalars. -/
  | pset (o : RArgs)
  /-- R337. Predicate AND. -/
  | pand (o : RArgs)
  /-- R337. Predicate OR. -/
  | por (o : RArgs)
  /-- R337. Predicate XOR. -/
  | pxor (o : RArgs)
  /-- R337. Predicate NOT. -/
  | pnot (o : RArgs)
  /-- R337. Waits for the mask's writers and tests its bits below VL for any, all or none. -/
  | ptest (o : RArgs)
  /-- R337. Selects one of two scalars by a predicate. -/
  | csel (o : RArgs)
  /-- R346. Reads a control register after its older writers complete. -/
  | crd (o : RArgs)
  /-- R346. Writes a control register at its place in program order. -/
  | cwr (o : RArgs)
  /-- R82. A write to FSR sets every field and reseeds the 64 stochastic generators. -/
  | fsrWrite (o : RArgs)
  /-- R346. A write to ESTART sets the point at which the next start-at-ESTART instruction begins. -/
  | estartWrite (o : RArgs)
  /-- R108. A write to XLROOT waits for older translations and governs every younger instruction. -/
  | xlrootWrite (o : RArgs)
  /-- R108. A write to ASID waits for older translations and governs every younger instruction. -/
  | asidWrite (o : RArgs)
  /-- R409. A supervisor write to the die's supervisor entry, applying to every later trap on the die. -/
  | sventryWrite (o : RArgs)
  /-- R408. A supervisor write to TSTAT, changing privilege in program order. -/
  | tstatWrite (o : RArgs)
  /-- R410. Raises cause 0x20 with TVAL from s[SA] and the code n. -/
  | trap (o : RArgs)
  /-- R243. Removes the oldest event record into four scalars without waiting. -/
  | evpop (o : RArgs)
  /-- R415. Saves the sequencer's context into the save area and returns its size. -/
  | ctxsv (o : RArgs)
  /-- R416. Checks a save area, negotiates its claim and replaces the sequencer's state with it. -/
  | ctxld (o : RArgs)
  /-- R184. Scalar load of raw bits with optional acquire at a scope. -/
  | ld (o : LArgs)
  /-- R184. Scalar store of raw bits with optional release at a scope. -/
  | st (o : LArgs)
  /-- R188. Unit-stride brick load with decoding and one rounding per element. -/
  | vldUnit (o : VArgs)
  /-- R188. Shaped brick load using row and plane pitches. -/
  | vldShaped (o : VArgs)
  /-- R188. Strided brick load. -/
  | vlds (o : VArgs)
  /-- R188. Indexed brick load. -/
  | vldx (o : VArgs)
  /-- R188. Unit-stride brick store with encoding, block grouping on scaled pages. -/
  | vstUnit (o : VArgs)
  /-- R188. Shaped brick store. -/
  | vstShaped (o : VArgs)
  /-- R188. Strided brick store. -/
  | vsts (o : VArgs)
  /-- R188. Indexed brick store. -/
  | vstx (o : VArgs)
  /-- R203. Atomic fetch-and-add at the word's target. -/
  | amoAdd (o : AArgs)
  /-- R203. Atomic fetch-and-AND. -/
  | amoAnd (o : AArgs)
  /-- R203. Atomic fetch-and-OR. -/
  | amoOr (o : AArgs)
  /-- R203. Atomic fetch-and-XOR. -/
  | amoXor (o : AArgs)
  /-- R203. Atomic signed minimum. -/
  | amoMin (o : AArgs)
  /-- R203. Atomic signed maximum. -/
  | amoMax (o : AArgs)
  /-- R203. Atomic unsigned minimum. -/
  | amoMinn (o : AArgs)
  /-- R203. Atomic unsigned maximum. -/
  | amoMaxn (o : AArgs)
  /-- R203. Atomic swap. -/
  | amoSwap (o : AArgs)
  /-- R203. Atomic FP32 add rounded ties to even. -/
  | amoFaddF32 (o : AArgs)
  /-- R203. Atomic BF16 add rounded ties to even. -/
  | amoFaddBf16 (o : AArgs)
  /-- R203. Compare-and-swap of 32 or 64 bits, returning the old value. -/
  | cas (o : AArgs)
  /-- R203. 128-bit compare-and-swap on register pairs. -/
  | cas2 (o : AArgs)
  /-- R210. Vector atomic add per active element. -/
  | vamoAdd (o : VArgs)
  /-- R210. Vector atomic AND. -/
  | vamoAnd (o : VArgs)
  /-- R210. Vector atomic OR. -/
  | vamoOr (o : VArgs)
  /-- R210. Vector atomic XOR. -/
  | vamoXor (o : VArgs)
  /-- R210. Vector atomic signed minimum. -/
  | vamoMin (o : VArgs)
  /-- R210. Vector atomic signed maximum. -/
  | vamoMax (o : VArgs)
  /-- R210. Vector atomic unsigned minimum. -/
  | vamoMinn (o : VArgs)
  /-- R210. Vector atomic unsigned maximum. -/
  | vamoMaxn (o : VArgs)
  /-- R210. Vector atomic swap. -/
  | vamoSwap (o : VArgs)
  /-- R210. Vector atomic FP32 add. -/
  | vamoFaddF32 (o : VArgs)
  /-- R210. Vector atomic BF16 add. -/
  | vamoFaddBf16 (o : VArgs)
  /-- R211. Reads elements at their homes and records a link on each line. -/
  | glink (o : VArgs)
  /-- R213. Writes each element whose line still holds this sequencer's link and records success in a mask. -/
  | scond (o : VArgs)
  /-- R214. Ships add updates to their targets without returning old values. -/
  | saccAdd (o : VArgs)
  /-- R214. Scatter-accumulate AND. -/
  | saccAnd (o : VArgs)
  /-- R214. Scatter-accumulate OR. -/
  | saccOr (o : VArgs)
  /-- R214. Scatter-accumulate XOR. -/
  | saccXor (o : VArgs)
  /-- R214. Scatter-accumulate signed minimum. -/
  | saccMin (o : VArgs)
  /-- R214. Scatter-accumulate signed maximum. -/
  | saccMax (o : VArgs)
  /-- R214. Scatter-accumulate unsigned minimum. -/
  | saccMinn (o : VArgs)
  /-- R214. Scatter-accumulate unsigned maximum. -/
  | saccMaxn (o : VArgs)
  /-- R214. Scatter-accumulate FP32 add. -/
  | saccFaddF32 (o : VArgs)
  /-- R214. Scatter-accumulate BF16 add. -/
  | saccFaddBf16 (o : VArgs)
  /-- R216. Arms wait-table entries for active elements and waits until each condition holds. -/
  | vwait (o : VArgs)
  /-- R177. Invalidates the unregistered L1 words of a range after older loads to it. -/
  | skim (o : RArgs)
  /-- R178. Writes home and deregisters the range's registered words, optionally invalidating and clearing poison. -/
  | wbr (o : RArgs)
  /-- R179. Flushes the lines of a context tag from a target core's L1. -/
  | flctx (o : RArgs)
  /-- R179. Flushes every registered line from a target core's L1. -/
  | flctxAll (o : RArgs)
  /-- R109. Releases, drops selected translations within a scope and waits for accesses in flight. -/
  | tlbinv (o : RArgs)
  /-- R110. Translates an address without accessing or faulting and returns the result. -/
  | tlbprobe (o : RArgs)
  /-- R133. Creates a reservation of unbacked capacity and optionally binds it. -/
  | resvNew (o : MArgs)
  /-- R133. Binds or unbinds a reservation of the tenant in RESVID. -/
  | resvUse (o : MArgs)
  /-- R133. Sets a tenant's reservation quota on a die. -/
  | resvQuota (o : MArgs)
  /-- R133. Names or removes a die's frame pool. -/
  | resvPool (o : MArgs)
  /-- R135. Frees a reservation, discarding its pages and unbinding every holder. -/
  | unresv (o : MArgs)
  /-- R136. Drops unbacked pages of a range without write-back. -/
  | disc (o : MArgs)
  /-- R137. Moves unbacked pages to another reservation. -/
  | umig (o : MArgs)
  /-- R138. Applies late frame assignment to unbacked leaves with LF set. -/
  | promo (o : MArgs)
  /-- R140. Reads page, reservation or lease tier state without faulting. -/
  | tstat (o : MArgs)
  /-- R139. Makes child pages share their parent's frame as copy-on-write. -/
  | cfork (o : MArgs)
  /-- R141. Takes a lender entry for a region and sends a lease offer to a borrower. -/
  | loffer (o : MArgs)
  /-- R142. Accepts an open lease offer into a borrower slot if the fallback and budget checks hold. -/
  | ltake (o : MArgs)
  /-- R143. Withdraws an offered entry or starts the reclaim of a lent one. -/
  | lrecl (o : MArgs)
  /-- R144. Starts the voluntary return of an active lease. -/
  | lretRet (o : MArgs)
  /-- R144. Frees a demoted or lost borrower slot. -/
  | lretFree (o : MArgs)
  /-- R391. Performs a release and/or an acquire at a scope. -/
  | fence (o : SArgs)
  /-- R395. Samples the abort line, releases, waits for scatter acknowledgements and arrives at a barrier. -/
  | phase (o : SArgs)
  /-- R397. Samples the abort line and waits at the cell's home until the phase passes. -/
  | bwait (o : SArgs)
  /-- R396. Relaxed local arrival at a barrier cell. -/
  | arrive (o : SArgs)
  /-- R396. Sends an arrival to a cell on another device through Relov. -/
  | arriveRemote (o : SArgs)
  /-- R396. Departs a barrier cell. -/
  | arriveLeave (o : SArgs)
  /-- R396. Joins a barrier cell without arriving. -/
  | arriveJoin (o : SArgs)
  /-- R399. Puts a value into a future cell, optionally overwriting. -/
  | fput (o : SArgs)
  /-- R400. Waits until a future cell is full, reads it and optionally takes it. -/
  | fget (o : SArgs)
  /-- R226. Issues a Trowel tile walk between memory and a scratchpad. -/
  | twk (o : MArgs)
  /-- R233. Issues a multicast Trowel walk into several cluster scratchpads. -/
  | twkm (o : MArgs)
  /-- R235. Sets, adds to or clears a core's permit entry. -/
  | grant (o : MArgs)
  /-- R236. Copies a range through a die copy engine. -/
  | copy (o : MArgs)
  /-- R237. Writes a range to another device's HBM through Relov, optionally signalling. -/
  | rcopy (o : MArgs)
  /-- R238. Waits until the event queue holds n records or a timeout passes. -/
  | evwait (o : MArgs)
  /-- R372. Reads a task record, releases and sends it to the die's Hive. -/
  | spawn (o : RArgs)
  /-- R373. Releases and marks a cancel group on every Hive, then waits for the reclaim. -/
  | cancel (o : RArgs)
  /-- R376. Releases at dev and ends every sequencer of the work item or task. -/
  | done (o : RArgs)
  /-- R377. Saves and requeues the sequencer if ready work of equal or higher priority exists. -/
  | yieldSeq (o : RArgs)
  /-- R378. Submits a launch record to the die's Hive from the device side. -/
  | launch (o : RArgs)
  /-- R251. Negotiates brick storage and sets VTYPE, VL and MVL. -/
  | vset (o : MArgs)
  /-- R251. Releases the sequencer's brick storage. -/
  | vsetFree (o : MArgs)
  /-- R256. Writes or clears a brick field descriptor. -/
  | bfield (o : MArgs)
  /-- R258. Copies or clears a halo descriptor. -/
  | bhalo (o : MArgs)
  /-- R267. Moves elements, optionally read at an offset. -/
  | vmov (o : VArgs)
  /-- R267. Broadcasts a scalar or one brick element. -/
  | vbcast (o : VArgs)
  /-- R267. Slides elements by a scalar amount, optionally wrapping. -/
  | vslide (o : VArgs)
  /-- R267. Permutes brick axes. -/
  | vtrans (o : VArgs)
  /-- R267. Compresses active elements. -/
  | vcomp (o : VArgs)
  /-- R267. Expands elements into active positions. -/
  | vexp (o : VArgs)
  /-- R267. Inserts a scalar into one element. -/
  | vins (o : VArgs)
  /-- R267. Extracts one element into a scalar. -/
  | vext (o : VArgs)
  /-- R267. Gathers elements of a brick by an index brick. -/
  | vgath (o : VArgs)
  /-- R271. Mask AND. -/
  | mand (o : RArgs)
  /-- R271. Mask OR. -/
  | mor (o : RArgs)
  /-- R271. Mask XOR. -/
  | mxor (o : RArgs)
  /-- R271. Mask NOT. -/
  | mnot (o : RArgs)
  /-- R271. Counts set mask bits below VL. -/
  | mpopc (o : RArgs)
  /-- R271. Finds the lowest set mask bit below VL. -/
  | mfirst (o : RArgs)
  /-- R271. Writes prefix counts of a mask into a brick. -/
  | miota (o : RArgs)
  /-- R271. Sets a mask from a count, bits, all or none. -/
  | mset (o : RArgs)
  /-- R279. Brick integer add. -/
  | vadd (o : VArgs)
  /-- R279. Brick integer subtract. -/
  | vsub (o : VArgs)
  /-- R279. Brick integer multiply, low bits. -/
  | vmul (o : VArgs)
  /-- R279. Brick integer multiply, high bits. -/
  | vmulh (o : VArgs)
  /-- R280. Brick integer divide; a zero divisor traps at its element. -/
  | vdiv (o : VArgs)
  /-- R280. Brick integer remainder; a zero divisor traps at its element. -/
  | vrem (o : VArgs)
  /-- R279. Brick integer minimum. -/
  | vmin (o : VArgs)
  /-- R279. Brick integer maximum. -/
  | vmax (o : VArgs)
  /-- R279. Brick integer absolute value. -/
  | vabs (o : VArgs)
  /-- R279. Brick bitwise AND. -/
  | vand (o : VArgs)
  /-- R279. Brick bitwise OR. -/
  | vor (o : VArgs)
  /-- R279. Brick bitwise XOR. -/
  | vxor (o : VArgs)
  /-- R279. Brick shift left. -/
  | vshl (o : VArgs)
  /-- R279. Brick logical shift right. -/
  | vshr (o : VArgs)
  /-- R279. Brick arithmetic shift right. -/
  | vsra (o : VArgs)
  /-- R279. Brick saturating add. -/
  | vsadd (o : VArgs)
  /-- R279. Brick saturating subtract. -/
  | vssub (o : VArgs)
  /-- R281. Brick integer compare into a mask. -/
  | vcmp (o : VArgs)
  /-- R282. Selects between two bricks by mask. -/
  | vsel (o : VArgs)
  /-- R279. Brick count of leading zeros. -/
  | vclz (o : VArgs)
  /-- R279. Brick count of set bits. -/
  | vpopc (o : VArgs)
  /-- R284. Brick floating add. -/
  | vfadd (o : VArgs)
  /-- R284. Brick floating subtract. -/
  | vfsub (o : VArgs)
  /-- R284. Brick floating multiply. -/
  | vfmul (o : VArgs)
  /-- R284. Brick floating divide. -/
  | vfdiv (o : VArgs)
  /-- R284. Brick floating square root. -/
  | vfsqrt (o : VArgs)
  /-- R285. Brick floating minimum. -/
  | vfmin (o : VArgs)
  /-- R285. Brick floating maximum. -/
  | vfmax (o : VArgs)
  /-- R286. Brick floating absolute value. -/
  | vfabs (o : VArgs)
  /-- R286. Brick floating negation. -/
  | vfneg (o : VArgs)
  /-- R287. Brick floating compare into a mask. -/
  | vfcmp (o : VArgs)
  /-- R288. Classifies each floating element. -/
  | vfclass (o : VArgs)
  /-- R289. Brick fused a·b + c. -/
  | vfma (o : VArgs)
  /-- R289. Brick fused a·b − c. -/
  | vfms (o : VArgs)
  /-- R289. Brick fused −(a·b) − c. -/
  | vfnma (o : VArgs)
  /-- R289. Brick fused −(a·b) + c. -/
  | vfnms (o : VArgs)
  /-- R291. Narrowing conversion into the low half of each element. -/
  | vcvtn (o : VArgs)
  /-- R292. Exact widening conversion from the low half. -/
  | vcvtw (o : VArgs)
  /-- R293. Conversion between integer and floating types of one width. -/
  | vcvti (o : VArgs)
  /-- R294. Quantises FP32 groups to FP4 codes and block scales in two registers. -/
  | vq4 (o : VArgs)
  /-- R297. Ordered sum of active elements from an initial value. -/
  | vredo (o : VArgs)
  /-- R297. Tree sum of active elements. -/
  | vredt (o : VArgs)
  /-- R297. Least or most of active elements from an initial value. -/
  | vredm (o : VArgs)
  /-- R297. Bitwise AND, OR or XOR reduction. -/
  | vredb (o : VArgs)
  /-- R300. Correctly rounded reciprocal. -/
  | vrcp (o : VArgs)
  /-- R300. Correctly rounded reciprocal square root. -/
  | vrsq (o : VArgs)
  /-- R300. Correctly rounded base-2 exponential. -/
  | vexp2 (o : VArgs)
  /-- R300. Correctly rounded base-2 logarithm. -/
  | vlog2 (o : VArgs)
  /-- R313. Loads and checks a tile configuration image into the sequencer. -/
  | mcfg (o : MArgs)
  /-- R314. Accumulates A·B over K into accumulator row groups. -/
  | mstep (o : MArgs)
  /-- R316. Sets an accumulator to +0. -/
  | mzero (o : MArgs)
  /-- R317. Moves accumulator rows into a brick. -/
  | mrda (o : MArgs)
  /-- R317. Moves a brick into accumulator rows. -/
  | mwra (o : MArgs)
  /-- R319. Drains accumulator rows through the epilogue into a brick. -/
  | mdrainBrk (o : MArgs)
  /-- R319. Drains accumulator rows through the epilogue into memory or scratchpad. -/
  | mdrainMem (o : MArgs)
  /-- R339. Samples the abort line, decrements the loop count and loops back or pops and exits. -/
  | endl
  /-- R339. Pops the innermost loop and continues at its exit. -/
  | brkl
  /-- R347. Does nothing. -/
  | nop
  /-- R348. Waits for older work, releases at dev, departs barriers, frees resources and ends the sequencer. -/
  | halt
  /-- R349. Waits for an event record, a child's end, the abort line or 65,536 cycles. -/
  | wfe
  /-- R411. Returns from a handler, restoring privilege and inhibit and resuming at TPC. -/
  | sret
  /-- R215. Applies a combining-window entry to its word no later than 1,024 cycles after creation. -/
  | combiningWindowApply
  /-- R217. An armed entry's condition holds at its home; when all have fired, vwait completes with an acquire. -/
  | vwaitFire
  /-- R217. Re-reads a host-window word for an armed entry at least every 4,096 cycles. -/
  | vwaitHostPoll
  /-- R212. A link breaks 65,536 cycles after it was set. -/
  | linkExpiry
  /-- R157. A read reaching the home is served from the line or passed to the owner. -/
  | homeReadRequest
  /-- R155. A registration reaching the home records the core as owner, recalling other owners as needed. -/
  | homeRegistration
  /-- R156. A write reaching the home recalls any registered owner and is performed. -/
  | homeWriteThrough
  /-- R166. An engine writes a registered word, clearing E and releasing held accesses. -/
  | engineWriteAtHome
  /-- R161. Advances every core's epoch counter every 16,384 cycles and invalidates expired unregistered words. -/
  | epochTick
  /-- R171. An L1 error loses registered words; the home poisons them. -/
  | l1UncorrectableError
  /-- R114. The host reads a coherent line to share; the home recalls registered words first. -/
  | hostSharedRead
  /-- R114. The host takes a line exclusive; the home recalls and drops every device copy first. -/
  | hostExclusiveRequest
  /-- R129. A lease offer reaches the borrower and is posted to die 0's supervisor queue. -/
  | leaseOfferReceived
  /-- R142. The lender receives the acceptance and moves the entry to LENT. -/
  | leaseTakeReceived
  /-- R127. The borrower receives a reclaim, moves the slot to DEMOTING and begins the pull. -/
  | leaseReclaimReceived
  /-- R127. The lender receives a return-begun message and moves the entry to RECLAIMING. -/
  | leaseReturnBegunReceived
  /-- R127. The gateway Trowel moves one leased line to the fallback and sets its moved bit. -/
  | leasePullLine
  /-- R127. The last line is moved; the slot becomes DEMOTED and a tier-demotion event is posted. -/
  | leasePullComplete
  /-- R127. The lender receives the return message and frees the entry. -/
  | leaseReturnReceived
  /-- R128. The lender's deadline passes without a return; the entry is freed and a lease-lost event posted. -/
  | leaseDeadline
  /-- R397. The awaited phase completes; bwait frees its entry and acquires. -/
  | bwaitWake
  /-- R400. A waiting fget finds its cell full and completes. -/
  | fgetWake
  /-- R238. The record count is reached or the timeout expires; evwait writes the count. -/
  | evwaitWake
  /-- R349. A record, child end, abort line or 65,536-cycle expiry completes a wfe. -/
  | wfeWake
  /-- R227. A walk waiting on a receiving core's permit finds a credit and begins delivery or ends with 0xF1. -/
  | permitCreditTake
  /-- R233. A walk reads a source beat and sends it down each branch that has credit and ring space. -/
  | trowelBeat
  /-- R231. An engine command finishes, releases unwritten words, fills its status and posts a record. -/
  | engineCommandComplete
  /-- R375. The Hive takes a spawn request, discarding it if its group is marked or queuing it. -/
  | spawnArrival
  /-- R374. A Hive marks a group and reclaims its members and resources. -/
  | cancelMark
  /-- R365. A launch ends; the Hive writes its completion word or posts a KIND 10 record. -/
  | launchComplete
  /-- R366. A 64-byte host write of a launch record to a function's host queue, entered, dropped or counted malformed. -/
  | hostQueueRecord
  /-- R360. A sequencer becomes free and the Hive chooses ready work for it. -/
  | hiveDispatch
  /-- R360. An item passed over for its energy class for 65,536 cycles is taken next regardless. -/
  | energyAgeExpiry
  /-- R361. The Hive steals unstarted work or moves a migratable sequencer to balance load. -/
  | hiveSteal
  /-- R358. Every 4,096 cycles the Hive adds or withdraws one core of each consumer stage. -/
  | stageReview
  /-- R412. At a pre-emption point the Hive saves a sequencer and its accumulators and releases it. -/
  | preempt
  /-- R412. The Hive loads a saved context on a free sequencer and restores its accumulators. -/
  | contextResume
  /-- R323. The Hive issues a tile step, once its wait tags are set, to an engine in its placement scope. -/
  | tileStepIssue
  /-- R324. All steps of a tile record complete; writes become visible, tags are set and the record posted. -/
  | tileRecordComplete
  /-- R325. A tile step stops on a refusal or fault; no later step issues and the record reports the status. -/
  | tileStepStop
  /-- R34. A long-latency producer writes its last element and sets the destination full. -/
  | longLatencyComplete
  /-- R428. A die-boundary flit arrives, is CRC-checked, resequenced and acknowledged. -/
  | dieFlitReceive
  /-- R428. A die-boundary acknowledgement arrives and flits with clear bits are resent. -/
  | dieAckReceive
  /-- R428. An unacknowledged flit is resent 2,048 cycles after it was sent. -/
  | dieResendTimeout
  /-- R429. A boundary retrains after repeated flit failures or loss of lock, rerouting its traffic. -/
  | dieLinkRetrain
  /-- R430. A boundary fails to retrain and leaves service; unreachable transfers are poisoned. -/
  | dieLinkFail
  /-- R434. The gateway receives a packet whole, checks it and applies it in flow order. -/
  | relovPacketReceive
  /-- R435. The receiver sends a flow ACK every 256 cycles or after 16 packets. -/
  | relovAckTimer
  /-- R435. The sender receives an ACK and resends packets whose bits are clear. -/
  | relovAckReceive
  /-- R435. A packet is resent 8,192 cycles after sending without acknowledgement. -/
  | relovResendTimeout
  /-- R435. A DONE arrives for a tagged write, add or arrival. -/
  | relovDoneReceive
  /-- R436. A path is declared failed after 16 transmissions or 1 ms; outstanding commands end with 0xF2. -/
  | relovPathFailure
  /-- R440. A gateway combining entry of ADD64 or ARRIVE is applied within 1,024 cycles. -/
  | relovCombineApply
  /-- R443. A host read through the memory BAR is performed at the home as an uncached access. -/
  | hostBarRead
  /-- R443. A host write through the memory BAR is performed at the home. -/
  | hostBarWrite
  /-- R443. A host AtomicOp through the memory BAR is performed at the home or completed as Unsupported Request. -/
  | hostAtomicopCompleter
  /-- R205. The host completes a device read or AtomicOp, or refuses it. -/
  | hostCompletionReceive
  /-- R450. Every 1,024 cycles the controller refills active tenants' token buckets. -/
  | bandwidthRefill
  /-- R464. Every 1 ms the power controller reads sensors and sets each die's lane grant. -/
  | powerControlTick
  /-- R467. At 115 °C the management core records the cause and removes compute power. -/
  | thermalTrip
  /-- R467. A supply fault removes power from the compute dies and HBM. -/
  | supplyFault
  /-- R163. The management core places an idle core in retention sleep. -/
  | coreSleep
  /-- R163. A core wakes and invalidates every unregistered word before any access. -/
  | coreWake
  /-- R468. Power-on or module reset runs the bring-up sequence and starts one sequencer per die. -/
  | powerOnReset
  /-- R463. An image is written into the inactive slot, verified and marked pending. -/
  | firmwareUpdate
  /-- R463. The management core restarts into a pending image without resetting compute. -/
  | mgmtRestart
  /-- R463. A new image not healthy within 5 s causes a restart from the other slot. -/
  | mgmtHealthTimeout
  /-- R469. Closes or reopens a cluster or die to new work. -/
  | mailboxCloseReopen
  /-- R469. Takes an agent out of service or re-enables it. -/
  | mailboxServiceChange
  /-- R446. Writes an access-table window, completing when all ports acknowledge. -/
  | mailboxAccessTableWrite
  /-- R451. Sets tenant SHARE and TOTAL bandwidth values. -/
  | mailboxShareTotal
  /-- R461. Extends one of MR4 to MR7 with a supervisor digest. -/
  | mailboxMeasurementExtend
  /-- R463. Raises the fused SVN to that of the active image. -/
  | mailboxSvnRequest
  /-- R367. Sets a function's submission XLROOT and ASID. -/
  | mailboxSubmissionContext
  /-- R462. SPDM GET_VERSION request. -/
  | getVersion
  /-- R462. SPDM GET_CAPABILITIES request. -/
  | getCapabilities
  /-- R462. SPDM NEGOTIATE_ALGORITHMS request. -/
  | negotiateAlgorithms
  /-- R462. SPDM GET_CERTIFICATE request. -/
  | getCertificate
  /-- R462. SPDM CHALLENGE request. -/
  | challenge
  /-- R462. Returns MR0 to MR7, DEVNO, slot, versions and nonce, signed by the identity key. -/
  | getMeasurements
  /-- R462. SPDM KEY_EXCHANGE establishing a secured session. -/
  | keyExchange
  /-- R462. A vendor message in a secured session loads key material into a slot for a tenant. -/
  | keySlotLoad
  /-- R448. Writes back and drops on-chip copies under a key id, then erases the slot. -/
  | keySlotErase
  /-- R43. A sequencer reaches a head with MAJ 0x00, a reserved major or an unassigned minor and takes the illegal-instruction trap precisely at it. -/
  | illegalInstruction
  /-- R429. A die boundary finishes retraining within 20 µs, its unacknowledged flits are sent again and traffic returns to it. -/
  | boundaryRetrained
  /-- R419. A core fails without warning, and the homes poison the registered words it held. -/
  | coreFailure
deriving DecidableEq, Repr

end Sys2Proof
end

