-- ==== Sys2Proof/Machine/Num.lean ====
section
/-! DEFINITION. Numbers (03 R64 to R86, 11 R279 to R301): exact values, the element formats, `round_to` with its flags,
block scales, and the floating operations as functions of operand bits. Nothing here reads the state. -/

namespace Sys2Proof.Machine

/-- Floating-point flags in the bit order of FSR[4:0] (R82): NV, DZ, OF, UF, NX. -/
abbrev Flags := BitVec 5

def flagNV : Flags := 16
def flagDZ : Flags := 8
def flagOF : Flags := 4
def flagUF : Flags := 2
def flagNX : Flags := 1

/-- An exact value (R7, R78): a NaN (signalling or not), an infinity, or ±(num/den)·2^e. A finite value with num = 0 is a
signed zero. -/
inductive Ex where
  | nan (signalling : Bool)
  | inf (neg : Bool)
  | fin (neg : Bool) (num den : Nat) (e : Int)
deriving DecidableEq, Repr

/-- A number format: the floating formats of R65, and signed and unsigned integers of a width (R67). -/
inductive NFmt where
  | fp64 | fp32 | bf16 | fp16 | fp8a | fp8b | fp4
  | int (w : Nat)
  | uint (w : Nat)
deriving DecidableEq, Repr

/-- The format of an instruction type (R27). -/
def Ty.fmt : Ty → NFmt
  | .i8 => .int 8 | .i16 => .int 16 | .i32 => .int 32 | .i64 => .int 64
  | .n8 => .uint 8 | .n16 => .uint 16 | .n32 => .uint 32 | .n64 => .uint 64
  | .f64 => .fp64 | .f32 => .fp32 | .bf16 => .bf16 | .f16 => .fp16 | .fp8a => .fp8a | .fp8b => .fp8b

/-- The format of a page's FMT code (R64), when it is not raw. -/
def NFmt.ofCode : Nat → Option NFmt
  | 1 => some .fp64 | 2 => some .fp32 | 3 => some .bf16 | 4 => some .fp16 | 5 => some .fp8a | 6 => some .fp8b
  | 7 => some .fp4 | 8 => some (.int 8) | 9 => some (.int 4) | 10 => some (.int 3) | 11 => some (.int 16)
  | 12 => some (.int 32) | 13 => some (.int 64)
  | _ => none

/-- Exponent bits, fraction bits and bias of a floating format (R65). -/
def NFmt.shape : NFmt → Option (Nat × Nat × Nat)
  | .fp64 => some (11, 52, 1023)
  | .fp32 => some (8, 23, 127)
  | .bf16 => some (8, 7, 127)
  | .fp16 => some (5, 10, 15)
  | .fp8a => some (4, 3, 7)
  | .fp8b => some (5, 2, 15)
  | .fp4 => some (2, 1, 1)
  | .int _ | .uint _ => none

/-- Width in bits (R64). -/
def NFmt.width : NFmt → Nat
  | .fp64 => 64 | .fp32 => 32 | .bf16 | .fp16 => 16 | .fp8a | .fp8b => 8 | .fp4 => 4
  | .int w | .uint w => w

/-- Formats without infinities (R65, R79). -/
def NFmt.saturates (f : NFmt) : Bool := f == .fp8a || f == .fp4

/-- The canonical NaN (R66); FP4 has none. -/
def NFmt.canonicalNaN (f : NFmt) : Nat :=
  match f.shape with
  | some (eb, m, _) => 2 ^ (eb + m) - 1
  | none => 0

/-- The largest finite magnitude, as its bits without the sign (R65). -/
def NFmt.maxBits : NFmt → Nat
  | .fp8a => 0x7E
  | .fp4 => 0x7
  | f => match f.shape with
    | some (eb, m, _) => (2 ^ eb - 2) * 2 ^ m + (2 ^ m - 1)
    | none => 0

def Ex.zero (neg : Bool) : Ex := .fin neg 0 1 0

def Ex.ofInt (i : Int) : Ex := .fin (decide (i < 0)) i.natAbs 1 0

def Ex.isZero : Ex → Bool
  | .fin _ n _ _ => n == 0
  | _ => false

def Ex.isNaN : Ex → Bool
  | .nan _ => true
  | _ => false

def Ex.isSignalling : Ex → Bool
  | .nan s => s
  | _ => false

def Ex.isInf : Ex → Bool
  | .inf _ => true
  | _ => false

def Ex.sign : Ex → Bool
  | .fin n _ _ _ => n
  | .inf n => n
  | .nan _ => false

def Ex.neg : Ex → Ex
  | .fin n a d e => .fin (!n) a d e
  | .inf n => .inf (!n)
  | x => x

/-- The two's-complement value of the low w bits. -/
def sext (w x : Nat) : Int :=
  let y := x % 2 ^ w
  if 2 * y < 2 ^ w then (y : Int) else (y : Int) - (2 ^ w : Nat)

/-- An integer modulo 2^w. -/
def wrap (w : Nat) (i : Int) : Nat := (i % (2 ^ w : Nat)).toNat

/-- `value` (R65, R67): the exact value of the bits of one element. -/
def NFmt.value (f : NFmt) (bits : Nat) : Ex :=
  match f with
  | .int w => Ex.ofInt (sext w bits)
  | .uint w => Ex.ofInt ((bits % 2 ^ w : Nat) : Int)
  | _ =>
    match f.shape with
    | none => Ex.zero false
    | some (eb, m, bias) =>
      let neg := bits / 2 ^ (eb + m) % 2 == 1
      let ef := bits / 2 ^ m % 2 ^ eb
      let fr := bits % 2 ^ m
      if ef = 2 ^ eb - 1 && f != .fp4 && (f != .fp8a || fr = 7) then
        if f == .fp8a then .nan false
        else if fr = 0 then .inf neg
        else .nan (decide (fr < 2 ^ (m - 1)))
      else if ef = 0 then .fin neg fr 1 (1 - (bias : Int) - (m : Int))
      else .fin neg (2 ^ m + fr) 1 ((ef : Int) - (bias : Int) - (m : Int))

/-- The value as an integer over 2^(-e): `num·2^(e-e0)` for e0 ≤ e. -/
def shiftUp (n : Nat) (e e0 : Int) : Nat := n * 2 ^ (e - e0).toNat

def signed (neg : Bool) (n : Nat) : Int := if neg then -(n : Int) else (n : Int)

/-- Compare two finite values or infinities, zeros equal (R287): -1, 0 or 1. NaNs are not given to it. -/
def Ex.cmp (a b : Ex) : Int :=
  match a, b with
  | .inf x, .inf y => if x = y then 0 else if x then -1 else 1
  | .inf x, _ => if x then -1 else 1
  | _, .inf y => if y then 1 else -1
  | .fin na ma da ea, .fin nb mb db eb =>
    let e0 := Min.min ea eb
    let x := signed na (shiftUp (ma * db) ea e0)
    let y := signed nb (shiftUp (mb * da) eb e0)
    if x < y then -1 else if x = y then 0 else 1
  | _, _ => 0

/-- Exact sum of two values neither of which is a NaN; opposite infinities give a quiet NaN, which the caller reports as
invalid. An exact zero is -0 when both terms are -0 and +0 otherwise (R284). -/
def Ex.add (a b : Ex) : Ex :=
  match a, b with
  | .nan s, _ => .nan s
  | _, .nan s => .nan s
  | .inf x, .inf y => if x = y then .inf x else .nan false
  | .inf x, _ => .inf x
  | _, .inf y => .inf y
  | .fin na ma da ea, .fin nb mb db eb =>
    let e0 := Min.min ea eb
    let s := signed na (shiftUp (ma * db) ea e0) + signed nb (shiftUp (mb * da) eb e0)
    if s = 0 then Ex.zero (ma == 0 && mb == 0 && na && nb)
    else .fin (decide (s < 0)) s.natAbs (da * db) e0

/-- Exact product; zero times infinity gives a quiet NaN. -/
def Ex.mul (a b : Ex) : Ex :=
  match a, b with
  | .nan s, _ => .nan s
  | _, .nan s => .nan s
  | .inf x, .inf y => .inf (x != y)
  | .inf x, .fin y m _ _ => if m = 0 then .nan false else .inf (x != y)
  | .fin y m _ _, .inf x => if m = 0 then .nan false else .inf (x != y)
  | .fin na ma da ea, .fin nb mb db eb => .fin (na != nb) (ma * mb) (da * db) (ea + eb)

/-- Exact quotient; 0/0 and infinity over infinity give a quiet NaN, a nonzero value over zero an infinity. -/
def Ex.div (a b : Ex) : Ex :=
  match a, b with
  | .nan s, _ => .nan s
  | _, .nan s => .nan s
  | .inf _, .inf _ => .nan false
  | .inf x, .fin y _ _ _ => .inf (x != y)
  | .fin x _ _ _, .inf y => Ex.zero (x != y)
  | .fin na ma da ea, .fin nb mb db eb =>
    if mb = 0 then (if ma = 0 then .nan false else .inf (na != nb))
    else .fin (na != nb) (ma * db) (da * mb) (ea - eb)

/-- Integer square root of n, given that it is below 2^k: one bit at a time from the top. -/
def isqrtGo (n : Nat) : Nat → Nat → Nat
  | 0, r => r
  | k + 1, r => if (r + 2 ^ k) * (r + 2 ^ k) ≤ n then isqrtGo n k (r + 2 ^ k) else isqrtGo n k r

def isqrt (n : Nat) : Nat := isqrtGo n (n.log2 / 2 + 1) 0

/-- √(num/den·2^e) to 160 significant bits and a sticky bit, so that every rounding of it is the rounding of the exact
root. -/
def Ex.sqrt (a : Ex) : Ex :=
  match a with
  | .nan s => .nan s
  | .inf n => if n then .nan false else .inf false
  | .fin n m d e =>
    if m = 0 then Ex.zero n
    else if n then .nan false
    else
      let k : Nat := 320 + d.log2 - m.log2
      let k := if ((e - (k : Int)) % 2 = 0) then k else k + 1
      let q := m * 2 ^ k / d
      let r := isqrt q
      let sticky := if r * r * d = m * 2 ^ k then 0 else 1
      .fin false (2 * r + sticky) 1 ((e - (k : Int)) / 2 - 1)

/-- floor(log₂(num/den)) for nonzero num and den. -/
def floorLog2 (num den : Nat) : Int :=
  let t : Int := (num.log2 : Int) - (den.log2 : Int)
  let ok := if 0 ≤ t then decide (den * 2 ^ t.toNat ≤ num) else decide (den ≤ num * 2 ^ (-t).toNat)
  if ok then t else t - 1

/-- Round a positive value given as N/D to an integer: the integer of the chosen neighbour, and whether it is inexact
(R78, R80). `r` is the draw of a stochastic rounding. -/
def roundMag (N D : Nat) (neg : Bool) (mode : Rnd) (r : Nat) : Nat × Bool :=
  let lo := N / D
  let rem := N % D
  if rem = 0 then (lo, false)
  else
    let up : Bool := match mode with
      | .rne | .dyn => decide (D < 2 * rem) || (decide (2 * rem = D) && lo % 2 == 1)
      | .rna => decide (D ≤ 2 * rem)
      | .rtz => false
      | .rdn => neg
      | .rup => !neg
      | .rsr => decide (1 ≤ r) && decide (r ≤ rem * 2 ^ 32 / D)
    (if up then lo + 1 else lo, true)

/-- num/den·2^e over the quantum 2^q, as a fraction of integers. -/
def overQuantum (num den : Nat) (e q : Int) : Nat × Nat :=
  (num * 2 ^ (e - q).toNat, den * 2 ^ (q - e).toNat)

/-- `round_to` to an integer format (R78, R79): saturation with NV alone. -/
def roundInt (lo hi : Int) (w : Nat) (x : Ex) (mode : Rnd) (r : Nat) : Nat × Flags :=
  match x with
  | .nan _ => (0, flagNV)
  | .inf n => (wrap w (if n then lo else hi), flagNV)
  | .fin n num den e =>
    let (N, D) := overQuantum num den e 0
    let (m, inexact) := roundMag N D n mode r
    let v := signed n m
    if v < lo then (wrap w lo, flagNV)
    else if hi < v then (wrap w hi, flagNV)
    else (wrap w v, if inexact then flagNX else 0)

/-- Bits of a magnitude m·2^(q) in a floating format: m carries at most fraction + 1 bits. -/
def packMag (m : Nat) (q : Int) (eb fb bias : Nat) (neg : Bool) : Nat :=
  let s := if neg then 2 ^ (eb + fb) else 0
  if m < 2 ^ fb then s + m
  else s + ((q + (fb : Int) + (bias : Int)).toNat) * 2 ^ fb + (m - 2 ^ fb)

/-- What an overflow delivers (R79). -/
def overflowBits (f : NFmt) (eb fb : Nat) (neg : Bool) (mode : Rnd) : Nat :=
  let s := if neg then 2 ^ (eb + fb) else 0
  let inf := s + (2 ^ eb - 1) * 2 ^ fb
  let big := s + f.maxBits
  if f.saturates then big
  else match mode with
    | .rne | .rna | .dyn => inf
    | .rtz | .rsr => big
    | .rdn => if neg then inf else big
    | .rup => if neg then big else inf

/-- `round_to(fmt, x, mode)` (R78 to R80), with the flags it raises. `r` is the generator's value when the mode is rsr. -/
def roundTo (f : NFmt) (x : Ex) (mode : Rnd) (r : Nat) : Nat × Flags :=
  match f with
  | .int w => roundInt (-(2 ^ (w - 1) : Nat)) ((2 ^ (w - 1) : Nat) - 1) w x mode r
  | .uint w => roundInt 0 ((2 ^ w : Nat) - 1) w x mode r
  | _ =>
    match f.shape with
    | none => (0, 0)
    | some (eb, fb, bias) =>
      let sgn (n : Bool) : Nat := if n then 2 ^ (eb + fb) else 0
      match x with
      | .nan s => if f == .fp4 then (0, flagNV) else (f.canonicalNaN, if s then flagNV else 0)
      | .inf n =>
        if f.saturates then (sgn n + f.maxBits, flagNV) else (sgn n + (2 ^ eb - 1) * 2 ^ fb, 0)
      | .fin n num den e =>
        if num = 0 then (sgn n, 0)
        else
          let emin : Int := 1 - (bias : Int)
          let k := floorLog2 num den + e
          let q := Max.max k emin - (fb : Int)
          let (N, D) := overQuantum num den e q
          let (m, inexact) := roundMag N D n mode r
          let (m, q) := if m = 2 ^ (fb + 1) then (2 ^ fb, q + 1) else (m, q)
          -- the largest finite magnitude as m·2^q (R78: overflow is found after rounding)
          let maxE := f.maxBits / 2 ^ fb
          let maxM := 2 ^ fb + f.maxBits % 2 ^ fb
          let maxQ := (maxE : Int) - (bias : Int) - (fb : Int)
          if maxQ < q || (q = maxQ && decide (maxM < m)) then (overflowBits f eb fb n mode, flagOF ||| flagNX)
          else
            let tiny : Bool := decide (k < emin) &&
              (let qu := k - (fb : Int)
               let (Nu, Du) := overQuantum num den e qu
               let (mu, _) := roundMag Nu Du n mode r
               let top := if mu = 2 ^ (fb + 1) then k + 1 else k
               decide (top < emin))
            (packMag m q eb fb bias n,
              if inexact then (if tiny then flagUF ||| flagNX else flagNX) else 0)

/-- One step of a stochastic generator (R81). -/
def lfsrStep (g : Word) : Word := if g.getLsbD 0 then (g >>> 1) ^^^ 0x80200003 else g >>> 1

/-- The value a generator is seeded with (R81). -/
def seedGen (seed : Word) (lane : Nat) : Word :=
  let g := seed ^^^ BitVec.ofNat 32 ((lane + 1) * 0x9E3779B9)
  if g = 0 then 1 else g

/-- The 64 generators seeded (R81). -/
def seedGens (seed : Word) : List (Nat × Word) := (List.range 64).map (fun l => (l, seedGen seed l))

/-! Scales (R69). -/

/-- The value of a scale byte below 0xFF: SCF 1 is SP8, 2 is SF8. -/
def scaleValue (scf code : Nat) : Ex :=
  if scf = 1 then .fin false 1 1 ((code : Int) - 127)
  else
    let e := code / 16
    let f := code % 16
    if e = 0 then .fin false f 1 (-11) else .fin false (16 + f) 1 ((e : Int) - 12)

/-- Whether every value lies within the format's range at a scale (R76). -/
def scaleFits (scf code : Nat) (lo hi fmin fmax : Ex) : Bool :=
  let s := scaleValue scf code
  decide (hi.cmp (fmax.mul s) ≤ 0) && decide (0 ≤ lo.cmp (fmin.mul s))

/-- The least code in [a, a + 2^k) that fits, when the codes that fit are an upper part; a + 2^k when none does. -/
def leastScale (scf : Nat) (lo hi fmin fmax : Ex) : Nat → Nat → Nat
  | 0, a => if scaleFits scf a lo hi fmin fmax then a else a + 1
  | k + 1, a =>
    let mid := a + 2 ^ k - 1
    if scaleFits scf mid lo hi fmin fmax then leastScale scf lo hi fmin fmax k a
    else leastScale scf lo hi fmin fmax k (a + 2 ^ k)

/-- fmax of a block format as an exact value (R76). -/
def NFmt.fmax (f : NFmt) : Ex :=
  match f with
  | .int w => Ex.ofInt ((2 ^ (w - 1) : Nat) - 1)
  | .uint w => Ex.ofInt ((2 ^ w : Nat) - 1)
  | f => f.value f.maxBits

/-- fmin of a block format: the most negative value (R76). -/
def NFmt.fmin (f : NFmt) : Ex :=
  match f with
  | .int w => Ex.ofInt (-(2 ^ (w - 1) : Nat))
  | .uint _ => Ex.zero false
  | f => f.fmax.neg

def Ex.maxOf (l : List Ex) : Ex := l.foldl (fun a b => if 0 < b.cmp a then b else a) (l.headD (Ex.zero false))

def Ex.minOf (l : List Ex) : Ex := l.foldl (fun a b => if b.cmp a < 0 then b else a) (l.headD (Ex.zero false))

def roundEach (f : NFmt) (mode : Rnd) : List Ex → List Nat → List Nat × Flags
  | [], _ => ([], 0)
  | x :: xs, rs =>
    let (c, fl) := roundTo f x mode (rs.headD 0)
    let (cs, fls) := roundEach f mode xs rs.tail
    (c :: cs, fl ||| fls)

/-- `encode_block` (R76): the codes, the scale byte and the flags of a block. `rs` are the draws of the positions under
rsr; the caller steps the generators, whatever becomes of the values (R81). -/
def encodeBlock (f : NFmt) (scf : Nat) (xs : List Ex) (mode : Rnd) (rs : List Nat) : List Nat × Nat × Flags :=
  if xs.any (fun x => x.isNaN || x.isInf) then (xs.map (fun _ => 0), 0xFF, flagNV)
  else if xs.all Ex.isZero then
    let (c, fl) := roundEach f mode xs rs
    (c, 0, fl)
  else
    let hi := Ex.maxOf xs
    let lo := Ex.minOf xs
    -- SF8 code 0 is zero and no scale; the search runs over 0 to 255 and code 0 never fits a nonzero block
    let c := leastScale scf lo hi f.fmin f.fmax 8 0
    let code := Min.min c 254
    let s := scaleValue scf code
    let (cs, fl) := roundEach f mode (xs.map (fun x => x.div s)) rs
    (cs, code, fl)

/-! Block geometry and packing (R71, R72). GEO: 1 row, 2 col. -/

/-- `block_of` (R71): the block and the position of logical element n. -/
def blockOf (geo n : Nat) : Nat × Nat :=
  if geo = 2 then
    let p := n / 256
    (16 * p + n % 16, n % 256 / 16)
  else (n / 16, n % 16)

/-- The logical element at position j of block b: the inverse of `block_of`. -/
def elementOf (geo b j : Nat) : Nat :=
  if geo = 2 then 256 * (b / 16) + 16 * j + b % 16 else 16 * b + j

/-- The first byte, the bit offset in it, and the width in bits of slot t for elements of w bits (R72). -/
def slotPlace (w t : Nat) : Nat × Nat :=
  if w = 3 then
    let bit := 3 * (t % 160)
    (64 * (t / 160) + bit / 8, bit % 8)
  else (t * w / 8, t * w % 8)

/-- Elements in 2^16 bytes of a page of elements of w bits (R72). -/
def elementsPer64K (w : Nat) : Nat := if w = 3 then 163840 else 65536 * 8 / w

/-! Floating operations on bits (R283 to R289). Each answers the result's bits and its flags. -/

/-- NV when a listed operand is a signalling NaN (R283). -/
def sigFlag (l : List Ex) : Flags := if l.any Ex.isSignalling then flagNV else 0

/-- The single rounding of an exact result (R283): a NaN here is an invalid operation. -/
def finish (f : NFmt) (x : Ex) (mode : Rnd) (extra : Flags) : Nat × Flags :=
  match x with
  | .nan _ => (f.canonicalNaN, flagNV ||| extra)
  | x =>
    let (b, fl) := roundTo f x mode 0
    (b, fl ||| extra)

/-- An exact zero sum is -0 in every case under rdn (R284). -/
def zeroSum (mode : Rnd) (x : Ex) : Ex := if x.isZero && mode == .rdn then Ex.zero true else x

def fpAdd (f : NFmt) (a b : Nat) (mode : Rnd) : Nat × Flags :=
  let x := f.value a
  let y := f.value b
  if x.isNaN || y.isNaN then (f.canonicalNaN, sigFlag [x, y])
  else finish f (zeroSum mode (x.add y)) mode 0

def fpSub (f : NFmt) (a b : Nat) (mode : Rnd) : Nat × Flags :=
  let x := f.value a
  let y := f.value b
  if x.isNaN || y.isNaN then (f.canonicalNaN, sigFlag [x, y])
  else finish f (zeroSum mode (x.add y.neg)) mode 0

def fpMul (f : NFmt) (a b : Nat) (mode : Rnd) : Nat × Flags :=
  let x := f.value a
  let y := f.value b
  if x.isNaN || y.isNaN then (f.canonicalNaN, sigFlag [x, y])
  else finish f (x.mul y) mode 0

def fpDiv (f : NFmt) (a b : Nat) (mode : Rnd) : Nat × Flags :=
  let x := f.value a
  let y := f.value b
  if x.isNaN || y.isNaN then (f.canonicalNaN, sigFlag [x, y])
  else finish f (x.div y) mode (if y.isZero && !x.isZero && !x.isInf then flagDZ else 0)

def fpSqrt (f : NFmt) (a : Nat) (mode : Rnd) : Nat × Flags :=
  let x := f.value a
  if x.isNaN then (f.canonicalNaN, sigFlag [x]) else finish f x.sqrt mode 0

/-- The fused forms (R289): ±(a·b) ± c, rounded once. -/
def fpFma (f : NFmt) (negProd negC : Bool) (a b c : Nat) (mode : Rnd) : Nat × Flags :=
  let x := f.value a
  let y := f.value b
  let z := f.value c
  if (x.isZero && y.isInf) || (x.isInf && y.isZero) then (f.canonicalNaN, flagNV)
  else if x.isNaN || y.isNaN || z.isNaN then (f.canonicalNaN, sigFlag [x, y, z])
  else
    let p := x.mul y
    let p := if negProd then p.neg else p
    let z := if negC then z.neg else z
    finish f (zeroSum mode (p.add z)) mode 0

/-- The order of `vfmin` and `vfmax`: -0 below +0 (R285). -/
def Ex.order (a b : Ex) : Int :=
  if a.isZero && b.isZero then (if a.sign = b.sign then 0 else if a.sign then -1 else 1) else a.cmp b

def fpMinMax (f : NFmt) (most : Bool) (a b : Nat) : Nat × Flags :=
  let a := a % 2 ^ f.width
  let b := b % 2 ^ f.width
  let x := f.value a
  let y := f.value b
  let fl := sigFlag [x, y]
  if x.isNaN && y.isNaN then (f.canonicalNaN, fl)
  else if x.isNaN then (b, fl)
  else if y.isNaN then (a, fl)
  else (if (if most then decide (0 ≤ x.order y) else decide (x.order y ≤ 0)) then a else b, fl)

def fpAbs (f : NFmt) (a : Nat) : Nat :=
  if (f.value a).isNaN then f.canonicalNaN else a % 2 ^ (f.width - 1)

def fpNeg (f : NFmt) (a : Nat) : Nat :=
  if (f.value a).isNaN then f.canonicalNaN
  else (a % 2 ^ f.width) ^^^ 2 ^ (f.width - 1)

/-- The comparisons of R287: whether the condition holds, and NV. -/
def fpCmp (f : NFmt) (cond a b : Nat) : Bool × Flags :=
  let x := f.value a
  let y := f.value b
  if x.isNaN || y.isNaN then
    (cond == 1 || cond == 6,
      if x.isSignalling || y.isSignalling || (decide (2 ≤ cond) && decide (cond ≤ 5)) then flagNV else 0)
  else
    let c := x.cmp y
    (match cond with
     | 0 => decide (c = 0) | 1 => decide (c ≠ 0) | 2 => decide (c < 0) | 3 => decide (c ≤ 0) | 4 => decide (0 < c)
     | 5 => decide (0 ≤ c) | _ => false, 0)

/-- The class mask of R288. -/
def fpClass (f : NFmt) (a : Nat) : Nat :=
  match f.value a with
  | .nan s => if s then 2 ^ 8 else 2 ^ 9
  | .inf n => if n then 2 ^ 0 else 2 ^ 7
  | .fin n num _ _ =>
    if num = 0 then (if n then 2 ^ 3 else 2 ^ 4)
    else
      let sub := match f.shape with
        | some (_, fb, _) => decide (num < 2 ^ fb)
        | none => false
      if n then (if sub then 2 ^ 2 else 2 ^ 1) else (if sub then 2 ^ 5 else 2 ^ 6)

/-- Conversion with one rounding (R79, R290 to R293, R336). -/
def convert (tgt frm : NFmt) (a : Nat) (mode : Rnd) (r : Nat) : Nat × Flags :=
  let x := frm.value a
  match x with
  | .nan s => match tgt with
    | .int _ | .uint _ => (0, flagNV)
    | _ => roundTo tgt (.nan s) mode r
  | x => roundTo tgt x mode r

/-! Approximations (R299 to R301): correctly rounded. The series carry `Config.approxBits` bits and a sticky bit. -/

/-- ln 2 · 2^320, rounded down. -/
def ln2Fixed : Nat := 1480553391661173448385607439722553250922680800745876974795605978609098082859138712941075737848984

/-- 2^320 / ln 2, rounded down. -/
def invLn2Fixed : Nat := 3081577904126213121686167198097690134163479766071396094403848907535455306605342191083616308484524

/-- Σ t^k/k! from the term `term` at index k, in fixed point of 320 bits. -/
def expSeries (t : Nat) : Nat → Nat → Nat → Nat
  | 0, _, _ => 0
  | fuel + 1, k, term => term + expSeries t fuel (k + 1) (term * t / 2 ^ 320 / (k + 1))

/-- Σ z^(2k+1)/(2k+1) in fixed point of 320 bits. -/
def atanhSeries (z2 : Nat) : Nat → Nat → Nat → Nat
  | 0, _, _ => 0
  | fuel + 1, k, pow => pow / (2 * k + 1) + atanhSeries z2 fuel (k + 1) (pow * z2 / 2 ^ 320)

/-- 2^x for finite x, exact when x is an integer. Beyond ±2000 every type overflows or underflows alike. -/
def exExp2 (neg : Bool) (num : Nat) (e : Int) : Ex :=
  let v := signed neg num
  if 11 ≤ floorLog2 num 1 + e then
    (if neg then .fin false 1 1 (-3000) else .fin false 1 1 3000)
  else if 0 ≤ e then .fin false 1 1 (v * (2 ^ e.toNat : Nat))
  else
    let d : Nat := 2 ^ (-e).toNat
    let n := v / (d : Int)
    let fr := (v - n * (d : Int)).toNat
    if fr = 0 then .fin false 1 1 n
    else
      let t := fr * ln2Fixed / d
      let y := expSeries t 80 0 (2 ^ 320)
      .fin false (2 * (y / 2 ^ 64) + 1) 1 (n - 257)

/-- log₂ of num·2^e, exact at powers of two. -/
def exLog2 (num : Nat) (e : Int) : Ex :=
  let k := num.log2
  if num = 2 ^ k then Ex.ofInt (e + (k : Int))
  else
    -- num = 2^k · m with 1 < m < 2; log₂ m = 2·atanh((m-1)/(m+1))/ln 2
    let p : Nat := 2 ^ k
    let z : Nat := (num - p) * 2 ^ 320 / (num + p)
    let s : Nat := 2 * atanhSeries (z * z / 2 ^ 320) 120 0 z
    let frac : Nat := s * invLn2Fixed / 2 ^ 320
    let total : Int := (e + (k : Int)) * (2 ^ 320 : Nat) + (frac : Int)
    .fin (decide (total < 0)) (2 * (total.natAbs / 2 ^ 64) + 1) 1 (-257)

/-- The four approximations (R299, R300). -/
inductive Approx where
  | rcp | rsq | exp2 | log2
deriving DecidableEq, Repr

def approxOf (op : Approx) (f : NFmt) (a : Nat) : Nat × Flags :=
  let x := f.value a
  let inf (n : Bool) : Nat := (roundTo f (.inf n) .rne 0).1
  let zero (n : Bool) : Nat := (roundTo f (Ex.zero n) .rne 0).1
  match x with
  | .nan s => (f.canonicalNaN, if s then flagNV else 0)
  | .inf n =>
    match op with
    | .rcp => (zero n, 0)
    | .rsq => if n then (f.canonicalNaN, flagNV) else (zero false, 0)
    | .exp2 => if n then (zero false, 0) else (inf false, 0)
    | .log2 => if n then (f.canonicalNaN, flagNV) else (inf false, 0)
  | .fin n num _ e =>
    if num = 0 then
      match op with
      | .rcp | .rsq => (inf n, flagDZ)
      | .exp2 => roundTo f (.fin false 1 1 0) .rne 0
      | .log2 => (inf true, flagDZ)
    else
      match op with
      | .rcp => roundTo f ((Ex.fin false 1 1 0).div x) .rne 0
      | .rsq => if n then (f.canonicalNaN, flagNV) else roundTo f ((Ex.fin false 1 1 0).div x).sqrt .rne 0
      | .exp2 => roundTo f (exExp2 n num e) .rne 0
      | .log2 => if n then (f.canonicalNaN, flagNV) else roundTo f (exLog2 num e) .rne 0

/-! Sums (R85). -/

/-- One addition of a sum: modulo 2^w on integers (R297), one rounding otherwise. -/
def sumAdd (f : NFmt) (a b : Nat) (mode : Rnd) : Nat × Flags :=
  match f with
  | .int w | .uint w => ((a + b) % 2 ^ w, 0)
  | f => fpAdd f a b mode

/-- The flags of a sum: those of every rounding, and those of the first rounding that raised an enabled flag. -/
structure SumFlags where
  all : Flags
  trap : Option Flags
deriving DecidableEq, Repr

def SumFlags.note (s : SumFlags) (en fl : Flags) : SumFlags :=
  ⟨s.all ||| fl, if s.trap.isNone && (fl &&& en) != 0 then some fl else s.trap⟩

/-- `ordered_sum` over the values that take part, in ascending order. -/
def orderedSum (f : NFmt) (mode : Rnd) (en : Flags) : Nat → SumFlags → List Nat → Nat × SumFlags
  | acc, s, [] => (acc, s)
  | acc, s, v :: vs =>
    let (r, fl) := sumAdd f acc v mode
    orderedSum f mode en r (s.note en fl) vs

/-- One level of `tree_sum`: neighbours are joined in pairs, an element that does not take part is skipped. -/
def treeLevel (f : NFmt) (mode : Rnd) (en : Flags) : SumFlags → List (Option Nat) → List (Option Nat) × SumFlags
  | s, a :: b :: rest =>
    let (x, s) := match a, b with
      | some u, some v =>
        let (r, fl) := sumAdd f u v mode
        (some r, s.note en fl)
      | none, y => (y, s)
      | x, none => (x, s)
    let (l, s) := treeLevel f mode en s rest
    (x :: l, s)
  | s, l => (l, s)

/-- `tree_sum`: at most 14 levels, since VL is at most 8192. Where one element alone takes part it is returned as it stands, a NaN with
its payload and without NV (DESIGN CHOICE: log 129). -/
def treeSum (f : NFmt) (mode : Rnd) (en : Flags) : Nat → SumFlags → List (Option Nat) → Nat × SumFlags
  | 0, s, l => ((l.headD none).getD 0, s)
  | k + 1, s, l =>
    match l with
    | _ :: _ :: _ =>
      let (l, s) := treeLevel f mode en s l
      treeSum f mode en k s l
    | _ => ((l.headD none).getD 0, s)

end Sys2Proof.Machine
end

