-- ==== Sys2Proof/WellFormed.lean ====
section
/-! DEFINITION. The static checks of an encoded instruction (R42, R43 and each chapter's list of illegal uses): a head
that fails one is an illegal instruction. Steps of other agents have no encoding and pass. -/

namespace Sys2Proof

/-- A source field an instruction does not use must be zero (R18). -/
def Src.unused (a : Src) : Bool := a.reg == 0 && !a.w

/-- A source field that names a predicate or a queue handle: W = 0 and a number within the file (R18, R31). -/
def Src.isPred (a : Src) : Bool := !a.w && decide (a.reg.toNat < 16)

/-- A source field that names a mask (R18, R31). -/
def Src.isMask (a : Src) : Bool := !a.w && decide (a.reg.toNat < 8)

/-- A source field that names an accumulator (R31). -/
def Src.isAcc (a : Src) : Bool := decide (a.reg.toNat < 2)

/-- An offset triple of zero (R23). -/
def Off.isZero (o : Off) : Bool := o.dz == 0 && o.dy == 0 && o.dx == 0

/-- The types .i8 to .n64. -/
def Ty.isInt : Ty → Bool
  | .i8 | .i16 | .i32 | .i64 | .n8 | .n16 | .n32 | .n64 => true
  | _ => false

/-- The types .i8 to .i64, read as two's complement (R276). -/
def Ty.isSigned : Ty → Bool
  | .i8 | .i16 | .i32 | .i64 => true
  | _ => false

/-- The types .f64, .f32, .bf16 and .f16 of the floating instructions (R283). -/
def Ty.isFloat : Ty → Bool
  | .f64 | .f32 | .bf16 | .f16 => true
  | _ => false

/-- Width of a type in bits (R27, R65). -/
def Ty.width : Ty → Nat
  | .i8 | .n8 | .fp8a | .fp8b => 8
  | .i16 | .n16 | .bf16 | .f16 => 16
  | .i32 | .n32 | .f32 => 32
  | .i64 | .n64 | .f64 => 64

/-- Rounding fields 0 to 4 and 6, which every rounding form accepts (R283, R336). -/
def Rnd.notStochastic (r : Rnd) : Bool := r != .rsr

/-- SCOPE must be 0 when ORD is .rlx (R41, R202, R234, R390). -/
def ordScopeOk (o : Ord) (sc : Scope) : Bool := o != .rlx || sc == .seq

/-- With ME = 0, MSEL must be 0 (R23). -/
def VArgs.maskOk (o : VArgs) : Bool := o.me || o.msel == 0

/-- Neither offset triple is used. -/
def VArgs.noOff (o : VArgs) : Bool := o.offA.isZero && o.offB.isZero

/-- The assigned control register numbers (R38). -/
def crAssigned (n : BitVec 10) : Bool :=
  n.toNat ∈ [0x000, 0x001, 0x002, 0x003, 0x004, 0x005, 0x008, 0x009, 0x00A, 0x00B, 0x00C, 0x00D, 0x00E, 0x00F, 0x010, 0x011,
    0x012, 0x013, 0x014, 0x018, 0x019, 0x01A, 0x01B, 0x01C, 0x01D, 0x020, 0x021, 0x022, 0x023, 0x024, 0x030]

/-- Control registers `cwr` may write at some privilege (R38), other than those whose write is a step of its own. -/
def crPlainWritable (n : BitVec 10) : Bool := n.toNat ∈ [0x014, 0x018, 0x019, 0x01A, 0x01C, 0x01D]

/-- Unit and pitch loads and stores share these checks (R186, R196). -/
def vmemWf (o : VArgs) : Bool :=
  o.noOff && o.maskOk && decide (o.vmod.toNat < 7)

def vldWf (o : VArgs) : Bool := vmemWf o && o.rnd.notStochastic && o.sc.unused

def vstWf (o : VArgs) : Bool := vmemWf o && o.d == 0

/-- Checks of every VAMO form (R206, R219). -/
def vamoBase (o : VArgs) : Bool := o.noOff && o.maskOk && o.rnd == .rne

/-- The types of vamo and sacc by operation (R207). -/
def amoTy (cls : Nat) (t : Ty) : Bool :=
  match cls with
  | 0 => t == .i32 || t == .i64 || t == .n32 || t == .n64
  | 1 => t == .i32 || t == .i64
  | 2 => t == .n32 || t == .n64
  | 3 => t == .f32
  | _ => t == .bf16

def vamoWf (cls : Nat) (o : VArgs) : Bool :=
  vamoBase o && amoTy cls o.ty && (o.vmod == 0 || (o.vmod == 1 && o.d == 0))

def saccWf (cls : Nat) (o : VArgs) : Bool := vamoBase o && amoTy cls o.ty && o.vmod == 0 && o.d == 0

/-- glink and scond accept these types (R206). -/
def linkTy (t : Ty) : Bool :=
  t == .i32 || t == .i64 || t == .n32 || t == .n64 || t == .f32 || t == .f64

/-- Scalar atomics (R202): `szs` are the accepted SZ codes. -/
def amoWf (szs : List Nat) (o : AArgs) : Bool := ordScopeOk o.ord o.scope && decide (o.sz.toNat ∈ szs)

/-- A binary arithmetic form (R273): VS in VMOD[0], the bits `keep` of VMOD above it free. -/
def binWf (o : VArgs) (keep : Nat) : Bool :=
  o.maskOk && o.sc.unused && (o.vmod.getLsbD 0 == false || o.offB.isZero) && o.vmod &&& ~~~(BitVec.ofNat 6 keep ||| 1) == 0

/-- A unary arithmetic form (R273). -/
def unWf (o : VArgs) : Bool := o.maskOk && o.sb.unused && o.sc.unused && o.offB.isZero && o.vmod == 0

/-- A fused form (R289). -/
def fusedWf (o : VArgs) : Bool :=
  o.maskOk && (o.vmod.getLsbD 0 == false || o.offB.isZero) && o.vmod &&& ~~~1 == 0 && o.ty.isFloat && o.rnd.notStochastic

/-- The other type of a conversion: VMOD[4:1] (R290). -/
def VArgs.otCode (o : VArgs) : Nat := (o.vmod.toNat / 2) % 16

def convBase (o : VArgs) : Bool :=
  o.maskOk && o.sb.unused && o.sc.unused && o.offB.isZero && o.vmod.getLsbD 0 == false && o.vmod.getLsbD 5 == false

/-- The accepted pairs of `vcvtn` and `vcvtw` (R290): the wide type and the codes of the half-width one. -/
def halfPairs : Ty → List Nat
  | .f64 => [0x9] | .f32 => [0xA, 0xB] | .bf16 => [0xC, 0xD] | .f16 => [0xC, 0xD]
  | .i64 => [0x2] | .i32 => [0x1] | .i16 => [0x0] | .n64 => [0x6] | .n32 => [0x5] | .n16 => [0x4]
  | _ => []

/-- The accepted pairs of `vcvti` (R290). -/
def crossPairs : Ty → List Nat
  | .i32 | .n32 => [0x9] | .i64 | .n64 => [0x8] | .i16 | .n16 => [0xA, 0xB]
  | .f32 => [0x2, 0x6] | .f64 => [0x3, 0x7] | .bf16 | .f16 => [0x1, 0x5]
  | _ => []

/-- A reduction (R296). -/
def redWf (o : VArgs) (rounds : Bool) : Bool :=
  o.maskOk && o.sc.unused && o.offB.isZero && (o.ty.isFloat || o.ty.isInt) &&
    (if rounds && o.ty.isFloat then o.rnd.notStochastic else o.rnd == .rne)

def apxWf (o : VArgs) : Bool := unWf o && (o.ty == .f32 || o.ty == .bf16 || o.ty == .f16) && o.rnd == .rne

/-- SCOPE and ORD of an M-form that uses neither (R130, R249, R312). -/
def MArgs.noOrd (o : MArgs) : Bool := o.scope == .seq && o.ord == .rlx

/-- ORD and SCOPE of an engine command (R234). -/
def MArgs.engineOrd (o : MArgs) : Bool := (o.ord == .rlx || o.ord == .rel) && ordScopeOk o.ord o.scope

def MArgs.noSrc (o : MArgs) : Bool := o.sa.unused && o.sb.unused && o.sc.unused

/-- A scalar unary or nullary R-form. -/
def RArgs.unary (o : RArgs) : Bool := o.sb.unused && o.mod == 0

def RArgs.nullary (o : RArgs) : Bool := o.sa.unused && o.unary

/-- SFPU forms that round (R336). -/
def fRound (o : FArgs) : Bool := o.ty.isFloat && o.rnd.notStochastic && o.cond == 0

/-- `fcvt` (R336): OT codes 0 from_f64, 1 from_f32, 2 from_bf16, 3 from_f16, 4 from_i64, 5 from_n64. -/
def fcvtWf (o : FArgs) : Bool :=
  o.sb.unused && o.rnd.notStochastic &&
  (match o.ty with
   | .f64 => o.cond.toNat ∈ [1, 2, 3, 4, 5] | .f32 => o.cond.toNat ∈ [0, 2, 3, 4, 5]
   | .bf16 => o.cond.toNat ∈ [0, 1, 3, 4, 5] | .f16 => o.cond.toNat ∈ [0, 1, 2, 4, 5]
   | .i64 | .n64 => o.cond.toNat ∈ [0, 1, 2, 3]
   | _ => false)

/-- The IS form of `strip` (R21, R340, R350). -/
def stripWf (o : StripArgs) : Bool :=
  if o.p == 0 then o.n == 0 && o.sz == 0
  else decide (o.p.toNat + o.n.toNat ≤ 63) && decide (o.sz.toNat < 4 ^ (o.n.toNat + 1)) &&
    !(decide (o.p.toNat ≤ o.d.toNat) && decide (o.d.toNat ≤ o.p.toNat + o.n.toNat))

/-- `tlbinv` (R109): MOD is SCOPE, TYPE, zero. -/
def tlbinvWf (o : RArgs) : Bool :=
  let sc := o.mod.toNat / 128
  let ty := (o.mod.toNat / 16) % 8
  decide (1 ≤ sc ∧ sc ≤ 4) && decide (o.mod.toNat % 16 = 0) &&
  (match ty with
   | 0 => o.d == 0 && o.sa.unused && o.sb.unused
   | 1 => o.d == 0 && o.sa.unused
   | 2 => o.d == 0
   | 3 => true
   | _ => false)

/-- `bfield` (R256). -/
def bfieldWf (o : MArgs) : Bool :=
  o.noOrd && o.noSrc && o.mod.getLsbD 13 == false &&
  (if o.mod.getLsbD 12 then o.d == 0 && o.mod.toNat % 4096 == 0 && decide (o.imm.toNat / 16384 = 0 ∧ o.imm.toNat % 4096 = 0)
   else decide ((o.imm.toNat % 16 + 1) * (o.imm.toNat / 16 % 16 + 1) * (o.imm.toNat / 256 % 16 + 1) ≤ 64 - o.d.toNat))

/-- Every static check of an instruction. -/
def wellFormed : Instr → Bool
  | .add o => o.mod == 0
  | .sub o => o.mod == 0
  | .andB o => o.mod == 0
  | .orB o => o.mod == 0
  | .xorB o => o.mod == 0
  | .andn o => o.mod == 0
  | .shl o => o.mod == 0
  | .shr o => o.mod == 0
  | .sra o => o.mod == 0
  | .mul o => o.mod == 0
  | .mulh o => o.mod == 0
  | .mulhn o => o.mod == 0
  | .div o => o.mod == 0
  | .divn o => o.mod == 0
  | .rem o => o.mod == 0
  | .remn o => o.mod == 0
  | .min o => o.mod == 0
  | .max o => o.mod == 0
  | .minn o => o.mod == 0
  | .maxn o => o.mod == 0
  | .slt o => o.mod == 0
  | .sltn o => o.mod == 0
  | .clz o => o.unary
  | .ctz o => o.unary
  | .popc o => o.unary
  | .addi _ => true
  | .andi _ => true
  | .ori _ => true
  | .xori _ => true
  | .shli o => decide (o.imm.toNat < 64)
  | .shri o => decide (o.imm.toNat < 64)
  | .srai o => decide (o.imm.toNat < 64)
  | .slti _ => true
  | .sltni _ => true
  | .movi _ _ => true
  | .moviW64 _ _ => true
  | .lea _ _ head => decide (head.toNat ≤ 30)
  | .fadd o => fRound o
  | .fsub o => fRound o
  | .fmul o => fRound o
  | .ffma o => fRound o
  | .fdiv o => fRound o
  | .fsqrt o => fRound o && o.sb.unused
  | .fmin o => o.ty.isFloat && o.rnd == .rne && o.cond == 0
  | .fmax o => o.ty.isFloat && o.rnd == .rne && o.cond == 0
  | .fcmp o => o.ty.isFloat && o.rnd == .rne && decide (o.cond.toNat < 7) && decide (o.d.toNat < 16)
  | .fcvt o => fcvtWf o
  | .br o => o.d.getLsbD 4 == false
  | .j o => o.d == 0
  | .jl _ => true
  | .jlr o => o.unary
  | .jr o => o.unary && o.d == 0
  | .loop _ => true
  | .endl => true
  | .brkl => true
  | .strip o => stripWf o
  | .fork _ => true
  | .rdv o => o.unary
  | .abortLine o => o.nullary && o.d == 0
  | .abchk o => o.nullary && decide (o.d.toNat < 16)
  | .qpush o => o.sa.isPred && o.mod == 0 && decide (o.d.toNat < 16)
  | .qpop o => o.sa.isPred && o.mod == 0 && decide (o.d.toNat < 16)
  | .qstat o => o.sa.isPred && o.unary
  | .pset o => decide (o.d.toNat < 16) && decide (o.mod.toNat < 8) && (decide (o.mod.toNat < 6) || (o.sa.unused && o.sb.unused))
  | .pand o => decide (o.d.toNat < 16) && o.sa.isPred && o.sb.isPred && o.mod == 0
  | .por o => decide (o.d.toNat < 16) && o.sa.isPred && o.sb.isPred && o.mod == 0
  | .pxor o => decide (o.d.toNat < 16) && o.sa.isPred && o.sb.isPred && o.mod == 0
  | .pnot o => decide (o.d.toNat < 16) && o.sa.isPred && o.unary
  | .ptest o => decide (o.d.toNat < 16) && o.sa.isMask && o.sb.unused && decide (o.mod.toNat < 3)
  | .csel o => decide (o.mod.toNat < 16)
  | .crd o => o.sa.unused && o.sb.unused && crAssigned o.mod
  | .cwr o => o.d == 0 && o.sb.unused && crPlainWritable o.mod
  | .fsrWrite o => o.d == 0 && o.sb.unused && o.mod == 0x005
  | .estartWrite o => o.d == 0 && o.sb.unused && o.mod == 0x000
  | .xlrootWrite o => o.d == 0 && o.sb.unused && o.mod == 0x020
  | .asidWrite o => o.d == 0 && o.sb.unused && o.mod == 0x021
  | .sventryWrite o => o.d == 0 && o.sb.unused && o.mod == 0x030
  | .tstatWrite o => o.d == 0 && o.sb.unused && o.mod == 0x01B
  | .trap o => o.d == 0 && o.sb.unused
  | .evpop o => decide (o.d.toNat % 4 = 0) && o.d != 0 && o.sa.unused && o.sb.unused && decide (o.mod.toNat < 32)
  | .ctxsv o => o.nullary
  | .ctxld o => o.unary
  | .nop => true
  | .halt => true
  | .wfe => true
  | .sret => true
  | .ld o => (o.ord == .rlx || o.ord == .acq) && ordScopeOk o.ord o.scope && decide (o.ty.toNat < 7)
  | .st o => (o.ord == .rlx || o.ord == .rel) && ordScopeOk o.ord o.scope && decide (o.ty.toNat < 4)
  | .vldUnit o => vldWf o && o.sb.unused
  | .vldShaped o => vldWf o
  | .vlds o => vldWf o && decide (o.sb.reg.toNat ≤ 61)
  | .vldx o => vldWf o
  | .vstUnit o => vstWf o && o.sb.unused
  | .vstShaped o => vstWf o
  | .vsts o => vstWf o && decide (o.sb.reg.toNat ≤ 61)
  | .vstx o => vstWf o
  | .amoAdd o => amoWf [1, 2] o
  | .amoAnd o => amoWf [1, 2] o
  | .amoOr o => amoWf [1, 2] o
  | .amoXor o => amoWf [1, 2] o
  | .amoMin o => amoWf [1, 2] o
  | .amoMax o => amoWf [1, 2] o
  | .amoMinn o => amoWf [1, 2] o
  | .amoMaxn o => amoWf [1, 2] o
  | .amoSwap o => amoWf [1, 2] o
  | .amoFaddF32 o => amoWf [1] o
  | .amoFaddBf16 o => amoWf [0] o
  | .cas o => amoWf [1, 2] o
  | .cas2 o => amoWf [0] o && o.d != 0 && o.d.getLsbD 0 == false && o.sb.reg.getLsbD 0 == false
  | .vamoAdd o => vamoWf 0 o
  | .vamoAnd o => vamoWf 0 o
  | .vamoOr o => vamoWf 0 o
  | .vamoXor o => vamoWf 0 o
  | .vamoMin o => vamoWf 1 o
  | .vamoMax o => vamoWf 1 o
  | .vamoMinn o => vamoWf 2 o
  | .vamoMaxn o => vamoWf 2 o
  | .vamoSwap o => vamoWf 0 o
  | .vamoFaddF32 o => vamoWf 3 o
  | .vamoFaddBf16 o => vamoWf 4 o
  | .glink o => vamoBase o && o.sc.unused && linkTy o.ty && o.vmod == 0
  | .scond o => vamoBase o && linkTy o.ty && o.vmod == 0 && o.d != 0 && decide (o.d.toNat < 8)
  | .saccAdd o => saccWf 0 o
  | .saccAnd o => saccWf 0 o
  | .saccOr o => saccWf 0 o
  | .saccXor o => saccWf 0 o
  | .saccMin o => saccWf 1 o
  | .saccMax o => saccWf 1 o
  | .saccMinn o => saccWf 2 o
  | .saccMaxn o => saccWf 2 o
  | .saccFaddF32 o => saccWf 3 o
  | .saccFaddBf16 o => saccWf 4 o
  | .combiningWindowApply => true
  | .vwait o => vamoBase o && amoTy 0 o.ty && decide (o.vmod.toNat < 3)
  | .vwaitFire => true
  | .vwaitHostPoll => true
  | .linkExpiry => true
  | .skim o => o.d == 0 && o.mod == 0
  | .wbr o => o.d == 0 && decide (o.mod.toNat < 4)
  | .flctx o => o.d == 0 && o.mod == 0
  | .flctxAll o => o.d == 0 && o.mod == 1 && o.sb.unused
  | .homeReadRequest => true
  | .homeRegistration => true
  | .homeWriteThrough => true
  | .engineWriteAtHome => true
  | .epochTick => true
  | .l1UncorrectableError => true
  | .hostSharedRead => true
  | .hostExclusiveRequest => true
  | .tlbinv o => tlbinvWf o
  | .tlbprobe o => o.sb.unused && decide (o.mod.toNat % 128 = 0)
  | .resvNew o => o.noOrd && decide (o.mod.toNat = 0 ∨ o.mod.toNat = 4) && decide (o.imm.toNat ≤ 4)
  | .resvUse o => o.noOrd && o.d == 0 && o.sb.unused && o.sc.unused && o.mod == 1 && o.imm == 0
  | .resvQuota o => o.noOrd && o.d == 0 && o.sc.unused && o.mod == 2 && decide (o.imm.toNat ≤ 3)
  | .resvPool o => o.noOrd && o.d == 0 && o.sb.unused && o.sc.unused && o.mod == 3 && decide (o.imm.toNat ≤ 3)
  | .unresv o => o.noOrd && o.d == 0 && o.sb.unused && o.sc.unused && o.mod == 0 && o.imm == 0
  | .disc o => o.noOrd && o.d == 0 && o.sc.unused && o.mod == 0 && o.imm == 0
  | .umig o => o.noOrd && o.d == 0 && o.mod == 0 && o.imm == 0
  | .promo o => o.noOrd && o.d == 0 && o.sc.unused && o.mod == 0 && o.imm == 0
  | .tstat o => o.noOrd && o.sb.unused && o.sc.unused && decide (o.mod.toNat < 3) && o.imm == 0
  | .cfork o => o.noOrd && o.d == 0 && o.mod == 0 && o.imm == 0
  | .loffer o => o.noOrd && decide (o.mod.toNat < 2048) && decide (10 ≤ o.imm.toNat ∧ o.imm.toNat ≤ 2000)
  | .ltake o => o.noOrd && o.sb.unused && o.sc.unused && o.mod == 0 && o.imm == 0
  | .lrecl o => o.noOrd && o.sb.unused && o.sc.unused && o.mod == 0 && o.imm == 0
  | .lretRet o => o.noOrd && o.sb.unused && o.sc.unused && o.mod == 0 && o.imm == 0
  | .lretFree o => o.noOrd && o.sb.unused && o.sc.unused && o.mod == 1 && o.imm == 0
  | .leaseOfferReceived => true
  | .leaseTakeReceived => true
  | .leaseReclaimReceived => true
  | .leaseReturnBegunReceived => true
  | .leasePullLine => true
  | .leasePullComplete => true
  | .leaseReturnReceived => true
  | .leaseDeadline => true
  | .fence o => o.ord != .rlx && o.d == 0 && o.sa.unused && o.sb.unused && o.fm == 0
  | .phase o => o.ord == .rlx && o.scope != .seq && o.sb.unused && o.fm == 0
  | .bwait o => o.ord == .rlx && o.scope != .seq && o.d == 0 && o.fm == 0
  | .bwaitWake => true
  | .arrive o => o.ord == .rlx && o.scope == .seq && o.sb.unused && o.fm == 0
  | .arriveRemote o => o.ord == .rlx && o.scope == .seq && o.fm == 1
  | .arriveLeave o => o.ord == .rlx && o.scope == .seq && o.sb.unused && o.d == 0 && o.fm == 2
  | .arriveJoin o => o.ord == .rlx && o.scope == .seq && o.sb.unused && o.d == 0 && o.fm == 3
  | .fput o => (o.ord == .rlx || o.ord == .rel) && ordScopeOk o.ord o.scope && decide (o.d.toNat < 16) && decide (o.fm.toNat < 2)
  | .fget o => (o.ord == .rlx || o.ord == .acq) && ordScopeOk o.ord o.scope && o.sb.unused && decide (o.fm.toNat < 2)
  | .fgetWake => true
  | .twk o => o.engineOrd && o.sb.unused && o.sc.unused && decide (o.mod.toNat < 32)
  | .twkm o => o.engineOrd && o.sc.unused && decide (o.mod.toNat < 32)
  | .grant o => o.engineOrd && o.d == 0 && o.sc.unused && decide (o.mod.toNat < 48) && (decide (o.mod.toNat < 16) || (o.sa.unused && o.sb.unused && (decide (o.mod.toNat < 32) || o.imm == 0)))
  | .copy o => o.engineOrd && decide (o.mod.toNat = 0 ∨ o.mod.toNat = 16)
  | .rcopy o => o.engineOrd && decide (o.mod.toNat ∈ [0, 1, 16, 17]) && decide (o.sc.reg.toNat ≤ 62) && (o.mod.getLsbD 0 == false || decide (o.sc.reg.toNat ≤ 61))
  | .evwait o => o.noOrd && o.sb.unused && o.sc.unused && decide (o.mod.toNat < 2) && decide (1 ≤ o.imm.toNat ∧ o.imm.toNat ≤ 16)
  | .evwaitWake => true
  | .wfeWake => true
  | .permitCreditTake => true
  | .trowelBeat => true
  | .engineCommandComplete => true
  | .spawn o => o.unary && decide (o.d.toNat < 16)
  | .spawnArrival => true
  | .cancel o => o.unary
  | .cancelMark => true
  | .done o => o.nullary && o.d == 0
  | .yieldSeq o => o.nullary && decide (o.d.toNat < 16)
  | .launch o => o.unary
  | .launchComplete => true
  | .hostQueueRecord => true
  | .hiveDispatch => true
  | .energyAgeExpiry => true
  | .hiveSteal => true
  | .stageReview => true
  | .preempt => true
  | .contextResume => true
  | .tileStepIssue => true
  | .tileRecordComplete => true
  | .tileStepStop => true
  | .vset o => o.noOrd && o.sb.unused && o.sc.unused && decide (o.mod.toNat < 2) && decide (o.imm.toNat < 4096)
  | .vsetFree o => o.noOrd && o.noSrc && o.mod == 2 && o.imm == 0
  | .bfield o => bfieldWf o
  | .bhalo o => o.noOrd && o.sb.unused && o.sc.unused && decide (o.mod.toNat < 2) && decide (o.imm.toNat < 4) && (o.mod == 0 || o.sa.unused)
  | .vmov o => o.maskOk && o.rnd == .rne && o.offB.isZero && o.sc.unused && o.sb.unused && o.vmod == 0
  | .vbcast o => o.maskOk && o.rnd == .rne && o.offB.isZero && o.sc.unused && o.offA.isZero && decide (o.vmod.toNat < 2) && (o.vmod == 1 || o.sb.unused)
  | .vslide o => o.maskOk && o.rnd == .rne && o.offB.isZero && o.sc.unused && o.offA.isZero && decide (o.vmod.toNat < 2)
  | .vtrans o => o.maskOk && o.rnd == .rne && o.offB.isZero && o.sc.unused && o.offA.isZero && o.sb.unused && decide (o.vmod.toNat < 6)
  | .vcomp o => o.maskOk && o.rnd == .rne && o.offB.isZero && o.sc.unused && o.offA.isZero && o.sb.unused && o.vmod == 0
  | .vexp o => o.maskOk && o.rnd == .rne && o.offB.isZero && o.sc.unused && o.offA.isZero && o.sb.unused && o.vmod == 0
  | .vins o => o.maskOk && o.rnd == .rne && o.offB.isZero && o.sc.unused && o.offA.isZero && o.vmod == 0 && !o.me
  | .vext o => o.maskOk && o.rnd == .rne && o.offB.isZero && o.sc.unused && o.offA.isZero && o.vmod == 0 && !o.me
  | .vgath o => o.maskOk && o.rnd == .rne && o.offB.isZero && o.sc.unused && o.offA.isZero && o.vmod == 0
  | .mand o => decide (o.d.toNat < 8) && o.sa.isMask && o.sb.isMask && o.mod == 0
  | .mor o => decide (o.d.toNat < 8) && o.sa.isMask && o.sb.isMask && o.mod == 0
  | .mxor o => decide (o.d.toNat < 8) && o.sa.isMask && o.sb.isMask && o.mod == 0
  | .mnot o => decide (o.d.toNat < 8) && o.sa.isMask && o.unary
  | .mpopc o => o.sa.isMask && o.unary
  | .mfirst o => o.sa.isMask && o.unary
  | .miota o => o.sa.isMask && o.unary
  | .mset o => decide (o.d.toNat < 8) && o.sb.unused && decide (o.mod.toNat < 4) && (decide (o.mod.toNat < 2) || o.sa.unused)
  | .vadd o => binWf o 0 && o.ty.isInt && o.rnd == .rne
  | .vsub o => binWf o 0 && o.ty.isInt && o.rnd == .rne
  | .vmul o => binWf o 0 && o.ty.isInt && o.rnd == .rne
  | .vmulh o => binWf o 0 && o.ty.isInt && o.rnd == .rne
  | .vdiv o => binWf o 0 && o.ty.isInt && o.rnd == .rne
  | .vrem o => binWf o 0 && o.ty.isInt && o.rnd == .rne
  | .vmin o => binWf o 0 && o.ty.isInt && o.rnd == .rne
  | .vmax o => binWf o 0 && o.ty.isInt && o.rnd == .rne
  | .vabs o => unWf o && o.ty.isSigned && o.rnd == .rne
  | .vand o => binWf o 0 && o.ty.isInt && o.rnd == .rne
  | .vor o => binWf o 0 && o.ty.isInt && o.rnd == .rne
  | .vxor o => binWf o 0 && o.ty.isInt && o.rnd == .rne
  | .vshl o => binWf o 0 && o.ty.isInt && o.rnd == .rne
  | .vshr o => binWf o 0 && o.ty.isInt && o.rnd == .rne
  | .vsra o => binWf o 0 && o.ty.isInt && o.rnd == .rne
  | .vsadd o => binWf o 0 && o.ty.isInt && o.rnd == .rne
  | .vssub o => binWf o 0 && o.ty.isInt && o.rnd == .rne
  | .vcmp o => binWf o 14 && o.ty.isInt && o.rnd == .rne && decide (o.d.toNat < 8) && decide (o.vmod.toNat / 2 < 6)
  | .vsel o => binWf o 0 && o.me && o.rnd == .rne
  | .vclz o => unWf o && o.ty.isInt && o.rnd == .rne
  | .vpopc o => unWf o && o.ty.isInt && o.rnd == .rne
  | .vfadd o => binWf o 0 && o.ty.isFloat && o.rnd.notStochastic
  | .vfsub o => binWf o 0 && o.ty.isFloat && o.rnd.notStochastic
  | .vfmul o => binWf o 0 && o.ty.isFloat && o.rnd.notStochastic
  | .vfdiv o => binWf o 0 && o.ty.isFloat && o.rnd.notStochastic
  | .vfsqrt o => unWf o && o.ty.isFloat && o.rnd.notStochastic
  | .vfmin o => binWf o 0 && o.ty.isFloat && o.rnd == .rne
  | .vfmax o => binWf o 0 && o.ty.isFloat && o.rnd == .rne
  | .vfabs o => unWf o && o.ty.isFloat && o.rnd == .rne
  | .vfneg o => unWf o && o.ty.isFloat && o.rnd == .rne
  | .vfcmp o => binWf o 14 && o.ty.isFloat && o.rnd == .rne && decide (o.d.toNat < 8) && decide (o.vmod.toNat / 2 < 7)
  | .vfclass o => unWf o && o.ty.isFloat && o.rnd == .rne
  | .vfma o => fusedWf o
  | .vfms o => fusedWf o
  | .vfnma o => fusedWf o
  | .vfnms o => fusedWf o
  | .vcvtn o => convBase o && decide (o.otCode ∈ halfPairs o.ty) && (o.ty.isFloat || o.rnd == .rne)
  | .vcvtw o => convBase o && decide (o.otCode ∈ halfPairs o.ty) && o.rnd == .rne
  | .vcvti o => convBase o && decide (o.otCode ∈ crossPairs o.ty) && o.rnd.notStochastic
  | .vq4 o => o.ty == .f32 && decide (o.vmod.toNat = 2 ∨ o.vmod.toNat = 4) && o.sb.unused && o.sc.unused && o.noOff && !o.me && o.msel == 0 && decide (o.d.toNat ≤ 62) && o.sa.reg != o.d && o.sa.reg != o.d + 1
  | .vredo o => redWf o true && o.vmod == 0
  | .vredt o => redWf o true && o.sb.unused && o.vmod == 0
  | .vredm o => redWf o false && decide (o.vmod.toNat = 0 ∨ o.vmod.toNat = 2)
  | .vredb o => redWf o false && o.ty.isInt && decide (o.vmod.toNat ∈ [0, 2, 4])
  | .vrcp o => apxWf o
  | .vrsq o => apxWf o
  | .vexp2 o => apxWf o
  | .vlog2 o => apxWf o
  | .mcfg o => o.noOrd && o.sb.unused && o.sc.unused && o.mod == 0 && o.imm == 0
  | .mstep o => o.noOrd && decide (o.d.toNat < 2) && o.mod == 0 && decide (o.imm.toNat ≤ 8)
  | .mzero o => o.noOrd && decide (o.d.toNat < 2) && o.noSrc && o.mod == 0 && o.imm == 0
  | .mrda o => o.noOrd && o.sa.isAcc && o.sc.unused && o.mod == 0 && o.imm == 0
  | .mwra o => o.noOrd && decide (o.d.toNat < 2) && o.sc.unused && o.mod == 0 && o.imm == 0
  | .mdrainBrk o => o.noOrd && o.sa.isAcc && o.sc.unused && decide (o.mod.toNat = 0 ∨ o.mod.toNat = 2) && o.imm == 0
  | .mdrainMem o => o.noOrd && o.sa.isAcc && decide (o.mod.toNat = 1 ∨ o.mod.toNat = 3) && decide (1 ≤ o.imm.toNat ∧ o.imm.toNat ≤ 64)
  | .longLatencyComplete => true
  | .dieFlitReceive => true
  | .dieAckReceive => true
  | .dieResendTimeout => true
  | .dieLinkRetrain => true
  | .dieLinkFail => true
  | .relovPacketReceive => true
  | .relovAckTimer => true
  | .relovAckReceive => true
  | .relovResendTimeout => true
  | .relovDoneReceive => true
  | .relovPathFailure => true
  | .relovCombineApply => true
  | .hostBarRead => true
  | .hostBarWrite => true
  | .hostAtomicopCompleter => true
  | .hostCompletionReceive => true
  | .bandwidthRefill => true
  | .powerControlTick => true
  | .thermalTrip => true
  | .supplyFault => true
  | .coreSleep => true
  | .coreWake => true
  | .powerOnReset => true
  | .firmwareUpdate => true
  | .mgmtRestart => true
  | .mgmtHealthTimeout => true
  | .mailboxCloseReopen => true
  | .mailboxServiceChange => true
  | .mailboxAccessTableWrite => true
  | .mailboxShareTotal => true
  | .mailboxMeasurementExtend => true
  | .mailboxSvnRequest => true
  | .mailboxSubmissionContext => true
  | .getVersion => true
  | .getCapabilities => true
  | .negotiateAlgorithms => true
  | .getCertificate => true
  | .challenge => true
  | .getMeasurements => true
  | .keyExchange => true
  | .keySlotLoad => true
  | .keySlotErase => true
  | .illegalInstruction => true
  | .boundaryRetrained => true
  | .coreFailure => true

/-- The instruction passes every static check (R43). -/
abbrev Instr.Wf (i : Instr) : Prop := wellFormed i = true

end Sys2Proof
end

