-- ==== Sys2Proof/Decode.lean ====
section
/-! DEFINITION. The decoder of code lines, heads and tails (01 R10-R46), total, refusing by name; after it the encoder,
written from the same tables, and the word of the host's interface. -/

namespace Sys2Proof

/-- Why a head is no instruction (R43). Each is the illegal-instruction trap when the head is reached (R44). -/
inductive DecodeError where
  /-- MAJ = 0x00. -/
  | illegalMajor
  /-- A reserved major (R40). -/
  | reservedMajor
  /-- An X value not listed for the major (R42). -/
  | badModifier
  /-- A tail class other than the one R40 gives (R42). -/
  | badTailClass
  /-- An unassigned minor code (R40). -/
  | unassignedMinor
  /-- A reserved TY, RND, SCOPE or ORD value (R25). -/
  | reservedValue
  /-- A nonzero unused field, a register outside its file, or a value the instruction does not accept (R43). -/
  | illFormed
deriving DecidableEq, Repr

/-- A code line: byte k is bits [8k+7:8k] (R10: little-endian). -/
abbrev CodeLine := BitVec 512

/-- The 16-bit line header (R11). -/
def CodeLine.header (l : CodeLine) : BitVec 16 := l.extractLsb' 0 16

/-- H, the number of heads (R11). -/
def CodeLine.heads (l : CodeLine) : Nat := (l.extractLsb' 0 5).toNat

/-- Head i, at byte 2 + 2i (R10). -/
def CodeLine.head (l : CodeLine) (i : Nat) : BitVec 16 := l.extractLsb' (16 + 16 * i) 16

/-- Bytes of a tail length class (R12). -/
def tailBytes (tl : BitVec 2) : Nat :=
  match tl.toNat with
  | 0 => 0
  | 1 => 2
  | 2 => 4
  | _ => 8

/-- The tail length class of a head (R12). -/
def headTl (h : BitVec 16) : BitVec 2 := h.extractLsb' 8 2

/-- Sum of the tails of the first i heads: S of R13. -/
def CodeLine.tailSum (l : CodeLine) : Nat → Nat
  | 0 => 0
  | i + 1 => l.tailSum i + tailBytes (headTl (l.head i))

/-- A line is well formed (R13, R15). -/
def CodeLine.wellFormed (l : CodeLine) : Bool :=
  l.heads != 0 && l.extractLsb' 5 11 == 0 && decide (2 + 2 * l.heads + l.tailSum l.heads ≤ 64)

/-- The tail of head i, zero-extended (R13). -/
def CodeLine.tail (l : CodeLine) (i : Nat) : BitVec 64 :=
  let n := tailBytes (headTl (l.head i))
  let s := l.tailSum i
  (BitVec.ofNat 64 ((l.toNat >>> (8 * (64 - s - n))) % 2 ^ (8 * n)))

/-- The tail formats (R19 to R24). -/
inductive Form where
  | none | b | r | ia | iw | i64 | il | is | v | m
deriving DecidableEq, Repr

/-- The tail class of a format. -/
def Form.tl : Form → BitVec 2
  | .none => 0
  | .b => 1
  | .r | .ia | .iw | .il | .is => 2
  | .i64 | .v | .m => 3

/-- The assigned majors with their X values and tail formats (R40). -/
def formOf (maj x : Nat) : Option Form :=
  match maj, x with
  | 0x01, 0 => some .r
  | 0x02, 0 => some .ia
  | 0x03, 0 => some .iw
  | 0x03, 1 => some .i64
  | 0x03, 2 => some .il
  | 0x04, 0 => some .r
  | 0x05, 0 => some .b
  | 0x05, 1 => some .b
  | 0x06, 0 => some .b
  | 0x06, 1 => some .r
  | 0x06, 2 => some .r
  | 0x07, 0 => some .b
  | 0x07, 1 => some .none
  | 0x07, 2 => some .none
  | 0x08, 0 => some .is
  | 0x09, 0 => some .b
  | 0x09, 1 => some .r
  | 0x0A, 0 => some .r
  | 0x0B, 0 => some .r
  | 0x0C, 0 => some .r
  | 0x0C, 1 => some .none
  | 0x10, 0 => some .ia
  | 0x11, 0 => some .ia
  | 0x12, 0 => some .v
  | 0x13, 0 => some .v
  | 0x14, 0 => some .r
  | 0x15, 0 => some .v
  | 0x16, 0 => some .r
  | 0x17, 0 => some .m
  | 0x18, 0 => some .r
  | 0x19, 0 => some .r
  | 0x1A, 0 => some .m
  | 0x1B, 0 => some .r
  | 0x20, 0 => some .m
  | 0x21, 0 => some .v
  | 0x22, 0 => some .r
  | 0x23, 0 => some .v
  | 0x24, 0 => some .v
  | 0x25, 0 => some .v
  | 0x26, 0 => some .v
  | 0x27, 0 => some .v
  | 0x28, 0 => some .v
  | 0x30, 0 => some .m
  | _, _ => Option.none

/-- Whether a major is assigned (R40). -/
def majorAssigned (maj : Nat) : Bool :=
  (formOf maj 0).isSome

/-- The element type of a TY code (R27). -/
def Ty.ofCode (c : BitVec 4) : Option Ty :=
  match c.toNat with
  | 0x0 => some .i8
  | 0x1 => some .i16
  | 0x2 => some .i32
  | 0x3 => some .i64
  | 0x4 => some .n8
  | 0x5 => some .n16
  | 0x6 => some .n32
  | 0x7 => some .n64
  | 0x8 => some .f64
  | 0x9 => some .f32
  | 0xA => some .bf16
  | 0xB => some .f16
  | 0xC => some .fp8a
  | 0xD => some .fp8b
  | _ => Option.none

/-- The TY code of an element type (R27). -/
def Ty.code : Ty → BitVec 4
  | .i8 => 0x0 | .i16 => 0x1 | .i32 => 0x2 | .i64 => 0x3
  | .n8 => 0x4 | .n16 => 0x5 | .n32 => 0x6 | .n64 => 0x7
  | .f64 => 0x8 | .f32 => 0x9 | .bf16 => 0xA | .f16 => 0xB
  | .fp8a => 0xC | .fp8b => 0xD

/-- The rounding mode of an RND code (R28). -/
def Rnd.ofCode (c : BitVec 3) : Option Rnd :=
  match c.toNat with
  | 0 => some .rne
  | 1 => some .rna
  | 2 => some .rtz
  | 3 => some .rdn
  | 4 => some .rup
  | 5 => some .rsr
  | 6 => some .dyn
  | _ => Option.none

/-- The RND code of a rounding mode (R28). -/
def Rnd.code : Rnd → BitVec 3
  | .rne => 0 | .rna => 1 | .rtz => 2 | .rdn => 3 | .rup => 4 | .rsr => 5 | .dyn => 6

/-- The scope of a SCOPE code (R29). -/
def Scope.ofCode (c : BitVec 3) : Option Scope :=
  match c.toNat with
  | 0 => some .seq
  | 1 => some .core
  | 2 => some .clu
  | 3 => some .die
  | 4 => some .dev
  | 5 => some .sys
  | _ => Option.none

/-- The SCOPE code of a scope (R29). -/
def Scope.code : Scope → BitVec 3
  | .seq => 0 | .core => 1 | .clu => 2 | .die => 3 | .dev => 4 | .sys => 5

/-- The order of an ORD code (R30). -/
def Ord.ofCode (c : BitVec 2) : Ord :=
  match c.toNat with
  | 0 => .rlx
  | 1 => .acq
  | 2 => .rel
  | _ => .ar

/-- The ORD code of an order (R30). -/
def Ord.code : Ord → BitVec 2
  | .rlx => 0 | .acq => 1 | .rel => 2 | .ar => 3

/-- A 7-bit source field (R18). -/
def Src.unpack (b : BitVec 7) : Src := ⟨b.extractLsb' 1 6, b.getLsbD 0⟩

def Src.pack (a : Src) : BitVec 7 := a.reg ++ BitVec.ofBool a.w

/-- An offset triple (R23). -/
def Off.unpack (b : BitVec 9) : Off := ⟨b.extractLsb' 6 3, b.extractLsb' 3 3, b.extractLsb' 0 3⟩

def Off.pack (o : Off) : BitVec 9 := o.dz ++ o.dy ++ o.dx

/-- The minor code of a T32 tail with one (R20, R21). -/
def mn32 (t : BitVec 64) : Nat := (t.extractLsb' 24 8).toNat

/-- The minor code of a T64 tail with one (R23, R24). -/
def mn64 (t : BitVec 64) : Nat := (t.extractLsb' 56 8).toNat

/-- T32 R-form (R20). -/
def unpackR (d : Reg) (t : BitVec 64) : RArgs :=
  ⟨d, Src.unpack (t.extractLsb' 17 7), Src.unpack (t.extractLsb' 10 7), t.extractLsb' 0 10⟩

def packR (mn : BitVec 8) (o : RArgs) : BitVec 64 :=
  (mn ++ o.sa.pack ++ o.sb.pack ++ o.mod : BitVec 32).setWidth 64

/-- The SFPU reading of the R-form's MOD (R336). -/
def unpackF (d : Reg) (t : BitVec 64) : Option FArgs := do
  let r ← Rnd.ofCode (t.extractLsb' 4 3)
  let y ← Ty.ofCode (t.extractLsb' 0 4)
  return ⟨d, Src.unpack (t.extractLsb' 17 7), Src.unpack (t.extractLsb' 10 7), t.extractLsb' 7 3, r, y⟩

def packF (mn : BitVec 8) (o : FArgs) : BitVec 64 :=
  (mn ++ o.sa.pack ++ o.sb.pack ++ o.cond ++ o.rnd.code ++ o.ty.code : BitVec 32).setWidth 64

/-- The AMO reading of the R-form's MOD (R202); bits [2:0] are zero. -/
def unpackA (d : Reg) (t : BitVec 64) : Option AArgs := do
  let sc ← Scope.ofCode (t.extractLsb' 5 3)
  if t.extractLsb' 0 3 != 0 then Option.none
  return ⟨d, Src.unpack (t.extractLsb' 17 7), Src.unpack (t.extractLsb' 10 7), Ord.ofCode (t.extractLsb' 8 2), sc, t.extractLsb' 3 2⟩

def packA (mn : BitVec 8) (o : AArgs) : BitVec 64 :=
  (mn ++ o.sa.pack ++ o.sb.pack ++ o.ord.code ++ o.scope.code ++ o.sz ++ (0 : BitVec 3) : BitVec 32).setWidth 64

/-- The SYNC reading of the R-form's MOD (R390). -/
def unpackS (d : Reg) (t : BitVec 64) : Option SArgs := do
  let sc ← Scope.ofCode (t.extractLsb' 5 3)
  return ⟨d, Src.unpack (t.extractLsb' 17 7), Src.unpack (t.extractLsb' 10 7), Ord.ofCode (t.extractLsb' 8 2), sc, t.extractLsb' 0 5⟩

def packS (mn : BitVec 8) (o : SArgs) : BitVec 64 :=
  (mn ++ o.sa.pack ++ o.sb.pack ++ o.ord.code ++ o.scope.code ++ o.fm : BitVec 32).setWidth 64

/-- T32 IA (R21). -/
def unpackI (d : Reg) (t : BitVec 64) : IArgs := ⟨d, Src.unpack (t.extractLsb' 17 7), t.extractLsb' 0 17⟩

def packI (mn : BitVec 8) (o : IArgs) : BitVec 64 := (mn ++ o.sa.pack ++ o.imm : BitVec 32).setWidth 64

/-- T32 IA with the structured MN of loads and stores (R41). -/
def unpackL (d : Reg) (t : BitVec 64) : Option LArgs := do
  let sc ← Scope.ofCode (t.extractLsb' 27 3)
  return ⟨d, Ord.ofCode (t.extractLsb' 30 2), sc, t.extractLsb' 24 3, Src.unpack (t.extractLsb' 17 7), t.extractLsb' 0 17⟩

def packL (o : LArgs) : BitVec 64 :=
  (o.ord.code ++ o.scope.code ++ o.ty ++ o.sa.pack ++ o.imm : BitVec 32).setWidth 64

/-- T16 B (R19). -/
def unpackB (d : Reg) (t : BitVec 64) : BArgs := ⟨d, t.extractLsb' 5 11, t.extractLsb' 0 5⟩

def packB (o : BArgs) : BitVec 64 := (o.disp ++ o.head : BitVec 16).setWidth 64

/-- T32 IS (R21). -/
def unpackIs (d : Reg) (t : BitVec 64) : StripArgs :=
  ⟨d, t.extractLsb' 21 11, t.extractLsb' 16 5, t.extractLsb' 10 6, t.extractLsb' 8 2, t.extractLsb' 0 8⟩

def packIs (o : StripArgs) : BitVec 64 := (o.disp ++ o.head ++ o.p ++ o.n ++ o.sz : BitVec 32).setWidth 64

/-- T64 V (R23). -/
def unpackV (d : Reg) (t : BitVec 64) : Option VArgs := do
  let y ← Ty.ofCode (t.extractLsb' 9 4)
  let r ← Rnd.ofCode (t.extractLsb' 6 3)
  return ⟨d, Src.unpack (t.extractLsb' 49 7), Src.unpack (t.extractLsb' 42 7), Src.unpack (t.extractLsb' 35 7),
    Off.unpack (t.extractLsb' 26 9), Off.unpack (t.extractLsb' 17 9), t.getLsbD 16, t.extractLsb' 13 3, y, r, t.extractLsb' 0 6⟩

def packV (mn : BitVec 8) (o : VArgs) : BitVec 64 :=
  mn ++ o.sa.pack ++ o.sb.pack ++ o.sc.pack ++ o.offA.pack ++ o.offB.pack ++ BitVec.ofBool o.me ++ o.msel ++ o.ty.code ++
    o.rnd.code ++ o.vmod

/-- T64 M (R24). -/
def unpackM (d : Reg) (t : BitVec 64) : Option MArgs := do
  let sc ← Scope.ofCode (t.extractLsb' 32 3)
  return ⟨d, Src.unpack (t.extractLsb' 49 7), Src.unpack (t.extractLsb' 42 7), Src.unpack (t.extractLsb' 35 7), sc,
    Ord.ofCode (t.extractLsb' 30 2), t.extractLsb' 16 14, t.extractLsb' 0 16⟩

def packM (mn : BitVec 8) (o : MArgs) : BitVec 64 :=
  mn ++ o.sa.pack ++ o.sb.pack ++ o.sc.pack ++ o.scope.code ++ o.ord.code ++ o.mod ++ o.imm

/-- `cwr` by its register: a few writes are steps of their own (R38, R82, R107, R408, R409). -/
def cwrOf (o : RArgs) : Instr :=
  match o.mod.toNat with
  | 0x000 => .estartWrite o
  | 0x005 => .fsrWrite o
  | 0x01B => .tstatWrite o
  | 0x020 => .xlrootWrite o
  | 0x021 => .asidWrite o
  | 0x030 => .sventryWrite o
  | _ => .cwr o

/-- `vset` by MOD (R251). -/
def vsetOf (o : MArgs) : Instr := if o.mod == 2 then .vsetFree o else .vset o

/-- `arrive` by FM (R390). -/
def arriveOf (o : SArgs) : Instr :=
  match o.fm.toNat with
  | 1 => .arriveRemote o
  | 2 => .arriveLeave o
  | 3 => .arriveJoin o
  | _ => .arrive o

/-- `resv` by MOD (R133). -/
def resvOf (o : MArgs) : Instr :=
  match o.mod.toNat with
  | 1 => .resvUse o
  | 2 => .resvQuota o
  | 3 => .resvPool o
  | _ => .resvNew o

/-- `lret` by MOD (R144). -/
def lretOf (o : MArgs) : Instr := if o.mod == 1 then .lretFree o else .lretRet o

/-- `flctx` by MOD (R179). -/
def flctxOf (o : RArgs) : Instr := if o.mod == 1 then .flctxAll o else .flctx o

/-- `mdrain` by MOD[0] (R319). -/
def mdrainOf (o : MArgs) : Instr := if o.mod.getLsbD 0 then .mdrainMem o else .mdrainBrk o

/-- The minor codes of major 0x01, X = 0 (R40). -/
def minor01x0 (mn : Nat) (o : RArgs) : Option Instr :=
  match mn with
  | 0x00 => some (.add o)
  | 0x01 => some (.sub o)
  | 0x02 => some (.andB o)
  | 0x03 => some (.orB o)
  | 0x04 => some (.xorB o)
  | 0x05 => some (.andn o)
  | 0x06 => some (.shl o)
  | 0x07 => some (.shr o)
  | 0x08 => some (.sra o)
  | 0x09 => some (.mul o)
  | 0x0A => some (.mulh o)
  | 0x0B => some (.mulhn o)
  | 0x0C => some (.div o)
  | 0x0D => some (.divn o)
  | 0x0E => some (.rem o)
  | 0x0F => some (.remn o)
  | 0x10 => some (.min o)
  | 0x11 => some (.max o)
  | 0x12 => some (.minn o)
  | 0x13 => some (.maxn o)
  | 0x14 => some (.slt o)
  | 0x15 => some (.sltn o)
  | 0x16 => some (.clz o)
  | 0x17 => some (.ctz o)
  | 0x18 => some (.popc o)
  | _ => Option.none

/-- The minor codes of major 0x02, X = 0 (R40). -/
def minor02x0 (mn : Nat) (o : IArgs) : Option Instr :=
  match mn with
  | 0x00 => some (.addi o)
  | 0x01 => some (.andi o)
  | 0x02 => some (.ori o)
  | 0x03 => some (.xori o)
  | 0x04 => some (.shli o)
  | 0x05 => some (.shri o)
  | 0x06 => some (.srai o)
  | 0x07 => some (.slti o)
  | 0x08 => some (.sltni o)
  | _ => Option.none

/-- The minor codes of major 0x04, X = 0 (R40). -/
def minor04x0 (mn : Nat) (o : FArgs) : Option Instr :=
  match mn with
  | 0x00 => some (.fadd o)
  | 0x01 => some (.fsub o)
  | 0x02 => some (.fmul o)
  | 0x03 => some (.ffma o)
  | 0x04 => some (.fdiv o)
  | 0x05 => some (.fsqrt o)
  | 0x06 => some (.fmin o)
  | 0x07 => some (.fmax o)
  | 0x08 => some (.fcmp o)
  | 0x09 => some (.fcvt o)
  | _ => Option.none

/-- The minor codes of major 0x06, X = 1 (R40). -/
def minor06x1 (mn : Nat) (o : RArgs) : Option Instr :=
  match mn with
  | 0x00 => some (.jlr o)
  | _ => Option.none

/-- The minor codes of major 0x06, X = 2 (R40). -/
def minor06x2 (mn : Nat) (o : RArgs) : Option Instr :=
  match mn with
  | 0x00 => some (.jr o)
  | _ => Option.none

/-- The minor codes of major 0x09, X = 1 (R40). -/
def minor09x1 (mn : Nat) (o : RArgs) : Option Instr :=
  match mn with
  | 0x00 => some (.rdv o)
  | 0x01 => some (.abortLine o)
  | 0x02 => some (.abchk o)
  | _ => Option.none

/-- The minor codes of major 0x0A, X = 0 (R40). -/
def minor0Ax0 (mn : Nat) (o : RArgs) : Option Instr :=
  match mn with
  | 0x00 => some (.qpush o)
  | 0x01 => some (.qpop o)
  | 0x02 => some (.qstat o)
  | _ => Option.none

/-- The minor codes of major 0x0B, X = 0 (R40). -/
def minor0Bx0 (mn : Nat) (o : RArgs) : Option Instr :=
  match mn with
  | 0x00 => some (.pset o)
  | 0x01 => some (.pand o)
  | 0x02 => some (.por o)
  | 0x03 => some (.pxor o)
  | 0x04 => some (.pnot o)
  | 0x05 => some (.ptest o)
  | 0x06 => some (.csel o)
  | _ => Option.none

/-- The minor codes of major 0x0C, X = 0 (R40). -/
def minor0Cx0 (mn : Nat) (o : RArgs) : Option Instr :=
  match mn with
  | 0x00 => some (.crd o)
  | 0x01 => some (cwrOf o)
  | 0x02 => some (.trap o)
  | 0x03 => some (.evpop o)
  | 0x04 => some (.ctxsv o)
  | 0x05 => some (.ctxld o)
  | _ => Option.none

/-- The minor codes of major 0x12, X = 0 (R40). -/
def minor12x0 (mn : Nat) (o : VArgs) : Option Instr :=
  match mn with
  | 0x00 => some (.vldUnit o)
  | 0x01 => some (.vldShaped o)
  | 0x02 => some (.vlds o)
  | 0x03 => some (.vldx o)
  | _ => Option.none

/-- The minor codes of major 0x13, X = 0 (R40). -/
def minor13x0 (mn : Nat) (o : VArgs) : Option Instr :=
  match mn with
  | 0x00 => some (.vstUnit o)
  | 0x01 => some (.vstShaped o)
  | 0x02 => some (.vsts o)
  | 0x03 => some (.vstx o)
  | _ => Option.none

/-- The minor codes of major 0x14, X = 0 (R40). -/
def minor14x0 (mn : Nat) (o : AArgs) : Option Instr :=
  match mn with
  | 0x00 => some (.amoAdd o)
  | 0x01 => some (.amoAnd o)
  | 0x02 => some (.amoOr o)
  | 0x03 => some (.amoXor o)
  | 0x04 => some (.amoMin o)
  | 0x05 => some (.amoMax o)
  | 0x06 => some (.amoMinn o)
  | 0x07 => some (.amoMaxn o)
  | 0x08 => some (.amoSwap o)
  | 0x09 => some (.amoFaddF32 o)
  | 0x0A => some (.amoFaddBf16 o)
  | 0x10 => some (.cas o)
  | 0x11 => some (.cas2 o)
  | _ => Option.none

/-- The minor codes of major 0x15, X = 0 (R40). -/
def minor15x0 (mn : Nat) (o : VArgs) : Option Instr :=
  match mn with
  | 0x00 => some (.vamoAdd o)
  | 0x01 => some (.vamoAnd o)
  | 0x02 => some (.vamoOr o)
  | 0x03 => some (.vamoXor o)
  | 0x04 => some (.vamoMin o)
  | 0x05 => some (.vamoMax o)
  | 0x06 => some (.vamoMinn o)
  | 0x07 => some (.vamoMaxn o)
  | 0x08 => some (.vamoSwap o)
  | 0x09 => some (.vamoFaddF32 o)
  | 0x0A => some (.vamoFaddBf16 o)
  | 0x10 => some (.glink o)
  | 0x11 => some (.scond o)
  | 0x12 => some (.vwait o)
  | 0x20 => some (.saccAdd o)
  | 0x21 => some (.saccAnd o)
  | 0x22 => some (.saccOr o)
  | 0x23 => some (.saccXor o)
  | 0x24 => some (.saccMin o)
  | 0x25 => some (.saccMax o)
  | 0x26 => some (.saccMinn o)
  | 0x27 => some (.saccMaxn o)
  | 0x29 => some (.saccFaddF32 o)
  | 0x2A => some (.saccFaddBf16 o)
  | _ => Option.none

/-- The minor codes of major 0x16, X = 0 (R40). -/
def minor16x0 (mn : Nat) (o : RArgs) : Option Instr :=
  match mn with
  | 0x00 => some (.skim o)
  | 0x01 => some (.wbr o)
  | 0x02 => some (flctxOf o)
  | _ => Option.none

/-- The minor codes of major 0x18, X = 0 (R40). -/
def minor18x0 (mn : Nat) (o : RArgs) : Option Instr :=
  match mn with
  | 0x00 => some (.tlbinv o)
  | 0x01 => some (.tlbprobe o)
  | _ => Option.none

/-- The minor codes of major 0x17, X = 0 (R40). -/
def minor17x0 (mn : Nat) (o : MArgs) : Option Instr :=
  match mn with
  | 0x00 => some (resvOf o)
  | 0x01 => some (.unresv o)
  | 0x02 => some (.disc o)
  | 0x03 => some (.umig o)
  | 0x04 => some (.promo o)
  | 0x05 => some (.tstat o)
  | 0x06 => some (.cfork o)
  | 0x10 => some (.loffer o)
  | 0x11 => some (.ltake o)
  | 0x12 => some (.lrecl o)
  | 0x13 => some (lretOf o)
  | _ => Option.none

/-- The minor codes of major 0x19, X = 0 (R40). -/
def minor19x0 (mn : Nat) (o : SArgs) : Option Instr :=
  match mn with
  | 0x00 => some (.fence o)
  | 0x01 => some (.phase o)
  | 0x02 => some (.bwait o)
  | 0x03 => some (arriveOf o)
  | 0x04 => some (.fput o)
  | 0x05 => some (.fget o)
  | _ => Option.none

/-- The minor codes of major 0x1A, X = 0 (R40). -/
def minor1Ax0 (mn : Nat) (o : MArgs) : Option Instr :=
  match mn with
  | 0x00 => some (.twk o)
  | 0x01 => some (.twkm o)
  | 0x02 => some (.grant o)
  | 0x03 => some (.copy o)
  | 0x04 => some (.rcopy o)
  | 0x05 => some (.evwait o)
  | _ => Option.none

/-- The minor codes of major 0x1B, X = 0 (R40). -/
def minor1Bx0 (mn : Nat) (o : RArgs) : Option Instr :=
  match mn with
  | 0x00 => some (.spawn o)
  | 0x01 => some (.cancel o)
  | 0x02 => some (.done o)
  | 0x03 => some (.yieldSeq o)
  | 0x04 => some (.launch o)
  | _ => Option.none

/-- The minor codes of major 0x20, X = 0 (R40). -/
def minor20x0 (mn : Nat) (o : MArgs) : Option Instr :=
  match mn with
  | 0x00 => some (vsetOf o)
  | 0x01 => some (.bfield o)
  | 0x02 => some (.bhalo o)
  | _ => Option.none

/-- The minor codes of major 0x21, X = 0 (R40). -/
def minor21x0 (mn : Nat) (o : VArgs) : Option Instr :=
  match mn with
  | 0x00 => some (.vmov o)
  | 0x01 => some (.vbcast o)
  | 0x02 => some (.vslide o)
  | 0x03 => some (.vtrans o)
  | 0x04 => some (.vcomp o)
  | 0x05 => some (.vexp o)
  | 0x06 => some (.vins o)
  | 0x07 => some (.vext o)
  | 0x08 => some (.vgath o)
  | _ => Option.none

/-- The minor codes of major 0x22, X = 0 (R40). -/
def minor22x0 (mn : Nat) (o : RArgs) : Option Instr :=
  match mn with
  | 0x00 => some (.mand o)
  | 0x01 => some (.mor o)
  | 0x02 => some (.mxor o)
  | 0x03 => some (.mnot o)
  | 0x04 => some (.mpopc o)
  | 0x05 => some (.mfirst o)
  | 0x06 => some (.miota o)
  | 0x07 => some (.mset o)
  | _ => Option.none

/-- The minor codes of major 0x23, X = 0 (R40). -/
def minor23x0 (mn : Nat) (o : VArgs) : Option Instr :=
  match mn with
  | 0x00 => some (.vadd o)
  | 0x01 => some (.vsub o)
  | 0x02 => some (.vmul o)
  | 0x03 => some (.vmulh o)
  | 0x04 => some (.vdiv o)
  | 0x05 => some (.vrem o)
  | 0x06 => some (.vmin o)
  | 0x07 => some (.vmax o)
  | 0x08 => some (.vabs o)
  | 0x09 => some (.vand o)
  | 0x0A => some (.vor o)
  | 0x0B => some (.vxor o)
  | 0x0C => some (.vshl o)
  | 0x0D => some (.vshr o)
  | 0x0E => some (.vsra o)
  | 0x0F => some (.vsadd o)
  | 0x10 => some (.vssub o)
  | 0x11 => some (.vcmp o)
  | 0x12 => some (.vsel o)
  | 0x13 => some (.vclz o)
  | 0x14 => some (.vpopc o)
  | _ => Option.none

/-- The minor codes of major 0x24, X = 0 (R40). -/
def minor24x0 (mn : Nat) (o : VArgs) : Option Instr :=
  match mn with
  | 0x00 => some (.vfadd o)
  | 0x01 => some (.vfsub o)
  | 0x02 => some (.vfmul o)
  | 0x03 => some (.vfdiv o)
  | 0x04 => some (.vfsqrt o)
  | 0x05 => some (.vfmin o)
  | 0x06 => some (.vfmax o)
  | 0x07 => some (.vfabs o)
  | 0x08 => some (.vfneg o)
  | 0x09 => some (.vfcmp o)
  | 0x0A => some (.vfclass o)
  | _ => Option.none

/-- The minor codes of major 0x25, X = 0 (R40). -/
def minor25x0 (mn : Nat) (o : VArgs) : Option Instr :=
  match mn with
  | 0x00 => some (.vfma o)
  | 0x01 => some (.vfms o)
  | 0x02 => some (.vfnma o)
  | 0x03 => some (.vfnms o)
  | _ => Option.none

/-- The minor codes of major 0x26, X = 0 (R40). -/
def minor26x0 (mn : Nat) (o : VArgs) : Option Instr :=
  match mn with
  | 0x00 => some (.vcvtn o)
  | 0x01 => some (.vcvtw o)
  | 0x02 => some (.vcvti o)
  | 0x03 => some (.vq4 o)
  | _ => Option.none

/-- The minor codes of major 0x27, X = 0 (R40). -/
def minor27x0 (mn : Nat) (o : VArgs) : Option Instr :=
  match mn with
  | 0x00 => some (.vredo o)
  | 0x01 => some (.vredt o)
  | 0x02 => some (.vredm o)
  | 0x03 => some (.vredb o)
  | _ => Option.none

/-- The minor codes of major 0x28, X = 0 (R40). -/
def minor28x0 (mn : Nat) (o : VArgs) : Option Instr :=
  match mn with
  | 0x00 => some (.vrcp o)
  | 0x01 => some (.vrsq o)
  | 0x02 => some (.vexp2 o)
  | 0x03 => some (.vlog2 o)
  | _ => Option.none

/-- The minor codes of major 0x30, X = 0 (R40). -/
def minor30x0 (mn : Nat) (o : MArgs) : Option Instr :=
  match mn with
  | 0x00 => some (.mcfg o)
  | 0x01 => some (.mstep o)
  | 0x02 => some (.mzero o)
  | 0x03 => some (.mrda o)
  | 0x04 => some (.mwra o)
  | 0x05 => some (mdrainOf o)
  | _ => Option.none

/-- What an option of a field reading answers, as the decoder's error. -/
def orError {α : Type} (e : DecodeError) : Option α → Except DecodeError α
  | some a => .ok a
  | Option.none => .error e

/-- The instruction of a minor code and an operand reading: an unassigned minor is refused before a reserved value. -/
def decodeMinor {α : Type} (f : α → Option Instr) (o : Option α) : Except DecodeError Instr :=
  match o with
  | some a => orError .unassignedMinor (f a)
  | Option.none => .error .reservedValue

/-- The instruction of a head whose major, X and tail class are assigned, before the static checks. -/
def decodeBody (maj x : Nat) (d : Reg) (t : BitVec 64) : Except DecodeError Instr :=
  match maj, x with
  | 0x01, 0 => decodeMinor (minor01x0 (mn32 t)) (some (unpackR d t))
  | 0x02, 0 => decodeMinor (minor02x0 (mn32 t)) (some (unpackI d t))
  | 0x03, 0 => .ok (.movi d (t.extractLsb' 0 32))
  | 0x03, 1 => .ok (.moviW64 d t)
  | 0x03, 2 => .ok (.lea d (t.extractLsb' 5 27) (t.extractLsb' 0 5))
  | 0x04, 0 => decodeMinor (minor04x0 (mn32 t)) (unpackF d t)
  | 0x05, 0 => .ok (.br (unpackB d t))
  | 0x05, 1 => .ok (.j (unpackB d t))
  | 0x06, 0 => .ok (.jl (unpackB d t))
  | 0x06, 1 => decodeMinor (minor06x1 (mn32 t)) (some (unpackR d t))
  | 0x06, 2 => decodeMinor (minor06x2 (mn32 t)) (some (unpackR d t))
  | 0x07, 0 => .ok (.loop (unpackB d t))
  | 0x07, 1 => if d == 0 then .ok .endl else .error .illFormed
  | 0x07, 2 => if d == 0 then .ok .brkl else .error .illFormed
  | 0x08, 0 => .ok (.strip (unpackIs d t))
  | 0x09, 0 => .ok (.fork (unpackB d t))
  | 0x09, 1 => decodeMinor (minor09x1 (mn32 t)) (some (unpackR d t))
  | 0x0A, 0 => decodeMinor (minor0Ax0 (mn32 t)) (some (unpackR d t))
  | 0x0B, 0 => decodeMinor (minor0Bx0 (mn32 t)) (some (unpackR d t))
  | 0x0C, 0 => decodeMinor (minor0Cx0 (mn32 t)) (some (unpackR d t))
  | 0x0C, 1 =>
    (match d.toNat with
     | 0 => .ok .nop
     | 1 => .ok .halt
     | 2 => .ok .wfe
     | 3 => .ok .sret
     | _ => .error .unassignedMinor)
  | 0x10, 0 => do return .ld (← orError .reservedValue (unpackL d t))
  | 0x11, 0 => do return .st (← orError .reservedValue (unpackL d t))
  | 0x12, 0 => decodeMinor (minor12x0 (mn64 t)) (unpackV d t)
  | 0x13, 0 => decodeMinor (minor13x0 (mn64 t)) (unpackV d t)
  | 0x14, 0 => decodeMinor (minor14x0 (mn32 t)) (unpackA d t)
  | 0x15, 0 => decodeMinor (minor15x0 (mn64 t)) (unpackV d t)
  | 0x16, 0 => decodeMinor (minor16x0 (mn32 t)) (some (unpackR d t))
  | 0x17, 0 => decodeMinor (minor17x0 (mn64 t)) (unpackM d t)
  | 0x18, 0 => decodeMinor (minor18x0 (mn32 t)) (some (unpackR d t))
  | 0x19, 0 => decodeMinor (minor19x0 (mn32 t)) (unpackS d t)
  | 0x1A, 0 => decodeMinor (minor1Ax0 (mn64 t)) (unpackM d t)
  | 0x1B, 0 => decodeMinor (minor1Bx0 (mn32 t)) (some (unpackR d t))
  | 0x20, 0 => decodeMinor (minor20x0 (mn64 t)) (unpackM d t)
  | 0x21, 0 => decodeMinor (minor21x0 (mn64 t)) (unpackV d t)
  | 0x22, 0 => decodeMinor (minor22x0 (mn32 t)) (some (unpackR d t))
  | 0x23, 0 => decodeMinor (minor23x0 (mn64 t)) (unpackV d t)
  | 0x24, 0 => decodeMinor (minor24x0 (mn64 t)) (unpackV d t)
  | 0x25, 0 => decodeMinor (minor25x0 (mn64 t)) (unpackV d t)
  | 0x26, 0 => decodeMinor (minor26x0 (mn64 t)) (unpackV d t)
  | 0x27, 0 => decodeMinor (minor27x0 (mn64 t)) (unpackV d t)
  | 0x28, 0 => decodeMinor (minor28x0 (mn64 t)) (unpackV d t)
  | 0x30, 0 => decodeMinor (minor30x0 (mn64 t)) (unpackM d t)
  | _, _ => .error .badModifier

/-- The instruction of one head and its tail, zero-extended (R40 to R43). -/
def decode (head : BitVec 16) (tail : BitVec 64) : Except DecodeError Instr :=
  let maj := (head.extractLsb' 10 6).toNat
  let x := (head.extractLsb' 0 2).toNat
  if maj = 0 then .error .illegalMajor
  else match formOf maj x with
    | Option.none => .error (if majorAssigned maj then .badModifier else .reservedMajor)
    | some f =>
      if headTl head = f.tl then
        match decodeBody maj x (head.extractLsb' 2 6) tail with
        | .ok i => if wellFormed i then .ok i else .error .illFormed
        | .error e => .error e
      else .error .badTailClass

/-- The instruction at head i of a line (R14). -/
def decodeAt (l : CodeLine) (i : Nat) : Except DecodeError Instr := decode (l.head i) (l.tail i)

/-- The head of a major, X and first register with a tail format (R12). -/
def packHead (maj : BitVec 6) (tl : BitVec 2) (d : Reg) (x : BitVec 2) : BitVec 16 := maj ++ tl ++ d ++ x

/-- The head and tail of an instruction (R40 tables); the steps of other agents have no encoding. -/
def encode : Instr → Option (BitVec 16 × BitVec 64)
  | .add o => some (packHead 0x01 2 o.d 0, packR 0x00 o)
  | .sub o => some (packHead 0x01 2 o.d 0, packR 0x01 o)
  | .andB o => some (packHead 0x01 2 o.d 0, packR 0x02 o)
  | .orB o => some (packHead 0x01 2 o.d 0, packR 0x03 o)
  | .xorB o => some (packHead 0x01 2 o.d 0, packR 0x04 o)
  | .andn o => some (packHead 0x01 2 o.d 0, packR 0x05 o)
  | .shl o => some (packHead 0x01 2 o.d 0, packR 0x06 o)
  | .shr o => some (packHead 0x01 2 o.d 0, packR 0x07 o)
  | .sra o => some (packHead 0x01 2 o.d 0, packR 0x08 o)
  | .mul o => some (packHead 0x01 2 o.d 0, packR 0x09 o)
  | .mulh o => some (packHead 0x01 2 o.d 0, packR 0x0A o)
  | .mulhn o => some (packHead 0x01 2 o.d 0, packR 0x0B o)
  | .div o => some (packHead 0x01 2 o.d 0, packR 0x0C o)
  | .divn o => some (packHead 0x01 2 o.d 0, packR 0x0D o)
  | .rem o => some (packHead 0x01 2 o.d 0, packR 0x0E o)
  | .remn o => some (packHead 0x01 2 o.d 0, packR 0x0F o)
  | .min o => some (packHead 0x01 2 o.d 0, packR 0x10 o)
  | .max o => some (packHead 0x01 2 o.d 0, packR 0x11 o)
  | .minn o => some (packHead 0x01 2 o.d 0, packR 0x12 o)
  | .maxn o => some (packHead 0x01 2 o.d 0, packR 0x13 o)
  | .slt o => some (packHead 0x01 2 o.d 0, packR 0x14 o)
  | .sltn o => some (packHead 0x01 2 o.d 0, packR 0x15 o)
  | .clz o => some (packHead 0x01 2 o.d 0, packR 0x16 o)
  | .ctz o => some (packHead 0x01 2 o.d 0, packR 0x17 o)
  | .popc o => some (packHead 0x01 2 o.d 0, packR 0x18 o)
  | .addi o => some (packHead 0x02 2 o.d 0, packI 0x00 o)
  | .andi o => some (packHead 0x02 2 o.d 0, packI 0x01 o)
  | .ori o => some (packHead 0x02 2 o.d 0, packI 0x02 o)
  | .xori o => some (packHead 0x02 2 o.d 0, packI 0x03 o)
  | .shli o => some (packHead 0x02 2 o.d 0, packI 0x04 o)
  | .shri o => some (packHead 0x02 2 o.d 0, packI 0x05 o)
  | .srai o => some (packHead 0x02 2 o.d 0, packI 0x06 o)
  | .slti o => some (packHead 0x02 2 o.d 0, packI 0x07 o)
  | .sltni o => some (packHead 0x02 2 o.d 0, packI 0x08 o)
  | .movi d imm => some (packHead 3 2 d 0, imm.setWidth 64)
  | .moviW64 d imm => some (packHead 3 3 d 1, imm)
  | .lea d disp head => some (packHead 3 2 d 2, (disp ++ head : BitVec 32).setWidth 64)
  | .fadd o => some (packHead 0x04 2 o.d 0, packF 0x00 o)
  | .fsub o => some (packHead 0x04 2 o.d 0, packF 0x01 o)
  | .fmul o => some (packHead 0x04 2 o.d 0, packF 0x02 o)
  | .ffma o => some (packHead 0x04 2 o.d 0, packF 0x03 o)
  | .fdiv o => some (packHead 0x04 2 o.d 0, packF 0x04 o)
  | .fsqrt o => some (packHead 0x04 2 o.d 0, packF 0x05 o)
  | .fmin o => some (packHead 0x04 2 o.d 0, packF 0x06 o)
  | .fmax o => some (packHead 0x04 2 o.d 0, packF 0x07 o)
  | .fcmp o => some (packHead 0x04 2 o.d 0, packF 0x08 o)
  | .fcvt o => some (packHead 0x04 2 o.d 0, packF 0x09 o)
  | .br o => some (packHead 0x05 1 o.d 0, packB o)
  | .j o => some (packHead 0x05 1 o.d 1, packB o)
  | .jl o => some (packHead 0x06 1 o.d 0, packB o)
  | .jlr o => some (packHead 0x06 2 o.d 1, packR 0x00 o)
  | .jr o => some (packHead 0x06 2 o.d 2, packR 0x00 o)
  | .loop o => some (packHead 0x07 1 o.d 0, packB o)
  | .endl => some (packHead 0x07 0 0 1, 0)
  | .brkl => some (packHead 0x07 0 0 2, 0)
  | .strip o => some (packHead 0x08 2 o.d 0, packIs o)
  | .fork o => some (packHead 0x09 1 o.d 0, packB o)
  | .rdv o => some (packHead 0x09 2 o.d 1, packR 0x00 o)
  | .abortLine o => some (packHead 0x09 2 o.d 1, packR 0x01 o)
  | .abchk o => some (packHead 0x09 2 o.d 1, packR 0x02 o)
  | .qpush o => some (packHead 0x0A 2 o.d 0, packR 0x00 o)
  | .qpop o => some (packHead 0x0A 2 o.d 0, packR 0x01 o)
  | .qstat o => some (packHead 0x0A 2 o.d 0, packR 0x02 o)
  | .pset o => some (packHead 0x0B 2 o.d 0, packR 0x00 o)
  | .pand o => some (packHead 0x0B 2 o.d 0, packR 0x01 o)
  | .por o => some (packHead 0x0B 2 o.d 0, packR 0x02 o)
  | .pxor o => some (packHead 0x0B 2 o.d 0, packR 0x03 o)
  | .pnot o => some (packHead 0x0B 2 o.d 0, packR 0x04 o)
  | .ptest o => some (packHead 0x0B 2 o.d 0, packR 0x05 o)
  | .csel o => some (packHead 0x0B 2 o.d 0, packR 0x06 o)
  | .crd o => some (packHead 0x0C 2 o.d 0, packR 0x00 o)
  | .cwr o => some (packHead 0x0C 2 o.d 0, packR 0x01 o)
  | .fsrWrite o => some (packHead 0x0C 2 o.d 0, packR 0x01 o)
  | .estartWrite o => some (packHead 0x0C 2 o.d 0, packR 0x01 o)
  | .xlrootWrite o => some (packHead 0x0C 2 o.d 0, packR 0x01 o)
  | .asidWrite o => some (packHead 0x0C 2 o.d 0, packR 0x01 o)
  | .sventryWrite o => some (packHead 0x0C 2 o.d 0, packR 0x01 o)
  | .tstatWrite o => some (packHead 0x0C 2 o.d 0, packR 0x01 o)
  | .trap o => some (packHead 0x0C 2 o.d 0, packR 0x02 o)
  | .evpop o => some (packHead 0x0C 2 o.d 0, packR 0x03 o)
  | .ctxsv o => some (packHead 0x0C 2 o.d 0, packR 0x04 o)
  | .ctxld o => some (packHead 0x0C 2 o.d 0, packR 0x05 o)
  | .nop => some (packHead 0x0C 0 0 1, 0)
  | .halt => some (packHead 0x0C 0 1 1, 0)
  | .wfe => some (packHead 0x0C 0 2 1, 0)
  | .sret => some (packHead 0x0C 0 3 1, 0)
  | .ld o => some (packHead 0x10 2 o.d 0, packL o)
  | .st o => some (packHead 0x11 2 o.d 0, packL o)
  | .vldUnit o => some (packHead 0x12 3 o.d 0, packV 0x00 o)
  | .vldShaped o => some (packHead 0x12 3 o.d 0, packV 0x01 o)
  | .vlds o => some (packHead 0x12 3 o.d 0, packV 0x02 o)
  | .vldx o => some (packHead 0x12 3 o.d 0, packV 0x03 o)
  | .vstUnit o => some (packHead 0x13 3 o.d 0, packV 0x00 o)
  | .vstShaped o => some (packHead 0x13 3 o.d 0, packV 0x01 o)
  | .vsts o => some (packHead 0x13 3 o.d 0, packV 0x02 o)
  | .vstx o => some (packHead 0x13 3 o.d 0, packV 0x03 o)
  | .amoAdd o => some (packHead 0x14 2 o.d 0, packA 0x00 o)
  | .amoAnd o => some (packHead 0x14 2 o.d 0, packA 0x01 o)
  | .amoOr o => some (packHead 0x14 2 o.d 0, packA 0x02 o)
  | .amoXor o => some (packHead 0x14 2 o.d 0, packA 0x03 o)
  | .amoMin o => some (packHead 0x14 2 o.d 0, packA 0x04 o)
  | .amoMax o => some (packHead 0x14 2 o.d 0, packA 0x05 o)
  | .amoMinn o => some (packHead 0x14 2 o.d 0, packA 0x06 o)
  | .amoMaxn o => some (packHead 0x14 2 o.d 0, packA 0x07 o)
  | .amoSwap o => some (packHead 0x14 2 o.d 0, packA 0x08 o)
  | .amoFaddF32 o => some (packHead 0x14 2 o.d 0, packA 0x09 o)
  | .amoFaddBf16 o => some (packHead 0x14 2 o.d 0, packA 0x0A o)
  | .cas o => some (packHead 0x14 2 o.d 0, packA 0x10 o)
  | .cas2 o => some (packHead 0x14 2 o.d 0, packA 0x11 o)
  | .vamoAdd o => some (packHead 0x15 3 o.d 0, packV 0x00 o)
  | .vamoAnd o => some (packHead 0x15 3 o.d 0, packV 0x01 o)
  | .vamoOr o => some (packHead 0x15 3 o.d 0, packV 0x02 o)
  | .vamoXor o => some (packHead 0x15 3 o.d 0, packV 0x03 o)
  | .vamoMin o => some (packHead 0x15 3 o.d 0, packV 0x04 o)
  | .vamoMax o => some (packHead 0x15 3 o.d 0, packV 0x05 o)
  | .vamoMinn o => some (packHead 0x15 3 o.d 0, packV 0x06 o)
  | .vamoMaxn o => some (packHead 0x15 3 o.d 0, packV 0x07 o)
  | .vamoSwap o => some (packHead 0x15 3 o.d 0, packV 0x08 o)
  | .vamoFaddF32 o => some (packHead 0x15 3 o.d 0, packV 0x09 o)
  | .vamoFaddBf16 o => some (packHead 0x15 3 o.d 0, packV 0x0A o)
  | .glink o => some (packHead 0x15 3 o.d 0, packV 0x10 o)
  | .scond o => some (packHead 0x15 3 o.d 0, packV 0x11 o)
  | .saccAdd o => some (packHead 0x15 3 o.d 0, packV 0x20 o)
  | .saccAnd o => some (packHead 0x15 3 o.d 0, packV 0x21 o)
  | .saccOr o => some (packHead 0x15 3 o.d 0, packV 0x22 o)
  | .saccXor o => some (packHead 0x15 3 o.d 0, packV 0x23 o)
  | .saccMin o => some (packHead 0x15 3 o.d 0, packV 0x24 o)
  | .saccMax o => some (packHead 0x15 3 o.d 0, packV 0x25 o)
  | .saccMinn o => some (packHead 0x15 3 o.d 0, packV 0x26 o)
  | .saccMaxn o => some (packHead 0x15 3 o.d 0, packV 0x27 o)
  | .saccFaddF32 o => some (packHead 0x15 3 o.d 0, packV 0x29 o)
  | .saccFaddBf16 o => some (packHead 0x15 3 o.d 0, packV 0x2A o)
  | .combiningWindowApply => Option.none
  | .vwait o => some (packHead 0x15 3 o.d 0, packV 0x12 o)
  | .vwaitFire => Option.none
  | .vwaitHostPoll => Option.none
  | .linkExpiry => Option.none
  | .skim o => some (packHead 0x16 2 o.d 0, packR 0x00 o)
  | .wbr o => some (packHead 0x16 2 o.d 0, packR 0x01 o)
  | .flctx o => some (packHead 0x16 2 o.d 0, packR 0x02 o)
  | .flctxAll o => some (packHead 0x16 2 o.d 0, packR 0x02 o)
  | .homeReadRequest => Option.none
  | .homeRegistration => Option.none
  | .homeWriteThrough => Option.none
  | .engineWriteAtHome => Option.none
  | .epochTick => Option.none
  | .l1UncorrectableError => Option.none
  | .hostSharedRead => Option.none
  | .hostExclusiveRequest => Option.none
  | .tlbinv o => some (packHead 0x18 2 o.d 0, packR 0x00 o)
  | .tlbprobe o => some (packHead 0x18 2 o.d 0, packR 0x01 o)
  | .resvNew o => some (packHead 0x17 3 o.d 0, packM 0x00 o)
  | .resvUse o => some (packHead 0x17 3 o.d 0, packM 0x00 o)
  | .resvQuota o => some (packHead 0x17 3 o.d 0, packM 0x00 o)
  | .resvPool o => some (packHead 0x17 3 o.d 0, packM 0x00 o)
  | .unresv o => some (packHead 0x17 3 o.d 0, packM 0x01 o)
  | .disc o => some (packHead 0x17 3 o.d 0, packM 0x02 o)
  | .umig o => some (packHead 0x17 3 o.d 0, packM 0x03 o)
  | .promo o => some (packHead 0x17 3 o.d 0, packM 0x04 o)
  | .tstat o => some (packHead 0x17 3 o.d 0, packM 0x05 o)
  | .cfork o => some (packHead 0x17 3 o.d 0, packM 0x06 o)
  | .loffer o => some (packHead 0x17 3 o.d 0, packM 0x10 o)
  | .ltake o => some (packHead 0x17 3 o.d 0, packM 0x11 o)
  | .lrecl o => some (packHead 0x17 3 o.d 0, packM 0x12 o)
  | .lretRet o => some (packHead 0x17 3 o.d 0, packM 0x13 o)
  | .lretFree o => some (packHead 0x17 3 o.d 0, packM 0x13 o)
  | .leaseOfferReceived => Option.none
  | .leaseTakeReceived => Option.none
  | .leaseReclaimReceived => Option.none
  | .leaseReturnBegunReceived => Option.none
  | .leasePullLine => Option.none
  | .leasePullComplete => Option.none
  | .leaseReturnReceived => Option.none
  | .leaseDeadline => Option.none
  | .fence o => some (packHead 0x19 2 o.d 0, packS 0x00 o)
  | .phase o => some (packHead 0x19 2 o.d 0, packS 0x01 o)
  | .bwait o => some (packHead 0x19 2 o.d 0, packS 0x02 o)
  | .bwaitWake => Option.none
  | .arrive o => some (packHead 0x19 2 o.d 0, packS 0x03 o)
  | .arriveRemote o => some (packHead 0x19 2 o.d 0, packS 0x03 o)
  | .arriveLeave o => some (packHead 0x19 2 o.d 0, packS 0x03 o)
  | .arriveJoin o => some (packHead 0x19 2 o.d 0, packS 0x03 o)
  | .fput o => some (packHead 0x19 2 o.d 0, packS 0x04 o)
  | .fget o => some (packHead 0x19 2 o.d 0, packS 0x05 o)
  | .fgetWake => Option.none
  | .twk o => some (packHead 0x1A 3 o.d 0, packM 0x00 o)
  | .twkm o => some (packHead 0x1A 3 o.d 0, packM 0x01 o)
  | .grant o => some (packHead 0x1A 3 o.d 0, packM 0x02 o)
  | .copy o => some (packHead 0x1A 3 o.d 0, packM 0x03 o)
  | .rcopy o => some (packHead 0x1A 3 o.d 0, packM 0x04 o)
  | .evwait o => some (packHead 0x1A 3 o.d 0, packM 0x05 o)
  | .evwaitWake => Option.none
  | .wfeWake => Option.none
  | .permitCreditTake => Option.none
  | .trowelBeat => Option.none
  | .engineCommandComplete => Option.none
  | .spawn o => some (packHead 0x1B 2 o.d 0, packR 0x00 o)
  | .spawnArrival => Option.none
  | .cancel o => some (packHead 0x1B 2 o.d 0, packR 0x01 o)
  | .cancelMark => Option.none
  | .done o => some (packHead 0x1B 2 o.d 0, packR 0x02 o)
  | .yieldSeq o => some (packHead 0x1B 2 o.d 0, packR 0x03 o)
  | .launch o => some (packHead 0x1B 2 o.d 0, packR 0x04 o)
  | .launchComplete => Option.none
  | .hostQueueRecord => Option.none
  | .hiveDispatch => Option.none
  | .energyAgeExpiry => Option.none
  | .hiveSteal => Option.none
  | .stageReview => Option.none
  | .preempt => Option.none
  | .contextResume => Option.none
  | .tileStepIssue => Option.none
  | .tileRecordComplete => Option.none
  | .tileStepStop => Option.none
  | .vset o => some (packHead 0x20 3 o.d 0, packM 0x00 o)
  | .vsetFree o => some (packHead 0x20 3 o.d 0, packM 0x00 o)
  | .bfield o => some (packHead 0x20 3 o.d 0, packM 0x01 o)
  | .bhalo o => some (packHead 0x20 3 o.d 0, packM 0x02 o)
  | .vmov o => some (packHead 0x21 3 o.d 0, packV 0x00 o)
  | .vbcast o => some (packHead 0x21 3 o.d 0, packV 0x01 o)
  | .vslide o => some (packHead 0x21 3 o.d 0, packV 0x02 o)
  | .vtrans o => some (packHead 0x21 3 o.d 0, packV 0x03 o)
  | .vcomp o => some (packHead 0x21 3 o.d 0, packV 0x04 o)
  | .vexp o => some (packHead 0x21 3 o.d 0, packV 0x05 o)
  | .vins o => some (packHead 0x21 3 o.d 0, packV 0x06 o)
  | .vext o => some (packHead 0x21 3 o.d 0, packV 0x07 o)
  | .vgath o => some (packHead 0x21 3 o.d 0, packV 0x08 o)
  | .mand o => some (packHead 0x22 2 o.d 0, packR 0x00 o)
  | .mor o => some (packHead 0x22 2 o.d 0, packR 0x01 o)
  | .mxor o => some (packHead 0x22 2 o.d 0, packR 0x02 o)
  | .mnot o => some (packHead 0x22 2 o.d 0, packR 0x03 o)
  | .mpopc o => some (packHead 0x22 2 o.d 0, packR 0x04 o)
  | .mfirst o => some (packHead 0x22 2 o.d 0, packR 0x05 o)
  | .miota o => some (packHead 0x22 2 o.d 0, packR 0x06 o)
  | .mset o => some (packHead 0x22 2 o.d 0, packR 0x07 o)
  | .vadd o => some (packHead 0x23 3 o.d 0, packV 0x00 o)
  | .vsub o => some (packHead 0x23 3 o.d 0, packV 0x01 o)
  | .vmul o => some (packHead 0x23 3 o.d 0, packV 0x02 o)
  | .vmulh o => some (packHead 0x23 3 o.d 0, packV 0x03 o)
  | .vdiv o => some (packHead 0x23 3 o.d 0, packV 0x04 o)
  | .vrem o => some (packHead 0x23 3 o.d 0, packV 0x05 o)
  | .vmin o => some (packHead 0x23 3 o.d 0, packV 0x06 o)
  | .vmax o => some (packHead 0x23 3 o.d 0, packV 0x07 o)
  | .vabs o => some (packHead 0x23 3 o.d 0, packV 0x08 o)
  | .vand o => some (packHead 0x23 3 o.d 0, packV 0x09 o)
  | .vor o => some (packHead 0x23 3 o.d 0, packV 0x0A o)
  | .vxor o => some (packHead 0x23 3 o.d 0, packV 0x0B o)
  | .vshl o => some (packHead 0x23 3 o.d 0, packV 0x0C o)
  | .vshr o => some (packHead 0x23 3 o.d 0, packV 0x0D o)
  | .vsra o => some (packHead 0x23 3 o.d 0, packV 0x0E o)
  | .vsadd o => some (packHead 0x23 3 o.d 0, packV 0x0F o)
  | .vssub o => some (packHead 0x23 3 o.d 0, packV 0x10 o)
  | .vcmp o => some (packHead 0x23 3 o.d 0, packV 0x11 o)
  | .vsel o => some (packHead 0x23 3 o.d 0, packV 0x12 o)
  | .vclz o => some (packHead 0x23 3 o.d 0, packV 0x13 o)
  | .vpopc o => some (packHead 0x23 3 o.d 0, packV 0x14 o)
  | .vfadd o => some (packHead 0x24 3 o.d 0, packV 0x00 o)
  | .vfsub o => some (packHead 0x24 3 o.d 0, packV 0x01 o)
  | .vfmul o => some (packHead 0x24 3 o.d 0, packV 0x02 o)
  | .vfdiv o => some (packHead 0x24 3 o.d 0, packV 0x03 o)
  | .vfsqrt o => some (packHead 0x24 3 o.d 0, packV 0x04 o)
  | .vfmin o => some (packHead 0x24 3 o.d 0, packV 0x05 o)
  | .vfmax o => some (packHead 0x24 3 o.d 0, packV 0x06 o)
  | .vfabs o => some (packHead 0x24 3 o.d 0, packV 0x07 o)
  | .vfneg o => some (packHead 0x24 3 o.d 0, packV 0x08 o)
  | .vfcmp o => some (packHead 0x24 3 o.d 0, packV 0x09 o)
  | .vfclass o => some (packHead 0x24 3 o.d 0, packV 0x0A o)
  | .vfma o => some (packHead 0x25 3 o.d 0, packV 0x00 o)
  | .vfms o => some (packHead 0x25 3 o.d 0, packV 0x01 o)
  | .vfnma o => some (packHead 0x25 3 o.d 0, packV 0x02 o)
  | .vfnms o => some (packHead 0x25 3 o.d 0, packV 0x03 o)
  | .vcvtn o => some (packHead 0x26 3 o.d 0, packV 0x00 o)
  | .vcvtw o => some (packHead 0x26 3 o.d 0, packV 0x01 o)
  | .vcvti o => some (packHead 0x26 3 o.d 0, packV 0x02 o)
  | .vq4 o => some (packHead 0x26 3 o.d 0, packV 0x03 o)
  | .vredo o => some (packHead 0x27 3 o.d 0, packV 0x00 o)
  | .vredt o => some (packHead 0x27 3 o.d 0, packV 0x01 o)
  | .vredm o => some (packHead 0x27 3 o.d 0, packV 0x02 o)
  | .vredb o => some (packHead 0x27 3 o.d 0, packV 0x03 o)
  | .vrcp o => some (packHead 0x28 3 o.d 0, packV 0x00 o)
  | .vrsq o => some (packHead 0x28 3 o.d 0, packV 0x01 o)
  | .vexp2 o => some (packHead 0x28 3 o.d 0, packV 0x02 o)
  | .vlog2 o => some (packHead 0x28 3 o.d 0, packV 0x03 o)
  | .mcfg o => some (packHead 0x30 3 o.d 0, packM 0x00 o)
  | .mstep o => some (packHead 0x30 3 o.d 0, packM 0x01 o)
  | .mzero o => some (packHead 0x30 3 o.d 0, packM 0x02 o)
  | .mrda o => some (packHead 0x30 3 o.d 0, packM 0x03 o)
  | .mwra o => some (packHead 0x30 3 o.d 0, packM 0x04 o)
  | .mdrainBrk o => some (packHead 0x30 3 o.d 0, packM 0x05 o)
  | .mdrainMem o => some (packHead 0x30 3 o.d 0, packM 0x05 o)
  | .longLatencyComplete => Option.none
  | .dieFlitReceive => Option.none
  | .dieAckReceive => Option.none
  | .dieResendTimeout => Option.none
  | .dieLinkRetrain => Option.none
  | .dieLinkFail => Option.none
  | .relovPacketReceive => Option.none
  | .relovAckTimer => Option.none
  | .relovAckReceive => Option.none
  | .relovResendTimeout => Option.none
  | .relovDoneReceive => Option.none
  | .relovPathFailure => Option.none
  | .relovCombineApply => Option.none
  | .hostBarRead => Option.none
  | .hostBarWrite => Option.none
  | .hostAtomicopCompleter => Option.none
  | .hostCompletionReceive => Option.none
  | .bandwidthRefill => Option.none
  | .powerControlTick => Option.none
  | .thermalTrip => Option.none
  | .supplyFault => Option.none
  | .coreSleep => Option.none
  | .coreWake => Option.none
  | .powerOnReset => Option.none
  | .firmwareUpdate => Option.none
  | .mgmtRestart => Option.none
  | .mgmtHealthTimeout => Option.none
  | .mailboxCloseReopen => Option.none
  | .mailboxServiceChange => Option.none
  | .mailboxAccessTableWrite => Option.none
  | .mailboxShareTotal => Option.none
  | .mailboxMeasurementExtend => Option.none
  | .mailboxSvnRequest => Option.none
  | .mailboxSubmissionContext => Option.none
  | .getVersion => Option.none
  | .getCapabilities => Option.none
  | .negotiateAlgorithms => Option.none
  | .getCertificate => Option.none
  | .challenge => Option.none
  | .getMeasurements => Option.none
  | .keyExchange => Option.none
  | .keySlotLoad => Option.none
  | .keySlotErase => Option.none
  | .illegalInstruction => Option.none
  | .boundaryRetrained => Option.none
  | .coreFailure => Option.none

/-- A line that holds one instruction: H = 1, its head at bytes 2 and 3, its tail ending at byte 63 (R10, R13). -/
def placeInstr (head : BitVec 16) (tail : BitVec 64) : CodeLine :=
  let n := tailBytes (headTl head)
  BitVec.ofNat 512 (1 + head.toNat * 2 ^ 16 + (tail.toNat % 2 ^ (8 * n)) * 2 ^ (8 * (64 - n)))

/-- The head of a word numbered as the opcode table numbers it: its low 16 bits. -/
def wordHead (w : Nat) : BitVec 16 := BitVec.ofNat 16 w

/-- The tail of such a word: the bits above the head, up to nbits. -/
def wordTail (nbits w : Nat) : BitVec 64 := BitVec.ofNat 64 ((w % 2 ^ nbits) / 2 ^ 16)

/-- The instruction that the decoder reads from a word of the opcode table, laid out as a line of one head. -/
def decodeTableWord (nbits w : Nat) : Option Instr :=
  match decodeAt (placeInstr (wordHead w) (wordTail nbits w)) 0 with
  | .ok i => some i
  | .error _ => Option.none

end Sys2Proof
end

