-- ==== Sys2Proof/Machine/Input.lean ====
section
/-! DEFINITION. The inputs of the steps of other agents (95): what stands at the port of the agent that moves. Row by row,
the inputs of a step that has no encoding; `Input.instr` names the step. -/

namespace Sys2Proof.Machine

/-- What stands at an agent's port when it moves. -/
inductive Input where
  /-- Nothing. -/
  | none
  /-- Inputs of COMBINING_WINDOW_APPLY (R215). -/
  | combiningWindowApply (k : Nat)
  /-- Inputs of VWAIT_FIRE (R217). -/
  | vwaitFire (core k : Nat)
  /-- Inputs of VWAIT_HOST_POLL (R217). -/
  | vwaitHostPoll (core k : Nat)
  /-- Inputs of LINK_EXPIRY (R212). -/
  | linkExpiry (core k : Nat)
  /-- Inputs of HOME_READ_REQUEST (R157). -/
  | homeReadRequest (core loc : Nat)
  /-- Inputs of HOME_REGISTRATION (R155). -/
  | homeRegistration (core : Nat)
  /-- Inputs of HOME_WRITE_THROUGH (R156). -/
  | homeWriteThrough (core loc : Nat) (data : List Byte)
  /-- Inputs of ENGINE_WRITE_AT_HOME (R166). -/
  | engineWriteAtHome (cmd : Nat)
  /-- Inputs of EPOCH_TICK (R161). -/
  | epochTick
  /-- Inputs of L1_UNCORRECTABLE_ERROR (R171). -/
  | l1UncorrectableError (core line : Nat)
  /-- Inputs of HOST_SHARED_READ (R114). -/
  | hostSharedRead (line : Nat)
  /-- Inputs of HOST_EXCLUSIVE_REQUEST (R114). -/
  | hostExclusiveRequest (line : Nat) (data : List Byte)
  /-- Inputs of LEASE_OFFER_RECEIVED (R129). -/
  | leaseOfferReceived (dev entry base pages t : Nat)
  /-- Inputs of LEASE_TAKE_RECEIVED (R142). -/
  | leaseTakeReceived (entry dev : Nat)
  /-- Inputs of LEASE_RECLAIM_RECEIVED (R127). -/
  | leaseReclaimReceived (slot : Nat)
  /-- Inputs of LEASE_RETURN_BEGUN_RECEIVED (R127). -/
  | leaseReturnBegunReceived (entry : Nat)
  /-- Inputs of LEASE_PULL_LINE (R127). -/
  | leasePullLine (slot : Nat)
  /-- Inputs of LEASE_PULL_COMPLETE (R127). -/
  | leasePullComplete (slot : Nat)
  /-- Inputs of LEASE_RETURN_RECEIVED (R127). -/
  | leaseReturnReceived (entry : Nat)
  /-- Inputs of LEASE_DEADLINE (R128). -/
  | leaseDeadline (entry : Nat)
  /-- Inputs of BWAIT_WAKE (R397). -/
  | bwaitWake (seq : Nat)
  /-- Inputs of FGET_WAKE (R400). -/
  | fgetWake (seq : Nat)
  /-- Inputs of EVWAIT_WAKE (R238). -/
  | evwaitWake (seq : Nat)
  /-- Inputs of WFE_WAKE (R349). -/
  | wfeWake (seq : Nat)
  /-- Inputs of PERMIT_CREDIT_TAKE (R227). -/
  | permitCreditTake (cmd core : Nat)
  /-- Inputs of TROWEL_BEAT (R233). -/
  | trowelBeat (cmd : Nat)
  /-- Inputs of ENGINE_COMMAND_COMPLETE (R231). -/
  | engineCommandComplete (cmd : Nat)
  /-- Inputs of SPAWN_ARRIVAL (R375). -/
  | spawnArrival (die : Nat)
  /-- Inputs of CANCEL_MARK (R374). -/
  | cancelMark (die group : Nat)
  /-- Inputs of LAUNCH_COMPLETE (R365). -/
  | launchComplete (launch : Nat)
  /-- Inputs of HOST_QUEUE_RECORD (R366). -/
  | hostQueueRecord (fn die offset : Nat) (data : List Byte)
  /-- Inputs of HIVE_DISPATCH (R360). -/
  | hiveDispatch (seq : Nat)
  /-- Inputs of ENERGY_AGE_EXPIRY (R360). -/
  | energyAgeExpiry (launch : Nat)
  /-- Inputs of HIVE_STEAL (R361). -/
  | hiveSteal (launch seq : Nat)
  /-- Inputs of STAGE_REVIEW (R358). -/
  | stageReview (launch : Nat)
  /-- Inputs of PREEMPT (R412). -/
  | preempt (seq : Nat)
  /-- Inputs of CONTEXT_RESUME (R412). -/
  | contextResume (saved seq : Nat)
  /-- Inputs of TILE_STEP_ISSUE (R323). -/
  | tileStepIssue (rcd core : Nat)
  /-- Inputs of TILE_RECORD_COMPLETE (R324). -/
  | tileRecordComplete (rcd : Nat)
  /-- Inputs of TILE_STEP_STOP (R325). -/
  | tileStepStop (rcd : Nat) (cause : Byte) (va : Nat)
  /-- Inputs of LONG_LATENCY_COMPLETE (R34). -/
  | longLatencyComplete (seq : Nat) (file : RegFile) (reg : Reg)
  /-- Inputs of DIE_FLIT_RECEIVE (R428). -/
  | dieFlitReceive (src dst : Nat) (flit : Flit)
  /-- Inputs of DIE_ACK_RECEIVE (R428). -/
  | dieAckReceive (src dst base : Nat) (bitmap : DWord)
  /-- Inputs of DIE_RESEND_TIMEOUT (R428). -/
  | dieResendTimeout (src dst num : Nat)
  /-- Inputs of DIE_LINK_RETRAIN (R429). -/
  | dieLinkRetrain (a b : Nat)
  /-- Inputs of DIE_LINK_FAIL (R430). -/
  | dieLinkFail (a b : Nat)
  /-- Inputs of RELOV_PACKET_RECEIVE (R434). -/
  | relovPacketReceive (pkt : Packet)
  /-- Inputs of RELOV_ACK_TIMER (R435). -/
  | relovAckTimer (dev flow : Nat)
  /-- Inputs of RELOV_ACK_RECEIVE (R435). -/
  | relovAckReceive (dev dst flow base : Nat) (bitmap : DWord)
  /-- Inputs of RELOV_RESEND_TIMEOUT (R435). -/
  | relovResendTimeout (dev flow num : Nat)
  /-- Inputs of RELOV_DONE_RECEIVE (R435). -/
  | relovDoneReceive (dev tag : Nat) (refused : Bool)
  /-- Inputs of RELOV_PATH_FAILURE (R436). -/
  | relovPathFailure (dev : Nat)
  /-- Inputs of RELOV_COMBINE_APPLY (R440). -/
  | relovCombineApply (k : Nat)
  /-- Inputs of HOST_BAR_READ (R443). -/
  | hostBarRead (fn bar offset size : Nat)
  /-- Inputs of HOST_BAR_WRITE (R443). -/
  | hostBarWrite (fn bar offset : Nat) (data : List Byte)
  /-- Inputs of HOST_ATOMICOP_COMPLETER (R443). -/
  | hostAtomicopCompleter (fn offset : Nat) (op : HostOp) (size : Nat) (operand compare : BitVec 128)
  /-- Inputs of HOST_COMPLETION_RECEIVE (R205). -/
  | hostCompletionReceive (seq : Nat) (ok : Bool)
  /-- Inputs of BANDWIDTH_REFILL (R450). -/
  | bandwidthRefill
  /-- Inputs of POWER_CONTROL_TICK (R464). -/
  | powerControlTick
  /-- Inputs of THERMAL_TRIP (R467). -/
  | thermalTrip (die : Nat)
  /-- Inputs of SUPPLY_FAULT (R467). -/
  | supplyFault
  /-- Inputs of CORE_SLEEP (R163). -/
  | coreSleep (core : Nat)
  /-- Inputs of CORE_WAKE (R163). -/
  | coreWake (core : Nat)
  /-- Inputs of POWER_ON_RESET (R468). -/
  | powerOnReset (cold : Bool)
  /-- Inputs of FIRMWARE_UPDATE (R463). -/
  | firmwareUpdate (image : ImageKind) (content : Image)
  /-- Inputs of MGMT_RESTART (R463). -/
  | mgmtRestart
  /-- Inputs of MGMT_HEALTH_TIMEOUT (R463). -/
  | mgmtHealthTimeout
  /-- Inputs of MAILBOX_CLOSE_REOPEN (R469). -/
  | mailboxCloseReopen (unit : Agent) (close : Bool)
  /-- Inputs of MAILBOX_SERVICE_CHANGE (R469). -/
  | mailboxServiceChange (unit : Agent) (enable : Bool)
  /-- Inputs of MAILBOX_ACCESS_TABLE_WRITE (R446). -/
  | mailboxAccessTableWrite (index : Nat) (window : BitVec 128)
  /-- Inputs of MAILBOX_SHARE_TOTAL (R451). -/
  | mailboxShareTotal (tenant : Option Nat) (value : Nat)
  /-- Inputs of MAILBOX_MEASUREMENT_EXTEND (R461). -/
  | mailboxMeasurementExtend (index : Nat) (digest : BitVec 384)
  /-- Inputs of MAILBOX_SVN_REQUEST (R463). -/
  | mailboxSvnRequest (image : ImageKind)
  /-- Inputs of MAILBOX_SUBMISSION_CONTEXT (R367). -/
  | mailboxSubmissionContext (fn : Nat) (xlroot asid : DWord)
  /-- Inputs of GET_VERSION (R462). -/
  | getVersion
  /-- Inputs of GET_CAPABILITIES (R462). -/
  | getCapabilities (request : List Byte)
  /-- Inputs of NEGOTIATE_ALGORITHMS (R462). -/
  | negotiateAlgorithms (request : List Byte)
  /-- Inputs of GET_CERTIFICATE (R462). -/
  | getCertificate (request : List Byte)
  /-- Inputs of CHALLENGE (R462). -/
  | challenge (request : List Byte)
  /-- Inputs of GET_MEASUREMENTS (R462). -/
  | getMeasurements (nonce : List Byte)
  /-- Inputs of KEY_EXCHANGE (R462). -/
  | keyExchange (request : List Byte)
  /-- Inputs of KEY_SLOT_LOAD (R462). -/
  | keySlotLoad (slot tenant : Nat) (key : BitVec 512)
  /-- Inputs of KEY_SLOT_ERASE (R448). -/
  | keySlotErase (slot : Nat)
  /-- Inputs of BOUNDARY_RETRAINED (R429). -/
  | boundaryRetrained (a b : Nat)
  /-- Inputs of CORE_FAILURE (R419). -/
  | coreFailure (core : Nat)
deriving DecidableEq, Repr

/-- The step that takes an input. -/
def Input.instr : Input → Option Instr
  | .none => Option.none
  | .combiningWindowApply _ => some .combiningWindowApply
  | .vwaitFire _ _ => some .vwaitFire
  | .vwaitHostPoll _ _ => some .vwaitHostPoll
  | .linkExpiry _ _ => some .linkExpiry
  | .homeReadRequest _ _ => some .homeReadRequest
  | .homeRegistration _ => some .homeRegistration
  | .homeWriteThrough _ _ _ => some .homeWriteThrough
  | .engineWriteAtHome _ => some .engineWriteAtHome
  | .epochTick => some .epochTick
  | .l1UncorrectableError _ _ => some .l1UncorrectableError
  | .hostSharedRead _ => some .hostSharedRead
  | .hostExclusiveRequest _ _ => some .hostExclusiveRequest
  | .leaseOfferReceived _ _ _ _ _ => some .leaseOfferReceived
  | .leaseTakeReceived _ _ => some .leaseTakeReceived
  | .leaseReclaimReceived _ => some .leaseReclaimReceived
  | .leaseReturnBegunReceived _ => some .leaseReturnBegunReceived
  | .leasePullLine _ => some .leasePullLine
  | .leasePullComplete _ => some .leasePullComplete
  | .leaseReturnReceived _ => some .leaseReturnReceived
  | .leaseDeadline _ => some .leaseDeadline
  | .bwaitWake _ => some .bwaitWake
  | .fgetWake _ => some .fgetWake
  | .evwaitWake _ => some .evwaitWake
  | .wfeWake _ => some .wfeWake
  | .permitCreditTake _ _ => some .permitCreditTake
  | .trowelBeat _ => some .trowelBeat
  | .engineCommandComplete _ => some .engineCommandComplete
  | .spawnArrival _ => some .spawnArrival
  | .cancelMark _ _ => some .cancelMark
  | .launchComplete _ => some .launchComplete
  | .hostQueueRecord _ _ _ _ => some .hostQueueRecord
  | .hiveDispatch _ => some .hiveDispatch
  | .energyAgeExpiry _ => some .energyAgeExpiry
  | .hiveSteal _ _ => some .hiveSteal
  | .stageReview _ => some .stageReview
  | .preempt _ => some .preempt
  | .contextResume _ _ => some .contextResume
  | .tileStepIssue _ _ => some .tileStepIssue
  | .tileRecordComplete _ => some .tileRecordComplete
  | .tileStepStop _ _ _ => some .tileStepStop
  | .longLatencyComplete _ _ _ => some .longLatencyComplete
  | .dieFlitReceive _ _ _ => some .dieFlitReceive
  | .dieAckReceive _ _ _ _ => some .dieAckReceive
  | .dieResendTimeout _ _ _ => some .dieResendTimeout
  | .dieLinkRetrain _ _ => some .dieLinkRetrain
  | .dieLinkFail _ _ => some .dieLinkFail
  | .relovPacketReceive _ => some .relovPacketReceive
  | .relovAckTimer _ _ => some .relovAckTimer
  | .relovAckReceive _ _ _ _ _ => some .relovAckReceive
  | .relovResendTimeout _ _ _ => some .relovResendTimeout
  | .relovDoneReceive _ _ _ => some .relovDoneReceive
  | .relovPathFailure _ => some .relovPathFailure
  | .relovCombineApply _ => some .relovCombineApply
  | .hostBarRead _ _ _ _ => some .hostBarRead
  | .hostBarWrite _ _ _ _ => some .hostBarWrite
  | .hostAtomicopCompleter _ _ _ _ _ _ => some .hostAtomicopCompleter
  | .hostCompletionReceive _ _ => some .hostCompletionReceive
  | .bandwidthRefill => some .bandwidthRefill
  | .powerControlTick => some .powerControlTick
  | .thermalTrip _ => some .thermalTrip
  | .supplyFault => some .supplyFault
  | .coreSleep _ => some .coreSleep
  | .coreWake _ => some .coreWake
  | .powerOnReset _ => some .powerOnReset
  | .firmwareUpdate _ _ => some .firmwareUpdate
  | .mgmtRestart => some .mgmtRestart
  | .mgmtHealthTimeout => some .mgmtHealthTimeout
  | .mailboxCloseReopen _ _ => some .mailboxCloseReopen
  | .mailboxServiceChange _ _ => some .mailboxServiceChange
  | .mailboxAccessTableWrite _ _ => some .mailboxAccessTableWrite
  | .mailboxShareTotal _ _ => some .mailboxShareTotal
  | .mailboxMeasurementExtend _ _ => some .mailboxMeasurementExtend
  | .mailboxSvnRequest _ => some .mailboxSvnRequest
  | .mailboxSubmissionContext _ _ _ => some .mailboxSubmissionContext
  | .getVersion => some .getVersion
  | .getCapabilities _ => some .getCapabilities
  | .negotiateAlgorithms _ => some .negotiateAlgorithms
  | .getCertificate _ => some .getCertificate
  | .challenge _ => some .challenge
  | .getMeasurements _ => some .getMeasurements
  | .keyExchange _ => some .keyExchange
  | .keySlotLoad _ _ _ => some .keySlotLoad
  | .keySlotErase _ => some .keySlotErase
  | .boundaryRetrained _ _ => some .boundaryRetrained
  | .coreFailure _ => some .coreFailure

end Sys2Proof.Machine
end

