-- ==== Sys2Proof/Machine/NMap.lean ====
section
/-! DEFINITION. Sparse maps from numbers: a list of pairs, keys strictly rising. -/

namespace Sys2Proof

/-- The value at a key, if listed. -/
def NMap.get? {α : Type} : NMap α → Nat → Option α
  | [], _ => none
  | (j, a) :: m, k => if k = j then some a else NMap.get? m k

/-- The value at a key, or what an unlisted key stands for. -/
def NMap.getD {α : Type} (m : NMap α) (k : Nat) (d : α) : α := (NMap.get? m k).getD d

/-- The map with a value at a key; keys stay in rising order. -/
def NMap.set {α : Type} : NMap α → Nat → α → NMap α
  | [], k, a => [(k, a)]
  | (j, b) :: m, k, a =>
    if k < j then (k, a) :: (j, b) :: m
    else if k = j then (k, a) :: m
    else (j, b) :: NMap.set m k a

/-- The map without a key. -/
def NMap.erase {α : Type} : NMap α → Nat → NMap α
  | [], _ => []
  | (j, b) :: m, k => if k = j then NMap.erase m k else (j, b) :: NMap.erase m k

/-- The map with one value changed; an unlisted key stands for d. -/
def NMap.modify {α : Type} (m : NMap α) (k : Nat) (d : α) (f : α → α) : NMap α := NMap.set m k (f (NMap.getD m k d))

/-- Every value changed. -/
def NMap.mapVals {α : Type} (m : NMap α) (f : Nat → α → α) : NMap α := List.map (fun x => (x.1, f x.1 x.2)) m

/-- Keys strictly rising. -/
def NMap.rising {α : Type} : NMap α → Bool
  | [] => true
  | [_] => true
  | (j, _) :: (k, b) :: m => decide (j < k) && NMap.rising ((k, b) :: m)

/-- The least number in [0, n) that is not a listed key. -/
def NMap.firstFree {α : Type} (m : NMap α) : Nat → Nat → Option Nat
  | 0, _ => none
  | n + 1, k => if (NMap.get? m k).isNone then some k else NMap.firstFree m n (k + 1)

end Sys2Proof
end

