-- ==== Sys2Proof/Machine/State.lean ====
section
/-! DEFINITION. The state of the DZ-7740 as plain data, the reasons a step can stop, and the machine right after reset
(INVENTORY.md, State). Numbered things are sparse maps; what an unlisted number stands for is the reset value of its kind. -/

namespace Sys2Proof.Machine

/-- Why the machine stops. -/
inductive Fault where
  /-- Raised by `step` when a sequencer's turn comes while the compute dies have no power (R467). Safe: the spec gives no
  further step of a sequencer before the next power-on. -/
  | poweredOff
deriving DecidableEq, Repr

/-- Why an instruction has no meaning here. -/
inductive Refusal where
  /-- Answered by an arm of `exec` for an instruction that is not modelled. Safe: nothing is claimed of it. -/
  | notModelled (mnemonic : String)
deriving DecidableEq, Repr

/-- Memory: (location, byte) pairs in one canonical form: locations strictly rising, no byte 0. An unlisted location reads
as 0 (R468 step 3 for HBM and scratchpads; log 6 for host memory). -/
abbrev Memory := NMap Byte

/-- What an unlisted location reads as. -/
def Memory.unlisted : Byte := 0

/-- The canonical form. -/
def Memory.wf (m : Memory) : Bool := NMap.rising m && List.all m (fun c => c.2 != Memory.unlisted)

/-- Key material of a slot or of a unit's contents (R113, R448): none, one that the management core generated, or one
loaded through SPDM. -/
inductive KeyMat where
  | none
  | generated (n : Nat)
  | loaded (k : BitVec 512)
deriving DecidableEq, Repr

/-- The state of a word in an L1 (R153, R155). `pending`: stored here, its registration sent and not yet recorded. -/
inductive L1State where
  | unreg | pending | reg
deriving DecidableEq, Repr

/-- A word held in an L1. -/
structure L1Word where
  st : L1State
  val : Word
deriving DecidableEq, Repr

/-- A line held in an L1: the fill stamp of its unregistered words (R153, R161), the context-tag index of its registered
words (R172), the key id it was written under (R113), its words by number 0 to 31, and which of its two code lines were filled
whole by one fetch (R17). -/
structure L1Line where
  stamp : BitVec 3 := 0
  tag : Nat := 15
  key : Nat := 0
  whole : BitVec 2 := 0
  words : NMap L1Word := []
deriving DecidableEq, Repr

/-- A registration on its way to the home (R155): the word, whether the store was relaxed (U of R149) and its sequencer. -/
structure PendReg where
  word : Nat
  relaxed : Bool
  seq : Nat
deriving DecidableEq, Repr

/-- Who holds an owner record (R149, R166). -/
inductive Owner where
  | core (n : Nat)
  | engine (cmd : Nat)
deriving DecidableEq, Repr

/-- An owner record: MASK over the 32 words of the line. AGE is the record's place in the line's list. -/
structure OwnerRec where
  owner : Owner
  mask : BitVec 32
deriving DecidableEq, Repr

/-- The registry of one line at its home (R149): owner records, oldest first, and the marks U, P, E. -/
structure LineRec where
  owners : List OwnerRec := []
  u : BitVec 32 := 0
  p : BitVec 32 := 0
  e : BitVec 32 := 0
deriving DecidableEq, Repr

/-- A translation held in a buffer (R98, R100): the leaf, its level, the pages it maps, and where its entry lies. -/
structure TlbEntry where
  asid : BitVec 16
  level : Nat
  page : Nat
  pte : BitVec 128
  entry : Nat
deriving DecidableEq, Repr

/-- A table entry held in a walk cache (R98, R100): it leads from the table at `root` to the walk of VA prefix `page` below
`level`. -/
structure WalkEntry where
  asid : BitVec 16
  level : Nat
  page : Nat
  pte : BitVec 128
deriving DecidableEq, Repr

/-- An entry of the loop stack (R327). -/
structure LoopEntry where
  start : Pc
  exit : Pc
  count : DWord
deriving DecidableEq, Repr

/-- A line as entered: the snapshot a sequencer executes (R17). -/
structure LineSnap where
  addr : BitVec 50
  code : CodeLine
deriving DecidableEq, Repr

/-- A hardware queue a handle names (R33, R356, R357, R368). -/
inductive QHandle where
  /-- The input queue of a stage of a launch. -/
  | stage (launch stage : Nat)
  /-- A memory-backed queue of a launch record, by its control block's address. -/
  | memory (launch : Nat) (pos : Nat)
  /-- The task queue of a launch on a die. -/
  | tasks (launch die : Nat)
  /-- The tile-task queue of a launch on a die. -/
  | tiles (launch die : Nat)
deriving DecidableEq, Repr

/-- An entry of the barrier table (R393): the cell's VA, and the phase last recorded, if one is. -/
structure BarEntry where
  va : Pc
  phase : Option DWord
deriving DecidableEq, Repr

/-- An event queue (R240): records, oldest first, and DROPS. -/
structure EventQueue where
  recs : List (BitVec 256) := []
  drops : Nat := 0
deriving DecidableEq, Repr

/-- Where and how a translated access is performed. -/
structure Place where
  loc : Nat
  /-- The key material, and the id that on-chip copies carry (R113). -/
  mat : KeyMat := .none
  key : Nat := 0
  cp : Nat := 2
  chk : Bool := false
  ic : Bool := false
  /-- In the non-coherent host window: performed at the host, whatever CP says (R115). -/
  plain : Bool := false
  /-- The level of its leaf, 0 in a scratchpad window (R103). -/
  level : Nat := 0
  /-- The core whose scratchpad it is (R221). -/
  scratch : Option Nat := none
deriving DecidableEq, Repr

/-- An AtomicOp sent to the host (R205): the element, its place, its bytes, the operation code of R41, or 0x11 for CAS, the value
sent, and the value that a CAS compares; and the level of its leaf (R103). -/
structure HostRequest where
  elem : Nat
  level : Nat
  loc : Nat
  bytes : Nat
  op : Nat
  value : Nat
  compare : Nat
deriving DecidableEq, Repr

/-- A trap on its way to delivery (R404). `estart = none`: unchanged. `tpc = none`: the instruction's own address. -/
structure Trap where
  cause : Nat
  code : BitVec 10 := 0
  tval : DWord := 0
  estart : Option Nat := none
  tpc : Option Pc := none
deriving DecidableEq, Repr

/-- What a sequencer waits for. -/
inductive Wait where
  /-- A register to be full (R35). -/
  | reg (file : RegFile) (r : Reg)
  /-- A word held for an engine (R166), or a line on its way from a lender (R126). -/
  | held (loc : Nat)
  /-- A `vwait`, `bwait` or `fget` whose wait-table entry or word is not to be had yet (R216, R397, R400). -/
  | arming
  /-- The conditions of a `vwait` (R216): the count it will write, and its destination. -/
  | vwait (covered : DWord) (d : Reg)
  /-- Records in the event queue, or a cycle (R238). -/
  | evwait (sup : Bool) (n : Nat) (deadline : Option Nat) (d : Reg)
  /-- `wfe` (R349): the cycle at which it ends, and whether a child has ended since it issued. -/
  | wfe (deadline : Nat) (child : Bool)
  /-- The phase of the barrier cell at a VA (R397), and the acquire to come. -/
  | bwait (va : Nat) (phase : DWord) (sc : Scope)
  /-- A full future cell at a VA (R400): the destination, `.take`, and the acquire to come. -/
  | fget (va : Nat) (d : Reg) (take : Bool) (acq : Option Scope)
  /-- The Hive's answer to a spawn request (R372). -/
  | spawn (request : Nat)
  /-- The end of a child (R342). -/
  | rdv (seqid : Nat)
  /-- The reclaim of a cancel group (R373). -/
  | cancel (group : Nat)
  /-- The engine commands of this sequencer (R232, R348). -/
  | engines
  /-- The host's completion of an AtomicOp (R205). -/
  | host (op : HostRequest)
  /-- A trap found, whose entry waits for older arrivals at other devices (R44, R406). -/
  | trapping (t : Trap)
  /-- Room in a queue or a table. -/
  | room
deriving DecidableEq, Repr

/-- Whether an AtomicOp is with the host. -/
def Wait.isHost : Wait → Bool
  | .host _ => true
  | _ => false

/-- How a sequencer stands (R31, R341, R348). `ending` waits for the steps of R348 that its end code still needs. -/
inductive SeqPhase where
  | free
  | reserved
  | running
  | ending (code : Nat)
deriving DecidableEq, Repr

/-- A child forked by a sequencer and not yet collected (R342): its SEQID, its identity and, once it has ended, its end code. -/
structure Child where
  seqid : Nat
  uid : Nat
  code : Option Nat
deriving DecidableEq, Repr

/-- An `mstep` part way (R315, R328): the accumulator, the next row, and the flags of the rows done (R83). -/
structure StoppedMstep where
  acc : Nat
  row : Nat
  flags : BitVec 5 := 0
deriving DecidableEq, Repr

/-- A sequencer. Scalars, masks, elements and generators that a map does not list are 0. -/
structure Seq where
  phase : SeqPhase := .free
  /-- The model's own (log 1): tells this run of a sequencer from every other, wherever it is resumed. -/
  uid : Nat := 0
  pc : Pc := 0
  /-- The line entered, until control leaves it. -/
  line : Option LineSnap := none
  /-- The address of the instruction that transferred control, until the target is entered (R16). -/
  cameFrom : Option Pc := none
  /-- Loop stack, innermost entry first. -/
  loops : List LoopEntry := []
  slen : Nat := 0
  s : NMap DWord := []
  sEmpty : BitVec 64 := 0
  p : BitVec 16 := 1
  /-- Brick elements: element e of brick b at key 8192·b + e. -/
  bricks : NMap DWord := []
  bEmpty : BitVec 64 := 0
  /-- Pending slivers: sliver k of brick b at key 1024·b + k (R36). -/
  pend : NMap Unit := []
  /-- Masks m1 to m7. -/
  masks : NMap (BitVec 8192) := []
  estart : BitVec 40 := 0
  vtype : DWord := 0x80000000
  vl : Nat := 0
  mvl : Nat := 0
  fsr : DWord := 0
  gens : NMap Word := []
  /-- BFD0 to BFD3. -/
  bfd : NMap DWord := []
  /-- HALO0 to HALO3 and the four descriptor copies. -/
  halo : NMap DWord := []
  haloCopy : NMap (BitVec 512) := []
  wid : DWord := 0
  widfmt : DWord := 0
  ctxtag : DWord := 0
  tcause : DWord := 0
  tval : DWord := 0
  tpc : Pc := 0
  tstat : BitVec 12 := 0
  tvec : Pc := 0
  tsave : DWord := 0
  xlroot : DWord := 0
  asid : BitVec 16 := 0
  evq : EventQueue := {}
  resvid : DWord := 0
  mtcfg : DWord := 0
  tcfg : BitVec 512 := 0
  queues : NMap QHandle := []
  /-- Barrier table, entries 0 to 7. -/
  bars : NMap BarEntry := []
  unitTlb : Option TlbEntry := none
  /-- Long-latency results that stand in their register and whose full bit is not yet set (R34), and the cycle each was issued. -/
  outst : List (RegFile × Reg × Nat) := []
  launch : Option Nat := none
  /-- The work item, worker or task it belongs to. -/
  work : Option Nat := none
  /-- The stage of a worker or of a source work item. -/
  stage : Option Nat := none
  group : Nat := 0
  tenant : Nat := 0
  /-- The identity of the sequencer that forked it. -/
  parent : Option Nat := none
  children : List Child := []
  wait : Option Wait := none
  mstop : Option StoppedMstep := none
  /-- The latest step left it at a stopping point of R328: after an `endl`, between pages of a tier instruction (R132), or between
  row groups of an `mstep` (R315). -/
  atStop : Bool := false
  /-- Its trap was never delivered: its launch reports outcome 2 when it ends (R365, R405). -/
  dead : Bool := false
  /-- The host's answer to an AtomicOp of this sequencer, not yet taken (R205): the level of its leaf, and the old value, or refused; and whether the
  instruction at the PC has sent one, so that no pre-emption stops it (R208). -/
  hostAns : Option (Nat × Option Nat) := none
  partWay : Bool := false
  /-- A pre-emption asked for and not yet taken (R412). -/
  preempt : Bool := false
deriving DecidableEq, Repr

/-- A link (R211): the line, the linking sequencer, the cycle it was set. Oldest first in the table. -/
structure Link where
  line : Nat
  seq : Nat
  born : Nat
deriving DecidableEq, Repr

/-- An entry of the wait table (R216): the watching sequencer, the element, its VA and the level of its leaf, the word watched and how, and
the key it is read under, whether its condition has held. -/
structure WaitEntry where
  seq : Nat
  elem : Nat
  va : Nat := 0
  level : Nat := 3
  loc : Nat
  width : Nat
  signed : Bool
  cond : Nat
  operand : Nat
  mat : KeyMat
  host : Bool
  fired : Bool
deriving DecidableEq, Repr

/-- What a `bwait` or `fget` waits for at a cell: a phase after the one given (R397), or a value, taken out or left (R400). -/
inductive CellWant where
  | phase (p : DWord)
  | full (take : Bool)
deriving DecidableEq, Repr

/-- An entry of the wait table that a `bwait` or `fget` holds: the waiting sequencer, its cell's VA, the level of its leaf and where that
lies, the key it is read under, and the cell as it stood when the condition held, once it has (R389). -/
structure CellWait where
  seq : Nat
  va : Nat := 0
  level : Nat := 3
  loc : Nat
  mat : KeyMat
  want : CellWant
  got : Option Nat := none
deriving DecidableEq, Repr

/-- An entry of a combining window (R215): the word, the operation, the width, the values accepted, oldest first, the key it is
written under and the cycle it was made. -/
structure CombEntry where
  loc : Nat
  op : Nat
  width : Nat
  values : List Nat
  mat : KeyMat
  born : Nat
deriving DecidableEq, Repr

/-- On whose behalf an access is made (R96, R447): a sequencer's identity, privilege and tables. -/
structure Ctx where
  seq : Nat
  core : Nat
  priv : Bool
  xlroot : DWord
  asid : BitVec 16
  tenant : Nat
  resvid : DWord
deriving DecidableEq, Repr

/-- An AtomicOp sent to the host and not completed (R205): on whose behalf, the sequencer's identity, the VA. -/
structure SentOp where
  ctx : Ctx
  uid : Nat
  va : Nat
  req : HostRequest
deriving DecidableEq, Repr

/-- The departure of a barrier member that has ended (R394), which waits at its cell: on whose behalf, the cell, the phase recorded. -/
structure Departure where
  ctx : Ctx
  va : Nat
  phase : Option DWord
deriving DecidableEq, Repr

/-- A page-table entry (R93). -/
abbrev Pte := BitVec 128

/-- A leaf found: the entry, its level, and the address of the entry. -/
structure Leaf where
  pte : Pte
  level : Nat
  entry : Nat
deriving DecidableEq, Repr

/-- Engine commands (R234, R318). -/
inductive EngKind where
  | walk | multicast | copy | rcopy
deriving DecidableEq, Repr

/-- A branch of a walk into a scratchpad (R227, R233): the receiving core, where the range starts there, whether its credit is
taken, whether it was refused (R227), whether it was abandoned (R232), and the bytes delivered. -/
structure Branch where
  core : Nat
  base : Nat
  credit : Bool := false
  refused : Bool := false
  gone : Bool := false
  pos : Nat := 0
deriving DecidableEq, Repr

/-- An engine command issued and not complete. -/
structure EngCmd where
  kind : EngKind
  ctx : Ctx
  /-- Status register, 0 for none; completion record wanted; its utag and SRC (R241). -/
  d : Reg := 0
  ev : Bool := false
  utag : Nat := 0
  src : Nat := 0
  /-- The rows to move (R225). A copy is one row. -/
  sva : Nat := 0
  dva : Nat := 0
  rowb : Nat := 0
  nrow : Nat := 1
  npln : Nat := 1
  spitch : Int := 0
  splane : Int := 0
  dpitch : Int := 0
  dplane : Int := 0
  /-- Permit tag (R227). -/
  ptag : Nat := 0
  /-- Translations of the source pages, with the keys that they were checked under (R448), and places of the destination pages, by page
  number (R101). -/
  srcPages : NMap (Leaf × KeyMat) := []
  dstPages : NMap Place := []
  branches : List Branch := []
  /-- Whether the destination is memory. -/
  memDst : Bool := false
  /-- Whether a Trowel has started it (R224). -/
  started : Bool := true
  /-- Bytes read from the source; bytes buffered, the first at position `bufBase`; bytes written or sent. -/
  rd : Nat := 0
  buf : List Byte := []
  bufBase : Nat := 0
  wr : Nat := 0
  /-- `rcopy`: the destination and the signal's PA. -/
  dev : Nat := 0
  sig : Option Nat := none
  /-- Members that the signal was sent to, and those that refused data (R439). -/
  signalled : List Nat := []
  refusedBy : List Nat := []
  /-- The first destination byte that it cannot write, and the cause that will stop it there (R230). -/
  failAt : Option (Nat × Nat) := none
  /-- The status it stopped with. -/
  stop : Option Nat := none
deriving DecidableEq, Repr

/-- What a tagged Relov command is for (R432, R435). -/
inductive RKind where
  /-- The data of an `rcopy`, by its engine command; its signal. -/
  | data (cmd : Nat)
  | signal (cmd : Nat)
  /-- `arrive.remote`: the sequencer's identity and its status register. -/
  | arrive (uid : Nat) (d : Reg)
  /-- A leased line read for an access, or for a pull (R123, R127). -/
  | line (line : Nat) (slot : Nat) (pull : Bool)
  /-- A leased line written back to its lender (R441). -/
  | back (line : Nat) (slot : Nat)
deriving DecidableEq, Repr

/-- A tagged command: the DONEs or DATA awaited by device, and whether any answer was a refusal. -/
structure RCmd where
  kind : RKind
  left : NMap Nat := []
  refused : Bool := false
deriving DecidableEq, Repr

/-- A packet sent and not acknowledged (R435): transmissions, and the cycles of the first and the last. -/
structure OutPacket where
  pkt : Packet
  sent : Nat := 1
  first : Nat
  last : Nat
  /-- Members of a group that have acknowledged it (R439). -/
  acked : List Nat := []
deriving DecidableEq, Repr

/-- A sending flow. -/
structure SendFlow where
  next : Nat := 0
  unacked : List OutPacket := []
deriving DecidableEq, Repr

/-- A receiving flow (R433, R435): the SEQ expected, packets held, packets since the last ACK, the cycle of the last ACK, and
what it said. -/
structure RecvFlow where
  expect : Nat := 0
  held : NMap Packet := []
  since : Nat := 0
  ackAt : Nat := 0
  acked : Option (Nat × DWord) := none
deriving DecidableEq, Repr

/-- An entry of the gateway's combining window (R440): ADD64 (the sum) or ARRIVE (the count), and the DONEs it owes. -/
structure GwEntry where
  pa : Nat
  add : Bool
  value : Nat
  born : Nat
  dones : List (Nat × Word) := []
deriving DecidableEq, Repr

/-- The Relov gateway (R431 to R441, R451). Sending flows by device·16 + FLOW, receiving flows by `recvKey`. -/
structure Relov where
  devno : Nat := Config.deviceNumber
  send : NMap SendFlow := []
  recv : NMap RecvFlow := []
  cmds : NMap RCmd := []
  nextTag : Nat := 0
  /-- Group table (R439). -/
  groups : NMap (List Nat) := []
  comb : List GwEntry := []
  crcErr : Nat := 0
  stomped : Nat := 0
  resent : Nat := 0
  pathFail : Nat := 0
deriving DecidableEq, Repr

/-- A flit sent over a die boundary and not acknowledged (R428). -/
structure OutFlit where
  flit : Flit
  sent : Nat
  fails : Nat := 0
deriving DecidableEq, Repr

/-- One direction of a die boundary (R427, R428): the sender's next number and unacknowledged flits; the receiver's next
expected number, the flits it holds out of order, and the acknowledgement it gave last. -/
structure LinkDir where
  next : Nat := 0
  unacked : List OutFlit := []
  expect : Nat := 0
  held : NMap Flit := []
  acked : Option (Nat × DWord) := none
deriving DecidableEq, Repr

/-- A die boundary (R429, R430). -/
inductive LinkState where
  | up
  /-- Retraining since a cycle. -/
  | retraining (since : Nat)
  | out
deriving DecidableEq, Repr

/-- A function of the host port (R443, R366, R367): its tenant, its window of HBM in the memory BAR, its submission context. -/
structure HostFn where
  tenant : Nat := 0
  barBase : Nat := 0
  barSize : Nat := 0
  submit : Option (DWord × BitVec 16) := none
deriving DecidableEq, Repr

/-- A permit entry (R227). -/
structure Permit where
  base : Nat := 0
  len : Nat := 0
  credits : Nat := 0
deriving DecidableEq, Repr

/-- An accumulator (R303): FP32 elements at 64·row + column, unlisted elements +0; full or empty; the identity of the sequencer whose matrix
command last wrote it (R412). -/
structure Accum where
  elems : NMap Word := []
  full : Bool := true
  writer : Option Nat := none
deriving DecidableEq, Repr

/-- A core. -/
structure Core where
  inService : Bool := true
  /-- It failed without warning, and has not been repaired (R419, R420). -/
  failed : Bool := false
  l1 : NMap L1Line := []
  regq : List PendReg := []
  /-- Context tags by index 0 to 14 (R172). -/
  tags : NMap DWord := []
  epoch : BitVec 3 := 0
  asleep : Bool := false
  links : List Link := []
  waits : NMap WaitEntry := []
  cells : List CellWait := []
  /-- Banks taken from the L1 into brick storage (R250). -/
  banks : Nat := 0
  spOwner : Nat := 0
  permits : NMap Permit := []
  acc0 : Accum := {}
  acc1 : Accum := {}
  tlb : List TlbEntry := []
  /-- Gather TLB by bank: 64 KiB fragment numbers with their translations (R100). -/
  gatherTlb : NMap (List (Nat × TlbEntry)) := []
  /-- The combining window of the scratchpad's lane array. -/
  comb : List CombEntry := []
  /-- Token buckets by tenant (R449). -/
  tokens : NMap Nat := []
deriving DecidableEq, Repr

/-- A cluster. -/
structure Cluster where
  tlb : List TlbEntry := []
  walkCache : List WalkEntry := []
  /-- Launches whose abort line is raised here (R343), and for each whether a sampling has found it raised, the cycle of the
  `abort`, and the identity of the sequencer that raised it (R344). -/
  abort : NMap (Bool × Nat × Nat) := []
  /-- The launch whose fused L1 this cluster holds (R164). -/
  fused : Option Nat := none
  closed : Bool := false
  spareUsed : Bool := false
deriving DecidableEq, Repr

/-- A die. -/
structure Die where
  inService : Bool := true
  closed : Bool := false
  sventry : Pc := 0
  /-- LANES.LN and LANES.GEN (R465). -/
  ln : Nat := 3
  gen : Word := 1
  supq : EventQueue := {}
  /-- PA of the frame pool's descriptor, 0 for none (R119, R133). -/
  pool : Nat := 0
deriving DecidableEq, Repr

/-- A key slot (R448). -/
structure KeySlot where
  mat : KeyMat := .none
  owner : Nat := 0
deriving DecidableEq, Repr

/-- A reservation of unbacked capacity (R116), by its 12-bit ID. `pages`: the indices materialised. -/
structure Resv where
  cap : Nat := 0
  limit : Nat := 0
  cowbase : Nat := 0
  ncow : Nat := 0
  tenant : Nat := 0
  group : Option Nat := none
  pages : List Nat := []
deriving DecidableEq, Repr

/-- States of a borrower slot (R123). -/
inductive SlotState where
  | free | active | demoting | demoted | lost
deriving DecidableEq, Repr

/-- A borrower slot (R123 to R127). `pulling`: the line of page CURSOR asked of the lender for the pull. -/
structure BorrowSlot where
  st : SlotState := .free
  ldev : Nat := 0
  lent : Nat := 0
  /-- The region's base at the lender. -/
  base : Nat := 0
  pages : Nat := 0
  fkey : Nat := 0
  fbase : Nat := 0
  fsize : Nat := 0
  dbw : Nat := 0
  cursor : Nat := 0
  moved : BitVec 512 := 0
  regs : BitVec 768 := 0
  pulling : Option Nat := none
deriving DecidableEq, Repr

/-- States of a lender entry (R123). -/
inductive LendState where
  | free | offered | lent | reclaiming
deriving DecidableEq, Repr

/-- A lender entry (R123, R127, R141): the region, the key it is lent under, the borrower, T_reclaim in 10 µs units, and the
deadline of a reclaim. -/
structure LendEntry where
  st : LendState := .free
  base : Nat := 0
  pages : Nat := 0
  key : Nat := 0
  dev : Nat := 0
  t : Nat := 0
  deadline : Option Nat := none
deriving DecidableEq, Repr

/-- A memory-backed queue of a launch record (R368), as the Hive read it: the VAs of its descriptor and of slot 0, log₂ of the
slots and of their size. -/
structure MemQueue where
  desc : Nat
  base : Nat
  logn : Nat
  logr : Nat
deriving DecidableEq, Repr

/-- A stage of a launch (R57, R356, R358): its entry, queue depth and log₂ of the record size, feeding stage, fewest and most
cores; the records in its input queue, oldest first; the cores assigned; the next rank; and what the interval since the last
review has seen: a queue half full or a failed push, a record held; a withdrawal to take. -/
structure Stage where
  entry : Pc
  depth : Nat
  logr : Nat
  feeder : Option Nat
  minc : Nat
  maxc : Nat
  recs : List (List Byte) := []
  cores : List Nat := []
  nextRank : Nat := 0
  busy : Bool := false
  used : Bool := false
  withdraw : Bool := false
deriving DecidableEq, Repr

/-- A launch (R57, R351, R363). `ctx`: the submitting context of the Hive's reads. `unstarted`: the work items not yet started,
by source stage (0 where there are no stages), as rising intervals of their numbers in WID order. `bound`: the agents fixed for groups of work items (R352), by level and
group number. `passed`: where its unstarted items were first passed over for their energy class (R360): by sequencer, the cycle and the
number of groups bound then; `aged`: the sequencers of those passings that have aged. -/
structure Launch where
  die : Nat
  ctx : Ctx
  args : DWord
  cpl : Nat
  useq : Nat
  entry : Pc
  widfmt : DWord
  extents : List Nat
  places : List Nat
  prio : Nat
  migratable : Bool
  fused : Bool
  trappol : BitVec 2
  energy : Nat
  ctxtag : DWord
  tvec : Pc
  tsave : DWord
  group : Nat
  queues : List MemQueue
  stages : List Stage
  started : Bool := false
  unstarted : NMap (List (Nat × Nat))
  bound : List (Nat × Nat × Nat) := []
  passed : NMap (Nat × Nat) := []
  aged : List Nat := []
  reviewAt : Nat := 0
  ended : Nat := 0
  aborted : Bool := false
  terminated : Bool := false
  cancelled : Bool := false
deriving DecidableEq, Repr

/-- Work that runs (R351, R358, R372). -/
inductive Work where
  /-- A work item, by its number in WID order. -/
  | item (launch i : Nat)
  | worker (launch stage core : Nat)
  /-- A task, with its placement scope and the core of its spawner (R372). -/
  | task (launch place core : Nat)
deriving DecidableEq, Repr

/-- A task queued on a die (R371, R372), and since when it is passed over for its energy class (R360). -/
structure Task where
  launch : Nat
  die : Nat
  core : Nat
  entry : Pc
  args : List DWord
  prio : Nat
  place : Nat
  wid : DWord
  passedAt : Option Nat := none
deriving DecidableEq, Repr

/-- A spawn request on its way to its die's Hive (R372, R375). -/
structure SpawnReq where
  seq : Nat
  uid : Nat
  d : Reg
  group : Nat
  task : Task
deriving DecidableEq, Repr

/-- A pre-empted sequencer (R412): its state, where it ran, the accumulators saved with it, and since when it is passed over for its
energy class (R360). -/
structure Saved where
  q : Seq
  seq : Nat
  accs : NMap Accum := []
  passedAt : Option Nat := none
deriving DecidableEq, Repr

/-- A tile step under way (R323): its place in the record's walk, the number that its words are registered under (R166), the core whose
engine it is on, its parameter block as read, the next row group, where the pages of its tile in memory lie, and the first row that it
cannot write, with the cause and the VA. -/
structure TileStep where
  index : Nat
  cmd : Nat
  core : Nat
  block : Nat
  group : Nat := 0
  pages : NMap Place := []
  failAt : Option (Nat × Nat × Nat) := none
deriving DecidableEq, Repr

/-- A tile-task record in a Hive's queue (R60, R321 to R326): where it came from, its fields, the COUNTs that the first step's
read fixed, the next step to issue, the steps under way, the steps completed, the cores that have run one, the core of the last one, the
flags, and the stop: status, first step not completed, VA. -/
structure TileRec where
  launch : Nat
  die : Nat
  ctx : Ctx
  uid : Nat
  opb : Nat
  starts : List Nat
  utag : Nat
  waits : List Nat
  sigs : List Nat
  place : Nat
  prio : Nat
  counts : Option (List Nat) := none
  next : Nat := 0
  running : List TileStep := []
  steps : Nat := 0
  ran : List Nat := []
  last : Option Nat := none
  flags : BitVec 5 := 0
  stop : Option (Nat × Nat × Nat) := none
deriving DecidableEq, Repr

/-- The queue of a host function on a die (R366). -/
structure HostQueue where
  recs : List (List Byte) := []
  accepted : DWord := 0
  dropped : DWord := 0
  malformed : DWord := 0
deriving DecidableEq, Repr

/-- What the management core records in flash (R463, R467, R468). -/
inductive FailRecord where
  | thermal (die : Nat)
  | supply
  | unhealthy (slot : Nat)
  | bringUp (step : Nat)
deriving DecidableEq, Repr

/-- The management core (R460 to R469): the fused security version and the revoked signing keys; the measurement registers; the
images in flash by 2·kind + slot (kind 0 management, 1 compute boot), the active slots and the images pending in the other
ones; a restart in progress until a cycle, and the requests that wait for its end, oldest first; the cycle by which a new image must be healthy; the failure record; whether the
host link is up and whether an SPDM session is secured; the bring-up step that failed; the cycle of the latest power review. -/
structure Mgmt where
  svn : Word := 0
  revoked : List (List Byte) := []
  mrs : NMap (BitVec 384) := []
  slots : NMap Image := []
  activeMgmt : Nat := 0
  activeBoot : Nat := 0
  pendingMgmt : Bool := false
  pendingBoot : Bool := false
  restartUntil : Option Nat := none
  waiting : List Input := []
  healthBy : Option Nat := none
  records : List FailRecord := []
  linkUp : Bool := true
  session : Bool := false
  failedStep : Option Nat := none
  powerAt : Nat := 0
deriving DecidableEq, Repr

/-- The model's own (log 1): what stands at the host's side after a request: bytes returned, Unsupported Request, a mailbox
status, an SPDM response by its request code, or busy. -/
inductive Answer where
  | none
  | data (l : List Byte)
  | unsupported
  | status (n : Nat)
  | spdm (code : Nat) (l : List Byte)
  | busy
deriving DecidableEq, Repr

/-- Who moves next: a sequencer, or the agent whose inputs these are. -/
inductive Turn where
  | seq (n : Nat)
  | agent (i : Input)
deriving DecidableEq, Repr

/-- The machine. -/
structure State where
  /-- Periods of the core clock since reset (R3). -/
  cycle : Nat := 0
  /-- The model's own (log 1): the sequencer whose turn it is, the one that the rotation of sequencers last came to, the turns
  laid down, the inputs at the moving agent's port, and the counter that free values read. -/
  cur : Nat := 0
  rota : Nat := 0
  turns : List Turn := []
  input : Input := .none
  freeCtr : Nat := 0
  powered : Bool := true
  /-- The cycle of the latest epoch tick (R161). -/
  epochAt : Nat := 0
  mem : Memory := []
  /-- Key material under which each 128-byte line of HBM was last written; unlisted lines under slot 0's (R113). -/
  lineMats : NMap KeyMat := []
  keys : NMap KeySlot := []
  /-- The access table, held alike by every target (R446). -/
  windows : NMap (BitVec 128) := []
  /-- Home registry by line (R149). -/
  lines : NMap LineRec := []
  /-- Combining windows of the home slices, by slice (R215). -/
  homeComb : NMap (List CombEntry) := []
  /-- Page slot of each materialised unbacked page, by reservation·2^26 + page (R147). -/
  pageSlots : NMap Nat := []
  resvs : NMap Resv := []
  borrow : NMap BorrowSlot := []
  lend : NMap LendEntry := []
  /-- Leased lines that stand at the borrower's homes (R124), by line number. -/
  leasedHere : NMap Unit := []
  /-- Leased lines asked of their lender and not yet come (R123), by line number. -/
  leaseReads : List Nat := []
  /-- Locations of words that an uncorrectable error has struck (R112, R404): an access to one raises cause 0x28. An input. -/
  badWords : List Nat := []
  /-- Dies that no transfer reaches (R430). -/
  unreachable : List Nat := []
  /-- Tenant quotas of unbacked capacity, by tenant·4 + die (R133). -/
  quotas : NMap Nat := []
  /-- Lease offers received and not taken: region base, pages and T_reclaim, by device·256 + entry (R129, R142). -/
  offers : NMap (Nat × Nat × Nat) := []
  /-- Engine commands by number, in the order of issue; the next number. -/
  engines : NMap EngCmd := []
  nextCmd : Nat := 0
  relov : Relov := {}
  /-- Die boundaries: directions by source·4 + destination, and states by low·4 + high. -/
  linkDirs : NMap LinkDir := []
  linkStates : NMap LinkState := []
  /-- Flits at a die that wait to go on, oldest first: for room on a boundary (R428), or for their class's way (R429). -/
  flitsWaiting : List (Nat × Flit) := []
  /-- Host functions 0 to 63; function 0 is the physical one (R443). -/
  functions : NMap HostFn := [(0, {})]
  /-- Host writes dropped by the access check (R447). -/
  hostDrops : Nat := 0
  /-- HDM lines that the host holds under CXL.mem, with the bytes it wrote there, if any (R445). -/
  hostLines : NMap (List Byte) := []
  /-- Bandwidth (R449 to R451): TOTAL, SHARE by tenant, PORTS and ACT by tenant at the last boundary, the (tenant, core)
  pairs that sent a counted request in this interval, and those that a sequencer ran at in it. -/
  total : Nat := 480000
  shares : NMap Nat := []
  ports : NMap Nat := []
  act : List Nat := []
  active : List (Nat × Nat) := []
  ran : List (Nat × Nat) := []
  /-- The Hives: launches by number in the order of arrival, running work, queued tasks in the order of spawning, spawn
  requests in flight, pre-empted sequencers, tile-task records in the order of arrival, tags set by launch·4 + die, marks
  (die, group), and cancellations under way (group, die of the issuer). -/
  launches : NMap Launch := []
  nextLaunch : Nat := 0
  works : NMap Work := []
  nextWork : Nat := 0
  tasks : NMap Task := []
  nextTask : Nat := 0
  spawns : NMap SpawnReq := []
  nextSpawn : Nat := 0
  saved : NMap Saved := []
  nextSaved : Nat := 0
  tiles : NMap TileRec := []
  nextTile : Nat := 0
  tags : NMap (List Nat) := []
  marks : List (Nat × Nat) := []
  cancels : List (Nat × Nat) := []
  /-- Departures that wait at their cells (R394). -/
  departures : List Departure := []
  /-- AtomicOps that the host has yet to complete (R205), oldest first. -/
  hostOps : List SentOp := []
  /-- What lease deadlines have taken from borrowers (R128): the device, and the base and bytes of the region refused to it. -/
  barred : List (Nat × Nat × Nat) := []
  /-- Host queues by function·4 + die (R366). -/
  hostQueues : NMap HostQueue := []
  /-- The management core, the answer to the latest request of the host, and the cycle of the latest refill (R450). -/
  mgmt : Mgmt := {}
  answer : Answer := .none
  refillAt : Nat := 0
  /-- The next identity of a sequencer (log 1). -/
  nextUid : Nat := 4
  seqs : NMap Seq := []
  cores : NMap Core := []
  clusters : NMap Cluster := []
  dies : NMap Die := []
deriving DecidableEq, Repr

/-- A sequencer that the boot firmware starts (R468 step 8), its generators seeded (R81). -/
def Seq.boot (uid : Nat) : Seq := { phase := .running, uid := uid, pc := Config.bootEntry, tstat := 1, gens := seedGens 0 }

/-- A window of the access table for tenant 0 with every permission (R446): 64 KiB units base to limit. -/
def supervisorWindow (base limit : BitVec 36) : BitVec 128 :=
  (1 : BitVec 1) ++ (0 : BitVec 34) ++ (0 : BitVec 2) ++ (0 : BitVec 16) ++ (7 : BitVec 3) ++ limit ++ base

/-- The image that flash holds in every slot at reset: an empty one (DESIGN CHOICE, log 42: the spec gives no image). -/
def factoryImage : Image := { header := [], chain := [], payload := [], signature := [] }

/-- The measurement registers that bring-up leaves, from the management and boot images (R461, R468). `mrs`: before it. -/
def bringUpMrs (mrs : NMap (BitVec 384)) (mgmt boot : Image) (k : Nat) : NMap (BitVec 384) :=
  let ext (i : Nat) (d : BitVec 384) (m : NMap (BitVec 384)) : NMap (BitVec 384) := NMap.set m i (extendMr (NMap.getD m i 0) d)
  ext 1 (sha384 boot.body) (ext 2 (Config.bringUpDigest 2 k) (ext 3 (Config.bringUpDigest 3 k) (ext 0 (sha384 mgmt.body) mrs)))

/-- The management core after the first bring-up. -/
def Mgmt.reset : Mgmt :=
  { mrs := bringUpMrs [] factoryImage factoryImage 0,
    slots := [(0, factoryImage), (1, factoryImage), (2, factoryImage), (3, factoryImage)] }

/-- The machine right after reset: bring-up has run to its end (R468). -/
def State.reset : State where
  keys := [(0, { mat := .generated 0, owner := 0 })]
  windows := [(0, supervisorWindow 0 0x7FFFFF), (1, supervisorWindow 0x800000000 0xFFFFFFFFF)]
  mgmt := Mgmt.reset
  ran := [(0, 0), (0, 48), (0, 96), (0, 144)]
  seqs := [(0, Seq.boot 0), (192, Seq.boot 1), (384, Seq.boot 2), (576, Seq.boot 3)]

end Sys2Proof.Machine
end

