-- ==== Sys2Proof/Machine/Ops.lean ====
section
/-! DEFINITION. The shared operations of a sequencer's step: the outcome of a meaning, registers with their full/empty bits
(R31, R34, R35), taking a trap (R405, R406) and returning from one (R411), the fall-through of the PC (R14), and the clock. -/

namespace Sys2Proof.Machine

/-- How a meaning stops before its end. -/
inductive Stop where
  /-- It takes a trap. -/
  | trap (t : Trap)
  /-- It waits, and executes again from the start unless a step of another agent completes it. -/
  | wait (w : Wait)
  /-- The sequencer ends with an end code (R342, R344). -/
  | ends (code : Nat)
deriving DecidableEq, Repr

def Stop.isTrap : Stop → Bool
  | .trap _ => true
  | _ => false

/-- Where control goes after a meaning. -/
inductive Cont where
  | next
  | goto (pc : Pc)
  /-- As `goto`, after an `endl`: a point of pre-emption (R328). -/
  | loopTo (pc : Pc)
  /-- Part of the instruction is done, and its next turn goes on: a stopping point (R132, R315, R328). -/
  | again
  /-- The meaning has set the PC itself, or the sequencer no longer runs here. -/
  | stopped
deriving DecidableEq, Repr

/-- A meaning: it reads and changes the state, and may stop. What it changed before it stopped stays. -/
abbrev M := ExceptT Stop (StateM State)

abbrev Result := Host.Outcome State Fault Refusal

/-! Numbering (R5). -/

def coreOf (n : Nat) : Nat := n / 4
def clusterOf (n : Nat) : Nat := n / 32
def dieOf (n : Nat) : Nat := n / 192
def seqCount : Nat := 768
def coreCount : Nat := 192

/-! Accessors. -/

def State.seq (s : State) (n : Nat) : Seq := NMap.getD s.seqs n {}
def State.core (s : State) (c : Nat) : Core := NMap.getD s.cores c {}
def State.cluster (s : State) (c : Nat) : Cluster := NMap.getD s.clusters c {}
def State.die (s : State) (d : Nat) : Die := NMap.getD s.dies d {}

def State.setSeq (s : State) (n : Nat) (q : Seq) : State := { s with seqs := NMap.set s.seqs n q }
def State.setCore (s : State) (n : Nat) (c : Core) : State := { s with cores := NMap.set s.cores n c }
def State.setCluster (s : State) (n : Nat) (c : Cluster) : State := { s with clusters := NMap.set s.clusters n c }
def State.setDie (s : State) (n : Nat) (d : Die) : State := { s with dies := NMap.set s.dies n d }

def State.modSeq (s : State) (n : Nat) (f : Seq → Seq) : State := s.setSeq n (f (s.seq n))
def State.modCore (s : State) (n : Nat) (f : Core → Core) : State := s.setCore n (f (s.core n))
def State.modCluster (s : State) (n : Nat) (f : Cluster → Cluster) : State := s.setCluster n (f (s.cluster n))
def State.modDie (s : State) (n : Nat) (f : Die → Die) : State := s.setDie n (f (s.die n))

/-- A sequencer's tenant has run at its core's port in this interval (R450). -/
def State.noteRan (s : State) (n : Nat) : State :=
  let x := ((s.seq n).tenant, coreOf n)
  if x ∈ s.ran then s else { s with ran := s.ran ++ [x] }

/-- One period of the core clock (R3). -/
def State.tick (s : State) : State := { s with cycle := s.cycle + 1 }

/-- The sequencer whose step this is. -/
def me : M Nat := do return (← get).cur

def mySeq : M Seq := do
  let s ← get
  return s.seq s.cur

def modMe (f : Seq → Seq) : M Unit := modify fun s => s.modSeq s.cur f

def modMyCore (f : Core → Core) : M Unit := modify fun s => s.modCore (coreOf s.cur) f

def myCore : M Core := do
  let s ← get
  return s.core (coreOf s.cur)

def stopTrap {α : Type} (t : Trap) : M α := throw (.trap t)

def stopWait {α : Type} (w : Wait) : M α := throw (.wait w)

/-- The next value of the counter that free values read. -/
def freshFree : M Nat := do
  let s ← get
  set { s with freeCtr := s.freeCtr + 1 }
  return s.freeCtr

/-- One of several free things, whichever the device takes (log 33). -/
def pickFree (l : List Nat) : M (Option Nat) := do
  match l with
  | [] => return none
  | [x] => return some x
  | x :: _ =>
    let k ← freshFree
    return some (l.getD (Config.choice k % l.length) x)

/-- Run a list of steps in order. -/
def forEach {α : Type} (l : List α) (f : α → M Unit) : M Unit := l.foldlM (fun _ a => f a) ()

/-- The numbers a, a+1, … below a + n. -/
def upFrom (a n : Nat) : List Nat := (List.range n).map (a + ·)

/-! Bits of a number. -/

def bits (x lo n : Nat) : Nat := x / 2 ^ lo % 2 ^ n

def bit (x i : Nat) : Bool := x / 2 ^ i % 2 == 1

/-! TSTAT (R408). -/

def Seq.priv (q : Seq) : Bool := q.tstat.getLsbD 0
def Seq.inh (q : Seq) : Bool := q.tstat.getLsbD 2
def Seq.pol (q : Seq) : Nat := (q.tstat.extractLsb' 10 2).toNat

/-- TSTAT from its fields. -/
def mkTstat (pol : BitVec 2) (dbl hold pinh inh ppriv priv : Bool) : BitVec 12 :=
  pol ++ BitVec.ofBool dbl ++ BitVec.ofBool hold ++ (0 : BitVec 4) ++ BitVec.ofBool pinh ++ BitVec.ofBool inh ++
    BitVec.ofBool ppriv ++ BitVec.ofBool priv

/-! Long-latency results (R34). -/

def Seq.setFull (q : Seq) (f : RegFile) (r : Reg) : Seq :=
  match f with
  | .scalar => { q with sEmpty := q.sEmpty &&& ~~~((1 : BitVec 64) <<< r.toNat) }
  | .brick => { q with bEmpty := q.bEmpty &&& ~~~((1 : BitVec 64) <<< r.toNat),
                       pend := q.pend.filter (fun x => x.1 / 1024 != r.toNat) }
  | .acc => q

def Seq.setEmpty (q : Seq) (f : RegFile) (r : Reg) : Seq :=
  match f with
  | .scalar => { q with sEmpty := q.sEmpty ||| ((1 : BitVec 64) <<< r.toNat) }
  | .brick => { q with bEmpty := q.bEmpty ||| ((1 : BitVec 64) <<< r.toNat) }
  | .acc => q

def Seq.isEmpty (q : Seq) (f : RegFile) (r : Reg) : Bool :=
  match f with
  | .scalar => q.sEmpty.getLsbD r.toNat
  | .brick => q.bEmpty.getLsbD r.toNat
  | .acc => false

/-- A producer whose value stands writes its last element: its register is full (R34). -/
def Seq.complete (q : Seq) (f : RegFile) (r : Reg) : Seq :=
  { (q.setFull f r) with outst := q.outst.filter (fun x => !(x.1 == f && x.2.1 == r)) }

/-- Every such producer completes (R37, R406 step 1). -/
def Seq.completeAll (q : Seq) : Seq := q.outst.foldl (fun q x => q.complete x.1 x.2.1) q

/-- Whether a register's producer has written it and not yet set its bit. -/
def Seq.standing (q : Seq) (f : RegFile) (r : Reg) : Bool := q.outst.any (fun x => x.1 == f && x.2.1 == r)

/-- The file's code in TVAL[7:6] of an empty-source trap (R35). -/
def fileCode : RegFile → Nat
  | .scalar => 0
  | .brick => 1
  | .acc => 2

def emptySource (f : RegFile) (r : Reg) : Trap :=
  { cause := 0x06, tval := BitVec.ofNat 64 (64 * fileCode f + r.toNat) }

/-- An accumulator of a core (R32). -/
def Core.accOf (c : Core) (i : Nat) : Accum := if i = 0 then c.acc0 else c.acc1

def Core.setAcc (c : Core) (i : Nat) (a : Accum) : Core := if i = 0 then { c with acc0 := a } else { c with acc1 := a }

/-- Whether a register of the sequencer whose step this is, or an accumulator of its core, is empty. -/
def State.emptyReg (s : State) (f : RegFile) (r : Reg) : Bool :=
  match f with
  | .acc => !((s.core (coreOf s.cur)).accOf r.toNat).full
  | f => (s.seq s.cur).isEmpty f r

/-- The check of a source operand as its instruction issues (R35). A wait on a producer whose value stands ends at once. -/
def needFull (f : RegFile) (a : Src) : M Unit := do
  let q ← mySeq
  if (← get).emptyReg f a.reg then
    if a.w then stopTrap (emptySource f a.reg)
    else if q.standing f a.reg then modMe (·.complete f a.reg)
    else stopWait (.reg f a.reg)

/-- A register about to be written: an empty one is waited for (R34). -/
def needWritable (f : RegFile) (r : Reg) : M Unit := needFull f ⟨r, false⟩

/-- A scalar; s0 reads zero (R31). -/
def Seq.scalar (q : Seq) (r : Reg) : DWord := if r = 0 then 0 else NMap.getD q.s r.toNat 0

/-- A scalar written; writes to s0 are discarded (R31). -/
def Seq.setScalar (q : Seq) (r : Reg) (v : DWord) : Seq := if r = 0 then q else { q with s := NMap.set q.s r.toNat v }

/-- A scalar source (R35). -/
def readS (a : Src) : M DWord := do
  needFull .scalar a
  return (← mySeq).scalar a.reg

/-- A scalar read through a field without W: it always waits. -/
def readReg (r : Reg) : M DWord := readS ⟨r, false⟩

/-- The scalar side writes a scalar. -/
def writeS (r : Reg) (v : DWord) : M Unit := do
  needWritable .scalar r
  modMe (·.setScalar r v)

/-- A unit writes a scalar: a long-latency producer, whose value stands and whose bit is set by LONG_LATENCY_COMPLETE or by
the first reader that waits (R34). s0 is always full. -/
def writeLong (r : Reg) (v : DWord) : M Unit := do
  needWritable .scalar r
  if r ≠ 0 then
    let t := (← get).cycle
    modMe fun q => { ((q.setScalar r v).setEmpty .scalar r) with outst := q.outst ++ [(.scalar, r, t)] }

/-- A predicate; p0 reads true (R31). -/
def Seq.pred (q : Seq) (i : Nat) : Bool := i == 0 || q.p.getLsbD i

def Seq.setPred (q : Seq) (i : Nat) (v : Bool) : Seq :=
  if i = 0 then q
  else { q with p := (q.p &&& ~~~((1 : BitVec 16) <<< i)) ||| (if v then (1 : BitVec 16) <<< i else 0) }

def readP (i : Nat) : M Bool := do return (← mySeq).pred i

def writeP (r : Reg) (v : Bool) : M Unit := modMe (·.setPred r.toNat v)

/-- A mask; m0 reads all ones (R31). -/
def Seq.mask (q : Seq) (i : Nat) : BitVec 8192 := if i = 0 then BitVec.allOnes 8192 else NMap.getD q.masks i 0

def Seq.setMask (q : Seq) (i : Nat) (v : BitVec 8192) : Seq := if i = 0 then q else { q with masks := NMap.set q.masks i v }

/-- An element of a brick, as the dword whose low SEW bits it is. -/
def Seq.elem (q : Seq) (b e : Nat) : DWord := NMap.getD q.bricks (8192 * b + e) 0

def Seq.setElem (q : Seq) (b e : Nat) (v : DWord) : Seq := { q with bricks := NMap.set q.bricks (8192 * b + e) v }

/-! The PC (R14). -/

def lineOf (pc : Pc) : BitVec 50 := pc.extractLsb' 6 50

def indexOf (pc : Pc) : Nat := (pc.extractLsb' 0 6).toNat

/-- The instruction after the one at the PC, within the line entered or at head 0 of the next line. -/
def Seq.nextPc (q : Seq) : Pc :=
  match q.line with
  | some l => if indexOf q.pc + 1 < l.code.heads then q.pc + 1 else (lineOf q.pc + 1) ++ (0 : BitVec 6)
  | none => if indexOf q.pc < 30 then q.pc + 1 else (lineOf q.pc + 1) ++ (0 : BitVec 6)

/-- Control falls through: it leaves the line at its last head. -/
def Seq.advance (q : Seq) : Seq :=
  let t := q.nextPc
  let q := { q with wait := none, atStop := false, partWay := false }
  if lineOf t = lineOf q.pc then { q with pc := t } else { q with pc := t, line := none, cameFrom := none }

/-- Control falls through, and the next head is fetched anew (R108). -/
def Seq.advanceAnew (q : Seq) : Seq := { q.advance with line := none, cameFrom := none }

/-- Control is transferred: the target's line is entered afresh (R15 to R17). -/
def Seq.transfer (q : Seq) (t : Pc) : Seq :=
  { q with pc := t, wait := none, atStop := false, partWay := false, line := none, cameFrom := some q.pc }

/-! Taking a trap. -/

/-- Causes that always go to the supervisor (R404). -/
def supervisorCause (c : Nat) : Bool := c ∈ [0x04, 0x08, 0x09, 0x0A, 0x0E, 0x10, 0x12, 0x13, 0x28, 0x29]

/-- Where a trap is delivered (R405). -/
inductive Delivery where
  /-- No entry: the sequencer ends with code 2. `outcome`: its launch reports outcome 2 (R365). -/
  | ends (outcome : Bool)
  | supervisor (hold dbl : Bool)
  | handler
deriving DecidableEq, Repr

/-- R405, the first row that matches. -/
def delivery (cause : Nat) (q : Seq) (sventry : Pc) : Delivery :=
  let sup (hold dbl : Bool) : Delivery := if sventry = 0 then .ends true else .supervisor hold dbl
  if q.inh && q.priv then .ends true
  else if q.inh then sup false true
  else if supervisorCause cause then sup false false
  else match q.pol with
    | 0 => if q.tvec = 0 then .ends false else .handler
    | 1 => sup true false
    | _ => .ends false

/-- The wait-table entries of a sequencer are freed (R218, R397). -/
def Core.dropWaits (c : Core) (n : Nat) : Core :=
  { c with waits := c.waits.filter (fun w => w.2.seq != n), cells := c.cells.filter (fun w => w.seq != n) }

/-- The links of a sequencer are broken (R212) and its wait-table entries freed (R218). -/
def Core.dropSeq (c : Core) (n : Nat) : Core := { c.dropWaits n with links := c.links.filter (fun l => l.seq != n) }

/-- An accumulator that an `mstep` of a sequencer was writing is full again: the step stops (R303, R315). -/
def Accum.stop (a : Accum) (uid : Nat) : Accum := if a.writer = some uid then { a with full := true } else a

def Core.stopAccs (c : Core) (uid : Nat) : Core := { c with acc0 := c.acc0.stop uid, acc1 := c.acc1.stop uid }

/-- The trap registers at entry (R406 steps 3 and 4). -/
def Seq.enterTrap (q : Seq) (t : Trap) (priv hold dbl : Bool) (entry : Pc) : Seq :=
  let tpc := t.tpc.getD q.pc
  { q with
    tpc := tpc
    tcause := BitVec.ofNat 64 (t.code.toNat * 256 + t.cause)
    tval := t.tval
    estart := match t.estart with
      | some e => BitVec.ofNat 40 e
      | none => q.estart
    tstat := mkTstat (q.tstat.extractLsb' 10 2) (dbl || q.tstat.getLsbD 9) (hold || q.tstat.getLsbD 8) q.inh true q.priv priv
    pc := entry
    line := none
    cameFrom := some q.pc
    wait := none
    atStop := false
    partWay := false
    hostAns := none }

/-- Taking a trap (R406), the one operation that every exception of a sequencer goes through. -/
def takeTrap (n : Nat) (t : Trap) (s : State) : State :=
  let s := s.modSeq n Seq.completeAll
  let q := s.seq n
  let s := s.modCore (coreOf n) fun c => (c.dropSeq n).stopAccs q.uid
  let sv := (s.die (dieOf n)).sventry
  match delivery t.cause q sv with
  | .ends outcome => s.setSeq n { q with phase := .ending 2, wait := none, dead := q.dead || outcome }
  | .supervisor hold dbl => s.setSeq n (q.enterTrap t true hold dbl sv)
  | .handler => s.setSeq n (q.enterTrap t q.priv false false q.tvec)

/-- Whether an arrival sent to another device is unanswered (R396). -/
def State.arrivesRemote (s : State) (uid : Nat) : Bool :=
  s.relov.cmds.any (fun x => match x.2.kind with
    | .arrive u _ => u == uid
    | _ => false)

/-- A trap of an instruction: it is taken once every older instruction has completed, an arrival at another device included (R44, R406;
for engine commands see log 66). -/
def raiseTrap (n : Nat) (t : Trap) (s : State) : State :=
  if s.arrivesRemote (s.seq n).uid then s.modSeq n fun q => { q with wait := some (.trapping t) } else takeTrap n t s

/-- Returning from a handler (R411). -/
def Seq.sret (q : Seq) : Seq :=
  let t := q.tstat
  ({ q with tstat := mkTstat (t.extractLsb' 10 2) false false (t.getLsbD 3) (t.getLsbD 3) (t.getLsbD 1) (t.getLsbD 1) }).transfer
    q.tpc

/-- The trap of an illegal instruction at a head (R44). -/
def illegalHead (head : BitVec 16) : Trap := { cause := 0x01, tval := head.setWidth 64, estart := some 0 }

/-- The head a sequencer executes. -/
def Seq.head (q : Seq) : BitVec 16 :=
  match q.line with
  | some l => l.code.head (indexOf q.pc)
  | none => 0

/-- The privilege trap of an instruction other than `crd`, `cwr` and QUEUE: TVAL is the head (R404). -/
def privilegeTrap (q : Seq) : Trap := { cause := 0x04, tval := q.head.setWidth 64, estart := some 0 }

/-- An instruction for the supervisor only. -/
def needSupervisor : M Unit := do
  let q ← mySeq
  if !q.priv then stopTrap (privilegeTrap q)

/-- TVAL of a translation fault (R103). Access kinds: 0 read, 1 write, 2 fetch, 3 read-modify-write. -/
def tvalOf (level kind va : Nat) : DWord := BitVec.ofNat 64 (level * 2 ^ 59 + kind % 4 * 2 ^ 56 + va % 2 ^ 56)

/-! Running a meaning. -/

/-- A sequencer waits: the PC stays, and nothing it has not done is done. -/
def State.setWait (s : State) (n : Nat) (w : Wait) : State := s.modSeq n fun q => { q with wait := some w }

/-- What a meaning's end leaves (R14): the PC advanced or transferred, one cycle later. -/
def finishStep (r : Except Stop Cont) (s : State) : Result :=
  match r with
  | .ok .next => .next (s.modSeq s.cur Seq.advance).tick
  | .ok (.goto t) => .next (s.modSeq s.cur (·.transfer t)).tick
  | .ok (.loopTo t) => .next (s.modSeq s.cur fun q => { q.transfer t with atStop := true }).tick
  | .ok .again => .next (s.modSeq s.cur fun q => { q with wait := none, atStop := true }).tick
  | .ok .stopped => .next s.tick
  | .error (.trap t) => .next (raiseTrap s.cur t s).tick
  | .error (.wait w) => .next (s.setWait s.cur w).tick
  | .error (.ends c) => .next (s.modSeq s.cur fun q => { q with phase := .ending c, wait := none }).tick

/-- One instruction of the sequencer whose turn it is. -/
def execSeq (m : M Cont) (s : State) : Result :=
  let (r, s') := m.run.run s
  finishStep r s'

/-- A stop at a wait leaves nothing done, so that the instruction executes again from its start: no register, no element and no
word has changed (R36, R191, R213). Lines asked of a lender stay asked for; an AtomicOp sent to the host is under way. -/
def allOrWait {α : Type} (m : M α) : M α := do
  let s0 ← get
  tryCatch m fun st => do
    match st with
    | .wait (.host op) => throw (.wait (.host op))
    | .wait w =>
      modify fun s => { s0 with leaseReads := s.leaseReads, relov := s.relov }
      throw (.wait w)
    | st => throw st

/-- An instruction that falls through. -/
def execNext (m : M Unit) (s : State) : Result := execSeq (do m; return .next) s

/-- An instruction that falls through and, where it must wait, has done nothing. -/
def execWhole (m : M Unit) (s : State) : Result := execNext (allOrWait m) s

/-- One step of another agent: it never traps a sequencer by itself, and what it cannot do it leaves undone. -/
def execAgent (m : M Unit) (s : State) : Result :=
  .next (m.run.run s).2.tick

end Sys2Proof.Machine
end

