-- ==== Sys2Proof/Machine/Flags.lean ====
section
/-! DEFINITION. Flag computations: the FSR's fields, rounding modes and floating traps (R82 to R84), the stochastic
generators (R81), the comparisons, and the result of an atomic (R200). -/

namespace Sys2Proof.Machine

/-- FSR.RM as a rounding mode (R82). -/
def Seq.rm (q : Seq) : Rnd :=
  match (q.fsr.extractLsb' 10 3).toNat with
  | 0 => .rne | 1 => .rna | 2 => .rtz | 3 => .rdn | 4 => .rup | 5 => .rsr | _ => .rne

/-- The mode of an instruction (R28): .dyn is FSR.RM, and a stochastic RM counts as ties-to-even where stochastic rounding is
not accepted. -/
def Seq.mode (q : Seq) (r : Rnd) (stochastic : Bool) : Rnd :=
  match r with
  | .dyn => if q.rm == .rsr && !stochastic then .rne else q.rm
  | r => r

/-- FSR[9:5], the enables in the order of the flags. -/
def Seq.enables (q : Seq) : Flags := q.fsr.extractLsb' 5 5

/-- Flags merged into FSR[4:0] (R83). -/
def Seq.mergeFlags (q : Seq) (f : Flags) : Seq := { q with fsr := q.fsr ||| f.setWidth 64 }

/-- The floating-point trap (R84): TVAL holds all the flags the element raised. -/
def floatTrap (f : Flags) (e : Nat) : Trap := { cause := 0x18, tval := f.setWidth 64, estart := some e }

/-- Flags of an element or of a scalar instruction: trap when one is enabled, else merge. -/
def raiseFlags (f : Flags) (e : Nat) : M Unit := do
  let q ← mySeq
  if f &&& q.enables != 0 then stopTrap (floatTrap f e)
  if f != 0 then modMe (·.mergeFlags f)

/-- The 64 generators seeded from FSR.SEED (R81). -/
def Seq.reseed (q : Seq) : Seq :=
  { q with gens := seedGens (q.fsr.extractLsb' 32 32) }

/-- Generator e mod 64 steps once and gives its new value (R80, R81). -/
def Seq.stepGen (q : Seq) (e : Nat) : Seq × Nat :=
  let g := lfsrStep (NMap.getD q.gens (e % 64) 0)
  ({ q with gens := NMap.set q.gens (e % 64) g }, g.toNat)

/-- What a write to FSR leaves (R82): reserved bits ignored, RM of 6 or 7 stored as 0. -/
def fsrValue (v : DWord) : DWord :=
  let rm := (v.extractLsb' 10 3).toNat
  let v := v &&& 0xFFFFFFFF00001FFF
  if 6 ≤ rm then v &&& ~~~(0x1C00 : BitVec 64) else v

/-- A comparison of two integers by its code in R281. -/
def intCond (cond : Nat) (a b : Int) : Bool :=
  match cond with
  | 0 => decide (a = b) | 1 => decide (a ≠ b) | 2 => decide (a < b) | 3 => decide (a ≤ b) | 4 => decide (b < a)
  | _ => decide (b ≤ a)

/-- `atomic_op` (R200) by operation code of R41, on fields of w bits. -/
def atomicOp (op w old v : Nat) : Nat :=
  let m := 2 ^ w
  match op with
  | 0x00 => (old + v) % m
  | 0x01 => old &&& v
  | 0x02 => old ||| v
  | 0x03 => old ^^^ v
  | 0x04 => if sext w old ≤ sext w v then old else v
  | 0x05 => if sext w old ≤ sext w v then v else old
  | 0x06 => if old ≤ v then old else v
  | 0x07 => if old ≤ v then v else old
  | 0x08 => v
  | 0x09 => (fpAdd .fp32 old v .rne).1
  | _ => (fpAdd .bf16 old v .rne).1

end Sys2Proof.Machine
end

