-- ==== Sys2Proof/Machine/Home.lean ====
section
/-! DEFINITION. Homes and L1s (06): where a location lies, the registry, recalls, reads and writes at the home, the L1 and its
three policies, acquire and release, and the keys of HBM lines (R113). Nothing here translates an address. -/

namespace Sys2Proof.Machine

/-! Locations. Every byte the machine stores has one number: physical addresses below 2^52, unbacked pages from 2^56, leased
lines from 2^58, scratchpads from 2^60. -/

def unbackedBase : Nat := 2 ^ 56
def leasedBase : Nat := 2 ^ 58
def scratchBase : Nat := 2 ^ 60

def unbackedLoc (resv page off : Nat) : Nat := unbackedBase + (resv * 2 ^ 26 + page) * 2 ^ 16 + off
def leasedLoc (slot page off : Nat) : Nat := leasedBase + slot * 2 ^ 47 + page * 2 ^ 16 + off
def scratchLoc (core off : Nat) : Nat := scratchBase + core * 2 ^ 20 + off

/-- The ranges of R111. -/
def isHbm (loc : Nat) : Bool := decide (loc < 0x8000000000)
def isHostCoherent (loc : Nat) : Bool := decide (0x8000000000000 ≤ loc) && decide (loc < 0xC000000000000)
def isHostPlain (loc : Nat) : Bool := decide (0xC000000000000 ≤ loc) && decide (loc < 0x10000000000000)
def isHost (loc : Nat) : Bool := isHostCoherent loc || isHostPlain loc
/-- Where a physical address is stored: both host windows name host memory by PA[49:0] (R111), so they share their bytes. -/
def storeLoc (pa : Nat) : Nat := if isHostPlain pa then pa - 0x4000000000000 else pa
def isPhysical (loc : Nat) : Bool := isHbm loc || isHost loc
def isScratch (loc : Nat) : Bool := decide (scratchBase ≤ loc)
def isLeased (loc : Nat) : Bool := decide (leasedBase ≤ loc) && decide (loc < scratchBase)
def isUnbacked (loc : Nat) : Bool := decide (unbackedBase ≤ loc) && decide (loc < leasedBase)

/-- `slice_hash` (R146). -/
def sliceHash (pa : Nat) : Nat :=
  let l := pa / 128
  ((l % 2 ^ 22) ^^^ (l / 2 ^ 22 % 2 ^ 22)) % 40

/-- The home slice of a location (R145). `slotOf` gives the page slot of an unbacked page (R147). -/
def homeSlice (slotOf : Nat → Nat) (loc : Nat) : Nat :=
  if isHbm loc then 40 * (loc / 2 ^ 37 % 4) + sliceHash loc
  else if isHost loc then 40 * (loc / 2 ^ 7 % 4) + sliceHash loc
  else if isLeased loc then
    let r := loc - leasedBase
    40 * ((r / 2 ^ 47 + r / 2 ^ 16 % 2 ^ 31) % 4) + sliceHash (0x4000000000000 + r)
  else
    let r := loc - unbackedBase
    40 * (r / 2 ^ 52 % 4) + (slotOf (r / 2 ^ 16) + r / 128 % 512) % 40

/-! Bytes of memory. -/

def Memory.read (m : Memory) (loc : Nat) : Byte := NMap.getD m loc Memory.unlisted

def Memory.write (m : Memory) (loc : Nat) (b : Byte) : Memory :=
  if b = Memory.unlisted then NMap.erase m loc else NMap.set m loc b

/-- n bytes as a little-endian number (R3). -/
def Memory.readLe (m : Memory) : Nat → Nat → Nat
  | _, 0 => 0
  | loc, n + 1 => (m.read loc).toNat + 256 * m.readLe (loc + 1) n

def Memory.writeLe (m : Memory) : Nat → Nat → Nat → Memory
  | _, 0, _ => m
  | loc, n + 1, v => (m.write loc (BitVec.ofNat 8 v)).writeLe (loc + 1) n (v / 256)

def Memory.readBytes (m : Memory) (loc n : Nat) : List Byte := (List.range n).map (fun i => m.read (loc + i))

def Memory.writeBytes (m : Memory) : Nat → List Byte → Memory
  | _, [] => m
  | loc, b :: bs => (m.write loc b).writeBytes (loc + 1) bs

/-! The registry (R149). Words are numbered by location div 4, lines by location div 128. -/

def State.lineRec (s : State) (line : Nat) : LineRec := NMap.getD s.lines line {}

def State.setLine (s : State) (line : Nat) (r : LineRec) : State :=
  { s with lines := if r = {} then NMap.erase s.lines line else NMap.set s.lines line r }

def wordBit (w : Nat) : BitVec 32 := (1 : BitVec 32) <<< (w % 32)

def LineRec.ownerOf (r : LineRec) (w : Nat) : Option Owner :=
  (r.owners.find? (fun o => o.mask.getLsbD (w % 32))).map (·.owner)

def State.ownerOf (s : State) (w : Nat) : Option Owner := (s.lineRec (w / 32)).ownerOf w

/-- The core whose L1 holds a line for core c: c itself, or the holder of a fused L1 (R164). -/
def State.holder (s : State) (c line : Nat) : Nat :=
  if (s.cluster (c / 8)).fused.isSome then 8 * (c / 8) + ((line % 8) ^^^ (line / 8 % 8)) else c

def Core.l1Word (c : Core) (w : Nat) : Option L1Word := NMap.get? (NMap.getD c.l1 (w / 32) {}).words (w % 32)

def Core.setL1Line (c : Core) (line : Nat) (l : L1Line) : Core :=
  { c with l1 := if l.words = [] then NMap.erase c.l1 line else NMap.set c.l1 line l }

def Core.dropL1Word (c : Core) (w : Nat) : Core :=
  let l := NMap.getD c.l1 (w / 32) {}
  c.setL1Line (w / 32) { l with words := NMap.erase l.words (w % 32) }

/-- A word filled unregistered: the line keeps the stamp of its oldest such word (R153, R161). -/
def Core.fillWord (c : Core) (w : Nat) (v : Word) (key : Nat) : Core :=
  let l := NMap.getD c.l1 (w / 32) {}
  let fresh := l.words.all (fun x => x.2.st != .unreg)
  c.setL1Line (w / 32) { l with stamp := if fresh then c.epoch else l.stamp, key := key, whole := 0,
                                words := NMap.set l.words (w % 32) ⟨.unreg, v⟩ }

/-- The registry loses an owner's claim to a word, and U with it (R152, R169). -/
def LineRec.clearWord (r : LineRec) (w : Nat) : LineRec :=
  { r with owners := (r.owners.map (fun o => { o with mask := o.mask &&& ~~~(wordBit w) })).filter (fun o => o.mask != 0),
           u := r.u &&& ~~~(wordBit w) }

/-- A recall of one word (R152): its value comes home, and the owner keeps an unregistered copy. Words held by an engine are
not recalled: accesses to them are held (R166). -/
def recallWord (w : Nat) (s : State) : State :=
  match s.ownerOf w with
  | some (.core c) =>
    let k := s.core c
    match k.l1Word w with
    | some x =>
      let l := NMap.getD k.l1 (w / 32) {}
      let s := { s with mem := s.mem.writeLe (4 * w) 4 x.val.toNat }
      let s := s.setCore c (k.fillWord w x.val l.key)
      s.setLine (w / 32) ((s.lineRec (w / 32)).clearWord w)
    | none => s.setLine (w / 32) ((s.lineRec (w / 32)).clearWord w)
  | _ => s

def recallWords (ws : List Nat) (s : State) : State := ws.foldl (fun s w => recallWord w s) s

/-- Every registered word of a line comes home. -/
def recallLine (line : Nat) (s : State) : State := recallWords (upFrom (32 * line) 32) s

/-- Page slots of unbacked pages, for the homes of their lines. -/
def State.slotOf (s : State) (rp : Nat) : Nat := NMap.getD s.pageSlots rp 0

/-- The home of a location in this state. -/
def State.home (s : State) (loc : Nat) : Nat := homeSlice s.slotOf loc

/-! Keys (R113, R448). -/

def State.keyMat (s : State) (id : Nat) : KeyMat := (NMap.getD s.keys id {}).mat

/-- A number that tells key materials apart, for the free value of a foreign read. -/
def KeyMat.code : KeyMat → Nat
  | .none => 0
  | .generated n => 1 + 2 * n
  | .loaded k => 2 + 2 * k.toNat

def State.lineMat (s : State) (loc : Nat) : KeyMat := NMap.getD s.lineMats (loc / 128) (.generated 0)

/-- The 128 bytes of a line as they read under a key. Each line carries the key that it was written under (R113). -/
def lineUnder (m : KeyMat) (loc : Nat) (s : State) : List Byte :=
  let base := loc / 128 * 128
  let plain := s.mem.readBytes base 128
  if s.lineMat loc = m then plain
  else (List.range 128).map (fun i => Config.foreignByte (s.lineMat loc).code m.code (loc / 128) plain i)

/-- A write under a key: a line last written under another is first read under this one (R113). -/
def rekey (m : KeyMat) (loc : Nat) (s : State) : State :=
  if !isHbm loc || s.lineMat loc = m then s
  else
    let s := recallLine (loc / 128) s
    { s with mem := s.mem.writeBytes (loc / 128 * 128) (lineUnder m loc s), lineMats := NMap.set s.lineMats (loc / 128) m }

/-- A read under a key other than the one of the last write finds the line's registered words home first. -/
def readyUnder (m : KeyMat) (loc : Nat) (s : State) : State :=
  if !isHbm loc || s.lineMat loc = m then s else recallLine (loc / 128) s

/-- One word at its home as it reads under a key. -/
def homeWordUnder (m : KeyMat) (w : Nat) (s : State) : Word :=
  if !isHbm (4 * w) || s.lineMat (4 * w) = m then BitVec.ofNat 32 (s.mem.readLe (4 * w) 4)
  else
    let l := lineUnder m (4 * w) s
    let i := 4 * w % 128
    BitVec.ofNat 32 ((l.getD i 0).toNat + 256 * ((l.getD (i + 1) 0).toNat + 256 * ((l.getD (i + 2) 0).toNat +
      256 * (l.getD (i + 3) 0).toNat)))

/-! Accesses at the home. -/

/-- The current value of a word at its home (R157): from its owner, or from the home's line. -/
def homeValue (m : KeyMat) (w : Nat) (s : State) : Word :=
  match s.ownerOf w with
  | some (.core o) =>
    match (s.core o).l1Word w with
    | some x => x.val
    | none => homeWordUnder m w s
  | _ => homeWordUnder m w s

/-- Elements of a list in the order that a number selects. -/
def permute {α : Type} : Nat → Nat → List α → List α
  | 0, _, l => l
  | n + 1, k, l =>
    match l[k % l.length]? with
    | some x => x :: permute n (k / l.length) (l.eraseIdx (k % l.length))
    | none => l

/-! Links (R211, R212) and words watched (R216, R217). -/

def Core.dropLinks (c : Core) (line : Nat) : Core := { c with links := c.links.filter (fun l => l.line != line) }

/-- Every link on a line is broken. -/
def breakLinks (line : Nat) (s : State) : State :=
  if s.cores.any (fun x => x.2.links.any (fun l => l.line == line)) then
    { s with cores := NMap.mapVals s.cores (fun _ c => c.dropLinks line) }
  else s

/-- Whether a word watched satisfies its condition with a value (R217). -/
def WaitEntry.holds (e : WaitEntry) (v : Nat) : Bool :=
  match e.cond with
  | 0 => v == e.operand
  | 1 => v != e.operand
  | _ => if e.signed then decide (sext e.width e.operand ≤ sext e.width v) else decide (e.operand ≤ v)

def WaitEntry.covers (e : WaitEntry) (loc n : Nat) : Bool := decide (e.loc < loc + n) && decide (loc < e.loc + e.width / 8)

def Core.fireWhere (c : Core) (test : WaitEntry → Bool) : Core :=
  { c with waits := NMap.mapVals c.waits (fun _ e => { e with fired := e.fired || test e }) }

/-- Whether an armed entry watches any of n bytes. -/
def State.watched (s : State) (loc n : Nat) : Bool :=
  s.cores.any (fun x => x.2.waits.any (fun w => w.2.covers loc n && !w.2.fired))

/-- The value of n bytes at their home under a key. -/
def State.valueUnder (s : State) (m : KeyMat) (loc n : Nat) : Nat :=
  let vs := (upFrom (loc / 4) ((loc + n - 1) / 4 - loc / 4 + 1)).map (fun w => (homeValue m w s).toNat)
  vs.foldr (fun v acc => acc * 2 ^ 32 + v) 0 / 2 ^ (8 * (loc % 4)) % 2 ^ (8 * n)

/-- Every armed entry on the bytes is evaluated (R217). -/
def fireWaits (loc n : Nat) (s : State) : State :=
  if s.watched loc n then
    { s with cores := NMap.mapVals s.cores (fun _ c =>
        c.fireWhere (fun e => e.covers loc n && e.holds (s.valueUnder e.mat e.loc (e.width / 8)))) }
  else s

/-! Cells waited for (R389, R392, R397, R400). -/

/-- The PHASE of a barrier cell; the VALUE and FULL of a future cell (R392, R399). -/
def cellPhase (v : Nat) : Nat := bits v 64 64
def futureValue (v : Nat) : Nat := bits v 0 64
def futureFull (v : Nat) : Bool := bit v 64

/-- The condition of `bwait` (R397). -/
def phasePassed (v : Nat) (p : DWord) : Bool :=
  let d := (BitVec.ofNat 64 (cellPhase v) - p).toNat
  decide (1 ≤ d) && decide (d < 2 ^ 63)

/-- Whether a wait at a cell ends with the cell as given. -/
def CellWait.ends (w : CellWait) (v : Nat) : Bool :=
  match w.want with
  | .phase p => phasePassed v p
  | .full _ => futureFull v

/-- Whether a write of n bytes may end a wait: it writes PHASE, or the byte of FULL. -/
def CellWait.touched (w : CellWait) (loc n : Nat) : Bool :=
  w.got.isNone && decide (loc < w.loc + (match w.want with
    | .phase _ => 16
    | .full _ => 9)) && decide (w.loc + 8 < loc + n)

/-- The waits at cells that a write of n bytes may end, by core and place in its table. -/
def State.cellsTouched (s : State) (loc n : Nat) : List (Nat × Nat) :=
  (s.cores.map (fun x => (x.2.cells.zipIdx.filter (fun y => y.1.touched loc n)).map (fun y => (x.1, y.2)))).flatten

/-- FULL of a future cell cleared at its home (R400). -/
def emptyFuture (loc : Nat) (s : State) : State :=
  let s := recallWord ((loc + 8) / 4) s
  { s with mem := s.mem.write (loc + 8) (s.mem.read (loc + 8) &&& 0xFE) }

/-- A wait at a cell evaluated at its home. One `fget.take` takes the value (R400). -/
def feedCell (x : Nat × Nat) (s : State) : State :=
  match (s.core x.1).cells[x.2]? with
  | some w =>
    let v := s.valueUnder w.mat w.loc 16
    if (isHbm w.loc && s.lineMat w.loc != w.mat) || !w.ends v then s
    else
      let s := if w.want = .full true then emptyFuture w.loc s else s
      s.modCore x.1 fun c => { c with cells := c.cells.set x.2 { w with got := some v } }
  | none => s

/-- Every wait at a cell that the bytes may end is evaluated (R389). The order among several is a free value (log 60). -/
def feedCells (loc n : Nat) (s : State) : State :=
  let l := s.cellsTouched loc n
  if l = [] then s
  else
    fireWaits loc n ((permute l.length (Config.collisionOrder s.freeCtr l.length) l).foldl (fun s x => feedCell x s)
      { s with freeCtr := s.freeCtr + 1 })

/-- What a write of n bytes at a home wakes: every wait on them is evaluated (R217, R389). -/
def evalWaits (loc n : Nat) (s : State) : State := feedCells loc n (fireWaits loc n s)

/-! Owner records made (R149, R150). -/

/-- An engine's record: its words are not recalled, accesses to them are held (R166). -/
def OwnerRec.isEngine (o : OwnerRec) : Bool :=
  match o.owner with
  | .core _ => false
  | .engine _ => true

/-- Whether an owner's claim to a word of a line needs a further record and four stand, the oldest an engine's: its words cannot
be recalled, so the claim is held until the engine has written them (R150, R166; log 68). -/
def LineRec.roomHeld (r : LineRec) (o : Owner) : Bool :=
  !r.owners.any (fun x => x.owner == o) && decide (4 ≤ r.owners.length) && r.owners.head?.any OwnerRec.isEngine

/-- Room for one more owner record: the oldest of four is recalled whole, and the links on the line are broken (R150,
R212). -/
def makeRoom (line : Nat) (s : State) : State :=
  let r := s.lineRec line
  match r.owners.head? with
  | some o => if r.owners.length < 4 || o.isEngine then s
    else breakLinks line (recallWords ((upFrom (32 * line) 32).filter (fun w => o.mask.getLsbD (w % 32))) s)
  | none => s

/-- The line records of a slice that can be reclaimed: those that cores alone own (R150, R166). -/
def State.reclaimable (s : State) (h : Nat) : List Nat :=
  (s.lines.filter (fun x => s.home (128 * x.1) == h && x.2.owners != [] && !x.2.owners.any OwnerRec.isEngine)).map (·.1)

/-- Whether a slice has a line record for a line, or one to give. -/
def State.lineRoom (s : State) (line : Nat) : Bool :=
  decide (s.lines.length < Config.sliceLineRecords) || (NMap.get? s.lines line).isSome ||
  let h := s.home (128 * line)
  decide ((s.lines.filter (fun x => s.home (128 * x.1) == h)).length < Config.sliceLineRecords)

/-- Room for one more line record of a slice: with all 32,768 taken, every owner of one of its lines is recalled (R150). Which
line is a free value (log 32). -/
def makeLineRoom (line : Nat) (s : State) : State :=
  if s.lineRoom line then s
  else
    let ls := s.reclaimable (s.home (128 * line))
    if ls = [] then s
    else
      let l := ls.getD (Config.reclaimedLine s.freeCtr % ls.length) 0
      breakLinks l (recallLine l { s with freeCtr := s.freeCtr + 1 })

/-- Whether a claim to a word must wait at its home: the word is an engine's to write (R166), or no record can be had (R150). -/
def State.claimHeld (s : State) (o : Owner) (w : Nat) : Bool :=
  let r := s.lineRec (w / 32)
  r.e.getLsbD (w % 32) || r.roomHeld o || (!s.lineRoom (w / 32) && s.reclaimable (s.home (4 * w)) == [])

def OwnerRec.addWord (o : Owner) (w : Nat) (x : OwnerRec) : OwnerRec :=
  if x.owner = o then { x with mask := x.mask ||| wordBit w } else x

/-- The owner's record takes a word (R149). -/
def LineRec.claim (r : LineRec) (o : Owner) (w : Nat) : LineRec :=
  if r.owners.any (fun x => x.owner == o) then { r with owners := r.owners.map (OwnerRec.addWord o w) }
  else { r with owners := r.owners ++ [{ owner := o, mask := wordBit w }] }

/-! Combining windows (R215). -/

/-- Bytes that an entry's value covers. -/
def CombEntry.bytes (e : CombEntry) : Nat := e.width / 8

def CombEntry.covers (e : CombEntry) (loc n : Nat) : Bool :=
  decide (e.loc < loc + n) && decide (loc < e.loc + e.bytes)

/-- An entry's values combined, floating values in an order that the device chooses (R215, log 60): for the integer operations every
order gives the same. -/
def CombEntry.value (e : CombEntry) (k : Nat) : Nat :=
  match if e.op < 9 || decide (e.values.length < 2) then e.values else permute e.values.length (Config.collisionOrder k e.values.length) e.values with
  | v :: vs => vs.foldl (atomicOp e.op e.width) v
  | [] => 0

/-- The back-invalidate snoop of a line that the host holds under CXL.mem: what the host wrote there is written at the home, as any
write is (R212, R217, R445). -/
def snoopHost (line : Nat) (s : State) : State :=
  match NMap.get? s.hostLines line with
  | some bs =>
    let s := { s with hostLines := NMap.erase s.hostLines line }
    if bs = [] then s
    else evalWaits (128 * line) bs.length (breakLinks line { s with mem := s.mem.writeBytes (128 * line) bs })
  | none => s

/-- An entry is applied to its word as one atomic at the receiver (R212, R215). No core holds the word registered: the entry came
first. -/
def applyComb (e : CombEntry) (s : State) : State :=
  let s := snoopHost (e.loc / 128) s
  let s := rekey e.mat e.loc { s with freeCtr := s.freeCtr + 1 }
  let old := s.mem.readLe e.loc e.bytes
  evalWaits e.loc e.bytes (breakLinks (e.loc / 128)
    { s with mem := s.mem.writeLe e.loc e.bytes (atomicOp e.op e.width old (e.value s.freeCtr)) })

/-- Any access that reaches the home finds the host's copy of its line called in and earlier entries of its bytes applied. -/
def settle (loc n : Nat) (s : State) : State :=
  let s := snoopHost (loc / 128) s
  let h := s.home loc
  let l := NMap.getD s.homeComb h []
  if l.any (fun e => e.covers loc n) then
    let s := (l.filter (fun e => e.covers loc n)).foldl (fun s e => applyComb e s) s
    { s with homeComb := NMap.set s.homeComb h (l.filter (fun e => !e.covers loc n)) }
  else s

/-- As `settle`, at a core's scratchpad. -/
def settleScratch (c loc n : Nat) (s : State) : State :=
  let l := (s.core c).comb
  if l.any (fun e => e.covers loc n) then
    let s := (l.filter (fun e => e.covers loc n)).foldl (fun s e => applyComb e s) s
    s.modCore c fun k => { k with comb := l.filter (fun e => !e.covers loc n) }
  else s

/-- A word held turns registered. -/
def Core.markReg (k : Core) (w : Nat) : Core :=
  match k.l1Word w with
  | some x =>
    let l := NMap.getD k.l1 (w / 32) {}
    k.setL1Line (w / 32) { l with words := NMap.set l.words (w % 32) { x with st := .reg } }
  | none => k

/-- The key material that an L1's copy of a line stands under (R113). -/
def State.copyMat (s : State) (c line : Nat) : KeyMat :=
  if isHbm (128 * line) then s.keyMat (NMap.getD (s.core c).l1 line {}).key else .none

/-- A word is claimed for an owner: the mark U of an earlier owner is none of the new one's (R169). -/
def LineRec.takeWord (r : LineRec) (o : Owner) (w : Nat) : LineRec :=
  if r.ownerOf w == some o then r else LineRec.claim { r with u := r.u &&& ~~~(wordBit w) } o w

/-- The home records a core's registration of a word it holds (R155): the word is recalled from any other owner first, and a line
written meanwhile under another key is first read under this one (R113). A watched word is recalled at once (R217). -/
def registerWord (c w : Nat) (relaxed : Bool) (s : State) : State :=
  let s := breakLinks (w / 32) (makeLineRoom (w / 32) (settle (4 * w) 4 s))
  let s := if s.ownerOf w == some (.core c) then s else rekey (s.copyMat c (w / 32)) (4 * w) (recallWord w s)
  let s := if (s.lineRec (w / 32)).owners.any (fun x => x.owner == .core c) then s else makeRoom (w / 32) s
  let r := (s.lineRec (w / 32)).takeWord (.core c) w
  let r := if relaxed then { r with u := r.u ||| wordBit w } else r
  let s := (s.setLine (w / 32) r).modCore c (·.markReg w)
  if s.watched (4 * w) 4 || s.cellsTouched (4 * w) 4 != [] then evalWaits (4 * w) 4 (recallWord w s) else s

/-- A registration on its way is recorded (R155). One whose word the L1 no longer holds pending is void, and so is one that finds its word
lost by an earlier owner: the word leaves the L1, so that every later access meets P at the home (R171; log 134). -/
def recordEntry (c : Nat) (p : PendReg) (s : State) : State :=
  let s := s.modCore c fun k => { k with regq := k.regq.erase p }
  match (s.core c).l1Word p.word with
  | some x =>
    if x.st != .pending then s
    else if (s.lineRec (p.word / 32)).p.getLsbD (p.word % 32) then s.modCore c (·.dropL1Word p.word)
    else registerWord c p.word p.relaxed s
  | none => s

/-- The oldest registration on its way that its home does not hold (R166) is recorded. -/
def recordNext (c : Nat) (s : State) : State :=
  match (s.core c).regq.find? (fun p => !s.claimHeld (.core c) p.word) with
  | some p => recordEntry c p s
  | none => s

/-- Every registration of a core is acknowledged (R160), but for those that their homes hold. -/
def drainReg (c : Nat) (s : State) : State := (s.core c).regq.foldl (fun s _ => recordNext c s) s

/-- Registrations on their way to words of a range arrive, from whichever cores: the order of arrival at a home is free (R148). -/
def recordRange (loc n : Nat) (s : State) : State :=
  (s.cores.filter (fun x => x.2.regq != [])).foldl (fun s x =>
    (x.2.regq.filter (fun p => decide (loc < 4 * p.word + 4) && decide (4 * p.word < loc + n))).foldl (fun s p =>
      if s.claimHeld (.core x.1) p.word then s else recordEntry x.1 p s) s) s

/-- The cores whose L1s act as one with core c (R164). -/
def State.l1Cores (s : State) (c : Nat) : List Nat :=
  if (s.cluster (c / 8)).fused.isSome then upFrom (8 * (c / 8)) 8 else [c]

def drainCore (c : Nat) (s : State) : State := (s.l1Cores c).foldl (fun s k => drainReg k s) s

/-- What a home answers to a request for a word. -/
inductive HomeAns where
  | ok
  /-- E is set: the access is held (R166). -/
  | held
  /-- P is set (R171). -/
  | poisoned
  /-- A race is reported (R169). -/
  | race
deriving DecidableEq, Repr

/-- Whether the requests of two cores are one owner's (R164, R170). -/
def State.sameL1 (s : State) (a b : Nat) : Bool := a == b || (a / 8 == b / 8 && (s.cluster (a / 8)).fused.isSome)

/-- The core whose word a record holds: an engine's registration is its issuing core's (R166), a tile step's its submitter's. -/
def State.ownerCore (s : State) : Owner → Option Nat
  | .core o => some o
  | .engine n => ((NMap.get? s.engines n).map (·.ctx.core)).or
      ((s.tiles.find? (fun x => x.2.running.any (·.cmd == n))).map (·.2.ctx.core))

/-- The checks of a request for a word, in the order of R192: `c` the requesting core, `chk` a plain access through a page with
CHK = 1. -/
def homeCheck (c : Option Nat) (chk : Bool) (w : Nat) (s : State) : HomeAns :=
  let r := s.lineRec (w / 32)
  let race := chk && r.u.getLsbD (w % 32) &&
    ((r.ownerOf w).bind s.ownerCore).any (fun o => !c.any (fun c => s.sameL1 c o))
  if r.p.getLsbD (w % 32) then .poisoned
  else if race then .race
  else if r.e.getLsbD (w % 32) then .held
  else .ok

/-- A write performed at the home (R156): registered words come home first, then the bytes are written under the key. -/
def homeWrite (m : KeyMat) (loc n v : Nat) (s : State) : State :=
  let s := settle loc n s
  let s := recallWords (upFrom (loc / 4) ((loc + n - 1) / 4 - loc / 4 + 1)) s
  let s := rekey m loc s
  evalWaits loc n (breakLinks (loc / 128) { s with mem := s.mem.writeLe loc n v })

/-- The words that n bytes at a location touch. -/
def wordsOf (loc n : Nat) : List Nat := upFrom (loc / 4) ((loc + n - 1) / 4 - loc / 4 + 1)

/-! Acquire and release. -/

def L1Line.skim (l : L1Line) : L1Line := { l with words := l.words.filter (fun x => x.2.st != .unreg) }

/-- Every unregistered word of an L1 is invalidated (R158). -/
def Core.skimAll (c : Core) : Core :=
  { c with l1 := (NMap.mapVals c.l1 (fun _ l => l.skim)).filter (fun x => x.2.words != []) }

def scopeRank : Scope → Nat
  | .seq => 0 | .core => 1 | .clu => 2 | .die => 3 | .dev => 4 | .sys => 5

/-- The L1 effect of an acquire by a sequencer of core c (R158). -/
def acquireL1 (c : Nat) (sc : Scope) (s : State) : State :=
  if (s.cluster (c / 8)).fused.isSome then
    if scopeRank sc < 3 then s else (s.l1Cores c).foldl (fun s k => s.modCore k Core.skimAll) s
  else if scopeRank sc = 0 then s else s.modCore c Core.skimAll

def LineRec.clearUWhere (r : LineRec) (mine : Owner → Bool) : LineRec :=
  { r with u := r.owners.foldl (fun u o => if mine o.owner then u &&& ~~~o.mask else u) r.u }

/-- U of every word registered to a core, or by it for an engine, is cleared (R160, R166). -/
def clearU (c : Nat) (s : State) : State :=
  { s with lines := NMap.mapVals s.lines (fun _ r => r.clearUWhere (fun o => s.ownerCore o == some c)) }

/-- A release at a scope by a core (R160): its registrations are acknowledged, and at clu or wider its U marks cleared. -/
def releaseL1 (c : Nat) (sc : Scope) (s : State) : State :=
  if scopeRank sc = 0 then s
  else
    let s := drainCore c s
    if 2 ≤ scopeRank sc then (s.l1Cores c).foldl (fun s k => clearU k s) s else s

/-- A request of a core's port costs its tenant a token for each 64 bytes, and marks the tenant active there (R449, R450). Requests
are never held for want of tokens: shares affect speed only. -/
def Core.pay (k : Core) (t n : Nat) : Core := { k with tokens := NMap.modify k.tokens t 0 (fun x => x - n) }

/-- A request of a tenant's with n bytes of payload leaves a core's port for a home, the host or Relov. -/
def notePort (core tenant n : Nat) (s : State) : State :=
  let s := if 0 < NMap.getD (s.core core).tokens tenant 0 then s.modCore core (·.pay tenant (Max.max 1 ((n + 63) / 64))) else s
  if (tenant, core) ∈ s.active then s else { s with active := s.active ++ [(tenant, core)] }

/-- A context's own request. -/
def noteRequest (c : Ctx) (n : Nat) (s : State) : State := notePort c.core c.tenant n s

/-- Registered words of a line held by a core go home and are deregistered, as one request of its port (R449, for the tenant that
the core is given to); `keep`: an unregistered copy stays. -/
def writeHomeLine (c line : Nat) (keep : Bool) (s : State) : State :=
  let ws := (upFrom (32 * line) 32).filter (fun w => s.ownerOf w == some (.core c))
  let s := if ws = [] then s else notePort c (s.core c).spOwner (4 * ws.length) s
  let s := recallWords ws s
  if keep then s else ws.foldl (fun s w => s.modCore c (·.dropL1Word w)) s

/-- Every registered word of a core goes home (R165, R179 with .all). -/
def flushCore (c : Nat) (s : State) : State :=
  let s := drainReg c s
  ((s.core c).l1.map (·.1)).foldl (fun s l => writeHomeLine c l true s) s

/-- A line leaves an L1, but for words whose registration is on its way: those are the store still to come. -/
def Core.dropHeld (c : Core) (line : Nat) : Core :=
  let l := NMap.getD c.l1 line {}
  c.setL1Line line { l with words := l.words.filter (fun x => x.2.st == .pending) }

/-- Every copy of a line leaves every L1, registered words coming home first (R114). -/
def dropLineEverywhere (line : Nat) (s : State) : State :=
  let s := recallLine line s
  { s with cores := NMap.mapVals s.cores (fun _ c => c.dropHeld line) }

/-- What the host does to a line before a write of its own: every copy comes home and leaves the caches (R114, R115). -/
def hostTakesLine (line : Nat) (s : State) : State := dropLineEverywhere line (settle (128 * line) 128 s)

/-- Two sparse pieces of the state that a range lists: lines of an L1 that a range of locations overlaps. -/
def Core.linesIn (c : Core) (loc n : Nat) : List Nat :=
  (c.l1.map (·.1)).filter (fun l => decide (128 * l < loc + n) && decide (loc < 128 * l + 128))

end Sys2Proof.Machine
end

