-- ==== Sys2Proof/Machine/Xlate.lean ====
section
/-! DEFINITION. Translation (04): the walk, the page-table entry, the checks at the leaf, the buffers, A and D, and the
rewriting of entries by hardware. -/

namespace Sys2Proof.Machine

def State.ctx (s : State) (n : Nat) : Ctx :=
  let q := s.seq n
  ⟨n, coreOf n, q.priv, q.xlroot, q.asid, q.tenant, q.resvid⟩

def myCtx : M Ctx := do
  let s ← get
  return s.ctx s.cur

/-! The page-table entry (R93). -/

def Pte.v (p : Pte) : Bool := p.getLsbD 0
def Pte.kind (p : Pte) : Nat := (p.extractLsb' 1 3).toNat
def Pte.r (p : Pte) : Bool := p.getLsbD 4
def Pte.w (p : Pte) : Bool := p.getLsbD 5
def Pte.x (p : Pte) : Bool := p.getLsbD 6
def Pte.u (p : Pte) : Bool := p.getLsbD 7
def Pte.g (p : Pte) : Bool := p.getLsbD 8
def Pte.ic (p : Pte) : Bool := p.getLsbD 9
def Pte.cp (p : Pte) : Nat := (p.extractLsb' 10 2).toNat
def Pte.chk (p : Pte) : Bool := p.getLsbD 12
def Pte.lf (p : Pte) : Bool := p.getLsbD 13
def Pte.a (p : Pte) : Bool := p.getLsbD 14
def Pte.d (p : Pte) : Bool := p.getLsbD 15
def Pte.fmt (p : Pte) : Nat := (p.extractLsb' 16 5).toNat
def Pte.geo (p : Pte) : Nat := (p.extractLsb' 21 2).toNat
def Pte.scf (p : Pte) : Nat := (p.extractLsb' 23 2).toNat
def Pte.key (p : Pte) : Nat := (p.extractLsb' 25 11).toNat
def Pte.frame (p : Pte) : Nat := (p.extractLsb' 36 38).toNat
def Pte.scalePa (p : Pte) : Nat := (p.extractLsb' 74 39).toNat * 2 ^ 13

def pteA : Pte := 0x4000
def pteD : Pte := 0x8000

/-- The VA bits below a level's index: 46, 36, 26, 16 (R91). -/
def levelShift (level : Nat) : Nat := 46 - 10 * level

/-- FMT, GEO and SCF combinations a page may carry (R70). -/
def formatOk (fmt geo scf : Nat) : Bool :=
  if fmt ≤ 6 && geo == 0 && scf == 0 then true
  else if (fmt == 8 || (11 ≤ fmt && fmt ≤ 13)) && geo == 0 && scf == 0 then true
  else if (fmt == 5 || fmt == 6) && (geo == 1 || geo == 2) && scf == 1 then true
  else (fmt == 7 || fmt == 9 || fmt == 10) && (geo == 1 || geo == 2) && (scf == 1 || scf == 2)

/-- The malformed-entry conditions (R95), but for those of a lease or reservation, which are met when the page is resolved. -/
def Pte.malformed (p : Pte) (level : Nat) : Bool :=
  let k := p.kind
  let kindOk := match level with
    | 0 => k == 0
    | 1 | 2 => k == 0 || k == 1
    | _ => 1 ≤ k && k ≤ 4
  !kindOk || (p.extractLsb' 113 7) != 0 || (p.scf == 0 && p.scalePa != 0) ||
  (if k == 0 then (p.extractLsb' 4 32) != 0
   else
    ((k == 1 || k == 4) && p.frame % (match level with | 3 => 4 | 2 => 4096 | _ => 2 ^ 22) != 0) ||
    (p.w && !p.r) || p.cp == 3 || p.geo == 3 || p.scf == 3 || (p.ic && k != 1) || (p.lf && k != 3 && k != 4) ||
    !formatOk p.fmt p.geo p.scf)

/-- A translation fault: its cause and the level at which the walk stopped. -/
structure XFault where
  cause : Nat
  level : Nat
deriving DecidableEq, Repr

/-- Whether an uncorrectable error lies on the bytes (R112). -/
def State.bad (s : State) (loc n : Nat) : Bool := s.badWords.any (fun w => decide (w < loc + n) && decide (loc < w + 4))

/-- Whether the home die of a location can be reached (R430). -/
def State.dieReachable (s : State) (loc : Nat) : Bool := !(s.home loc / 40 ∈ s.unreachable)

/-- One entry read at its home (R92) under XLROOT.TKEY; the words of an engine's write in progress are waited for. -/
inductive EntryRead where
  | ok (p : Pte)
  | fault (cause : Nat)
  | held
deriving DecidableEq, Repr

/-- The lender's controllers refuse local accesses to a lent region (R124). -/
def State.lentOut (s : State) (loc n : Nat) : Bool :=
  s.lend.any (fun x => x.2.st != .free && decide (x.2.base < loc + n) && decide (loc < x.2.base + x.2.pages * 65536))

/-- The read, at the entry's home (R92): an access like any other there, so the host's copy of its line is called in and earlier
entries of combining windows are applied (R215, R445), and it is read under the walk's key whatever key its words are registered
under (R113). -/
def readEntry (xlroot : DWord) (addr : Nat) (s : State) : EntryRead × State :=
  let m := s.keyMat (xlroot.extractLsb' 0 11).toNat
  let loc := storeLoc addr
  let ws := wordsOf loc 16
  let answers (a : HomeAns) : Bool := ws.any (fun w => homeCheck none false w s == a)
  if !isPhysical addr || (isHbm addr && m = .none) || s.lentOut loc 16 then (.fault 0x09, s)
  else if answers .poisoned then (.fault 0x10, s)
  else if s.bad loc 16 then (.fault 0x28, s)
  else if !s.dieReachable loc then (.fault 0x29, s)
  else if answers .held then (.held, s)
  else
    let s := readyUnder m loc (settle loc 16 s)
    (.ok (ws.foldr (fun w acc => acc <<< 32 ||| (homeValue m w s).setWidth 128) 0), s)

/-- What a walk finds: a leaf, a fault, or an entry that is held at its home. -/
abbrev WalkRes := Except (XFault ⊕ Nat) Leaf

/-- The walk (R91) from a level with its table's address, `fuel` levels to go: what it finds, and the table entries it went
through. -/
def walkFrom (xlroot : DWord) (va : Nat) : Nat → Nat → Nat → State → (WalkRes × List (Nat × Pte)) × State
  | 0, level, _, s => ((.error (.inl ⟨0x0A, level⟩), []), s)
  | fuel + 1, level, table, s =>
    let addr := table + 16 * bits va (levelShift level) 10
    match readEntry xlroot addr s with
    | (.fault c, s) => ((.error (.inl ⟨c, level⟩), []), s)
    | (.held, s) => ((.error (.inr addr), []), s)
    | (.ok p, s) =>
      if !p.v then ((.error (.inl ⟨0x08, level⟩), []), s)
      else if p.malformed level then ((.error (.inl ⟨0x0A, level⟩), []), s)
      else if p.kind = 0 then
        let ((r, l), s) := walkFrom xlroot va fuel (level + 1) (p.frame * 2 ^ 14) s
        ((r, (level, p) :: l), s)
      else ((.ok ⟨p, level, storeLoc addr⟩, []), s)

/-- The longest walk-cache entry on the VA's path: the level to go on from and the table there. -/
def cachedStart (wc : List WalkEntry) (asid : BitVec 16) (xlroot : DWord) (va : Nat) : Nat × Nat :=
  let hit (level : Nat) := wc.find? (fun e => e.asid == asid && e.level == level && e.page == va / 2 ^ levelShift level)
  match hit 2, hit 1, hit 0 with
  | some e, _, _ => (3, Pte.frame e.pte * 2 ^ 14)
  | none, some e, _ => (2, Pte.frame e.pte * 2 ^ 14)
  | none, none, some e => (1, Pte.frame e.pte * 2 ^ 14)
  | none, none, none => (0, (xlroot.extractLsb' 14 38).toNat * 2 ^ 14)

/-- A walk for a context through the walk cache of its cluster. -/
def walk (c : Ctx) (va : Nat) (s : State) : (WalkRes × List (Nat × Pte)) × State :=
  let (level, table) := cachedStart (s.cluster (c.core / 8)).walkCache c.asid c.xlroot va
  walkFrom c.xlroot va (4 - level) level table s

/-! Buffers (R98, R100). -/

/-- Which buffer serves an access (R100). -/
inductive Buffer where
  | unit | l1 | gather | engine
deriving DecidableEq, Repr

def TlbEntry.hits (e : TlbEntry) (asid : BitVec 16) (va : Nat) : Bool :=
  (Pte.g e.pte || e.asid == asid) && e.page == va / 2 ^ levelShift e.level

/-- The last n of a list: the oldest entries leave first. -/
def keepLast {α : Type} (n : Nat) (l : List α) : List α := l.drop (l.length - n)

def gatherBank (va : Nat) : Nat := va / 2 ^ 16 % 8

def State.lookup (s : State) (c : Ctx) (b : Buffer) (va : Nat) : Option TlbEntry :=
  let own : Option TlbEntry := match b with
    | .unit => (s.seq c.seq).unitTlb.filter (·.hits c.asid va)
    | .l1 | .engine => none
    | .gather => ((NMap.getD (s.core c.core).gatherTlb (gatherBank va) []).find? (fun x =>
        x.1 == va / 2 ^ 16 && x.2.hits c.asid va)).map (·.2)
  let l1 : Option TlbEntry := match b with
    | .unit | .l1 => (s.core c.core).tlb.find? (·.hits c.asid va)
    | _ => none
  let l2 := (s.cluster (c.core / 8)).tlb.find? (·.hits c.asid va)
  (own.or l1).or l2

/-- An entry installed in the buffers that serve the access, and in the L2 TLB. -/
def State.install (s : State) (c : Ctx) (b : Buffer) (va : Nat) (e : TlbEntry) : State :=
  let s := s.modCluster (c.core / 8) fun k =>
    { k with tlb := keepLast 4096 (k.tlb.filter (fun x => !(x.asid == e.asid && x.level == e.level && x.page == e.page)) ++ [e]) }
  let inL1 (s : State) : State := s.modCore c.core fun k =>
    { k with tlb := keepLast 192 (k.tlb.filter (fun x => !(x.asid == e.asid && x.level == e.level && x.page == e.page)) ++ [e]) }
  match b with
  | .unit => (inL1 s).modSeq c.seq fun q => { q with unitTlb := some e }
  | .l1 => inL1 s
  | .gather => s.modCore c.core fun k =>
      let l := NMap.getD k.gatherTlb (gatherBank va) []
      let l := l.filter (fun x => !(x.1 == va / 2 ^ 16 && x.2.asid == e.asid))
      { k with gatherTlb := NMap.set k.gatherTlb (gatherBank va) (keepLast 16 (l ++ [(va / 2 ^ 16, e)])) }
  | .engine => s

/-- Table entries of a walk enter the walk cache. -/
def State.installTables (s : State) (c : Ctx) (va : Nat) (l : List (Nat × Pte)) : State :=
  s.modCluster (c.core / 8) fun k =>
    { k with walkCache := l.foldl (fun wc x => wc ++ [⟨c.asid, x.1, va / 2 ^ levelShift x.1, x.2⟩]) k.walkCache }

/-- Drop selected translations from the buffers of a core and its sequencers. -/
def dropCoreTlb (drop : TlbEntry → Bool) (core : Nat) (s : State) : State :=
  let s := s.modCore core fun k =>
    { k with tlb := k.tlb.filter (fun e => !drop e),
             gatherTlb := NMap.mapVals k.gatherTlb (fun _ l => l.filter (fun e => !drop e.2)) }
  (upFrom (4 * core) 4).foldl (fun s n =>
    if (s.seq n).unitTlb.any drop then s.modSeq n fun q => { q with unitTlb := none } else s) s

/-- Drop selected translations and walk-cache entries from a cluster's buffers. -/
def dropClusterTlb (drop : TlbEntry → Bool) (wdrop : WalkEntry → Bool) (cl : Nat) (s : State) : State :=
  s.modCluster cl fun k =>
    { k with tlb := k.tlb.filter (fun e => !drop e), walkCache := k.walkCache.filter (fun e => !wdrop e) }

/-- The cores within a scope of a core. -/
def coresIn (sc : Scope) (core : Nat) : List Nat :=
  match sc with
  | .seq | .core => [core]
  | .clu => upFrom (core / 8 * 8) 8
  | .die => upFrom (core / 48 * 48) 48
  | .dev | .sys => List.range coreCount

/-- Drop selected translations from every buffer within a scope of a core. Cores and clusters that hold nothing have nothing
to drop. -/
def dropScope (sc : Scope) (core : Nat) (drop : TlbEntry → Bool) (wdrop : WalkEntry → Bool) (s : State) : State :=
  let cs := coresIn sc core
  let held := (s.cores.map (·.1)) ++ (s.seqs.map (fun x => x.1 / 4))
  let s := (cs.filter (fun c => c ∈ held)).foldl (fun s c => dropCoreTlb drop c s) s
  let cls := (s.clusters.map (·.1)).filter (fun k => cs.any (fun c => c / 8 == k))
  cls.foldl (fun s k => dropClusterTlb drop wdrop k s) s

/-- Entries that map a VA with an ASID, global ones included (R109 .va). -/
def TlbEntry.maps (asid : BitVec 16) (lo hi : Nat) (e : TlbEntry) : Bool :=
  let a := e.page * 2 ^ levelShift e.level
  (Pte.g e.pte || e.asid == asid) && decide (a ≤ hi) && decide (lo < a + 2 ^ levelShift e.level)

def WalkEntry.onPath (lo hi : Nat) (e : WalkEntry) : Bool :=
  let a := e.page * 2 ^ levelShift e.level
  decide (a ≤ hi) && decide (lo < a + 2 ^ levelShift e.level)

/-- What a `tlbinv` selects (R109): entries, walk-cache entries, and accesses under way, by ASID, the level of the leaf they went through,
and VA. -/
structure Selection where
  entry : TlbEntry → Bool
  table : WalkEntry → Bool
  access : BitVec 16 → Nat → Nat → Bool

def Selection.all : Selection := ⟨fun _ => true, fun _ => true, fun _ _ _ => true⟩

def Selection.byAsid (a : BitVec 16) : Selection := ⟨fun e => !(Pte.g e.pte) && e.asid == a, fun _ => true, fun b _ _ => b == a⟩

/-- Leaves that map a page of a range, of one ASID and global ones. The leaf of an access under way is taken for a global one. -/
def Selection.byRange (a : BitVec 16) (lo hi : Nat) : Selection :=
  ⟨TlbEntry.maps a lo hi, WalkEntry.onPath lo hi, fun _ level va =>
    let size := 2 ^ levelShift level
    decide (va / size * size ≤ hi) && decide (lo < va / size * size + size)⟩

/-- Engine commands of the clusters within a scope of a core. -/
def engineInScope (sc : Scope) (core : Nat) (c : EngCmd) : Bool :=
  (coresIn sc core).any (fun k => k / 8 == c.ctx.core / 8)

/-- Engine accesses not yet sent retranslate (R105): the source pages selected are dropped. -/
def EngCmd.dropSources (c : EngCmd) (sel : Selection) : EngCmd :=
  { c with srcPages := c.srcPages.filter (fun x => !sel.access c.ctx.asid x.2.1.level (65536 * x.1)) }

/-- An invalidation within a scope of a core (R109): buffers, walk caches, and the source pages of engine commands. -/
def invalidate (sc : Scope) (core : Nat) (sel : Selection) (s : State) : State :=
  let s := dropScope sc core sel.entry sel.table s
  { s with engines := NMap.mapVals s.engines (fun _ c => if engineInScope sc core c then c.dropSources sel else c) }

/-- The invalidation of a hardware rewrite (R106): `tlbinv.dev.va` for the page. -/
def dropPage (asid : BitVec 16) (va : Nat) (s : State) : State :=
  let lo := va / 2 ^ 16 * 2 ^ 16
  invalidate .dev 0 (Selection.byRange asid lo (lo + 65535)) s

/-! Translating for a context. -/

/-- An access kind of R103. -/
def kRead : Nat := 0
def kWrite : Nat := 1
def kFetch : Nat := 2
def kRmw : Nat := 3
/-- The elements of `glink` and `vwait`: checked as read-modify-write (R96, R197), but they store nothing (R121). -/
def kWatch : Nat := 7

/-- The permission checks at the leaf that the entry alone decides (R96). -/
def Pte.permits (p : Pte) (kind : Nat) (priv : Bool) : Bool :=
  (match kind with
   | 0 => p.r
   | 1 => p.w
   | 2 => p.x && !p.ic && p.fmt == 0
   | _ => p.r && p.w) &&
  (if priv then !(kind == kFetch && p.u) else p.u)

/-- A window of the access table covers bytes for a master (R446, R447). `need`: bits read, write, atomic. -/
def windowCovers (w : BitVec 128) (mk mid loc n need : Nat) : Bool :=
  w.getLsbD 127 && (w.extractLsb' 91 2).toNat == mk && (w.extractLsb' 75 16).toNat == mid &&
  (w.extractLsb' 72 3).toNat &&& need == need &&
  decide ((w.extractLsb' 0 36).toNat * 65536 ≤ loc) && decide (loc + n ≤ (w.extractLsb' 36 36).toNat * 65536 + 65536)

def State.allowed (s : State) (mk mid loc n need : Nat) : Bool :=
  s.windows.any (fun w => windowCovers w.2 mk mid loc n need)

/-- What a master needs for an access kind (R447). -/
def needOf (kind : Nat) : Nat :=
  match kind with
  | 0 | 2 => 1
  | 1 => 2
  | _ => 7

/-- A key slot that a tenant's leaf may name: its own, and not an empty one (R113, R448). -/
def State.keyOk (s : State) (tenant key : Nat) : Bool :=
  let ks := NMap.getD s.keys key {}
  ks.mat != .none && ks.owner == tenant

/-- The checks of a physical address: its range, the tenant's windows, the key slot, a lent region, and for a host window a
function of the tenant (R90, R113, R444, R447, R448). -/
def physicalOk (s : State) (tenant loc n kind key : Nat) : Bool :=
  isPhysical loc && isPhysical (loc + n - 1) && s.allowed 0 tenant loc n (needOf kind) &&
  (!isHbm loc || s.keyOk tenant key) && !s.lentOut loc n &&
  (!isHost loc || s.functions.any (fun f => f.2.tenant == tenant))

/-- The page offset and physical address of a backed leaf (R94). -/
def Leaf.pa (l : Leaf) (va : Nat) : Nat := l.pte.frame * 2 ^ 14 + va % 2 ^ levelShift l.level

/-- The rest of the permission check: the leaf's KEY, which a leased leaf does not have (R124, R448), and the address of a backed
or shared one. -/
def leafPhysicalOk (s : State) (c : Ctx) (l : Leaf) (va n kind : Nat) : Bool :=
  (l.pte.kind == 2 || s.keyOk c.tenant l.pte.key) &&
  (if l.pte.kind == 1 || l.pte.kind == 4 then physicalOk s c.tenant (l.pa va) n kind l.pte.key else true)

/-- What a lease or reservation adds to the walk (R94, R95, R135): not present, malformed, or a scaled format on a tier that has
none (R70). A reservation of another tenant is none of the tenant's (R8, R135; log 103). -/
def tierFault (s : State) (tenant : Nat) (l : Leaf) : Option Nat :=
  let scaled : Option Nat := if l.pte.scf != 0 then some 0x0E else none
  if l.pte.kind == 2 then
    let b := NMap.getD s.borrow (l.pte.frame / 2 ^ 31) {}
    if b.st = .free then some 0x08
    else if b.pages ≤ l.pte.frame % 2 ^ 31 then some 0x0A
    else none
  else if l.pte.kind == 3 then
    match (NMap.get? s.resvs (l.pte.frame / 2 ^ 26)).filter (fun r => r.tenant == tenant) with
    | some r => if r.limit ≤ l.pte.frame % 2 ^ 26 then some 0x0A else scaled
    | none => some 0x08
  else if l.pte.kind == 4 then scaled
  else none

/-- A faulting access's trap (R103), its element in ESTART. -/
def xtrap (cause level kind va e : Nat) : Trap := { cause := cause, tval := tvalOf level kind va, estart := some e }

/-- The entry of a leaf read again at its home (R97). A fault of the read is met by the walk that follows. -/
def rereadEntry (c : Ctx) (l : Leaf) : M (Option Pte) := do
  let (r, s) := readEntry c.xlroot l.entry (← get)
  set s
  match r with
  | .ok p => return some p
  | .held => stopWait (.held l.entry)
  | .fault _ => return none

/-- Write one bit into the low word of an entry if the rest of the entry is unchanged (R97): true when done. -/
def orEntry (c : Ctx) (l : Leaf) (b : Pte) : M Bool := do
  match ← rereadEntry c l with
  | some p =>
    if p &&& ~~~b == l.pte &&& ~~~b then
      modify fun s => homeWrite (s.keyMat (c.xlroot.extractLsb' 0 11).toNat) l.entry 4 ((p ||| b).toNat % 2 ^ 32) s
      return true
    else return false
  | none => return false

/-- A sequencer is registered for a borrower slot when it installs a translation through it (R126). -/
def noteLease (c : Ctx) (p : Pte) (s : State) : State :=
  let i := p.frame / 2 ^ 31
  if p.kind == 2 && (NMap.getD s.borrow i {}).st != .free then
    { s with borrow := NMap.modify s.borrow i {} (fun b => { b with regs := b.regs ||| ((1 : BitVec 768) <<< c.seq) }) }
  else s

/-- A leaf enters the buffers that serve an access. -/
def installLeaf (c : Ctx) (buf : Buffer) (va : Nat) (l : Leaf) (s : State) : State :=
  noteLease c l.pte (s.install c buf va ⟨c.asid, l.level, va / 2 ^ levelShift l.level, l.pte, l.entry⟩)

/-- Find the leaf of a VA (R91 to R98): a buffer, or a walk that installs what it finds with A set. `e`: the element. -/
def findLeaf (c : Ctx) (buf : Buffer) (kind va e : Nat) : M Leaf := do
  let s ← get
  match s.lookup c buf va with
  | some t =>
    set (noteLease c t.pte (s.install c buf va t))
    return ⟨t.pte, t.level, t.entry⟩
  | none =>
    let ((r, tables), s) := walk c va s
    set s
    match r with
    | .error (.inl f) => stopTrap (xtrap f.cause f.level kind va e)
    | .error (.inr a) => stopWait (.held a)
    | .ok l =>
      match tierFault s c.tenant l with
      | some cause => stopTrap (xtrap cause l.level kind va e)
      | none => pure ()
      let _ ← if l.pte.a then pure true else orEntry c l pteA
      let l := { l with pte := l.pte ||| pteA }
      modify fun s => installLeaf c buf va l (s.installTables c va tables)
      return l

/-- A translation found stale leaves the buffers of its core and cluster. -/
def dropStale (c : Ctx) (va : Nat) (s : State) : State :=
  let drop := TlbEntry.maps c.asid va va
  dropClusterTlb drop (WalkEntry.onPath va va) (c.core / 8) (dropCoreTlb drop c.core s)

/-- What an access tests in its leaf beside the checks of every access: a format that it may not touch, which is reported before
permission, and what it reports after (R96, R184, R199). -/
structure LeafTests where
  badFormat : Leaf → Bool
  after : Leaf → Option Nat

def LeafTests.none : LeafTests := ⟨fun _ => false, fun _ => .none⟩

/-- Translate and check one access of n bytes (R90 to R96): the leaf, with A set. -/
def checkLeaf (c : Ctx) (buf : Buffer) (kind va n e : Nat) (tests : LeafTests) : M Leaf := do
  let va := va % 2 ^ 56
  let l ← findLeaf c buf kind va e
  let s ← get
  match tierFault s c.tenant l with
  | some cause => stopTrap (xtrap cause l.level kind va e)
  | none => pure ()
  if tests.badFormat l then stopTrap (xtrap 0x0E l.level kind va e)
  if !(l.pte.permits kind c.priv) || !leafPhysicalOk s c l va n kind then stopTrap (xtrap 0x09 l.level kind va e)
  match tests.after l with
  | some cause => stopTrap (xtrap cause l.level kind va e)
  | none => return l

/-- D set before a store-class access (R97). Where the entry has changed, the translation is dropped and the walk and its checks
are repeated: they read the entry as it now stands, so D goes into that one. D is set as soon as the run-ahead translates an
active store element, also one above a fault or in a group that then raises partial block (log 104). -/
def setDirty (c : Ctx) (buf : Buffer) (kind va n e : Nat) (tests : LeafTests) (l : Leaf) : M Leaf := do
  if l.pte.d then return l
  let same ← orEntry c l pteD
  modify (dropStale c va)
  let l ← if same then pure l else checkLeaf c buf kind va n e tests
  let _ ← if same || l.pte.d then pure true else orEntry c l pteD
  let l := { l with pte := l.pte ||| pteD }
  modify (dropStale c va)
  modify (installLeaf c buf va l)
  return l

end Sys2Proof.Machine
end

