-- ==== Sys2Proof/Machine/Gateway.lean ====
section
/-! DEFINITION. Packets of the Relov gateway and how one is sent (20 R432, R433, R435): CRC, flows, tags. -/

namespace Sys2Proof.Machine

/-- n bytes of a number, little-endian. -/
def leBytes : Nat → Nat → List Byte
  | 0, _ => []
  | n + 1, v => BitVec.ofNat 8 v :: leBytes n (v / 256)

/-- One bit of the CRC-32 (R432): polynomial 0x04C1_1DB7 reflected. -/
def crcBit (c : Word) : Word := if c.getLsbD 0 then (c >>> 1) ^^^ 0xEDB88320 else c >>> 1

def crcByte (c : Word) (b : Byte) : Word :=
  (List.range 8).foldl (fun c _ => crcBit c) (c ^^^ b.setWidth 32)

/-- CRC-32 of IEEE 802.3. -/
def crc32 (l : List Byte) : Word := l.foldl crcByte 0xFFFFFFFF ^^^ 0xFFFFFFFF

def kindCode : PacketKind → Byte
  | .write => 1 | .add64 => 2 | .arrive => 3 | .read => 4 | .data => 5 | .done => 6 | .ack => 7 | .lease => 8
  | .reserved c => c

/-- Header bytes 0x00 to 0x17. -/
def headerBytes (p : Packet) : List Byte :=
  leBytes 2 p.dst.toNat ++ leBytes 2 p.src.toNat ++ [kindCode p.kind, p.flow] ++ leBytes 2 p.payload.length ++
    leBytes 4 p.num.toNat ++ leBytes 4 p.tag.toNat ++ leBytes 8 p.addr.toNat

/-- The CRC of header and payload. -/
def packetCrc (p : Packet) : Word :=
  crc32 (headerBytes p ++ leBytes 2 p.hcrc.toNat ++ leBytes 6 p.rsvd.toNat ++ p.payload)

/-- FLOW of a source die and a class (R432). -/
def flowOf (die : Nat) (c : NetClass) : Nat :=
  4 * die + match c with
    | .req => 0 | .wr => 1 | .rsp => 2 | .eng => 3

/-- Key of a flow in the gateway's tables. -/
def flowKey (dev flow : Nat) : Nat := 16 * dev + flow

def SendFlow.push (f : SendFlow) (p : Packet) (cycle : Nat) : SendFlow :=
  { next := (f.next + 1) % 2 ^ 32, unacked := f.unacked ++ [{ pkt := p, first := cycle, last := cycle }] }

/-- A packet sent: it takes the flow's next SEQ and is kept until acknowledged (R433, R435). -/
def sendPacket (dev flow : Nat) (kind : PacketKind) (tag addr : Nat) (payload : List Byte) (s : State) : State :=
  let f := NMap.getD s.relov.send (flowKey dev flow) {}
  let p : Packet :=
    { dst := BitVec.ofNat 16 dev, src := BitVec.ofNat 16 s.relov.devno, kind := kind, flow := BitVec.ofNat 8 flow,
      num := BitVec.ofNat 32 f.next, tag := BitVec.ofNat 32 tag, addr := BitVec.ofNat 64 addr, hcrc := 0, rsvd := 0,
      payload := payload, crc := 0, stomp := false }
  let p := { p with hcrc := Config.headerCrc (headerBytes p) }
  let p := { p with crc := packetCrc p }
  { s with relov := { s.relov with send := NMap.set s.relov.send (flowKey dev flow) (f.push p s.cycle) } }

/-- A tagged command begins: its tag. -/
def newCommand (c : RCmd) (s : State) : Nat × State :=
  let t := s.relov.nextTag % 2 ^ 32
  (t, { s with relov := { s.relov with nextTag := s.relov.nextTag + 1, cmds := NMap.set s.relov.cmds t c } })

/-- Codes of the lease messages in ADDR (R432 names the code and gives no numbers: log 36). -/
inductive LeaseMsg where
  | offer | take | reclaim | returnBegun | returned
deriving DecidableEq, Repr

def LeaseMsg.code : LeaseMsg → Nat
  | .offer => 0 | .take => 1 | .reclaim => 2 | .returnBegun => 3 | .returned => 4

/-- A lease message to a device (R441: LEASE packets in class REQ), with the entry or slot at the device it goes to. -/
def sendLease (dev : Nat) (m : LeaseMsg) (entry : Nat) (payload : List Byte) (s : State) : State :=
  sendPacket dev (flowOf 0 .req) .lease 0 (m.code * 256 + entry) payload s

/-- A line of a lease on its way back to its lender: not yet acknowledged. -/
def State.goingBack (s : State) (line : Nat) : Bool :=
  s.relov.cmds.any (fun x => match x.2.kind with
    | .back l _ => l == line
    | _ => false)

/-- A line of a lease written to its lender (R441), by its home, in the flow of the home's die. -/
def sendLineBack (slot line : Nat) (data : List Byte) (s : State) : State :=
  let b := NMap.getD s.borrow slot {}
  let (t, s) := newCommand { kind := .back line slot, left := [(b.ldev, 1)] } s
  sendPacket b.ldev (flowOf (s.home (128 * line) / 40) .wr) .write t (b.base + 128 * line - leasedLoc slot 0 0) data s

/-- A line of a lease asked of its lender (R441), by its home: the packet travels in the flow of the home's die (R432, R433). -/
def sendLineRead (slot : Nat) (line : Nat) (pull : Bool) (s : State) : State :=
  let b := NMap.getD s.borrow slot {}
  let (t, s) := newCommand { kind := .line line slot pull, left := [(b.ldev, 1)] } s
  sendPacket b.ldev (flowOf (s.home (128 * line) / 40) .req) .read t (b.base + 128 * line - leasedLoc slot 0 0) [] s

end Sys2Proof.Machine
end

