-- ==== Sys2Proof/Machine/Access.lean ====
section
/-! DEFINITION. Performing an access at its page's tier (05 R117 to R127, 06 R153 to R173): where a translated access goes,
the copy of a copy-on-write page, materialising and late frame assignment, and the load and store of a few bytes. -/

namespace Sys2Proof.Machine

/-! Whole pages. -/

/-- Registered words of a range, written into a copy of memory: what passed-on reads would collect (R157). -/
def State.collected (s : State) (loc n : Nat) : Memory :=
  (s.lines.filter (fun x => decide (128 * x.1 < loc + n) && decide (loc < 128 * x.1 + 128))).foldl (fun m x =>
    (upFrom (32 * x.1) 32).foldl (fun m w =>
      match x.2.ownerOf w with
      | some (.core c) =>
        match (s.core c).l1Word w with
        | some k => m.writeLe (4 * w) 4 k.val.toNat
        | none => m
      | _ => m) m) s.mem

/-- The listed bytes of a range, by offset. -/
def Memory.slice (m : Memory) (loc n : Nat) : List (Nat × Byte) :=
  (m.filter (fun c => decide (loc ≤ c.1) && decide (c.1 < loc + n))).map (fun c => (c.1 - loc, c.2))

/-- The bytes of a range as they read under a key, by offset; bytes not listed are 0. -/
def State.rangeUnder (s : State) (mat : KeyMat) (loc n : Nat) : List (Nat × Byte) :=
  let m := s.collected loc n
  if !isHbm loc then m.slice loc n
  else
    let t := { s with mem := m }
    ((List.range (n / 128)).map (fun i =>
      if t.lineMat (loc + 128 * i) = mat then (m.slice (loc + 128 * i) 128).map (fun x => (128 * i + x.1, x.2))
      else (lineUnder mat (loc + 128 * i) t).zipIdx.map (fun x => (128 * i + x.2, x.1)))).flatten

/-- A range of memory cleared to 0. -/
def Memory.clear (m : Memory) (loc n : Nat) : Memory :=
  m.filter (fun c => decide (c.1 < loc) || decide (loc + n ≤ c.1))

def Memory.writeCells (m : Memory) (loc : Nat) (l : List (Nat × Byte)) : Memory :=
  l.foldl (fun m x => m.write (loc + x.1) x.2) m

/-- Earlier entries of combining windows are applied, and lines that the host holds called in, throughout a range (R215, R445). -/
def settleRange (loc n : Nat) (s : State) : State :=
  let s := (s.hostLines.filter (fun x => decide (128 * x.1 < loc + n) && decide (loc < 128 * x.1 + 128))).foldl (fun s x => snoopHost x.1 s) s
  let hit := (s.homeComb.map (fun x => x.2.filter (fun e => e.covers loc n))).flatten
  if hit == [] then s
  else hit.foldl (fun s e => applyComb e s) { s with homeComb := NMap.mapVals s.homeComb (fun _ l => l.filter (fun e => !e.covers loc n)) }

/-- What a line's record keeps when its cores' copies are dropped: the marks P, which only `wbr.pclr` clears (R171), and the words
that an engine has yet to write (R166). -/
def LineRec.forget (r : LineRec) : LineRec :=
  { r with owners := r.owners.filter OwnerRec.isEngine, u := r.u &&& r.e }

/-- The lines that lie wholly or partly in a range. -/
def inRange (loc n line : Nat) : Bool := decide (loc < 128 * line + 128) && decide (128 * line < loc + n)

/-- The cores' claims to a range of lines, and their copies, are dropped without write-back. Stores whose registration is on its way
come first (R136), but for those that an engine's write holds, which come after it. -/
def forgetLines (loc n : Nat) (s : State) : State :=
  let s := recordRange loc n (settleRange loc n s)
  let s := (s.lines.filter (fun x => inRange loc n x.1)).foldl (fun s x => s.setLine x.1 x.2.forget) s
  { s with cores := NMap.mapVals s.cores (fun _ c => (c.linesIn loc n).foldl (fun c l => c.dropHeld l) c) }

/-- Two records of one line as one. -/
def LineRec.join (r t : LineRec) : LineRec :=
  { owners := r.owners ++ t.owners, u := r.u ||| t.u, p := r.p ||| t.p, e := r.e ||| t.e }

/-- The line of a page's copy that stands for a line of the page. -/
def movedLine (src dst line : Nat) : Nat := (dst + (128 * line - src)) / 128

/-- Records of a page's lines move with their marks to another page. -/
def moveRecords (src dst n : Nat) (s : State) : State :=
  (s.lines.filter (fun x => inRange src n x.1)).foldl (fun s x =>
    (s.setLine (movedLine src dst x.1) (x.2.join (s.lineRec (movedLine src dst x.1)))).setLine x.1 {}) s

/-- A word or cell watched, moved with the bytes it lies in. -/
def WaitEntry.moved (src dst : Nat) (mat : KeyMat) (e : WaitEntry) : WaitEntry :=
  { e with loc := e.loc - src + dst, mat := mat, host := isHost dst }

def CellWait.moved (src dst : Nat) (mat : KeyMat) (e : CellWait) : CellWait := { e with loc := e.loc - src + dst, mat := mat }

/-- The waits at words and cells of n bytes follow them to another place, those of them that `who` names by sequencer and VA (R217, R389;
log 120). -/
def Core.moveWaits (who : Nat → Nat → Bool) (src dst n : Nat) (mat : KeyMat) (c : Core) : Core :=
  let here (loc : Nat) : Bool := decide (src ≤ loc) && decide (loc < src + n)
  { c with
    waits := NMap.mapVals c.waits (fun _ e => if here e.loc && who e.seq e.va then e.moved src dst mat else e)
    cells := c.cells.map (fun e => if here e.loc && who e.seq e.va then e.moved src dst mat else e) }

/-- An L1's lines of a page, its registrations on their way there, its links and waits there, are those of another page from now, under
its key. -/
def Core.moveLines (src dst n key : Nat) (mat : KeyMat) (c : Core) : Core :=
  let c := c.moveWaits (fun _ _ => true) src dst n mat
  let c := { c with links := c.links.map (fun (l : Link) => if inRange src n l.line then { l with line := movedLine src dst l.line } else l) }
  let c := { c with regq := c.regq.map (fun (p : PendReg) =>
    if inRange src n (p.word / 32) then { p with word := p.word + dst / 4 - src / 4 } else p) }
  (c.linesIn src n).foldl (fun c l =>
    (c.setL1Line (movedLine src dst l) { NMap.getD c.l1 l {} with key := key }).setL1Line l {}) c

/-- Owner records and L1 copies of one page move to another (R118): values stay with their owners. -/
def moveLines (src dst n key : Nat) (mat : KeyMat) (s : State) : State :=
  let s := moveRecords src dst n s
  { s with cores := NMap.mapVals s.cores (fun _ c => c.moveLines src dst n key mat) }

/-- A page written over by hardware: links on its lines are broken, and words and cells watched there are evaluated (R212, R217). -/
def overwritten (loc n : Nat) (s : State) : State :=
  evalWaits loc n { s with cores := NMap.mapVals s.cores (fun _ c => { c with links := c.links.filter (fun l => !inRange loc n l.line) }) }

/-- Engine commands and tile steps that write a page write it where it goes. -/
def redirectPages (src : Nat) (p : Place) (l : NMap Place) : NMap Place :=
  NMap.mapVals l (fun _ x => if x.loc = src then { x with loc := p.loc, mat := p.mat, key := p.key, plain := p.plain } else x)

def redirectEngines (src : Nat) (p : Place) (s : State) : State :=
  { s with
    engines := NMap.mapVals s.engines (fun _ c => { c with dstPages := redirectPages src p c.dstPages })
    tiles := NMap.mapVals s.tiles (fun _ r => { r with running := r.running.map (fun t => { t with pages := redirectPages src p t.pages }) }) }

/-! Unbacked pages (R116, R117, R147). -/

/-- The lowest free page slot of a die's 1,280. -/
def State.freeSlot (s : State) (die : Nat) : Nat :=
  let used := (s.pageSlots.filter (fun x => x.1 / 2 ^ 36 == die)).map (·.2)
  ((List.range 1280).find? (fun q => !(q ∈ used))).getD 0

/-- A page of a reservation takes a slot and holds zero (R117, R147). -/
def materialise (resv page : Nat) (s : State) : State :=
  let r := NMap.getD s.resvs resv {}
  let q := s.freeSlot (resv / 1024)
  { s with resvs := NMap.set s.resvs resv { r with pages := r.pages ++ [page] },
           pageSlots := NMap.set s.pageSlots (resv * 2 ^ 26 + page) q }

/-- A page stops being materialised: its lines are dropped without write-back. -/
def unmaterialise (resv page : Nat) (s : State) : State :=
  let r := NMap.getD s.resvs resv {}
  let loc := unbackedLoc resv page 0
  let s := forgetLines loc 65536 s
  { s with resvs := NMap.set s.resvs resv { r with pages := r.pages.filter (· != page) },
           pageSlots := NMap.erase s.pageSlots (resv * 2 ^ 26 + page), mem := s.mem.clear loc 65536 }

/-- What a read of whole lines at their homes meets, in R192's order: poisoned words, errors, homes that cannot be reached, words
held for an engine. `plain`: through the non-coherent window, which has no home (R115, R145). `tested`: what comes between owner lost and
the error (R192). -/
def checkLines (loc n : Nat) (plain : Bool) (level kind va e : Nat) (tested : M Unit) : M Unit := do
  let recs (s : State) : NMap LineRec := if plain then [] else s.lines.filter (fun x => inRange loc n x.1)
  let s ← get
  if (recs s).any (fun x => x.2.p != 0) then stopTrap (xtrap 0x10 level kind va e)
  tested
  let s ← get
  if s.bad loc n then stopTrap (xtrap 0x28 level kind va e)
  if !plain && [0, 128, 256, 384].any (fun i => decide (i < n) && !s.dieReachable (loc + i)) then stopTrap (xtrap 0x29 level kind va e)
  if (recs s).any (fun x => x.2.e != 0) then stopWait (.held loc)

/-- Lines about to be read by hardware: what was stored there earlier is there. -/
def readyRange (loc n : Nat) (s : State) : State := recordRange loc n (settleRange loc n s)

/-- n bytes of a pool's descriptor at a physical address, read by hardware for a leaf's access: outside the ranges of R111, and in a region
that is lent, the access raises permission. -/
def poolWord (pa n level kind va e : Nat) : M Nat := do
  let loc := storeLoc pa
  let s ← get
  if !isPhysical pa || !isPhysical (pa + n - 1) || s.lentOut loc n then stopTrap (xtrap 0x09 level kind va e)
  modify (readyRange loc n)
  checkLines (loc / 128 * 128) 128 (isHostPlain pa) level kind va e (pure ())
  return (← get).valueUnder (s.keyMat 0) loc n

/-- Pop a frame of a die's pool (R119): the entry below COUNT is taken and COUNT drops by 1; one that is misaligned or outside R111 is
discarded. `n` is COUNT. -/
def popFrame (pool level kind va e : Nat) : Nat → M (Option Nat)
  | 0 => return none
  | n + 1 => do
    let f ← poolWord (pool + 64 + 8 * n) 8 level kind va e
    modify fun s => homeWrite (s.keyMat 0) (storeLoc pool) 4 n s
    if f % 65536 == 0 && isPhysical f then return some f else popFrame pool level kind va e n

/-- A frame from the pool of a die, if it has one. The descriptor is read and written under slot 0's key, its die's boot key
(log 9). A read of it that meets an error traps as the access that needed it. -/
def poolPop (die level kind va e : Nat) : M (Option Nat) := do
  let pool := ((← get).die die).pool
  if pool = 0 then return none
  popFrame pool level kind va e (← poolWord pool 4 level kind va e)

/-- An entry rewritten by hardware, with the invalidation of R106. -/
def rewriteLeaf (c : Ctx) (l : Leaf) (va : Nat) (p : Pte) (s : State) : State :=
  let m := s.keyMat (c.xlroot.extractLsb' 0 11).toNat
  dropPage c.asid va (homeWrite m l.entry 16 p.toNat s)

/-- The bits of an entry that hardware sets or ignores: A, D and SW. -/
def Pte.loose : Pte := pteA ||| pteD ||| ((0xFF : Pte) <<< 120)

/-- A leaf as its entry now stands, for an access that may rewrite it: one that another agent has rewritten is found anew, with its
checks (R97, R121). -/
def currentLeaf (c : Ctx) (buf : Buffer) (kind va n e : Nat) (tests : LeafTests) (l : Leaf) : M Leaf := do
  match (← rereadEntry c l).filter (fun p => p ||| Pte.loose == l.pte ||| Pte.loose) with
  | some p => return { l with pte := p ||| pteA }
  | none =>
    modify (dropStale c va)
    checkLeaf c buf kind va n e tests

/-- A leaf with another KIND and FRAME, other fields unchanged but LF as given (R118, R121). -/
def Pte.retarget (p : Pte) (kind frame : Nat) (clearLf : Bool) : Pte :=
  let keep : Pte := ~~~(((BitVec.allOnes 38).setWidth 128 <<< 36) ||| 0xE)
  let q := (p &&& keep) ||| (BitVec.ofNat 128 frame <<< 36) ||| (BitVec.ofNat 128 kind <<< 1)
  if clearLf then q &&& ~~~(0x2000 : Pte) else q

/-- `late_frame` (R118): the unbacked page of a leaf moves to a frame. -/
def lateFrame (c : Ctx) (l : Leaf) (va f : Nat) (s : State) : State :=
  let resv := l.pte.frame / 2 ^ 26
  let page := l.pte.frame % 2 ^ 26
  let r := NMap.getD s.resvs resv {}
  let src := unbackedLoc resv page 0
  let live := page ∈ r.pages
  let s := readyRange src 65536 s
  let cells := if live then s.rangeUnder .none src 65536 else []
  let m := s.keyMat l.pte.key
  let d := storeLoc f
  let s := forgetLines d 65536 s
  let s := { s with mem := (s.mem.clear d 65536).writeCells d cells }
  let s := if isHbm f then (List.range 512).foldl (fun s i => { s with lineMats := NMap.set s.lineMats (f / 128 + i) m }) s else s
  let s := moveLines src d 65536 l.pte.key (if isHbm f then m else .none) (overwritten d 65536 s)
  let s := if live then unmaterialise resv page s else s
  let s := redirectEngines src { loc := d, mat := if isHbm f then m else .none, key := l.pte.key, plain := isHostPlain f } s
  rewriteLeaf c l va (l.pte.retarget 1 (f / 2 ^ 14) true) s

/-- A frame taken from the pool of a leaf's reservation, and the page moved there (R118): false with an empty pool. A frame that the
tenant may not write is not touched, and the access raises permission (R8, R119; log 106). -/
def framePage (c : Ctx) (l : Leaf) (kind va e : Nat) : M Bool := do
  let resv := l.pte.frame / 2 ^ 26
  let src := unbackedLoc resv (l.pte.frame % 2 ^ 26) 0
  match ← poolPop (resv / 1024) l.level kind va e with
  | none => return false
  | some f =>
    let s ← get
    if !physicalOk s c.tenant f 65536 kWrite l.pte.key then stopTrap (xtrap 0x09 l.level kind va e)
    if s.bad src 65536 then stopTrap (xtrap 0x28 l.level kind va e)
    modify (lateFrame c l va f)
    return true

/-- A store-class access meets a page that is not materialised (R117). True: the leaf was rewritten, and the access
translates again. -/
def storeUnbacked (c : Ctx) (l : Leaf) (kind va e : Nat) : M Bool := do
  let s ← get
  let resv := l.pte.frame / 2 ^ 26
  let page := l.pte.frame % 2 ^ 26
  let r := NMap.getD s.resvs resv {}
  if page ∈ r.pages then return false
  if r.pages.length < r.cap then
    set (materialise resv page s)
    return false
  else if l.pte.lf then
    if ← framePage c l kind va e then return true else stopTrap (xtrap 0x13 l.level kind va e)
  else stopTrap (xtrap 0x13 l.level kind va e)

/-- RESVID fields (R134). -/
def resvV (r : DWord) : Bool := r.getLsbD 12
def resvId (r : DWord) : Nat := (r.extractLsb' 0 12).toNat

/-- The reservation that takes the copies of a context's writes, if it is the tenant's and has room for one (R8, R121). -/
def State.copyRoom (s : State) (c : Ctx) : Option Resv :=
  if resvV c.resvid then
    (NMap.get? s.resvs (resvId c.resvid)).filter (fun r => r.tenant == c.tenant && decide (r.pages.length < r.cap) && r.ncow != r.limit)
  else none

/-- The copy of a copy-on-write page (R121). -/
def cowCopy (c : Ctx) (l : Leaf) (kind va e : Nat) : M Unit := do
  let id := resvId c.resvid
  let src := storeLoc (l.pte.frame * 2 ^ 14)
  modify (readyRange src 65536)
  checkLines src 65536 (isHostPlain (l.pte.frame * 2 ^ 14)) l.level kind va e (do
    if ((← get).copyRoom c).isNone then stopTrap (xtrap 0x14 l.level kind va e))
  let s ← get
  let r := NMap.getD s.resvs id {}
  let i := r.ncow
  let cells := s.rangeUnder (s.keyMat l.pte.key) src 65536
  let s := { s with resvs := NMap.set s.resvs id { r with ncow := i + 1 } }
  -- an index that software mapped as an ordinary page keeps its slot (R122)
  let s := if i ∈ r.pages then s else materialise id i s
  let dst := unbackedLoc id i 0
  let s := forgetLines dst 65536 s
  let s := overwritten dst 65536 { s with mem := (s.mem.clear dst 65536).writeCells dst cells }
  -- what waits at the page through this leaf waits at the copy (log 120)
  let who (n a : Nat) : Bool := (l.pte.g || (s.seq n).asid == c.asid) && a / 65536 == va / 65536
  set (rewriteLeaf c l va (l.pte.retarget 3 (id * 2 ^ 26 + i) false)
    { s with cores := NMap.mapVals s.cores (fun _ k => k.moveWaits who src dst 65536 .none) })

/-- A copy begun through a leaf that another agent has rewritten is abandoned: its index is not returned (R121). -/
def abandonCopy (c : Ctx) (s : State) : State :=
  match s.copyRoom c with
  | some r => { s with resvs := NMap.set s.resvs (resvId c.resvid) { r with ncow := r.ncow + 1 } }
  | none => s

/-- As `checkLeaf`, with D set as well for a store-class access (R97). One that may have its page copied or framed goes through the
entry as it now stands. -/
def translateFor (c : Ctx) (buf : Buffer) (kind va n e : Nat) (tests : LeafTests) : M Leaf := do
  let l ← checkLeaf c buf kind va n e tests
  let va := va % 2 ^ 56
  if !(kind == kWrite || kind == kRmw) then return l
  let now ← if l.pte.kind == 4 || l.pte.lf then currentLeaf c buf kind va n e tests l else pure l
  if l.pte.kind == 4 && now.pte ||| Pte.loose != l.pte ||| Pte.loose then modify (abandonCopy c)
  setDirty c buf kind va n e tests now

def translate (c : Ctx) (buf : Buffer) (kind va n e : Nat) : M Leaf := translateFor c buf kind va n e .none

/-! Leased pages (R123, R127). -/

/-- Where an access to a leased page goes. -/
inductive LeaseGoes where
  | home (loc : Nat)
  | fallback (pa key : Nat)
  | held
  | lost
deriving DecidableEq, Repr

/-- Whether the fallback holds a line already (R127). -/
def BorrowSlot.movedLine (b : BorrowSlot) (page line : Nat) : Bool :=
  decide (page < b.cursor) || (page == b.cursor && b.moved.getLsbD line)

def leaseGoes (slot : Nat) (b : BorrowSlot) (page off : Nat) : LeaseGoes :=
  let back := LeaseGoes.fallback (b.fbase + 65536 * page + off) b.fkey
  match b.st with
  | .free => .lost
  | .active => .home (leasedLoc slot page off)
  | .demoting =>
    if b.movedLine page (off / 128) then back
    else if page == b.cursor && b.pulling == some (off / 128) then .held
    else .home (leasedLoc slot page off)
  | .demoted => back
  | .lost => if b.movedLine page (off / 128) then back else .lost

/-- The line of a leased page must stand at the borrower's home; otherwise it is read from the lender (R123, R124): a read is
sent, once a write of the line to the lender is acknowledged (R441), and the access is held. -/
def needLeasedLine (loc : Nat) : M Unit := do
  let s ← get
  if (NMap.get? s.leasedHere (loc / 128)).isNone then
    if !(loc / 128 ∈ s.leaseReads) && !s.goingBack (loc / 128) then
      set (sendLineRead ((loc - leasedBase) / 2 ^ 47) (loc / 128) false { s with leaseReads := s.leaseReads ++ [loc / 128] })
    stopWait (.held loc)

/-! Where a translated access goes. -/

/-- On a device-class page an access is one of exactly its bytes, performed at the home whatever CP says (R104, R185; log 105). -/
def placeBacked (s : State) (p : Pte) (level loc key : Nat) : Place :=
  { loc := storeLoc loc, mat := if isHbm loc then s.keyMat key else .none, key := key, cp := if isHostPlain loc || p.ic then 2 else p.cp,
    chk := p.chk, ic := p.ic, plain := isHostPlain loc, level := level }

/-- Where an access to a leased page goes before its line is had: a lost or held line stands for itself. -/
def leasedPlace (s : State) (l : Leaf) (va : Nat) : Place :=
  let slot := l.pte.frame / 2 ^ 31
  let page := l.pte.frame % 2 ^ 31
  match leaseGoes slot (NMap.getD s.borrow slot {}) page (va % 65536) with
  | .fallback pa key => placeBacked s l.pte l.level pa key
  | _ => { loc := leasedLoc slot page (va % 65536), key := 0, cp := l.pte.cp, chk := l.pte.chk, level := l.level }

/-- Owner lost, the first of the faults of performance (R192), for bytes that may have no home any more. -/
def needUnpoisoned (loc n level kind va e : Nat) : M Unit := do
  let s ← get
  if (wordsOf loc n).any (fun w => homeCheck none false w s == .poisoned) then stopTrap (xtrap 0x10 level kind va e)

/-- The place of an access of n bytes through a leaf; a store-class access first gets the page it needs. Tried again once
after a rewrite of the leaf, which meets the access's own tests of a leaf again. -/
def placeFor (c : Ctx) (buf : Buffer) (kind va n e : Nat) (tests : LeafTests) : Nat → Leaf → M Place
  | 0, l => do return placeBacked (← get) l.pte l.level (l.pa va) l.pte.key
  | fuel + 1, l => do
    let s ← get
    let store := kind == kWrite || kind == kRmw
    let off := va % 65536
    match l.pte.kind with
    | 1 => return placeBacked s l.pte l.level (l.pa va) l.pte.key
    | 2 =>
      let slot := l.pte.frame / 2 ^ 31
      let page := l.pte.frame % 2 ^ 31
      match leaseGoes slot (NMap.getD s.borrow slot {}) page off with
      | .home loc =>
        needLeasedLine loc
        return leasedPlace s l va
      | .fallback pa key =>
        if !physicalOk s c.tenant pa n kind key then stopTrap (xtrap 0x09 l.level kind va e)
        return placeBacked s l.pte l.level pa key
      | .held => stopWait (.held (leasedLoc slot page off))
      | .lost =>
        needUnpoisoned (leasedLoc slot page off) n l.level kind va e
        stopTrap (xtrap 0x12 l.level kind va e)
    | 3 =>
      let loc := unbackedLoc (l.pte.frame / 2 ^ 26) (l.pte.frame % 2 ^ 26) off
      let p : Place := { loc := loc, cp := l.pte.cp, chk := l.pte.chk, level := l.level }
      if store then
        needUnpoisoned loc n l.level kind va e
        if ← storeUnbacked c l kind va e then
          let l ← translateFor c buf kind va n e tests
          placeFor c buf kind va n e tests fuel l
        else return p
      else return p
    | _ =>
      if store then
        cowCopy c l kind va e
        let l ← translateFor c buf kind va n e tests
        placeFor c buf kind va n e tests fuel l
      else return placeBacked s l.pte l.level (l.pa va) l.pte.key

def placeOf (c : Ctx) (buf : Buffer) (kind va n e : Nat) : Nat → Leaf → M Place := placeFor c buf kind va n e .none

/-! Scratchpad windows (R221). -/

/-- VA[55:48] = 0xFE. -/
def inWindow (va : Nat) : Bool := va / 2 ^ 48 % 256 == 0xFE

/-- The core and offset that a window address reaches from a core. -/
def windowTarget (core va : Nat) : Option (Nat × Nat) :=
  let o := va % 2 ^ 48
  if o < 2 ^ 20 then some (core, o)
  else if 2 ^ 32 ≤ o && o < 2 ^ 32 + 2 ^ 23 then some (core / 8 * 8 + (o - 2 ^ 32) / 2 ^ 20, (o - 2 ^ 32) % 2 ^ 20)
  else none

/-- The place of a window access, after its tenant check. -/
def windowPlace (c : Ctx) (kind va n e : Nat) : M Place := do
  let s ← get
  match windowTarget c.core va with
  | some (k, o) =>
    if kind == kFetch || (s.core k).spOwner != c.tenant || 2 ^ 20 < o + n then stopTrap (xtrap 0x09 0 kind va e)
    return { loc := scratchLoc k o, scratch := some k }
  | none => stopTrap (xtrap 0x09 0 kind va e)

/-- The page attributes an access goes by, and its place: through a window or through translation. A window stands for a raw
idempotent page. -/
def resolveFor (c : Ctx) (buf : Buffer) (kind va n e : Nat) (tests : LeafTests) : M (Option Leaf × Place) := do
  let va := va % 2 ^ 56
  if inWindow va then return (none, ← windowPlace c kind va n e)
  else
    let l ← translateFor c buf kind va n e tests
    let p ← placeFor c buf kind va n e tests 3 l
    return (some l, p)

def resolve (c : Ctx) (buf : Buffer) (kind va n e : Nat) : M (Option Leaf × Place) := resolveFor c buf kind va n e .none

/-! Loads. -/

/-- A word at the home of a place. -/
structure HomeWord where
  place : Place
  word : Nat
deriving DecidableEq, Repr

/-- The words of n bytes at a place. -/
def Place.words (p : Place) (n : Nat) : List HomeWord := (wordsOf p.loc n).map (HomeWord.mk p)

/-- What a word's home answers to an access, `plain`: one that takes part in races. The non-coherent host window has no home
(R115, R145). -/
def HomeWord.answer (x : HomeWord) (c : Ctx) (plain : Bool) (s : State) : HomeAns :=
  if x.place.plain then .ok else homeCheck (some c.core) (x.place.chk && plain) x.word s

/-- The first two faults of performance over all the words of an element: owner lost, then the memory-model exception (R169, R171,
R192). -/
def checkOwners (c : Ctx) (plain : Bool) (ws : List HomeWord) (kind va e : Nat) : M Unit := do
  let s ← get
  match ws.find? (fun x => x.answer c plain s == .poisoned), ws.find? (fun x => x.answer c plain s == .race) with
  | some x, _ => stopTrap (xtrap 0x10 x.place.level kind va e)
  | none, some x => stopTrap (xtrap 0x11 x.place.level (if kind == kRead || kind == kFetch then 0 else 1) va e)
  | none, none => pure ()

/-- What the homes of an element's words answer as a trap or wait, each cause looked for in all of them before the next one, in R192's
order (R104, R112, R166, R169, R171, R404). -/
def checkWords (c : Ctx) (plain : Bool) (ws : List HomeWord) (kind va e : Nat) : M Unit := do
  checkOwners c plain ws kind va e
  let s ← get
  match ws.find? (fun x => s.bad (4 * x.word) 4), ws.find? (fun x => !x.place.plain && !s.dieReachable (4 * x.word)),
      ws.find? (fun x => x.answer c plain s == .held) with
  | some x, _, _ => stopTrap (xtrap 0x28 x.place.level kind va e)
  | none, some x, _ => stopTrap (xtrap 0x29 x.place.level kind va e)
  | none, none, some x => stopWait (.held (4 * x.word))
  | none, none, none => pure ()

/-! Room in an L1 (R2, R156, R250). -/

/-- Lines that an L1 has room for: 256 in each bank that is not taken into brick storage. -/
def Core.l1Room (c : Core) : Nat := 256 * (16 - c.banks)

/-- A line leaves an L1 (R156). -/
def evictLine (c line : Nat) (s : State) : State :=
  (writeHomeLine c line false (recordRange (128 * line) 128 s)).modCore c (·.dropHeld line)

/-- The lines that an L1 can give up: those with no store that a home holds back. -/
def State.evictable (s : State) (c : Nat) : List Nat :=
  (((s.core c).l1).filter (fun x => !x.2.words.any (fun y => y.2.st == .pending && s.claimHeld (.core c) (32 * x.1 + y.1)))).map (·.1)

/-- One line leaves an L1, if it has one to give. Which one is a free value (log 102). -/
def evictOne (c : Nat) (s : State) : State :=
  let ls := s.evictable c
  if ls = [] then s
  else evictLine c (ls.getD (Config.evictedLine s.freeCtr % ls.length) 0) { s with freeCtr := s.freeCtr + 1 }

/-- Room for one more line in an L1. -/
def makeL1Room (c line : Nat) (s : State) : State :=
  let k := s.core c
  if (NMap.get? k.l1 line).isSome || decide (k.l1.length < k.l1Room) then s else evictOne c s

/-- An L1 that has fewer banks now gives up the lines that it has no room for. -/
def trimL1 (c : Nat) (s : State) : State :=
  let k := s.core c
  (List.range (k.l1.length - k.l1Room)).foldl (fun s _ => evictOne c s) s

/-- A word received fills the L1 unregistered (R157); one that the L1 holds with a store of its own stays. -/
def fillL1 (c w : Nat) (v : Word) (key : Nat) (s : State) : State :=
  if ((s.core c).l1Word w).any (fun x => x.st != .unreg) then s
  else (makeL1Room c (w / 32) s).modCore c (·.fillWord w v key)

/-- An L1 copy under another key id is absent (R113): its line is sent home and dropped. A store there that a home holds back is
waited for. -/
def dropForeign (c : Ctx) (p : Place) (w : Nat) : M Unit := do
  let s ← get
  let h := s.holder c.core (w / 32)
  match NMap.get? (s.core h).l1 (w / 32) with
  | some l =>
    if l.key != p.key then
      set (evictLine h (w / 32) s)
      if (NMap.get? ((← get).core h).l1 (w / 32)).isSome then stopWait (.held (4 * w))
  | none => pure ()

/-- The core's own stores to words, on their way, are recorded before a request of the same core there (R195); one that a home holds
back is waited for. -/
def ownStoresFirst (c : Ctx) (ws : List Nat) : M Unit := do
  let pending (s : State) : Option Nat :=
    ws.find? (fun w => ((s.core (s.holder c.core (w / 32))).l1Word w).any (fun x => x.st == .pending))
  if (pending (← get)).isSome then
    modify (drainCore c.core)
    match pending (← get) with
    | some w => stopWait (.held (4 * w))
    | none => pure ()

/-- The word of its L1 that serves a load: any valid one, but none on an uncached page; for an acquire load one that is registered to the
core, whatever CP says (R154, R159). The non-coherent window and device-class pages use no L1 (R104, R115). -/
def State.l1Serves (s : State) (c : Ctx) (p : Place) (acq : Bool) (w : Nat) : Option Word :=
  let x := (s.core (s.holder c.core (w / 32))).l1Word w
  if p.ic || p.plain then none
  else if acq then (x.filter (·.st == .reg)).map (·.val)
  else if p.cp == 2 then none
  else x.map (·.val)

/-- An unregistered copy in an L1 is invalidated (R201). -/
def Core.dropUnreg (c : Core) (w : Nat) : Core := if (c.l1Word w).any (fun x => x.st == .unreg) then c.dropL1Word w else c

def dropUnreg (core w : Nat) (s : State) : State := s.modCore (s.holder core (w / 32)) (·.dropUnreg w)

/-- One word of a load (R154, R157, R159). A value from the home that does not fill the L1 leaves no older copy there: the loads of a
sequencer never go back in coherence order (R381). -/
def loadWord (c : Ctx) (p : Place) (acq : Bool) (w : Nat) : M Word := do
  match (← get).l1Serves c p acq w with
  | some v => return v
  | none =>
    modify (readyUnder p.mat (4 * w))
    let s ← get
    let v := homeValue p.mat w s
    if p.cp == 0 then modify (fillL1 (s.holder c.core (w / 32)) w v p.key) else modify (dropUnreg c.core w)
    return v

/-- A few bytes of a scratchpad. -/
def loadScratch (k loc n : Nat) : M Nat := do
  modify (settleScratch k loc n)
  let s ← get
  return s.mem.readLe loc n

/-- The words of some places of memory that a load asks their homes for, in one request: those that the L1 does not serve. -/
def State.loadAsks (s : State) (c : Ctx) (acq : Bool) (ws : List HomeWord) : List HomeWord :=
  ws.filter (fun x => (s.l1Serves c x.place acq x.word).isNone)

/-- Words about to be loaded by one element, n bytes: every check of R192 before the first is read. `plain`: a load without ORD acquire,
which takes part in races (R170). -/
def askLoad (c : Ctx) (ws : List HomeWord) (n : Nat) (acq plain : Bool) (kind va e : Nat) : M Unit := do
  forEach ws fun x => dropForeign c x.place x.word
  let home := (← get).loadAsks c acq ws
  if home != [] then
    modify (noteRequest c n)
    ownStoresFirst c (home.map (·.word))
    forEach home fun x => modify (settle (4 * x.word) 4)
    checkWords c plain home kind va e

/-- The value of n bytes of memory at a place whose words have been asked for. -/
def takeBytes (c : Ctx) (p : Place) (n : Nat) (acq : Bool) : M Nat := do
  let vs ← (wordsOf p.loc n).foldlM (fun (acc : List Nat) w => do return acc ++ [(← loadWord c p acq w).toNat]) []
  let all := vs.foldr (fun v acc => acc * 2 ^ 32 + v) 0
  return all / 2 ^ (8 * (p.loc % 4)) % 2 ^ (8 * n)

/-- The value of n bytes at a place. `acq`: an acquire at core or wider; `plain`: no ORD acquire at any scope. -/
def loadOrdered (c : Ctx) (p : Place) (n : Nat) (acq plain : Bool) (kind va e : Nat) : M Nat := do
  match p.scratch with
  | some k =>
    if (← get).bad p.loc n then stopTrap (xtrap 0x28 0 kind va e)
    loadScratch k p.loc n
  | none =>
    askLoad c (p.words n) n acq plain kind va e
    takeBytes c p n acq

/-- A plain load, or an acquire at core or wider. -/
def loadBytes (c : Ctx) (p : Place) (n : Nat) (acq : Bool) (kind va e : Nat) : M Nat := loadOrdered c p n acq (!acq) kind va e

/-! Stores. -/

/-- The index of a context tag in a core's table, taken if there is room (R172). When an entry becomes free again the spec does not
say: the model keeps every entry while the core is in service, so later tags carry index 15 (log 107). -/
def Core.tagIndex (c : Core) (t : DWord) : Core × Nat :=
  match c.tags.find? (fun x => x.2 == t) with
  | some x => (c, x.1)
  | none =>
    match NMap.firstFree c.tags 15 0 with
    | some i => ({ c with tags := NMap.set c.tags i t }, i)
    | none => (c, 15)

/-- A word written in an L1 (R155): registered words stay so, others go pending. -/
def Core.storeWord (c : Core) (w : Nat) (v : Word) (key : Nat) (t : DWord) : Core :=
  let (c, i) := c.tagIndex t
  let l := NMap.getD c.l1 (w / 32) {}
  let held := l.words.any (fun x => x.2.st != .unreg)
  let st := match NMap.get? l.words (w % 32) with
    | some x => if x.st = .reg then L1State.reg else .pending
    | none => .pending
  c.setL1Line (w / 32) { l with key := key, tag := if held && l.tag != i then 15 else i, whole := 0, words := NMap.set l.words (w % 32) ⟨st, v⟩ }

/-- Bytes of a word replaced: n bytes from byte i. -/
def mergeWord (old : Word) (i n v : Nat) : Word :=
  let m := (2 ^ (8 * n) - 1) * 2 ^ (8 * i)
  (old &&& ~~~(BitVec.ofNat 32 m)) ||| BitVec.ofNat 32 (v % 2 ^ (8 * n) * 2 ^ (8 * i))

/-- U of a word is set (R169). -/
def markU (w : Nat) (s : State) : State :=
  let r := s.lineRec (w / 32)
  s.setLine (w / 32) { r with u := r.u ||| wordBit w }

/-- A word written in an L1, which makes room for its line first (R156). -/
def storeL1 (c w : Nat) (v : Word) (key : Nat) (tag : DWord) (s : State) : State :=
  (makeL1Room c (w / 32) s).modCore c (·.storeWord w v key tag)

/-- A word written and its registration waited for: the home records it before the access ends. -/
def storeNow (h w : Nat) (v : Word) (key : Nat) (tag : DWord) (relaxed : Bool) : M Unit := do
  if (← get).claimHeld (.core h) w then stopWait (.held (4 * w))
  modify (storeL1 h w v key tag)
  modify (registerWord h w relaxed)

/-- A registration sent. -/
def sendReg (h w : Nat) (relaxed : Bool) (n : Nat) (s : State) : State :=
  s.modCore h fun k => { k with regq := k.regq ++ [⟨w, relaxed, n⟩] }

/-- A relaxed store to a word whose registration is on its way makes that registration a relaxed one (R169). -/
def noteRelaxed (h w : Nat) (s : State) : State :=
  s.modCore h fun k => { k with regq := k.regq.map (fun p => if p.word = w then { p with relaxed := true } else p) }

/-- One word of a registered-policy store (R155): bytes i to i + n - 1 of word w. Part of a word is merged over the value that the home
returns with the grant also where the L1 holds an unregistered copy, which another core's store of other bytes may have left behind
(R388; log 133). -/
def storeWordReg (c : Ctx) (p : Place) (relaxed : Bool) (w i n v : Nat) : M Unit := do
  let s ← get
  let h := s.holder c.core (w / 32)
  let tag := (s.seq c.seq).ctxtag
  match ((s.core h).l1Word w).filter (·.st != .unreg) with
  | some x =>
    let new := mergeWord x.val i n v
    if x.st = .reg then
      modify (storeL1 h w new p.key tag)
      if relaxed then modify (markU w)
    else if p.chk then storeNow h w new p.key tag relaxed
    else
      modify (storeL1 h w new p.key tag)
      if relaxed then modify (noteRelaxed h w)
  | none =>
    if n = 4 && !p.chk then
      modify (storeL1 h w (BitVec.ofNat 32 v) p.key tag)
      modify (sendReg h w relaxed c.seq)
    else
      modify (readyUnder p.mat (4 * w))
      modify (recallWord w)
      let old := homeValue p.mat w (← get)
      storeNow h w (mergeWord old i n v) p.key tag relaxed

/-- One word of a write-through (R154, R156): the core's own unregistered copy is invalidated. -/
def storeWordThrough (c : Ctx) (p : Place) (w i n v : Nat) : M Unit := do
  let h := (← get).holder c.core (w / 32)
  if p.plain then modify (hostTakesLine (w / 32))
  modify (homeWrite p.mat (4 * w + i) n v)
  modify fun s => s.modCore h (·.dropL1Word w)

/-- Whether a store to a word goes to its home before it performs. One to a word that the core holds registered performs in the L1, and
so does one to a word whose registration is on its way, but on a page with CHK = 1 (R155, R169). -/
def State.storeAsks (s : State) (c : Ctx) (x : HomeWord) : Bool :=
  x.place.cp != 0 ||
    match (s.core (s.holder c.core (x.word / 32))).l1Word x.word with
    | some k => !(k.st == .reg || (k.st == .pending && !x.place.chk))
    | none => true

/-- Words about to be stored to by one element: every check of R192 before the first is written. `relaxed`: not a release store. -/
def askStore (c : Ctx) (ws : List HomeWord) (relaxed : Bool) (kind va e : Nat) : M Unit := do
  forEach ws fun x => dropForeign c x.place x.word
  ownStoresFirst c ((ws.filter (fun x => x.place.cp != 0)).map (·.word))
  let s ← get
  let home := ws.filter (s.storeAsks c)
  forEach home fun x => modify (settle (4 * x.word) 4)
  checkWords c relaxed home kind va e

/-- The pieces of n bytes at a location, word by word: word, first byte in it, length, value. -/
def pieces (loc n v : Nat) : List (Nat × Nat × Nat × Nat) :=
  (wordsOf loc n).map (fun w =>
    let lo := Max.max loc (4 * w)
    let hi := Min.min (loc + n) (4 * w + 4)
    (w, lo - 4 * w, hi - lo, v / 2 ^ (8 * (lo - loc)) % 2 ^ (8 * (hi - lo))))

/-- n bytes stored at a place. -/
def storeBytes (c : Ctx) (p : Place) (n v : Nat) (relaxed : Bool) (kind va e : Nat) : M Unit := do
  match p.scratch with
  | some k =>
    if (← get).bad p.loc n then stopTrap (xtrap 0x28 0 kind va e)
    modify (settleScratch k p.loc n)
    modify fun s => { s with mem := s.mem.writeLe p.loc n v }
  | none =>
    let ps := pieces p.loc n v
    let s ← get
    if p.cp != 0 || ps.any (fun x => s.ownerOf x.1 != some (.core (s.holder c.core (x.1 / 32)))) then modify (noteRequest c n)
    askStore c (p.words n) relaxed kind va e
    forEach ps fun (w, i, k, v) => if p.cp == 0 then storeWordReg c p relaxed w i k v else storeWordThrough c p w i k v

/-! Acquire and release by a sequencer. -/

/-- Registered words of the host windows go home at a release at sys (R386). -/
def hostHome (c : Nat) (s : State) : State :=
  ((s.l1Cores c).foldl (fun s k =>
    (((s.core k).l1.map (·.1)).filter (fun l => isHost (128 * l))).foldl (fun s l => writeHomeLine k l true s) s) s)

/-- A registration of a core that is on its way. -/
def State.unacked (s : State) (c : Nat) : Option PendReg := ((s.l1Cores c).map (fun k => (s.core k).regq)).flatten.head?

/-- Every store of the sequencer's core is acknowledged (R160). One that its home holds back (R166) is waited for. -/
def storesAcked : M Unit := do
  let c := coreOf (← me)
  modify (drainCore c)
  match (← get).unacked c with
  | some p => stopWait (.held (4 * p.word))
  | none => pure ()

/-- A release at a scope by the sequencer (R160). At sys it also waits for the sequencer's remote copies (R386). -/
def release (sc : Scope) : M Unit := do
  let n ← me
  let c := coreOf n
  if sc == .sys && (← get).engines.any (fun x => x.2.ctx.seq == n && x.2.kind == .rcopy) then stopWait .engines
  if sc != .seq then storesAcked
  modify (releaseL1 c sc)
  if sc == .sys then modify (hostHome c)

/-- An acquire at a scope by the sequencer (R158). -/
def acquire (sc : Scope) : M Unit := do
  let c := coreOf (← me)
  modify (acquireL1 c sc)

end Sys2Proof.Machine
end

