-- ==== Sys2Proof/Machine/Control.lean ====
section
/-! DEFINITION. Branches, calls, loops, `strip`, forked sequencers and the abort line (13 R338 to R344), and the system
instructions that need no memory (R346, R347, R410, R411). -/

namespace Sys2Proof.Machine

/-- The target of a B-form tail (R19). -/
def Seq.branchTarget (q : Seq) (disp : BitVec 11) (head : BitVec 5) : Pc :=
  (lineOf q.pc + disp.signExtend 50) ++ head.setWidth 6

def myTarget (o : BArgs) : M Pc := do return (← mySeq).branchTarget o.disp o.head

/-- `br` (R26, R338): D[3:0] names the predicate, D[5] inverts. -/
def execBr (o : BArgs) (s : State) : Result :=
  execSeq (do
    let t ← myTarget o
    let p ← readP (o.d.toNat % 16)
    return if p != o.d.getLsbD 5 then .goto t else .next) s

def execJ (o : BArgs) (s : State) : Result := execSeq (do return .goto (← myTarget o)) s

/-- The next PC as a link value (R338). -/
def linkValue : M DWord := do return (← mySeq).nextPc.setWidth 64

def execJl (o : BArgs) (s : State) : Result :=
  execSeq (do
    writeS o.d (← linkValue)
    return .goto (← myTarget o)) s

def execJlr (o : RArgs) (s : State) : Result :=
  execSeq (do
    let t ← readS o.sa
    writeS o.d (← linkValue)
    return .goto (t.setWidth 56)) s

def execJr (o : RArgs) (s : State) : Result := execSeq (do return .goto ((← readS o.sa).setWidth 56)) s

/-! The abort line (R343, R344). -/

/-- What a sampling finds. In the first 64 cycles it may find the line either way: a free value (log 28); but the sequencer that
raised it finds it, `abchk` apart (R344). -/
def sampleLine (abchk : Bool) : M Bool := do
  let q ← mySeq
  let n ← me
  match q.launch with
  | none => return false
  | some l =>
    let s ← get
    match NMap.get? (s.cluster (clusterOf n)).abort l with
    | none => return false
    | some (found, born, raiser) =>
      if found || born + 64 ≤ s.cycle then return true
      else
        let k ← freshFree
        if (raiser == q.uid && !abchk) || Config.abortSeen k then
          modify fun s => s.modCluster (clusterOf n) fun c => { c with abort := NMap.set c.abort l (true, born, raiser) }
          return true
        else return false

/-- A sampling instruction that finds the line raised is not performed: the sequencer ends with code 1 (R344). -/
def sampleAbort : M Unit := do
  if ← sampleLine false then throw (.ends 1)

/-- `abort`: a release at clu, then the line of the launch on this cluster. -/
def execAbortLine (_o : RArgs) (s : State) : Result :=
  execNext (do
    release .clu
    let n ← me
    let q ← mySeq
    match q.launch with
    | none => pure ()
    | some l => modify fun s => s.modCluster (clusterOf n) fun c =>
        if (NMap.get? c.abort l).isSome then c else { c with abort := NMap.set c.abort l (false, s.cycle, q.uid) }) s

def execAbchk (o : RArgs) (s : State) : Result := execNext (do writeP o.d (← sampleLine true)) s

/-! Loops (R339). -/

/-- The loop-stack trap: TVAL[16] = 1 beside the head. -/
def loopTrap (q : Seq) : Trap := { cause := 0x01, tval := q.head.setWidth 64 ||| 0x10000, estart := some 0 }

def execLoop (o : BArgs) (s : State) : Result :=
  execSeq (do
    let n ← readReg o.d
    let q ← mySeq
    let exit := q.branchTarget o.disp o.head
    if n = 0 then return .goto exit
    if 6 ≤ q.loops.length then stopTrap (loopTrap q)
    modMe fun q => { q with loops := ⟨q.nextPc, exit, n⟩ :: q.loops }
    return .next) s

def execEndl (s : State) : Result :=
  execSeq (do
    let q ← mySeq
    match q.loops with
    | [] => stopTrap (loopTrap q)
    | l :: rest =>
      sampleAbort
      if 1 < l.count then
        modMe fun q => { q with loops := { l with count := l.count - 1 } :: rest }
        return .loopTo l.start
      else
        modMe fun q => { q with loops := rest }
        return .loopTo l.exit) s

def execBrkl (s : State) : Result :=
  execSeq (do
    let q ← mySeq
    match q.loops with
    | [] => stopTrap (loopTrap q)
    | l :: rest =>
      modMe fun q => { q with loops := rest }
      return .goto l.exit) s

/-! strip (R340). -/

/-- VTYPE fields (R247). -/
def Seq.ill (q : Seq) : Bool := q.vtype.getLsbD 31
def Seq.sewCode (q : Seq) : Nat := (q.vtype.extractLsb' 0 3).toNat
def Seq.lbx (q : Seq) : Nat := (q.vtype.extractLsb' 3 3).toNat
def Seq.lby (q : Seq) : Nat := (q.vtype.extractLsb' 6 3).toNat
def Seq.lbz (q : Seq) : Nat := (q.vtype.extractLsb' 9 3).toNat
def Seq.claim (q : Seq) : Nat := (q.vtype.extractLsb' 16 5).toNat

/-- BX·BY·BZ. -/
def Seq.volume (q : Seq) : Nat := 2 ^ (q.lbx + q.lby + q.lbz)

/-- Pointer j of a `strip` advances by C elements of 2^SZ[2j+1:2j] bytes. -/
def stripPointer (o : StripArgs) (c j : Nat) : M Unit := do
  let r := o.p + BitVec.ofNat 6 j
  let v ← readReg r
  writeS r (v + BitVec.ofNat 64 (c * 2 ^ bits o.sz.toNat (2 * j) 2))

def execStrip (o : StripArgs) (s : State) : Result :=
  execSeq (do
    let n ← readReg o.d
    let ps := if o.p = 0 then [] else List.range (o.n.toNat + 1)
    -- every pointer is full before any is written
    forEach ps fun j => needWritable .scalar (o.p + BitVec.ofNat 6 j)
    let q ← mySeq
    let c := q.slen
    let r := n.toNat - c
    forEach ps (stripPointer o c)
    writeS o.d (BitVec.ofNat 64 r)
    let vl := if q.ill then 0 else Min.min r q.volume
    modMe fun q => { q with vl := vl, slen := vl }
    return if 0 < r then .goto (q.branchTarget o.disp o.head) else .next) s

/-! fork and rdv (R341, R342). -/

/-- The free sequencers of a core. -/
def State.freeSiblings (s : State) (core : Nat) : List Nat := (upFrom (4 * core) 4).filter (fun n => (s.seq n).phase == .free)

/-- The sibling's state (R341). -/
def Seq.sibling (q : Seq) (n uid : Nat) (d : Reg) (t : Pc) : Seq :=
  let k : Seq :=
    { phase := .running, uid := uid, pc := t, cameFrom := some q.pc, s := q.s, p := q.p, fsr := q.fsr, queues := q.queues,
      resvid := q.resvid, wid := q.wid, widfmt := q.widfmt, ctxtag := q.ctxtag, tvec := q.tvec, tsave := q.tsave,
      launch := q.launch, work := q.work, stage := q.stage, group := q.group, tenant := q.tenant,
      tstat := mkTstat (q.tstat.extractLsb' 10 2) false false false false false q.priv, xlroot := q.xlroot, asid := q.asid,
      parent := some q.uid }
  (k.setScalar d (BitVec.ofNat 64 (2 ^ 62 + n % 4))).reseed

def execFork (o : BArgs) (s : State) : Result :=
  execNext (do
    modMe Seq.completeAll
    let q ← mySeq
    match (List.range 64).find? (fun r => q.sEmpty.getLsbD r) with
    | some r => stopWait (.reg .scalar (BitVec.ofNat 6 r))
    | none => pure ()
    release .core
    let n ← me
    match ← pickFree ((← get).freeSiblings (coreOf n)) with
    | none => writeS o.d (BitVec.ofNat 64 (2 ^ 63))
    | some k =>
      let u := (← get).nextUid
      modify fun s => { (s.setSeq k (q.sibling n u o.d (q.branchTarget o.disp o.head))).noteRan k with nextUid := u + 1 }
      modMe fun q => { q with children := q.children.filter (fun c => c.seqid != k % 4) ++ [⟨k % 4, u, none⟩] }
      writeS o.d (BitVec.ofNat 64 (k % 4))) s

def execRdv (o : RArgs) (s : State) : Result :=
  execNext (do
    let a ← readS o.sa
    let q ← mySeq
    match q.children.find? (fun c => c.seqid == a.toNat) with
    | none => writeS o.d (BitVec.ofNat 64 (2 ^ 63))
    | some c =>
      match c.code with
      | none => stopWait (.rdv c.seqid)
      | some k =>
        needWritable .scalar o.d
        acquire .core
        modMe fun q => { q with children := q.children.filter (fun x => x.seqid != c.seqid) }
        writeS o.d (BitVec.ofNat 64 k)) s

/-! System instructions. -/

def execNop (s : State) : Result := execNext (pure ()) s

/-- `trap` (R410): TPC is the next instruction. -/
def execTrap (o : RArgs) (s : State) : Result :=
  execSeq (do
    let v ← readS o.sa
    let q ← mySeq
    stopTrap { cause := 0x20, code := o.mod, tval := v, estart := some 0, tpc := some q.nextPc }) s

/-- `sret` (R411). It waits for every older instruction, an `arrive.remote` that another device has not answered among them, as
the entry of a trap does (R44, R406). -/
def execSret (s : State) : Result :=
  execSeq (do
    let q ← mySeq
    if !q.inh then stopTrap (illegalHead q.head)
    if (← get).arrivesRemote q.uid then stopWait .engines
    modMe fun q => q.completeAll.sret
    return .stopped) s

/-! Control registers (R38, R39, R346). -/

/-- Registers that user code may read. -/
def crUserReadable (n : Nat) : Bool := n != 0x020 && n != 0x021 && n != 0x030

/-- Registers that user code may write. -/
def crUserWritable (n : Nat) : Bool := n ∈ [0x000, 0x005, 0x018, 0x019, 0x01A]

/-- The privilege trap of `crd` and `cwr`: TVAL is the register number (R39). -/
def crTrap (n : Nat) : Trap := { cause := 0x04, tval := BitVec.ofNat 64 n, estart := some 0 }

/-- EVQ (R242). -/
def EventQueue.reg (e : EventQueue) : DWord := BitVec.ofNat 64 (Min.min e.drops 65535 * 65536 + e.recs.length)

/-- A control register as `crd` reads it (R38). -/
def State.readCr (s : State) (n r : Nat) : DWord :=
  let q := s.seq n
  let d := s.die (dieOf n)
  match r with
  | 0x000 => q.estart.setWidth 64
  | 0x001 => q.vtype
  | 0x002 => BitVec.ofNat 64 q.vl
  | 0x003 => BitVec.ofNat 64 q.mvl
  | 0x004 => BitVec.ofNat 64 (d.ln * 2 ^ 32) ||| d.gen.setWidth 64
  | 0x005 => q.fsr
  | 0x008 | 0x009 | 0x00A | 0x00B => NMap.getD q.bfd (r - 8) 0
  | 0x00C | 0x00D | 0x00E | 0x00F => NMap.getD q.halo (r - 12) 0
  | 0x010 => q.wid
  | 0x011 => q.widfmt
  | 0x012 => BitVec.ofNat 64 (n % 4)
  | 0x013 => BitVec.ofNat 64 (n / 4)
  | 0x014 => q.ctxtag
  | 0x018 => q.tcause
  | 0x019 => q.tval
  | 0x01A => q.tpc.setWidth 64
  | 0x01B => q.tstat.setWidth 64
  | 0x01C => q.tvec.setWidth 64
  | 0x01D => q.tsave
  | 0x020 => q.xlroot
  | 0x021 => q.asid.setWidth 64
  | 0x022 => q.evq.reg
  | 0x023 => q.resvid
  | 0x024 => q.mtcfg
  | 0x030 => d.sventry.setWidth 64
  | _ => 0

/-- `crd`. -/
def execCrd (o : RArgs) (s : State) : Result :=
  execNext (do
    let q ← mySeq
    let n := o.mod.toNat
    if !q.priv && !crUserReadable n then stopTrap (crTrap n)
    writeS o.d ((← get).readCr (← me) n)) s

/-- What every `cwr` does first: the privilege check, then its source. -/
def cwrSource (o : RArgs) : M DWord := do
  let q ← mySeq
  if !q.priv && !crUserWritable o.mod.toNat then stopTrap (crTrap o.mod.toNat)
  readS o.sa

/-- A write to CTXTAG, TCAUSE, TVAL, TPC, TVEC or TSAVE (R408): reserved bits are ignored. -/
def Seq.writeCr (q : Seq) (r : Nat) (v : DWord) : Seq :=
  match r with
  | 0x014 => { q with ctxtag := v }
  | 0x018 => { q with tcause := v &&& 0x3FFFF }
  | 0x019 => { q with tval := v }
  | 0x01A => { q with tpc := v.setWidth 56 }
  | 0x01C => { q with tvec := v.setWidth 56 }
  | 0x01D => { q with tsave := v &&& 0x00FFFFFFFFFFF000 }
  | _ => q

def execCwr (o : RArgs) (s : State) : Result :=
  execNext (do
    let v ← cwrSource o
    modMe (·.writeCr o.mod.toNat v)) s

/-- FSR (R82): every field, and the generators reseeded. -/
def execFsrWrite (o : RArgs) (s : State) : Result :=
  execNext (do
    let v ← cwrSource o
    modMe fun q => { q with fsr := fsrValue v }.reseed) s

/-- ESTART (R408). -/
def execEstartWrite (o : RArgs) (s : State) : Result :=
  execNext (do
    let v ← cwrSource o
    modMe fun q => { q with estart := v.setWidth 40 }) s

/-- What a write to XLROOT keeps: reserved bits read 0 (R107). -/
def xlrootValue (v : DWord) : DWord := v &&& 0x000FFFFFFFFFC7FF

/-- XLROOT (R107, R108); the next head is fetched under it, so its line is entered afresh. -/
def execXlrootWrite (o : RArgs) (s : State) : Result :=
  execSeq (do
    let v ← cwrSource o
    modMe fun q => { q with xlroot := xlrootValue v }.advanceAnew
    return .stopped) s

/-- ASID (R107, R108). -/
def execAsidWrite (o : RArgs) (s : State) : Result :=
  execSeq (do
    let v ← cwrSource o
    modMe fun q => { q with asid := v.setWidth 16 }.advanceAnew
    return .stopped) s

/-- SVENTRY of the die (R409). -/
def execSventryWrite (o : RArgs) (s : State) : Result :=
  execNext (do
    let v ← cwrSource o
    let n ← me
    modify fun s => s.modDie (dieOf n) fun d => { d with sventry := v.setWidth 56 }) s

/-- TSTAT (R408): DBL, HOLD, PINH, INH, PPRIV and PRIV; POL is read only. -/
def execTstatWrite (o : RArgs) (s : State) : Result :=
  execNext (do
    let v ← cwrSource o
    modMe fun q => { q with tstat := mkTstat (q.tstat.extractLsb' 10 2) (v.getLsbD 9) (v.getLsbD 8) (v.getLsbD 3)
                                       (v.getLsbD 2) (v.getLsbD 1) (v.getLsbD 0) }) s

end Sys2Proof.Machine
end

