-- ==== Sys2Proof/Machine/Operands.lean ====
section
/-! DEFINITION. Operand forms: element loops from ESTART, active elements, the type a brick instruction depends on, element
addresses in memory (07 R181, R182, R187), and the scalar memory operand. -/

namespace Sys2Proof.Machine

/-- A step of element e: a trap there that names no stop point names e (R102, R263). -/
def atElement {α : Type} (e : Nat) (m : M α) : M α :=
  tryCatch m fun st => do
    match st with
    | .trap t => throw (.trap { t with estart := some (t.estart.getD e) })
    | st => throw st

/-- A stop found while something of element e is done reports e as its stop point, whatever it named (R191). -/
def stopAt {α : Type} (e : Nat) (m : M α) : M α :=
  tryCatch m fun st => do
    match st with
    | .trap t => throw (.trap { t with estart := some e })
    | st => throw st

/-- ESTART := 0 at the end of an instruction of the first two classes (R470). -/
def clearEstart : M Unit := modMe fun q => { q with estart := 0 }

/-- The element width of VTYPE in bits. -/
def Seq.sew (q : Seq) : Nat := 8 * 2 ^ (q.sewCode % 4)

/-- Ill-formed type (R188, R248): TVAL is VTYPE, ESTART unchanged. -/
def illFormedType (q : Seq) : Trap := { cause := 0x05, tval := q.vtype }

/-- An instruction that depends on VTYPE. -/
def needVtype : M Unit := do
  let q ← mySeq
  if q.ill then stopTrap (illFormedType q)

/-- One whose TY must have the width of SEW as well. An ill-formed type is reported before an empty source with W = 1 (DESIGN CHOICE:
log 132). -/
def needType (ty : Ty) : M Unit := do
  let q ← mySeq
  if q.ill || ty.width != q.sew then stopTrap (illFormedType q)

/-- Whether element e is active under a mask (R188, R264). -/
def Seq.active (q : Seq) (me : Bool) (msel : BitVec 3) (e : Nat) : Bool := !me || (q.mask msel.toNat).getLsbD e

/-- The active elements from ESTART to VL - 1, ascending. -/
def Seq.activeFrom (q : Seq) (me : Bool) (msel : BitVec 3) : List Nat :=
  let e0 := q.estart.toNat
  (upFrom e0 (q.vl - e0)).filter (q.active me msel)

/-- Coordinates of an element in the brick's shape (R187). -/
def Seq.coord (q : Seq) (e : Nat) : Nat × Nat × Nat :=
  (e % 2 ^ q.lbx, e / 2 ^ q.lbx % 2 ^ q.lby, e / 2 ^ (q.lbx + q.lby))

/-! Element addresses. -/

/-- The memory width in bits of an MW code for a type (R181). -/
def mwBits (mw : Nat) (ty : Ty) : Nat :=
  match mw with
  | 0 => ty.width
  | 1 => 8 | 2 => 16 | 3 => 32 | 4 => 64 | 5 => 4
  | _ => 3

/-- Elements in a 64 KiB unit (R181). -/
def epp (w : Nat) : Nat := elementsPer64K w

/-- Whether a base is aligned for a memory width (R182). -/
def baseAligned (va w : Nat) : Bool :=
  let o := va % 65536
  if w = 4 then true else if w = 3 then o % 64 == 0 else o % (w / 8) == 0

/-- `ea_of` (R182). -/
def eaOf (va w : Nat) : Nat :=
  let u := va / 65536 % 2 ^ 40
  let o := va % 65536
  if w = 4 then u * epp w + 2 * o else if w = 3 then u * epp w + 160 * (o / 64) else u * epp w + o / (w / 8)

/-- The VA of an element: its unit and the first byte of its place in logical order (R103, R182). Under GEO col its slot lies elsewhere
in the page; R103 asks for "the element's VA", and the model takes the one of the element's address (log 13). -/
def eaVa (ea w : Nat) : Nat :=
  ea / epp w % 2 ^ 40 * 65536 + (slotPlace w (ea % epp w)).1

/-- The page formats that a memory width may touch besides raw (R181). -/
def mwFormat (w fmt : Nat) : Bool :=
  match w with
  | 8 => fmt ∈ [5, 6, 8]
  | 16 => fmt ∈ [3, 4, 11]
  | 32 => fmt ∈ [2, 12]
  | 64 => fmt ∈ [1, 13]
  | 4 => fmt ∈ [7, 9]
  | _ => fmt == 10

/-- A leaf that an element of width w and type ty may not touch (R181, R194). -/
def badFormat (w : Nat) (ty : Ty) (l : Leaf) : Bool :=
  (if l.pte.fmt = 0 then w != ty.width else !mwFormat w l.pte.fmt) || (l.pte.ic && l.pte.scf != 0)

/-- The signed sum of an element address, modulo 2^40·epp (R187). -/
def eaSum (w base : Nat) (off : Int) : Nat := ((base + off) % (2 ^ 40 * epp w : Nat)).toNat

/-- How a brick memory instruction forms its addresses (R187). -/
inductive AddrForm where
  | unit
  | shaped (py pz : Nat)
  | strided (sx sy sz : Int)
  | indexed (b : Nat)
deriving DecidableEq, Repr

/-- The offset of element e from the base, in elements. -/
def Seq.elemOffset (q : Seq) (f : AddrForm) (e : Nat) : Int :=
  let (x, y, z) := q.coord e
  match f with
  | .unit => (e : Int)
  | .shaped py pz => ((x + py * y + pz * z : Nat) : Int)
  | .strided sx sy sz => x * sx + y * sy + z * sz
  | .indexed b => sext q.sew (q.elem b e).toNat

/-- The buffer that serves a form (R100). -/
def AddrForm.buffer : AddrForm → Buffer
  | .unit => .unit
  | .shaped _ _ | .strided _ _ _ => .l1
  | .indexed _ => .gather

/-- The misaligned fault (R182, R184). -/
def misaligned (kind va e : Nat) : Trap := xtrap 0x0D 0 kind va e

/-- A brick source: full, by its W bit (R35). -/
def needBrick (a : Src) : M Unit := needFull .brick a

/-- A brick destination. -/
def needBrickDest (d : Reg) : M Unit := needWritable .brick d

/-- A long-latency brick result whose elements stand: the brick is empty, its slivers pending (R34, R36). -/
def brickPending (d : Reg) (es : List Nat) : M Unit := do
  let t := (← get).cycle
  modMe fun q =>
    { (q.setEmpty .brick d) with
      outst := q.outst ++ [(.brick, d, t)]
      pend := es.foldl (fun p e => NMap.set p (1024 * d.toNat + e / 8) ()) q.pend }

end Sys2Proof.Machine
end

