-- ==== Sys2Proof/Machine/LoadStore.lean ====
section
/-! DEFINITION. Loads and stores between memory and registers (07 R183 to R195). -/

namespace Sys2Proof.Machine

/-! Scalar (R183 to R185). -/

/-- Byte width of a scalar type code (R41). -/
def scalarBytes (ty : Nat) : Nat :=
  match ty with
  | 0 | 4 => 1
  | 1 | 5 => 2
  | 2 | 6 => 4
  | _ => 8

/-- The address of a scalar access (R184). -/
def scalarAddr (o : LArgs) : M Nat := do
  let a ← readS o.sa
  return (a + o.imm.signExtend 64).toNat % 2 ^ 56

/-- A scalar store to a scaled page raises partial block, found by the run-ahead checks, before anything of the page changes (R184,
R192). -/
def scalarStoreTests : LeafTests := ⟨fun _ => false, fun l => if l.pte.scf != 0 then some 0x0C else none⟩

/-- The place of a scalar store. -/
def storePlace (c : Ctx) (va n : Nat) : M Place := do return (← resolveFor c .l1 kWrite va n 0 scalarStoreTests).2

def execLd (o : LArgs) (s : State) : Result :=
  execWhole (do
    let a ← scalarAddr o
    needWritable .scalar o.d
    let n := scalarBytes o.ty.toNat
    if a % n ≠ 0 then stopTrap (misaligned kRead a 0)
    let c ← myCtx
    let (_, p) ← resolve c .l1 kRead a n 0
    let acq := o.ord == .acq && o.scope != .seq
    if o.ord == .acq then acquire o.scope
    let v ← loadOrdered c p n acq (o.ord != .acq) kRead a 0
    writeLong o.d (if o.ty.toNat < 4 then BitVec.ofInt 64 (sext (8 * n) v) else BitVec.ofNat 64 v)) s

def execSt (o : LArgs) (s : State) : Result :=
  execWhole (do
    let a ← scalarAddr o
    let v ← readReg o.d
    let n := scalarBytes o.ty.toNat
    if a % n ≠ 0 then stopTrap (misaligned kWrite a 0)
    let c ← myCtx
    let p ← storePlace c a n
    if o.ord == .rel then release o.scope
    storeBytes c p n (v.toNat % 2 ^ (8 * n)) (o.ord == .rlx) kWrite a 0) s

/-! Elements of pages. -/

/-- Where the bits of an element lie: the leaf it was found through (none for a scratchpad window), its VA, the VA of its slot
and the bit within the first byte, its index in the page. -/
structure ElemSpot where
  leaf : Option Leaf
  va : Nat
  slotVa : Nat
  bitPos : Nat
  index : Nat
deriving DecidableEq, Repr

/-- Bytes that hold w bits from a bit position. -/
def spanBytes (w bitPos : Nat) : Nat := (bitPos + w + 7) / 8

/-- Find and check an element's page, and on a scaled page its scale byte (R182, R188, R192): the run-ahead part of an access. -/
def spotOf (c : Ctx) (f : AddrForm) (kind w : Nat) (ty : Ty) (ea e : Nat) : M ElemSpot := do
  let va := eaVa ea w
  if inWindow va then
    -- a window is a raw page; an address in neither window has no format (R221)
    if (windowTarget c.core va).isSome && w != ty.width then stopTrap (xtrap 0x0E 0 kind va e)
    let _ ← windowPlace c kind va (w / 8) e
    return ⟨none, va, va, 0, 0⟩
  else
    let l ← translateFor c f.buffer kind va (spanBytes w 0) e ⟨badFormat w ty, fun _ => none⟩
    let size := 2 ^ levelShift l.level
    let base := va / size * size
    let n := (va / 65536 * 65536 - base) / 65536 * epp w + ea % epp w
    if l.pte.scf = 0 then
      let (byte, bp) := slotPlace w n
      return ⟨some l, va, base + byte, bp, n⟩
    let (b, j) := blockOf l.pte.geo n
    let (byte, bp) := slotPlace w (16 * b + j)
    if !physicalOk (← get) c.tenant (l.pte.scalePa + b) 1 kind l.pte.key then stopTrap (xtrap 0x09 l.level kind va e)
    return ⟨some l, va, base + byte, bp, n⟩

/-- A translation's trap names the element's VA, wherever its slot lies (R103). -/
def namedBy {α : Type} (va : Nat) (m : M α) : M α :=
  tryCatch m fun st => do
    match st with
    | .trap t => throw (.trap { t with tval := tvalOf (bits t.tval.toNat 59 2) (bits t.tval.toNat 56 2) va })
    | st => throw st

/-- The place of a spot's bytes. -/
def spotPlace (c : Ctx) (f : AddrForm) (kind n e : Nat) (x : ElemSpot) : M Place := do
  match x.leaf with
  | none => windowPlace c kind x.slotVa n e
  | some l => namedBy x.va (placeOf c f.buffer kind x.slotVa n e 3 l)

/-- The place of a scale byte (R73): under the page's key and policy, at its own physical address. -/
def scalePlace (l : Leaf) (b : Nat) : M Place := do
  return placeBacked (← get) l.pte l.level (l.pte.scalePa + b) l.pte.key

/-- The value of an element of a scaled page: its code and its block's scale byte, loaded as one element, whose first faults (R192) are
owner lost and the memory-model exception on either of them, before a lease that is lost. -/
def loadScaled (c : Ctx) (f : AddrForm) (w : Nat) (fmt : NFmt) (l : Leaf) (x : ElemSpot) (e : Nat) : M Ex := do
  let n := spanBytes w x.bitPos
  let sp ← scalePlace l (blockOf l.pte.geo x.index).1
  let s ← get
  if l.pte.kind == 2 then checkOwners c true (s.loadAsks c false ((leasedPlace s l x.slotVa).words n ++ sp.words 1)) kRead x.va e
  let p ← spotPlace c f kRead n e x
  askLoad c (p.words n ++ sp.words 1) (n + 1) false true kRead x.va e
  let bits := (← takeBytes c p n false) / 2 ^ x.bitPos % 2 ^ w
  let code ← takeBytes c sp 1 false
  return if code = 0xFF then .nan false else (fmt.value bits).mul (scaleValue l.pte.scf code)

/-- One element of a load: the bits in TY and the flags of the single rounding (R74, R188). -/
def loadElem (c : Ctx) (f : AddrForm) (w : Nat) (ty : Ty) (mode : Rnd) (ea e : Nat) : M (Nat × Flags) := do
  let x ← spotOf c f kRead w ty ea e
  let n := spanBytes w x.bitPos
  let load : M Nat := do
    let p ← spotPlace c f kRead n e x
    return (← loadBytes c p n false kRead x.va e) / 2 ^ x.bitPos % 2 ^ w
  match x.leaf.bind (fun l => (NFmt.ofCode l.pte.fmt).map (fun fmt => (l, fmt))) with
  | none => return (← load, 0)
  | some (l, fmt) =>
    let v ← if l.pte.scf = 0 then do pure (fmt.value (← load)) else loadScaled c f w fmt l x e
    return roundTo (Ty.fmt ty) v mode 0

/-- The base of a brick access, checked at the first active element (R182). -/
def checkBase (kind base w : Nat) (es : List Nat) : M Unit := do
  match es with
  | e :: _ => if !baseAligned base w then stopTrap (misaligned kind base e)
  | [] => pure ()

/-- A brick load (R188). -/
def brickLoad (o : VArgs) (f : AddrForm) : M Unit := do
  needType o.ty
  let base := (← readS o.sa).toNat % 2 ^ 56
  needBrickDest o.d
  let q ← mySeq
  let w := mwBits (o.vmod.toNat % 8) o.ty
  let es := q.activeFrom o.me o.msel
  checkBase kRead base w es
  let c ← myCtx
  let mode := q.mode o.rnd false
  forEach es fun e => atElement e do
    let ea := eaSum w (eaOf base w) (q.elemOffset f e)
    let (v, fl) ← loadElem c f w o.ty mode ea e
    raiseFlags fl e
    modMe (·.setElem o.d.toNat e (BitVec.ofNat 64 v))
  clearEstart

/-- The pitch register of a shaped form, the three registers of a strided form (R187). -/
def shapedForm (a : Src) : M AddrForm := do
  let v ← readS a
  return .shaped (v.toNat % 2 ^ 32) (v.toNat / 2 ^ 32)

def stridedForm (a : Src) : M AddrForm := do
  let x ← readS a
  let y ← readS ⟨a.reg + 1, a.w⟩
  let z ← readS ⟨a.reg + 2, a.w⟩
  return .strided x.toInt y.toInt z.toInt

def indexedForm (a : Src) : M AddrForm := do
  needBrick a
  return .indexed a.reg.toNat

def execVldUnit (o : VArgs) (s : State) : Result := execWhole (brickLoad o .unit) s
/-- With several empty sources marked `!`, the pitch, the strides or the index brick are reported before the base: R35 gives no order
(log 110). -/
def execVldShaped (o : VArgs) (s : State) : Result :=
  execWhole (do
    needType o.ty
    brickLoad o (← shapedForm o.sb)) s
def execVlds (o : VArgs) (s : State) : Result :=
  execWhole (do
    needType o.ty
    brickLoad o (← stridedForm o.sb)) s

/-- A gather is a long-latency producer of its brick (R34). -/
def execVldx (o : VArgs) (s : State) : Result :=
  execWhole (do
    needType o.ty
    let q ← mySeq
    let es := q.activeFrom o.me o.msel
    brickLoad o (← indexedForm o.sb)
    brickPending o.d es) s

/-! Brick stores (R188 to R191). -/

/-- The bits that a store writes for an element on an unscaled page, with its flags (R68, R75). -/
def encodeElem (l : Option Leaf) (ty : Ty) (v : Nat) (mode : Rnd) (r : Nat) : Nat × Flags :=
  match l.bind (fun l => NFmt.ofCode l.pte.fmt) with
  | none => (v, 0)
  | some fmt => roundTo fmt ((Ty.fmt ty).value v) mode r

/-- The generator of element e steps when the mode is stochastic: the state with it stepped, and the draw (R81). -/
def drawFor (mode : Rnd) (e : Nat) : M (Seq × Nat) := do
  let q ← mySeq
  return if mode == .rsr then q.stepGen e else (q, 0)

/-- A drawn generator's step is kept once its element commits. -/
def keepGens (g : Seq) : M Unit := modMe fun q => { q with gens := g.gens }

/-- The checks of every word of an element's store, before any is written (R190). -/
def offer (c : Ctx) (p : Place) (n va e : Nat) : M Unit := do
  if p.scratch.isSome then
    if (← get).bad p.loc n then stopTrap (xtrap 0x28 0 kWrite va e)
  else askStore c (p.words n) true kWrite va e

/-- One element of a store to an unscaled page or a window. Performance faults come before the floating-point trap (R192), so an
unbacked page is materialised, and a copy-on-write page copied, before that trap stops the element (log 109). -/
def storeElem (c : Ctx) (f : AddrForm) (w : Nat) (ty : Ty) (mode : Rnd) (b e ea : Nat) : M Unit := do
  let x ← spotOf c f kWrite w ty ea e
  let q ← mySeq
  let v := (q.elem b e).toNat % 2 ^ ty.width
  let (g, r) ← drawFor mode e
  let (bits, fl) := encodeElem x.leaf ty v mode r
  let p ← spotPlace c f kWrite (w / 8) e x
  if fl &&& q.enables != 0 then do
    offer c p (w / 8) x.va e
    stopTrap (floatTrap fl e)
  storeBytes c p (w / 8) bits true kWrite x.va e
  raiseFlags fl e
  keepGens g

/-- What the run-ahead pipeline finds for an element: its spot, or the trap, with the leaf when that was read (R190). -/
inductive Ahead where
  | spot (x : ElemSpot)
  | fault (t : Trap) (scaled : Bool)
deriving DecidableEq, Repr

/-- Whether a faulting access's leaf is a scaled one: it was read only for the causes that R190 names, and never for an address in a
window, which has none (R221). -/
def faultScaled (c : Ctx) (f : AddrForm) (va : Nat) (t : Trap) : M Bool := do
  if !inWindow va && (t.cause == 0x0E || t.cause == 0x09 || t.cause == 0x0C) then
    let s ← get
    match s.lookup c f.buffer (va % 2 ^ 56) with
    | some x => return Pte.scf x.pte != 0
    | none =>
      let ((r, _), s) := walk c (va % 2 ^ 56) s
      set s
      match r with
      | .ok l => return l.pte.scf != 0
      | .error _ => return false
  else return false

def lookAhead (c : Ctx) (f : AddrForm) (w : Nat) (ty : Ty) (e ea : Nat) : M Ahead :=
  tryCatch (do return .spot (← spotOf c f kWrite w ty ea e)) fun st => do
    match st with
    | .trap t => return .fault t (← faultScaled c f (eaVa ea w) t)
    | st => throw st

def Ahead.scaled : Ahead → Bool
  | .spot x => x.leaf.any (fun l => l.pte.scf != 0)
  | .fault _ s => s

def Ahead.isFault : Ahead → Bool
  | .fault _ _ => true
  | .spot _ => false

/-- The elements looked at, up to and with the first fault. -/
def upToFault : List (Nat × Ahead) → List (Nat × Ahead)
  | [] => []
  | x :: l => if x.2.isFault then [x] else x :: upToFault l

/-- The positions of a group's elements in one block of one page, if the group is whole (R190): the leaf, its VA base, the
block, and the position of each element in ascending order. -/
def blockOfGroup (spots : List ElemSpot) : Option (Leaf × Nat × Nat × List Nat) :=
  match spots with
  | [] => none
  | x :: _ =>
    match x.leaf with
    | none => none
    | some l =>
      let size := 2 ^ levelShift l.level
      let base (y : ElemSpot) : Nat := y.va / size * size
      let bj := spots.map (fun y => blockOf l.pte.geo y.index)
      let b := (blockOf l.pte.geo x.index).1
      let ps := bj.map (·.2)
      if spots.length = 16 && l.pte.scf != 0 && spots.all (fun y => y.leaf.any (fun k => k.entry == l.entry) && base y == base x) &&
          bj.all (fun z => z.1 == b) && (List.range 16).all (fun j => j ∈ ps)
      then some (l, base x, b, ps) else none

/-- Partial block (R190): as the faulting element of R102, with the level of its leaf, or 0 where it has none (R103). -/
def partialBlock (e : Nat) (x : ElemSpot) : Trap := xtrap 0x0C ((x.leaf.map (·.level)).getD 0) kWrite x.va e

/-- The value of a list of w-bit codes packed from the lowest. -/
def packCodes (w : Nat) (l : List Nat) : Nat := l.foldr (fun c acc => acc * 2 ^ w + c) 0

/-- The values at positions 0 to 15, from (position, value) pairs. -/
def byPosition {α : Type} (ps : List Nat) (xs : List α) (d : α) : List α :=
  (List.range 16).map (fun j => ((ps.zip xs).find? (fun x => x.1 == j)).map (·.2) |>.getD d)

/-- Draws of the group's elements in ascending order (R81, R190). -/
def drawGroup (mode : Rnd) (es : List Nat) : M (Seq × List Nat) := do
  let q ← mySeq
  return if mode == .rsr then es.foldl (fun (q, rs) e => let (q, r) := q.stepGen e; (q, rs ++ [r])) (q, [])
    else (q, es.map (fun _ => 0))

/-- The words of one element of a block at VA `byte` and place p. -/
def blockWords (w : Nat) (p : Place) (byte : Nat) (x : ElemSpot) : List HomeWord :=
  { p with loc := p.loc + (x.slotVa - byte) }.words (spanBytes w x.bitPos)

/-- The words that a group's first element stands for: its own, the reserved word of an i3 granule (R72), the scale word. A fault at one of
them is the first element's even where a later element's own word is at fault too, since R190 gives k for each case alone (log 119). -/
def firstWords (w : Nat) (p sp : Place) (byte : Nat) (x : ElemSpot) : List HomeWord :=
  blockWords w p byte x ++ (if w = 3 then { p with loc := p.loc / 64 * 64 + 60 }.words 4 else []) ++ sp.words 1

/-- A whole group is offered (R190), its elements in ascending order. `byte`: the VA of the block; `p`: its place. -/
def offerGroup (c : Ctx) (w : Nat) (p sp : Place) (byte : Nat) (els : List (Nat × ElemSpot)) : M Unit := do
  match els with
  | (e, x) :: rest =>
    askStore c (firstWords w p sp byte x) true kWrite x.va e
    forEach rest fun (e, x) => askStore c (blockWords w p byte x) true kWrite x.va e
  | [] => pure ()

/-- The place of a block of a leased page: what stops the first element stops the group, owner lost and the memory-model exception on
its own words and the scale word before a lease that is lost (R190, R192). -/
def blockPlace (c : Ctx) (f : AddrForm) (w : Nat) (sp : Place) (va n : Nat) (l : Leaf) (els : List (Nat × ElemSpot)) : M Place := do
  match els with
  | (e, x) :: _ =>
    if l.pte.kind == 2 then
      let s ← get
      checkOwners c true ((firstWords w (leasedPlace s l va) sp va x).filter (s.storeAsks c)) kWrite x.va e
      let _ ← spotPlace c f kWrite (spanBytes w x.bitPos) e x
    namedBy x.va (placeOf c f.buffer kWrite va n e 3 l)
  | [] => placeOf c f.buffer kWrite va n 0 3 l

/-- A whole group encoded as one block and written with its scale (R190). -/
def storeGroup (c : Ctx) (f : AddrForm) (w : Nat) (ty : Ty) (mode : Rnd) (b g : Nat) (els : List (Nat × ElemSpot)) (l : Leaf)
    (base blk : Nat) (ps : List Nat) : M Unit := do
  let q ← mySeq
  let es := els.map (·.1)
  let va := (els.head?.map (·.2.va)).getD 0
  let xs := es.map (fun e => (Ty.fmt ty).value ((q.elem b e).toNat % 2 ^ ty.width))
  let (gq, rs) ← drawGroup mode es
  let fmt := (NFmt.ofCode l.pte.fmt).getD .fp4
  let (codes, scale, fl) := encodeBlock fmt l.pte.scf (byPosition ps xs (Ex.zero false)) mode (byPosition ps rs 0)
  let (byte, _) := slotPlace w (16 * blk)
  let n := 16 * w / 8
  let sp ← scalePlace l blk
  let p ← blockPlace c f w sp (base + byte) n l els
  offerGroup c w p sp (base + byte) els
  if fl &&& q.enables != 0 then stopTrap (floatTrap fl (16 * g))
  storeBytes c p n (packCodes w codes) true kWrite va (16 * g)
  if w = 3 then storeBytes c { p with loc := p.loc / 64 * 64 + 60 } 4 0 true kWrite va (16 * g)
  storeBytes c sp 1 scale true kWrite va (16 * g)
  raiseFlags fl (16 * g)
  keepGens gq

/-- An unscaled group of a block store: every element is offered before the first is written (R190, R191). -/
def storePlainGroup (c : Ctx) (f : AddrForm) (w : Nat) (ty : Ty) (mode : Rnd) (b : Nat) (es : List (Nat × Nat)) : M Unit := do
  forEach es fun (e, ea) => do
    let x ← spotOf c f kWrite w ty ea e
    let p ← spotPlace c f kWrite (w / 8) e x
    offer c p (w / 8) x.va e
    let q ← mySeq
    -- an enabled flag stops the group before it writes (R191)
    let (_, r) ← drawFor mode e
    let (_, fl) := encodeElem x.leaf ty ((q.elem b e).toNat % 2 ^ ty.width) mode r
    if fl &&& q.enables != 0 then stopTrap (floatTrap fl e)
  forEach es fun (e, ea) => storeElem c f w ty mode b e ea

/-- One group of a block store, with what the run-ahead pipeline found for its active elements (R190, R191). -/
def blockGroup (c : Ctx) (f : AddrForm) (w : Nat) (ty : Ty) (mode : Rnd) (b g vl e0 : Nat) (els : List (Nat × Nat × Ahead)) :
    M Unit := stopAt (16 * g) do
  match els with
  | [] => pure ()
  | (e, _, .fault t _) :: _ => stopTrap { t with estart := some e }
  | (e, _, .spot x) :: _ =>
    let seen := upToFault (els.map (fun y => (y.1, y.2.2)))
    if seen.any (fun y => y.2.scaled) then
      let spots := els.filterMap (fun y => match y.2.2 with | .spot z => some z | .fault _ _ => none)
      let whole := els.length = 16 && spots.length = 16 && 16 * g + 16 ≤ vl && e0 ≤ 16 * g
      match whole, blockOfGroup spots with
      | true, some (l, base, blk, ps) => storeGroup c f w ty mode b g ((els.map (·.1)).zip spots) l base blk ps
      | _, _ => stopTrap (partialBlock e x)
    else
      match seen.getLast? with
      | some (_, .fault t _) => stopTrap t
      | _ => storePlainGroup c f w ty mode b (els.map (fun y => (y.1, y.2.1)))

/-- A brick store (R188, R190). Of several empty sources the pitch, stride or index is reported first, then the base, then the data brick
(DESIGN CHOICE: log 110). -/
def brickStore (o : VArgs) (f : AddrForm) : M Unit := do
  needType o.ty
  let base := (← readS o.sa).toNat % 2 ^ 56
  needBrick o.sc
  let q ← mySeq
  let w := mwBits (o.vmod.toNat % 8) o.ty
  let es := q.activeFrom o.me o.msel
  checkBase kWrite base w es
  let c ← myCtx
  let mode := q.mode o.rnd true
  let b := o.sc.reg.toNat
  let ea (e : Nat) : Nat := eaSum w (eaOf base w) (q.elemOffset f e)
  let ahead ← es.foldlM (fun (acc : List (Nat × Nat × Ahead)) e => do
    return acc ++ [(e, ea e, ← lookAhead c f w o.ty e (ea e))]) []
  if (upToFault (ahead.map (fun y => (y.1, y.2.2)))).any (fun y => y.2.scaled) then
    let e0 := q.estart.toNat
    forEach (upFrom (e0 / 16) ((q.vl + 15) / 16 - e0 / 16)) fun g =>
      blockGroup c f w o.ty mode b g q.vl e0 (ahead.filter (fun y => y.1 / 16 == g))
  else
    forEach es fun e => atElement e (storeElem c f w o.ty mode b e (ea e))
  clearEstart

def execVstUnit (o : VArgs) (s : State) : Result := execWhole (brickStore o .unit) s
def execVstShaped (o : VArgs) (s : State) : Result :=
  execWhole (do
    needType o.ty
    brickStore o (← shapedForm o.sb)) s
def execVsts (o : VArgs) (s : State) : Result :=
  execWhole (do
    needType o.ty
    brickStore o (← stridedForm o.sb)) s
def execVstx (o : VArgs) (s : State) : Result :=
  execWhole (do
    needType o.ty
    brickStore o (← indexedForm o.sb)) s

end Sys2Proof.Machine
end

