-- ==== Sys2Proof/Machine/Atomics.lean ====
section
/-! DEFINITION. Atomics where the word lives (08): targets and what they perform, scalar and vector atomics, `glink`, `scond`,
`sacc` and the combining windows, `vwait`. -/

namespace Sys2Proof.Machine

/-! Targets (R197 to R199). -/

inductive Target where
  | scratch | device | hostCoherent | hostPlain
deriving DecidableEq, Repr

/-- The target of a location. -/
def targetOf (loc : Nat) : Target :=
  if isScratch loc then .scratch else if isHostCoherent loc then .hostCoherent else if isHostPlain loc then .hostPlain else .device

/-- What a target performs (R199): `host` tells whether the host takes the operation, `scratch` whether a scratchpad does. -/
def performs (scratch host : Bool) : Target → Bool
  | .scratch => scratch
  | .device => true
  | .hostCoherent | .hostPlain => host

/-- `vwait` watches device memory and the coherent host window. -/
def watches : Target → Bool
  | .device | .hostCoherent => true
  | _ => false

/-- Whether an operation of R41 is one of FetchAdd and Swap (R205). -/
def hostOperation (op : Nat) : Bool := op == 0x00 || op == 0x08

/-- The unsupported-atomic fault. -/
def unsupported (level kind va e : Nat) : Trap := xtrap 0x15 level kind va e

/-- What an atomic tests in its leaf after permission: a scaled page, and the target that the leaf gives (R199). -/
def atomicTests (va : Nat) (ok : Target → Bool) : LeafTests :=
  ⟨fun _ => false, fun l => if l.pte.scf != 0 || !ok (if l.pte.kind == 1 then targetOf (l.pa va) else .device) then some 0x15 else none⟩

/-- The place of an atomic element: checked before anything of a store happens (R96, R199). -/
def atomicPlace (c : Ctx) (buf : Buffer) (kind va n e : Nat) (ok : Target → Bool) : M Place := do
  let va := va % 2 ^ 56
  let (l, p) ← resolveFor c buf kind va n e (atomicTests va ok)
  if !ok (if p.plain then .hostPlain else targetOf p.loc) then stopTrap (unsupported ((l.map (·.level)).getD 0) kind va e)
  return p

/-- The level of the leaf that an atomic address translates to, checked (R96), then against its target (R199). -/
def atomicLevel (c : Ctx) (buf : Buffer) (kind va n e : Nat) (ok : Target → Bool) : M Nat := do
  let va := va % 2 ^ 56
  if inWindow va then
    let _ ← windowPlace c kind va n e
    if !ok .scratch then stopTrap (unsupported 0 kind va e)
    return 0
  else return (← checkLeaf c buf kind va n e (atomicTests va ok)).level

/-- What an atomic does to its word: an operation of R41 with its value, or a compare and swap. -/
structure AtomicDo where
  op : Nat
  value : Nat
  compare : Nat := 0
deriving DecidableEq, Repr

/-- The code of a compare and swap in `AtomicDo` and `HostRequest`. -/
def casOp : Nat := 0x11

/-- What it writes over n bytes with an old value, if anything (R200, R203). -/
def AtomicDo.result (a : AtomicDo) (n old : Nat) : Option Nat :=
  if a.op = casOp then (if old = a.compare then some a.value else none) else some (atomicOp a.op (8 * n) old a.value)

/-- An AtomicOp goes to the host, and the element waits for the host's completion (R205, R208): no pre-emption stops the
instruction from now. -/
def askHost (c : Ctx) (p : Place) (n : Nat) (a : AtomicDo) (va e : Nat) : M Unit := do
  let op : HostRequest := ⟨e, p.level, p.loc, n, a.op, a.value, a.compare⟩
  modMe fun q => { q with partWay := true }
  modify fun s => { s with hostOps := s.hostOps ++ [⟨c, (s.seq c.seq).uid, va, op⟩] }
  stopWait (.host op)

/-- The host's answer to the AtomicOp sent, if it has come: the old value, or a refusal (R199). -/
def takeAnswer (va e : Nat) : M (Option Nat) := do
  match (← mySeq).hostAns with
  | none => return none
  | some (level, r) =>
    modMe fun q => { q with hostAns := none }
    if r.isNone then stopTrap (unsupported level kRmw va e)
    return r

/-- The words of an element come home (R201). At a host target every copy of the line is dropped as well (R115). -/
def gatherWords (c : Ctx) (p : Place) (n kind va e : Nat) : M Unit := do
  let ws := wordsOf p.loc n
  forEach ws fun w => dropForeign c p w
  ownStoresFirst c ws
  modify (noteRequest c n)
  modify (settle p.loc n)
  checkWords c false (p.words n) kind va e
  if isHost p.loc then modify (dropLineEverywhere (p.loc / 128))
  modify (recallWords ws)
  modify (readyUnder p.mat p.loc)

/-- An atomic of n bytes at its place: the old value, with what it makes of it written, if anything (R203, R210). -/
def performAtomic (c : Ctx) (p : Place) (n : Nat) (f : Nat → Option Nat) (kind va e : Nat) : M Nat := do
  match p.scratch with
  | some k =>
    if (← get).bad p.loc n then stopTrap (xtrap 0x28 0 kind va e)
    modify (settleScratch k p.loc n)
    let old := (← get).mem.readLe p.loc n
    match f old with
    | some v => modify fun s => { s with mem := s.mem.writeLe p.loc n v }
    | none => pure ()
    return old
  | none =>
    gatherWords c p n kind va e
    let old := (← get).valueUnder p.mat p.loc n
    match f old with
    | some v => modify (homeWrite p.mat p.loc n v)
    | none => modify (breakLinks (p.loc / 128))
    forEach (wordsOf p.loc n) fun w => modify (dropUnreg c.core w)
    return old

/-! Scalar atomics (R202 to R205). -/

def releases : Ord → Bool
  | .rel | .ar => true
  | _ => false

def acquires : Ord → Bool
  | .acq | .ar => true
  | _ => false

/-- A scalar atomic of n bytes at address a: the old value. A host AtomicOp whose answer has come was checked and performed before
(R205). -/
def scalarAtomic (o : AArgs) (a n : Nat) (ok : Target → Bool) (f : AtomicDo) : M Nat := do
  if a % n ≠ 0 then stopTrap (misaligned kRmw a 0)
  let old ← match ← takeAnswer a 0 with
    | some old => pure old
    | none => do
      let c ← myCtx
      let p ← atomicPlace c .l1 kRmw a n 0 ok
      if releases o.ord then release o.scope
      if isHost p.loc then
        gatherWords c p n kRmw a 0
        askHost c p n f a 0
      performAtomic c p n (f.result n) kRmw a 0
  if acquires o.ord then acquire o.scope
  return old

/-- Width in bytes by SZ. -/
def amoBytes (o : AArgs) : Nat := 2 * 2 ^ o.sz.toNat

/-- `amo` by operation code of R41. -/
def amo (op : Nat) (o : AArgs) : M Unit := do
  let a := (← readS o.sa).toNat % 2 ^ 56
  let v ← readS o.sb
  let _ ← readReg o.d
  let n := amoBytes o
  let old ← scalarAtomic o a n (performs true (hostOperation op)) ⟨op, v.toNat % 2 ^ (8 * n), 0⟩
  writeLong o.d (BitVec.ofNat 64 old)

def execAmoAdd (o : AArgs) (s : State) : Result := execWhole (amo 0x00 o) s
def execAmoAnd (o : AArgs) (s : State) : Result := execWhole (amo 0x01 o) s
def execAmoOr (o : AArgs) (s : State) : Result := execWhole (amo 0x02 o) s
def execAmoXor (o : AArgs) (s : State) : Result := execWhole (amo 0x03 o) s
def execAmoMin (o : AArgs) (s : State) : Result := execWhole (amo 0x04 o) s
def execAmoMax (o : AArgs) (s : State) : Result := execWhole (amo 0x05 o) s
def execAmoMinn (o : AArgs) (s : State) : Result := execWhole (amo 0x06 o) s
def execAmoMaxn (o : AArgs) (s : State) : Result := execWhole (amo 0x07 o) s
def execAmoSwap (o : AArgs) (s : State) : Result := execWhole (amo 0x08 o) s
def execAmoFaddF32 (o : AArgs) (s : State) : Result := execWhole (amo 0x09 o) s
def execAmoFaddBf16 (o : AArgs) (s : State) : Result := execWhole (amo 0x0A o) s

/-- `cas` (R203). -/
def execCas (o : AArgs) (s : State) : Result :=
  execWhole (do
    let a := (← readS o.sa).toNat % 2 ^ 56
    let v ← readS o.sb
    let x ← readReg o.d
    let n := amoBytes o
    let old ← scalarAtomic o a n (performs true true) ⟨casOp, v.toNat % 2 ^ (8 * n), x.toNat % 2 ^ (8 * n)⟩
    writeLong o.d (BitVec.ofNat 64 old)) s

/-- `cas2` (R203). -/
def execCas2 (o : AArgs) (s : State) : Result :=
  execWhole (do
    let a := (← readS o.sa).toNat % 2 ^ 56
    let lo ← readS o.sb
    let hi ← readS ⟨o.sb.reg + 1, o.sb.w⟩
    let x ← readReg o.d
    let y ← readReg (o.d + 1)
    let old ← scalarAtomic o a 16 (performs false true)
      ⟨casOp, lo.toNat + 2 ^ 64 * hi.toNat, x.toNat + 2 ^ 64 * y.toNat⟩
    writeLong o.d (BitVec.ofNat 64 old)
    writeLong (o.d + 1) (BitVec.ofNat 64 (old / 2 ^ 64))) s

/-- The host performs an AtomicOp as its home agent (R205): every copy of the line is dropped first (R115). -/
def hostPerforms (op : HostRequest) (s : State) : Nat × State :=
  let s := dropLineEverywhere (op.loc / 128) s
  let old := s.mem.readLe op.loc op.bytes
  let s := breakLinks (op.loc / 128) s
  match (AtomicDo.mk op.op op.value op.compare).result op.bytes old with
  | some v => (old, evalWaits op.loc op.bytes { s with mem := s.mem.writeLe op.loc op.bytes v })
  | none => (old, s)

/-- The host completes an AtomicOp: performed, whatever has become of the sequencer that sent it (R208), or refused. The sequencer that
still waits for it has its answer. -/
def completeHostOp (o : SentOp) (ok : Bool) (s : State) : State :=
  let s := { s with hostOps := s.hostOps.erase o }
  let (old, t) := if ok then hostPerforms o.req s else (0, s)
  if (t.seq o.ctx.seq).uid = o.uid && (t.seq o.ctx.seq).wait == some (.host o.req) then
    t.modSeq o.ctx.seq fun q => { q with hostAns := some (o.req.level, if ok then some old else none), wait := none }
  else t

/-- HOST_COMPLETION_RECEIVE (R205): for the oldest AtomicOp that a sequencer number has sent. -/
def execHostCompletionReceive (s : State) : Result :=
  match s.input with
  | .hostCompletionReceive n ok =>
    execAgent (modify fun s =>
      match s.hostOps.find? (fun o => o.ctx.seq == n) with
      | some o => completeHostOp o ok s
      | none => s) s
  | _ => .next s.tick

/-! The vector forms (R206 to R210). -/

/-- An element that its target accepted; at the host, once it has performed it, with the old value. -/
structure Offered where
  elem : Nat
  va : Nat
  place : Place
  done : Option Nat := none
deriving DecidableEq, Repr

/-- The VA of element e (R207). -/
def Seq.atomicVa (q : Seq) (w base idx e : Nat) : Nat := eaVa (eaSum w (eaOf base w) (q.elemOffset (.indexed idx) e)) w

/-- An element is offered to its target, which accepts it or answers a fault (R208). A fault that the home answers has cost the request
its tokens (R449); an accepted element pays when it is performed. -/
def offerAtomic (c : Ctx) (kind n va e : Nat) (ok : Target → Bool) : M Offered := do
  let p ← atomicPlace c .gather kind va n e ok
  if p.scratch.isSome then
    if (← get).bad p.loc n then stopTrap (xtrap 0x28 0 kind va e)
  else
    forEach (wordsOf p.loc n) fun w => dropForeign c p w
    ownStoresFirst c (wordsOf p.loc n)
    tryCatch (checkWords c false (p.words n) kind va e) fun st => do
      if st.isTrap then modify (noteRequest c n)
      throw st
  return ⟨e, va, p, none⟩

/-- As `offerAtomic` for `vamo`: an element at the host is sent there, and accepted when the host has performed it (R208). -/
def offerVamo (c : Ctx) (n va e : Nat) (ok : Target → Bool) (f : AtomicDo) : M Offered := do
  match ← takeAnswer va e with
  | some old => return ⟨e, va, { loc := 0x8000000000000 }, some old⟩
  | none =>
    let x ← offerAtomic c kRmw n va e ok
    if isHost x.place.loc then
      modify (noteRequest c n)
      askHost c x.place n f va e
    return x

/-- The elements offered in order, up to the first that stops. -/
def offerAll (offer : Nat → M Offered) : List Nat → M (List Offered × Option (Nat × Stop))
  | [] => return ([], none)
  | e :: es => do
    let r ← tryCatch (do return Except.ok (← offer e)) (fun st => return Except.error st)
    match r with
    | .error st => return ([], some (e, st))
    | .ok x =>
      let (l, st) ← offerAll offer es
      return (x :: l, st)

/-- Whether an element may be performed out of its order: one in device memory (R198). -/
def Offered.loose (x : Offered) : Bool := targetOf x.place.loc == .device

/-- Elements on no device-class page in the order performed (R198): ascending, but elements on one word of device memory in an order
that the device chooses. -/
def chosenOrder (l : List Offered) : M (List Offered) := do
  let dev := l.filter Offered.loose
  if dev.any (fun x => dev.any (fun y => x.elem != y.elem && x.place.loc == y.place.loc)) then
    let k ← freshFree
    return l.filter (fun x => !x.loose) ++ permute dev.length (Config.collisionOrder k dev.length) dev
  else return l

/-- Elements in the order performed, `l` after those of `run`: an element on a device-class page comes after every lower one (R104). -/
def orderAfter (run : List Offered) : List Offered → M (List Offered)
  | [] => chosenOrder run
  | x :: l => do
    if x.place.ic then
      let a ← chosenOrder run
      return a ++ x :: (← orderAfter [] l)
    else orderAfter (run ++ [x]) l

/-- Elements of one instruction, offered in ascending order, in the order performed (R104, R198). -/
def performOrder (l : List Offered) : M (List Offered) := orderAfter [] l

/-- The stop of an element, after the accepted ones are performed. An element that waits for the host is where the instruction goes on
(R208). -/
def stopElem (st : Option (Nat × Stop)) : M Unit := do
  match st with
  | some (e, .wait (.host op)) =>
    modMe fun q => { q with estart := BitVec.ofNat 40 e }
    stopWait (.host op)
  | some (e, st) => stopAt e (throw st)
  | none => pure ()

/-- A wait that comes while elements are offered, other than the host's, leaves all of them for later. -/
def waitFirst (st : Option (Nat × Stop)) : M Unit := do
  match st with
  | some (_, .wait (.host _)) => pure ()
  | some (_, .wait w) => stopWait w
  | _ => pure ()

/-- `vamo` (R210). -/
def vamo (op : Nat) (o : VArgs) : M Unit := do
  needType o.ty
  let base := (← readS o.sa).toNat % 2 ^ 56
  needBrick o.sb
  needBrick o.sc
  let ret := !o.vmod.getLsbD 0
  if ret then needBrickDest o.d
  let q ← mySeq
  let w := o.ty.width
  let n := w / 8
  let es := q.activeFrom o.me o.msel
  checkBase kRmw base w es
  let c ← myCtx
  let value (e : Nat) : AtomicDo := ⟨op, (q.elem o.sc.reg.toNat e).toNat % 2 ^ w, 0⟩
  let (l, st) ← offerAll (fun e => offerVamo c n (q.atomicVa w base o.sb.reg.toNat e) e (performs true (hostOperation op))
    (value e)) es
  waitFirst st
  forEach (← performOrder l) fun x => do
    let old ← match x.done with
      | some old => pure old
      | none => performAtomic c x.place n ((value x.elem).result n) kRmw x.va x.elem
    if ret then modMe (·.setElem o.d.toNat x.elem (BitVec.ofNat 64 old))
  stopElem st
  if ret then brickPending o.d es
  clearEstart

def execVamoAdd (o : VArgs) (s : State) : Result := execWhole (vamo 0x00 o) s
def execVamoAnd (o : VArgs) (s : State) : Result := execWhole (vamo 0x01 o) s
def execVamoOr (o : VArgs) (s : State) : Result := execWhole (vamo 0x02 o) s
def execVamoXor (o : VArgs) (s : State) : Result := execWhole (vamo 0x03 o) s
def execVamoMin (o : VArgs) (s : State) : Result := execWhole (vamo 0x04 o) s
def execVamoMax (o : VArgs) (s : State) : Result := execWhole (vamo 0x05 o) s
def execVamoMinn (o : VArgs) (s : State) : Result := execWhole (vamo 0x06 o) s
def execVamoMaxn (o : VArgs) (s : State) : Result := execWhole (vamo 0x07 o) s
def execVamoSwap (o : VArgs) (s : State) : Result := execWhole (vamo 0x08 o) s
def execVamoFaddF32 (o : VArgs) (s : State) : Result := execWhole (vamo 0x09 o) s
def execVamoFaddBf16 (o : VArgs) (s : State) : Result := execWhole (vamo 0x0A o) s

/-! Links (R211 to R213). -/

/-- The first link that satisfies p leaves the table. -/
def dropFirst {α : Type} (p : α → Bool) : List α → List α
  | [] => []
  | x :: l => if p x then l else x :: dropFirst p l

/-- A link set (R211): one per sequencer and line; a full table first gives up the sequencer's oldest, else the core's. -/
def Core.addLink (c : Core) (line n born : Nat) : Core :=
  let l := c.links.filter (fun x => !(x.line == line && x.seq == n))
  let l := if l.length < 64 then l
    else if l.any (fun x => x.seq == n) then dropFirst (fun x => x.seq == n) l else l.drop 1
  { c with links := l ++ [⟨line, n, born⟩] }

/-- Whether a sequencer holds a link on a line (R212: for 65,536 cycles). -/
def State.linked (s : State) (n line : Nat) : Bool :=
  (s.core (coreOf n)).links.any (fun x => x.line == line && x.seq == n && decide (s.cycle < x.born + 65536))

/-- `glink` (R211). -/
def execGlink (o : VArgs) (s : State) : Result :=
  execWhole (do
    needType o.ty
    let base := (← readS o.sa).toNat % 2 ^ 56
    needBrick o.sb
    needBrickDest o.d
    let q ← mySeq
    let w := o.ty.width
    let n := w / 8
    let es := q.activeFrom o.me o.msel
    checkBase kWatch base w es
    let c ← myCtx
    let (l, st) ← offerAll (fun e => offerAtomic c kWatch n (q.atomicVa w base o.sb.reg.toNat e) e (performs false false)) es
    waitFirst st
    forEach l fun x => do
      gatherWords c x.place n kWatch x.va x.elem
      modify (recallLine (x.place.loc / 128))
      let v := (← get).valueUnder x.place.mat x.place.loc n
      forEach (wordsOf x.place.loc n) fun w => modify (dropUnreg c.core w)
      modify fun s => s.modCore c.core (·.addLink (x.place.loc / 128) c.seq s.cycle)
      modMe (·.setElem o.d.toNat x.elem (BitVec.ofNat 64 v))
    stopElem st
    brickPending o.d es
    clearEstart) s

/-- Bits of a mask replaced. -/
def setBits (m : BitVec 8192) (l : List (Nat × Bool)) : BitVec 8192 :=
  l.foldl (fun m x => if x.2 then m ||| ((1 : BitVec 8192) <<< x.1) else m &&& ~~~((1 : BitVec 8192) <<< x.1)) m

/-- The low n bits of a mask. -/
def keepLow (n : Nat) (m : BitVec 8192) : BitVec 8192 := m &&& ((1 : BitVec 8192) <<< n - 1)

/-- `scond` (R213). A refused element performs nothing, and breaks no link but its own sequencer's (log 31). Where nothing is active
the mask is cleared whole (R219). -/
def execScond (o : VArgs) (s : State) : Result :=
  execWhole (do
    needType o.ty
    let base := (← readS o.sa).toNat % 2 ^ 56
    needBrick o.sb
    needBrick o.sc
    let q ← mySeq
    let w := o.ty.width
    let n := w / 8
    let es := q.activeFrom o.me o.msel
    checkBase kRmw base w es
    let c ← myCtx
    let (l, st) ← offerAll (fun e => offerAtomic c kRmw n (q.atomicVa w base o.sb.reg.toNat e) e (performs false false)) es
    waitFirst st
    -- what the host wrote to a line, and earlier `sacc` updates, come to its home before the element does (R215, R445)
    forEach l fun x => modify (settle x.place.loc n)
    let s0 ← get
    let lower (x : Offered) : Bool := l.any (fun y => decide (y.elem < x.elem) && y.place.loc == x.place.loc)
    let oks := l.map (fun x => (x, s0.linked c.seq (x.place.loc / 128) && !lower x))
    forEach oks fun (x, ok) => do
      if ok then
        let v := (q.elem o.sc.reg.toNat x.elem).toNat % 2 ^ w
        let _ ← performAtomic c x.place n (fun _ => some v) kRmw x.va x.elem
      else modify (noteRequest c n)
      modify fun s => s.modCore c.core fun k =>
        { k with links := k.links.filter (fun y => !(y.line == x.place.loc / 128 && y.seq == c.seq)) }
    let stop := (st.map (·.1)).getD q.vl
    let e0 := q.estart.toNat
    let done := (upFrom e0 (stop - e0)).map (fun e => (e, oks.any (fun x => x.1.elem == e && x.2)))
    modMe fun k => k.setMask o.d.toNat (setBits (k.mask o.d.toNat) done)
    stopElem st
    let idle := q.vl ≤ e0 || ({ q with estart := 0 }).activeFrom o.me o.msel == []
    modMe fun k => k.setMask o.d.toNat (if idle then 0 else keepLow q.vl (k.mask o.d.toNat))
    clearEstart) s

/-- LINK_EXPIRY (R212). -/
def execLinkExpiry (s : State) : Result :=
  match s.input with
  | .linkExpiry core k =>
    execAgent (modify fun s =>
      match (s.core core).links[k]? with
      | some l => if l.born + 65536 ≤ s.cycle then s.modCore core fun c => { c with links := c.links.eraseIdx k } else s
      | none => s) s
  | _ => .next s.tick

/-! sacc (R214, R215). -/

/-- A window of at most 64 entries takes an element: the window after it, and the entries to apply first, in order. -/
def mergeComb (l : List CombEntry) (e : CombEntry) : List CombEntry × List CombEntry :=
  let same (x : CombEntry) : Bool := x.loc == e.loc && x.op == e.op && x.width == e.width && x.mat == e.mat
  let out := l.filter (fun x => x.covers e.loc e.bytes && !same x)
  let l := l.filter (fun x => !(x.covers e.loc e.bytes) || same x)
  if l.any same then
    (l.map (fun x => if same x then { x with values := x.values ++ e.values } else x), out)
  else if l.length < 64 then (l ++ [e], out)
  else (l.drop 1 ++ [e], out ++ l.take 1)

/-- An accepted element enters its receiver's window. -/
def acceptComb (e : CombEntry) (scratch : Option Nat) (s : State) : State :=
  match scratch with
  | some k =>
    let (l, out) := mergeComb (s.core k).comb e
    out.foldl (fun s x => applyComb x s) (s.modCore k fun c => { c with comb := l })
  | none =>
    let h := s.home e.loc
    let (l, out) := mergeComb (NMap.getD s.homeComb h []) e
    out.foldl (fun s x => applyComb x s) { s with homeComb := NMap.set s.homeComb h l }

/-- The updates of elements that wait in combining windows are applied. -/
def applyPending (n : Nat) (l : List Offered) (s : State) : State :=
  l.foldl (fun s y => match y.place.scratch with
    | some k => settleScratch k y.place.loc n s
    | none => settle y.place.loc n s) s

/-- An accepted element of a `sacc` (R214, R215); `lower`: those accepted before it that lie on no device-class page. On a device-class
page it is performed at once, after the updates of those: an access of its own, in ascending order, merged with no other (R104). -/
def saccElem (c : Ctx) (op w : Nat) (lower : List Offered) (x : Offered) (v : Nat) : M Unit := do
  let n := w / 8
  if x.place.ic then
    modify (applyPending n lower)
    let _ ← performAtomic c x.place n (fun old => some (atomicOp op w old v)) kRmw x.va x.elem
  else
    if x.place.scratch.isNone then
      let ws := wordsOf x.place.loc n
      modify (noteRequest c n)
      modify (snoopHost (x.place.loc / 128))
      modify (recallWords ws)
      modify (breakLinks (x.place.loc / 128))
      forEach ws fun w => modify (dropUnreg c.core w)
    modify fun s => acceptComb ⟨x.place.loc, op, w, [v], x.place.mat, s.cycle⟩ x.place.scratch s

/-- `sacc` (R214). -/
def sacc (op : Nat) (o : VArgs) : M Unit := do
  needType o.ty
  let base := (← readS o.sa).toNat % 2 ^ 56
  needBrick o.sb
  needBrick o.sc
  let q ← mySeq
  let w := o.ty.width
  let n := w / 8
  let es := q.activeFrom o.me o.msel
  checkBase kRmw base w es
  let c ← myCtx
  let (l, st) ← offerAll (fun e => offerAtomic c kRmw n (q.atomicVa w base o.sb.reg.toNat e) e (performs true false)) es
  waitFirst st
  forEach l fun x => saccElem c op w (l.filter (fun y => decide (y.elem < x.elem) && !y.place.ic)) x ((q.elem o.sc.reg.toNat x.elem).toNat % 2 ^ w)
  stopElem st
  clearEstart

def execSaccAdd (o : VArgs) (s : State) : Result := execWhole (sacc 0x00 o) s
def execSaccAnd (o : VArgs) (s : State) : Result := execWhole (sacc 0x01 o) s
def execSaccOr (o : VArgs) (s : State) : Result := execWhole (sacc 0x02 o) s
def execSaccXor (o : VArgs) (s : State) : Result := execWhole (sacc 0x03 o) s
def execSaccMin (o : VArgs) (s : State) : Result := execWhole (sacc 0x04 o) s
def execSaccMax (o : VArgs) (s : State) : Result := execWhole (sacc 0x05 o) s
def execSaccMinn (o : VArgs) (s : State) : Result := execWhole (sacc 0x06 o) s
def execSaccMaxn (o : VArgs) (s : State) : Result := execWhole (sacc 0x07 o) s
def execSaccFaddF32 (o : VArgs) (s : State) : Result := execWhole (sacc 0x09 o) s
def execSaccFaddBf16 (o : VArgs) (s : State) : Result := execWhole (sacc 0x0A o) s

/-- COMBINING_WINDOW_APPLY (R215): the oldest entry of a window, home slice k below 160, else the lane array of core k - 160. -/
def applyOldest (k : Nat) (s : State) : State :=
  if k < 160 then
    match NMap.getD s.homeComb k [] with
    | e :: rest => applyComb e { s with homeComb := NMap.set s.homeComb k rest }
    | [] => s
  else
    match (s.core (k - 160)).comb with
    | e :: rest => applyComb e (s.modCore (k - 160) fun c => { c with comb := rest })
    | [] => s

def execCombiningWindowApply (s : State) : Result :=
  match s.input with
  | .combiningWindowApply k => execAgent (modify (applyOldest k)) s
  | _ => .next s.tick

/-! vwait (R216 to R218). -/

/-- The entries of a sequencer. -/
def Core.waitsOf (c : Core) (n : Nat) : NMap WaitEntry := c.waits.filter (fun x => x.2.seq == n)

/-- A `vwait` ends: with entries that have all fired, an acquire at dev; the count, ESTART := 0 (R216, R217). Its count is a result of
the memory pipeline (R34, R329). With ESTART above VL and nothing to watch, the count is VL − ESTART modulo 2^64 (R219), and
SLEN, which holds counts up to 8,192, becomes 0 (log 111). -/
def endVwait (covered : DWord) (d : Reg) (watched : Bool) : M Unit := do
  if watched then acquire .dev
  writeLong d covered
  modMe fun q => { q with slen := if 2 ^ 63 ≤ covered.toNat then 0 else covered.toNat }
  clearEstart

/-- Whether the wait table of a sequencer's core has a free entry of its 32 (R216), the sequencer's own cell wait aside. -/
def State.waitRoom (s : State) (n : Nat) : Bool :=
  let c := s.core (coreOf n)
  decide (c.waits.length + (c.cells.filter (fun w => w.seq != n)).length < 32)

/-- One element armed: an entry taken and evaluated. False when the table has no room. -/
def arm (o : VArgs) (q : Seq) (x : Offered) : M Bool := do
  let s ← get
  let core := coreOf s.cur
  match s.waitRoom s.cur, NMap.firstFree (s.core core).waits 32 0 with
  | false, _ | true, none => return false
  | true, some i =>
    let w := o.ty.width
    let c ← myCtx
    modify (noteRequest c (w / 8))
    -- arming is an access at the home: pending updates and the host's writes come first (R215, R445)
    modify (settle x.place.loc (w / 8))
    modify (recallWords (wordsOf x.place.loc (w / 8)))
    modify (readyUnder x.place.mat x.place.loc)
    let e : WaitEntry :=
      { seq := s.cur, elem := x.elem, va := x.va, level := x.place.level, loc := x.place.loc, width := w, signed := o.ty == .i32 || o.ty == .i64,
        cond := o.vmod.toNat % 4, operand := (q.elem o.sc.reg.toNat x.elem).toNat % 2 ^ w, mat := x.place.mat,
        host := isHost x.place.loc, fired := false }
    let s ← get
    let e := { e with fired := e.holds (s.valueUnder e.mat e.loc (w / 8)) }
    modify fun s => s.modCore core fun c => { c with waits := NMap.set c.waits i e }
    return true

/-- Elements armed in order while the table has room: the first not armed, or `last`. -/
def armAll (o : VArgs) (q : Seq) (last : Nat) : List Offered → M Nat
  | [] => return last
  | x :: l => do
    if ← arm o q x then armAll o q last l else return x.elem

/-- Entries of the sequencer that have fired are freed. True when none is left. -/
def reapWaits (n : Nat) : M Bool := do
  modify fun s => s.modCore (coreOf n) fun c => { c with waits := c.waits.filter (fun x => !(x.2.seq == n && x.2.fired)) }
  return ((← get).core (coreOf n)).waitsOf n == []

/-- The arming of a `vwait` (R216): what it is to write, if elements were armed; it has ended if none is active. -/
def armVwait (o : VArgs) : M (Option DWord) := do
  needType o.ty
  let base := (← readS o.sa).toNat % 2 ^ 56
  needBrick o.sb
  needBrick o.sc
  needWritable .scalar o.d
  let q ← mySeq
  let w := o.ty.width
  let n := w / 8
  let es := q.activeFrom o.me o.msel
  checkBase kWatch base w es
  let e0 := BitVec.ofNat 64 q.estart.toNat
  if es = [] then
    endVwait (BitVec.ofNat 64 q.vl - e0) o.d false
    return none
  let c ← myCtx
  let (l, st) ← offerAll (fun e => offerAtomic c kWatch n (q.atomicVa w base o.sb.reg.toNat e) e watches) es
  waitFirst st
  if l = [] then stopElem st
  let k ← armAll o q ((st.map (·.1)).getD q.vl) l
  if es.head? = some k then stopWait .room
  return some (BitVec.ofNat 64 k - e0)

/-- A wait of `vwait`, `bwait` or `fget` for a word or for a free entry, before the instruction is in the wait table, is one of its own
(R218, R397, R400): a point of pre-emption at any loop depth (R328). -/
def asArming {α : Type} (m : M α) : M α :=
  tryCatch m fun st => do
    match st with
    | .wait (.held _) | .wait .room => stopWait .arming
    | st => throw st

/-- `vwait`. -/
def execVwait (o : VArgs) (s : State) : Result :=
  execNext (do
    match (← mySeq).wait with
    | some (.vwait k d) =>
      if ← reapWaits (← me) then endVwait k d true else stopWait (.vwait k d)
    | _ =>
      match ← asArming (allOrWait (armVwait o)) with
      | none => pure ()
      | some covered => if ← reapWaits (← me) then endVwait covered o.d true else stopWait (.vwait covered o.d)) s

/-- Run something on behalf of a sequencer that does not have the turn. -/
def onBehalf {α : Type} (n : Nat) (m : M α) : M α := do
  let c := (← get).cur
  modify fun s => { s with cur := n }
  let a ← tryCatch m fun st => do
    modify fun s => { s with cur := c }
    throw st
  modify fun s => { s with cur := c }
  return a

/-- A waiting instruction ends: the PC advances. -/
def passWait : M Unit := modMe Seq.advance

/-- VWAIT_FIRE (R217): an entry whose condition has held is freed; with the last one the `vwait` ends. -/
def execVwaitFire (s : State) : Result :=
  match s.input with
  | .vwaitFire core k =>
    execAgent (do
      match NMap.get? ((← get).core core).waits k with
      | some e =>
        if e.fired then
          modify fun s => s.modCore core fun c => { c with waits := NMap.erase c.waits k }
          match ((← get).seq e.seq).wait with
          | some (.vwait cov d) =>
            if ((← get).core core).waitsOf e.seq == [] then
              onBehalf e.seq (do
                endVwait cov d true
                passWait)
          | _ => pure ()
      | none => pure ()) s
  | _ => .next s.tick

/-- VWAIT_HOST_POLL (R217): an armed entry on a host word is evaluated on the value read. -/
def execVwaitHostPoll (s : State) : Result :=
  match s.input with
  | .vwaitHostPoll core k =>
    execAgent (modify fun s =>
      match NMap.get? (s.core core).waits k with
      | some e => if e.host then evalWaits e.loc (e.width / 8) s else s
      | none => s) s
  | _ => .next s.tick

end Sys2Proof.Machine
end

