-- ==== Sys2Proof/Machine/Events.lean ====
section
/-! DEFINITION. Event queues (09 R240 to R243): posting a record, `evpop`, `evwait`. -/

namespace Sys2Proof.Machine

/-- An event record (R241). -/
structure Record where
  kind : Nat
  status : Nat := 0
  src : Nat := 0
  utag : Nat := 0
  count : Nat := 0
  payload : BitVec 128 := 0
deriving DecidableEq, Repr

def Record.bits (r : Record) : BitVec 256 :=
  r.payload ++ BitVec.ofNat 64 r.count ++ BitVec.ofNat 32 r.utag ++ BitVec.ofNat 16 r.src ++ BitVec.ofNat 8 r.status ++
    BitVec.ofNat 8 r.kind

/-- A record posted to a queue of `cap` records: dropped and counted when it is full (R240). -/
def EventQueue.post (q : EventQueue) (cap : Nat) (r : BitVec 256) : EventQueue :=
  if q.recs.length < cap then { q with recs := q.recs ++ [r] } else { q with drops := Min.min (q.drops + 1) 65535 }

/-- The oldest record removed; the space that appears takes the overflow record, if records were dropped (R240). -/
def EventQueue.pop (q : EventQueue) : EventQueue :=
  let l := q.recs.drop 1
  if q.drops = 0 then { q with recs := l }
  else { recs := l ++ [Record.bits { kind := 0x0F, count := q.drops }], drops := 0 }

/-- A sequencer's queue of 16, a die's of 64. -/
def State.postSeq (s : State) (n : Nat) (r : BitVec 256) : State := s.modSeq n fun q => { q with evq := q.evq.post 16 r }

def State.postSup (s : State) (d : Nat) (r : BitVec 256) : State := s.modDie d fun k => { k with supq := k.supq.post 64 r }

/-- The queue an instruction names. -/
def eventQueue (sup : Bool) : M EventQueue := do
  let s ← get
  return if sup then (s.die (dieOf s.cur)).supq else (s.seq s.cur).evq

def setEventQueue (sup : Bool) (e : EventQueue) : M Unit :=
  modify fun s => if sup then s.modDie (dieOf s.cur) fun d => { d with supq := e } else s.modSeq s.cur fun q => { q with evq := e }

/-- Dword i of a record. -/
def recordDword (r : BitVec 256) (i : Nat) : DWord := r.extractLsb' (64 * i) 64

/-- `evpop` (R243). -/
def execEvpop (o : RArgs) (s : State) : Result :=
  execNext (do
    let sup := o.mod.getLsbD 4
    if sup then needSupervisor
    forEach (List.range 4) fun i => needWritable .scalar (o.d + BitVec.ofNat 6 i)
    let e ← eventQueue sup
    let n := o.mod.toNat % 16
    match e.recs with
    | [] => modMe (·.setPred n false)
    | r :: _ =>
      forEach (List.range 4) fun i => writeS (o.d + BitVec.ofNat 6 i) (recordDword r i)
      setEventQueue sup e.pop
      modMe (·.setPred n true)) s

/-- `evwait` ends: the record count is written (R238). -/
def endEvwait (sup : Bool) (d : Reg) : M Unit := do
  let e ← eventQueue sup
  writeLong d (BitVec.ofNat 64 e.recs.length)

/-- Whether an `evwait` may end. -/
def evwaitDone (sup : Bool) (n : Nat) (deadline : Option Nat) : M Bool := do
  let e ← eventQueue sup
  let s ← get
  return decide (n ≤ e.recs.length) || deadline.any (fun t => decide (t ≤ s.cycle))

/-- `evwait` (R238). A timeout counts from the issue, through the whole wait. -/
def execEvwait (o : MArgs) (s : State) : Result :=
  execNext (do
    let sup := o.mod.getLsbD 0
    if sup then needSupervisor
    let t ← readS o.sa
    needWritable .scalar o.d
    let n := o.imm.toNat % 32
    let deadline := match (← mySeq).wait with
      | some (.evwait _ _ x _) => x
      | _ => if t = 0 then none else some ((s.cycle) + t.toNat)
    if ← evwaitDone sup n deadline then endEvwait sup o.d else stopWait (.evwait sup n deadline o.d)) s

/-- EVWAIT_WAKE (R238). -/
def execEvwaitWake (s : State) : Result :=
  match s.input with
  | .evwaitWake n =>
    execAgent (do
      match ((← get).seq n).wait with
      | some (.evwait sup k deadline d) =>
        onBehalf n (do
          if ← evwaitDone sup k deadline then
            endEvwait sup d
            passWait)
      | _ => pure ()) s
  | _ => .next s.tick

end Sys2Proof.Machine
end

