-- ==== Sys2Proof/Machine/Coherence.lean ====
section
/-! DEFINITION. Cache maintenance by a sequencer (06 R175 to R180), and the steps of homes, L1s and the host that come to them
(06, 05 R114): registrations, reads and writes arriving, epochs, errors, snoops, sleep. -/

namespace Sys2Proof.Machine

/-! Ranges of a sequencer (R176). -/

/-- The leaf that an address translates to, without A, D or a buffer changed; none where it does not translate. -/
def probeLeaf (c : Ctx) (va : Nat) : M (Option Leaf) := do
  let s ← get
  let known (s : State) (l : Leaf) : Option Leaf := if (tierFault s c.tenant l).isSome then none else some l
  match s.lookup c .l1 va with
  | some t => return known s ⟨t.pte, t.level, t.entry⟩
  | none =>
    let ((r, _), s) := walk c va s
    set s
    match r with
    | .error (.inl _) => return none
    | .error (.inr a) => stopWait (.held a)
    | .ok l => return known s l

/-- Where bytes of a leaf's page lie, if they have a home. -/
def leafLoc (s : State) (l : Leaf) (va : Nat) : Option Nat :=
  match l.pte.kind with
  | 2 =>
    let slot := l.pte.frame / 2 ^ 31
    let page := l.pte.frame % 2 ^ 31
    match leaseGoes slot (NMap.getD s.borrow slot {}) page (va % 65536) with
    | .home loc => some loc
    | .fallback pa _ => some (storeLoc pa)
    | .held | .lost => some (leasedLoc slot page (va % 65536))
  | 3 => some (unbackedLoc (l.pte.frame / 2 ^ 26) (l.pte.frame % 2 ^ 26) (va % 65536))
  | _ => some (storeLoc (l.pa va))

/-- A piece of a page cut at lines: each line of a leased page has its own place during a pull and after a loss (R127, R128). -/
def linePieces (a n : Nat) : List (Nat × Nat) :=
  (upFrom (a / 128) ((a + n - 1) / 128 - a / 128 + 1)).map (fun l =>
    let lo := Max.max a (128 * l)
    (lo, Min.min (a + n) (128 * l + 128) - lo))

/-- The places of a piece of a page. -/
def leafPieces (s : State) (l : Leaf) (a n : Nat) : List (Nat × Nat) :=
  (if l.pte.kind = 2 then linePieces a n else [(a, n)]).filterMap (fun x => (leafLoc s l x.1).map (fun loc => (loc, x.2)))

/-- The range of s[A] and s[B]: first and last byte, none for a length of 0 (R176). -/
def rangeOf (a b : DWord) : Option (Nat × Nat) :=
  let lo := a.toNat % 2 ^ 56
  if b = 0 then none else some (lo, Min.min (lo + b.toNat) (2 ^ 56) - 1)

/-- The range cut at 64 KiB pages: a VA and a length in one page each. -/
def pagePieces (lo hi : Nat) : List (Nat × Nat) :=
  (upFrom (lo / 65536) (hi / 65536 - lo / 65536 + 1)).map (fun u =>
    let a := Max.max lo (65536 * u)
    (a, Min.min hi (65536 * u + 65535) - a + 1))

/-- What a range stands for: pieces of the location space, or, above 512 KiB, everything an L1 holds. -/
inductive Extent where
  | all
  | pieces (l : List (Nat × Nat))
deriving DecidableEq, Repr

/-- The pieces of a range of any length, with the leaf of each. Pages that do not translate are skipped (R176). -/
def translated (lo hi : Nat) : M (List (Leaf × Nat × Nat)) := do
  let c ← myCtx
  (pagePieces lo hi).foldlM (fun (acc : List (Leaf × Nat × Nat)) x => do
    if inWindow x.1 then return acc
    match ← probeLeaf c x.1 with
    | none => return acc
    | some l => return acc ++ (leafPieces (← get) l x.1 x.2).map (fun y => (l, y.1, y.2))) []

def extentOf (lo hi : Nat) : M Extent := do
  if 512 * 1024 < hi - lo + 1 then return .all
  return .pieces ((← translated lo hi).map (·.2))

/-- Whether a line overlaps an extent. -/
def Extent.hasLine (x : Extent) (line : Nat) : Bool :=
  match x with
  | .all => true
  | .pieces l => l.any (fun p => decide (p.1 < 128 * line + 128) && decide (128 * line < p.1 + p.2))

/-- The unregistered words of chosen lines leave an L1. -/
def Core.skimLines (c : Core) (p : Nat → Bool) : Core :=
  { c with l1 := (NMap.mapVals c.l1 (fun k l => if p k then l.skim else l)).filter (fun x => x.2.words != []) }

/-- `skim` (R177). -/
def execSkim (o : RArgs) (s : State) : Result :=
  execNext (do
    let a ← readS o.sa
    let b ← readS o.sb
    match rangeOf a b with
    | none => pure ()
    | some (lo, hi) =>
      let x ← extentOf lo hi
      let c := coreOf (← me)
      modify fun s => (s.l1Cores c).foldl (fun s k => s.modCore k (·.skimLines x.hasLine)) s) s

/-- The registered words of a core in chosen lines go home; without `keep`, its copies of those lines go. -/
def writeLinesHome (k : Nat) (p : Nat → Bool) (keep : Bool) (s : State) : State :=
  let s := (((s.core k).l1.map (·.1)).filter p).foldl (fun s l => writeHomeLine k l true s) s
  if keep then s else s.modCore k (·.skimLines p)

/-- The key material that a leaf's bytes are written under at a place (R113). -/
def leafMat (s : State) (l : Leaf) (loc : Nat) : KeyMat :=
  if !isHbm loc then .none
  else if l.pte.kind == 2 then s.keyMat (NMap.getD s.borrow (l.pte.frame / 2 ^ 31) {}).fkey
  else s.keyMat l.pte.key

/-- P of a word is cleared and zero written there under a key (R178). -/
def clearPoison (m : KeyMat) (w : Nat) (s : State) : State :=
  let r := s.lineRec (w / 32)
  homeWrite m (4 * w) 4 0 (s.setLine (w / 32) { r with p := r.p &&& ~~~(wordBit w) })

/-- The poisoned words that lie wholly within n bytes. -/
def State.poisonedIn (s : State) (loc n : Nat) : List Nat :=
  ((s.lines.filter (fun x => inRange loc n x.1)).map (fun r =>
    (upFrom (32 * r.1) 32).filter (fun w => r.2.p.getLsbD (w % 32) && decide (loc ≤ 4 * w) && decide (4 * w + 4 ≤ loc + n)))).flatten

/-- The poisoned words of a range are cleared, each under the key of the leaf that reaches it and by a request of its own (R449). -/
def clearPieces (c : Ctx) (l : List (Leaf × Nat × Nat)) (s : State) : State :=
  l.foldl (fun s x => (s.poisonedIn x.2.1 x.2.2).foldl (fun s w => clearPoison (leafMat s x.1 (4 * w)) w (noteRequest c 4 s)) s) s

/-- `wbr` (R178). -/
def execWbr (o : RArgs) (s : State) : Result :=
  execNext (do
    let inv := o.mod.getLsbD 0
    let pclr := o.mod.getLsbD 1
    if pclr then needSupervisor
    let a ← readS o.sa
    let b ← readS o.sb
    match rangeOf a b with
    | none => pure ()
    | some (lo, hi) =>
      let x ← extentOf lo hi
      let c := coreOf (← me)
      modify (drainCore c)
      modify fun s => (s.l1Cores c).foldl (fun s k => writeLinesHome k x.hasLine (!inv) s) s
      if pclr then
        let l ← translated lo hi
        modify (clearPieces (← myCtx) l)) s

/-- A flush of a core by context tag (R172, R179): none is `.all`. In a fused cluster it acts on the lines that the core's own L1 holds:
R176 speaks of the whole fused L1 for `skim` and `wbr` alone (log 125). -/
def flushTag (k : Nat) (tag : Option DWord) (s : State) : State :=
  let s := drainReg k s
  match tag with
  | none => flushCore k s
  | some t =>
    let c := s.core k
    let i := ((c.tags.find? (fun x => x.2 == t)).map (·.1)).getD 15
    let hit (l : Nat) : Bool :=
      let x := NMap.getD c.l1 l {}
      x.tag == i || x.tag == 15
    writeLinesHome k hit true s

/-- The target core of a flush. -/
def flushTarget (a : DWord) : M Nat := do
  if 191 < a.toNat then stopTrap { cause := 0x09, tval := a, estart := some 0 }
  return a.toNat

/-- `flctx` (R179). -/
def execFlctx (o : RArgs) (s : State) : Result :=
  execNext (do
    needSupervisor
    let a ← readS o.sa
    let t ← readS o.sb
    let k ← flushTarget a
    storesAcked
    modify (flushTag k (some t))) s

/-- `flctx.all`. -/
def execFlctxAll (o : RArgs) (s : State) : Result :=
  execNext (do
    needSupervisor
    let a ← readS o.sa
    let k ← flushTarget a
    storesAcked
    modify (flushTag k none)) s

/-! Steps that come to the homes. -/

/-- The key id under which a location reads as what was last written there, if a slot holds that key. -/
def State.plainKey (s : State) (loc : Nat) : Option Nat :=
  if isHbm loc then (s.keys.find? (fun x => x.2.mat == s.lineMat loc)).map (·.1) else some 0

/-- Whether a location's line stands at its home: one of a lease, once its lender has sent it (R123). -/
def State.lineHere (s : State) (loc : Nat) : Bool := !isLeased loc || (NMap.get? s.leasedHere (loc / 128)).isSome

/-- Whether a home has a place for what is written to a location: a page of a reservation, once it is materialised (R117). -/
def State.backed (s : State) (loc : Nat) : Bool :=
  let rp := (loc - unbackedBase) / 65536
  !isUnbacked loc || decide (rp % 2 ^ 26 ∈ (NMap.getD s.resvs (rp / 2 ^ 26) {}).pages)

/-- Whether a home answers a request of an agent's step for a location: its line there, no word struck by an error, no region lent, the
home's die in reach, and no scratchpad or non-coherent window, which have no home (R112, R115, R123, R124, R145, R430). -/
def State.homeAnswers (s : State) (loc n : Nat) : Bool :=
  !isScratch loc && !isHostPlain loc && s.lineHere loc && !s.bad loc n && !s.lentOut loc n && s.dieReachable loc

/-- A request for a line of a lease that is not at its home goes on to the lender, and waits (R123). -/
def askLender (loc : Nat) : M Unit := do
  let s ← get
  let r := loc - leasedBase
  let b := NMap.getD s.borrow (r / 2 ^ 47) {}
  if !s.lineHere loc && decide (r / 65536 % 2 ^ 31 < b.pages) then
    match leaseGoes (r / 2 ^ 47) b (r / 65536 % 2 ^ 31) (r % 65536) with
    | .home _ => needLeasedLine loc
    | _ => pure ()

/-- HOME_READ_REQUEST (R157): a word reaches its reader's L1 as an unregistered copy. A line that the L1 holds under another key id
takes none (R113). -/
def execHomeReadRequest (s : State) : Result :=
  match s.input with
  | .homeReadRequest core loc =>
    execAgent (do
      askLender loc
      modify fun s =>
        let w := loc / 4
        let s := settle (4 * w) 4 s
        let h := s.holder core (w / 32)
        match s.plainKey (4 * w) with
        | some key =>
          let other := (NMap.get? (s.core h).l1 (w / 32)).any (fun l => l.key != key)
          if homeCheck (some core) false w s = .ok && ((s.core h).l1Word w).isNone && !other && s.homeAnswers (4 * w) 4 then
            fillL1 h w (homeValue (s.lineMat (4 * w)) w s) key s
          else s
        | none => s) s
  | _ => .next s.tick

/-- HOME_REGISTRATION (R155): the core's oldest registration on its way is recorded. -/
def execHomeRegistration (s : State) : Result :=
  match s.input with
  | .homeRegistration core => execAgent (modify (recordNext core)) s
  | _ => .next s.tick

/-- Bytes as a little-endian number. -/
def leNat (l : List Byte) : Nat := l.foldr (fun b acc => acc * 256 + b.toNat) 0

/-- HOME_WRITE_THROUGH (R156): a core's write of up to a line arrives. What a home refuses, holds or has no place for (R117, R166, R171)
is not done. -/
def execHomeWriteThrough (s : State) : Result :=
  match s.input with
  | .homeWriteThrough core loc data =>
    execAgent (do
      askLender loc
      modify fun s =>
        let n := data.length
        if n = 0 || 128 < loc % 128 + n || !s.homeAnswers loc n || !s.backed loc ||
          (wordsOf loc n).any (fun w => homeCheck (some core) false w s != .ok) then s
        else
          let s := recordRange loc n s
          let s := homeWrite (s.lineMat loc) loc n (leNat data) s
          (wordsOf loc n).foldl (fun s w => dropUnreg core w s) s) s
  | _ => .next s.tick

/-- A line whose stamp is four epochs old loses its unregistered words (R161). -/
def L1Line.expire (l : L1Line) (epoch : BitVec 3) : L1Line := if epoch = l.stamp + 4 then l.skim else l

def Core.nextEpoch (c : Core) : Core :=
  if c.asleep then c
  else
    let e := c.epoch + 1
    { c with epoch := e, l1 := (NMap.mapVals c.l1 (fun _ l => l.expire e)).filter (fun x => x.2.words != []) }

/-- The device-wide tick (R161). -/
def epochTick (s : State) : State :=
  { (List.range coreCount).foldl (fun s c => s.modCore c Core.nextEpoch) s with epochAt := s.epochAt + 16384 }

/-- EPOCH_TICK (R161), every 16,384 cycles. -/
def execEpochTick (s : State) : Result :=
  execAgent (modify fun s => if s.epochAt + 16384 ≤ s.cycle then epochTick s else s) s

/-- A word lost by its owner is poisoned (R171). -/
def poisonWord (c w : Nat) (s : State) : State :=
  let r := s.lineRec (w / 32)
  if r.ownerOf w = some (.core c) then
    let r := r.clearWord w
    s.setLine (w / 32) { r with p := r.p ||| wordBit w }
  else s

/-- The registered words that a core holds in a line are lost, with its copies (R171). Stores on their way to the line, from whichever
cores, come first, so that none is recorded over a poisoned word. -/
def loseLine (c line : Nat) (s : State) : State :=
  let s := recordRange (128 * line) 128 s
  let s := (upFrom (32 * line) 32).foldl (fun s w => poisonWord c w s) s
  s.modCore c (·.dropHeld line)

/-- L1_UNCORRECTABLE_ERROR (R171). -/
def execL1UncorrectableError (s : State) : Result :=
  match s.input with
  | .l1UncorrectableError core line => execAgent (modify (loseLine core line)) s
  | _ => .next s.tick

/-- Whether a line lies in the HBM window of the physical function, within which the host programs the HDM range that it may
cache (R445). -/
def State.hdmLine (s : State) (line : Nat) : Bool :=
  let f := NMap.getD s.functions 0 {}
  isHbm (128 * line) && decide (f.barBase ≤ 128 * line) && decide (128 * line + 128 ≤ f.barBase + f.barSize)

/-- Whether the host reaches a line of HBM: an HDM line that a window of the physical function covers (R445, R447), in no region that
is lent (R124). -/
def State.hdmOpen (s : State) (line need : Nat) : Bool :=
  s.hdmLine line && !s.lentOut (128 * line) 128 && s.allowed 1 0 (128 * line) 128 need

/-- Whether a request of the host for a line is taken now: not while a word is an engine's to write (R166). -/
def State.takesHost (s : State) (line : Nat) : Bool := (s.lineRec line).e == 0

/-- A request of the host for an HDM line refused: a read completes with Unsupported Request, a write is dropped and counted (R447). -/
def hostRefused (line : Nat) (write : Bool) (s : State) : State :=
  if !s.hdmLine line then s
  else if write then { s with hostDrops := s.hostDrops + 1 }
  else { s with answer := .unsupported }

/-- The host reads a line to share it (R114, R445). -/
def hostReads (line : Nat) (s : State) : State :=
  let t := recallLine line (settle (128 * line) 128 s)
  if isHost (128 * line) then t
  else if s.hdmOpen line 1 then { t with hostLines := NMap.set t.hostLines line [] }
  else hostRefused line false s

/-- HOST_SHARED_READ: registered words of the line come home first. A line of HBM the host may hold from now. -/
def execHostSharedRead (s : State) : Result :=
  match s.input with
  | .hostSharedRead n =>
    execAgent (modify fun s =>
      let line := storeLoc (128 * n) / 128
      if s.takesHost line then hostReads line s else s) s
  | _ => .next s.tick

/-- What the host writes in a line that it has taken (R114): bytes from the line's start. -/
def hostFill (line : Nat) (data : List Byte) (s : State) : State :=
  { s with mem := s.mem.writeBytes (128 * line) (data.take 128) }

/-- The host takes a line exclusive and writes there (R114, R445). What it writes in a line of HBM comes home with the next snoop,
which is at once where a word of the line is watched (R217). -/
def hostWrites (line : Nat) (data : List Byte) (s : State) : State :=
  let t := hostTakesLine line s
  if isHost (128 * line) then evalWaits (128 * line) 128 (breakLinks line (hostFill line data t))
  else if s.hdmOpen line (if data == [] then 1 else 2) then
    let t := { t with hostLines := NMap.set t.hostLines line (data.take 128) }
    if t.watched (128 * line) 128 || t.cellsTouched (128 * line) 128 != [] then snoopHost line t else t
  else hostRefused line (data != []) s

/-- HOST_EXCLUSIVE_REQUEST: every copy of the line is recalled and dropped, then the host has its access. -/
def execHostExclusiveRequest (s : State) : Result :=
  match s.input with
  | .hostExclusiveRequest n data =>
    execAgent (modify fun s =>
      let line := storeLoc (128 * n) / 128
      if s.takesHost line then hostWrites line data s else s) s
  | _ => .next s.tick

/-- Whether a core runs nothing. -/
def State.idle (s : State) (core : Nat) : Bool :=
  (upFrom (4 * core) 4).all (fun n => (s.seq n).phase == .free || (s.seq n).phase == .reserved)

/-- CORE_SLEEP (R163, R467): an idle core's clock stops, but not in a fused cluster, whose other cores fill and read its L1 (R162, R164;
log 121). -/
def execCoreSleep (s : State) : Result :=
  match s.input with
  | .coreSleep core =>
    execAgent (modify fun s => if s.idle core && (s.cluster (core / 8)).fused.isNone then s.modCore core fun c => { c with asleep := true } else s) s
  | _ => .next s.tick

/-- A core that sleeps wakes with no unregistered word (R163). -/
def wakeCore (core : Nat) (s : State) : State :=
  if (s.core core).asleep then s.modCore core fun c => { c.skimAll with asleep := false } else s

def execCoreWake (s : State) : Result :=
  match s.input with
  | .coreWake core => execAgent (modify (wakeCore core)) s
  | _ => .next s.tick

/-- LONG_LATENCY_COMPLETE (R34): a producer whose value stands sets its destination full. -/
def execLongLatencyComplete (s : State) : Result :=
  match s.input with
  | .longLatencyComplete n file reg =>
    execAgent (modify fun s =>
      if (s.seq n).standing file reg then s.modSeq n (·.complete file reg) else s) s
  | _ => .next s.tick

end Sys2Proof.Machine
end

