-- ==== Sys2Proof/Machine/XlatOps.lean ====
section
/-! DEFINITION. `tlbinv` and `tlbprobe` (04 R109, R110). -/

namespace Sys2Proof.Machine

/-- Whether a command has registered destination words through a page selected: those accesses have been sent. -/
def EngCmd.sentThrough (c : EngCmd) (sel : Selection) : Bool := c.stop.isNone &&
  c.dstPages.any (fun x => sel.access c.ctx.asid x.2.level (65536 * x.1))

/-- The same of a tile step on an engine of chosen cores. -/
def TileRec.sentThrough (r : TileRec) (cores : List Nat) (sel : Selection) : Bool :=
  r.running.any (fun t => decide (t.core ∈ cores) && t.pages.any (fun x => sel.access r.ctx.asid x.2.level (65536 * x.1)))

/-- An AtomicOp that a sequencer of chosen cores has sent to the host through a page selected. -/
def SentOp.sentThrough (o : SentOp) (cores : List Nat) (sel : Selection) : Bool :=
  o.ctx.core ∈ cores && sel.access o.ctx.asid o.req.level o.va

/-- Whether a sequencer watches a word or waits at a cell through a page selected. -/
def State.waitsThrough (s : State) (sel : Selection) (n : Nat) : Bool :=
  let c := s.core (coreOf n)
  let through (m level va : Nat) : Bool := m == n && sel.access (s.seq n).asid level va
  c.waits.any (fun x => through x.2.seq x.2.level x.2.va && !x.2.fired) ||
  c.cells.any (fun w => through w.seq w.level w.va && w.got.isNone)

/-- Accesses not yet performed that wait at a home retranslate (R105): their instructions execute again from the start, as after a
pre-emption (R218, R397; log 126). -/
def restartWaits (cores : List Nat) (sel : Selection) (s : State) : State :=
  ((s.seqs.map (·.1)).filter (fun n => coreOf n ∈ cores && s.waitsThrough sel n)).foldl (fun s n =>
    (s.modCore (coreOf n) (·.dropWaits n)).modSeq n fun q => { q with wait := none }) s

/-- `tlbinv` (R109): TYPE in MOD[6:4], SCOPE in MOD[9:7]. -/
def execTlbinv (o : RArgs) (s : State) : Result :=
  execNext (do
    needSupervisor
    let ty := (o.mod.extractLsb' 4 3).toNat
    let sc : Scope := match (o.mod.extractLsb' 7 3).toNat with
      | 1 => .core | 2 => .clu | 3 => .die | _ => .dev
    let len ← if ty = 3 then readReg o.d else pure 0
    let a ← readS o.sa
    let b ← readS o.sb
    release sc
    let asid := b.extractLsb' 0 16
    let va := a.toNat % 2 ^ 56
    let sel : Option Selection := match ty with
      | 0 => some Selection.all
      | 1 => some (Selection.byAsid asid)
      | 2 => some (Selection.byRange asid va va)
      | _ => if len = 0 then none else some (Selection.byRange asid va (Min.min (va + len.toNat) (2 ^ 56) - 1))
    match sel with
    | none => pure ()
    | some sel =>
      let core := coreOf (← me)
      let cores := coresIn sc core
      modify (invalidate sc core sel)
      modify (restartWaits cores sel)
      let s ← get
      if s.engines.any (fun x => engineInScope sc core x.2 && x.2.sentThrough sel) || s.hostOps.any (·.sentThrough cores sel) ||
          s.tiles.any (fun x => x.2.sentThrough cores sel) then
        stopWait .engines) s

/-- The translation of a VA that some buffer of the core holds: the sequencer's register, the TLBs of the core and the cluster's. -/
def State.heldIn (s : State) (c : Ctx) (va : Nat) : Option TlbEntry := (s.lookup c .unit va).or (s.lookup c .gather va)

/-- What a probe finds: the leaf and whether a buffer held it, or the level and cause of a fault (R110). Stores of the sequencer come
first. A VA of the scratchpad window, which R221 leaves untranslated, is walked like any other (DESIGN CHOICE, log 137). -/
def probe (c : Ctx) (kind va : Nat) : M (Except XFault (Leaf × Bool)) := do
  storesAcked
  let s ← get
  let (found, s) : Except (XFault ⊕ Nat) (Leaf × Bool) × State := match s.heldIn c va with
    | some t => (.ok (⟨t.pte, t.level, t.entry⟩, true), s)
    | none =>
      let ((r, _), s) := walk c va s
      (r.map (·, false), s)
  set s
  match found with
  | .error (.inl f) => return .error f
  | .error (.inr a) => stopWait (.held a)
  | .ok (l, hit) =>
    match tierFault s c.tenant l with
    | some cause => return .error ⟨cause, l.level⟩
    | none =>
      if l.pte.permits kind c.priv && leafPhysicalOk s c l va 1 kind then return .ok (l, hit)
      else return .error ⟨0x09, l.level⟩

/-- The probe's result word (R110). Bits 54:52 are the KIND of the leaf, as in the answer of `tstat` (DEDUCED, log 46). -/
def probeResult (va : Nat) : Except XFault (Leaf × Bool) → DWord
  | .error f => BitVec.ofNat 64 (2 ^ 63 + f.level * 256 + f.cause)
  | .ok (l, hit) =>
    let pa := if l.pte.kind == 1 || l.pte.kind == 4 then l.pa va else 0
    BitVec.ofNat 64 ((if hit then 2 ^ 57 else 0) + l.level * 2 ^ 55 + l.pte.kind * 2 ^ 52 + pa)

/-- `tlbprobe`: KIND in MOD[9:8], USR in MOD[7]. -/
def execTlbprobe (o : RArgs) (s : State) : Result :=
  execNext (do
    needSupervisor
    let a ← readS o.sa
    needWritable .scalar o.d
    let c ← myCtx
    let va := a.toNat % 2 ^ 56
    let kind := match (o.mod.extractLsb' 8 2).toNat with
      | 0 => kRead | 1 => kWrite | 2 => kFetch | _ => kRmw
    let r ← probe (if o.mod.getLsbD 7 then { c with priv := false } else c) kind va
    writeLong o.d (probeResult va r)) s

end Sys2Proof.Machine
end

