-- ==== Sys2Proof/Machine/Tier.lean ====
section
/-! DEFINITION. The tier instructions (05 R130 to R144). -/

namespace Sys2Proof.Machine

/-- A tier instruction issues after its sequencer's stores are visible at dev (R131). -/
def tierIssue : M Unit := release .dev

/-- The permission fault of a reservation named wrongly: TVAL is the ID (R133, R135). -/
def resvFault (a : DWord) : Trap := { cause := 0x09, tval := a, estart := some 0 }

/-! Reservations (R133 to R135). -/

/-- Capacity reserved on a die (R116). -/
def State.reserved (s : State) (die : Nat) : Nat :=
  ((s.resvs.filter (fun x => x.1 / 1024 == die)).map (fun x => x.2.cap)).foldl (· + ·) 0

/-- Capacity that a tenant holds on a die. -/
def State.heldBy (s : State) (tenant die : Nat) : Nat :=
  ((s.resvs.filter (fun x => x.1 / 1024 == die && x.2.tenant == tenant)).map (fun x => x.2.cap)).foldl (· + ·) 0

/-- Pages of capacity that a die reserves at most (R116). -/
def dieCapacity : Nat := 1280

/-- Lines of one slice: 4 MiB (R2). -/
def sliceLines : Nat := 32768

/-- Lines that a slice keeps for ordinary caching: those that its share of the die's reserved pages leaves, 512 lines of each page spread
over 40 slices (R116, R147). -/
def State.sliceRoom (s : State) (h : Nat) : Nat := sliceLines - (512 * s.reserved (h / 40) + 39) / 40

/-- The leased lines of a slice. -/
def State.leasedIn (s : State) (h : Nat) : List Nat := (s.leasedHere.map (·.1)).filter (fun l => s.home (128 * l) == h)

/-- Those that it can write back: none of their words lost or an engine's, and no store there held back. -/
def State.backable (s : State) (h : Nat) : List Nat :=
  (s.leasedIn h).filter (fun l => (s.lineRec l).p == 0 && (s.lineRec l).e == 0 &&
    !s.cores.any (fun c => c.2.regq.any (fun p => p.word / 32 == l && s.claimHeld (.core c.1) p.word)))

/-- A leased line of a slice goes back to its lender, if one can (R441), its registered words recalled first. Which one is a free value
(log 102). -/
def lendBack (h : Nat) (s : State) : State :=
  let ls := s.backable h
  if ls = [] then s
  else
    let l := ls.getD (Config.evictedLine s.freeCtr % ls.length) 0
    let s := recallLine l (readyRange (128 * l) 128 { s with freeCtr := s.freeCtr + 1 })
    let data := s.mem.readBytes (128 * l) 128
    sendLineBack ((128 * l - leasedBase) / 2 ^ 47) l data
      { s with mem := s.mem.clear (128 * l) 128, leasedHere := NMap.erase s.leasedHere l }

/-- Room for one more leased line in its slice. -/
def makeLeaseRoom (line : Nat) (s : State) : State :=
  let h := s.home (128 * line)
  if (s.leasedIn h).length < s.sliceRoom h then s else lendBack h s

/-- A die's slices give up the leased lines that they have no room for since capacity was reserved there (R116). -/
def trimSlices (die : Nat) (s : State) : State :=
  (upFrom (40 * die) 40).foldl (fun s h =>
    (List.range ((s.leasedIn h).length - s.sliceRoom h)).foldl (fun s _ => lendBack h s) s) s

def State.freeResvs (s : State) (die : Nat) : List Nat :=
  (upFrom (1024 * die) 1024).filter (fun i => (NMap.get? s.resvs i).isNone)

/-- `resv.new` (R133). -/
def execResvNew (o : MArgs) (s : State) : Result :=
  execNext (do
    let cap := (← readS o.sa).toNat
    let limit := (← readS o.sb).toNat
    let cowbase := (← readS o.sc).toNat
    needWritable .scalar o.d
    tierIssue
    let s ← get
    let q ← mySeq
    let die := if o.imm.toNat % 8 = 4 then dieOf s.cur else o.imm.toNat % 8
    if limit = 0 || 2 ^ 26 < limit || limit < cap || limit < cowbase then writeLong o.d (BitVec.ofNat 64 (2 ^ 63 + 4))
    else if dieCapacity - s.reserved die < cap then writeLong o.d (BitVec.ofNat 64 (2 ^ 63 + 1))
    else if !q.priv && NMap.getD s.quotas (4 * q.tenant + die) 0 < s.heldBy q.tenant die + cap then
      writeLong o.d (BitVec.ofNat 64 (2 ^ 63 + 2))
    else
      match ← pickFree (s.freeResvs die) with
      | none => writeLong o.d (BitVec.ofNat 64 (2 ^ 63 + 3))
      | some id =>
        let r : Resv :=
          { cap := cap, limit := limit, cowbase := cowbase, ncow := cowbase, tenant := q.tenant,
            group := if q.priv || q.launch.isNone then none else some q.group }
        modify fun s => trimSlices die { s with resvs := NMap.set s.resvs id r }
        writeLong o.d (BitVec.ofNat 64 id)
        if o.mod.getLsbD 2 then modMe fun q => { q with resvid := BitVec.ofNat 64 (2 ^ 12 + id) }) s

/-- A reservation of a tenant. -/
def State.resvOf (s : State) (tenant : Nat) (a : DWord) : Option Resv :=
  if 4096 ≤ a.toNat then none else (NMap.get? s.resvs a.toNat).filter (fun r => r.tenant == tenant)

/-- `resv.use` (R133). -/
def execResvUse (o : MArgs) (s : State) : Result :=
  execNext (do
    let a ← readS o.sa
    tierIssue
    let q ← mySeq
    if a.getLsbD 63 then modMe fun q => { q with resvid := q.resvid &&& 0xFFF }
    else if ((← get).resvOf q.tenant a).isSome then modMe fun q => { q with resvid := 0x1000 ||| a }
    else stopTrap (resvFault a)) s

/-- `resv.quota`. -/
def execResvQuota (o : MArgs) (s : State) : Result :=
  execNext (do
    needSupervisor
    let t ← readS o.sa
    let n ← readS o.sb
    tierIssue
    modify fun s => { s with quotas := NMap.set s.quotas (4 * t.toNat + o.imm.toNat % 4) n.toNat }) s

/-- `resv.pool`. -/
def execResvPool (o : MArgs) (s : State) : Result :=
  execNext (do
    needSupervisor
    let a ← readS o.sa
    tierIssue
    if a.toNat % 64 ≠ 0 then stopTrap { cause := 0x0D, tval := a, estart := some 0 }
    modify fun s => s.modDie (o.imm.toNat % 4) fun d => { d with pool := a.toNat }) s

/-- The binding of a sequencer to a reservation cleared (R135). -/
def Seq.unbind (q : Seq) (id : Nat) : Seq :=
  if resvV q.resvid && resvId q.resvid == id then { q with resvid := q.resvid &&& 0xFFF } else q

/-- A command's or record's snapshot of its sequencer's RESVID. -/
def Ctx.unbind (c : Ctx) (id : Nat) : Ctx := if resvV c.resvid && resvId c.resvid == id then { c with resvid := c.resvid &&& 0xFFF } else c

/-- Every claim to a range of lines is gone, an engine's too, with the copies, links and stores there: only P stands (R135, R171; log 112).
Instructions that wait at words or cells there execute again from the start, and find their leaf not present. -/
def emptyRange (loc n : Nat) (s : State) : State :=
  let s := forgetLines loc n s
  let here (l : Nat) : Bool := decide (loc ≤ l) && decide (l < loc + n)
  let out (c : Core) : List Nat :=
    (c.waits.filter (fun w => here w.2.loc && !w.2.fired)).map (·.2.seq) ++ (c.cells.filter (fun w => here w.loc && w.got.isNone)).map (·.seq)
  let ns := (s.cores.map (fun x => out x.2)).flatten
  let s := { s with
    lines := (s.lines.map (fun x => if inRange loc n x.1 then (x.1, { p := x.2.p }) else x)).filter (fun x => x.2 != {})
    cores := NMap.mapVals s.cores (fun _ c =>
      { c with l1 := c.l1.filter (fun l => !inRange loc n l.1), regq := c.regq.filter (fun p => !inRange loc n (p.word / 32)),
               links := c.links.filter (fun l => !inRange loc n l.line) })
    mem := s.mem.clear loc n }
  ns.foldl (fun s m => (s.modCore (coreOf m) (·.dropWaits m)).modSeq m fun q => { q with wait := none }) s

/-- A reservation freed (R135): its pages discarded, every binding cleared, in running sequencers and saved contexts, and in what engine
commands and tile records keep of them. -/
def freeResv (id : Nat) (s : State) : State :=
  let s := emptyRange (unbackedLoc id 0 0) (2 ^ 42) s
  { s with resvs := NMap.erase s.resvs id, pageSlots := s.pageSlots.filter (fun x => x.1 / 2 ^ 26 != id), seqs := NMap.mapVals s.seqs (fun _ q => q.unbind id),
           saved := NMap.mapVals s.saved (fun _ x => { x with q := x.q.unbind id }),
           engines := NMap.mapVals s.engines (fun _ e => { e with ctx := e.ctx.unbind id }),
           tiles := NMap.mapVals s.tiles (fun _ r => { r with ctx := r.ctx.unbind id }) }

/-- `unresv`. -/
def execUnresv (o : MArgs) (s : State) : Result :=
  execNext (do
    let a ← readS o.sa
    tierIssue
    let q ← mySeq
    match (← get).resvOf q.tenant a with
    | none => stopTrap (resvFault a)
    | some _ => modify (freeResv a.toNat)) s

/-! Page loops (R132). -/

/-- One page of a tier instruction, page ESTART; the next turn goes on with the next page, and the last page sets ESTART := 0. Of
several misaligned VAs the first of the list is reported (`cfork`: the child's, log 113). -/
def pageLoop (n : DWord) (bases : List DWord) (f : Nat → M Unit) : M Cont := do
  if n ≠ 0 then
    match bases.find? (fun v => v.toNat % 65536 != 0) with
    | some v => stopTrap { cause := 0x0D, tval := v, estart := some 0 }
    | none => pure ()
  let k := (← mySeq).estart.toNat
  let pages := Min.min n.toNat (2 ^ 40)
  if k < pages then atElement k (allOrWait (f k))
  if k + 1 < pages then
    modMe fun q => { q with estart := BitVec.ofNat 40 (k + 1) }
    return .again
  clearEstart
  return .next

/-- Page k of a VA. -/
def pageVa (a : DWord) (k : Nat) : Nat := (a.toNat + 65536 * k) % 2 ^ 56

/-- The leaf of a page as its entry now stands, checked as an access of the kind (R132). -/
def pageLeaf (c : Ctx) (kind va k : Nat) : M Leaf := do
  currentLeaf c .l1 kind va 65536 k .none (← checkLeaf c .l1 kind va 65536 k .none)

/-- A page of a reservation discarded (R136). -/
def discardPage (resv page : Nat) (s : State) : State := unmaterialise resv page s

/-- `disc` (R136). -/
def execDisc (o : MArgs) (s : State) : Result :=
  execSeq (do
    let a ← readS o.sa
    let n ← readS o.sb
    tierIssue
    let c ← myCtx
    pageLoop n [a] fun k => do
      let l ← pageLeaf c kRmw (pageVa a k) k
      if l.pte.kind == 3 then modify (discardPage (l.pte.frame / 2 ^ 26) (l.pte.frame % 2 ^ 26))) s

/-- The lines of a page moved to another index (R137): registered words come home, the target page takes its slot, the lines and an
engine's claims to them go there, and the source page gives up its slot. A page moved to its own place stays (log 37). -/
def movePage (r i t j : Nat) (s : State) : State :=
  if r = t && i = j then s
  else
    let src := unbackedLoc r i 0
    let dst := unbackedLoc t j 0
    let from' := i ∈ (NMap.getD s.resvs r {}).pages
    let to' := j ∈ (NMap.getD s.resvs t {}).pages
    let s := readyRange src 65536 s
    let cells := if from' then s.rangeUnder .none src 65536 else []
    let s := if from' && !to' then materialise t j s else s
    let s := forgetLines dst 65536 s
    let s := overwritten dst 65536 { s with mem := (s.mem.clear dst 65536).writeCells dst cells }
    let s := moveLines src dst 65536 0 .none (forgetLines src 65536 s)
    redirectEngines src { loc := dst } (if from' then unmaterialise r i s else s)

/-- `umig` (R137). -/
def execUmig (o : MArgs) (s : State) : Result :=
  execSeq (do
    let a ← readS o.sa
    let n ← readS o.sb
    let t ← readS o.sc
    tierIssue
    let c ← myCtx
    pageLoop n [a] fun k => do
      let va := pageVa a k
      let l ← pageLeaf c kRmw va k
      match (← get).resvOf c.tenant t with
      | none => stopTrap (xtrap 0x09 l.level kRmw va k)
      | some target =>
        if l.pte.kind != 3 then stopTrap (xtrap 0x09 l.level kRmw va k)
        let r := l.pte.frame / 2 ^ 26
        let i := l.pte.frame % 2 ^ 26
        if target.limit ≤ i then stopTrap (xtrap 0x0A l.level kRmw va k)
        if i ∈ (NMap.getD (← get).resvs r {}).pages && !(i ∈ target.pages) && target.cap ≤ target.pages.length then
          stopTrap (xtrap 0x13 l.level kRmw va k)
        let src := unbackedLoc r i 0
        modify (readyRange src 65536)
        checkLines src 65536 false l.level kRmw va k (pure ())
        modify (movePage r i t.toNat i)
        modify (rewriteLeaf c l va (l.pte.retarget 3 (t.toNat * 2 ^ 26 + i) false))) s

/-- A frame for late assignment from the pool of a reservation's die (R118). -/
def promote (c : Ctx) (l : Leaf) (kind va k : Nat) : M Unit := do
  if !(← framePage c l kind va k) then stopTrap (xtrap 0x13 l.level kind va k)

/-- `promo` (R138). -/
def execPromo (o : MArgs) (s : State) : Result :=
  execSeq (do
    let a ← readS o.sa
    let n ← readS o.sb
    tierIssue
    let c ← myCtx
    pageLoop n [a] fun k => do
      let va := pageVa a k
      let l ← pageLeaf c kRmw va k
      if l.pte.kind == 3 then
        if !l.pte.lf then stopTrap (xtrap 0x09 l.level kRmw va k)
        promote c l kRmw va k) s

/-! cfork (R139). -/

/-- A field of n bits at lo replaced. -/
def Pte.setField (p : Pte) (lo n v : Nat) : Pte :=
  (p &&& ~~~(BitVec.ofNat 128 ((2 ^ n - 1) * 2 ^ lo))) ||| BitVec.ofNat 128 (v % 2 ^ n * 2 ^ lo)

/-- The child's leaf: copy-on-write shared, with the parent's FRAME, FMT, GEO and KEY. -/
def Pte.childOf (c p : Pte) : Pte :=
  ((((c.setField 1 3 4).setField 36 38 p.frame).setField 16 5 p.fmt).setField 21 2 p.geo).setField 25 11 p.key

/-- `cfork`. -/
def execCfork (o : MArgs) (s : State) : Result :=
  execSeq (do
    let a ← readS o.sa
    let b ← readS o.sb
    let n ← readS o.sc
    tierIssue
    let c ← myCtx
    pageLoop n [a, b] fun k => do
      let pva := pageVa b k
      let cva := pageVa a k
      let p ← pageLeaf c kRead pva k
      let ch ← pageLeaf c kWrite cva k
      if p.level != 3 then stopTrap (xtrap 0x09 p.level kRead pva k)
      if ch.level != 3 then stopTrap (xtrap 0x09 ch.level kWrite cva k)
      if p.pte.kind == 3 then
        if p.pte.lf then promote c p kRead pva k else stopTrap (xtrap 0x09 p.level kRead pva k)
      let late := p.pte.kind == 3
      let p ← if late then pageLeaf c kRead pva k else pure p
      let ch ← if late then pageLeaf c kWrite cva k else pure ch
      if (p.pte.kind != 1 && p.pte.kind != 4) || p.pte.ic then stopTrap (xtrap 0x09 p.level kRead pva k)
      if p.pte.scf != 0 then stopTrap (xtrap 0x0E p.level kRead pva k)
      if ch.pte.kind != 3 then stopTrap (xtrap 0x09 ch.level kWrite cva k)
      modify (discardPage (ch.pte.frame / 2 ^ 26) (ch.pte.frame % 2 ^ 26))
      modify (rewriteLeaf c ch cva (ch.pte.childOf p.pte))
      modify (rewriteLeaf c p pva (p.pte.setField 1 3 4))) s

/-! tstat (R140). -/

def SlotState.code : SlotState → Nat
  | .free => 0 | .active => 1 | .demoting => 2 | .demoted => 3 | .lost => 4

def LendState.code : LendState → Nat
  | .free => 8 | .offered => 9 | .lent => 10 | .reclaiming => 11

/-- `.page`. -/
def pageState (s : State) (va : Nat) : Except XFault (Leaf × Bool) → DWord
  | .error f => BitVec.ofNat 64 (2 ^ 63 + f.level * 256 + f.cause)
  | .ok (l, _) =>
    let k := l.pte.kind
    let rest := match k with
      | 2 => (NMap.getD s.borrow (l.pte.frame / 2 ^ 31) {}).st.code * 2 ^ 48 + l.pte.frame / 2 ^ 31
      | 3 =>
        let r := l.pte.frame / 2 ^ 26
        (if l.pte.frame % 2 ^ 26 ∈ (NMap.getD s.resvs r {}).pages then 2 ^ 56 else 0) + r
      | _ =>
        let pa := l.pa va
        if isHbm pa then 4 * (pa / 2 ^ 37 % 4) else if isHostCoherent pa then 1 else 2
    BitVec.ofNat 64 (k * 2 ^ 60 + rest)

/-- `.resv`. -/
def resvState (s : State) (tenant : Nat) (a : DWord) : DWord :=
  match s.resvOf tenant a with
  | none => BitVec.ofNat 64 (2 ^ 63)
  | some r => BitVec.ofNat 64 (r.cap + r.pages.length * 2 ^ 11 + r.ncow * 2 ^ 22 + a.toNat / 1024 * 2 ^ 49)

/-- `.lease`. -/
def leaseState (s : State) (a : DWord) : DWord :=
  let i := a.toNat % 128
  if a.getLsbD 7 then BitVec.ofNat 64 (NMap.getD s.lend i {}).st.code
  else
    let b := NMap.getD s.borrow i {}
    BitVec.ofNat 64 (b.st.code + b.cursor * 2 ^ 4 + b.dbw % 2 ^ 16 * 2 ^ 35)

/-- `tstat`. -/
def execTstat (o : MArgs) (s : State) : Result :=
  execNext (do
    let form := o.mod.toNat % 4
    if form = 2 then needSupervisor
    let a ← readS o.sa
    needWritable .scalar o.d
    tierIssue
    let c ← myCtx
    match form with
    | 0 =>
      let r ← probe { c with priv := false } kRead (a.toNat % 2 ^ 56)
      writeLong o.d (pageState (← get) (a.toNat % 2 ^ 56) r)
    | 1 => writeLong o.d (resvState (← get) c.tenant a)
    | _ => writeLong o.d (leaseState (← get) a)) s

/-! Leases (R141 to R144). -/

/-- Whether a range of HBM may be lent (R141 code 2). -/
def lendable (s : State) (base size key : Nat) : Bool :=
  base % 65536 == 0 && size % 65536 == 0 && decide (0 < size) && decide (size ≤ 2 ^ 38) && isHbm base && isHbm (base + size - 1) &&
  s.keyMat key != .none

/-- Local copies of a region go home before it is lent (R124). -/
def leaveRegion (base size : Nat) (s : State) : State :=
  let s := readyRange base size s
  let ls := (s.lines.map (·.1)) ++ (s.cores.map (fun c => c.2.linesIn base size)).flatten
  (ls.filter (fun l => decide (base ≤ 128 * l) && decide (128 * l < base + size))).foldl (fun s l => dropLineEverywhere l s) s

/-- What is left of a range without n bytes from a base: a piece below them, a piece above. -/
def cutRange (lo len base n : Nat) : List (Nat × Nat) :=
  [(lo, Min.min (lo + len) base - lo), (Max.max lo (base + n), lo + len - Max.max lo (base + n))].filter (fun x => x.2 != 0)

/-- The bytes given are refused to a device no more (R128; log 124). -/
def State.unbar (s : State) (dev base n : Nat) : State :=
  { s with barred := (s.barred.map (fun b =>
      if b.1 = dev then (cutRange b.2.1 b.2.2 base n).map (fun x => (dev, x.1, x.2)) else [b])).flatten }

def addOffer (i : Nat) (e : LendEntry) (s : State) : State := { s.unbar e.dev e.base (65536 * e.pages) with lend := NMap.set s.lend i e }

/-- The borrower slot, and the lender entry, that a scalar names; a number above 127 names none. -/
def State.slotAt (s : State) (a : DWord) : BorrowSlot := if a.toNat < 128 then NMap.getD s.borrow a.toNat {} else {}

def State.entryAt (s : State) (a : DWord) : LendEntry := if a.toNat < 128 then NMap.getD s.lend a.toNat {} else {}

/-- `loffer` (R141): where several reasons of refusal hold, the lowest code (DESIGN CHOICE, log 144). -/
def execLoffer (o : MArgs) (s : State) : Result :=
  execNext (do
    needSupervisor
    let base := (← readS o.sa).toNat
    let size := (← readS o.sb).toNat
    let dev := (← readS o.sc).toNat % 65536
    needWritable .scalar o.d
    tierIssue
    let s ← get
    let key := o.mod.toNat % 2048
    match (List.range 128).filter (fun i => (NMap.getD s.lend i {}).st == .free) with
    | [] => writeLong o.d (BitVec.ofNat 64 (2 ^ 63 + 1))
    | free =>
      if !lendable s base size key then writeLong o.d (BitVec.ofNat 64 (2 ^ 63 + 2))
      else if s.lentOut base size then writeLong o.d (BitVec.ofNat 64 (2 ^ 63 + 3))
      else
        match ← pickFree free with
        | none => pure ()
        | some i =>
          modify (leaveRegion base size)
          modify (addOffer i ⟨.offered, base, size / 65536, key, dev, o.imm.toNat, none⟩)
          modify (sendLease dev .offer i (leBytes 8 base ++ leBytes 4 (size / 65536) ++ leBytes 4 o.imm.toNat))
          writeLong o.d (BitVec.ofNat 64 i)) s

/-- The descriptor of `ltake` (R142). -/
structure TakeDesc where
  ldev : Nat
  lent : Nat
  slot : Nat
  fkey : Nat
  fbase : Nat
  fsize : Nat
  dbw : Nat
  reserved : Bool
deriving DecidableEq, Repr

def takeDesc (v : Nat) : TakeDesc :=
  { ldev := bits v 0 16, lent := bits v 16 8, slot := bits v 24 8, fkey := bits v 32 16, fbase := bits v 64 64,
    fsize := bits v 128 64, dbw := bits v 192 32, reserved := bits v 48 16 != 0 || bits v 224 288 != 0 }

/-- Whether a range lies wholly in one range of R111. -/
def oneRange (base size : Nat) : Bool :=
  let last := base + size - 1
  (isHbm base && isHbm last) || (isHostCoherent base && isHostCoherent last) || (isHostPlain base && isHostPlain last)

/-- The demotion bandwidth that a lease needs at least, in GB/s (R125): T_reclaim counts 10 µs. -/
def minDbw (pages t : Nat) : Nat := (pages * 65536 + t * 10000 - 1) / (t * 10000)

/-- Bandwidth already promised (R125). -/
def State.dbwInUse (s : State) : Nat :=
  ((s.borrow.filter (fun x => x.2.st == .active || x.2.st == .demoting)).map (fun x => x.2.dbw)).foldl (· + ·) 0

/-- The slot that a descriptor asks for, if it is FREE. -/
def State.slotFor (s : State) (d : TakeDesc) : Option Nat :=
  let free (i : Nat) : Bool := (NMap.getD s.borrow i {}).st == .free
  if d.slot = 0xFF then (List.range 128).find? free else if free d.slot then some d.slot else none

/-- An offer accepted: the slot becomes ACTIVE, and the lender is told. -/
def takeLease (d : TakeDesc) (i base pages : Nat) (s : State) : State :=
  let b : BorrowSlot :=
    { st := .active, ldev := d.ldev, lent := d.lent, base := base, pages := pages, fkey := d.fkey, fbase := d.fbase,
      fsize := d.fsize, dbw := d.dbw }
  sendLease d.ldev .take d.lent [] { s with borrow := NMap.set s.borrow i b, offers := NMap.erase s.offers (256 * d.ldev + d.lent) }

/-- Whether the lender still holds the offer open: a free value (log 35). -/
def stillOpen : M Bool := do
  let k ← freshFree
  return (!Config.offerClosed k)

/-- `ltake` (R142): the reasons in the order 6, 1, 5, 2, 3, 4. -/
def execLtake (o : MArgs) (s : State) : Result :=
  execNext (do
    needSupervisor
    let a := (← readS o.sa).toNat % 2 ^ 56
    needWritable .scalar o.d
    tierIssue
    if a % 64 ≠ 0 then stopTrap (misaligned kRead a 0)
    let c ← myCtx
    let (_, p) ← resolve c .l1 kRead a 64 0
    let d := takeDesc (← loadBytes c p 64 false kRead a 0)
    let refuse (k : Nat) : M Unit := writeLong o.d (BitVec.ofNat 64 (2 ^ 63 + k))
    if d.reserved || (128 ≤ d.slot && d.slot < 0xFF) then refuse 6
    else
      match NMap.get? (← get).offers (256 * d.ldev + d.lent) with
      | none => refuse 1
      | some (base, pages, t) =>
        if !(← stillOpen) then
          modify fun s => { s with offers := NMap.erase s.offers (256 * d.ldev + d.lent) }
          refuse 1
        else
          let s ← get
          match s.slotFor d with
          | none => refuse 5
          | some i =>
            if !(oneRange d.fbase d.fsize && d.fbase % 65536 == 0 && decide (pages * 65536 ≤ d.fsize)) then refuse 2
            else if d.dbw < minDbw pages t then refuse 3
            else if 1750 < s.dbwInUse + d.dbw then refuse 4
            else
              modify (takeLease d i base pages)
              writeLong o.d (BitVec.ofNat 64 i)) s

/-- T_reclaim plus 50 µs, in cycles (R3, R127). -/
def reclaimCycles (t : Nat) : Nat := t * 10500 + 52500

/-- A reclaim begins at the lender: the deadline runs from now (R127). -/
def startReclaim (i : Nat) (s : State) : State :=
  let e := NMap.getD s.lend i {}
  { s with lend := NMap.set s.lend i { e with st := .reclaiming, deadline := some (s.cycle + reclaimCycles e.t) } }

/-- `lrecl` (R143). -/
def execLrecl (o : MArgs) (s : State) : Result :=
  execNext (do
    needSupervisor
    let a ← readS o.sa
    needWritable .scalar o.d
    tierIssue
    let e := (← get).entryAt a
    match e.st with
    | .offered =>
      modify fun s => { s with lend := NMap.erase s.lend a.toNat }
      writeLong o.d 0
    | .lent =>
      modify (startReclaim a.toNat)
      modify (sendLease e.dev .reclaim a.toNat [])
      writeLong o.d 1
    | _ => writeLong o.d (BitVec.ofNat 64 (2 ^ 63))) s

/-- A pull begins at the borrower (R127). -/
def startPull (i : Nat) (s : State) : State :=
  let b := NMap.getD s.borrow i {}
  { s with borrow := NMap.set s.borrow i { b with st := .demoting, cursor := 0, moved := 0, pulling := none } }

/-- `lret.ret` (R144). -/
def execLretRet (o : MArgs) (s : State) : Result :=
  execNext (do
    needSupervisor
    let a ← readS o.sa
    needWritable .scalar o.d
    tierIssue
    let b := (← get).slotAt a
    if b.st = .active then
      modify (startPull a.toNat)
      modify (sendLease b.ldev .returnBegun b.lent [])
      writeLong o.d 0
    else writeLong o.d (BitVec.ofNat 64 (2 ^ 63))) s

/-- A tagged command that reads or writes back a line of a slot. -/
def RKind.readsSlot (slot : Nat) : RKind → Bool
  | .line _ i _ => i == slot
  | .back _ i => i == slot
  | _ => false

/-- Reads and writes of a slot's lines that are under way are forgotten: an answer that comes later is for no lease (R128). -/
def dropReads (slot : Nat) (s : State) : State :=
  { s with
    relov := { s.relov with cmds := s.relov.cmds.filter (fun x => !x.2.kind.readsSlot slot) }
    leaseReads := s.leaseReads.filter (fun l => !inRange (leasedLoc slot 0 0) (2 ^ 47) l) }

/-- `lret.free`. -/
def execLretFree (o : MArgs) (s : State) : Result :=
  execNext (do
    needSupervisor
    let a ← readS o.sa
    needWritable .scalar o.d
    tierIssue
    let b := (← get).slotAt a
    if b.st = .demoted || b.st = .lost then
      modify fun s => { (dropReads a.toNat s) with borrow := NMap.erase s.borrow a.toNat }
      writeLong o.d 0
    else writeLong o.d (BitVec.ofNat 64 (2 ^ 63))) s

end Sys2Proof.Machine
end

