-- ==== Sys2Proof/Machine/Lease.lean ====
section
/-! DEFINITION. The lease handshake as its messages and pulls come (05 R123 to R129). -/

namespace Sys2Proof.Machine

/-- A tier event (R129, R241): kinds 5 to 8, with their payload. A payload field that R129 does not list for the kind is 0 (DESIGN CHOICE,
log 140). -/
def leaseRecord (kind other entry pages t cursor : Nat) : BitVec 256 :=
  Record.bits { kind := kind, src := other,
                payload := BitVec.ofNat 128 (entry % 2 ^ 8 + pages % 2 ^ 32 * 2 ^ 8 + t % 2 ^ 24 * 2 ^ 40 + cursor % 2 ^ 32 * 2 ^ 64) }

/-- A record to every sequencer registered for a slot (R126) and to die 0's supervisor queue. -/
def postLease (regs : BitVec 768) (r : BitVec 256) (s : State) : State :=
  let s := ((s.seqs.map (·.1)).filter (fun n => regs.getLsbD n)).foldl (fun s n => s.postSeq n r) s
  s.postSup 0 r

/-- An offer reaches the borrower. -/
def leaseOffered (dev entry base pages t : Nat) (s : State) : State :=
  let s := { s with offers := NMap.set s.offers (256 * dev + entry) (base, pages, t) }
  s.postSup 0 (leaseRecord 5 dev entry pages t 0)

def execLeaseOfferReceived (s : State) : Result :=
  match s.input with
  | .leaseOfferReceived dev entry base pages t => execAgent (modify (leaseOffered dev entry base pages t)) s
  | _ => .next s.tick

/-- An acceptance reaches the lender. -/
def leaseTaken (entry dev : Nat) (s : State) : State :=
  let e := NMap.getD s.lend entry {}
  if e.st = .offered && e.dev = dev then { s with lend := NMap.set s.lend entry { e with st := .lent } } else s

def execLeaseTakeReceived (s : State) : Result :=
  match s.input with
  | .leaseTakeReceived entry dev => execAgent (modify (leaseTaken entry dev)) s
  | _ => .next s.tick

/-- A reclaim reaches the borrower: the pull begins. -/
def leaseReclaimed (slot : Nat) (s : State) : State :=
  if (NMap.getD s.borrow slot {}).st = .active then startPull slot s else s

def execLeaseReclaimReceived (s : State) : Result :=
  match s.input with
  | .leaseReclaimReceived slot => execAgent (modify (leaseReclaimed slot)) s
  | _ => .next s.tick

/-- A voluntary return has begun. -/
def leaseReturnBegun (entry : Nat) (s : State) : State :=
  if (NMap.getD s.lend entry {}).st = .lent then startReclaim entry s else s

def execLeaseReturnBegunReceived (s : State) : Result :=
  match s.input with
  | .leaseReturnBegunReceived entry => execAgent (modify (leaseReturnBegun entry)) s
  | _ => .next s.tick

/-- The next line of a pull: the lowest unmoved line of page CURSOR (R127 step 3). -/
def BorrowSlot.nextLine (b : BorrowSlot) : Option Nat :=
  if b.cursor < b.pages then (List.range 512).find? (fun i => !b.moved.getLsbD i) else none

/-- A line of a slot is written to the fallback, leaves the lease's homes and L1s, and its bit is set. An engine's claims to its words
and the stores they hold back go with it. -/
def moveLine (slot i : Nat) (data : Nat) (s : State) : State :=
  let b := NMap.getD s.borrow slot {}
  let loc := leasedLoc slot b.cursor (128 * i)
  let dst := storeLoc (b.fbase + 65536 * b.cursor + 128 * i)
  let s := forgetLines loc 128 { s with mem := s.mem.clear loc 128, leasedHere := NMap.erase s.leasedHere (loc / 128) }
  let mat := if isHbm dst then s.keyMat b.fkey else .none
  let s := moveLines loc dst 128 b.fkey mat (homeWrite mat dst 128 data s)
  let m := b.moved ||| ((1 : BitVec 512) <<< i)
  let b := if m = BitVec.allOnes 512 then { b with cursor := b.cursor + 1, moved := 0, pulling := none }
    else { b with moved := m, pulling := none }
  { s with borrow := NMap.set s.borrow slot b }

/-- Whether the fallback of a line of page CURSOR lies in a region that this device lends: its controllers refuse the pull's write there
(R124), and the pull goes on once the region is lent no longer (log 135). -/
def State.fallbackLent (s : State) (b : BorrowSlot) (i : Nat) : Bool := s.lentOut (storeLoc (b.fbase + 65536 * b.cursor + 128 * i)) 128

/-- A line comes from its lender (R123, R127): to the borrower's home for an access, to the fallback for a pull. -/
def lineArrives (line slot : Nat) (pull : Bool) (data : List Byte) (s : State) : State :=
  let b := NMap.getD s.borrow slot {}
  let s := { s with leaseReads := s.leaseReads.filter (· != line) }
  let page := (128 * line - leasedLoc slot 0 0) / 65536
  let i := line % 512
  if pull then
    if b.st = .demoting && b.cursor = page && b.pulling = some i then
      if s.fallbackLent b i then { s with borrow := NMap.set s.borrow slot { b with pulling := none } }
      else moveLine slot i (leNat (data.take 128)) s
    else s
  else if (b.st = .active || b.st = .demoting) && !(b.movedLine page i && b.st = .demoting) then
    let s := makeLeaseRoom line s
    { s with mem := s.mem.writeBytes (128 * line) (data.take 128), leasedHere := NMap.set s.leasedHere line () }
  else s

/-- LEASE_PULL_LINE (R127): from the borrower's home if it holds the line, its registered words first, else from the lender, once a write of it
to the lender is acknowledged. -/
def pullLine (slot : Nat) (s : State) : State :=
  let b := NMap.getD s.borrow slot {}
  if b.st = .demoting then
    match b.nextLine with
    | none => s
    | some i =>
      let line := leasedLoc slot b.cursor (128 * i) / 128
      if s.fallbackLent b i then s
      else if (NMap.get? s.leasedHere line).isSome then
        let s := recallLine line (readyRange (128 * line) 128 s)
        moveLine slot i (s.mem.readLe (128 * line) 128) s
      else if b.pulling = some i || s.goingBack line then s
      else sendLineRead slot line true { s with borrow := NMap.set s.borrow slot { b with pulling := some i } }
  else s

def execLeasePullLine (s : State) : Result :=
  match s.input with
  | .leasePullLine slot => execAgent (modify (pullLine slot)) s
  | _ => .next s.tick

/-- LEASE_PULL_COMPLETE (R127 step 5). -/
def pullComplete (slot : Nat) (s : State) : State :=
  let b := NMap.getD s.borrow slot {}
  if b.st = .demoting && b.pages ≤ b.cursor then
    let s := { s with borrow := NMap.set s.borrow slot { b with st := .demoted } }
    let s := sendLease b.ldev .returned b.lent [] s
    postLease b.regs (leaseRecord 6 b.ldev slot b.pages 0 0) s
  else s

def execLeasePullComplete (s : State) : Result :=
  match s.input with
  | .leasePullComplete slot => execAgent (modify (pullComplete slot)) s
  | _ => .next s.tick

/-- The return message reaches the lender. -/
def leaseReturned (entry : Nat) (s : State) : State :=
  let e := NMap.getD s.lend entry {}
  if e.st = .reclaiming then
    { s with lend := NMap.erase s.lend entry }.postSup 0 (leaseRecord 7 e.dev entry 0 0 0)
  else s

def execLeaseReturnReceived (s : State) : Result :=
  match s.input with
  | .leaseReturnReceived entry => execAgent (modify (leaseReturned entry)) s
  | _ => .next s.tick

/-- LEASE_DEADLINE (R128): the lender's deadline passes. From now the borrower's requests to the region are refused. -/
def leaseDeadline (entry : Nat) (s : State) : State :=
  let e := NMap.getD s.lend entry {}
  if e.st = .reclaiming && e.deadline.any (fun t => decide (t ≤ s.cycle)) then
    { s with lend := NMap.erase s.lend entry, barred := s.barred ++ [(e.dev, e.base, 65536 * e.pages)] }.postSup 0 (leaseRecord 8 e.dev entry 0 0 0)
  else s

def execLeaseDeadline (s : State) : Result :=
  match s.input with
  | .leaseDeadline entry => execAgent (modify (leaseDeadline entry)) s
  | _ => .next s.tick

/-- A lease is lost at the borrower (R128): unmoved lines, their copies and the packets under way for them are dropped. -/
def leaseLost (slot : Nat) (s : State) : State :=
  let b := NMap.getD s.borrow slot {}
  if b.st = .active || b.st = .demoting then
    let lo := leasedLoc slot 0 0
    let n := 2 ^ 47
    let s := dropReads slot (forgetLines lo n s)
    let s := { s with
      mem := s.mem.clear lo n
      leasedHere := s.leasedHere.filter (fun x => !inRange lo n x.1)
      borrow := NMap.set s.borrow slot { b with st := .lost, pulling := none } }
    postLease b.regs (leaseRecord 8 b.ldev slot 0 0 b.cursor) s
  else s

/-- Every lease borrowed from a device is lost. -/
def leasesLost (dev : Nat) (s : State) : State :=
  ((s.borrow.filter (fun x => x.2.ldev == dev)).map (·.1)).foldl (fun s i => leaseLost i s) s

end Sys2Proof.Machine
end

