-- ==== Sys2Proof/Machine/Bricks.lean ====
section
/-! DEFINITION. Bricks (10): `vset` and storage, fields and halos, reads at an offset, moves and permutations, masks. -/

namespace Sys2Proof.Machine

/-! Storage (R249 to R254). -/

/-- Banks that the lane grant lets a core hold (R250). -/
def bankCap (ln : Nat) : Nat :=
  match ln with
  | 0 => 12 | 1 => 8 | 2 => 4 | _ => 0

/-- Units claimed by the sequencers of a core. -/
def State.claims (s : State) (core : Nat) : Nat := ((upFrom (4 * core) 4).map (fun n => (s.seq n).claim)).foldl (· + ·) 0

/-- The lines of an L1 that lie in its bank `bank`: a free value (log 25). -/
def linesOfBank (k bank : Nat) (c : Core) : List Nat := (c.l1.map (·.1)).filter (fun l => Config.lineInBank k bank l)

/-- A bank of the L1 is emptied: registered words go home, other copies are dropped (R250). Words whose registration is on its
way are recorded first. -/
def emptyBank (core bank : Nat) (s : State) : State :=
  let s := drainReg core s
  let ls := linesOfBank s.freeCtr bank (s.core core)
  ls.foldl (fun s l => (writeHomeLine core l false s).modCore core (·.dropHeld l)) { s with freeCtr := s.freeCtr + 1 }

/-- Banks taken and returned as the claims of a core require: bank 15 is the first taken. -/
def settleBanks (core : Nat) (s : State) : State :=
  let held := (s.core core).banks
  let want := s.claims core - 8
  let s := (upFrom held (want - held)).foldl (fun s i => emptyBank core (15 - i) s) s
  if held = want then s else trimL1 core (s.modCore core fun c => { c with banks := want })

/-- The largest power of two that is at most n, for n up to 2^14; 0 for 0. -/
def floorPow2 (n : Nat) : Nat := if n = 0 then 0 else 2 ^ n.log2

/-- `mvl` (R251): G units at w bits an element. -/
def mvlOf (g w : Nat) : Nat := floorPow2 (g * 4096 / w)

/-- The shape reduced until it fits: z, then y, then x. -/
def reduceShape (m : Nat) : Nat → Nat × Nat × Nat → Nat × Nat × Nat
  | 0, d => d
  | k + 1, (x, y, z) =>
    if 2 ^ (x + y + z) ≤ Max.max m 1 then (x, y, z)
    else if 0 < z then reduceShape m k (x, y, z - 1)
    else if 0 < y then reduceShape m k (x, y - 1, z)
    else reduceShape m k (x - 1, y, z)

/-- VTYPE from its fields (R247). -/
def mkVtype (ill short : Bool) (ln claim z y x sew : Nat) : DWord :=
  BitVec.ofNat 64 ((if ill then 2 ^ 31 else 0) + (if short then 2 ^ 30 else 0) + ln * 2 ^ 26 + claim * 2 ^ 16 + z * 2 ^ 9 + y * 2 ^ 6 +
    x * 2 ^ 3 + sew)

/-- Bricks and masks after a `vset` (R252). -/
def Seq.retype (q : Seq) (sameWidth : Bool) (m : Nat) : Seq :=
  if sameWidth && m = q.mvl then q
  else if sameWidth then
    let n := Min.min q.mvl m
    { q with bricks := q.bricks.filter (fun x => decide (x.1 % 8192 < n)),
             masks := NMap.mapVals q.masks (fun _ v => v &&& ((1 : BitVec 8192) <<< n - 1)) }
  else { q with bricks := [], masks := [] }

/-- Every result standing in a brick is complete (R251). -/
def Seq.completeBricks (q : Seq) : Seq := (q.outst.filter (fun x => x.1 == .brick)).foldl (fun q x => q.complete x.1 x.2.1) q

/-- A brick that waits for a unit's command. -/
def needBricksDone : M Unit := do
  modMe Seq.completeBricks
  let q ← mySeq
  match (List.range 64).find? (fun r => q.bEmpty.getLsbD r) with
  | some r => stopWait (.reg .brick (BitVec.ofNat 6 r))
  | none => pure ()

/-- `vset` with a supported type (R251): the granted state of the sequencer. The old width of R252 is that of VTYPE.SEW, which an
ill-formed `vset` in between has changed (DESIGN CHOICE: log 130). -/
def grantBricks (q : Seq) (code x y z avl sumClaims banks ln : Nat) (fit : Bool) : Seq :=
  let w := 8 * 2 ^ code
  let n := Max.max 1 ((2 ^ (x + y + z) * w + 4095) / 4096)
  let c := q.claim
  let g := if n ≤ c then (if fit then n else c) else Min.min n (c + (8 - sumClaims) + (Min.min 12 (bankCap ln) - banks))
  let m := mvlOf g w
  let (x, y, z) := reduceShape m 24 (x, y, z)
  let vl := if m = 0 then 0 else Min.min avl (2 ^ (x + y + z))
  let same := q.sewCode = code
  { q.retype same m with
    mvl := m
    vl := vl
    slen := vl
    vtype := mkVtype (m == 0) (decide (g < n)) ln g z y x code }

/-- `vset` (R249, R251). -/
def execVset (o : MArgs) (s : State) : Result :=
  execNext (do
    let avl := (← readS o.sa).toNat
    needWritable .scalar o.d
    needBricksDone
    let code := bits o.imm.toNat 0 3
    let x := bits o.imm.toNat 3 3
    let y := bits o.imm.toNat 6 3
    let z := bits o.imm.toNat 9 3
    if 3 < code || x = 7 || y = 7 || z = 7 then
      modMe fun q => { q with vtype := (q.vtype &&& 0xFFFFFFFFFFFFF000) ||| BitVec.ofNat 64 (2 ^ 31 + o.imm.toNat % 4096), vl := 0,
                               slen := 0 }
      writeLong o.d 0
    else
      let s ← get
      let n ← me
      let core := coreOf n
      modMe fun q => grantBricks q code x y z avl (s.claims core) (s.core core).banks (s.die (dieOf n)).ln (o.mod.getLsbD 0)
      modify (settleBanks core)
      writeLong o.d (BitVec.ofNat 64 (← mySeq).vl)) s

/-- The state of a sequencer that has released its storage (R251, R253). -/
def Seq.freeBricks (q : Seq) : Seq := { q with vtype := 0x80000000, vl := 0, slen := 0, mvl := 0, bricks := [], masks := [] }

/-- `vset.free`. -/
def execVsetFree (o : MArgs) (s : State) : Result :=
  execNext (do
    needWritable .scalar o.d
    needBricksDone
    modMe Seq.freeBricks
    modify fun s => settleBanks (coreOf s.cur) s
    writeLong o.d 0) s

/-! Fields and halos (R255 to R258). -/

/-- BFD fields. -/
def bfdValid (f : DWord) : Bool := f.getLsbD 63
def bfdBase (f : DWord) : Nat := (f.extractLsb' 56 6).toNat
def bfdHsel (f : DWord) : Nat := (f.extractLsb' 28 2).toNat
def bfdFx (f : DWord) : Nat := (f.extractLsb' 2 4).toNat + 1
def bfdFy (f : DWord) : Nat := (f.extractLsb' 6 4).toNat + 1
def bfdFz (f : DWord) : Nat := (f.extractLsb' 10 4).toNat + 1
def bfdCount (f : DWord) : Nat := bfdFx f * bfdFy f * bfdFz f

/-- The rule of a face: axis 0 to 2 for x, y, z. -/
def bfdRule (f : DWord) (axis : Nat) (high : Bool) : Nat := bits f.toNat (16 + 4 * axis + (if high then 2 else 0)) 2

def bfdOverlaps (a b : DWord) : Bool :=
  decide (bfdBase a < bfdBase b + bfdCount b) && decide (bfdBase b < bfdBase a + bfdCount a)

/-- `bfield` (R256). -/
def execBfield (o : MArgs) (s : State) : Result :=
  execNext (do
    let imm := o.imm.toNat
    let n := bits imm 12 2
    if o.mod.getLsbD 12 then modMe fun q => { q with bfd := NMap.modify q.bfd n 0 (fun v => v &&& 0x7FFFFFFFFFFFFFFF) }
    else
      let v := BitVec.ofNat 64 (2 ^ 63 + o.d.toNat * 2 ^ 56 + bits imm 14 2 * 2 ^ 28 + o.mod.toNat % 4096 * 2 ^ 16 +
        bits imm 8 4 * 2 ^ 10 + bits imm 4 4 * 2 ^ 6 + bits imm 0 4 * 2 ^ 2)
      modMe fun q =>
        { q with bfd := NMap.set (NMap.mapVals q.bfd (fun i b =>
            if i != n && bfdValid b && bfdOverlaps b v then b &&& 0x7FFFFFFFFFFFFFFF else b)) n v }) s

/-- Whether a halo descriptor is one that `bhalo` takes (R258): reserved bits zero, and HMW one of the codes 0 to 6. R258 refuses HMW = 7;
the model refuses the byte's other values above 6 too, which name no width (log 115). -/
def haloOk (d : BitVec 512) : Bool := (d.extractLsb' 360 152) == 0 && decide ((d.extractLsb' 352 8).toNat < 7)

/-- `bhalo` (R258). -/
def execBhalo (o : MArgs) (s : State) : Result :=
  execNext (do
    let n := o.imm.toNat % 4
    let clear (k : DWord) : M Unit := do
      modMe fun q => { q with halo := NMap.modify q.halo n 0 (fun v => v &&& ~~~(1 : DWord)), haloCopy := NMap.erase q.haloCopy n }
      writeLong o.d k
    needWritable .scalar o.d
    if o.mod.getLsbD 0 then clear 0
    else
      let a := (← readS o.sa).toNat % 2 ^ 56
      if a % 64 ≠ 0 then stopTrap (misaligned kRead a 0)
      let c ← myCtx
      let (_, p) ← resolve c .l1 kRead a 64 0
      let d := BitVec.ofNat 512 (← loadBytes c p 64 false kRead a 0)
      if haloOk d then
        modMe fun q => { q with halo := NMap.set q.halo n (BitVec.ofNat 64 (a + 1)), haloCopy := NMap.set q.haloCopy n d }
        writeLong o.d 0
      else clear (BitVec.ofNat 64 (2 ^ 63 + 1))) s

/-! Reads at an offset (R259 to R261). -/

/-- The field that a register belongs to. -/
def Seq.fieldOf (q : Seq) (b : Nat) : Option DWord :=
  ((List.range 4).map (fun n => NMap.getD q.bfd n 0)).find? (fun f => bfdValid f && decide (bfdBase f ≤ b) &&
    decide (b < bfdBase f + bfdCount f))

/-- What an offset read takes. -/
inductive Resolved where
  | elem (r e : Nat)
  | zero
  | mem (field : DWord) (gx gy gz : Int)
  | noNeighbour
deriving DecidableEq, Repr

/-- What a face does to a coordinate. -/
inductive Face where
  | inside (g : Nat)
  | zero
  | mem (g : Int)
deriving DecidableEq, Repr

/-- One axis: coordinate g in an extent of n. -/
def faceOf (f : DWord) (axis : Nat) (g : Int) (n : Nat) : Face :=
  if 0 ≤ g ∧ g < (n : Int) then .inside g.toNat
  else match bfdRule f axis (decide (0 ≤ g)) with
    | 0 => .zero
    | 1 => .inside (Min.min (Max.max g 0) ((n : Int) - 1)).toNat
    | 2 => .inside (g % (n : Int)).toNat
    | _ => .mem g

def Face.raw : Face → Int
  | .inside g => (g : Int)
  | .zero => 0
  | .mem g => g

/-- `resolve` for a register in a field: field coordinates. -/
def Seq.resolveField (q : Seq) (f : DWord) (b : Nat) (x y z : Int) : Resolved :=
  let p := b - bfdBase f
  let bx := 2 ^ q.lbx
  let by' := 2 ^ q.lby
  let bz := 2 ^ q.lbz
  let fx := faceOf f 0 ((p % bfdFx f * bx : Nat) + x) (bfdFx f * bx)
  let fy := faceOf f 1 ((p / bfdFx f % bfdFy f * by' : Nat) + y) (bfdFy f * by')
  let fz := faceOf f 2 ((p / (bfdFx f * bfdFy f) * bz : Nat) + z) (bfdFz f * bz)
  match fx, fy, fz with
  | .zero, _, _ | _, .zero, _ | _, _, .zero => .zero
  | .inside gx, .inside gy, .inside gz =>
    .elem (bfdBase f + gx / bx + bfdFx f * (gy / by' + bfdFy f * (gz / bz))) (gx % bx + bx * (gy % by' + by' * (gz % bz)))
  | fx, fy, fz => .mem f fx.raw fy.raw fz.raw

/-- `resolve` (R259). -/
def Seq.resolveAt (q : Seq) (b : Nat) (x y z : Int) : Resolved :=
  let bx : Int := (2 ^ q.lbx : Nat)
  let by' : Int := (2 ^ q.lby : Nat)
  let bz : Int := (2 ^ q.lbz : Nat)
  if 0 ≤ x ∧ x < bx ∧ 0 ≤ y ∧ y < by' ∧ 0 ≤ z ∧ z < bz then .elem b (x + bx * (y + by' * z)).toNat
  else match q.fieldOf b with
    | none => .noNeighbour
    | some f => q.resolveField f b x y z

/-- A read offset as three integers. -/
def offDelta (o : Off) : Int × Int × Int := (o.dx.toInt, o.dy.toInt, o.dz.toInt)

def offZero (o : Off) : Bool := o.dx == 0 && o.dy == 0 && o.dz == 0

/-- What element e of a source at an offset resolves to. -/
def Seq.resolveElem (q : Seq) (b : Nat) (o : Off) (e : Nat) : Resolved :=
  let (x, y, z) := q.coord e
  let (dx, dy, dz) := offDelta o
  q.resolveAt b (x + dx) (y + dy) (z + dz)

/-- Every element of a brick's shape, resolved: what an offset can reach (R261). Only the corner ranges differ, so each axis is
followed on its own through the corners and edges of the shape. -/
def Seq.reach (q : Seq) (b : Nat) (o : Off) : List Resolved :=
  if offZero o then [.elem b 0]
  else
    let span (n : Nat) : List Nat := (List.range n).filter (fun i => decide (i < 4) || decide (n ≤ i + 4))
    let (dx, dy, dz) := offDelta o
    ((span (2 ^ q.lbx)).map (fun (x : Nat) => ((span (2 ^ q.lby)).map (fun (y : Nat) => (span (2 ^ q.lbz)).map (fun (z : Nat) =>
      q.resolveAt b ((x : Int) + dx) ((y : Int) + dy) ((z : Int) + dz)))).flatten)).flatten

/-- The registers that a source at an offset can reach, the named one first. -/
def Seq.reachRegs (q : Seq) (b : Nat) (o : Off) : List Nat :=
  (b :: (q.reach b o).filterMap (fun r => match r with | .elem r _ => some r | _ => none)).eraseDups

/-- Whether it can reach a mem face. -/
def Seq.reachesMem (q : Seq) (b : Nat) (o : Off) : Bool :=
  (q.reach b o).any (fun r => match r with | .mem _ _ _ _ => true | _ => false)

/-- A brick source at an offset: every register it can reach is full (R35, R261). With W = 1 the first empty one is reported: SA's before
SB's, the named one first, then in reach order (DESIGN CHOICE: log 131). -/
def needSource (a : Src) (o : Off) : M Unit := do
  let q ← mySeq
  forEach (q.reachRegs a.reg.toNat o) fun r => needBrick ⟨BitVec.ofNat 6 r, a.w⟩

/-- The no-neighbour trap (R259). -/
def noNeighbour (kind r e : Nat) : Trap := { cause := 0x07, tval := BitVec.ofNat 64 (64 * kind + r), estart := some e }

/-- A signed field of a halo descriptor copy. -/
def haloField (d : BitVec 512) (lo n : Nat) : Int := (d.extractLsb' lo n).toInt

/-- `halo_read` (R259, R260): a load element decoded to the instruction's type. -/
def haloRead (c : Ctx) (q : Seq) (ty : Ty) (f : DWord) (gx gy gz : Int) (e : Nat) : M (Nat × Flags) := do
  let h := bfdHsel f
  if !(NMap.getD q.halo h 0).getLsbD 0 then stopTrap (noNeighbour 1 h e)
  let d := NMap.getD q.haloCopy h 0
  let w := mwBits (d.extractLsb' 352 8).toNat ty
  let base := (d.extractLsb' 0 56).toNat
  if !baseAligned base w then stopTrap (misaligned kRead base e)
  let off := (haloField d 256 32 + gx) * haloField d 64 64 + (haloField d 288 32 + gy) * haloField d 128 64 +
    (haloField d 320 32 + gz) * haloField d 192 64
  let ea := eaSum w (eaOf base w) off
  let va := eaVa ea w
  if !inWindow va then
    let _ ← translateFor c .l1 kRead va 1 e ⟨fun l => badFormat w ty l || l.pte.ic, fun _ => none⟩
  loadElem c (.strided 0 0 0) w ty .rne ea e

/-- Element e of a brick source at an offset, as it stood in q (R277), with the flags of a halo read. -/
def readOff (c : Ctx) (q : Seq) (ty : Ty) (b : Nat) (o : Off) (e : Nat) : M (Nat × Flags) := do
  if offZero o then return ((q.elem b e).toNat % 2 ^ ty.width, 0)
  match q.resolveElem b o e with
  | .elem r k => return ((q.elem r k).toNat % 2 ^ ty.width, 0)
  | .zero => return (0, 0)
  | .mem f gx gy gz => haloRead c q ty f gx gy gz e
  | .noNeighbour => stopTrap (noNeighbour 0 b e)

/-! The common mould of an element operation (R273 to R275). -/

/-- The second operand: a scalar under VS, else a brick at an offset. -/
inductive Second where
  | none
  | scalar (v : Nat)
  | brick (b : Nat) (o : Off)
deriving DecidableEq, Repr

/-- The second source of an instruction, checked and, if a scalar, read. -/
def secondOf (o : VArgs) (binary : Bool) : M Second := do
  if !binary then return .none
  else if o.vmod.getLsbD 0 then return .scalar ((← readS o.sb).toNat % 2 ^ o.ty.width)
  else
    needSource o.sb o.offB
    return .brick o.sb.reg.toNat o.offB

def readSecond (c : Ctx) (q : Seq) (ty : Ty) (b : Second) (e : Nat) : M (Nat × Flags) :=
  match b with
  | .none => return (0, 0)
  | .scalar v => return (v, 0)
  | .brick b o => readOff c q ty b o e

def Second.reachesMem (q : Seq) : Second → Bool
  | .brick b o => q.reachesMem b o
  | _ => false

/-- One element: its operands, its result by `f` (from a, b, c and a draw), its flags, and what is done with the result. -/
def elementStep (c : Ctx) (q : Seq) (o : VArgs) (b : Second) (third : Bool) (mode : Rnd)
    (f : Nat → Nat → Nat → Nat → M (Nat × Flags)) (put : Nat → Nat → M Unit) (e : Nat) : M Unit := atElement e do
  let (x, fx) ← readOff c q o.ty o.sa.reg.toNat o.offA e
  let (y, fy) ← readSecond c q o.ty b e
  let z := if third then (q.elem o.sc.reg.toNat e).toNat % 2 ^ o.ty.width else 0
  let (g, r) ← drawFor mode e
  let (v, fl) ← f x y z r
  raiseFlags (fx ||| fy ||| fl) e
  put e v
  if mode == .rsr then keepGens g

/-- An element operation over the active elements from ESTART, its results in a brick. It waits with nothing done, so that every element
reads its sources as they stood before the instruction began (R277). -/
def elementOp (o : VArgs) (binary third : Bool) (mode : Rnd) (f : Nat → Nat → Nat → Nat → M (Nat × Flags)) : M Unit := allOrWait do
  needType o.ty
  needSource o.sa o.offA
  let b ← secondOf o binary
  if third then needBrick o.sc
  needBrickDest o.d
  let q ← mySeq
  let c ← myCtx
  let es := q.activeFrom o.me o.msel
  forEach es fun e => elementStep c q o b third mode f (fun e v => modMe (·.setElem o.d.toNat e (BitVec.ofNat 64 v))) e
  if q.reachesMem o.sa.reg.toNat o.offA || b.reachesMem q then brickPending o.d es
  clearEstart

/-- A mask with the bits at VL and above cleared. -/
def Seq.trimMask (q : Seq) (d : Nat) : Seq := q.setMask d (keepLow q.vl (q.mask d))

/-- An element comparison, its results in a mask (R281). -/
def elementCmp (o : VArgs) (f : Nat → Nat → M (Bool × Flags)) : M Unit := allOrWait do
  needType o.ty
  needSource o.sa o.offA
  let b ← secondOf o true
  let q ← mySeq
  let c ← myCtx
  forEach (q.activeFrom o.me o.msel) fun e =>
    elementStep c q o b false .rne (fun x y _ _ => do
      let (v, fl) ← f x y
      return (if v then 1 else 0, fl))
      (fun e v => modMe fun k => k.setMask o.d.toNat (setBits (k.mask o.d.toNat) [(e, v == 1)])) e
  modMe (·.trimMask o.d.toNat)
  clearEstart

/-! Moves and permutations (R266 to R269). -/

/-- `vmov`. -/
def execVmov (o : VArgs) (s : State) : Result := execNext (elementOp o false false .rne (fun x _ _ _ => return (x, 0))) s

/-- A brick form that reads its sources before it writes, from element 0 (R268): the elements to write. -/
def permute' (o : VArgs) (f : Seq → List (Nat × DWord)) : M Unit := do
  let q ← mySeq
  modMe fun k => (f q).foldl (fun k x => k.setElem o.d.toNat x.1 x.2) k
  clearEstart

/-- The active elements from 0. -/
def Seq.activeAll (q : Seq) (me : Bool) (msel : BitVec 3) : List Nat := (List.range q.vl).filter (q.active me msel)

/-- Bits of an element at the width of SEW. -/
def Seq.bitsOf (q : Seq) (b e : Nat) : DWord := BitVec.ofNat 64 ((q.elem b e).toNat % 2 ^ q.sew)

/-- `vbcast`. Of several empty sources SA is reported before SB, here and in `vslide`, `vins` and `vext` (DESIGN CHOICE, log 141). -/
def execVbcast (o : VArgs) (s : State) : Result :=
  execNext (do
    needType o.ty
    let v ← if o.vmod.getLsbD 0 then do
        needBrick o.sa
        let i := (← readS o.sb).toNat
        let q ← mySeq
        pure (if i < q.vl then q.bitsOf o.sa.reg.toNat i else 0)
      else do
        let x ← readS o.sa
        pure (BitVec.ofNat 64 (x.toNat % 2 ^ o.ty.width))
    needBrickDest o.d
    let q ← mySeq
    modMe fun k => (q.activeFrom o.me o.msel).foldl (fun k e => k.setElem o.d.toNat e v) k
    clearEstart) s

/-- `vslide`: element e takes element e + k, modulo VL under `.wrap`. -/
def Seq.slideElem (q : Seq) (a : Nat) (k : Int) (wrapped : Bool) (e : Nat) : DWord :=
  let j : Int := (e : Int) + k
  let j := if wrapped then j % (q.vl : Int) else j
  if 0 ≤ j ∧ j < (q.vl : Int) then q.bitsOf a j.toNat else 0

/-- `vslide`, SA read before SB (log 141). -/
def execVslide (o : VArgs) (s : State) : Result :=
  execNext (do
    needType o.ty
    needBrick o.sa
    let k := (← readS o.sb).toInt
    needBrickDest o.d
    permute' o fun q => (q.activeAll o.me o.msel).map (fun e => (e, q.slideElem o.sa.reg.toNat k (o.vmod.getLsbD 0) e))) s

/-- The source index of `vtrans` (R267). -/
def Seq.transSource (q : Seq) (perm e : Nat) : Nat :=
  let (x, y, z) := q.coord e
  let bx := 2 ^ q.lbx
  let by' := 2 ^ q.lby
  let bz := 2 ^ q.lbz
  match perm with
  | 0 => x + bx * (y + by' * z)
  | 1 => x + bx * (z + bz * y)
  | 2 => y + by' * (x + bx * z)
  | 3 => y + by' * (z + bz * x)
  | 4 => z + bz * (x + bx * y)
  | _ => z + bz * (y + by' * x)

def execVtrans (o : VArgs) (s : State) : Result :=
  execNext (do
    needType o.ty
    needBrick o.sa
    needBrickDest o.d
    permute' o fun q => (q.activeAll o.me o.msel).map (fun e =>
      (e, q.bitsOf o.sa.reg.toNat (q.transSource (o.vmod.toNat % 8) e)))) s

def execVcomp (o : VArgs) (s : State) : Result :=
  execNext (do
    needType o.ty
    needBrick o.sa
    needBrickDest o.d
    permute' o fun q => (q.activeAll o.me o.msel).zipIdx.map (fun x => (x.2, q.bitsOf o.sa.reg.toNat x.1))) s

def execVexp (o : VArgs) (s : State) : Result :=
  execNext (do
    needType o.ty
    needBrick o.sa
    needBrickDest o.d
    permute' o fun q => (q.activeAll o.me o.msel).zipIdx.map (fun x => (x.1, q.bitsOf o.sa.reg.toNat x.2))) s

/-- `vins`, SA read before SB (log 141). -/
def execVins (o : VArgs) (s : State) : Result :=
  execNext (do
    needType o.ty
    let v ← readS o.sa
    let i := (← readS o.sb).toNat
    needBrickDest o.d
    permute' o fun q => if i < q.vl then [(i, BitVec.ofNat 64 (v.toNat % 2 ^ q.sew))] else []) s

/-- `vext`, SA read before SB (log 141). -/
def execVext (o : VArgs) (s : State) : Result :=
  execNext (do
    needType o.ty
    needBrick o.sa
    let i := (← readS o.sb).toNat
    needWritable .scalar o.d
    let q ← mySeq
    let v := (q.bitsOf o.sa.reg.toNat i).toNat
    let r := if i < q.vl then (if o.ty.isSigned then BitVec.ofInt 64 (sext q.sew v) else BitVec.ofNat 64 v) else 0
    writeLong o.d r
    clearEstart) s

/-- `vgath`. -/
def Seq.gathElem (q : Seq) (a b e : Nat) : DWord :=
  let t := (q.bitsOf b e).toNat
  if t < q.vl then q.bitsOf a t else 0

def execVgath (o : VArgs) (s : State) : Result :=
  execNext (do
    needType o.ty
    needBrick o.sa
    needBrick o.sb
    needBrickDest o.d
    permute' o fun q => (q.activeAll o.me o.msel).map (fun e => (e, q.gathElem o.sa.reg.toNat o.sb.reg.toNat e))) s

/-! Mask instructions (R270 to R272). -/

/-- A mask written below VL, its other bits cleared; ESTART := 0 (R271). -/
def writeMask (d : Reg) (f : Seq → BitVec 8192) : M Unit := do
  needVtype
  modMe fun q => { q.setMask d.toNat (keepLow q.vl (f q)) with estart := 0 }

def execMand (o : RArgs) (s : State) : Result :=
  execNext (writeMask o.d fun q => q.mask o.sa.reg.toNat &&& q.mask o.sb.reg.toNat) s
def execMor (o : RArgs) (s : State) : Result :=
  execNext (writeMask o.d fun q => q.mask o.sa.reg.toNat ||| q.mask o.sb.reg.toNat) s
def execMxor (o : RArgs) (s : State) : Result :=
  execNext (writeMask o.d fun q => q.mask o.sa.reg.toNat ^^^ q.mask o.sb.reg.toNat) s
def execMnot (o : RArgs) (s : State) : Result := execNext (writeMask o.d fun q => ~~~(q.mask o.sa.reg.toNat)) s

/-- The set bits of a mask below n. -/
def maskBits (m : BitVec 8192) (n : Nat) : List Nat := (List.range n).filter m.getLsbD

/-- `mpopc`. -/
def execMpopc (o : RArgs) (s : State) : Result :=
  execNext (do
    needVtype
    needWritable .scalar o.d
    let q ← mySeq
    writeLong o.d (BitVec.ofNat 64 (maskBits (q.mask o.sa.reg.toNat) q.vl).length)
    clearEstart) s

/-- `mfirst`. -/
def execMfirst (o : RArgs) (s : State) : Result :=
  execNext (do
    needVtype
    needWritable .scalar o.d
    let q ← mySeq
    let r : DWord := match (List.range q.vl).find? (q.mask o.sa.reg.toNat).getLsbD with
      | some e => BitVec.ofNat 64 e
      | none => BitVec.allOnes 64
    writeLong o.d r
    clearEstart) s

/-- Prefix counts of a mask: element and count. -/
def prefixCounts (m : BitVec 8192) (n : Nat) : List (Nat × Nat) :=
  ((List.range n).foldl (fun (acc : List (Nat × Nat) × Nat) e =>
    ((e, acc.2) :: acc.1, acc.2 + (if m.getLsbD e then 1 else 0))) ([], 0)).1

/-- `miota`. -/
def execMiota (o : RArgs) (s : State) : Result :=
  execNext (do
    needVtype
    needBrickDest o.d
    modMe fun q => (prefixCounts (q.mask o.sa.reg.toNat) q.vl).foldl (fun k x =>
      k.setElem o.d.toNat x.1 (BitVec.ofNat 64 (x.2 % 2 ^ q.sew))) q
    clearEstart) s

/-- The mask that `mset` makes, by form. -/
def msetBits (form : Nat) (v : DWord) : BitVec 8192 :=
  match form with
  | 0 => if 8192 ≤ v.toNat then BitVec.allOnes 8192 else (1 : BitVec 8192) <<< v.toNat - 1
  | 1 => v.setWidth 8192
  | 2 => BitVec.allOnes 8192
  | _ => 0

/-- `mset`. -/
def execMset (o : RArgs) (s : State) : Result :=
  execNext (do
    let form := o.mod.toNat % 4
    needVtype
    let v ← if form < 2 then readS o.sa else pure 0
    writeMask o.d fun _ => msetBits form v) s

end Sys2Proof.Machine
end

