-- ==== Sys2Proof/Machine/Arith.lean ====
section
/-! DEFINITION. Arithmetic on bricks (11). -/

namespace Sys2Proof.Machine

/-! Integer (R279 to R282). -/

/-- An operand read under R276. -/
def intOf (ty : Ty) (v : Nat) : Int := if ty.isSigned then sext ty.width v else (v : Int)

/-- An exact integer clamped to the range of a type. -/
def clampTo (ty : Ty) (i : Int) : Int :=
  let w := ty.width
  if ty.isSigned then Max.max (-(2 ^ (w - 1) : Nat) : Int) (Min.min i ((2 ^ (w - 1) : Nat) - 1 : Int))
  else Max.max 0 (Min.min i ((2 ^ w : Nat) - 1 : Int))

/-- A binary or unary integer instruction: the result of its exact value modulo 2^w. -/
def vint (o : VArgs) (binary : Bool) (f : Int → Int → Int) : M Unit :=
  elementOp o binary false .rne (fun x y _ _ => return (wrap o.ty.width (f (intOf o.ty x) (intOf o.ty y)), 0))

/-- One on bits. -/
def vbits (o : VArgs) (binary : Bool) (f : Nat → Nat → Nat) : M Unit :=
  elementOp o binary false .rne (fun x y _ _ => return (f x y % 2 ^ o.ty.width, 0))

def execVadd (o : VArgs) (s : State) : Result := execNext (vint o true (· + ·)) s
def execVsub (o : VArgs) (s : State) : Result := execNext (vint o true (· - ·)) s
def execVmul (o : VArgs) (s : State) : Result := execNext (vint o true (· * ·)) s
def execVmulh (o : VArgs) (s : State) : Result :=
  execNext (vint o true fun a b => a * b / ((2 ^ o.ty.width : Nat) : Int)) s

/-- Division by zero (R280). -/
def elemDivideTrap : M (Nat × Flags) := stopTrap { cause := 0x19 }

def execVdiv (o : VArgs) (s : State) : Result :=
  execNext (elementOp o true false .rne (fun x y _ _ =>
    if y = 0 then elemDivideTrap else return (wrap o.ty.width (Int.tdiv (intOf o.ty x) (intOf o.ty y)), 0))) s
def execVrem (o : VArgs) (s : State) : Result :=
  execNext (elementOp o true false .rne (fun x y _ _ =>
    if y = 0 then elemDivideTrap else return (wrap o.ty.width (Int.tmod (intOf o.ty x) (intOf o.ty y)), 0))) s
def execVmin (o : VArgs) (s : State) : Result := execNext (vint o true fun a b => if a ≤ b then a else b) s
def execVmax (o : VArgs) (s : State) : Result := execNext (vint o true fun a b => if a ≤ b then b else a) s
def execVabs (o : VArgs) (s : State) : Result := execNext (vint o false fun a _ => (a.natAbs : Int)) s
def execVand (o : VArgs) (s : State) : Result := execNext (vbits o true (· &&& ·)) s
def execVor (o : VArgs) (s : State) : Result := execNext (vbits o true (· ||| ·)) s
def execVxor (o : VArgs) (s : State) : Result := execNext (vbits o true (· ^^^ ·)) s
def execVshl (o : VArgs) (s : State) : Result := execNext (vbits o true fun a b => a * 2 ^ (b % o.ty.width)) s
def execVshr (o : VArgs) (s : State) : Result := execNext (vbits o true fun a b => a / 2 ^ (b % o.ty.width)) s
def execVsra (o : VArgs) (s : State) : Result :=
  execNext (vbits o true fun a b => wrap o.ty.width (sext o.ty.width a / ((2 ^ (b % o.ty.width) : Nat) : Int))) s
def execVsadd (o : VArgs) (s : State) : Result := execNext (vint o true fun a b => clampTo o.ty (a + b)) s
def execVssub (o : VArgs) (s : State) : Result := execNext (vint o true fun a b => clampTo o.ty (a - b)) s

/-- COND of a comparison. -/
def condOf (o : VArgs) : Nat := bits o.vmod.toNat 1 3

def execVcmp (o : VArgs) (s : State) : Result :=
  execNext (elementCmp o (fun x y => return (intCond (condOf o) (intOf o.ty x) (intOf o.ty y), 0))) s

/-- `vsel` (R282): every element, the mask choosing between operands that are both taken (R275, log 47). -/
def execVsel (o : VArgs) (s : State) : Result :=
  execWhole (do
    needType o.ty
    needSource o.sa o.offA
    let b ← secondOf o true
    needBrickDest o.d
    let q ← mySeq
    let c ← myCtx
    let es := q.activeFrom false 0
    forEach es fun e => atElement e do
      let (x, f) ← readOff c q o.ty o.sa.reg.toNat o.offA e
      let (y, g) ← readSecond c q o.ty b e
      raiseFlags (f ||| g) e
      modMe (·.setElem o.d.toNat e (BitVec.ofNat 64 (if (q.mask o.msel.toNat).getLsbD e then x else y)))
    if q.reachesMem o.sa.reg.toNat o.offA || b.reachesMem q then brickPending o.d es
    clearEstart) s

/-- Leading zeros of w bits. -/
def clzOf (w v : Nat) : Nat := if v = 0 then w else w - 1 - v.log2

def popOf (w v : Nat) : Nat := ((List.range w).filter (bit v)).length

def execVclz (o : VArgs) (s : State) : Result := execNext (vbits o false fun a _ => clzOf o.ty.width a) s
def execVpopc (o : VArgs) (s : State) : Result := execNext (vbits o false fun a _ => popOf o.ty.width a) s

/-! Floating point (R283 to R289). -/

/-- A rounding instruction: its mode from RND (R28). -/
def vflt (o : VArgs) (binary : Bool) (f : NFmt → Nat → Nat → Rnd → Nat × Flags) : M Unit := do
  let mode := (← mySeq).mode o.rnd false
  elementOp o binary false mode (fun x y _ _ => return f (Ty.fmt o.ty) x y mode)

def execVfadd (o : VArgs) (s : State) : Result := execNext (vflt o true fpAdd) s
def execVfsub (o : VArgs) (s : State) : Result := execNext (vflt o true fpSub) s
def execVfmul (o : VArgs) (s : State) : Result := execNext (vflt o true fpMul) s
def execVfdiv (o : VArgs) (s : State) : Result := execNext (vflt o true fpDiv) s
def execVfsqrt (o : VArgs) (s : State) : Result := execNext (vflt o false fun f a _ m => fpSqrt f a m) s
def execVfmin (o : VArgs) (s : State) : Result := execNext (vflt o true fun f a b _ => fpMinMax f false a b) s
def execVfmax (o : VArgs) (s : State) : Result := execNext (vflt o true fun f a b _ => fpMinMax f true a b) s
def execVfabs (o : VArgs) (s : State) : Result := execNext (vflt o false fun f a _ _ => (fpAbs f a, 0)) s
def execVfneg (o : VArgs) (s : State) : Result := execNext (vflt o false fun f a _ _ => (fpNeg f a, 0)) s
def execVfcmp (o : VArgs) (s : State) : Result :=
  execNext (elementCmp o (fun x y => return fpCmp (Ty.fmt o.ty) (condOf o) x y)) s
def execVfclass (o : VArgs) (s : State) : Result := execNext (vflt o false fun f a _ _ => (fpClass f a, 0)) s

/-- A fused instruction. -/
def vfused (o : VArgs) (negProd negC : Bool) : M Unit := do
  let mode := (← mySeq).mode o.rnd false
  elementOp o true true mode (fun x y z _ => return fpFma (Ty.fmt o.ty) negProd negC x y z mode)

def execVfma (o : VArgs) (s : State) : Result := execNext (vfused o false false) s
def execVfms (o : VArgs) (s : State) : Result := execNext (vfused o false true) s
def execVfnma (o : VArgs) (s : State) : Result := execNext (vfused o true true) s
def execVfnms (o : VArgs) (s : State) : Result := execNext (vfused o true false) s

/-! Conversions (R290 to R293). -/

/-- The other type of a conversion. -/
def otherTy (o : VArgs) : Ty := (Ty.ofCode (o.vmod.extractLsb' 1 4)).getD o.ty

/-- `vcvtn`: the result in the low half, zero above. -/
def execVcvtn (o : VArgs) (s : State) : Result :=
  execNext (do
    let mode := (← mySeq).mode o.rnd true
    elementOp o false false mode (fun x _ _ r => return convert (Ty.fmt (otherTy o)) (Ty.fmt o.ty) x mode r)) s

/-- `vcvtw`: from the low half. -/
def execVcvtw (o : VArgs) (s : State) : Result :=
  execNext (elementOp o false false .rne (fun x _ _ _ =>
    return convert (Ty.fmt o.ty) (Ty.fmt (otherTy o)) (x % 2 ^ (otherTy o).width) .rne 0)) s

/-- `vcvti`. -/
def execVcvti (o : VArgs) (s : State) : Result :=
  execNext (do
    let mode := (← mySeq).mode o.rnd false
    elementOp o false false mode (fun x _ _ _ => return convert (Ty.fmt o.ty) (Ty.fmt (otherTy o)) x mode 0)) s

/-! vq4 (R294, R295). -/

/-- The partial-block trap of `vq4`. -/
def quantTrap (e : Nat) : Trap := { cause := 0x0C, estart := some e }

/-- Byte i of an element replaced. -/
def setByte (v : DWord) (i b : Nat) : DWord :=
  (v &&& ~~~(BitVec.ofNat 64 (255 * 2 ^ (8 * i)))) ||| BitVec.ofNat 64 (b % 256 * 2 ^ (8 * i))

/-- One group: its codes in b[D], its scale in b[D+1]. -/
def quantGroup (o : VArgs) (mode : Rnd) (g : Nat) : M Unit := do
  let q ← mySeq
  let es := upFrom (16 * g) 16
  let (gq, rs) ← drawGroup mode es
  let xs := es.map (fun e => (NFmt.value .fp32 ((q.elem o.sa.reg.toNat e).toNat % 2 ^ 32)))
  let (codes, scale, fl) := encodeBlock .fp4 (bits o.vmod.toNat 1 2) xs mode rs
  raiseFlags fl (16 * g)
  let d := o.d.toNat
  modMe fun k =>
    let k := k.setElem d (2 * g) (BitVec.ofNat 64 (packCodes 4 (codes.take 8)))
    let k := k.setElem d (2 * g + 1) (BitVec.ofNat 64 (packCodes 4 (codes.drop 8)))
    k.setElem (d + 1) (g / 4) (setByte (k.elem (d + 1) (g / 4)) (g % 4) scale)
  if mode == .rsr then keepGens gq

def execVq4 (o : VArgs) (s : State) : Result :=
  execNext (do
    needType o.ty
    needBrick o.sa
    needBrickDest o.d
    needBrickDest (o.d + 1)
    let q ← mySeq
    let e0 := q.estart.toNat
    if e0 % 16 ≠ 0 then stopTrap (quantTrap e0)
    let mode := q.mode o.rnd true
    let n := q.vl / 16
    forEach (upFrom (e0 / 16) (n - e0 / 16)) fun g => quantGroup o mode g
    if q.vl % 16 ≠ 0 then stopTrap (quantTrap (16 * n))
    clearEstart) s

/-! Reductions (R296 to R298). -/

/-- The active elements of operand A, all read before anything is written, with the flags of halo reads. An enabled one stops
at its element (R298). -/
def reduceSources (o : VArgs) : M (List (Nat × Nat) × Flags) := do
  let q ← mySeq
  let c ← myCtx
  (q.activeAll o.me o.msel).foldlM (fun (acc : List (Nat × Nat) × Flags) e => do
    let (v, fl) ← stopTrapAt e (readOff c q o.ty o.sa.reg.toNat o.offA e)
    if fl &&& q.enables != 0 then stopTrap (floatTrap fl e)
    return (acc.1 ++ [(e, v)], acc.2 ||| fl)) ([], 0)
where
  stopTrapAt {α : Type} (e : Nat) (m : M α) : M α :=
    tryCatch m fun st => do
      match st with
      | .trap t => throw (.trap { t with estart := some e })
      | st => throw st

/-- The end of a reduction: an enabled flag traps with ESTART 0, else b[D][0] and the flags (R298). -/
def reduceEnd (o : VArgs) (halo : Flags) (r : Nat × SumFlags) (reaches : Bool) : M Unit := do
  match r.2.trap with
  | some fl => stopTrap (floatTrap fl 0)
  | none =>
    modMe (·.mergeFlags (halo ||| r.2.all))
    modMe (·.setElem o.d.toNat 0 (BitVec.ofNat 64 r.1))
    if reaches then brickPending o.d [0]

/-- A reduction: what is checked first, then its value from the initial value and the elements that take part. Every element is read
before the first is combined, so that the stop of a halo read comes before a flag of an earlier element (DESIGN CHOICE, log 142). -/
def reduce (o : VArgs) (initial : Bool) (f : Seq → Nat → List (Nat × Nat) → Nat × SumFlags) : M Unit := do
  needType o.ty
  needSource o.sa o.offA
  if initial then needBrick o.sb
  needBrickDest o.d
  let q ← mySeq
  if q.vl ≠ 0 then
    let (l, halo) ← reduceSources o
    let init := if initial then (q.elem o.sb.reg.toNat 0).toNat % 2 ^ o.ty.width else 0
    reduceEnd o halo (f q init l) (q.reachesMem o.sa.reg.toNat o.offA)
  clearEstart

/-- `vredo`. -/
def execVredo (o : VArgs) (s : State) : Result :=
  execNext (reduce o true fun q init l => orderedSum (Ty.fmt o.ty) (q.mode o.rnd false) q.enables init ⟨0, none⟩ (l.map (·.2))) s

/-- `vredt`: elements that do not take part are skipped in their places. -/
def treeLeaves (vl : Nat) (l : List (Nat × Nat)) : List (Option Nat) :=
  (List.range vl).map (fun e => NMap.get? l e)

def execVredt (o : VArgs) (s : State) : Result :=
  execNext (reduce o false fun q _ l => treeSum (Ty.fmt o.ty) (q.mode o.rnd false) q.enables 14 ⟨0, none⟩ (treeLeaves q.vl l)) s

/-- The least or most of two values in a type's order. -/
def leastMost (ty : Ty) (most : Bool) (a b : Nat) : Nat × Flags :=
  if ty.isFloat then fpMinMax (Ty.fmt ty) most a b
  else if (intOf ty a ≤ intOf ty b) = most then (b, 0) else (a, 0)

/-- `vredm`. -/
def execVredm (o : VArgs) (s : State) : Result :=
  execNext (reduce o true fun q init l => l.foldl (fun (acc : Nat × SumFlags) x =>
    let (r, fl) := leastMost o.ty (o.vmod.getLsbD 1) acc.1 x.2
    (r, acc.2.note q.enables fl)) (init, ⟨0, none⟩)) s

/-- `vredb`. -/
def bitwise (sel a b : Nat) : Nat :=
  match sel with
  | 0 => a &&& b
  | 1 => a ||| b
  | _ => a ^^^ b

def execVredb (o : VArgs) (s : State) : Result :=
  execNext (reduce o true fun _ init l =>
    (l.foldl (fun a x => bitwise (bits o.vmod.toNat 1 2) a x.2) init, ⟨0, none⟩)) s

/-! Approximations (R299 to R301). -/

def vapx (o : VArgs) (op : Approx) : M Unit :=
  elementOp o false false .rne (fun x _ _ _ => return approxOf op (Ty.fmt o.ty) x)

def execVrcp (o : VArgs) (s : State) : Result := execNext (vapx o .rcp) s
def execVrsq (o : VArgs) (s : State) : Result := execNext (vapx o .rsq) s
def execVexp2 (o : VArgs) (s : State) : Result := execNext (vapx o .exp2) s
def execVlog2 (o : VArgs) (s : State) : Result := execNext (vapx o .log2) s

end Sys2Proof.Machine
end

