-- ==== Sys2Proof/Machine/Engines.lean ====
section
/-! DEFINITION. Engine commands (09 R224 to R237): walks, multicast walks, copies and remote copies, the permits they need, and
the steps by which engines move their bytes. A command's bytes are numbered in walk order from 0. -/

namespace Sys2Proof.Machine

/-! The shape of a walk (R225). -/

def EngCmd.total (c : EngCmd) : Nat := c.rowb * c.nrow * c.npln

/-- The offset of byte k from the first byte of its side. -/
def EngCmd.along (c : EngCmd) (pitch plane : Int) (k : Nat) : Int :=
  (k / c.rowb / c.nrow : Nat) * plane + (k / c.rowb % c.nrow : Nat) * pitch + (k % c.rowb : Nat)

def EngCmd.srcVa (c : EngCmd) (k : Nat) : Nat := (((c.sva : Int) + c.along c.spitch c.splane k) % (2 ^ 56 : Nat)).toNat

def EngCmd.dstVa (c : EngCmd) (k : Nat) : Nat := (((c.dva : Int) + c.along c.dpitch c.dplane k) % (2 ^ 56 : Nat)).toNat

/-- Offset of byte k in a scratchpad where the range starts at `base`. -/
def EngCmd.dstOff (c : EngCmd) (base k : Nat) : Nat := ((base : Int) + c.along c.dpitch c.dplane k).toNat

/-- The four corner rows bound every row: the lowest and the highest first byte from a base. -/
def EngCmd.bounds (c : EngCmd) (base : Nat) (pitch plane : Int) : Int × Int :=
  let r : Int := ((c.nrow - 1 : Nat) : Int) * pitch
  let p : Int := ((c.npln - 1 : Nat) : Int) * plane
  ((base : Int) + Min.min 0 r + Min.min 0 p, (base : Int) + Max.max 0 r + Max.max 0 p)

/-- Whether a scratchpad range stays within [lo, lo + n). -/
def EngCmd.within (c : EngCmd) (base : Nat) (pitch plane : Int) (lo n : Nat) : Bool :=
  let (a, b) := c.bounds base pitch plane
  decide ((lo : Int) ≤ a) && decide (b + c.rowb ≤ (lo + n : Nat))

/-- First bytes of the rows, in walk order. -/
def EngCmd.rowStarts (c : EngCmd) : List Nat := (List.range (c.nrow * c.npln)).map (c.rowb * ·)

/-- Pages touched by runs of n bytes, in the order met, with the first address in each. -/
def touchedPages (n : Nat) (starts : List Nat) : List (Nat × Nat) :=
  starts.foldl (fun acc a =>
    (upFrom (a / 65536) ((a + n - 1) / 65536 - a / 65536 + 1)).foldl (fun acc u =>
      let p := u % 2 ^ 40
      if acc.any (fun x => x.1 == p) then acc else acc ++ [(p, if a / 65536 = u then a else 65536 * p)]) acc) []

def EngCmd.srcTouched (c : EngCmd) : List (Nat × Nat) :=
  if c.total = 0 then [] else touchedPages c.rowb (c.rowStarts.map c.srcVa)

def EngCmd.dstTouched (c : EngCmd) : List (Nat × Nat) :=
  if c.total = 0 then [] else touchedPages c.rowb (c.rowStarts.map c.dstVa)

/-! Status (R230, R231, R241). -/

/-- Members refused or abandoned. -/
def EngCmd.refusedMask (c : EngCmd) : Nat :=
  if c.kind = .multicast then
    c.branches.foldl (fun m b => if b.refused || b.gone then m + 2 ^ (b.core % 8) else m) 0
  else 0

/-- The status a command ends with: a stop, a range refused (R227), a branch abandoned (R232), a refusal by a device (R237). -/
def EngCmd.status (c : EngCmd) : Nat :=
  match c.stop with
  | some k => k
  | none =>
    if c.branches.any (·.refused) then 0xF1
    else if c.branches.any (·.gone) then 0xF3
    else if c.refusedBy != [] then 0xF4
    else 0

/-- Bytes that the next beat moves: 64 of a walk, up to the end of a 128-byte line of a copy's destination, a packet of a
remote copy. -/
def EngCmd.beat (c : EngCmd) : Nat :=
  Min.min (c.total - c.rd) (match c.kind with
    | .copy => 128 - c.dstVa c.rd % 128
    | .rcopy => 256
    | _ => 64)

/-- Whether a beat is left to read, someone takes it, and the buffer of 64 beats has room (R233). -/
def EngCmd.hasRoom (c : EngCmd) : Bool :=
  decide (c.rd < c.total) && (c.memDst || c.kind == .rcopy || c.branches.any (fun b => !b.refused && !b.gone)) &&
  decide (c.rd + c.beat ≤ c.bufBase + 4096)

/-- Whether the next beat may be read. -/
def EngCmd.mayRead (c : EngCmd) : Bool := c.stop.isNone && c.hasRoom

/-- Bytes read before the stop: every whole beat read, and a free part of the one that a stop cut off (log 26). Nothing is read by a
refused command. -/
def EngCmd.bytesRead (c : EngCmd) (free : Nat) : Nat :=
  if c.status = 0 then c.total
  else if c.status = 0xF0 then 0
  else if c.stop.isSome && c.started && c.hasRoom then c.rd + Config.readAhead free % c.beat
  else c.rd

def EngCmd.word (c : EngCmd) (free : Nat) : DWord :=
  BitVec.ofNat 64 (c.bytesRead free * 2 ^ 16 + c.refusedMask * 2 ^ 8 + c.status)

/-! Issue. -/

def State.setEngine (s : State) (n : Nat) (c : EngCmd) : State := { s with engines := NMap.set s.engines n c }

def State.modEngine (s : State) (n : Nat) (f : EngCmd → EngCmd) : State :=
  match NMap.get? s.engines n with
  | some c => s.setEngine n (f c)
  | none => s

/-- The Trowel of a core's port (R224). -/
def trowelOf (core : Nat) : Nat := 4 * (core / 8) + core % 8 / 2

def EngCmd.isWalk (c : EngCmd) : Bool := c.kind == .walk || c.kind == .multicast

/-- Walks that a Trowel holds. -/
def State.walksOf (s : State) (trowel : Nat) : NMap EngCmd :=
  s.engines.filter (fun x => x.2.isWalk && trowelOf x.2.ctx.core == trowel)

/-- Words taken from an engine's record, and E with them (R166, R167). U, which stands for the owner's write, goes with the owner
(R169). -/
def LineRec.dropEngine (r : LineRec) (n : Nat) : LineRec :=
  let m := (r.owners.filter (fun o => o.owner == .engine n)).foldl (fun m o => m ||| o.mask) (0 : BitVec 32)
  { r with owners := r.owners.filter (fun o => o.owner != .engine n), e := r.e &&& ~~~m, u := r.u &&& ~~~m }

/-- Words registered and not written are released (R167). -/
def releaseEngine (n : Nat) (s : State) : State :=
  { s with lines := (NMap.mapVals s.lines (fun _ r => r.dropEngine n)).filter (fun x => x.2 != {}) }

/-- An engine command stops (R167, R232). -/
def stopEngine (n k : Nat) (s : State) : State := releaseEngine n (s.modEngine n fun c => { c with stop := some (c.stop.getD k) })

/-- A word registered to an engine command (R166): for race detection a relaxed write of the issuing core. -/
def registerEngine (n w : Nat) (s : State) : State :=
  let s := breakLinks (w / 32) (makeLineRoom (w / 32) (settle (4 * w) 4 s))
  let s := recallWord w s
  let s := if (s.lineRec (w / 32)).owners.any (fun x => x.owner == .engine n) then s else makeRoom (w / 32) s
  let r := (s.lineRec (w / 32)).claim (.engine n) w
  s.setLine (w / 32) { r with e := r.e ||| wordBit w, u := r.u ||| wordBit w }

/-- Causes met while performing that a status reports (R230). -/
def performingCause (k : Nat) : Bool := k ∈ [0x10, 0x12, 0x13, 0x14, 0x28, 0x29]

/-- Something done while performing: a trap of R230's causes becomes the command's stop, here its cause and its VA. -/
def catchPerforming {α : Type} (m : M α) : M (Except (Nat × Nat) α) :=
  tryCatch (do return .ok (← m)) fun st =>
    match st with
    | .trap t => if performingCause t.cause then return .error (t.cause, t.tval.toNat % 2 ^ 56) else throw st
    | st => throw st

/-- As `catchPerforming`, any trap. -/
def catchTrap {α : Type} (m : M α) : M (Except (Nat × Nat) α) :=
  tryCatch (do return .ok (← m)) fun st =>
    match st with
    | .trap t => return .error (t.cause, t.tval.toNat % 2 ^ 56)
    | st => throw st

/-- The place of a destination byte, from the places of the pages. -/
def EngCmd.dstPlace (c : EngCmd) (k : Nat) : Option Place :=
  (NMap.get? c.dstPages (c.dstVa k / 65536)).map (fun p => { p with loc := p.loc + c.dstVa k % 65536 })

/-- First bytes of the destination words. -/
def EngCmd.wordStarts (c : EngCmd) : List Nat := (List.range (c.total / 4)).map (4 * ·)

/-- Whether an address lies in a scratchpad window (R221), from a core. -/
def inScratch (core va : Nat) : Bool := inWindow va && (windowTarget core va).isSome

/-- Where an engine's next word goes now: a page of a lease may have moved (R127), a region been lent (R124). -/
inductive WriteGoes where
  | place (p : Place)
  | held
  | stop (cause : Nat)
deriving DecidableEq, Repr

/-- The lender's controllers refuse a word of memory in a region that is lent (R124). -/
def writeGoes (p : Place) (s : State) : WriteGoes :=
  let backed (p : Place) : WriteGoes := if s.lentOut p.loc 4 then .stop 0x09 else .place p
  if isLeased p.loc then
    let r := p.loc - leasedBase
    match leaseGoes (r / 2 ^ 47) (NMap.getD s.borrow (r / 2 ^ 47) {}) (r / 65536 % 2 ^ 31) (r % 65536) with
    | .home loc => .place { p with loc := loc }
    | .fallback pa key => backed { p with loc := storeLoc pa, mat := if isHbm pa then s.keyMat key else .none, key := key, plain := isHostPlain pa }
    | .held => .held
    | .lost => .stop (if homeCheck none false (p.loc / 4) s == .poisoned then 0x10 else 0x12)
  else backed p

/-- The place of a page from the place of an address in it. A page of a lease stays one: where its words go is found for each. -/
def pagePlace (l : Leaf) (va : Nat) (x : Place) : Place :=
  if l.pte.kind == 2 then { x with loc := leasedLoc (l.pte.frame / 2 ^ 31) (l.pte.frame % 2 ^ 31) 0, mat := .none, key := 0, plain := false }
  else { x with loc := x.loc - va % 65536 }

/-- A leaf checked, with the key that accesses through it go under until it is found anew: one checked before its key is erased or replaced
completes under the old key (R448). -/
def keyed (l : Leaf) : M (Leaf × KeyMat) := do return (l, (← get).keyMat l.pte.key)

/-- The source pages translated (R101): checks first, places when they are read. A scratchpad source is checked now. -/
def translateSource (c : EngCmd) : M (NMap (Leaf × KeyMat)) :=
  c.srcTouched.foldlM (fun acc (p, va) => do
    if inWindow va then
      let _ ← windowPlace c.ctx kRead va 1 0
      return acc
    else
      let l ← translate c.ctx .engine kRead va 1 0
      return NMap.set acc p (← keyed l)) []

/-- The destination pages translated. A destination that begins in memory and runs on into the scratchpad windows traps there: the spec
gives such a destination no meaning (log 122). -/
def translateDest (c : EngCmd) : M (List (Nat × Nat × Leaf)) :=
  c.dstTouched.foldlM (fun acc (p, va) => do
    if inWindow va then stopTrap (xtrap 0x09 0 kWrite va 0)
    let l ← translate c.ctx .engine kWrite va 1 0
    return acc ++ [(p, va, l)]) []

/-- The pages that a destination needs, each with its place, up to the first that it cannot have. -/
def placeDest (c : EngCmd) (l : List (Nat × Nat × Leaf)) : M EngCmd :=
  l.foldlM (fun (c : EngCmd) (p, va, l) => do
    if c.failAt.isSome then return c
    match ← catchPerforming (placeOf c.ctx .engine kWrite va 1 0 3 l) with
    | .ok x => return { c with dstPages := NMap.set c.dstPages p (pagePlace l va x) }
    | .error k => return { c with failAt := some ((c.wordStarts.find? (fun i => c.dstVa i / 65536 == p)).getD 0, k.1) }) c

/-- Whether the command comes to byte k. -/
def EngCmd.reaches (c : EngCmd) (k : Nat) : Bool := c.failAt.all (fun x => decide (k < x.1))

/-- A destination word's place for a step of its engine: at its home, which for a leased line is the borrower's. -/
def wordPlace (p : Place) (va : Nat) : M Place := do
  match writeGoes p (← get) with
  | .held => stopWait (.held p.loc)
  | .stop k => stopTrap (xtrap k p.level kWrite va 0)
  | .place p =>
    if isLeased p.loc then needLeasedLine p.loc
    return p

/-- The destination words checked, up to the first that cannot be written. A race traps (R169). -/
def checkDest (c : EngCmd) : M EngCmd :=
  c.wordStarts.foldlM (fun (c : EngCmd) k => do
    match c.reaches k, c.dstPlace k with
    | true, some p =>
      match ← catchPerforming (do
        let p ← wordPlace p (c.dstVa k)
        checkWords c.ctx true [⟨p, p.loc / 4⟩] kWrite (c.dstVa k) 0) with
      | .ok _ => return c
      | .error e => return { c with failAt := some (k, e.1) }
    | _, _ => return c) c

/-- One destination word registered, if the command does not hold it already. The non-coherent host window has no home to register it at
(R115, R145). -/
def claimDest (n : Nat) (p : Place) : M Unit := do
  let w := p.loc / 4
  if !p.plain && (← get).ownerOf w != some (.engine n) then
    if (← get).claimHeld (.engine n) w then stopWait (.held (4 * w))
    modify (registerEngine n w)

/-- The destination words registered (R166, R228). -/
def registerDest (n : Nat) (c : EngCmd) : M Unit :=
  forEach c.wordStarts fun k => do
    match c.reaches k, c.dstPlace k with
    | true, some p => claimDest n (← wordPlace p (c.dstVa k))
    | _, _ => pure ()

/-- The command enters its engine: s[D] empty (R229). -/
def enqueueEngine (c : EngCmd) : M Unit := do
  let n := (← get).nextCmd
  modify fun s => { (s.setEngine n c) with nextCmd := n + 1 }
  if c.d ≠ 0 then modMe (·.setEmpty .scalar c.d)

/-- A command issues (R228, R232). Whatever the command itself makes its engine stop by is its status. Of several parts that fault, the
first in this order is reported: the tenants of receiving scratchpads, the source pages in the order walked, the destination pages
(DESIGN CHOICE, log 138). -/
def issueEngine (c : EngCmd) (refused : Bool) : M Unit := do
  if c.isWalk && 16 ≤ ((← get).walksOf (trowelOf c.ctx.core)).length then stopWait .room
  if refused then enqueueEngine { c with stop := some 0xF0, branches := [] }
  else
    storesAcked
    let src ← translateSource c
    let c := { c with srcPages := src }
    if c.memDst then
      let l ← translateDest c
      let n := (← get).nextCmd
      let c ← placeDest c l
      -- a page of the source that the destination had copied or framed is read through its new entry (R106)
      let src ← translateSource c
      let c ← checkDest { c with srcPages := src }
      registerDest n c
      enqueueEngine c
    else enqueueEngine c

/-- What every engine command reads first: its status register, and its release (R234). -/
def engineOrder (o : MArgs) : M Unit := do
  needWritable .scalar o.d
  if o.ord == .rel then release o.scope

/-- A walk from its descriptor (R225). -/
def walkOf (v : Nat) (c : EngCmd) : EngCmd :=
  { c with
    sva := bits v 0 64 % 2 ^ 56
    dva := bits v 64 64
    rowb := bits v 128 32
    nrow := bits v 160 32
    npln := bits v 192 32
    spitch := sext 64 (bits v 256 64)
    splane := sext 64 (bits v 320 64)
    dpitch := sext 32 (bits v 384 32)
    dplane := sext 32 (bits v 416 32) }

/-- The refusals of R226 that the descriptor alone decides. -/
def badWalk (v : Nat) (c : EngCmd) : Bool :=
  bits v 224 32 != 0 || bits v 448 64 != 0 || c.rowb < 4 || 65536 < c.rowb || c.nrow < 1 || 65536 < c.nrow || c.npln < 1 ||
  65536 < c.npln || c.sva % 4 != 0 || c.dva % 4 != 0 || c.rowb % 4 != 0 || c.spitch % 4 != 0 || c.splane % 4 != 0 ||
  c.dpitch % 4 != 0 || c.dplane % 4 != 0 || 2 ^ 32 < c.total

/-- Pages of memory that a walk touches. -/
def EngCmd.memoryPages (c : EngCmd) : Nat :=
  let src := if inScratch c.ctx.core c.sva then [] else c.srcTouched
  let dst := if c.memDst then c.dstTouched else []
  (dst.foldl (fun acc x => if acc.any (fun y => y.1 == x.1) then acc else acc ++ [x]) src).length

/-- Whether the source, if it is a scratchpad's, stays in it. -/
def EngCmd.sourceFits (c : EngCmd) : Bool :=
  match inWindow c.sva, windowTarget c.ctx.core c.sva with
  | true, some (_, o) => c.within o c.spitch c.splane 0 (2 ^ 20)
  | _, _ => true

/-- Bytes of scratchpad that a destination window reaches from the core of a branch on: a copy through the cluster's window may go on
into the next core's (R221). -/
def EngCmd.windowRoom (c : EngCmd) (b : Branch) : Nat :=
  if c.kind == .copy && decide (2 ^ 32 ≤ c.dva % 2 ^ 48) then 2 ^ 20 * (8 - b.core % 8) else 2 ^ 20

def EngCmd.branchesFit (c : EngCmd) : Bool := c.branches.all (fun b => c.within b.base c.dpitch c.dplane 0 (c.windowRoom b))

/-- The cores that a branch delivers to. -/
def EngCmd.coresOf (c : EngCmd) (b : Branch) : List Nat :=
  if c.kind == .copy then upFrom b.core ((b.base + c.total - 1) / 2 ^ 20 + 1) else [b.core]

/-- The descriptor read as one 64-byte load (R226). -/
def readDescriptor (a : Nat) : M Nat := do
  if a % 64 ≠ 0 then stopTrap (misaligned kRead a 0)
  let c ← myCtx
  let (_, p) ← resolve c .l1 kRead a 64 0
  loadBytes c p 64 false kRead a 0

/-- The first address that a command's destination has in a receiving core's scratchpad: of a multicast walk, whose descriptor gives an
offset, through the cluster's window (R221, R225). -/
def EngCmd.branchVa (c : EngCmd) (b : Branch) (k : Nat) : Nat :=
  if c.kind == .multicast then 0xFE000100000000 + 2 ^ 20 * (k % 8) + b.base
  else if k = b.core then c.dva
  else c.dva + 2 ^ 20 * (k - b.core) - b.base

/-- A receiving core's scratchpad belongs to the tenant (R221, R239). -/
def checkBranches (c : EngCmd) : M Unit := do
  let s ← get
  forEach c.branches fun b => forEach (c.coresOf b) fun k => do
    if (s.core k).spOwner != c.ctx.tenant then stopTrap (xtrap 0x09 0 kWrite (c.branchVa b k) 0)

/-- A copy's destination in a window: the first address of it that reaches no scratchpad traps (R103, R221). -/
def checkWindow (c : EngCmd) : M Unit := do
  if inWindow c.dva then
    match c.branches with
    | [] => stopTrap (xtrap 0x09 0 kWrite c.dva 0)
    | b :: _ => if !c.branchesFit then stopTrap (xtrap 0x09 0 kWrite (c.dva + c.windowRoom b - b.base) 0)

/-- `twk` (R226). -/
def execTwk (o : MArgs) (s : State) : Result :=
  execWhole (do
    let a := (← readS o.sa).toNat % 2 ^ 56
    engineOrder o
    let v ← readDescriptor a
    let ctx ← myCtx
    let c := walkOf v { kind := .walk, ctx := ctx, d := o.d, ev := o.mod.getLsbD 4, utag := o.imm.toNat,
                        src := trowelOf ctx.core, ptag := o.mod.toNat % 16, started := false }
    let c := { c with dva := c.dva % 2 ^ 56 }
    let c := match inWindow c.dva, windowTarget ctx.core c.dva with
      | true, some (k, off) => { c with branches := [{ core := k, base := off }] }
      | true, none => c
      | false, _ => { c with memDst := true }
    if badWalk v c || !(inScratch ctx.core c.sva || inScratch ctx.core c.dva) || 4096 < c.memoryPages || !c.sourceFits || !c.branchesFit then
      issueEngine c true
    else
      if inWindow c.dva && c.branches == [] then stopTrap (xtrap 0x09 0 kWrite c.dva 0)
      checkBranches c
      issueEngine c false) s

/-- `twkm` (R233). -/
def execTwkm (o : MArgs) (s : State) : Result :=
  execWhole (do
    let a := (← readS o.sa).toNat % 2 ^ 56
    let m := (← readS o.sb).toNat % 256
    engineOrder o
    let v ← readDescriptor a
    let ctx ← myCtx
    let c := walkOf v { kind := .multicast, ctx := ctx, d := o.d, ev := o.mod.getLsbD 4, utag := o.imm.toNat,
                        src := trowelOf ctx.core, ptag := o.mod.toNat % 16, started := false }
    let c := { c with branches := ((List.range 8).filter (fun i => bit m i)).map (fun i =>
      { core := ctx.core / 8 * 8 + i, base := c.dva }) }
    if m = 0 || badWalk v c || inScratch ctx.core c.sva || 4096 < c.memoryPages || !c.branchesFit then issueEngine c true
    else
      checkBranches c
      issueEngine c false) s

/-- `copy` (R236): one row. A copy into a scratchpad takes no permit. One that leaves its destination's window reports the first address
past it, also where the window is another tenant's (DESIGN CHOICE, log 139). -/
def execCopy (o : MArgs) (s : State) : Result :=
  execWhole (do
    let d := (← readS o.sa).toNat % 2 ^ 56
    let a := (← readS o.sb).toNat % 2 ^ 56
    let n := (← readS o.sc).toNat
    engineOrder o
    let ctx ← myCtx
    let s ← get
    let c : EngCmd :=
      { kind := .copy, ctx := ctx, d := o.d, ev := o.mod.getLsbD 4, utag := o.imm.toNat,
        src := 8 * (ctx.core / 48) + Config.copyEngine s.nextCmd % 8, sva := a, dva := d, rowb := n }
    let c := match inWindow d, windowTarget ctx.core d with
      | true, some (k, off) => { c with branches := [{ core := k, base := off, credit := true }] }
      | true, none => c
      | false, _ => { c with memDst := true }
    if d % 4 ≠ 0 || a % 4 ≠ 0 || n % 4 ≠ 0 || 2 ^ 32 < n || 4096 < c.srcTouched.length || 4096 < c.dstTouched.length then
      issueEngine c true
    else if n = 0 then issueEngine c false
    else
      checkWindow c
      checkBranches c
      issueEngine c false) s

/-- The devices that a device or group number names (R431, R439): none for a number that a command may not name. -/
def State.members (s : State) (dev : Nat) : List Nat :=
  if dev < 0xFF00 then (if dev = s.relov.devno then [] else [dev])
  else if dev < 0xFF10 then NMap.getD s.relov.groups (dev - 0xFF00) []
  else []

/-- `rcopy` (R237). Bits [63:52] of its physical addresses are dropped, and the remote range wraps at 2^52 (log 123). -/
def execRcopy (o : MArgs) (s : State) : Result :=
  execWhole (do
    let pa := (← readS o.sa).toNat
    let a := (← readS o.sb).toNat % 2 ^ 56
    let n := (← readS o.sc).toNat
    let dev := (← readS ⟨o.sc.reg + 1, o.sc.w⟩).toNat % 65536
    let sig ← if o.mod.getLsbD 0 then (do return some (← readS ⟨o.sc.reg + 2, o.sc.w⟩).toNat) else pure none
    engineOrder o
    let ctx ← myCtx
    let c : EngCmd :=
      { kind := .rcopy, ctx := ctx, d := o.d, ev := o.mod.getLsbD 4, utag := o.imm.toNat, src := dev, sva := a,
        dva := pa % 2 ^ 52, rowb := n, dev := dev, sig := sig }
    issueEngine c (n % 4 != 0 || decide (2 ^ 32 < n) || sig.any (fun x => x % 8 != 0) || (← get).members dev == [])) s

/-! Permits (R227, R235). -/

/-- A permit entry of a core. -/
def Core.setPermit (k : Core) (t : Nat) (p : Permit) : Core := { k with permits := NMap.set k.permits t p }

/-- `grant` (R235): its own core's loads and stores are performed in program order already. -/
def execGrant (o : MArgs) (s : State) : Result :=
  execNext (do
    let a ← readS o.sa
    let b ← readS o.sb
    if o.ord == .rel then release o.scope
    let t := o.mod.toNat % 16
    let n := o.imm.toNat
    let p := NMap.getD (← myCore).permits t {}
    match bits o.mod.toNat 4 2 with
    | 0 =>
      if 2 ^ 20 < a.toNat + b.toNat || a.toNat % 4 ≠ 0 || b.toNat % 4 ≠ 0 then
        stopTrap { cause := 0x09, tval := a, estart := some 0 }
      modMyCore (·.setPermit t ⟨a.toNat, b.toNat, n⟩)
    | 1 => modMyCore (·.setPermit t { p with credits := Min.min (p.credits + n) 65535 })
    | _ => modMyCore (·.setPermit t { p with credits := 0 })) s

/-! Moving bytes. -/

/-- Whether an engine may begin, or has begun, a command: a Trowel runs four walks, started in the order of arrival (R224). -/
def State.mayStart (s : State) (n : Nat) (c : EngCmd) : Bool :=
  let l := s.walksOf (trowelOf c.ctx.core)
  !c.isWalk || c.started ||
    (l.all (fun x => decide (n ≤ x.1) || x.2.started) && decide ((l.filter (fun x => x.2.started)).length < 4))

/-- The branches that no answer has ended and that are not served. -/
def Branch.open' (b : Branch) (total : Nat) : Bool := !b.refused && !b.gone && decide (b.pos < total)

def EngCmd.modBranch (c : EngCmd) (core : Nat) (f : Branch → Branch) : EngCmd :=
  { c with branches := c.branches.map (fun b => if b.core = core then f b else b) }

/-- The buffer gives up what everyone has. -/
def EngCmd.trim (c : EngCmd) : EngCmd :=
  let low := if c.memDst then c.wr
    else (c.branches.filter (fun b => !b.refused && !b.gone)).foldl (fun m b => Min.min m b.pos) c.rd
  { c with buf := c.buf.drop (low - c.bufBase), bufBase := low }

/-- PERMIT_CREDIT_TAKE (R227). A walk that waits at a core which another tenant has come to takes no credit of that tenant's permit: it is
refused there as it would be by `deliverBeat` (R221; log 114). -/
def takeCredit (n core : Nat) (s : State) : State :=
  match NMap.get? s.engines n with
  | some c =>
    let p := NMap.getD (s.core core).permits c.ptag {}
    match c.branches.find? (fun b => b.core == core) with
    | some b =>
      if c.stop.isNone && s.mayStart n c && !b.credit && b.open' c.total && decide (0 < p.credits) then
        if c.within b.base c.dpitch c.dplane p.base p.len && (s.core core).spOwner == c.ctx.tenant then
          let s := s.modCore core (·.setPermit c.ptag { p with credits := p.credits - 1 })
          s.setEngine n { (c.modBranch core fun b => { b with credit := true }) with started := true }
        else s.setEngine n { (c.modBranch core fun b => { b with refused := true }).trim with started := true }
      else s
    | none => s
  | none => s

def execPermitCreditTake (s : State) : Result :=
  match s.input with
  | .permitCreditTake n core => execAgent (modify (takeCredit n core)) s
  | _ => .next s.tick

/-- A few bytes of the source read (R228): at their home, or from their owner; a word that this command itself holds reads as
it stands. -/
def engineRead (n : Nat) (c : EngCmd) (va k : Nat) : M Nat := do
  if inWindow va then
    let p ← windowPlace c.ctx kRead va k 0
    if (← get).bad p.loc k then stopTrap (xtrap 0x28 0 kRead va 0)
    loadScratch (p.scratch.getD 0) p.loc k
  else
    -- a page of a reservation that has been freed since is none of the tenant's (R135)
    let s ← get
    let (l, m) ← match (NMap.get? c.srcPages (va / 65536)).filter (fun x => (tierFault s c.ctx.tenant x.1).isNone) with
      | some x => pure x
      | none => do
        let x ← keyed (← translate c.ctx .engine kRead va k 0)
        modify fun s => s.modEngine n fun c => { c with srcPages := NMap.set c.srcPages (va / 65536) x }
        pure x
    let p ← placeOf c.ctx .engine kRead va k 0 3 l
    let p := if isHbm p.loc && l.pte.kind != 2 then { p with mat := m } else p
    let w := p.loc / 4
    if (← get).lentOut p.loc k then stopTrap (xtrap 0x09 p.level kRead va 0)
    modify (settle (4 * w) 4)
    if (← get).ownerOf w != some (.engine n) then checkWords c.ctx true [⟨p, w⟩] kRead va 0
    modify (readyUnder p.mat (4 * w))
    return (homeValue p.mat w (← get)).toNat / 2 ^ (8 * (p.loc % 4)) % 2 ^ (8 * k)

/-- Source bytes k to k + m - 1. -/
def engineReadRun (n : Nat) (c : EngCmd) (k m : Nat) : M (List Byte) :=
  if c.sva % 4 = 0 then
    (List.range (m / 4)).foldlM (fun acc i => do return acc ++ leBytes 4 (← engineRead n c (c.srcVa (k + 4 * i)) 4)) []
  else
    (List.range m).foldlM (fun acc i => do return acc ++ leBytes 1 (← engineRead n c (c.srcVa (k + i)) 1)) []

/-- The place of a branch's byte k. A copy's range may go on into the next core's scratchpad. -/
def EngCmd.scratchOf (c : EngCmd) (b : Branch) (k : Nat) : Nat := scratchLoc b.core (c.dstOff b.base k)

/-- Bytes written in a scratchpad, word by word: those of positions k on, up to a word that an uncorrectable error struck (R222).
False where one was met. -/
def writeScratch (c : EngCmd) (b : Branch) : Nat → List Byte → State → Bool × State
  | k, x0 :: x1 :: x2 :: x3 :: rest, s =>
    let loc := c.scratchOf b k
    if s.bad loc 4 then (false, s)
    else
      let s := settleScratch ((loc - scratchBase) / 2 ^ 20) loc 4 s
      writeScratch c b (k + 4) rest { s with mem := s.mem.writeBytes loc [x0, x1, x2, x3] }
  | _, _, s => (true, s)

/-- A branch takes its next beat (R233). A core that another tenant has come to takes no more (R221): the branch ends as one whose
permit refuses it, since R230 has no status of its own for this (log 114). -/
def deliverBeat (n core : Nat) (s : State) : State :=
  match NMap.get? s.engines n with
  | some c =>
    match c.branches.find? (fun b => b.core == core) with
    | some b =>
      if c.stop.isNone && b.credit && b.open' c.total && decide (b.pos < c.rd) then
        if (s.core ((c.scratchOf b b.pos - scratchBase) / 2 ^ 20)).spOwner != c.ctx.tenant then
          s.setEngine n (c.modBranch core fun b => { b with refused := true }).trim
        else
          let m := Min.min (if c.kind == .copy then 128 - c.dstVa b.pos % 128 else 64) (c.rd - b.pos)
          let data := (c.buf.drop (b.pos - c.bufBase)).take m
          let (ok, s) := writeScratch c b b.pos data s
          if ok then s.modEngine n fun c => (c.modBranch core fun b => { b with pos := b.pos + m }).trim
          else stopEngine n 0x28 s
      else s
    | none => s
  | none => s

/-- The members to whom a remote copy owes its signal: each once its own data is done (R237, R439). -/
def State.signalsDue (s : State) (n : Nat) (c : EngCmd) : List Nat :=
  if c.sig.isSome && c.stop.isNone && c.rd = c.total then
    let busy (m : Nat) : Bool := s.relov.cmds.any (fun x => x.2.kind == .data n && (NMap.get? x.2.left m).isSome)
    (s.members c.dev).filter (fun m => !(m ∈ c.signalled) && !(m ∈ c.refusedBy) && !busy m)
  else []

/-- The signals of a remote copy: a request each at the issuing core's port (R237, R449). -/
def sendSignals (n : Nat) (s : State) : State :=
  match NMap.get? s.engines n with
  | some c =>
    let ms := s.signalsDue n c
    let s := ms.foldl (fun s m =>
      let (t, s) := newCommand { kind := .signal n, left := [(m, 1)] } (noteRequest c.ctx 8 s)
      sendPacket m (flowOf (c.ctx.core / 48) .eng) .add64 t (c.sig.getD 0 % 2 ^ 52) (leBytes 8 1) s) s
    s.modEngine n fun c => { c with signalled := c.signalled ++ ms }
  | none => s

/-- A run of a remote copy leaves as one WRITE packet, once, for every member (R237, R439). -/
def sendData (n : Nat) (c : EngCmd) (k : Nat) (data : List Byte) (s : State) : State :=
  let (t, s) := newCommand { kind := .data n, left := (s.members c.dev).foldl (fun l m => NMap.set l m 1) [] } s
  sendPacket c.dev (flowOf (c.ctx.core / 48) .eng) .write t ((c.dva + k) % 2 ^ 52) data s

/-- Causes met after issue that stop a command: those of R230, and, with their numbers as status, the permission fault of a region lent
meanwhile (R124; log 70) and the memory-model exception of a read (R169; log 71), for which R230 has no status. -/
def lateCause (k : Nat) : Bool := performingCause k || k == 0x09 || k == 0x11

/-- What a beat's read that failed leaves: a cause met while performing stops the command (R230). A source in a scratchpad that
another tenant has come to ends it as a refused permit does (log 114). Any other read is made again: one that is held, and one whose
page, dropped after issue, does not translate now (log 70). -/
def readFailed (n : Nat) (c : EngCmd) : Stop → State → State
  | .trap t, s =>
    if inWindow (c.srcVa c.rd) && t.cause = 0x09 then stopEngine n 0xF1 s
    else if lateCause t.cause then stopEngine n t.cause s
    else s
  | _, s => s

/-- A transfer of n bytes of memory pays at the port of the issuing core (R449). -/
def enginePays (c : EngCmd) (va n : Nat) (s : State) : State := if inWindow va then s else noteRequest c.ctx n s

/-- TROWEL_BEAT (R233): the next beat of a command is read, if it can be, and each branch takes its next one. -/
def engineBeat (n : Nat) : M Unit := do
  let s ← get
  match NMap.get? s.engines n with
  | some c =>
    if c.mayRead && s.mayStart n c then
      modify fun s => s.modEngine n fun c => { c with started := true }
      let r ← tryCatch (do return Except.ok (← engineReadRun n c c.rd c.beat)) (fun st => return Except.error st)
      match r with
      | .ok data =>
        modify (enginePays c (c.srcVa c.rd) c.beat)
        if c.kind == .rcopy then
          modify (noteRequest c.ctx c.beat)
          modify (sendData n c c.rd data)
          modify fun s => s.modEngine n fun k => { k with rd := k.rd + c.beat, wr := k.wr + c.beat, bufBase := k.rd + c.beat }
        else
          modify fun s => s.modEngine n fun k => { k with rd := k.rd + c.beat, buf := k.buf ++ data }
      | .error e => modify (readFailed n c e)
    modify fun s => c.branches.foldl (fun s b => deliverBeat n b.core s) s
    modify (sendSignals n)
  | none => pure ()

def execTrowelBeat (s : State) : Result :=
  match s.input with
  | .trowelBeat n => execAgent (engineBeat n) s
  | _ => .next s.tick

/-- Whether a place is in a page of a reservation that has been discarded (R136), or freed and taken by another tenant (R8, R135). -/
def State.discarded (s : State) (tenant : Nat) (p : Place) : Bool :=
  isUnbacked p.loc &&
    let rp := (p.loc - unbackedBase) / 65536
    let r := NMap.getD s.resvs (rp / 2 ^ 26) {}
    !(rp % 2 ^ 26 ∈ r.pages && r.tenant == tenant)

/-- A destination page discarded after issue is got again, as for any store: materialised, or moved to a frame (R117). A cause met so
stops the command; a page that does not translate now is tried again (log 70). -/
def renewPage (n : Nat) (c : EngCmd) : M Unit := do
  let va := c.dstVa c.wr
  let r ← tryCatch (do
      let l ← translate c.ctx .engine kWrite va 4 0
      return Except.ok (pagePlace l va (← placeOf c.ctx .engine kWrite va 4 0 3 l))) (fun st => return Except.error st)
  match r with
  | .ok x => modify fun s => s.modEngine n fun c => { c with dstPages := NMap.set c.dstPages (va / 65536) x }
  | .error (.trap t) => if lateCause t.cause then modify (stopEngine n t.cause)
  | .error _ => pure ()

/-- E of a word that an engine writes is cleared, and no owner left (R166). -/
def freeWord (w : Nat) (s : State) : State :=
  let r := s.lineRec (w / 32)
  s.setLine (w / 32) { r.clearWord w with e := r.e &&& ~~~(wordBit w) }

/-- An engine's word is written at its home (R166), or in the non-coherent window at the host. -/
def engineWrite (w v : Nat) (p : Place) (s : State) : State :=
  homeWrite p.mat (4 * w) 4 v (if p.plain then hostTakesLine (w / 32) s else freeWord w s)

/-- The word written, and taken from the buffer. -/
def finishWord (n : Nat) (c : EngCmd) (w : Nat) (p : Place) (s : State) : State :=
  let s := engineWrite w (leNat ((c.buf.drop (c.wr - c.bufBase)).take 4)) p s
  s.modEngine n fun c => { c with wr := c.wr + 4 }.trim

/-- A buffered word written at its place, unless its home holds it for another (R166, R192). -/
def writeWordAt (n : Nat) (c : EngCmd) (p : Place) (s : State) : State :=
  let w := p.loc / 4
  match HomeWord.answer ⟨p, w⟩ c.ctx false s with
  | .poisoned => stopEngine n 0x10 s
  | a =>
    if s.bad (4 * w) 4 then stopEngine n 0x28 s
    else if !p.plain && !s.dieReachable (4 * w) then stopEngine n 0x29 s
    else if a == .held && s.ownerOf w != some (.engine n) then s
    else finishWord n c w p (if c.wr % 64 = 0 then noteRequest c.ctx (Min.min 64 (c.total - c.wr)) s else s)

/-- ENGINE_WRITE_AT_HOME (R166): the next buffered word of a command whose destination is memory. -/
def engineWriteNext (n : Nat) : M Unit := do
  let s ← get
  match NMap.get? s.engines n with
  | some c =>
    if c.stop.isNone && c.memDst && decide (c.wr + 4 ≤ c.rd) then
      match c.reaches c.wr, c.dstPlace c.wr with
      | false, _ => set (stopEngine n ((c.failAt.map (·.2)).getD 0) s)
      | true, none => pure ()
      | true, some p =>
        if s.discarded c.ctx.tenant p then renewPage n c
        else
          match ← catchTrap (wordPlace p (c.dstVa c.wr)) with
          | .error e => modify (stopEngine n e.1)
          | .ok p => modify (writeWordAt n c p)
  | none => pure ()

def execEngineWriteAtHome (s : State) : Result :=
  match s.input with
  | .engineWriteAtHome n => execAgent (engineWriteNext n) s
  | _ => .next s.tick

/-! Completion (R231). -/

/-- Whether a remote copy has every answer it waits for. -/
def State.rcopyAnswered (s : State) (n : Nat) (c : EngCmd) : Bool :=
  !s.relov.cmds.any (fun x => x.2.kind == .data n || x.2.kind == .signal n) &&
  (c.stop.isSome || (c.rd == c.total &&
    (c.sig.isNone || (s.members c.dev).all (fun m => m ∈ c.signalled || m ∈ c.refusedBy))))

/-- Whether a command has moved all that it will move. -/
def State.engineDone (s : State) (n : Nat) (c : EngCmd) : Bool :=
  if c.kind == .rcopy then s.rcopyAnswered n c
  else c.stop.isSome || (if c.memDst then c.wr == c.total else c.branches.all (fun b => !b.open' c.total))

def EngKind.event : EngKind → Nat
  | .walk | .multicast => 1
  | .copy => 2
  | .rcopy => 3

/-- The status written and the record posted. -/
def postStatus (c : EngCmd) (v : DWord) (s : State) : State :=
  let n := c.ctx.seq
  let s := if c.d = 0 then s else s.modSeq n fun q => (q.setScalar c.d v).setFull .scalar c.d
  if c.ev then
    s.postSeq n (Record.bits { kind := c.kind.event, status := v.toNat % 256, src := c.src, utag := c.utag, count := v.toNat / 256 })
  else s

/-- ENGINE_COMMAND_COMPLETE. -/
def completeEngine (n : Nat) (s : State) : State :=
  match NMap.get? s.engines n with
  | some c =>
    if s.engineDone n c then
      let s := releaseEngine n s
      let v := c.word s.freeCtr
      postStatus c v { s with engines := NMap.erase s.engines n, freeCtr := s.freeCtr + 1 }
    else s
  | none => s

def execEngineCommandComplete (s : State) : Result :=
  match s.input with
  | .engineCommandComplete n => execAgent (modify (completeEngine n)) s
  | _ => .next s.tick

/-! Waiting for engine commands (R232, R348). -/

/-- Commands of a sequencer. -/
def State.enginesOf (s : State) (n : Nat) : NMap EngCmd := s.engines.filter (fun x => x.2.ctx.seq == n)

/-- Branches that wait for a credit are abandoned (R232). -/
def EngCmd.abandon (c : EngCmd) : EngCmd :=
  if c.isWalk then EngCmd.trim { c with branches := c.branches.map (fun b => if b.credit || b.refused then b else { b with gone := true }) }
  else c

def abandonWalks (n : Nat) (s : State) : State :=
  { s with engines := NMap.mapVals s.engines (fun _ c => if c.ctx.seq = n then c.abandon else c) }

/-- Commands of the sequencers of a group stop with status 0x21 (R232). -/
def cancelEngines (p : Nat → Bool) (s : State) : State :=
  ((s.engines.filter (fun x => p x.2.ctx.seq)).map (·.1)).foldl (fun s n => stopEngine n 0x21 s) s

end Sys2Proof.Machine
end

