-- ==== Sys2Proof/Machine/Matrix.lean ====
section
/-! DEFINITION. The matrix engine (12 R303 to R319): operands, the tile configuration, `mstep` by row groups, moves between
accumulators and bricks, the epilogue and the drains. -/

namespace Sys2Proof.Machine

/-! The tile configuration (R308 to R310). -/

/-- A tile configuration image, by fields. -/
structure Cfg where
  abase : Nat
  bbase : Nat
  asc : Nat
  bsc : Nat
  afmt : Nat
  ags : Nat
  bfmt : Nat
  bgs : Nat
  kb : Nat
  mgrp : Nat
  epif : Nat
  alpha : Nat
  cpitch : Nat
  bias : Nat
  rest : Nat
deriving DecidableEq, Repr

def Cfg.of (v : BitVec 512) : Cfg :=
  let x := v.toNat
  { abase := bits x 0 64, bbase := bits x 64 64, asc := bits x 128 64, bsc := bits x 192 64, afmt := bits x 256 8, ags := bits x 264 8,
    bfmt := bits x 272 8, bgs := bits x 280 8, kb := bits x 288 16, mgrp := bits x 304 8, epif := bits x 312 8, alpha := bits x 320 32,
    cpitch := bits x 352 32, bias := bits x 384 64, rest := bits x 448 64 }

def gsGeo (g : Nat) : Nat := g % 4
def gsScf (g : Nat) : Nat := g / 4 % 4
def gsKmaj (g : Nat) : Bool := bit g 4

/-- The formats, geometries and scales that each operand may have (R305, R70). -/
def operandOk (a : Bool) (fmt gs : Nat) : Bool :=
  (if a then fmt ∈ [3, 4, 5, 6] else fmt ∈ [3, 4, 5, 6, 7, 9, 10]) && formatOk fmt (gsGeo gs) (gsScf gs)

/-- A nonzero VA field of an image lies in a scratchpad window. -/
def fieldInWindow (va : Nat) : Bool := va == 0 || inWindow (va % 2 ^ 56)

/-- The reason a configuration is rejected, if it is (R309); of several the lowest (DESIGN CHOICE, log 143). -/
def Cfg.reason (c : Cfg) : Option Nat :=
  if 32 ≤ c.afmt || 32 ≤ c.ags || 32 ≤ c.bfmt || 32 ≤ c.bgs || 16 ≤ c.epif || c.rest != 0 then some 1
  else if !operandOk true c.afmt c.ags || !operandOk false c.bfmt c.bgs || (c.asc != 0) != (gsScf c.ags != 0) ||
    (c.bsc != 0) != (gsScf c.bgs != 0) then some 2
  else if c.kb = 0 || 256 < c.kb then some 3
  else if c.abase % 64 != 0 || c.bbase % 64 != 0 || !fieldInWindow c.abase || !fieldInWindow c.bbase || !fieldInWindow c.asc ||
    !fieldInWindow c.bsc || !fieldInWindow c.bias then some 4
  else if 4 < c.epif / 2 then some 5
  else none

/-- MTCFG of an accepted configuration (R310). -/
def Cfg.reg (c : Cfg) : DWord :=
  BitVec.ofNat 64 (2 ^ 63 + c.mgrp * 2 ^ 32 + (c.kb - 1) * 2 ^ 24 + c.epif / 2 * 2 ^ 21 + c.epif % 2 * 2 ^ 20 + c.bgs * 2 ^ 15 +
    c.bfmt * 2 ^ 10 + c.ags * 2 ^ 5 + c.afmt)

/-- `mcfg` (R313). -/
def execMcfg (o : MArgs) (s : State) : Result :=
  execNext (do
    let a := (← readS o.sa).toNat % 2 ^ 56
    needWritable .scalar o.d
    if a % 64 ≠ 0 then stopTrap (misaligned kRead a 0)
    let ctx ← myCtx
    let (_, p) ← resolve ctx .l1 kRead a 64 0
    let v := BitVec.ofNat 512 (← loadBytes ctx p 64 false kRead a 0)
    match (Cfg.of v).reason with
    | none =>
      modMe fun q => { q with tcfg := v, mtcfg := (Cfg.of v).reg }
      writeLong o.d 0
    | some k =>
      modMe fun q => { q with mtcfg := q.mtcfg &&& 0x7FFFFFFFFFFFFFFF }
      writeLong o.d (BitVec.ofNat 64 (2 ^ 63 + k))) s

/-! Operands (R306). -/

/-- An operand in scratchpad: its format, geometry and scales, the locations of its codes and of its scale bytes, and K. -/
structure MatOperand where
  fmt : NFmt
  kmaj : Bool
  geo : Nat
  scf : Nat
  loc : Nat
  scale : Nat
  k : Nat
deriving DecidableEq, Repr

/-- `idx` (R306). -/
def MatOperand.idx (o : MatOperand) (i k : Nat) : Nat :=
  if o.kmaj then i * o.k + k else 256 * (4 * (k / 16) + i / 16) + 16 * (k % 16) + i % 16

/-- The slot of a logical index: σ where scaled (R71). -/
def MatOperand.slot (o : MatOperand) (n : Nat) : Nat :=
  if o.scf = 0 then n else
    let (b, j) := blockOf o.geo n
    16 * b + j

/-- The element at (i, k) as `mem` holds it. -/
def MatOperand.elem (o : MatOperand) (mem : Memory) (i k : Nat) : Ex :=
  let w := o.fmt.width
  let (byte, b) := slotPlace w (o.slot (o.idx i k))
  o.fmt.value (mem.readLe (o.loc + byte) (spanBytes w b) / 2 ^ b % 2 ^ w)

/-- The scale of block kb of row or column i; none is a NaN block. -/
def MatOperand.scaleOf (o : MatOperand) (mem : Memory) (i kb : Nat) : Option Ex :=
  if o.scf = 0 then some (.fin false 1 1 0)
  else
    let code := (mem.read (o.scale + (blockOf o.geo (o.idx i (16 * kb))).1)).toNat
    if code = 0xFF then none else some (scaleValue o.scf code)

/-- Bytes of 64·K elements. -/
def operandBytes (w k : Nat) : Nat :=
  let (byte, b) := slotPlace w (64 * k - 1)
  byte + spanBytes w b

/-- Scaled blocks run along k (R307). -/
def alongK (gs : Nat) : Bool := gsScf gs == 0 || (gsKmaj gs && gsGeo gs == 1) || (!gsKmaj gs && gsGeo gs == 2)

/-! The exact sums (R86). -/

/-- Sixteen products summed exactly. Of an exact zero R86 gives no sign: the model's sum starts at +0, so a zero block leaves +0 where an
accumulator held -0, and a zero scale gives a negative block -0 (log 117). -/
def dotBlock (xs ys : List Ex) : Ex := (xs.zip ys).foldl (fun acc p => acc.add (p.1.mul p.2)) (Ex.zero false)

/-- One block added to an accumulator element, rounded once. -/
def accumulate (c : Nat) (sa sb : Option Ex) (p : Ex) : Nat × Flags :=
  match sa, sb with
  | some sa, some sb =>
    if p.isNaN then (NFmt.fp32.canonicalNaN, flagNV)
    else
      let x := NFmt.fp32.value c
      if x.isNaN then (NFmt.fp32.canonicalNaN, sigFlag [x])
      else finish .fp32 (x.add ((sa.mul sb).mul p)) .rne 0
  | _, _ => (NFmt.fp32.canonicalNaN, flagNV)

/-- The block kb of a row or column, its elements. -/
def blockElems (l : List Ex) (kb : Nat) : List Ex := (l.drop (16 * kb)).take 16

/-- One output element over K. -/
def dotElement (nb : Nat) (xs ys : List Ex) (sas sbs : List (Option Ex)) (c : Nat) : Nat × Flags :=
  (List.range nb).foldl (fun (acc : Nat × Flags) kb =>
    let (v, f) := accumulate acc.1 (sas.getD kb none) (sbs.getD kb none) (dotBlock (blockElems xs kb) (blockElems ys kb))
    (v, acc.2 ||| f)) (c, 0)

/-- A row or column of an operand: its elements and scales. -/
def MatOperand.line (o : MatOperand) (mem : Memory) (i : Nat) : List Ex × List (Option Ex) :=
  ((List.range o.k).map (o.elem mem i), (List.range (o.k / 16)).map (o.scaleOf mem i))

/-- A group of eight rows: the elements added to `acc`, by 64·row + column, and the flags. -/
def rowGroup (mem : Memory) (a b : MatOperand) (g : Nat) (acc : NMap Word) : NMap Word × Flags :=
  let cols := (List.range 64).map (b.line mem)
  (upFrom (8 * g) 8).foldl (fun (r : NMap Word × Flags) i =>
    let (xs, sas) := a.line mem i
    cols.zipIdx.foldl (fun (r : NMap Word × Flags) y =>
      let (v, f) := dotElement (a.k / 16) xs y.1.1 sas y.1.2 (NMap.getD r.1 (64 * i + y.2) 0).toNat
      (if v = 0 then NMap.erase r.1 (64 * i + y.2) else NMap.set r.1 (64 * i + y.2) (BitVec.ofNat 32 v), r.2 ||| f)) r) (acc, 0)

/-! The checks of a step (R314, R315). -/

/-- A fault of a step at its checks: cause and VA. -/
structure StepFault where
  cause : Nat
  va : Nat
deriving DecidableEq, Repr

/-- A range that must lie in one scratchpad of the tenant: its location. -/
def scratchRange (s : State) (core tenant va n : Nat) : Except StepFault Nat :=
  match inWindow va, windowTarget core va with
  | true, some (k, o) => if (s.core k).spOwner = tenant && o + n ≤ 2 ^ 20 then .ok (scratchLoc k o) else .error ⟨0x09, va⟩
  | _, _ => .error ⟨0x09, va⟩

/-- The addresses of a step. -/
structure StepAddrs where
  a : Nat
  b : Nat
  asc : Nat
  bsc : Nat
deriving DecidableEq, Repr

/-- The bases, one after the other, checked: alignment, geometry, ranges (R314). Where A and B fail one check, A is reported (DESIGN
CHOICE, log 143). -/
def stepOperands (s : State) (core tenant : Nat) (c : Cfg) (x : StepAddrs) : Except StepFault (MatOperand × MatOperand) := do
  let k := 64 * c.kb
  if x.a % 64 != 0 then throw ⟨0x0D, x.a⟩
  if x.b % 64 != 0 then throw ⟨0x0D, x.b⟩
  if !alongK c.ags then throw ⟨0x0B, x.a⟩
  if !alongK c.bgs then throw ⟨0x0B, x.b⟩
  let fa := (NFmt.ofCode c.afmt).getD .fp8a
  let fb := (NFmt.ofCode c.bfmt).getD .fp8a
  let la ← scratchRange s core tenant x.a (operandBytes fa.width k)
  let lb ← scratchRange s core tenant x.b (operandBytes fb.width k)
  let sa ← if gsScf c.ags = 0 then pure 0 else scratchRange s core tenant x.asc (4 * k)
  let sb ← if gsScf c.bgs = 0 then pure 0 else scratchRange s core tenant x.bsc (4 * k)
  return (⟨fa, gsKmaj c.ags, gsGeo c.ags, gsScf c.ags, la, sa, k⟩, ⟨fb, gsKmaj c.bgs, gsGeo c.bgs, gsScf c.bgs, lb, sb, k⟩)

/-- The listed bytes that a step reads. -/
def stepMemory (s : State) (a b : MatOperand) : Memory :=
  let hit (lo n x : Nat) : Bool := decide (lo ≤ x) && decide (x < lo + n)
  s.mem.filter (fun c => hit a.loc (operandBytes a.fmt.width a.k) c.1 || hit b.loc (operandBytes b.fmt.width b.k) c.1 ||
    (a.scf != 0 && hit a.scale (4 * a.k) c.1) || (b.scf != 0 && hit b.scale (4 * b.k) c.1))

/-- The scratchpad offset, from the operand's base, of the element at (i, k) and its bytes. -/
def MatOperand.span (o : MatOperand) (i k : Nat) : Nat × Nat :=
  let (byte, b) := slotPlace o.fmt.width (o.slot (o.idx i k))
  (byte, spanBytes o.fmt.width b)

/-- The offset of the first element of a row or column that an uncorrectable error struck. -/
def MatOperand.badElem (o : MatOperand) (s : State) (i : Nat) : Option Nat :=
  ((List.range o.k).find? (fun k => s.bad (o.loc + (o.span i k).1) (o.span i k).2)).map (fun k => (o.span i k).1)

/-- As `badElem`, of its scales. -/
def MatOperand.badScale (o : MatOperand) (s : State) (i : Nat) : Option Nat :=
  if o.scf = 0 then none
  else ((List.range (o.k / 16)).map (fun kb => (blockOf o.geo (o.idx i (16 * kb))).1)).find? (fun n => s.bad (o.scale + n) 1)

/-- The VA of an uncorrectable error that a row group meets: in the group's rows of A, in B, in their scales (R315). Which of several is
named is the model's choice (log 116). -/
def groupBad (s : State) (a b : MatOperand) (x : StepAddrs) (g : Nat) : Option Nat :=
  if s.badWords = [] then none
  else
    let rows := upFrom (8 * g) 8
    let cols := List.range 64
    (((rows.findSome? (a.badElem s)).map (x.a + ·)).or ((cols.findSome? (b.badElem s)).map (x.b + ·))).or
      (((rows.findSome? (a.badScale s)).map (x.asc + ·)).or ((cols.findSome? (b.badScale s)).map (x.bsc + ·)))

/-- Combining entries of a scratchpad that the operands lie in are applied before they are read. -/
def settleOperands (a b : MatOperand) (s : State) : State :=
  let at' (loc n : Nat) (s : State) : State := settleScratch ((loc - scratchBase) / 2 ^ 20) loc n s
  let s := at' b.loc (operandBytes b.fmt.width b.k) (at' a.loc (operandBytes a.fmt.width a.k) s)
  let s := if a.scf = 0 then s else at' a.scale (4 * a.k) s
  if b.scf = 0 then s else at' b.scale (4 * b.k) s

/-! Accumulators. -/

def myAcc (i : Nat) : M Accum := do return (← myCore).accOf i

/-- An accumulator written by the sequencer (R303, R412), full when its command has completed. -/
def putAcc (i : Nat) (l : NMap Word) (full : Bool) : M Unit := do
  let q ← mySeq
  modMyCore fun c => c.setAcc i { elems := l, full := full, writer := some q.uid }

/-- An accumulator written by a command that completes in this step: its bit is clear only within it. -/
def writeAcc (i : Nat) (l : NMap Word) : M Unit := putAcc i l true

/-- A command that writes an accumulator waits while it is empty (R303). -/
def needAcc (d : Reg) : M Unit := needWritable .acc d

/-- The configuration held, or the ill-formed type trap (R314, R320). -/
def needCfg : M Cfg := do
  let q ← mySeq
  if !q.mtcfg.getLsbD 63 then stopTrap { cause := 0x05, tval := q.mtcfg }
  return Cfg.of q.tcfg

def throwStep {α : Type} (f : StepFault) : M α := stopTrap { cause := f.cause, tval := BitVec.ofNat 64 f.va }

/-- A sequencer's `mstep` that has done some row groups and goes on: it holds its accumulator empty (R303). -/
def State.stepUnderWay (s : State) (d : Reg) : Bool :=
  let a := (s.core (coreOf s.cur)).accOf d.toNat
  !a.full && a.writer == some (s.seq s.cur).uid

/-- The flags of the rows below ESTART that the step has done already (R83). -/
def Seq.stepFlags (q : Seq) (d : Reg) : Flags :=
  match q.mstop with
  | some m => if m.acc = d.toNat && m.row = q.estart.toNat then m.flags else 0
  | none => 0

/-- One row group committed. An uncorrectable error stops the step at the group that meets it (R315). -/
def stepGroup (d : Reg) (a b : MatOperand) (x : StepAddrs) (g ng : Nat) : M Unit := do
  let f0 := (← mySeq).stepFlags d
  let stopped (row : Nat) (f : Flags) : M Unit := modMe fun q => { q with mstop := some ⟨d.toNat, row, f⟩ }
  modify (settleOperands a b)
  let s ← get
  match groupBad s a b x g with
  | some va =>
    stopped (8 * g) f0
    stopTrap (xtrap 0x28 0 kRead va (8 * g))
  | none =>
    let (l, f) := rowGroup (stepMemory s a b) a b g (← myAcc d.toNat).elems
    putAcc d.toNat l (ng ≤ g + 1)
    stopped (8 * (g + 1)) (f0 ||| f)
    modMe fun q => { q with estart := BitVec.ofNat 40 (8 * (g + 1)) }

/-- The end of a step: ESTART := 0, and its flags merged (R314). -/
def finishMstep (d : Reg) : M Unit := do
  modMe fun q => { (q.mergeFlags (q.stepFlags d)) with mstop := none }
  clearEstart

/-- `mstep` (R314, R315): a row group a turn, each a point where it may be stopped (R328). -/
def execMstep (o : MArgs) (s : State) : Result :=
  execSeq (do
    let x ← readS o.sa
    let y ← readS o.sb
    let z ← readS o.sc
    if !(← get).stepUnderWay o.d then needAcc o.d
    let ng := if o.imm.toNat % 16 = 0 then 8 else o.imm.toNat % 16
    let c ← needCfg
    let ctx ← myCtx
    let addrs : StepAddrs :=
      { a := (c.abase + x.toNat) % 2 ^ 56, b := (c.bbase + y.toNat) % 2 ^ 56, asc := (c.asc + z.toNat % 2 ^ 32) % 2 ^ 56,
        bsc := (c.bsc + z.toNat / 2 ^ 32) % 2 ^ 56 }
    match stepOperands (← get) ctx.core ctx.tenant c addrs with
    | .error f => throwStep f
    | .ok (a, b) =>
      let g := (← mySeq).estart.toNat / 8
      if g < ng then stepGroup o.d a b addrs g ng
      if g + 1 < ng then return .again
      finishMstep o.d
      return .next) s

/-- `mzero` (R316). -/
def execMzero (o : MArgs) (s : State) : Result :=
  execNext (do
    needAcc o.d
    writeAcc o.d.toNat []) s

/-- An accumulator element; rows above 63 read +0 (R317). -/
def Accum.at (a : Accum) (row col : Nat) : Word := if row ≤ 63 then NMap.getD a.elems (64 * row + col) 0 else 0

def Accum.put (a : NMap Word) (row col : Nat) (v : Word) : NMap Word :=
  if row ≤ 63 then (if v = 0 then NMap.erase a (64 * row + col) else NMap.set a (64 * row + col) v) else a

/-- `mrda` (R317). -/
def execMrda (o : MArgs) (s : State) : Result :=
  execNext (do
    needType .i32
    needFull .acc o.sa
    let r ← readS o.sb
    needBrickDest o.d
    let a ← myAcc o.sa.reg.toNat
    let es := List.range (← mySeq).vl
    forEach es fun e => modMe (·.setElem o.d.toNat e ((a.at (r.toNat + e / 64) (e % 64)).setWidth 64))
    brickPending o.d es
    clearEstart) s

/-- `mwra` (R317). -/
def execMwra (o : MArgs) (s : State) : Result :=
  execNext (do
    needType .i32
    needBrick o.sa
    let r ← readS o.sb
    needAcc o.d
    let q ← mySeq
    let a ← myAcc o.d.toNat
    writeAcc o.d.toNat ((List.range q.vl).foldl (fun l e =>
      Accum.put l (r.toNat + e / 64) (e % 64) ((q.elem o.sa.reg.toNat e).setWidth 32)) a.elems)
    clearEstart) s

/-! The epilogue (R318) and the drains (R319). -/

/-- OFMT as a number format, and as a page's FMT code. -/
def ofmtOf (c : Cfg) : NFmt :=
  match c.epif / 2 with
  | 0 => .fp32 | 1 => .bf16 | 2 => .fp16 | 3 => .fp8a | _ => .fp8b

def ofmtCode (c : Cfg) : Nat := c.epif / 2 + 2

/-- The exact value, and whether computing it was invalid. -/
def epilogue (c : Cfg) (bias v : Nat) : Ex × Flags :=
  let a := NFmt.fp32.value c.alpha
  let x := NFmt.fp32.value v
  let b := NFmt.fp32.value bias
  let y := (a.mul x).add b
  if y.isNaN then (.nan false, if a.isNaN || x.isNaN || b.isNaN then sigFlag [a, x, b] else flagNV)
  else if c.epif % 2 = 1 && y.cmp (Ex.zero false) < 0 then (Ex.zero false, 0)
  else (y, 0)

/-- The bits of an element that a drain delivers. -/
def drainElem (c : Cfg) (f : NFmt) (bias v : Nat) : Nat × Flags :=
  let (y, f0) := epilogue c bias v
  let (b, f1) := roundTo f y .rne 0
  (b, f0 ||| f1)

/-- The bias array's checks: its location, none when there is none. -/
def biasRange (s : State) (core tenant bias : Nat) : Except StepFault (Option Nat) :=
  if bias = 0 then .ok none
  else if bias % 4 != 0 then .error ⟨0x0D, bias⟩
  else match scratchRange s core tenant (bias % 2 ^ 56) 256 with
    | .ok loc => .ok (some loc)
    | .error f => .error f

/-- The bias of a column. -/
def biasOf (s : State) (loc : Option Nat) (col : Nat) : Nat :=
  match loc with
  | some l => s.mem.readLe (l + 4 * col) 4
  | none => 0

/-- The bias array checked at a drain's issue, and settled. -/
def needBias (c : Cfg) : M (Option Nat) := do
  let ctx ← myCtx
  match biasRange (← get) ctx.core ctx.tenant c.bias with
  | .error f => throwStep f
  | .ok loc =>
    match loc with
    | some l =>
      modify (settleScratch ((l - scratchBase) / 2 ^ 20) l 256)
      return some l
    | none => return none

/-- The first of 64 biases that an uncorrectable error struck. -/
def biasBad (s : State) (loc : Option Nat) : Option Nat :=
  loc.bind (fun l => (List.range 64).find? (fun col => s.bad (l + 4 * col) 4))

/-- `mdrain.brk` (R319). -/
def execMdrainBrk (o : MArgs) (s : State) : Result :=
  execNext (do
    needType .i32
    let c ← needCfg
    needFull .acc o.sa
    let r ← readS o.sb
    needBrickDest o.d
    let bias ← needBias c
    let s ← get
    match biasBad s bias with
    | some col => stopTrap (xtrap 0x28 0 kRead (c.bias % 2 ^ 56 + 4 * col) 0)
    | none => pure ()
    let a ← myAcc o.sa.reg.toNat
    let es := List.range (← mySeq).vl
    forEach es fun e =>
      if r.toNat + e / 64 ≤ 63 then do
        let (v, f) := drainElem c .fp32 (biasOf s bias (e % 64)) (a.at (r.toNat + e / 64) (e % 64)).toNat
        modMe fun q => (q.setElem o.d.toNat e (BitVec.ofNat 64 v)).mergeFlags f
      else modMe (·.setElem o.d.toNat e 0)
    if o.mod.getLsbD 1 then
      writeAcc o.sa.reg.toNat (es.foldl (fun l e => Accum.put l (r.toNat + e / 64) (e % 64) 0) a.elems)
    brickPending o.d es
    clearEstart) s

/-- The rows that a drain writes: the VA of each and its bytes, and the flags of all. -/
def drainRows (s : State) (c : Cfg) (bias : Option Nat) (acc : NMap Word) (r n dst : Nat) (pitch : Int) : List (Nat × List Byte) × Flags :=
  let f := ofmtOf c
  (List.range n).foldl (fun (out : List (Nat × List Byte) × Flags) i =>
    let row := (List.range 64).map (fun col => drainElem c f (biasOf s bias col) (NMap.getD acc (64 * (r + i) + col) 0).toNat)
    let va := (((dst : Int) + (i : Int) * pitch) % (2 ^ 56 : Nat)).toNat
    (out.1 ++ [(va, (row.map (fun x => leBytes (f.width / 8) x.1)).flatten)], row.foldl (fun fl x => fl ||| x.2) out.2)) ([], 0)

/-- The page formats that a drain may write (R319). -/
def drainTests (fmtCode : Nat) : LeafTests :=
  ⟨fun l => l.pte.fmt != 0 && !(l.pte.scf == 0 && l.pte.fmt == fmtCode), fun _ => none⟩

/-- Where a run of a drain goes: a scratchpad, or pages of memory, translated and checked (R101, R319). A row in a scratchpad window of a
drain that starts in memory is a permission fault (DESIGN CHOICE, log 122). -/
def drainTranslate (ctx : Ctx) (fmtCode : Nat) (runs : List (Nat × List Byte)) : M (NMap Leaf) := do
  let n := (runs.headD (0, [])).2.length
  (touchedPages n (runs.map (·.1))).foldlM (fun acc (p, va) => do
    if inWindow va then stopTrap (xtrap 0x09 0 kWrite va 0)
    return NMap.set acc p (← translateFor ctx .engine kWrite va 1 0 (drainTests fmtCode))) []

/-- A leaf found as its drain issued, for another row: one that an earlier row may have had rewritten, by a copy or a late frame, is
translated again (R106). -/
def leafNow (ctx : Ctx) (va : Nat) (l : Leaf) : M Leaf :=
  if l.pte.kind == 3 || l.pte.kind == 4 then translate ctx .engine kWrite va 1 0 else return l

/-- The pages that a run needs (R117, R121), by page. -/
def drainPlaces (ctx : Ctx) (leaves : NMap Leaf) (run : Nat × List Byte) : M (NMap Place) :=
  (touchedPages run.2.length [run.1]).foldlM (fun acc (p, va) => do
    match NMap.get? leaves p with
    | some l =>
      let l ← leafNow ctx va l
      return NMap.set acc p (pagePlace l va (← placeOf ctx .engine kWrite va 1 0 3 l))
    | none => return acc) []

/-- The pieces of a run, cut at words. -/
def runPieces (va : Nat) (data : List Byte) : List (Nat × List Byte) :=
  (wordsOf va data.length).map (fun w =>
    let lo := Max.max va (4 * w)
    let hi := Min.min (va + data.length) (4 * w + 4)
    (lo, (data.drop (lo - va)).take (hi - lo)))

def placeAt (places : NMap Place) (va : Nat) : Place :=
  let p := NMap.getD places (va / 65536 % 2 ^ 40) { loc := 0 }
  { p with loc := p.loc + va % 65536 }

/-- Whether a word is registered under a tile step's number. -/
def State.heldUnder (s : State) (cmd : Option Nat) (w : Nat) : Bool := cmd.any (fun n => s.ownerOf w == some (.engine n))

/-- One row of a drain whose pages are had: its words checked, each piece with its place. `cmd`: the number that its words are registered
under; `races`: the check is that of a registration (R169). -/
def rowReady (ctx : Ctx) (cmd : Option Nat) (races : Bool) (places : NMap Place) (run : Nat × List Byte) : M (List (Place × List Byte)) :=
  (runPieces run.1 run.2).foldlM (fun acc x => do
    let p ← wordPlace (placeAt places x.1) x.1
    let s ← get
    -- a word registered under the number answers to no one else
    if s.heldUnder cmd (p.loc / 4) then
      if s.bad (p.loc / 4 * 4) 4 then stopTrap (xtrap 0x28 p.level kWrite x.1 0)
      if !s.dieReachable (p.loc / 4 * 4) then stopTrap (xtrap 0x29 p.level kWrite x.1 0)
    else checkWords ctx races [⟨p, p.loc / 4⟩] kWrite x.1 0
    return acc ++ [(p, x.2)]) []

/-- One row of a sequencer's drain made ready. -/
def drainReady (ctx : Ctx) (leaves : NMap Leaf) (run : Nat × List Byte) : M (List (Place × List Byte)) := do
  modify (noteRequest ctx run.2.length)
  rowReady ctx none true (← drainPlaces ctx leaves run) run

/-- One row of a drain written at its homes. -/
def drainWrite (cmd : Option Nat) (row : List (Place × List Byte)) (s : State) : State :=
  row.foldl (fun s x =>
    let s := if x.1.plain then hostTakesLine (x.1.loc / 128) s else if s.heldUnder cmd (x.1.loc / 4) then freeWord (x.1.loc / 4) s else s
    homeWrite x.1.mat x.1.loc x.2.length (leNat x.2) s) s

/-- A drain to memory: the rows made ready, up to the first that cannot be written, then written. The rows written, and the cause and VA of
its stop. -/
def drainMemory (cmd : Option Nat) (ready : Nat × List Byte → M (List (Place × List Byte))) (runs : List (Nat × List Byte)) :
    M (Nat × Option (Nat × Nat)) := do
  let (rows, st) ← runs.foldlM (fun (acc : List (List (Place × List Byte)) × Option (Nat × Nat)) r => do
    if acc.2.isSome then return acc
    match ← catchPerforming (ready r) with
    | .ok p => return (acc.1 ++ [p], none)
    | .error k => return (acc.1, some k)) ([], none)
  modify fun s => rows.foldl (fun s x => drainWrite cmd x s) s
  return (rows.length, st)

/-- A row of a drain written in a scratchpad, up to a word that an uncorrectable error struck (R222): its VA, where it met one. -/
def scratchRow (core : Nat) (run : Nat × List Byte) (s : State) : Option Nat × State :=
  match windowTarget core run.1 with
  | some (k, o) =>
    let loc := scratchLoc k o
    let s := settleScratch k loc run.2.length s
    match (runPieces loc run.2).find? (fun x => s.bad x.1 1) with
    | some x => (some (run.1 + (x.1 - loc)), { s with mem := s.mem.writeBytes loc (run.2.take (x.1 - loc)) })
    | none => (none, { s with mem := s.mem.writeBytes loc run.2 })
  | none => (none, s)

/-- A drain to a scratchpad: the rows written, and the cause and VA of its stop. -/
def drainScratch (core : Nat) (runs : List (Nat × List Byte)) : M (Nat × Option (Nat × Nat)) :=
  runs.foldlM (fun (acc : Nat × Option (Nat × Nat)) r => do
    if acc.2.isSome then return acc
    let (met, s) := scratchRow core r (← get)
    set s
    return match met with
      | none => (acc.1 + 1, none)
      | some va => (acc.1, some (0x28, va))) (0, none)

/-- Whether every run stays in the scratchpad that the first byte is in. -/
def runsFit (core dst : Nat) (pitch : Int) (n len : Nat) : Bool :=
  match windowTarget core dst with
  | some (_, o) =>
    let last := (o : Int) + ((n - 1 : Nat) : Int) * pitch
    decide (0 ≤ last) && decide (last + len ≤ 2 ^ 20) && decide (o + len ≤ 2 ^ 20)
  | none => true

/-- The refusals of a drain (R319). -/
def drainRefused (c : Cfg) (core r n dst : Nat) : Bool :=
  let w := (ofmtOf c).width / 8
  decide (64 < r + n) || dst % w != 0 || c.cpitch % w != 0 ||
  (inWindow dst && !runsFit core dst ((c.cpitch : Int)) n (64 * w))

/-- A drain's scratchpad destination is one of its tenant (R221). -/
def needScratch (ctx : Ctx) (dst : Nat) : M Unit := do
  match scratchRange (← get) ctx.core ctx.tenant dst 1 with
  | .error _ => stopTrap (xtrap 0x09 0 kWrite dst 0)
  | .ok _ => pure ()

/-- The rows of a drain delivered, to a scratchpad or to memory as `toMemory` does. An uncorrectable error in the bias array stops it
before the first. `biasVa`: where that array lies. -/
def drainRun (core : Nat) (bias : Option Nat) (biasVa dst : Nat)
    (toMemory : List (Nat × List Byte) → M (Nat × Option (Nat × Nat))) (runs : List (Nat × List Byte)) : M (Nat × Option (Nat × Nat)) := do
  match biasBad (← get) bias with
  | some col => return (0, some (0x28, (biasVa + 4 * col) % 2 ^ 56))
  | none => if inWindow dst then drainScratch core runs else toMemory runs

/-- What a sequencer's drain needs of its destination as it issues. -/
def drainIssue (ctx : Ctx) (c : Cfg) (dst : Nat) (runs : List (Nat × List Byte)) : M (NMap Leaf) := do
  if inWindow dst then
    needScratch ctx dst
    return []
  else
    storesAcked
    drainTranslate ctx (ofmtCode c) runs

/-- `mdrain.mem` (R319). A fault of BIAS is taken before a refusal with status 0xF0 (DESIGN CHOICE, log 143). -/
def execMdrainMem (o : MArgs) (s : State) : Result :=
  execWhole (do
    let c ← needCfg
    needFull .acc o.sa
    let r := (← readS o.sb).toNat
    let dst := (← readS o.sc).toNat % 2 ^ 56
    needWritable .scalar o.d
    let n := o.imm.toNat % 128
    let ctx ← myCtx
    let bias ← needBias c
    if drainRefused c ctx.core r n dst then writeLong o.d 0xF0
    else
      let a ← myAcc o.sa.reg.toNat
      let (runs, f) := drainRows (← get) c bias a.elems r n dst ((c.cpitch : Int))
      -- the registration of the words and their writing are one step here (R166, R228)
      let leaves ← drainIssue ctx c dst runs
      match ← drainRun ctx.core bias c.bias dst (drainMemory none (drainReady ctx leaves)) runs with
      | (_, none) =>
        modMe (·.mergeFlags f)
        if o.mod.getLsbD 1 then
          writeAcc o.sa.reg.toNat ((upFrom (64 * r) (64 * n)).foldl (fun l i => NMap.erase l i) a.elems)
        writeLong o.d (BitVec.ofNat 64 (256 * n * 2 ^ 16))
      | (i, some (k, _)) =>
        modMe (·.mergeFlags (drainRows (← get) c bias a.elems r i dst ((c.cpitch : Int))).2)
        let v := 256 * i + Config.readAhead (← freshFree) % (256 * (n - i) + 1)
        writeLong o.d (BitVec.ofNat 64 (v * 2 ^ 16 + k))) s

end Sys2Proof.Machine
end

