-- ==== Sys2Proof/Machine/Sync.lean ====
section
/-! DEFINITION. Fences, barriers and futures (15 R390 to R400). -/

namespace Sys2Proof.Machine

/-- `fence` (R391): older accesses of the sequencer are performed already. -/
def execFence (o : SArgs) (s : State) : Result :=
  execNext (do
    if releases o.ord then release o.scope
    if acquires o.ord then acquire o.scope) s

/-! Cells (R392, R399). -/

/-- The address of a cell named by a scalar. -/
def cellAddr (a : Src) : M Nat := do
  let va := (← readS a).toNat % 2 ^ 56
  if va % 16 ≠ 0 then stopTrap (misaligned kRmw va 0)
  return va

/-- The place of a cell: device memory only. -/
def cellPlace (c : Ctx) (va : Nat) : M Place := atomicPlace c .l1 kRmw va 16 0 (performs false false)

/-- A cell updated at its home as one indivisible step: its bytes before. -/
def cellStep (c : Ctx) (va : Nat) (f : Nat → Nat) : M Nat := do
  let p ← cellPlace c va
  performAtomic c p 16 (fun v => some (f v)) kRmw va 0

/-- A core's older copies of a cell that has been read at its home go (R201, R381). -/
def dropCellCopies (core loc : Nat) (s : State) : State := (wordsOf loc 16).foldl (fun s w => dropUnreg core w s) s

/-- A cell as it stands at its home. -/
def cellRead (c : Ctx) (va : Nat) : M (Place × Nat) := do
  let p ← cellPlace c va
  gatherWords c p 16 kRmw va 0
  modify (dropCellCopies c.core p.loc)
  return (p, (← get).valueUnder p.mat p.loc 16)

/-- A barrier cell's fields. -/
def cellExpect (v : Nat) : Nat := bits v 0 32
def cellCount (v : Nat) : Nat := bits v 32 32

def mkCell (expect count phase : Nat) : Nat := expect % 2 ^ 32 + count % 2 ^ 32 * 2 ^ 32 + phase % 2 ^ 64 * 2 ^ 64

/-- `arrive_at` (R392). -/
def arriveAt (v : Nat) : Nat :=
  let n := cellCount v + 1
  if cellExpect v ≤ n then mkCell (cellExpect v) 0 (cellPhase v + 1) else mkCell (cellExpect v) n (cellPhase v)

/-- `depart_at` (R392). -/
def departAt (q : Option DWord) (v : Nat) : Nat :=
  let x := cellExpect v - 1
  let n := if q.any (fun p => p.toNat == cellPhase v) then cellCount v - 1 else cellCount v
  if 0 < n && x ≤ n then mkCell x 0 (cellPhase v + 1) else mkCell x n (cellPhase v)

/-! The barrier table (R393, R394). -/

def Seq.barOf (q : Seq) (va : Nat) : Option Nat := (q.bars.find? (fun x => x.2.va.toNat == va)).map (·.1)

/-- The entry of a cell: its own, or a free one of the eight, the cell's address checked first (R392). A ninth is unsupported
(R393). -/
def barrierEntry (va : Nat) : M Nat := do
  let q ← mySeq
  match q.barOf va with
  | some i => return i
  | none =>
    let level ← atomicLevel (← myCtx) .l1 kRmw va 16 0 (performs false false)
    match NMap.firstFree q.bars 8 0 with
    | some i => return i
    | none => stopTrap (unsupported level kRmw va 0)

def setBarrier (i va : Nat) (phase : Option DWord) : M Unit :=
  modMe fun q => { q with bars := NMap.set q.bars i ⟨BitVec.ofNat 56 va, phase⟩ }

/-- A local arrival: the phase number. -/
def arriveHere (va : Nat) : M DWord := do
  let i ← barrierEntry va
  let old ← cellStep (← myCtx) va arriveAt
  let p := BitVec.ofNat 64 (cellPhase old)
  setBarrier i va (some p)
  return p

/-- `phase` (R395): every `sacc` element is accepted as its instruction completes. -/
def execPhase (o : SArgs) (s : State) : Result :=
  execNext (do
    sampleAbort
    let va ← cellAddr o.sa
    needWritable .scalar o.d
    let _ ← barrierEntry va
    release o.scope
    writeLong o.d (← arriveHere va)) s

/-- `arrive` (R396). -/
def execArrive (o : SArgs) (s : State) : Result :=
  execNext (do
    let va ← cellAddr o.sa
    needWritable .scalar o.d
    writeLong o.d (← arriveHere va)) s

/-- `arrive.remote` (R396): after the older remote copies; older releases have completed. The cell's physical address is aligned as any
cell's (R401); its bits [63:52] are dropped (log 123). The status register stays empty until the answer comes. -/
def execArriveRemote (o : SArgs) (s : State) : Result :=
  execNext (do
    let pa := (← readS o.sa).toNat
    let dev := (← readS o.sb).toNat % 65536
    if pa % 16 ≠ 0 then stopTrap (misaligned kRmw (pa % 2 ^ 56) 0)
    needWritable .scalar o.d
    let n ← me
    let s ← get
    if s.engines.any (fun x => x.2.ctx.seq == n && x.2.kind == .rcopy) then stopWait .engines
    if dev = s.relov.devno || 0xFF00 ≤ dev then writeLong o.d (BitVec.ofNat 64 (2 ^ 63 + 0xF0))
    else
      let (t, s) := newCommand { kind := .arrive (s.seq n).uid o.d, left := [(dev, 1)] } (noteRequest (← myCtx) 0 s)
      set (sendPacket dev (flowOf (dieOf n) .wr) .arrive t (pa % 2 ^ 52) [] s)
      if o.d ≠ 0 then modMe (·.setEmpty .scalar o.d)) s

/-- A departure (R394) as an access of the member. -/
def departCell (c : Ctx) (va : Nat) (phase : Option DWord) : M Unit := do
  let _ ← cellStep c va (departAt phase)

/-- The departure of a member that is ending (R394): one that faults is dropped, and one that must wait at its cell is left there, so
that the ending is not delayed. -/
def departLate (d : Departure) : M Unit :=
  tryCatch (departCell d.ctx d.va d.phase) fun st =>
    match st with
    | .wait _ => modify fun s => { s with departures := s.departures ++ [d] }
    | _ => pure ()

/-- Departures that waited are tried again. -/
def retryDepartures (s : State) : State :=
  ((forEach s.departures departLate).run.run { s with departures := [] }).2

/-- `arrive.leave` (R394, R396). -/
def execArriveLeave (o : SArgs) (s : State) : Result :=
  execNext (do
    let va ← cellAddr o.sa
    let q ← mySeq
    match q.bars.find? (fun x => x.2.va.toNat == va) with
    | some (i, b) =>
      departCell (← myCtx) va b.phase
      modMe fun q => { q with bars := NMap.erase q.bars i }
    | none => pure ()) s

/-- `arrive.join` (R396). -/
def execArriveJoin (o : SArgs) (s : State) : Result :=
  execNext (do
    let va ← cellAddr o.sa
    let i ← barrierEntry va
    if ((← mySeq).barOf va).isNone then setBarrier i va none) s

/-- Every departure of the sequencer, which is ending (R394). -/
def departAll : M Unit := do
  let c ← myCtx
  forEach (← mySeq).bars fun x => departLate ⟨c, x.2.va.toNat, x.2.phase⟩
  modMe fun q => { q with bars := [] }

/-! Waits at a cell (R397, R400). -/

/-- The entry of the wait table with which a sequencer waits at a cell. -/
def State.cellWait (s : State) (n : Nat) : Option CellWait := (s.core (coreOf n)).cells.find? (fun w => w.seq == n)

/-- The entry is given up. -/
def freeCell : M Unit := do
  let n ← me
  modMyCore fun c => { c with cells := c.cells.filter (fun w => w.seq != n) }

/-- The entry is taken, or kept. -/
def watchCell (va : Nat) (p : Place) (want : CellWant) : M Unit := do
  let n ← me
  freeCell
  modMyCore fun c => { c with cells := c.cells ++ [{ seq := n, va := va, level := p.level, loc := p.loc, mat := p.mat, want := want }] }

/-- The cell that ends a wait: as it stood when a write ended the wait, else as it stands, if that ends it. Otherwise it is watched from
now on. -/
def awaitCell (va : Nat) (want : CellWant) : M (Option Nat) := do
  match ((← get).cellWait (← me)).bind (fun w => w.got.map (fun v => (w.loc, v))) with
  | some (loc, v) =>
    modify (dropCellCopies (coreOf (← me)) loc)
    freeCell
    return some v
  | none =>
    let c ← myCtx
    let (p, v) ← cellRead c va
    let w : CellWait := { seq := c.seq, va := va, loc := p.loc, mat := p.mat, want := want }
    if w.ends v then
      if want = .full true then
        let _ ← performAtomic c p 16 (fun v => some (v - 2 ^ 64)) kRmw va 0
      freeCell
      return some v
    else
      watchCell va p want
      return none

/-- A `bwait` looked at: true when it has ended. -/
def tryBwait (va : Nat) (p : DWord) (sc : Scope) : M Bool := do
  match ← awaitCell va (.phase p) with
  | some _ =>
    acquire sc
    return true
  | none => return false

/-- An entry of the wait table, needed only while it waits. -/
def needWaitEntry : M Unit := do
  if !(← get).waitRoom (← me) then stopWait .room

/-- `bwait` (R397). -/
def execBwait (o : SArgs) (s : State) : Result :=
  execNext (do
    sampleAbort
    let va ← cellAddr o.sa
    let p ← readS o.sb
    asArming needWaitEntry
    if !(← asArming (tryBwait va p o.scope)) then stopWait (.bwait va p o.scope)) s

/-- The overwrites that a future cell counts. -/
def futureOvw (v : Nat) : Nat := bits v 96 32

/-- A future cell after a put (R399). -/
def putAt (value : DWord) (ovw : Bool) (v : Nat) : Nat :=
  if !futureFull v then v / 2 ^ 64 * 2 ^ 64 + 2 ^ 64 + value.toNat
  else if ovw then v / 2 ^ 64 % 2 ^ 32 * 2 ^ 64 + value.toNat + Min.min (futureOvw v + 1) (2 ^ 32 - 1) * 2 ^ 96
  else v

/-- `fput` (R399). -/
def execFput (o : SArgs) (s : State) : Result :=
  execNext (do
    let va ← cellAddr o.sa
    let x ← readS o.sb
    if releases o.ord then release o.scope
    let old ← cellStep (← myCtx) va (putAt x (o.fm.getLsbD 0))
    writeP o.d (!futureFull old)) s

/-- An `fget` looked at: true when it has ended. -/
def tryFget (va : Nat) (d : Reg) (take : Bool) (acq : Option Scope) : M Bool := do
  match ← awaitCell va (.full take) with
  | some v =>
    match acq with
    | some sc => acquire sc
    | none => pure ()
    writeLong d (BitVec.ofNat 64 (futureValue v))
    return true
  | none => return false

/-- `fget` (R400). -/
def execFget (o : SArgs) (s : State) : Result :=
  execNext (do
    let va ← cellAddr o.sa
    needWritable .scalar o.d
    asArming needWaitEntry
    let acq := if acquires o.ord then some o.scope else none
    let take := o.fm.getLsbD 0
    if !(← asArming (tryFget va o.d take acq)) then stopWait (.fget va o.d take acq)) s

/-- A waiting instruction of a sequencer looked at again: when it has ended, the sequencer goes on. -/
def wakeWith (n : Nat) (m : M Bool) : M Unit :=
  onBehalf n do
    if ← m then passWait

/-- A sampling wait that finds the abort line raised ends its sequencer (R344). -/
def wakeSampling (n : Nat) (m : M Bool) : M Unit :=
  onBehalf n do
    if ← sampleLine false then modMe fun q => { q with phase := .ending 1, wait := none }
    else if ← m then passWait

/-- BWAIT_WAKE (R397). -/
def execBwaitWake (s : State) : Result :=
  match s.input with
  | .bwaitWake n =>
    execAgent (do
      match ((← get).seq n).wait with
      | some (.bwait va p sc) => wakeSampling n (tryBwait va p sc)
      | _ => pure ()) s
  | _ => .next s.tick

/-- FGET_WAKE (R400). -/
def execFgetWake (s : State) : Result :=
  match s.input with
  | .fgetWake n =>
    execAgent (do
      match ((← get).seq n).wait with
      | some (.fget va d take acq) => wakeWith n (tryFget va d take acq)
      | _ => pure ()) s
  | _ => .next s.tick

end Sys2Proof.Machine
end

