-- ==== Sys2Proof/Machine/Ending.lean ====
section
/-! DEFINITION. How a sequencer ends (13 R342, R348, 15 R394, 14 R359, R374), `halt` and `wfe`, and what a launch's last
sequencer on a cluster leaves (R165, R343). -/

namespace Sys2Proof.Machine

/-- A sequencer that runs: neither free nor set aside. -/
def Seq.live (q : Seq) : Bool :=
  match q.phase with
  | .running | .ending _ => true
  | _ => false

/-- The sequencer of an identity. -/
def State.seqOf (s : State) (uid : Nat) : Option Nat := (s.seqs.find? (fun x => x.2.live && x.2.uid == uid)).map (·.1)

/-- A child's end reaches its parent, where that stands (R342, R349). -/
def Seq.childEnded (q : Seq) (uid code : Nat) : Seq :=
  if q.children.any (fun c => c.uid == uid) then
    { q with
      children := q.children.map (fun c => if c.uid = uid then { c with code := some code } else c)
      wait := match q.wait with
        | some (.wfe d _) => some (.wfe d true)
        | w => w }
  else q

def noteChildEnd (parent : Option Nat) (uid code : Nat) (s : State) : State :=
  match parent with
  | none => s
  | some u =>
    let f (q : Seq) : Seq := if q.uid = u && q.live then q.childEnded uid code else q
    { s with seqs := NMap.mapVals s.seqs (fun _ q => f q), saved := NMap.mapVals s.saved (fun _ x => { x with q := f x.q }) }

/-- Whether a launch has a sequencer on a cluster. -/
def State.onCluster (s : State) (launch k : Nat) : Bool :=
  (upFrom (32 * k) 32).any (fun n => (s.seq n).live && (s.seq n).launch == some launch)

/-- Each core of a cluster writes its registered words home and drops the rest (R165). -/
def emptyCluster (k : Nat) (s : State) : State :=
  (upFrom (8 * k) 8).foldl (fun s c => (flushCore c s).modCore c fun x => (x.l1.map (·.1)).foldl (fun x l => x.dropHeld l) x) s

/-- A launch's last sequencer has left a cluster: its abort line falls (R343), and a fused L1 splits (R165). -/
def leaveCluster (k : Nat) (launch : Option Nat) (s : State) : State :=
  match launch with
  | none => s
  | some l =>
    if s.onCluster l k then s
    else
      let s := s.modCluster k fun c => { c with abort := NMap.erase c.abort l }
      if (s.cluster k).fused = some l then (emptyCluster k s).modCluster k fun c => { c with fused := none } else s

/-- Whether a work item, worker or task still has a sequencer. -/
def State.workLives (s : State) (w : Nat) : Bool :=
  s.seqs.any (fun x => x.2.live && x.2.work == some w) || s.saved.any (fun x => x.2.q.work == some w)

def State.modLaunch (s : State) (l : Nat) (f : Launch → Launch) : State :=
  match NMap.get? s.launches l with
  | some x => { s with launches := NMap.set s.launches l (f x) }
  | none => s

def Launch.modStage (l : Launch) (i : Nat) (f : Stage → Stage) : Launch :=
  { l with stages := l.stages.zipIdx.map (fun x => if x.2 = i then f x.1 else x.1) }

/-- Work ends with its last sequencer (R351, R358, R365). -/
def endWork (w : Option Nat) (s : State) : State :=
  match w with
  | none => s
  | some w =>
    if s.workLives w then s
    else
      let s' := { s with works := NMap.erase s.works w }
      match NMap.get? s.works w with
      | some (.worker l i c) => s'.modLaunch l (·.modStage i fun t => { t with cores := t.cores.filter (· != c) })
      | some (.item l _) | some (.task l _ _) => s'.modLaunch l fun x => { x with ended := Min.min (x.ended + 1) (2 ^ 32 - 1) }
      | none => s'

/-- What an end code adds to its launch's outcome (R365). -/
def Launch.noteEnd (l : Launch) (code : Nat) : Launch :=
  match code with
  | 1 => { l with aborted := true }
  | 2 => { l with terminated := true }
  | 3 => { l with cancelled := true }
  | _ => l

/-- A sequencer becomes free: its links, wait-table entries, claim and event queue go (R348). -/
def freeSeq (n : Nat) (s : State) : State :=
  settleBanks (coreOf n) ((s.setSeq n {}).modCore (coreOf n) fun c => (c.dropSeq n).stopAccs (s.seq n).uid)

/-- The last steps of an end. -/
def finishEnd (n code : Nat) (s : State) : State :=
  let q := s.seq n
  let s := noteChildEnd q.parent q.uid code s
  let s := match q.launch with
    | some l => s.modLaunch l (·.noteEnd code)
    | none => s
  leaveCluster (clusterOf n) q.launch (endWork q.work (freeSeq n s))

/-- Every older command of the sequencer has completed (R348, R415). -/
def needCommandsDone : M Unit := do
  let n ← me
  let s ← get
  if s.enginesOf n != [] || s.arrivesRemote (s.seq n).uid then stopWait .engines

/-- The engine commands of a cancelled sequencer stop and are gone with it (R374). -/
def dropEngines (n : Nat) (s : State) : State :=
  ((s.enginesOf n).map (·.1)).foldl (fun s k => { (releaseEngine k s) with engines := NMap.erase s.engines k }) s

/-- The sequencer whose turn it is ends with a code (R342, R348). A cancelled one waits for no command and releases nothing
(R374). -/
def endSeq (code : Nat) : M Unit := do
  let n ← me
  if code = 3 then modify (dropEngines n)
  else
    needCommandsDone
    release .dev
  departAll
  modify (finishEnd n code)

/-- `halt` (R348). -/
def execHalt (s : State) : Result :=
  execSeq (do
    endSeq 0
    return .stopped) s

/-- A sequencer that is ending goes on with its end. -/
def goOnEnding (code : Nat) (s : State) : Result :=
  execSeq (do
    endSeq code
    return .stopped) s

/-- A sequencer told to end: an element that the host is performing completes first (R208). -/
def Seq.endAt (q : Seq) (code : Nat) : Seq := { q with phase := .ending code, wait := q.wait.filter Wait.isHost }

/-- A sequencer is cancelled (R374): what its end still waits for, its own turns finish. -/
def cancelSeq (n : Nat) : M Unit := do
  modify fun s => s.modSeq n (·.endAt 3)
  if ((← get).seq n).wait.isNone then
    onBehalf n (tryCatch (endSeq 3) fun st =>
      match st with
      | .wait w => modMe fun q => { q with wait := some w }
      | st => throw st)

/-! wfe (R349). -/

/-- Whether a `wfe` may end. -/
def wfeDone (deadline : Nat) (child : Bool) : M Bool := do
  let s ← get
  let q ← mySeq
  let line := match q.launch with
    | some l => (NMap.get? (s.cluster (clusterOf s.cur)).abort l).isSome
    | none => false
  return q.evq.recs != [] || child || line || decide (deadline ≤ s.cycle)

/-- `wfe`: 65,536 cycles from its issue at most. -/
def execWfe (s : State) : Result :=
  execNext (do
    let (deadline, child) := match (← mySeq).wait with
      | some (.wfe d c) => (d, c)
      | _ => (s.cycle + 65536, false)
    if !(← wfeDone deadline child) then stopWait (.wfe deadline child)) s

/-- WFE_WAKE (R349). -/
def execWfeWake (s : State) : Result :=
  match s.input with
  | .wfeWake n =>
    execAgent (do
      match ((← get).seq n).wait with
      | some (.wfe d c) => wakeWith n (wfeDone d c)
      | _ => pure ()) s
  | _ => .next s.tick

end Sys2Proof.Machine
end

