-- ==== Sys2Proof/Machine/Hive.lean ====
section
/-! DEFINITION. Launches and the Hives (14 R351 to R368): records and headers, what runs where, starting work, stages, completion.
Pre-empted sequencers resume among the work that is ready (17 R412). -/

namespace Sys2Proof.Machine

/-! The space of work items (R351 to R353). -/

/-- Widths of the WID fields, from WIDFMT (R58). -/
def widWidths (f : Nat) : List Nat := (List.range (bits f 42 3)).map (fun i => bits f (7 * i) 7)

/-- The values of field i: below EXTENTi, and such as the field holds. -/
def Launch.sizes (l : Launch) : List Nat :=
  ((widWidths l.widfmt.toNat).zip l.extents).map (fun x => Min.min x.2 (2 ^ x.1))

def product (l : List Nat) : Nat := l.foldl (· * ·) 1

def Launch.total (l : Launch) : Nat := product l.sizes

/-- The WID of work item i, counted in ascending WID. -/
def packWid : List Nat → List Nat → Nat → Nat
  | w :: ws, n :: ns, i => i % n + 2 ^ w * packWid ws ns (i / n)
  | _, _, _ => 0

def Launch.widOf (l : Launch) (i : Nat) : DWord := BitVec.ofNat 64 (packWid (widWidths l.widfmt.toNat) l.sizes i)

/-- The agent of a scope that a sequencer lies in (R380), by R29 code. -/
def agentOf (place n : Nat) : Nat :=
  match place with
  | 0 => n | 1 => coreOf n | 2 => clusterOf n | 3 => dieOf n
  | _ => 0

/-- Work items in one group of level l: those that agree in the fields above l. -/
def Launch.groupSize (l : Launch) (level : Nat) : Nat := product (l.sizes.take (level + 1))

/-- Levels of a launch. -/
def Launch.levels (l : Launch) : List Nat := List.range l.sizes.length

/-- The levels whose group of item i is bound to an agent that sequencer n is not in. -/
def Launch.blockedAt (l : Launch) (i n : Nat) : List Nat :=
  l.levels.filter (fun v => l.bound.any (fun b =>
    b.1 == v && b.2.1 == i / l.groupSize v && b.2.2 != agentOf (l.places.getD v 4) n))

/-- The levels that keep item i from starting on n: as `blockedAt`, and under seq those whose group has an item that has started and not
ended. `busy`: the items that have not ended. -/
def Launch.heldAt (l : Launch) (busy : List Nat) (i n : Nat) : List Nat :=
  l.levels.filter (fun v => v ∈ l.blockedAt i n ||
    (l.places.getD v 4 == 0 && busy.any (fun j => j / l.groupSize v == i / l.groupSize v)))

/-- The first item of [a, b) that is held at no level: a held group is passed over whole. `held`: the levels that hold an item, rising. -/
def firstAllowed (l : Launch) (held : Nat → List Nat) (b : Nat) : Nat → Nat → Option Nat
  | 0, _ => none
  | fuel + 1, a =>
    if b ≤ a then none
    else match (held a).getLast? with
      | none => some a
      | some v =>
        let g := l.groupSize v
        firstAllowed l held b fuel ((a / g + 1) * g)

/-- The first such item of rising intervals. -/
def firstOf (l : Launch) (held : Nat → List Nat) : List (Nat × Nat) → Option Nat
  | [] => none
  | (a, b) :: rest => (firstAllowed l held b (2 * l.bound.length + 1) a).or (firstOf l held rest)

/-- Items of a launch that have started and not ended. -/
def State.busyItems (s : State) (k : Nat) : List Nat :=
  s.works.filterMap (fun x => match x.2 with
    | .item j i => if j = k then some i else none
    | _ => none)

/-- An item leaves its interval. -/
def takeItem (i : Nat) : List (Nat × Nat) → List (Nat × Nat)
  | [] => []
  | (a, b) :: rest =>
    if a ≤ i && i < b then (if a < i then [(a, i)] else []) ++ (if i + 1 < b then [(i + 1, b)] else []) ++ rest
    else (a, b) :: takeItem i rest

/-- The groups of an item are bound to the agents of its sequencer (R352). -/
def Launch.bind (l : Launch) (i n : Nat) : Launch :=
  { l with bound := l.levels.foldl (fun bs v =>
      let g := i / l.groupSize v
      if bs.any (fun b => b.1 == v && b.2.1 == g) then bs else bs ++ [(v, g, agentOf (l.places.getD v 4) n)]) l.bound }

/-! Handles (R356, R357). -/

/-- q8 to q15 of a launch on a die. -/
def commonHandles (launch die : Nat) (l : Launch) : NMap QHandle :=
  (List.range l.queues.length).map (fun i => (8 + i, QHandle.memory launch i)) ++ [(14, .tasks launch die), (15, .tiles launch die)]

/-- The input queues of the stages that a stage feeds. -/
def fedHandles (launch stage : Nat) (l : Launch) : NMap QHandle :=
  ((l.stages.zipIdx.filter (fun x => x.1.feeder == some stage)).map (·.2)).zipIdx.map (fun x => (1 + x.2, QHandle.stage launch x.1))

def handlesOf (launch die : Nat) (l : Launch) (stage : Option Nat) : NMap QHandle :=
  match stage with
  | none => commonHandles launch die l
  | some i =>
    let own : NMap QHandle := match l.stages[i]? with
      | some t => if t.feeder.isSome then [(0, .stage launch i)] else []
      | none => []
    own ++ (fedHandles launch i l).take 7 ++ commonHandles launch die l

/-! Starting a sequencer (R354). -/

/-- The fresh state of a sequencer of a launch. -/
def freshSeq (launch die uid work : Nat) (l : Launch) (stage : Option Nat) (entry : Pc) (wid : DWord) (args : List DWord) : Seq :=
  let q : Seq :=
    { phase := .running, uid := uid, pc := entry, s := (args.take 6).zipIdx.map (fun x => (x.2 + 1, x.1)),
      tstat := mkTstat l.trappol false false false false false false, ctxtag := l.ctxtag, tvec := l.tvec, tsave := l.tsave,
      xlroot := l.ctx.xlroot, asid := l.ctx.asid, wid := wid, widfmt := l.widfmt, queues := handlesOf launch die l stage,
      launch := some launch, work := some work, stage := stage, group := l.group, tenant := l.ctx.tenant }
  q.reseed

/-- Whether a sequencer of a launch may run on a sequencer (R165, R221, R419, R420): it is free, its agents are in service and open, no
other tenant holds the core's scratchpad in use, and fused L1s are not shared. -/
def State.canHold (s : State) (launch : Nat) (l : Launch) (n : Nat) : Bool :=
  let c := coreOf n
  let k := clusterOf n
  let d := dieOf n
  let cl := s.cluster k
  let others (p : Nat → Bool) (bad : Seq → Bool) : Bool :=
    s.seqs.any (fun x => p x.1 && x.2.live && x.2.launch.isSome && bad x.2) || s.saved.any (fun x => p x.2.seq && bad x.2.q)
  s.powered && (s.seq n).phase == .free && (s.core c).inService && (s.die d).inService && !cl.closed && !(s.die d).closed &&
  (cl.fused == none || cl.fused == some launch) &&
  !(l.fused && others (fun m => clusterOf m == k) (fun q => q.launch != some launch)) &&
  !((s.core c).spOwner != l.ctx.tenant && others (fun m => coreOf m == c) (fun q => q.tenant != l.ctx.tenant)) &&
  !s.marks.any (fun m => m.1 == d && m.2 == l.group)

/-- Whether work of a launch may start on a sequencer: no abort line of the launch is raised there (R343). -/
def State.canPlace (s : State) (launch : Nat) (l : Launch) (n : Nat) : Bool :=
  s.canHold launch l n && (NMap.get? (s.cluster (clusterOf n)).abort launch).isNone

/-- A core's scratchpad goes to a tenant (R221, R227): cleared, with its permits. -/
def assignScratch (c tenant : Nat) (s : State) : State :=
  if (s.core c).spOwner = tenant then s
  else
    { s with mem := s.mem.clear (scratchLoc c 0) (2 ^ 20) }.modCore c fun k => { k with spOwner := tenant, permits := [], comb := [] }

/-- Fusing begins on a cluster (R165): its cores wake (log 121), and their L1s are emptied. -/
def beginFuse (k launch : Nat) (l : Launch) (s : State) : State :=
  if l.fused && (s.cluster k).fused.isNone then
    (emptyCluster k ((upFrom (8 * k) 8).foldl (fun s c => wakeCore c s) s)).modCluster k fun c => { c with fused := some launch }
  else s

/-- A sequencer starts or resumes for a launch. What happens before it is seen from there on (R381, R384, R385): the core's older
copies go. -/
def startSeq (n launch : Nat) (l : Launch) (q : Seq) (s : State) : State :=
  let s := wakeCore (coreOf n) s
  let s := assignScratch (coreOf n) l.ctx.tenant s
  ((acquireL1 (coreOf n) .dev (beginFuse (clusterOf n) launch l s)).setSeq n q).noteRan n

/-- New work on a sequencer. -/
def startWork (n launch : Nat) (w : Work) (stage : Option Nat) (entry : Pc) (wid : DWord) (args : List DWord) (s : State) : State :=
  match NMap.get? s.launches launch with
  | some l =>
    let q := freshSeq launch (dieOf n) s.nextUid s.nextWork l stage entry wid args
    startSeq n launch l q { s with nextUid := s.nextUid + 1, nextWork := s.nextWork + 1, works := NMap.set s.works s.nextWork w }
  | none => s

/-- A work item starts. `src`: its source stage, 0 where there are none. -/
def startItem (launch src i n : Nat) (s : State) : State :=
  match NMap.get? s.launches launch with
  | some l =>
    let s := s.modLaunch launch fun l =>
      { (l.bind i n) with started := true, unstarted := NMap.set l.unstarted src (takeItem i (NMap.getD l.unstarted src [])) }
    match l.stages[src]? with
    | some t => startWork n launch (.item launch i) (some src) t.entry (l.widOf i) [l.args, 0] s
    | none => startWork n launch (.item launch i) none l.entry (l.widOf i) [l.args, 0] s
  | none => s

/-- A worker of a consumer stage starts on a core. -/
def startWorker (launch stage n : Nat) (s : State) : State :=
  match NMap.get? s.launches launch with
  | some l =>
    match l.stages[stage]? with
    | some t =>
      let s := s.modLaunch launch (·.modStage stage fun t => { t with cores := t.cores ++ [coreOf n], nextRank := t.nextRank + 1 })
      startWork n launch (.worker launch stage (coreOf n)) (some stage) t.entry (BitVec.ofNat 64 t.nextRank)
        [l.args, BitVec.ofNat 64 stage] s
    | none => s
  | none => s

/-- A task starts. -/
def startTask (k n : Nat) (s : State) : State :=
  match NMap.get? s.tasks k with
  | some t =>
    startWork n t.launch (.task t.launch t.place t.core) none t.entry t.wid t.args { s with tasks := NMap.erase s.tasks k }
  | none => s

/-! Stages (R358, R359). -/

/-- Whether every sequencer of a stage has ended: none runs or is saved, and a source stage has no item left. -/
def State.stageEnded (s : State) (launch : Nat) (l : Launch) (i : Nat) : Bool :=
  !s.seqs.any (fun x => x.2.live && x.2.launch == some launch && x.2.stage == some i) &&
  !s.saved.any (fun x => x.2.q.launch == some launch && x.2.q.stage == some i) && NMap.getD l.unstarted i [] == []

/-- A consumer stage is drained (R359). -/
def State.stageDrained (s : State) (launch stage : Nat) : Bool :=
  match NMap.get? s.launches launch with
  | some l =>
    match l.stages[stage]? with
    | some t => t.recs == [] && t.feeder.any (fun j => s.stageEnded launch l j)
    | none => true
  | none => true

/-- Cores on which a launch could start a worker: none of its stages has them. -/
def State.workerCores (s : State) (launch : Nat) (l : Launch) : List Nat :=
  let used := (l.stages.map (·.cores)).flatten
  (List.range coreCount).filter (fun c => !(c ∈ used) && (l.migratable || c / 48 == l.die) &&
    (upFrom (4 * c) 4).any (fun n => s.canHold launch l n))

/-! What runs next (R360). -/

inductive ReadyKind where
  | item (launch src i : Nat)
  | task (k : Nat)
  | stages (launch : Nat)
  | resume (k : Nat)
deriving DecidableEq, Repr

/-- Ready work that may run on a sequencer, with what R360 orders it by. `tier`: where it is held (R361): 0 in the sequencer's cluster,
1 in its die, 2 in another die. -/
structure Ready where
  prio : Nat
  tier : Nat
  energy : Nat
  launch : Nat
  wid : Nat
  spawn : Nat
  kind : ReadyKind
deriving DecidableEq, Repr

/-- 65,536 cycles have passed since work was first passed over (R360). -/
def agedAt (passedAt : Option Nat) (cycle : Nat) : Bool := passedAt.any (fun t => decide (t + 65536 ≤ cycle))

/-- The passings of a launch's items that are 65,536 cycles old: the sequencer of each, and the groups bound then. -/
def Launch.agedPassings (l : Launch) (cycle : Nat) : List (Nat × Nat) :=
  (l.passed.filter (fun x => x.1 ∈ l.aged || decide (x.2.1 + 65536 ≤ cycle))).map (fun x => (x.1, x.2.2))

/-- The levels at which an item could not have run at a passing: it was not passed over there. -/
def Launch.notPassed (l : Launch) (x : Nat × Nat) (i : Nat) : List Nat := { l with bound := l.bound.take x.2 }.blockedAt i x.1

/-- Whether an item had been passed over for 65,536 cycles (R360), at a sequencer where it could have run (log 84). -/
def Launch.itemAged (l : Launch) (cycle i : Nat) : Bool := (l.agedPassings cycle).any (fun x => l.notPassed x i == [])

/-- The items of some intervals that may come next on n: the first, and the first of those that have aged (R360). -/
def Launch.nextItems (l : Launch) (busy : List Nat) (cycle n : Nat) (iv : List (Nat × Nat)) : List Nat :=
  let held (more : Nat → List Nat) (i : Nat) : List Nat := l.levels.filter (fun v => v ∈ l.heldAt busy i n || v ∈ more i)
  ((firstOf l (held fun _ => []) iv :: (l.agedPassings cycle).map (fun x => firstOf l (held (l.notPassed x)) iv)).filterMap id).eraseDups

/-- The tier of work held at a die. -/
def dieTier (die n : Nat) : Nat := if die = dieOf n then 1 else 2

/-- The energy class as it counts: aged work comes before every class. -/
def Launch.energyRank (l : Launch) (aged : Bool) : Nat := if aged then 0 else l.energy + 1

def Launch.ready (l : Launch) (k tier wid spawn prio : Nat) (aged : Bool) (kind : ReadyKind) : Ready :=
  ⟨prio, tier, l.energyRank aged, k, wid, spawn, kind⟩

/-- Unstarted items of a launch that may run on n. -/
def State.readyItems (s : State) (k : Nat) (l : Launch) (n : Nat) : List Ready :=
  if (l.stages == [] || l.started) && !l.cancelled && (l.migratable || l.die == dieOf n) && s.canPlace k l n then
    (l.unstarted.map (fun x => (l.nextItems (s.busyItems k) s.cycle n x.2).map (fun i =>
      l.ready k (dieTier l.die n) (l.widOf i).toNat 0 l.prio (l.itemAged s.cycle i) (.item k x.1 i)))).flatten
  else []

/-- Queued tasks of a launch that may run on n. -/
def State.readyTasks (s : State) (k : Nat) (l : Launch) (n : Nat) : List Ready :=
  if s.canHold k l n then
    (s.tasks.filter (fun t => t.2.launch == k && (l.migratable || t.2.die == dieOf n) &&
      agentOf t.2.place n == agentOf t.2.place (4 * t.2.core))).map (fun t =>
        l.ready k (if t.2.core / 8 = clusterOf n then 0 else dieTier t.2.die n) t.2.wid.toNat (t.1 + 1) t.2.prio
          (agedAt t.2.passedAt s.cycle) (.task t.1))
  else []

/-- Claim units that a core could still give (R250, R251). -/
def State.freeUnits (s : State) (core : Nat) : Nat :=
  (8 - s.claims core) + (Min.min 12 (bankCap (s.die (core / 48)).ln) - (s.core core).banks)

/-- Whether work may go on at n (R352, R361, R372): an item within the agents of its groups, a task within that of its spawner, a worker
on its core or on one that its launch's stages do not use. -/
def State.workFits (s : State) (l : Launch) (w : Option Nat) (n : Nat) : Bool :=
  match w.bind (NMap.get? s.works) with
  | some (.item _ i) => l.blockedAt i n == []
  | some (.task _ place core) => agentOf place n == agentOf place (4 * core)
  | some (.worker _ _ c) => c == coreOf n || l.stages.all (fun t => !(coreOf n ∈ t.cores))
  | none => true

/-- Whether a pre-empted sequencer may resume on n (R412). -/
def State.canResume (s : State) (k : Nat) (x : Saved) (n : Nat) : Bool :=
  match x.q.launch with
  | some j =>
    match NMap.get? s.launches j with
    | some l => s.canHold j l n && (l.migratable || coreOf n == coreOf x.seq) && s.workFits l x.q.work n &&
        decide (x.q.claim ≤ s.freeUnits (coreOf n)) && (NMap.get? s.saved k).isSome
    | none => false
  | none => false

def State.readySaved (s : State) (k : Nat) (l : Launch) (n : Nat) : List Ready :=
  (s.saved.filter (fun x => x.2.q.launch == some k && s.canResume x.1 x.2 n)).map (fun x =>
    l.ready k (dieTier (dieOf x.2.seq) n) x.2.q.wid.toNat 0 l.prio (agedAt x.2.passedAt s.cycle) (.resume x.1))

/-- What may start on n one by one: items and tasks of n's die, those of other dies where the launch is migratable (R361), and pre-empted
sequencers. -/
def State.readySingles (s : State) (n : Nat) : List Ready :=
  (s.launches.map (fun x => s.readyItems x.1 x.2 n ++ s.readyTasks x.1 x.2 n ++ s.readySaved x.1 x.2 n)).flatten

/-- A launch with stages that has not started. -/
def Launch.stagesWait (l : Launch) : Bool := l.stages != [] && !l.started && !l.cancelled

/-- Whether ready work above a priority could use n (R360), a launch with stages counting where every stage can have its fewest cores
(R358). `fuel`: priorities there may be above it. -/
def State.higherReady (s : State) : Nat → Nat → Nat → Bool
  | 0, _, _ => false
  | fuel + 1, prio, n =>
    (s.readySingles n).any (fun a => decide (prio < a.prio)) ||
    s.launches.any (fun x => x.2.stagesWait && decide (prio < x.2.prio) && (x.2.migratable || x.2.die == dieOf n) && s.canHold x.1 x.2 n &&
      decide ((x.2.stages.map (·.minc)).foldl (· + ·) 0 ≤ ((s.workerCores x.1 x.2).filter (fun c =>
        (upFrom (4 * c) 4).any (fun m => s.canHold x.1 x.2 m && !s.higherReady fuel x.2.prio m))).length))

/-- Sequencers of a core that a worker may start on: none that ready work of a higher priority could use (R360). -/
def State.workerSeqs (s : State) (launch : Nat) (l : Launch) (c : Nat) : List Nat :=
  (upFrom (4 * c) 4).filter (fun n => s.canHold launch l n && !s.higherReady 8 l.prio n)

/-- Whether every stage of a launch can be given its fewest cores (R358). -/
def State.canStartStages (s : State) (launch : Nat) (l : Launch) : Bool :=
  decide ((l.stages.map (·.minc)).foldl (· + ·) 0 ≤ ((s.workerCores launch l).filter (fun c => s.workerSeqs launch l c != [])).length)

def State.readyStages (s : State) (k : Nat) (l : Launch) (n : Nat) : List Ready :=
  if l.stagesWait && (l.migratable || l.die == dieOf n) && s.canHold k l n && s.canStartStages k l then
    [l.ready k (dieTier l.die n) 0 0 l.prio (l.passed.any (fun x => decide (x.2.1 + 65536 ≤ s.cycle))) (.stages k)] else []

/-- Everything ready that may run on n. -/
def State.readyFor (s : State) (n : Nat) : List Ready :=
  s.readySingles n ++ (s.launches.map (fun x => s.readyStages x.1 x.2 n)).flatten

/-- What the Hive of n's own die holds of it. -/
def State.readyHere (s : State) (n : Nat) : List Ready := (s.readyFor n).filter (fun a => a.tier != 2)

/-- Whether a comes before b (R360): first by priority, then what the die holds before what it steals, and among what is stolen by the
order of the search (R361). Energy counts only below 64 lanes. -/
def Ready.before (lanes64 steal : Bool) (a b : Ready) : Bool :=
  let tier (x : Ready) : Nat := if steal then x.tier else x.tier / 2
  if a.prio != b.prio then decide (b.prio < a.prio)
  else if tier a != tier b then decide (tier a < tier b)
  else if !lanes64 && a.energy != b.energy then decide (a.energy < b.energy)
  else if a.launch != b.launch then decide (a.launch < b.launch)
  else if a.wid != b.wid then decide (a.wid < b.wid)
  else decide (a.spawn < b.spawn)

def bestOf (lanes64 steal : Bool) (l : List Ready) : Option Ready :=
  l.foldl (fun m a => match m with
    | none => some a
    | some b => if a.before lanes64 steal b then some a else some b) none

def State.lanes64 (s : State) (n : Nat) : Bool := (s.die (dieOf n)).ln == 0

def State.bestFor (s : State) (n : Nat) : Option Ready := bestOf (s.lanes64 n) false (s.readyFor n)

/-- One more worker of a stage, on a core and a sequencer that the device chooses (log 33). -/
def addWorker (launch stage : Nat) : M Unit := do
  let s ← get
  match NMap.get? s.launches launch with
  | some l =>
    match ← pickFree ((s.workerCores launch l).filter (fun c => s.workerSeqs launch l c != [])) with
    | some c =>
      match ← pickFree (s.workerSeqs launch l c) with
      | some n => modify (startWorker launch stage n)
      | none => pure ()
    | none => pure ()
  | none => pure ()

/-- A launch with stages starts: every consumer stage gets its fewest cores. -/
def startStages (launch : Nat) : M Unit := do
  match NMap.get? (← get).launches launch with
  | some l =>
    modify fun s => s.modLaunch launch fun l => { l with started := true, reviewAt := s.cycle }
    forEach l.stages.zipIdx fun x =>
      if x.1.feeder.isSome then forEach (List.range x.1.minc) fun _ => addWorker launch x.2 else pure ()
  | none => pure ()

/-- A review of one stage. -/
def reviewStage (launch i : Nat) (t : Stage) : M Unit := do
  if t.feeder.isSome then
    if t.cores.length < t.maxc && t.busy then addWorker launch i
    else if t.minc < t.cores.length && !t.used then
      modify fun s => s.modLaunch launch (·.modStage i fun t => { t with withdraw := true })
  modify fun s => s.modLaunch launch (·.modStage i fun t =>
    { t with busy := decide (t.depth ≤ 2 * t.recs.length), used := t.recs != [] })

/-- STAGE_REVIEW (R358), every 4,096 cycles. -/
def execStageReview (s : State) : Result :=
  match s.input with
  | .stageReview k =>
    execAgent (do
      match NMap.get? (← get).launches k with
      | some l =>
        if l.started && l.stages != [] && l.reviewAt + 4096 ≤ s.cycle then
          modify fun s => s.modLaunch k fun l => { l with reviewAt := s.cycle }
          forEach l.stages.zipIdx fun x => reviewStage k x.2 x.1
      | none => pure ()) s
  | _ => .next s.tick

/-- Ready work passed over at n begins to age: a launch's items that could have run there, a task, or a pre-empted sequencer. -/
def noteAge (n : Nat) (a : Ready) (s : State) : State :=
  match a.kind with
  | .item _ _ _ | .stages _ => s.modLaunch a.launch fun l =>
      if (NMap.get? l.passed n).isSome then l else { l with passed := NMap.set l.passed n (s.cycle, l.bound.length) }
  | .task k =>
    match NMap.get? s.tasks k with
    | some t => { s with tasks := NMap.set s.tasks k { t with passedAt := some (t.passedAt.getD s.cycle) } }
    | none => s
  | .resume k =>
    match NMap.get? s.saved k with
    | some x => { s with saved := NMap.set s.saved k { x with passedAt := some (x.passedAt.getD s.cycle) } }
    | none => s

/-- Work passed over for its class alone, in favour of b, begins to age (R360). `steal`: in the order of a steal. -/
def notePassed (steal : Bool) (n : Nat) (b : Ready) (s : State) : State :=
  if s.lanes64 n then s
  else ((s.readyFor n).filter (fun a => a.prio == b.prio && decide (b.energy < a.energy) && a.before true steal b)).foldl
    (fun s a => noteAge n a s) s

/-- A worker that goes on at another core: that is its stage's core now. -/
def moveWorker (w : Option Nat) (n : Nat) (s : State) : State :=
  match w.bind (fun w => (NMap.get? s.works w).map (fun x => (w, x))) with
  | some (w, .worker l i c) =>
    { s with works := NMap.set s.works w (.worker l i (coreOf n)) }.modLaunch l (·.modStage i fun t =>
      { t with cores := t.cores.map (fun x => if x = c then coreOf n else x) })
  | _ => s

/-- A pre-empted sequencer resumes (R412, R418). -/
def resumeSaved (k n : Nat) (s : State) : State :=
  match NMap.get? s.saved k with
  | some x =>
    match x.q.launch.bind (fun j => (NMap.get? s.launches j).map (fun l => (j, l))) with
    | some (j, l) =>
      let s := startSeq n j l { x.q with phase := .running } (moveWorker x.q.work n { s with saved := NMap.erase s.saved k })
      let s := settleBanks (coreOf n) s
      let s := x.accs.foldl (fun s a => s.modCore (coreOf n) (·.setAcc a.1 a.2)) s
      if coreOf n = coreOf x.seq then s else flushTag (coreOf x.seq) (some x.q.ctxtag) s
    | none => s
  | none => s

/-- Ready work taken. -/
def takeReady (b : Ready) (n : Nat) : M Unit :=
  match b.kind with
  | .item k src i => modify (startItem k src i n)
  | .task k => modify (startTask k n)
  | .stages k => startStages k
  | .resume k => modify (resumeSaved k n)

/-- HIVE_DISPATCH (R360). -/
def execHiveDispatch (s : State) : Result :=
  match s.input with
  | .hiveDispatch n =>
    execAgent (do
      match (← get).bestFor n with
      | some b =>
        if n < seqCount then
          modify (notePassed false n b)
          takeReady b n
      | none => pure ()) s
  | _ => .next s.tick

/-- The passings of a launch that have aged. -/
def Launch.ageNow (l : Launch) (cycle : Nat) : List Nat :=
  (l.passed.filter (fun x => !(x.1 ∈ l.aged) && decide (x.2.1 + 65536 ≤ cycle))).map (·.1)

/-- ENERGY_AGE_EXPIRY (R360): items passed over for 65,536 cycles. -/
def execEnergyAgeExpiry (s : State) : Result :=
  match s.input with
  | .energyAgeExpiry k =>
    execAgent (modify fun s => s.modLaunch k fun l => { l with aged := l.aged ++ l.ageNow s.cycle }) s
  | _ => .next s.tick

/-- Whether nothing that is ready comes before some ready work at n. -/
def State.goesFirst (s : State) (steal : Bool) (n : Nat) (b : Ready) : Bool :=
  !(s.readyFor n).any (fun a => a.before (s.lanes64 n) steal b)

/-- HIVE_STEAL (R361): a sequencer takes unstarted work of a launch, unless other ready work comes first in the search. -/
def execHiveSteal (s : State) : Result :=
  match s.input with
  | .hiveSteal k n =>
    execAgent (do
      let s ← get
      match NMap.get? s.launches k with
      | some l =>
        match bestOf (s.lanes64 n) true (s.readyItems k l n ++ s.readyTasks k l n) with
        | some b =>
          if n < seqCount && s.goesFirst true n b then
            modify (notePassed true n b)
            takeReady b n
        | none => pure ()
      | none => pure ()) s
  | _ => .next s.tick

/-- CONTEXT_RESUME (R412): unless other ready work comes first (R360). -/
def execContextResume (s : State) : Result :=
  match s.input with
  | .contextResume k n =>
    execAgent (modify fun s =>
      match (s.readyFor n).find? (fun a => a.kind == .resume k) with
      | some b => if n < seqCount && s.goesFirst false n b then resumeSaved k n (notePassed false n b s) else s
      | none => s) s
  | _ => .next s.tick

/-! Submitting a launch (R355, R363, R364). -/

/-- A little-endian field of a record. -/
def fieldAt (v off n : Nat) : Nat := bits v (8 * off) (8 * n)

/-- A stage entry of a header (R57). Bits [63:56] of SENTRY, above a 56-bit PC (R14), are ignored (DESIGN CHOICE, log 136). -/
def stageOf (h i : Nat) : Stage :=
  let e := h / 2 ^ (8 * (0x80 + 16 * i))
  let frm := fieldAt e 0xB 1
  { entry := BitVec.ofNat 56 (fieldAt e 0 8), depth := fieldAt e 8 2, logr := fieldAt e 0xA 1,
    feeder := if frm = 0xFF then none else some frm, minc := fieldAt e 0xC 1, maxc := fieldAt e 0xD 1 }

/-- A written stage entry breaks R355. -/
def stageBad (h i : Nat) : Bool :=
  let t := stageOf h i
  t.depth == 0 || decide (4096 < t.depth) || decide (t.logr < 4) || decide (6 < t.logr) || decide (t.maxc < t.minc) || t.maxc == 0 ||
  t.feeder.any (fun j => decide (i ≤ j))

/-- A launch header breaks R355, or the widths of its WIDFMT R58. A nonzero reserved bit of FLAGS[7:2] or WIDFMT[63:45] counts as a nonzero
reserved byte does (DESIGN CHOICE: log 128). -/
def headerBad (h : Nat) : Bool :=
  let f := fieldAt h 8 8
  let nf := bits f 42 3
  let w (i : Nat) : Nat := bits f (7 * i) 7
  let place (i : Nat) : Nat := fieldAt h (0x40 + i) 1
  let ns := fieldAt h 0x49 1
  fieldAt h 0x46 2 != 0 || fieldAt h 0x4F 1 != 0 || fieldAt h 0x70 16 != 0 || decide (4 ≤ fieldAt h 0x4A 1) || bits f 45 19 != 0 ||
  nf == 0 || decide (6 < nf) ||
  (List.range nf).any (fun i => w i == 0) || (List.range 8).any (fun i => fieldAt h (0x80 + 16 * i + 0xE) 2 != 0) ||
  decide (64 < ((List.range nf).map w).foldl (· + ·) 0) ||
  (List.range 6).any (fun i => decide (nf ≤ i) && (w i != 0 || fieldAt h (0x10 + 8 * i) 8 != 0 || place i != 0)) ||
  (List.range nf).any (fun i => decide (4 < place i) || (decide (0 < i) && decide (place i < place (i - 1)))) ||
  decide (7 < fieldAt h 0x48 1) || decide (2 < fieldAt h 0x4B 1) || decide (3 < fieldAt h 0x4E 1) || decide (8 < ns) ||
  (List.range ns).any (stageBad h) ||
  decide (coreCount < ((List.range ns).map (fun i => (stageOf h i).minc)).foldl (· + ·) 0)

/-- A memory-queue descriptor is bad (R368). -/
def queueBad (d : Nat) : Bool :=
  let n := fieldAt d 8 1
  let r := fieldAt d 9 1
  decide (n < 2) || decide (16 < n) || decide (r < 4) || decide (6 < r) || fieldAt d 0 8 % 2 ^ r != 0 || fieldAt d 0xA 6 != 0 ||
  fieldAt d 0x20 32 != 0

/-- Bytes read by a Hive through a context, at their homes. A fault is none. -/
def hiveRead (c : Ctx) (va n : Nat) : M (Option Nat) :=
  tryCatch (do
    let (_, p) ← resolve c .engine kRead va n 0
    return some (← loadBytes c { p with cp := 2 } n false kRead va 0)) fun st =>
    match st with
    | .trap _ => return none
    | st => throw st

/-- A cancel group: its number, within its tenant (R8, R373; log 83). Group 0 is none. -/
def groupKey (tenant g : Nat) : Nat := tenant * 2 ^ 64 + g

/-- The launch that a checked header and record make. Bits [63:56] of ENTRY, above a 56-bit PC (R14), are ignored (DESIGN CHOICE,
log 136). -/
def launchOf (c : Ctx) (die group v h : Nat) (qs : List MemQueue) : Launch :=
  let ns := fieldAt h 0x49 1
  let stages := (List.range ns).map (stageOf h)
  let l : Launch :=
    { die := die, ctx := { c with tenant := fieldAt h 0x4C 2 }, args := BitVec.ofNat 64 (fieldAt v 8 8), cpl := fieldAt v 0x10 8,
      useq := fieldAt v 0x21 4, entry := BitVec.ofNat 56 (fieldAt h 0 8), widfmt := BitVec.ofNat 64 (fieldAt h 8 8),
      extents := (List.range 6).map (fun i => fieldAt h (0x10 + 8 * i) 8), places := (List.range 6).map (fun i => fieldAt h (0x40 + i) 1),
      prio := fieldAt h 0x48 1, migratable := bit (fieldAt h 0x4A 1) 0, fused := bit (fieldAt h 0x4A 1) 1,
      trappol := BitVec.ofNat 2 (fieldAt h 0x4B 1), energy := fieldAt h 0x4E 1, ctxtag := BitVec.ofNat 64 (fieldAt h 0x50 8),
      tvec := BitVec.ofNat 56 (fieldAt h 0x60 8), tsave := BitVec.ofNat 64 (fieldAt h 0x68 8) &&& 0x00FFFFFFFFFFF000, group := group,
      queues := qs, stages := stages, unstarted := [] }
  let src := if ns = 0 then [0] else (List.range ns).filter (fun i => (stageOf h i).feeder.isNone)
  { l with unstarted := src.map (fun i => (i, if l.total = 0 then [] else [(0, l.total)])) }

/-- The Hive reads and checks a launch record (R364): refused with a code, or the launch. -/
def checkLaunch (c : Ctx) (die group v : Nat) : M (Except Nat Launch) := do
  let hdr := fieldAt v 0 8
  let nmq := fieldAt v 0x20 1
  let mqt := fieldAt v 0x18 8
  if hdr % 256 != 0 || fieldAt v 0x10 8 % 8 != 0 || mqt % 64 != 0 then return .error 1
  if fieldAt v 0x25 27 != 0 || 6 < nmq then return .error 2
  match ← hiveRead c (hdr % 2 ^ 56) 256 with
  | none => return .error 1
  | some h =>
    if headerBad h then return .error 2
    let ds ← (List.range nmq).foldlM (fun (acc : Option (List Nat)) i => do
      match acc, ← hiveRead c ((mqt + 64 * i) % 2 ^ 56) 64 with
      | some l, some d => return some (l ++ [d])
      | _, _ => return none) (some [])
    match ds with
    | none => return .error 1
    | some ds =>
      if ds.any queueBad then return .error 2
      if fieldAt h 0x4C 2 != c.tenant then return .error 3
      let s ← get
      if 64 ≤ (s.launches.filter (fun x => x.2.die == die && !x.2.started)).length then return .error 4
      let g := if fieldAt h 0x58 8 = 0 then group else groupKey c.tenant (fieldAt h 0x58 8)
      if s.marks.any (fun m => m.1 == die && m.2 == g) then return .error 5
      let qs := ds.zipIdx.map (fun x => ⟨(mqt + 64 * x.2) % 2 ^ 56, fieldAt x.1 0 8 % 2 ^ 56, fieldAt x.1 8 1, fieldAt x.1 9 1⟩)
      return .ok (launchOf c die g v h qs)

/-- A completion word (R365). -/
def cplWord (refusal outcome useq ended : Nat) : Nat :=
  (if refusal = 0 then 0 else 2 ^ 63 + refusal * 2 ^ 56) + outcome * 2 ^ 48 + useq % 2 ^ 16 * 2 ^ 32 + ended

/-- Everything stored for the host window is at the host (R386). -/
def hostHomeAll (s : State) : State := (s.cores.map (·.1)).foldl (fun s c => hostHome c (drainReg c s)) s

/-- A completion word written with a release at sys, or a record that it could not be (R365). -/
def writeCpl (c : Ctx) (die cpl useq word : Nat) : M Unit := do
  if cpl ≠ 0 then
    let va := cpl % 2 ^ 56
    modify hostHomeAll
    tryCatch (do
      if va % 8 ≠ 0 then stopTrap (misaligned kWrite va 0)
      let (_, p) ← resolve c .engine kWrite va 8 0
      storeBytes c { p with cp := 2 } 8 word false kWrite va 0) fun st =>
      match st with
      | .trap t => modify fun s => s.postSup die (Record.bits
          { kind := 10, status := t.cause, utag := useq, count := word, payload := BitVec.ofNat 128 va })
      | st => throw st

/-- A Hive's own context: it reads for a submitter, from its die. -/
def hiveCtx (die : Nat) (c : Ctx) : Ctx := { c with seq := seqCount, core := 48 * die, resvid := 0 }

/-- A launch record submitted to a die's Hive: 0, or the code of the refusal, whose word is written. -/
def submitLaunch (c : Ctx) (die group v : Nat) : M Nat := do
  match ← checkLaunch c die group v with
  | .ok l =>
    modify fun s => { s with launches := NMap.set s.launches s.nextLaunch l, nextLaunch := s.nextLaunch + 1 }
    return 0
  | .error k =>
    writeCpl c die (fieldAt v 0x10 8) (fieldAt v 0x21 4) (cplWord k 0 (fieldAt v 0x21 4) 0)
    return k

/-! Completion (R359, R365). -/

/-- Whether everything of a launch has ended: its items, its tasks and its workers (R359). -/
def State.launchDone (s : State) (k : Nat) (l : Launch) : Bool :=
  !s.works.any (fun w => match w.2 with
    | .item j _ | .task j _ _ | .worker j _ _ => j == k) &&
  !s.tasks.any (fun t => t.2.launch == k) && !s.spawns.any (fun r => r.2.task.launch == k) &&
  (l.cancelled || l.unstarted.all (fun x => x.2 == []))

/-- Whether a cancel group has a member (R373). -/
def State.groupLives (s : State) (g : Nat) : Bool :=
  s.launches.any (fun x => x.2.group == g) || s.seqs.any (fun x => x.2.live && x.2.launch.isSome && x.2.group == g) ||
  s.saved.any (fun x => x.2.q.group == g) || s.resvs.any (fun x => x.2.group == some g)

/-- A group marked on every die and without a member loses its marks, and its cancellation is finished (R373). -/
def finishCancel (g : Nat) (s : State) : State :=
  if (List.range 4).all (fun d => s.marks.any (fun m => m.1 == d && m.2 == g)) && !s.groupLives g &&
    !s.spawns.any (fun r => r.2.group == g) then
    { s with marks := s.marks.filter (fun m => m.2 != g), cancels := s.cancels.filter (fun c => c.1 != g) }
  else s

def Launch.outcome (l : Launch) : Nat := if l.cancelled then 3 else if l.terminated then 2 else if l.aborted then 1 else 0

/-- A launch that has ended reports and is gone. -/
def completeLaunch (k : Nat) : M Unit := do
  let s ← get
  match NMap.get? s.launches k with
  | some l =>
    if s.launchDone k l then
      writeCpl (hiveCtx l.die l.ctx) l.die l.cpl l.useq (cplWord 0 l.outcome l.useq l.ended)
      modify fun s => finishCancel l.group
        { s with launches := NMap.erase s.launches k, tags := s.tags.filter (fun x => x.1 / 4 != k) }
  | none => pure ()

/-- LAUNCH_COMPLETE. -/
def execLaunchComplete (s : State) : Result :=
  match s.input with
  | .launchComplete k => execAgent (completeLaunch k) s
  | _ => .next s.tick

/-! Host submission (R366, R367). -/

/-- A write to a function's host queue window. -/
def queueWrite (fn die offset : Nat) (data : List Byte) (s : State) : State :=
  let h := NMap.getD s.hostQueues (4 * fn + die) {}
  let h :=
    if offset = 0 && data.length = 64 then
      if h.recs.length < 256 then { h with recs := h.recs ++ [data], accepted := h.accepted + 1 } else { h with dropped := h.dropped + 1 }
    else if offset < 64 then { h with malformed := h.malformed + 1 }
    else h
  { s with hostQueues := NMap.set s.hostQueues (4 * fn + die) h }

/-- The Hive takes the oldest record of a function's queue (R367). -/
def takeHostRecord (fn die : Nat) : M Unit := do
  let s ← get
  let h := NMap.getD s.hostQueues (4 * fn + die) {}
  match h.recs with
  | r :: rest =>
    let f := NMap.getD s.functions fn {}
    match f.submit with
    | none => pure ()
    | some (xlroot, asid) =>
      let c : Ctx := ⟨seqCount, 48 * die, false, xlroot, asid, f.tenant, 0⟩
      let _ ← submitLaunch c die 0 (leNat r)
    modify fun s => { s with hostQueues := NMap.modify s.hostQueues (4 * fn + die) {} (fun h => { h with recs := rest }) }
  | [] => pure ()

/-- A record that comes while bring-up has not ended, or with the power or the link gone, is dropped and counted (R468). -/
def queueDrop (fn die : Nat) (s : State) : State :=
  { s with hostQueues := NMap.modify s.hostQueues (4 * fn + die) {} (fun h => { h with dropped := h.dropped + 1 }) }

/-- HOST_QUEUE_RECORD (R366): a write arrives in the window; with no bytes, the Hive takes the oldest record instead (log 53). -/
def execHostQueueRecord (s : State) : Result :=
  match s.input with
  | .hostQueueRecord fn die offset data =>
    if data = [] then execAgent (takeHostRecord fn die) s
    else execAgent (modify fun s =>
      if !(fn < 64 && die < 4) then s
      else if s.powered && s.mgmt.linkUp then queueWrite fn die offset data s
      else queueDrop fn die s) s
  | _ => .next s.tick

end Sys2Proof.Machine
end

