-- ==== Sys2Proof/Machine/Context.lean ====
section
/-! DEFINITION. Saving and loading a context (17 R412 to R418): the save area, `ctxsv`, `ctxld`, pre-emption and its points. -/

namespace Sys2Proof.Machine

/-! The save area (R414). -/

/-- M, G and A of R414. -/
def maskBytes (mvl : Nat) : Nat := (mvl / 8 + 7) / 8 * 8

def areaSize (claim mvl accs : Nat) : Nat := 0xA00 + 7 * maskBytes mvl + 32768 * claim + 16384 * accs

/-- A queue handle as 8 opaque bytes (R414): 0 for one not given. -/
def QHandle.code : QHandle → Nat
  | .stage l i => 2 ^ 63 + 0 * 2 ^ 60 + i * 2 ^ 48 + l % 2 ^ 48
  | .memory l i => 2 ^ 63 + 1 * 2 ^ 60 + i * 2 ^ 48 + l % 2 ^ 48
  | .tasks l d => 2 ^ 63 + 2 * 2 ^ 60 + d * 2 ^ 48 + l % 2 ^ 48
  | .tiles l d => 2 ^ 63 + 3 * 2 ^ 60 + d * 2 ^ 48 + l % 2 ^ 48

def QHandle.ofCode (v : Nat) : Option QHandle :=
  if !bit v 63 then none
  else
    let l := bits v 0 48
    let i := bits v 48 8
    match bits v 60 3 with
    | 0 => some (.stage l i)
    | 1 => some (.memory l i)
    | 2 => some (.tasks l i)
    | 3 => some (.tiles l i)
    | _ => none

def QHandle.launch : QHandle → Nat
  | .stage l _ | .memory l _ | .tasks l _ | .tiles l _ => l

/-- MSTEP (R414). -/
def mstepWord (m : Option StoppedMstep) (saved : Nat) : Nat :=
  match m with
  | some x => 2 ^ 63 + saved * 2 ^ 9 + x.acc * 2 ^ 8 + x.row
  | none => saved * 2 ^ 9

/-- SAVED of a save that software makes: the accumulator of a stopped `mstep` (R415). -/
def Seq.savedAccs (q : Seq) : Nat :=
  match q.mstop with
  | some x => 2 ^ x.acc
  | none => 0

def setBitsOf (n : Nat) : Nat := (if bit n 0 then 1 else 0) + (if bit n 1 then 1 else 0)

/-- The dwords of the area up to the masks: offsets 0 to 0x9F8. `rpc`: the resume PC. -/
def headDwords (s : State) (n : Nat) (q : Seq) (d : Reg) (rpc : Pc) : List Nat :=
  let loops := q.loops.reverse
  let halves (m : NMap Word) : List Nat := (List.range 32).map (fun i => (NMap.getD m (2 * i) 0).toNat + (NMap.getD m (2 * i + 1) 0).toNat * 2 ^ 32)
  let wide (v : Nat) (k : Nat) : List Nat := (List.range k).map (fun i => bits v (64 * i) 64)
  [1, rpc.toNat, mstepWord q.mstop q.savedAccs, areaSize q.claim q.mvl (setBitsOf q.savedAccs), loops.length, q.slen] ++
  ((List.range 6).map (fun i => match loops[i]? with
    | some l => [l.start.toNat, l.exit.toNat, l.count.toNat]
    | none => [0, 0, 0])).flatten ++
  (List.range 64).map (fun r => if r = d.toNat then 0 else (q.scalar (BitVec.ofNat 6 r)).toNat) ++
  [((List.range 16).map (fun i => if q.pred i then 2 ^ i else 0)).foldl (· + ·) 0] ++ List.replicate 7 0 ++
  (List.range 37).map (fun r => (s.readCr n r).toNat) ++ List.replicate 3 0 ++
  halves q.gens ++
  ((List.range 8).map (fun i => match NMap.get? q.bars i with
    | some b => [b.va.toNat + (if b.phase.isSome then 2 ^ 62 else 0) + 2 ^ 63, (b.phase.getD 0).toNat]
    | none => [0, 0])).flatten ++
  ((List.range 16).map (fun i => wide (q.evq.recs.getD i 0).toNat 4)).flatten ++
  ((List.range 4).map (fun i => wide (NMap.getD q.haloCopy i 0).toNat 8)).flatten ++
  wide q.tcfg.toNat 8 ++
  (List.range 16).map (fun i => match NMap.get? q.queues i with
    | some h => h.code
    | none => 0) ++
  List.replicate 16 0

/-- The dwords of the masks, of the claimed storage, and of the accumulators. -/
def maskDwords (q : Seq) : List Nat :=
  ((upFrom 1 7).map (fun i => (List.range (maskBytes q.mvl / 8)).map (fun j => bits (q.mask i).toNat (64 * j) 64))).flatten

/-- Dword j of a brick in the claimed storage: as many elements as it holds, below MVL. -/
def Seq.brickDword (q : Seq) (b j : Nat) : Nat :=
  let w := 8 * 2 ^ (q.sewCode % 4)
  let per := 64 / w
  ((List.range per).map (fun i => if j * per + i < q.mvl then (q.elem b (j * per + i)).toNat % 2 ^ w * 2 ^ (w * i) else 0)).foldl (· + ·) 0

def brickDwords (q : Seq) : List Nat :=
  ((List.range 64).map (fun b => (List.range (64 * q.claim)).map (q.brickDword b))).flatten

def accDwords (a : Accum) : List Nat :=
  (List.range 2048).map (fun i => (NMap.getD a.elems (2 * i) 0).toNat + (NMap.getD a.elems (2 * i + 1) 0).toNat * 2 ^ 32)

/-- The accumulators that a bit pair names. -/
def accsOf (saved : Nat) : List Nat := (List.range 2).filter (bit saved)

/-- The whole area, in its order. -/
def areaDwords (s : State) (n : Nat) (q : Seq) (d : Reg) (rpc : Pc) : List Nat :=
  headDwords s n q d rpc ++ maskDwords q ++ brickDwords q ++
  ((accsOf q.savedAccs).map (fun i => accDwords ((s.core (coreOf n)).accOf i))).flatten

/-- A plain store of a dword by the sequencer (R185). -/
def storeDword (c : Ctx) (va v : Nat) : M Unit := do
  storeBytes c (← storePlace c va 8) 8 v true kWrite va 0

def loadDword (c : Ctx) (va : Nat) : M Nat := do
  let (_, p) ← resolve c .l1 kRead va 8 0
  loadBytes c p 8 false kRead va 0

/-- Older commands of the sequencer complete; walks that wait for a credit are abandoned (R232). -/
def needSaved : M Unit := do
  modify fun s => abandonWalks s.cur s
  needCommandsDone
  modMe Seq.completeAll

/-- `ctxsv` (R415). -/
def execCtxsv (o : RArgs) (s : State) : Result :=
  execNext (do
    let q ← mySeq
    let area := (q.tsave.extractLsb' 12 44).toNat * 4096
    if area = 0 then stopTrap { cause := 0x09, tval := 0, estart := some 0 }
    needSaved
    needWritable .scalar o.d
    let n ← me
    modMyCore fun c => { c with links := c.links.filter (fun l => l.seq != n) }
    let s ← get
    let q ← mySeq
    let c ← myCtx
    forEach (areaDwords s n q o.d q.nextPc).zipIdx fun x => storeDword c ((area + 8 * x.2) % 2 ^ 56) x.1
    writeS o.d (BitVec.ofNat 64 (areaSize q.claim q.mvl (setBitsOf q.savedAccs)))) s

/-! Loading (R416). -/

/-- A control register of a saved area. -/
def savedCr (l : List Nat) (r : Nat) : DWord := BitVec.ofNat 64 (l.getD (0x60 + r) 0)

/-- Control register numbers below 0x025 that R38 assigns. -/
def crAssigned (r : Nat) : Bool := !(r ∈ [0x006, 0x007, 0x015, 0x016, 0x017, 0x01E, 0x01F])

/-- The bits of a control register that are not reserved (R58, R82, R107, R134, R242, R246, R247, R255, R257, R310, R408, R465). -/
def crFields (r : Nat) : DWord :=
  match r with
  | 0x000 => 0xFFFFFFFFFF
  | 0x001 => 0xCC1F0FFF
  | 0x002 | 0x003 => 0x3FFF
  | 0x004 => 0x3FFFFFFFF
  | 0x005 => 0xFFFFFFFF00001FFF
  | 0x008 | 0x009 | 0x00A | 0x00B => 0xBF0000003FFF3FFC
  | 0x00C | 0x00D | 0x00E | 0x00F => 0x00FFFFFFFFFFFFC1
  | 0x011 => 0x1FFFFFFFFFFF
  | 0x018 => 0x3FFFF
  | 0x01A | 0x01C => 0x00FFFFFFFFFFFFFF
  | 0x01B => 0xF0F
  | 0x01D => 0x00FFFFFFFFFFF000
  | 0x020 => 0x000FFFFFFFFFC7FF
  | 0x021 => 0xFFFF
  | 0x022 => 0xFFFF001F
  | 0x023 => 0x1FFF
  | 0x024 => 0x800000FFFFFFFFFF
  | _ => if crAssigned r then BitVec.allOnes 64 else 0

/-- The area is one that R414 allows: format, size, depth, and reserved fields zero, those of the saved registers too. `l`: its first
0xA00 bytes. -/
def areaOk (l : List Nat) : Bool :=
  let vtype := savedCr l 1
  let mvl := (savedCr l 3).toNat
  let mstep := l.getD 2 0
  let accs := bits mstep 9 2
  let zero (a n : Nat) : Bool := (upFrom a n).all (fun i => l.getD i 0 == 0)
  l.getD 0 0 == 1 && l.getD 3 0 == areaSize (vtype.extractLsb' 16 5).toNat mvl (setBitsOf accs) &&
  bits mstep 6 2 == 0 && bits mstep 11 52 == 0 && (bit mstep 63 || bits mstep 0 9 == 0) &&
  (!bit mstep 63 || bit accs (bits mstep 8 1)) && decide (l.getD 4 0 ≤ 6) &&
  zero 0x59 7 && zero 0x85 3 && zero 0x130 16 &&
  (List.range 37).all (fun r => savedCr l r &&& ~~~(crFields r) == 0) &&
  decide (mvl ≤ 8192) && decide ((savedCr l 2).toNat ≤ 8192) && decide ((savedCr l 0x22).toNat % 32 ≤ 16)

/-- A few dwords as one number. -/
def joinDwords (l : List Nat) : Nat := l.foldr (fun v acc => acc * 2 ^ 64 + v) 0

/-- Scalars, loop stack, tables and copies of an area's head. R81 keeps every generator nonzero and R416 loads every item: a zero in GEN
is loaded as it stands (log 118). The area has no place for the flags of a stopped `mstep`: they are lost (log 118). -/
def Seq.loadHead (q : Seq) (l : List Nat) : Seq :=
  let at' (i : Nat) : DWord := BitVec.ofNat 64 (l.getD i 0)
  let part (i n : Nat) : Nat := joinDwords ((l.drop i).take n)
  { q with
    pc := (at' 1).setWidth 56
    mstop := if bit (l.getD 2 0) 63 then some ⟨bits (l.getD 2 0) 8 1, bits (l.getD 2 0) 0 6, 0⟩ else none
    slen := l.getD 5 0
    loops := ((List.range (l.getD 4 0)).map (fun i =>
      LoopEntry.mk ((at' (6 + 3 * i)).setWidth 56) ((at' (7 + 3 * i)).setWidth 56) (at' (8 + 3 * i)))).reverse
    s := (upFrom 1 63).map (fun r => (r, at' (0x18 + r)))
    sEmpty := 0
    p := (at' 0x58).setWidth 16 ||| 1
    gens := (List.range 64).map (fun i => (i, BitVec.ofNat 32 (l.getD (0x88 + i / 2) 0 / 2 ^ (32 * (i % 2)))))
    bars := ((List.range 8).filter (fun i => bit (l.getD (0xA8 + 2 * i) 0) 63)).map (fun i =>
      (i, ⟨(at' (0xA8 + 2 * i)).setWidth 56, if bit (l.getD (0xA8 + 2 * i) 0) 62 then some (at' (0xA9 + 2 * i)) else none⟩))
    evq := { recs := (List.range ((savedCr l 0x22).toNat % 32)).map (fun i => BitVec.ofNat 256 (part (0xB8 + 4 * i) 4)),
             drops := bits (savedCr l 0x22).toNat 16 16 }
    haloCopy := (List.range 4).map (fun i => (i, BitVec.ofNat 512 (part (0xF8 + 8 * i) 8)))
    tcfg := BitVec.ofNat 512 (part 0x118 8)
    bEmpty := 0
    pend := []
    outst := [] }

/-- Control registers of an area. At user privilege XLROOT, ASID, CTXTAG, TVEC, TSAVE and PRIV stay (R416); PPRIV comes as 0, since only
supervisor code sets it (R411). -/
def Seq.loadCrs (q : Seq) (l : List Nat) (user : Bool) : Seq :=
  let cr := savedCr l
  let t := (cr 0x1B).setWidth 12
  let q : Seq :=
    { q with
      estart := (cr 0).setWidth 40, vtype := cr 1, vl := (cr 2).toNat, mvl := (cr 3).toNat, fsr := fsrValue (cr 5),
      bfd := (List.range 4).map (fun i => (i, cr (8 + i))), halo := (List.range 4).map (fun i => (i, cr (12 + i))),
      wid := cr 0x10, widfmt := cr 0x11, tcause := cr 0x18, tval := cr 0x19, tpc := (cr 0x1A).setWidth 56, resvid := cr 0x23,
      mtcfg := cr 0x24 }
  if user then
    { q with tstat := mkTstat (t.extractLsb' 10 2) (t.getLsbD 9) (t.getLsbD 8) (t.getLsbD 3) (t.getLsbD 2) false q.priv }
  else
    { q with tstat := t, xlroot := cr 0x20, asid := (cr 0x21).setWidth 16, ctxtag := cr 0x14, tvec := (cr 0x1C).setWidth 56,
             tsave := cr 0x1D }

/-- A handle that a launch of the device gives its sequencers (R33): a queue of its record, the input of a stage that another
one feeds, or the tasks or tiles of a die. -/
def State.gave (s : State) (h : QHandle) : Bool :=
  match NMap.get? s.launches h.launch with
  | none => false
  | some l =>
    match h with
    | .stage _ i => (l.stages[i]?).any (·.feeder.isSome)
    | .memory _ i => decide (i < l.queues.length)
    | .tasks _ die | .tiles _ die => decide (die < 4)

/-- RESVID and handles as user code may load them (R416). -/
def Seq.loadChecked (q : Seq) (s : State) (l : List Nat) (user : Bool) : Seq :=
  let hs : NMap QHandle := ((List.range 16).filterMap (fun i => (QHandle.ofCode (l.getD (0x120 + i) 0)).map (fun h => (i, h))))
  let bound := (NMap.get? s.resvs (resvId q.resvid)).any (fun r => r.tenant == q.tenant)
  { q with
    queues := if user then hs.filter (fun x => some x.2.launch == q.launch && s.gave x.2) else hs
    resvid := if user && !bound then q.resvid &&& 0xFFF else q.resvid }

/-- Elements of the bricks from the dwords of the claimed storage. -/
def loadBricks (claim mvl sew : Nat) (l : List Nat) : NMap DWord :=
  let w := 8 * 2 ^ (sew % 4)
  let per := 64 / w
  ((List.range 64).map (fun b => (List.range mvl).filterMap (fun e =>
    let v := l.getD (64 * claim * b + e / per) 0 / 2 ^ (w * (e % per)) % 2 ^ w
    if v = 0 then none else some (8192 * b + e, BitVec.ofNat 64 v)))).flatten

def loadMasks (mvl : Nat) (l : List Nat) : NMap (BitVec 8192) :=
  let n := maskBytes mvl / 8
  (List.range 7).map (fun i => (i + 1, BitVec.ofNat 8192 (joinDwords ((l.drop (n * i)).take n))))

def loadAcc (l : List Nat) : NMap Word :=
  (List.range 4096).filterMap (fun i =>
    let v := l.getD (i / 2) 0 / 2 ^ (32 * (i % 2)) % 2 ^ 32
    if v = 0 then none else some (i, BitVec.ofNat 32 v))

/-- A run of dwords of an area read as plain loads. -/
def loadRun (c : Ctx) (area first n : Nat) : M (List Nat) :=
  (List.range n).foldlM (fun acc i => do return acc ++ [← loadDword c ((area + 8 * (first + i)) % 2 ^ 56)]) []

/-- The old core of a context that resumes elsewhere is flushed by its context tag (R418), and what it wrote there is seen here
(R381). -/
def State.flushMoved (s : State) (head : List Nat) (core : Nat) : State :=
  let old := (savedCr head 0x13).toNat
  if old ≠ core ∧ old < coreCount then acquireL1 core .dev (flushTag old (some (savedCr head 0x14)) s) else s

/-- `ctxld` (R416). -/
def execCtxld (o : RArgs) (s : State) : Result :=
  execSeq (do
    let a := (← readS o.sa).toNat % 2 ^ 56
    needWritable .scalar o.d
    if a % 4096 ≠ 0 then stopTrap (misaligned kRead a 0)
    let c ← myCtx
    let head ← loadRun c a 0 0x140
    let refuse (k : Nat) : M Cont := do
      writeS o.d (BitVec.ofNat 64 (2 ^ 63 + k))
      return .next
    let user := !(← mySeq).priv
    if !areaOk head then refuse 1
    else
      let claim := ((savedCr head 1).extractLsb' 16 5).toNat
      let mvl := (savedCr head 3).toNat
      let accs := accsOf (bits (head.getD 2 0) 9 2)
      let m := 7 * maskBytes mvl / 8
      let masks ← loadRun c a 0x140 m
      let store ← loadRun c a (0x140 + m) (4096 * claim)
      let accData ← loadRun c a (0x140 + m + 4096 * claim) (2048 * accs.length)
      let q ← mySeq
      let s ← get
      let core := coreOf (← me)
      if user && (savedCr head 0x1B).getLsbD 0 then refuse 2
      else if q.claim + s.freeUnits core < claim then refuse 3
      else
        needSaved
        modMe fun q =>
          let k := ((q.loadHead head).loadCrs head user).loadChecked s head user
          { k with masks := loadMasks mvl masks, bricks := loadBricks claim mvl k.sewCode store, line := none, cameFrom := some q.pc,
                   wait := none, atStop := false, partWay := false }
        forEach accs.zipIdx fun x => writeAcc x.1 (loadAcc ((accData.drop (2048 * x.2)).take 2048))
        modify fun s => settleBanks core (s.flushMoved head core)
        return .stopped) s

/-! Pre-emption (R328, R412). -/

/-- Waits of R328 at which a sequencer may be pre-empted at any loop depth. -/
def Wait.isPoint : Wait → Bool
  | .arming | .vwait _ _ | .evwait _ _ _ _ | .wfe _ _ | .bwait _ _ _ | .fget _ _ _ _ | .rdv _ => true
  | _ => false

/-- Waits of an instruction that has done nothing yet: the sequencer stands at the boundary before it. -/
def Wait.atBoundary : Wait → Bool
  | .reg _ _ | .held _ | .room | .engines => true
  | _ => false

/-- A point of pre-emption (R328), at user privilege: a wait of R328, a stopping point just reached, or any instruction boundary at
loop depth 0. An instruction that has sent the host an operation is no boundary (R208). -/
def Seq.atPoint (q : Seq) : Bool :=
  q.phase == .running && !q.priv && !q.partWay && q.hostAns == none &&
  match q.wait with
  | some w => w.isPoint || (w.atBoundary && (q.atStop || q.loops == []))
  | none => q.atStop || q.loops == []

/-- A sequencer's point of pre-emption, which an `fget` that a write has ended no longer is. -/
def State.atPoint (s : State) (n : Nat) : Bool :=
  (s.seq n).atPoint && ((s.cellWait n).bind (·.got)).isNone

/-- The accumulators saved at a pre-emption: those the sequencer wrote last (R412), and that of its stopped `mstep` (R414). -/
def Core.accsFor (c : Core) (q : Seq) : NMap Accum :=
  ((List.range 2).filter (fun i => (c.accOf i).writer == some q.uid || q.mstop.any (·.acc == i))).map (fun i => (i, c.accOf i))

/-- The sequencer is saved and freed (R412 steps 1 and 2). Its commands have completed. -/
def saveSeq (n : Nat) (s : State) : State :=
  let s := s.modSeq n Seq.completeAll
  let q := s.seq n
  let k := (s.core (coreOf n)).stopAccs q.uid
  let q' := { q with wait := none, line := none, cameFrom := none, preempt := false, unitTlb := none, atStop := false }
  let s := { s with saved := NMap.set s.saved s.nextSaved { q := q', seq := n, accs := k.accsFor q }, nextSaved := s.nextSaved + 1 }
  leaveCluster (clusterOf n) q.launch (freeSeq n s)

/-- A pre-emption asked for takes effect at a point, once the sequencer's commands have completed. True when it has. -/
def preemptNow (n : Nat) (s : State) : Bool × State :=
  let q := s.seq n
  if q.preempt && s.atPoint n then
    let s := abandonWalks n s
    if s.enginesOf n = [] && !s.arrivesRemote q.uid then (true, saveSeq n s) else (false, s)
  else (false, s)

/-- What the Hive would pre-empt a sequencer for (R412): ready work of a higher priority, or a move. -/
def State.preemptable (s : State) (n : Nat) : Bool :=
  match (s.seq n).launch with
  | none => false
  | some j =>
    match NMap.get? s.launches j with
    | some l => l.migratable || ((s.setSeq n {}).bestFor n).any (fun b => decide (l.prio < b.prio))
    | none => false

/-- PREEMPT (R412): the request, which takes effect now if this is a point. -/
def execPreempt (s : State) : Result :=
  match s.input with
  | .preempt n =>
    execAgent (modify fun s =>
      if (s.seq n).live && s.preemptable n then (preemptNow n (s.modSeq n fun q => { q with preempt := true })).2 else s) s
  | _ => .next s.tick

/-- `yield` (R377). Where it gives way to nothing, what follows it is still a point, at any loop depth (R328). -/
def execYieldSeq (o : RArgs) (s : State) : Result :=
  execSeq (do
    let n ← me
    let s ← get
    let q ← mySeq
    let prio := (q.launch.bind (fun j => (NMap.get? s.launches j).map (·.prio))).getD 8
    if !q.priv && ((s.setSeq n {}).readyHere n).any (fun b => decide (prio ≤ b.prio)) then
      needSaved
      writeP o.d true
      modMe Seq.advance
      modify (saveSeq n)
      return .stopped
    else
      writeP o.d false
      modMe fun q => { q.advance with atStop := true }
      return .stopped) s

end Sys2Proof.Machine
end

