-- ==== Sys2Proof/Machine/Fetch.lean ====
section
/-! DEFINITION. Entering a line and fetching an instruction (01 R14 to R17, R44, R46), the default order of turns, and the word
of the host's interface placed where the next step fetches. -/

namespace Sys2Proof.Machine

/-- Whether an L1 holds a code line whole, as one fetch filled it, so that it is no mixture of old and new words (R17). -/
def Core.wholeLine (c : Core) (p : Place) : Bool :=
  let l := NMap.getD c.l1 (p.loc / 128) {}
  p.cp != 2 && l.key == p.key && l.whole.getLsbD (p.loc / 64 % 2) && (wordsOf p.loc 64).all (fun w => (c.l1Word w).isSome)

/-- The words of a code line fill the L1 together. -/
def fillLine (h : Nat) (p : Place) (v : Nat) (s : State) : State :=
  let s := (wordsOf p.loc 64).zipIdx.foldl (fun s x => fillL1 h x.1 (BitVec.ofNat 32 (bits v (32 * x.2) 32)) p.key s) s
  s.modCore h fun k =>
    let l := NMap.getD k.l1 (p.loc / 128) {}
    k.setL1Line (p.loc / 128) { l with whole := l.whole ||| ((1 : BitVec 2) <<< (p.loc / 64 % 2)) }

/-- A code line read through the core's L1 (R17): from the L1 if it holds the line whole, else all of it from the home at once. -/
def readLine (c : Ctx) (va : Nat) : M CodeLine := do
  let (_, p) ← resolve c .l1 kFetch va 64 0
  let ws := wordsOf p.loc 64
  let s ← get
  let h := s.holder c.core (p.loc / 128)
  if (s.core h).wholeLine p then
    return BitVec.ofNat 512 (ws.foldr (fun w acc => acc * 2 ^ 32 + (((s.core h).l1Word w).map (fun x => x.val.toNat)).getD 0) 0)
  else
    dropForeign c p (p.loc / 4)
    ownStoresFirst c ws
    modify (noteRequest c 64)
    -- every store that has reached or is on its way to the line is whole there (R17)
    modify (readyRange p.loc 64)
    checkWords c true (p.words 64) kFetch va 0
    modify (readyUnder p.mat p.loc)
    let v := (← get).valueUnder p.mat p.loc 64
    if p.cp == 0 then modify (fillLine h p v) else forEach ws fun w => modify (dropUnreg c.core w)
    return BitVec.ofNat 512 v

/-- Control enters the line at the PC (R15 to R17, R46): translation first, then the line's form, then the head index. Where no
instruction transferred control there (a launch's entry, a worker's, a task's, the boot entry, a resumed context), the spec gives
no TVAL for an illegal branch target: the model puts the PC itself there (log 108). -/
def enterLine : M LineSnap := do
  let q ← mySeq
  let c ← myCtx
  let l ← readLine c ((lineOf q.pc).toNat * 64)
  if !l.wellFormed then stopTrap { cause := 0x02, tval := l.header.setWidth 64, estart := some 0 }
  if l.heads ≤ indexOf q.pc then
    stopTrap { cause := 0x03, tval := (q.cameFrom.getD q.pc).setWidth 64, estart := some 0 }
  return ⟨lineOf q.pc, l⟩

/-- The line to execute from: the snapshot while control stays in it, else a new entry (R17). -/
def fetchLine : M LineSnap := do
  let q ← mySeq
  match q.line with
  | some l => if l.addr = lineOf q.pc then return l else enterLine
  | none => enterLine

/-- A trap found earlier whose entry waits for older arrivals (R406) is raised again. -/
def trapFound : M Unit := do
  match (← mySeq).wait with
  | some (.trapping t) => stopTrap t
  | _ => pure ()

/-- The instruction at the PC, its line entered; a head that does not decode is an illegal instruction (R43). -/
def fetchInstr : M Instr := do
  trapFound
  let l ← fetchLine
  modMe fun q => { q with line := some l }
  let q ← mySeq
  match decodeAt l.code (indexOf q.pc) with
  | .ok i => return i
  | .error _ => return .illegalInstruction

/-- The illegal-instruction trap at a head (R44). -/
def execIllegalInstruction (s : State) : Result :=
  execSeq (do stopTrap (illegalHead (← mySeq).head)) s

/-- The state in which the sequencer whose turn it is stands before an instruction placed by itself in a line (R13): the next
turn is its own. -/
def placeWord (s : State) (nbits w : Nat) : State :=
  let s := s.modSeq s.cur fun q =>
    { q with phase := .running, wait := none, preempt := false, pc := lineOf q.pc ++ (0 : BitVec 6), cameFrom := none,
             line := some ⟨lineOf q.pc, placeInstr (wordHead w) (wordTail nbits w)⟩ }
  { s with powered := true, turns := .seq s.cur :: s.turns }

end Sys2Proof.Machine
end

