-- ==== Sys2Proof/Machine/Queues.lean ====
section
/-! DEFINITION. Hardware queues (13 R345, 14 R356, R357, R368, R369): stage queues, the task and tile-task queues, and queues in
memory. -/

namespace Sys2Proof.Machine

/-- The queue of a handle that the sequencer has been given for this use (R33, R345). -/
def needHandle (a : Src) (use : QHandle → Bool) : M QHandle := do
  let refuse : M QHandle := stopTrap { cause := 0x04, tval := BitVec.ofNat 64 a.reg.toNat, estart := some 0 }
  match NMap.get? (← mySeq).queues a.reg.toNat with
  | some h => if use h then return h else refuse
  | none => refuse

/-- `qpush` may use it. -/
def QHandle.pushable : QHandle → Bool
  | .tasks _ _ => false
  | _ => true

/-- `qpop` may use it. -/
def QHandle.poppable : QHandle → Bool
  | .stage _ _ | .memory _ _ => true
  | _ => false

/-- A stage of a launch. -/
def State.stageAt (s : State) (launch i : Nat) : Option Stage := (NMap.get? s.launches launch).bind (·.stages[i]?)

/-- A memory-backed queue of a launch record. -/
def State.memQueue (s : State) (launch i : Nat) : Option MemQueue := (NMap.get? s.launches launch).bind (·.queues[i]?)

/-- Tile-task records of a launch that a die's Hive holds. -/
def State.tilesOf (s : State) (launch die : Nat) : Nat := (s.tiles.filter (fun x => x.2.launch == launch && x.2.die == die)).length

/-- Tasks of a launch that a die's Hive holds. -/
def State.tasksOf (s : State) (launch die : Nat) : Nat := (s.tasks.filter (fun x => x.2.launch == launch && x.2.die == die)).length

/-- log₂ of a queue's record size. -/
def State.logr (s : State) : QHandle → Nat
  | .stage l i => ((s.stageAt l i).map (·.logr)).getD 4
  | .memory l i => ((s.memQueue l i).map (·.logr)).getD 4
  | _ => 6

/-! Queues in memory (R368). -/

/-- A descriptor at its home: its place, HEAD and TAIL. -/
def queueCells (m : MemQueue) : M (Place × Nat × Nat) := do
  let c ← myCtx
  let p ← atomicPlace c .l1 kRmw m.desc 64 0 (performs false false)
  gatherWords c p 64 kRmw m.desc 0
  let d := (← get).valueUnder p.mat p.loc 64
  return (p, bits d 128 64, bits d 192 64)

/-- HEAD or TAIL, at an offset in the descriptor, moves on by one. -/
def bumpCell (m : MemQueue) (p : Place) (off : Nat) : M Unit := do
  let _ ← performAtomic (← myCtx) { p with loc := p.loc + off } 8 (fun v => some ((v + 1) % 2 ^ 64)) kRmw m.desc 0

/-- `E(P)`. -/
def MemQueue.lap (m : MemQueue) (pos : Nat) : Nat := (pos / 2 ^ m.logn + 1) % 65536

/-- The VA of the slot of a position. -/
def MemQueue.slotVa (m : MemQueue) (pos : Nat) : Nat := (m.base + pos % 2 ^ m.logn * 2 ^ m.logr) % 2 ^ 56

/-- `qpush` of a memory-backed queue: whether the record was appended. The difference is exact (R7). -/
def pushMemory (m : MemQueue) (rec : Nat) : M Bool := do
  let (p, head, tail) ← queueCells m
  if tail < head + 2 ^ m.logn then
    let c ← myCtx
    let va := m.slotVa tail
    storeBytes c { (← storePlace c va (2 ^ m.logr)) with cp := 2 } (2 ^ m.logr) (rec / 65536 * 65536 + m.lap tail) false kWrite va 0
    bumpCell m p 0x18
    return true
  else return false

/-- The record of a lapped reader (R369). -/
def lappedRecord (handle expected lap head : Nat) : BitVec 256 :=
  Record.bits { kind := 9, payload := BitVec.ofNat 128 (handle + expected * 2 ^ 16 + lap * 2 ^ 32 + head % 2 ^ 32 * 2 ^ 64) }

/-- `qpop` of a memory-backed queue: `store` writes the record; whether there was one. -/
def popMemory (handle : Nat) (m : MemQueue) (store : Nat → M Unit) : M Bool := do
  let (p, head, _) ← queueCells m
  let c ← myCtx
  let va := m.slotVa head
  let (_, sp) ← resolve c .l1 kRead va (2 ^ m.logr) 0
  let rec ← loadBytes c { sp with cp := 2 } (2 ^ m.logr) true kRead va 0
  let d := (rec % 65536 + 65536 - m.lap head) % 65536
  if d = 0 then
    store rec
    bumpCell m p 0x10
    return true
  else
    if d < 32768 then modify fun s => s.postSeq s.cur (lappedRecord handle (m.lap head) (rec % 65536) head)
    return false

/-! Tile-task records (R60, R325). -/

/-- The tile-task record that a sequencer pushes. One that R325 refuses as it stands is stopped before its first step. OPB is 8 bytes and
holds a VA of 56 bits: bits [63:56] are ignored, as in a register (DESIGN CHOICE, log 136). -/
def tileRecord (launch die : Nat) (c : Ctx) (uid rec : Nat) : TileRec :=
  let nwait := fieldAt rec 0x24 1
  let nsig := fieldAt rec 0x25 1
  let place := fieldAt rec 0x26 1
  let refused := fieldAt rec 0x28 24 != 0 || fieldAt rec 0 8 % 256 != 0 || decide (4 < nwait) || decide (2 < nsig) || place == 0 ||
    decide (3 < place) || decide (7 < fieldAt rec 0x27 1)
  { launch := launch, die := die, ctx := c, uid := uid, opb := fieldAt rec 0 8 % 2 ^ 56,
    starts := (List.range 6).map (fun i => fieldAt rec (8 + 2 * i) 2), utag := fieldAt rec 0x14 4,
    waits := ((List.range (Min.min nwait 4)).map (fun i => fieldAt rec (0x18 + 2 * i) 2)).filter (· != 0),
    sigs := ((List.range (Min.min nsig 2)).map (fun i => fieldAt rec (0x20 + 2 * i) 2)).filter (· != 0),
    place := place, prio := fieldAt rec 0x27 1, stop := if refused then some (0xF0, 0, 0) else none }

def pushTile (launch die rec : Nat) : M Bool := do
  let s ← get
  if s.tilesOf launch die < 256 then
    set { s with tiles := NMap.set s.tiles s.nextTile (tileRecord launch die (s.ctx s.cur) (s.seq s.cur).uid rec), nextTile := s.nextTile + 1 }
    return true
  else return false

/-! Stage queues (R356, R358). -/

def pushStage (launch i : Nat) (rec : List Byte) : M Bool := do
  match (← get).stageAt launch i with
  | some t =>
    let room := decide (t.recs.length < t.depth)
    let recs := if room then t.recs ++ [rec] else t.recs
    modify fun s => s.modLaunch launch (·.modStage i fun t =>
      { t with recs := recs, busy := t.busy || !room || decide (t.depth ≤ 2 * recs.length), used := t.used || room })
    return room
  | none => return false

/-- A `qpop` of q0 that finds its queue empty ends a worker of a drained stage, or a worker of a stage that loses a core. -/
def endsWorker (handle : Nat) : QHandle → M Bool
  | .stage l i => do
    let s ← get
    let q ← mySeq
    match s.stageAt l i with
    | some t => return handle == 0 && t.recs == [] && (s.stageDrained l i || (t.withdraw && q.parent == none))
    | none => return false
  | _ => return false

/-! QUEUE (R345). -/

/-- `qpush`. -/
def execQpush (o : RArgs) (s : State) : Result :=
  execWhole (do
    sampleAbort
    let h ← needHandle o.sa (·.pushable)
    let va := (← readS o.sb).toNat % 2 ^ 56
    let n := 2 ^ (← get).logr h
    if va % n ≠ 0 then stopTrap (misaligned kRead va 0)
    let c ← myCtx
    let (_, p) ← resolve c .l1 kRead va n 0
    let rec ← loadBytes c p n false kRead va 0
    release .dev
    let ok ← match h with
      | .stage l i => pushStage l i (leBytes n rec)
      | .memory l i => match (← get).memQueue l i with
        | some m => pushMemory m rec
        | none => pure false
      | .tiles l d => pushTile l d rec
      | .tasks _ _ => pure false
    writeP o.d ok) s

/-- The oldest record of a stage queue goes to memory. -/
def popStage (launch i : Nat) (store : Nat → M Unit) : M Bool := do
  match (← get).stageAt launch i with
  | some t =>
    match t.recs with
    | r :: rest =>
      store (leNat r)
      modify fun s => s.modLaunch launch (·.modStage i fun t => { t with recs := rest })
      return true
    | [] => return false
  | none => return false

/-- `qpop`. -/
def execQpop (o : RArgs) (s : State) : Result :=
  execWhole (do
    sampleAbort
    let h ← needHandle o.sa (·.poppable)
    if ← endsWorker o.sa.reg.toNat h then
      match h with
      | .stage l i => modify fun s => s.modLaunch l (·.modStage i fun t => { t with withdraw := false })
      | _ => pure ()
      throw (.ends 0)
    let va := (← readS o.sb).toNat % 2 ^ 56
    let n := 2 ^ (← get).logr h
    if va % n ≠ 0 then stopTrap (misaligned kWrite va 0)
    let c ← myCtx
    let p ← storePlace c va n
    let store (v : Nat) : M Unit := storeBytes c p n v true kWrite va 0
    let ok ← match h with
      | .stage l i => popStage l i store
      | .memory l i => match (← get).memQueue l i with
        | some m => popMemory o.sa.reg.toNat m store
        | none => pure false
      | _ => pure false
    if ok then acquire .dev
    writeP o.d ok) s

/-- A 16-bit count field; what it reads where the count does not fit is not stated (log 40). -/
def countField (n : Nat) : M Nat := do
  if n < 65536 then return n else return Config.choice (← freshFree) % 65536

/-- Records held, capacity and kind of a queue. -/
def queueCounts : QHandle → M (Nat × Nat × Nat)
  | .stage l i => do
    match (← get).stageAt l i with
    | some t => return (t.recs.length, t.depth, 0)
    | none => return (0, 0, 0)
  | .tiles l d => do return ((← get).tilesOf l d, 256, 1)
  | .tasks l d => do return ((← get).tasksOf l d, 1024, 2)
  | .memory l i => do
    match (← get).memQueue l i with
    | some m =>
      let (_, head, tail) ← queueCells m
      return ((tail + 2 ^ 64 - head) % 2 ^ 64, 2 ^ m.logn, 3)
    | none => return (0, 0, 3)

/-- `qstat`, on the scalar side (R329). -/
def execQstat (o : RArgs) (s : State) : Result :=
  execNext (do
    let h ← needHandle o.sa (fun _ => true)
    needWritable .scalar o.d
    let (held, cap, kind) ← queueCounts h
    let r := (← get).logr h
    let held ← countField held
    let cap ← countField cap
    writeS o.d (BitVec.ofNat 64 (held + cap * 2 ^ 16 + r * 2 ^ 32 + kind * 2 ^ 35))) s

end Sys2Proof.Machine
end

