-- ==== Sys2Proof/Machine/Tasks.lean ====
section
/-! DEFINITION. Tasks, cancellation and launches from the device side (14 R370 to R379). -/

namespace Sys2Proof.Machine

/-- A 64-byte record at s[SA] read as one load (R372, R379). -/
def readRecord (a : Src) : M Nat := do
  let va := (← readS a).toNat % 2 ^ 56
  if va % 64 ≠ 0 then stopTrap (misaligned kRead va 0)
  let c ← myCtx
  let (_, p) ← resolve c .l1 kRead va 64 0
  loadBytes c p 64 false kRead va 0

/-! spawn (R372, R375). -/

/-- A task record that `spawn` turns away. -/
def taskBad (r : Nat) : Bool :=
  fieldAt r 0x3A 6 != 0 || decide (7 < fieldAt r 0x38 1) || fieldAt r 0x39 1 == 0 || decide (4 < fieldAt r 0x39 1)

/-- The task that a record of a spawner on core c makes. -/
def taskOf (launch : Nat) (q : Seq) (core r : Nat) : Task :=
  { launch := launch, die := core / 48, core := core, entry := BitVec.ofNat 56 (fieldAt r 0 8),
    args := (List.range 6).map (fun i => BitVec.ofNat 64 (fieldAt r (8 + 8 * i) 8)), prio := fieldAt r 0x38 1,
    place := fieldAt r 0x39 1, wid := q.wid }

/-- `spawn`: the request is sent, and the sequencer waits for the answer in p[D]. -/
def execSpawn (o : RArgs) (s : State) : Result :=
  execNext (do
    match (← mySeq).wait with
    | some (.spawn k) => stopWait (.spawn k)
    | _ =>
      let r ← readRecord o.sa
      let q ← mySeq
      match q.launch, q.work with
      | some l, some _ =>
        if taskBad r then writeP o.d false
        else
          release .dev
          let s ← get
          set { s with
            spawns := NMap.set s.spawns s.nextSpawn ⟨s.cur, q.uid, o.d, q.group, taskOf l q (coreOf s.cur) r⟩
            nextSpawn := s.nextSpawn + 1 }
          stopWait (.spawn s.nextSpawn)
      | _, _ => writeP o.d false) s

/-- The Hive's answer reaches the spawner, if it still waits. -/
def answerSpawn (k : Nat) (r : SpawnReq) (ok : Bool) : M Unit := do
  let q := (← get).seq r.seq
  if q.uid = r.uid && q.live && q.wait == some (.spawn k) then
    onBehalf r.seq (do
      writeP r.d ok
      passWait)

/-- SPAWN_ARRIVAL (R375): the Hive takes the oldest request of its die. -/
def execSpawnArrival (s : State) : Result :=
  match s.input with
  | .spawnArrival die =>
    execAgent (do
      let s ← get
      match s.spawns.find? (fun x => x.2.task.die == die) with
      | some (k, r) =>
        let s := { s with spawns := NMap.erase s.spawns k }
        let t := r.task
        let marked := s.marks.any (fun m => m.1 == die && m.2 == r.group)
        match marked || decide (1024 ≤ s.tasksOf t.launch die), NMap.get? s.launches t.launch with
        | false, some l =>
          set { s with tasks := NMap.set s.tasks s.nextTask { t with prio := Min.min t.prio l.prio }, nextTask := s.nextTask + 1 }
          answerSpawn k r true
        | _, _ =>
          set s
          answerSpawn k r false
          modify (finishCancel r.group)
      | none => pure ()) s
  | _ => .next s.tick

/-! cancel (R373, R374). -/

/-- Whether a group holds a launch, task, reservation or sequencer of a tenant. -/
def State.groupHolds (s : State) (tenant g : Nat) : Bool :=
  s.launches.any (fun x => x.2.group == g && x.2.ctx.tenant == tenant) ||
  s.seqs.any (fun x => x.2.live && x.2.group == g && x.2.tenant == tenant) ||
  s.saved.any (fun x => x.2.q.group == g && x.2.q.tenant == tenant) ||
  s.resvs.any (fun x => x.2.group == some g && x.2.tenant == tenant)

/-- `cancel`: the group is given to the Hives, and the issuer waits for the four reclaims. -/
def execCancel (o : RArgs) (s : State) : Result :=
  execNext (do
    let a ← readS o.sa
    needWritable .scalar o.d
    let q ← mySeq
    match q.wait with
    | some (.cancel g) =>
      if (← get).cancels.any (fun c => c.1 == g) then stopWait (.cancel g)
      writeLong o.d 0
      acquire .dev
    | _ =>
      let s ← get
      let g := if a = 0 then q.group else groupKey q.tenant a.toNat
      if g = 0 || (!s.groupHolds q.tenant g && !s.marks.any (fun m => m.2 == g)) then writeLong o.d (BitVec.ofNat 64 (2 ^ 63 + 1))
      else
        release .dev
        modify fun s => { s with cancels := s.cancels ++ [(g, dieOf s.cur)] }
        stopWait (.cancel g)) s

/-- The context of a pre-empted sequencer's own accesses. -/
def Saved.ctx (x : Saved) : Ctx := ⟨x.seq, coreOf x.seq, x.q.priv, x.q.xlroot, x.q.asid, x.q.tenant, x.q.resvid⟩

/-- The release at dev of a pre-empted sequencer that ends as by `halt` (R348, R376), by the core that it ran on. -/
def releaseSaved (x : Saved) : M Unit := do
  let c := coreOf x.seq
  modify (drainCore c)
  match (← get).unacked c with
  | some p => stopWait (.held (4 * p.word))
  | none => modify (releaseL1 c .dev)

/-- A pre-empted sequencer ends where it stands: its barriers departed, its parent told. -/
def endSaved (k code : Nat) : M Unit := do
  match NMap.get? (← get).saved k with
  | some x =>
    forEach x.q.bars fun b => departLate ⟨x.ctx, b.2.va.toNat, b.2.phase⟩
    modify fun s =>
      let s := noteChildEnd x.q.parent x.q.uid code { s with saved := NMap.erase s.saved k }
      let s := match x.q.launch with
        | some l => s.modLaunch l (·.noteEnd code)
        | none => s
      endWork x.q.work s
  | none => pure ()

/-- What a launch of a marked group loses. -/
def Launch.cancel (l : Launch) : Launch :=
  { l with unstarted := NMap.mapVals l.unstarted (fun _ _ => []), stages := l.stages.map (fun t => { t with recs := [] }), cancelled := true }

/-- Tile-task records stop between row groups and report to no one: their words not yet written are released (R167, R325). -/
def dropTiles (p : TileRec → Bool) (s : State) : State :=
  let s := ((s.tiles.filter (fun x => p x.2)).map (fun x => x.2.running.map (·.cmd))).flatten.foldl (fun s n => releaseEngine n s) s
  { s with tiles := s.tiles.filter (fun x => !p x.2) }

/-- Whether a launch is of a group. -/
def State.launchIn (s : State) (g k : Nat) : Bool := (NMap.get? s.launches k).any (fun l => l.group == g)

/-- A Hive reclaims the members of a group on its die (R374). -/
def reclaimGroup (die g : Nat) : M Unit := do
  let s ← get
  forEach ((s.seqs.filter (fun x => dieOf x.1 == die && x.2.live && x.2.launch.isSome && x.2.group == g)).map (·.1)) cancelSeq
  forEach ((s.saved.filter (fun x => dieOf x.2.seq == die && x.2.q.group == g)).map (·.1)) fun k => endSaved k 3
  modify fun s => dropTiles (fun r => r.die == die && s.launchIn g r.launch) s
  modify fun s =>
    { s with
      tasks := s.tasks.filter (fun x => !(x.2.die == die && s.launchIn g x.2.launch))
      launches := NMap.mapVals s.launches (fun _ l => if l.die = die && l.group = g then l.cancel else l) }
  modify fun s => ((s.resvs.filter (fun x => x.1 / 1024 == die && x.2.group == some g)).map (·.1)).foldl (fun s id => freeResv id s) s

def Work.launch : Work → Nat
  | .item l _ | .worker l _ _ | .task l _ _ => l

/-- The launches of a group that have ended report. Work whose sequencers were lost with their core (R419) is over. -/
def completeGroup (g : Nat) : M Unit := do
  modify fun s => { s with works := s.works.filter (fun w => !s.launchIn g w.2.launch || s.workLives w.1) }
  forEach (((← get).launches.filter (fun x => x.2.group == g)).map (·.1)) fun k => tryCatch (completeLaunch k) fun _ => pure ()

/-- CANCEL_MARK (R373, R374): the issuer's Hive marks first. -/
def execCancelMark (s : State) : Result :=
  match s.input with
  | .cancelMark die g =>
    execAgent (do
      let s ← get
      if die < 4 && !s.marks.any (fun m => m == (die, g)) &&
          s.cancels.any (fun c => c.1 == g && (c.2 == die || s.marks.any (fun m => m == (c.2, g)))) then
        set { s with marks := s.marks ++ [(die, g)] }
        reclaimGroup die g
        completeGroup g
        modify (finishCancel g)) s
  | _ => .next s.tick

/-! done (R376). -/

/-- `done`: every other sequencer of the work ends with code 0, and this one as by `halt`. -/
def execDone (_o : RArgs) (s : State) : Result :=
  execSeq (do
    needCommandsDone
    release .dev
    let n ← me
    let q ← mySeq
    match q.work with
    | some w =>
      forEach ((← get).saved.filter (fun x => x.2.q.work == some w)) fun x => releaseSaved x.2
      modify fun s =>
        { s with seqs := NMap.mapVals s.seqs (fun m k =>
            if m ≠ n && k.work = some w && k.phase = .running then k.endAt 0 else k) }
      forEach (((← get).saved.filter (fun x => x.2.q.work == some w)).map (·.1)) fun k => endSaved k 0
    | none => pure ()
    endSeq 0
    return .stopped) s

/-! launch (R378). -/

/-- `launch`. -/
def execLaunch (o : RArgs) (s : State) : Result :=
  execNext (do
    needWritable .scalar o.d
    let v ← readRecord o.sa
    release .dev
    let s ← get
    let die := dieOf s.cur
    let k ← submitLaunch (hiveCtx die (s.ctx s.cur)) die (s.seq s.cur).group v
    writeLong o.d (BitVec.ofNat 64 (if k = 0 then 0 else 2 ^ 63 + k))) s

end Sys2Proof.Machine
end

