-- ==== Sys2Proof/Machine/Tiles.lean ====
section
/-! DEFINITION. Tile-task records (12 R321 to R326): steps issue to engines, several at once, and run there by row groups, a group a turn,
between which they may move; the record completes or stops. -/

namespace Sys2Proof.Machine

/-! The operator parameter block (R59, R321). `v`: its 256 bytes as a number. -/

def opbCount (v l : Nat) : Nat := fieldAt v (8 + 16 * l) 2

/-- The COUNTs of a block. -/
def opbCounts (v : Nat) : List Nat := (List.range (Min.min (fieldAt v 0 1) 6)).map (opbCount v)

/-- A signed word of LEVEL l at an offset in it, and of its EPI entry. -/
def levelWord (v l off : Nat) : Int := sext 32 (fieldAt v (8 + 16 * l + off) 4)
def epiHalf (v l off : Nat) : Int := sext 16 (fieldAt v (0xD0 + 8 * l + off) 2)
def epiWord (v l off : Nat) : Int := sext 32 (fieldAt v (0xD0 + 8 * l + off) 4)

def opbCfg (v : Nat) : Cfg := Cfg.of (BitVec.ofNat 512 (fieldAt v 0x90 64))

/-- What R325 refuses in any read of a block, for the COUNTs that the record goes by. -/
def opbBad (v : Nat) (counts : List Nat) : Bool :=
  counts == [] || counts.any (· == 0) || fieldAt v 1 3 != 0 || fieldAt v 0x88 8 != 0 ||
  (List.range 6).any (fun l => fieldAt v (8 + 16 * l + 2) 2 != 0 || (decide (counts.length ≤ l) && fieldAt v (0xD0 + 8 * l) 8 != 0)) ||
  fieldAt v 4 4 != 64 * (opbCfg v).kb || (opbCfg v).reason.isSome

/-- What R325 refuses in the first step's read besides. -/
def opbBadFirst (v : Nat) (starts : List Nat) : Bool :=
  let counts := opbCounts v
  fieldAt v 0 1 == 0 || decide (6 < fieldAt v 0 1) ||
  starts.zipIdx.any (fun x => match counts[x.2]? with
    | some n => decide (n ≤ x.1)
    | none => x.1 != 0)

/-! The walk of iteration vectors (R322). -/

/-- The place of a vector among all, level 0 outermost. -/
def vectorIndex (counts v : List Nat) : Nat := (counts.zip v).foldl (fun acc x => acc * x.1 + x.2) 0

/-- The vector at a place. -/
def vectorAt : List Nat → Nat → List Nat
  | [], _ => []
  | n :: ns, i => (i / product ns % n) :: vectorAt ns (i % product ns)

/-- Steps of a record. -/
def TileRec.total (r : TileRec) (counts : List Nat) : Nat := product counts - vectorIndex counts r.starts

/-- The vector of step j. -/
def TileRec.vector (r : TileRec) (counts : List Nat) (j : Nat) : List Nat := vectorAt counts (vectorIndex counts r.starts + j)

/-- Σ i_l·stride_l. -/
def strideSum (v : List Nat) (stride : Nat → Int) : Int := v.zipIdx.foldl (fun acc x => acc + (x.1 : Int) * stride x.2) 0

def moved (base : Nat) (by' : Int) : Nat := (((base : Int) + by') % (2 ^ 56 : Nat)).toNat

/-- The addresses of a step: operands and scales, C, BIAS. -/
def stepAddrs (v : Nat) (vec : List Nat) : StepAddrs × Nat × Nat :=
  let c := opbCfg v
  let sb := if fieldAt v 0x80 8 = 0 then c.bsc else fieldAt v 0x80 8
  ({ a := moved (fieldAt v 0x68 8) (strideSum vec (levelWord v · 4)), b := moved (fieldAt v 0x70 8) (strideSum vec (levelWord v · 8)),
     asc := moved c.asc (16 * strideSum vec (epiHalf v · 0)), bsc := moved sb (16 * strideSum vec (epiHalf v · 2)) },
   moved (fieldAt v 0x78 8) (strideSum vec (levelWord v · 12)),
   if c.bias = 0 then 0 else moved c.bias (strideSum vec (epiWord v · 4)))

/-! A step (R323). -/

/-- Why a step stops: cause and VA. -/
abbrev StepStop := Nat × Nat

/-- What the groups of a step work with: where its operands, its bias array and its tile lie. -/
structure TileJob where
  cfg : Cfg
  addrs : StepAddrs
  dst : Nat
  biasVa : Nat
  a : MatOperand
  b : MatOperand
  bias : Option Nat
deriving DecidableEq, Repr

/-- A step stops with status 0xF0. -/
def refuseStep {α : Type} : M α := stopTrap { cause := 0xF0, tval := 0 }

/-- The operands and BIAS of a step of block v at a vector, checked on the engine of ctx's core: as the step issues (R323), and where it
goes on after other work of that engine. -/
def tileChecks (ctx : Ctx) (v : Nat) (vec : List Nat) : M TileJob := do
  let (x, dst, bias) := stepAddrs v vec
  let c := opbCfg v
  let s ← get
  match stepOperands s ctx.core ctx.tenant c x, biasRange s ctx.core ctx.tenant bias with
  | .error f, _ => throwStep f
  | _, .error f => throwStep f
  | .ok (a, b), .ok loc =>
    match loc with
    | some l => modify (settleScratch ((l - scratchBase) / 2 ^ 20) l 256)
    | none => pure ()
    return ⟨c, x, dst, bias, a, b, loc⟩

/-- The rows of a step's tile in memory: the VA of each, with bytes that stand for its own. -/
def TileJob.rows (j : TileJob) : List (Nat × List Byte) :=
  let len := 64 * ((ofmtOf j.cfg).width / 8)
  (List.range 64).map (fun (i : Nat) => (moved j.dst ((i : Int) * (j.cfg.cpitch : Int)), List.replicate len (0 : Byte)))

/-- The words of one row of a tile in memory are registered under the step's number as it issues (R166, R323): the page is had first, and a
race is reported (R169; log 71). -/
def claimRow (ctx : Ctx) (leaves : NMap Leaf) (t : TileStep) (i : Nat) (run : Nat × List Byte) : M TileStep := do
  if t.failAt.isSome then return t
  match ← catchPerforming (do
      let places ← drainPlaces ctx leaves run
      return (places, ← rowReady ctx (some t.cmd) true places run)) with
  | .error (k, va) => return { t with failAt := some (i, k, va) }
  | .ok (places, row) =>
    forEach row fun x => claimDest t.cmd x.1
    return { t with pages := places.foldl (fun l x => NMap.set l x.1 x.2) t.pages }

/-- What a step's destination needs as it issues: its pages in memory translated (R101) and its words registered. -/
def claimTile (ctx : Ctx) (j : TileJob) (t : TileStep) : M TileStep := do
  if inWindow j.dst then return t
  if drainRefused j.cfg ctx.core 0 8 j.dst then refuseStep
  let leaves ← drainTranslate ctx (ofmtCode j.cfg) j.rows
  j.rows.zipIdx.foldlM (fun t x => claimRow ctx leaves t x.2 x.1) t

/-- The pages of a row where they lie now: one discarded since the step issued is had again, as for any store (R117). -/
def rowPages (ctx : Ctx) (t : TileStep) (run : Nat × List Byte) : M (NMap Place) :=
  (touchedPages run.2.length [run.1]).foldlM (fun acc (p, va) => do
    let x := NMap.getD t.pages p { loc := 0 }
    if (← get).discarded ctx.tenant x then
      let l ← translate ctx .engine kWrite va 1 0
      return NMap.set acc p (pagePlace l va (← placeOf ctx .engine kWrite va 1 0 3 l))
    else return NMap.set acc p x) []

/-- The rows of a group written in memory, up to the one that could not be registered. -/
def tileMemory (ctx : Ctx) (t : TileStep) (runs : List (Nat × List Byte)) : M (Nat × Option (Nat × Nat)) := do
  let n := match t.failAt with
    | some (i, _, _) => i - 8 * t.group
    | none => 8
  let ready (run : Nat × List Byte) : M (List (Place × List Byte)) := do
    modify (noteRequest ctx run.2.length)
    rowReady ctx (some t.cmd) false (← rowPages ctx t run) run
  match ← drainMemory (some t.cmd) ready (runs.take n) with
  | (k, none) => return (k, if n < 8 then t.failAt.map (·.2) else none)
  | r => return r

/-- The rows of the step's next group computed, then drained as by `mdrain.mem` with n = 8: its flags. -/
def tileGroup (ctx : Ctx) (j : TileJob) (t : TileStep) : M Flags := do
  let g := t.group
  modify (settleOperands j.a j.b)
  let s ← get
  match groupBad s j.a j.b j.addrs g with
  | some va => stopTrap (xtrap 0x28 0 kRead va 0)
  | none => pure ()
  let (l, f) := rowGroup (stepMemory s j.a j.b) j.a j.b g []
  let dst := moved j.dst ((8 * g : Nat) * (j.cfg.cpitch : Int))
  if drainRefused j.cfg ctx.core (8 * g) 8 dst then refuseStep
  if inWindow j.dst then needScratch ctx dst
  let (runs, f') := drainRows s j.cfg j.bias l (8 * g) 8 dst j.cfg.cpitch
  match (← drainRun ctx.core j.bias j.biasVa j.dst (tileMemory ctx t) runs).2 with
  | some (k, va) => stopTrap (xtrap k 0 kWrite va 0)
  | none => return f ||| f'

/-! Issue, and where steps run (R323, R324, R360). -/

/-- A core whose cluster or die is closed to new work. -/
def State.closedTo (s : State) (core : Nat) : Bool := (s.cluster (core / 8)).closed || (s.die (core / 48)).closed

/-- Whether the engine of a core may work on a record: it is in service and within PLACE of the submitting core (R324). -/
def State.tileReach (s : State) (r : TileRec) (core : Nat) : Bool :=
  s.powered && decide (core < coreCount) && (s.core core).inService && agentOf r.place (4 * core) == agentOf r.place (4 * r.ctx.core)

/-- Whether it may begin to: a record comes to no core of a closed cluster or die on which none of its steps has run (R469). -/
def State.tileRoom (s : State) (r : TileRec) (core : Nat) : Bool := s.tileReach r core && (!s.closedTo core || core ∈ r.ran)

/-- Whether the next step of a record may issue on a core's engine. -/
def State.mayIssue (s : State) (r : TileRec) (core : Nat) : Bool :=
  let tags := NMap.getD s.tags (4 * r.launch + r.die) []
  s.tileRoom r core && r.stop.isNone && r.counts.all (fun c => decide (r.next < r.total c)) && r.waits.all (fun t => t ∈ tags)

/-- The step of a record that is on a core's engine. -/
def TileRec.stepOn (r : TileRec) (core : Nat) : Option TileStep := r.running.find? (fun t => t.core == core)

/-- Whether the engine of a core can go on with a record: with the step that is on it, with one that another engine leaves between row
groups (R323), or with the next one. -/
def State.tileReady (s : State) (r : TileRec) (core : Nat) : Bool :=
  ((r.stepOn core).isSome && s.tileReach r core) || (r.running != [] && s.tileRoom r core) || s.mayIssue r core

/-- A record changed. -/
def State.modTile (s : State) (k : Nat) (f : TileRec → TileRec) : State :=
  match NMap.get? s.tiles k with
  | some r => { s with tiles := NMap.set s.tiles k (f r) }
  | none => s

/-- A step of a record stops on a core: it is under way no more, and no later step issues. Of several the first in the walk is reported. -/
def TileRec.stopAt (r : TileRec) (st : StepStop) (i core : Nat) : TileRec :=
  { r with
    running := r.running.filter (fun t => t.index != i)
    last := some core
    stop := match r.stop with
      | some (k, j, va) => if j ≤ i then some (k, j, va) else some (st.1, i, st.2)
      | none => some (st.1, i, st.2) }

/-- A step under way stops: its words not yet written are released (R167). -/
def stopStep (k : Nat) (t : TileStep) (st : StepStop) (s : State) : State :=
  releaseEngine t.cmd (s.modTile k (·.stopAt st t.index t.core))

/-- The context of a record's accesses on a core's engine. -/
def TileRec.ctxOn (r : TileRec) (core : Nat) : Ctx := { r.ctx with core := core, seq := seqCount }

/-- The next step of a record issued on a core (R321, R323): its block read, its checks made, its words registered. -/
def issueTile (k : Nat) (r : TileRec) (core : Nat) : M Unit := do
  let ctx := r.ctxOn core
  let n := (← get).nextCmd
  let stop (st : StepStop) : M Unit := modify fun s => releaseEngine n (s.modTile k (·.stopAt st r.next core))
  let block ← catchTrap (do
    let (_, p) ← resolve ctx .engine kRead r.opb 256 0
    loadBytes ctx { p with cp := 2 } 256 false kRead r.opb 0)
  match block with
  | .error st => stop st
  | .ok v =>
    let counts := r.counts.getD (opbCounts v)
    if opbBad v counts || (r.counts.isNone && opbBadFirst v r.starts) then stop (0xF0, 0)
    else
      let t : TileStep := { index := r.next, cmd := n, core := core, block := v }
      match ← catchTrap (do claimTile ctx (← tileChecks ctx v (r.vector counts r.next)) t) with
      | .error st =>
        modify fun s => s.modTile k fun r => { r with counts := some counts }
        stop st
      | .ok t => modify fun s =>
          { (s.modTile k fun r => { r with counts := some counts, next := r.next + 1, running := r.running ++ [t],
                                           ran := if core ∈ r.ran then r.ran else r.ran ++ [core] }) with nextCmd := n + 1 }

/-- A step's group is done: with the last one the step is. -/
def TileRec.groupDone (r : TileRec) (t : TileStep) (f : Flags) : TileRec :=
  let r := { r with flags := r.flags ||| f, ran := if t.core ∈ r.ran then r.ran else r.ran ++ [t.core] }
  if t.group < 7 then { r with running := r.running.map (fun u => if u.index = t.index then { t with group := t.group + 1 } else u) }
  else { r with running := r.running.filter (fun u => u.index != t.index), steps := r.steps + 1, last := some t.core }

/-- The next row group of a step under way, on the engine of t's core. -/
def runGroup (k : Nat) (r : TileRec) (t : TileStep) : M Unit := do
  let ctx := r.ctxOn t.core
  match ← catchTrap (do tileGroup ctx (← tileChecks ctx t.block (r.vector (r.counts.getD []) t.index)) t) with
  | .ok f => modify fun s => s.modTile k (·.groupDone t f)
  | .error st => modify (stopStep k t st)

/-- A turn of a core's engine for a record: the step on it goes on by a row group; else one of the record's other steps is resumed on it, or
the next one issues, as the Hive chooses. -/
def runTile (k : Nat) (r : TileRec) (core : Nat) : M Unit := do
  match r.stepOn core with
  | some t => runGroup k r t
  | none =>
    let s ← get
    let steps := if s.tileRoom r core then r.running.map (·.index) else []
    match ← pickFree (steps ++ if s.mayIssue r core then [r.next] else []) with
    | none => pure ()
    | some i =>
      match r.running.find? (fun t => t.index == i) with
      | some t => runGroup k r { t with core := core }
      | none => issueTile k r core

/-- TILE_STEP_ISSUE: a record's PRIO orders it against the others that could use the engine. What must wait leaves nothing done. -/
def execTileStepIssue (s : State) : Result :=
  match s.input with
  | .tileStepIssue k core =>
    execAgent (do
      let s ← get
      match NMap.get? s.tiles k with
      | some r =>
        if s.tileReady r core && !s.tiles.any (fun x => s.tileReady x.2 core && decide (r.prio < x.2.prio)) then
          allOrWait (runTile k r core)
      | none => pure ()) s
  | _ => .next s.tick

/-! The end of a record (R324 to R326). -/

/-- A record posted to the sequencer of an identity, wherever it is held. -/
def postUid (uid : Nat) (rec : BitVec 256) (s : State) : State :=
  match s.seqOf uid with
  | some n => s.postSeq n rec
  | none => { s with saved := NMap.mapVals s.saved (fun _ x =>
      if x.q.uid = uid then { x with q := { x.q with evq := x.q.evq.post 16 rec } } else x) }

/-- The completion record. SRC where no step has issued is not stated (log 41). -/
def TileRec.record (r : TileRec) (src status index va : Nat) : BitVec 256 :=
  Record.bits
    { kind := 4, status := status, src := src, utag := r.utag, count := r.steps,
      payload := BitVec.ofNat 128 (r.flags.toNat + index % 2 ^ 32 * 2 ^ 32 + va % 2 ^ 56 * 2 ^ 64) }

/-- A record reports and is gone. -/
def reportTile (k : Nat) (r : TileRec) (status index va : Nat) : M Unit := do
  let src ← match r.last with
    | some c => pure c
    | none => do pure (Config.choice (← freshFree) % 65536)
  modify fun s => postUid r.uid (r.record src status index va) { s with tiles := NMap.erase s.tiles k }

/-- TILE_RECORD_COMPLETE: every step is done and its writes stand at their homes; the tags are set, then the record is posted. -/
def execTileRecordComplete (s : State) : Result :=
  match s.input with
  | .tileRecordComplete k =>
    execAgent (do
      match NMap.get? (← get).tiles k with
      | some r =>
        match r.stop, r.counts with
        | none, some c =>
          if r.running = [] && r.total c ≤ r.next then
            modify fun s => { s with tags := NMap.modify s.tags (4 * r.launch + r.die) [] (fun l => l ++ r.sigs.filter (fun t => !(t ∈ l))) }
            reportTile k r 0 r.steps 0
        | _, _ => pure ()
      | none => pure ()) s
  | _ => .next s.tick

/-- TILE_STEP_STOP: a stopped record reports once its steps in flight have ended. An uncorrectable or fabric error that strikes a step in its
engine is an input; which of several it strikes is the device's doing (log 33). -/
def execTileStepStop (s : State) : Result :=
  match s.input with
  | .tileStepStop k cause va =>
    execAgent (do
      match NMap.get? (← get).tiles k with
      | some r =>
        match r.running, r.stop with
        | [], some (status, index, va) => reportTile k r status index va
        | [], none => pure ()
        | l, _ =>
          if cause = 0x28 || cause = 0x29 then
            let i ← pickFree (l.map (·.index))
            match l.find? (fun t => some t.index == i) with
            | some t => modify (stopStep k t (cause.toNat, va))
            | none => pure ()
      | none => pure ()) s
  | _ => .next s.tick

end Sys2Proof.Machine
end

