-- ==== Sys2Proof/Machine/Service.lean ====
section
/-! DEFINITION. Cores lost and repaired (17 R419, R420), the mailbox (23 R469), and keys (20 R448). -/

namespace Sys2Proof.Machine

/-! Cores out of service. -/

/-- The sequencers of a core are lost with it. -/
def loseSeqs (c : Nat) (s : State) : State :=
  (upFrom (4 * c) 4).foldl (fun s n =>
    let q := s.seq n
    if q.live then leaveCluster (clusterOf n) q.launch (s.setSeq n {}) else s.setSeq n {}) s

/-- A core leaves service without its write-back: its registered words are lost, and the homes poison them (R171, R419). -/
def loseCore (failed : Bool) (c : Nat) (s : State) : State :=
  let s := ((s.core c).l1.map (·.1)).foldl (fun s l => loseLine c l s) (drainReg c s)
  let s := loseSeqs c s
  s.modCore c fun k => { inService := false, failed := failed, epoch := k.epoch, spOwner := k.spOwner }

/-- A core enters service empty (R420). -/
def freshCore (c : Nat) (s : State) : State :=
  { s with mem := s.mem.clear (scratchLoc c 0) (2 ^ 20) }.setCore c { epoch := (s.core c).epoch, spOwner := (s.core c).spOwner }

/-- A core is re-enabled: a failed one by its cluster's spare, if that is unused (R420). True when it is in service. -/
def enableCore (c : Nat) (s : State) : Bool × State :=
  let k := s.core c
  if k.inService then (true, s)
  else if !k.failed then (true, freshCore c s)
  else if (s.cluster (c / 8)).spareUsed then (false, s)
  else (true, (freshCore c s).modCluster (c / 8) fun x => { x with spareUsed := true })

/-- CORE_FAILURE (R419). -/
def execCoreFailure (s : State) : Result :=
  match s.input with
  | .coreFailure c => execAgent (modify fun s => if c < coreCount then loseCore true c s else s) s
  | _ => .next s.tick

/-- A registered word whose home is lost: its owner's copy goes with it (R171). -/
def loseWord (w : Nat) (s : State) : State :=
  match s.ownerOf w with
  | some (.core c) => (poisonWord c w s).modCore c (·.dropL1Word w)
  | _ => s

/-- A die that no transfer reaches leaves service: its cores are lost, and its homes poison every registered word (R430). Registrations on
their way come first. -/
def loseDie (d : Nat) (s : State) : State :=
  let s := (s.cores.map (·.1)).foldl (fun s c => drainReg c s) s
  let s := (upFrom (48 * d) 48).foldl (fun s c => if (s.core c).inService then loseCore false c s else s) s
  let s := (s.lines.filter (fun x => s.home (128 * x.1) / 40 == d)).foldl (fun s x =>
    (upFrom (32 * x.1) 32).foldl (fun s w => loseWord w s) s) s
  { s with unreachable := s.unreachable ++ [d] }.modDie d fun k => { k with inService := false }

/-! Keys (R448, R462), and the access table (R446). -/

/-- Copies that carry a key id leave the chip: their lines of HBM are written home under the old key and dropped. -/
def flushKey (slot : Nat) (s : State) : State :=
  s.cores.foldl (fun s x =>
    let s := drainReg x.1 s
    (((s.core x.1).l1.filter (fun l => l.2.key == slot && isHbm (128 * l.1))).map (·.1)).foldl (fun s l =>
      (writeHomeLine x.1 l false s).modCore x.1 (·.dropHeld l)) s) s

def eraseKey (slot : Nat) (s : State) : State :=
  if slot < 2048 then { flushKey slot s with keys := NMap.erase s.keys slot } else s

/-- A key loaded inside a secured session (R462). Copies under a key that is replaced leave the chip first (log 92). -/
def loadKey (slot tenant : Nat) (key : BitVec 512) (s : State) : State :=
  if s.mgmt.session && slot < 2048 then
    { flushKey slot s with keys := NMap.set s.keys slot { mat := .loaded key, owner := tenant } }
  else s

/-- A window as the access table holds it: reserved bits read 0 (R446). -/
def windowBits (w : BitVec 128) : BitVec 128 := w &&& ((1 : BitVec 128) <<< 127 ||| ((1 : BitVec 128) <<< 93 - 1))

/-- A window loaded for a device gives it again what a lease's deadline took (R128; log 124). -/
def State.lift (s : State) (w : BitVec 128) : State :=
  if w.getLsbD 127 && (w.extractLsb' 91 2).toNat == 2 then
    let lo := (w.extractLsb' 0 36).toNat * 65536
    s.unbar (w.extractLsb' 75 16).toNat lo ((w.extractLsb' 36 36).toNat * 65536 + 65536 - lo)
  else s

/-- A window written (R446), with the status. -/
def writeWindow (i : Nat) (w : BitVec 128) (s : State) : Nat × State :=
  if i < 4096 then (0, { s.lift (windowBits w) with windows := NMap.set s.windows i (windowBits w) }) else (1, s)

/-! Requests during a restart (R463). -/

/-- A request that has waited for the end of a restart. -/
def performHeld (s : State) (i : Input) : State :=
  match i with
  | .mailboxAccessTableWrite i w =>
    let (st, s) := writeWindow i w s
    { s with answer := .status st }
  | .keySlotErase slot => eraseKey slot s
  | .keySlotLoad slot tenant key => loadKey slot tenant key s
  | _ => s

/-- Every request that has waited, in arrival order, before any later one. -/
def flushHeld (s : State) : State := s.mgmt.waiting.foldl performHeld { s with mgmt := { s.mgmt with waiting := [] } }

/-- The request at the port waits. -/
def State.holdRequest (s : State) : State := { s with mgmt := { s.mgmt with waiting := s.mgmt.waiting ++ [s.input] } }

/-! The mailbox (R469). -/

/-- Whether the management core answers (R463). -/
def State.mgmtUp (s : State) : Bool := s.mgmt.restartUntil.all (fun t => decide (t ≤ s.cycle))

/-- A request performed, with its status. While the management core restarts it is busy, or waits. -/
def mailbox (waits : Bool) (f : State → Nat × State) (s : State) : Result :=
  if !s.powered || !s.mgmt.linkUp then .next s.tick
  else if s.mgmtUp then
    let (st, s') := f (flushHeld s)
    .next { s' with answer := .status st }.tick
  else if waits then .next s.holdRequest.tick
  else .next { s with answer := .status 2 }.tick

def unitCores : Agent → List Nat
  | .core n => if n < coreCount then [n] else []
  | .cluster k => if k < 24 then upFrom (8 * k) 8 else []
  | .die d => if d < 4 then upFrom (48 * d) 48 else []

/-- MAILBOX_CLOSE_REOPEN. -/
def execMailboxCloseReopen (s : State) : Result :=
  match s.input with
  | .mailboxCloseReopen unit close =>
    mailbox false (fun s => match unit with
      | .cluster k => if k < 24 then (0, s.modCluster k fun c => { c with closed := close }) else (1, s)
      | .die d => if d < 4 then (0, s.modDie d fun k => { k with closed := close }) else (1, s)
      | .core _ => (1, s)) s
  | _ => .next s.tick

/-- MAILBOX_SERVICE_CHANGE (R419, R420). -/
def execMailboxServiceChange (s : State) : Result :=
  match s.input with
  | .mailboxServiceChange unit enable =>
    mailbox false (fun s =>
      let cores := unitCores unit
      let mark (v : Bool) (s : State) : State := match unit with
        | .die d => s.modDie d fun k => { k with inService := v }
        | _ => s
      if cores = [] then (1, s)
      else if enable then
        let (ok, s) := cores.foldl (fun (r : Bool × State) c =>
          let (b, s) := enableCore c r.2
          (r.1 && b, s)) (true, s)
        (if ok then 0 else 1, mark true s)
      else (0, mark false (cores.foldl (fun s c => if (s.core c).inService then loseCore false c s else s) s))) s
  | _ => .next s.tick

/-- MAILBOX_ACCESS_TABLE_WRITE (R446). -/
def execMailboxAccessTableWrite (s : State) : Result :=
  match s.input with
  | .mailboxAccessTableWrite i w =>
    mailbox true (writeWindow i w) s
  | _ => .next s.tick

/-- MAILBOX_SHARE_TOTAL (R451). -/
def execMailboxShareTotal (s : State) : Result :=
  match s.input with
  | .mailboxShareTotal tenant v =>
    mailbox false (fun s => match tenant with
      | none => if v < 2 ^ 32 then (0, { s with total := v }) else (1, s)
      | some t => if t < 256 && v < 256 then (0, { s with shares := NMap.set s.shares t v }) else (1, s)) s
  | _ => .next s.tick

/-- MAILBOX_MEASUREMENT_EXTEND (R461): MR4 to MR7. -/
def execMailboxMeasurementExtend (s : State) : Result :=
  match s.input with
  | .mailboxMeasurementExtend i d =>
    mailbox false (fun s =>
      if 4 ≤ i && i < 8 then
        (0, { s with mgmt := { s.mgmt with mrs := NMap.set s.mgmt.mrs i (extendMr (NMap.getD s.mgmt.mrs i 0) d) } })
      else (1, s)) s
  | _ => .next s.tick

/-- The number of an image kind, its active slot, and the image there. -/
def kindNo : ImageKind → Nat
  | .management => 0
  | .computeBoot => 1

def Mgmt.active (m : Mgmt) : ImageKind → Nat
  | .management => m.activeMgmt
  | .computeBoot => m.activeBoot

def Mgmt.image (m : Mgmt) (k : ImageKind) (slot : Nat) : Image := NMap.getD m.slots (2 * kindNo k + slot) factoryImage

/-- MAILBOX_SVN_REQUEST (R463): the fused version only rises. -/
def execMailboxSvnRequest (s : State) : Result :=
  match s.input with
  | .mailboxSvnRequest k =>
    mailbox false (fun s =>
      let v := Config.imageSvn (s.mgmt.image k (s.mgmt.active k)).header
      if s.mgmt.svn ≤ v then (0, { s with mgmt := { s.mgmt with svn := v } }) else (1, s)) s
  | _ => .next s.tick

/-- MAILBOX_SUBMISSION_CONTEXT (R367): an XLROOT without its reserved bits (R107), and an ASID. -/
def execMailboxSubmissionContext (s : State) : Result :=
  match s.input with
  | .mailboxSubmissionContext fn xlroot asid =>
    mailbox false (fun s => match NMap.get? s.functions fn with
      | some f => (0, { s with functions := NMap.set s.functions fn { f with submit := some (xlrootValue xlroot, asid.setWidth 16) } })
      | none => (1, s)) s
  | _ => .next s.tick

/-! Key requests (R448, R462). -/

/-- A key request: performed, or held during a restart (R463). -/
def keyRequest (f : State → State) (s : State) : State :=
  if !s.powered then s else if s.mgmtUp then f (flushHeld s) else s.holdRequest

/-- KEY_SLOT_ERASE (R448). -/
def execKeySlotErase (s : State) : Result :=
  match s.input with
  | .keySlotErase slot => execAgent (modify (keyRequest (eraseKey slot))) s
  | _ => .next s.tick

/-- KEY_SLOT_LOAD (R462). -/
def execKeySlotLoad (s : State) : Result :=
  match s.input with
  | .keySlotLoad slot tenant key => execAgent (modify (keyRequest (loadKey slot tenant key))) s
  | _ => .next s.tick

end Sys2Proof.Machine
end

