-- ==== Sys2Proof/Machine/Links.lean ====
section
/-! DEFINITION. The die boundaries (20 R427 to R430): flits, acknowledgements, retraining and failure. A request is performed at its
home in one step of its requester; what crosses a boundary is shown here as flits. -/

namespace Sys2Proof.Machine

def dirKey (src dst : Nat) : Nat := 4 * src + dst

def boundaryKey (a b : Nat) : Nat := 4 * Min.min a b + Max.max a b

def State.boundary (s : State) (a b : Nat) : LinkState := NMap.getD s.linkStates (boundaryKey a b) .up

def State.setBoundary (s : State) (a b : Nat) (x : LinkState) : State :=
  { s with linkStates := NMap.set s.linkStates (boundaryKey a b) x }

def State.dir (s : State) (src dst : Nat) : LinkDir := NMap.getD s.linkDirs (dirKey src dst) {}

def State.setDir (s : State) (src dst : Nat) (d : LinkDir) : State := { s with linkDirs := NMap.set s.linkDirs (dirKey src dst) d }

/-- Two different dies. -/
def diePair (a b : Nat) : Bool := decide (a < 4) && decide (b < 4) && a != b

/-- Whether a boundary can be used for a hop. -/
def State.hopUp (s : State) (a b : Nat) : Bool :=
  match s.boundary a b with
  | .up => true
  | _ => false

/-- Whether a boundary is in service, if only retraining. -/
def State.hopServes (s : State) (a b : Nat) : Bool :=
  match s.boundary a b with
  | .out => false
  | _ => true

/-- The other two dies, lower first. -/
def othersOf (a b : Nat) : List Nat := (List.range 4).filter (fun d => d != a && d != b)

/-- The next die on the way from a to b: b itself, or the lowest other die that both hops reach (R429). -/
def State.hop (s : State) (a b : Nat) : Option Nat :=
  if s.hopUp a b then some b else (othersOf a b).find? (fun c => s.hopUp a c && s.hopUp c b)

/-- Whether a transfer between two dies has a route: the boundary, or one of the two-hop routes (R430). -/
def State.routed (s : State) (a b : Nat) : Bool :=
  s.hopServes a b || (othersOf a b).any (fun c => s.hopServes a c && s.hopServes c b)

/-- A flit sent on a boundary: it takes the next number and is kept until acknowledged, at most 64 at a time (R428). -/
def LinkDir.send (d : LinkDir) (f : Flit) (cycle : Nat) : LinkDir :=
  { d with next := (d.next + 1) % 65536, unacked := d.unacked ++ [{ flit := { f with num := BitVec.ofNat 16 d.next, crcOk := true }, sent := cycle }] }

/-- Flits of one source die, destination die and class, which keep their order (R428). -/
def sameClass (f g : Flit) : Bool := f.source == g.source && f.dest == g.dest && f.cls == g.cls

/-- Whether a flit of f's class is on its way from die x to die y: unacknowledged, or held there for want of an earlier one. -/
def State.onWay (s : State) (x y : Nat) (f : Flit) : Bool :=
  (s.dir x y).unacked.any (fun g => sameClass g.flit f) || (s.dir x y).held.any (fun g => sameClass g.2 f)

/-- Whether a flit of f's class that is before one at `die` waits at another die x: at their source only those that have come back. -/
def State.waitsAt (s : State) (x : Nat) (f : Flit) : Bool :=
  s.flitsWaiting.any (fun w => w.1 == x && sameClass w.2 f && (x != f.source || w.2.back))

/-- Whether a flit at a die may go on towards c now: there is room, and no earlier one of its class is still on another way, here or at
another die, so that order is kept (R429). -/
def State.mayGo (s : State) (die c : Nat) (f : Flit) : Bool :=
  decide ((s.dir die c).unacked.length < 64) &&
  (List.range 4).all (fun x => x == c || !s.onWay die x f) &&
  (List.range 4).all (fun x => x == die || x == c || x == f.dest ||
    (!s.waitsAt x f && (List.range 4).all (fun y => (x == f.source && y == die) || !s.onWay x y f))) &&
  (c == f.dest || c == f.source || !s.onWay c die f)

/-- Flits that wait at dies go on, oldest first, as far as they may. One for which no route is left is lost (R430). -/
def pushFlits (s : State) : State :=
  s.flitsWaiting.foldl (fun s x =>
    if (s.flitsWaiting.takeWhile (· != x)).any (fun y => y.1 == x.1 && sameClass y.2 x.2) then s
    else
      let gone : State := { s with flitsWaiting := s.flitsWaiting.erase x }
      match s.hop x.1 x.2.dest with
      | some c => if gone.mayGo x.1 c x.2 then gone.setDir x.1 c ((gone.dir x.1 c).send x.2 s.cycle) else s
      | none => if s.routed x.1 x.2.dest then s else gone) s

/-- A flit delivered in order at a die: it has come, or waits to go on towards its destination. One that comes back to its source die is
before those that have not left it. -/
def deliverFlit (die : Nat) (f : Flit) (s : State) : State :=
  if f.dest = die then s
  else if f.source = die then
    let later (w : Nat × Flit) : Bool := w.1 == die && sameClass w.2 f && !w.2.back
    { s with flitsWaiting := s.flitsWaiting.takeWhile (fun w => !later w) ++ (die, { f with back := true }) ::
        s.flitsWaiting.dropWhile (fun w => !later w) }
  else { s with flitsWaiting := s.flitsWaiting ++ [(die, f)] }

/-- Flits that stand next in order are delivered. -/
def drainFlits (src dst : Nat) : Nat → State → State
  | 0, s => s
  | fuel + 1, s =>
    let d := s.dir src dst
    match NMap.get? d.held d.expect with
    | some f => drainFlits src dst fuel (deliverFlit dst f
        (s.setDir src dst { d with expect := (d.expect + 1) % 65536, held := NMap.erase d.held d.expect }))
    | none => s

/-- The acknowledgement a receiver gives: its base, and the flits received from there. -/
def LinkDir.ack (d : LinkDir) : Nat × DWord :=
  (d.expect, d.held.foldl (fun m x =>
    let i := (x.1 + 65536 - d.expect) % 65536
    if i < 64 then m ||| (1 : DWord) <<< i else m) 0)

/-- A receiver acknowledges. -/
def giveAck (src dst : Nat) (s : State) : State :=
  let d := s.dir src dst
  s.setDir src dst { d with acked := some d.ack }

/-- DIE_FLIT_RECEIVE: a flit with a bad CRC is discarded; a duplicate is discarded and acknowledged again. -/
def receiveFlit (src dst : Nat) (f : Flit) (s : State) : State :=
  let d := s.dir src dst
  if !s.hopServes src dst || !f.crcOk then s
  else if 64 ≤ (f.num.toNat + 65536 - d.expect) % 65536 then giveAck src dst s
  else pushFlits (giveAck src dst (drainFlits src dst 65 (s.setDir src dst { d with held := NMap.set d.held f.num.toNat f })))

def execDieFlitReceive (s : State) : Result :=
  match s.input with
  | .dieFlitReceive src dst f => execAgent (modify fun s => if diePair src dst then receiveFlit src dst f s else s) s
  | _ => .next s.tick

/-- A boundary begins to retrain (R429). -/
def retrain (a b : Nat) (s : State) : State :=
  match s.boundary a b with
  | .up => s.setBoundary a b (.retraining s.cycle)
  | _ => s

/-- A flit sent again. The sixteenth failure in a row retrains the boundary (R429). -/
def OutFlit.again (f : OutFlit) (cycle : Nat) : OutFlit := { f with sent := cycle, fails := f.fails + 1 }

def resendFlits (src dst : Nat) (test : OutFlit → Bool) (s : State) : State :=
  let d := s.dir src dst
  let l := d.unacked.map (fun f => if test f then f.again s.cycle else f)
  let s := s.setDir src dst { d with unacked := l }
  if l.any (fun f => decide (16 ≤ f.fails)) then retrain src dst s else s

/-- Place of a flit after an acknowledgement's base. -/
def OutFlit.after (f : OutFlit) (base : Nat) : Nat := (f.flit.num.toNat + 65536 - base) % 65536

/-- DIE_ACK_RECEIVE. -/
def ackFlits (src dst base : Nat) (bitmap : DWord) (s : State) : State :=
  let d := s.dir src dst
  let got (f : OutFlit) : Bool := decide (32768 ≤ f.after base) || bitmap.getLsbD (f.after base)
  let s := s.setDir src dst { d with unacked := d.unacked.filter (fun f => !got f) }
  pushFlits (resendFlits src dst (fun f => (upFrom (f.after base + 1) 64).any bitmap.getLsbD) s)

def execDieAckReceive (s : State) : Result :=
  match s.input with
  | .dieAckReceive src dst base bitmap => execAgent (modify fun s => if diePair src dst then ackFlits src dst (base % 65536) bitmap s else s) s
  | _ => .next s.tick

/-- DIE_RESEND_TIMEOUT: 2,048 cycles after the flit was sent. -/
def execDieResendTimeout (s : State) : Result :=
  match s.input with
  | .dieResendTimeout src dst num =>
    execAgent (modify fun s =>
      if diePair src dst then resendFlits src dst (fun f => f.flit.num.toNat == num && decide (f.sent + 2048 ≤ s.cycle)) s else s) s
  | _ => .next s.tick

/-- DIE_LINK_RETRAIN: the link loses lock. Meanwhile its traffic takes the other route (`State.hop`). A request is performed in one step
of its requester, so that none has a response to lose and none is reissued. -/
def execDieLinkRetrain (s : State) : Result :=
  match s.input with
  | .dieLinkRetrain a b => execAgent (modify fun s => if diePair a b then retrain a b s else s) s
  | _ => .next s.tick

/-- Everything unacknowledged is sent again (R429). -/
def LinkDir.sendAgain (d : LinkDir) (cycle : Nat) : LinkDir :=
  { d with unacked := d.unacked.map (fun f => { f with sent := cycle, fails := 0 }) }

/-- BOUNDARY_RETRAINED. -/
def execBoundaryRetrained (s : State) : Result :=
  match s.input with
  | .boundaryRetrained a b =>
    execAgent (modify fun s =>
      match s.boundary a b with
      | .retraining _ =>
        if diePair a b then
          let s := (s.setBoundary a b .up).setDir a b ((s.dir a b).sendAgain s.cycle)
          pushFlits (s.setDir b a ((s.dir b a).sendAgain s.cycle))
        else s
      | _ => s) s
  | _ => .next s.tick

/-- Boundaries of a die that have left service. -/
def State.lostHops (s : State) (d : Nat) : Nat := ((List.range 4).filter (fun c => c != d && !s.hopServes d c)).length

/-- Flits sent over a boundary and not delivered, in order: those the receiver holds for want of an earlier one, and those it has not
got. -/
def LinkDir.undelivered (d : LinkDir) : List Flit :=
  (upFrom d.expect 128).filterMap (fun i =>
    let n := i % 65536
    (NMap.get? d.held n).or ((d.unacked.find? (fun f => f.flit.num.toNat == n)).map (·.flit)))

/-- Flits of a boundary that has left service go on over the other route; where there is none they are lost. -/
def reroute (src dst : Nat) (s : State) : State :=
  pushFlits { (s.setDir src dst {}) with flitsWaiting := (s.dir src dst).undelivered.map (fun f => (src, f)) ++ s.flitsWaiting }

/-- A die that no transfer reaches leaves service (R430). Where either of two could be the one, the management core takes one
(log 33). -/
def dropUnreachable (a b : Nat) : M Unit := do
  let s ← get
  if !s.routed a b && !(a ∈ s.unreachable) && !(b ∈ s.unreachable) then
    let worst := Max.max (s.lostHops a) (s.lostHops b)
    match ← pickFree ([a, b].filter (fun d => s.lostHops d == worst)) with
    | some d => modify (loseDie d)
    | none => pure ()

/-- DIE_LINK_FAIL: a boundary fails to retrain. -/
def execDieLinkFail (s : State) : Result :=
  match s.input with
  | .dieLinkFail a b =>
    execAgent (do
      if diePair a b && !(← get).hopUp a b && (← get).hopServes a b then
        modify fun s => reroute b a (reroute a b (s.setBoundary a b .out))
        forEach [(0, 1), (0, 2), (0, 3), (1, 2), (1, 3), (2, 3)] fun x => dropUnreachable x.1 x.2) s
  | _ => .next s.tick

end Sys2Proof.Machine
end

