-- ==== Sys2Proof/Machine/Relov.lean ====
section
/-! DEFINITION. The Relov gateway (20 R431 to R441): packets received and their effects, acknowledgements, resending, path failure,
the combining window. Accesses of an agent from outside the device at the homes. -/

namespace Sys2Proof.Machine

/-! An access from outside at its home: a remote device's, or the host's. -/

/-- The words are made ready: what combines there is applied, registered words come home. False where the home refuses, for a word
lost or struck by an error. A word held for an engine holds the access. -/
def outsideReady (loc n : Nat) : M Bool := do
  modify (settleRange loc n)
  let s ← get
  if s.bad loc n then return false
  let ans := (wordsOf loc n).map (fun w => homeCheck none false w s)
  if ans.any (· == .held) then stopWait (.held loc)
  if ans.any (fun a => a == .poisoned || a == .race) then return false
  modify (recallWords (wordsOf loc n))
  return true

/-- The lender entry that a device borrows a place through, if it does (R124). -/
def State.lentTo (s : State) (dev loc n : Nat) : Option LendEntry :=
  (s.lend.find? (fun x => x.2.st != .free && x.2.dev == dev && decide (x.2.base ≤ loc) && decide (loc + n ≤ x.2.base + x.2.pages * 65536))).map
    (·.2)

/-- The key an outside access goes under: the lender's for a leased region (R124), else the one the line was last written under (log
43). -/
def State.outsideMat (s : State) (dev : Option Nat) (loc n : Nat) : KeyMat :=
  match dev.bind (fun d => s.lentTo d loc n) with
  | some e => s.keyMat e.key
  | none => s.lineMat loc

/-- The pieces of a range, cut at lines: offset in the range and length. -/
def lineCuts (loc n : Nat) : List (Nat × Nat) :=
  (upFrom (loc / 128) ((loc + n - 1) / 128 - loc / 128 + 1)).map (fun l =>
    let lo := Max.max loc (128 * l)
    (lo - loc, Min.min (loc + n) (128 * l + 128) - lo))

/-- Bytes written from outside. -/
def outsideWrite (dev : Option Nat) (loc : Nat) (data : List Byte) (s : State) : State :=
  if data = [] then s
  else (lineCuts loc data.length).foldl (fun s x =>
    homeWrite (s.outsideMat dev (loc + x.1) x.2) (loc + x.1) x.2 (leNat ((data.drop x.1).take x.2)) s) s

/-- Bytes read from outside, under the key of the access. -/
def outsideRead (dev : Option Nat) (loc n : Nat) (s : State) : List Byte :=
  ((lineCuts loc n).map (fun x => leBytes x.2 (s.valueUnder (s.outsideMat dev (loc + x.1) x.2) (loc + x.1) x.2))).flatten

/-- An outside AtomicOp: the old value. -/
def outsideAtomic (dev : Option Nat) (loc n : Nat) (f : Nat → Option Nat) (s : State) : Nat × State :=
  let m := s.outsideMat dev loc n
  let s := readyUnder m loc s
  let old := s.valueUnder m loc n
  match f old with
  | some v => (old, homeWrite m loc n v s)
  | none => (old, breakLinks (loc / 128) s)

/-! Requests of a remote device (R437, R447). -/

/-- Whether the gateway lets a device's request through: local HBM, a window for the device, no region lent to another, and none that a
lease's deadline has taken from the device (R128). -/
def State.remoteOk (s : State) (dev loc n kind : Nat) : Bool :=
  isHbm loc && isHbm (loc + n - 1) && s.allowed 2 dev loc n (needOf kind) && (!s.lentOut loc n || (s.lentTo dev loc n).isSome) &&
  !s.barred.any (fun b => b.1 == dev && decide (b.2.1 < loc + n) && decide (loc < b.2.1 + b.2.2))

def dieOfPa (pa : Nat) : Nat := pa / 2 ^ 37 % 4

/-- DONE (R435), with a refusal or without (R437). -/
def sendDone (dev : Nat) (tag : Word) (pa : Nat) (refused : Bool) (s : State) : State :=
  sendPacket dev (flowOf (dieOfPa pa) .rsp) .done tag.toNat 0 (if refused then [1, 0, 0, 0] else []) s

/-- An entry of the combining window is applied and owes nothing more (R440). -/
def applyGw (k : Nat) : M Unit := do
  match (← get).relov.comb[k]? with
  | some e =>
    let n := if e.add then 8 else 16
    let ok ← outsideReady e.pa n
    if ok then
      let f (old : Nat) : Nat := if e.add then (old + e.value) % 2 ^ 64 else (List.range e.value).foldl (fun v _ => arriveAt v) old
      modify fun s => (outsideAtomic none e.pa n (fun v => some (f v)) s).2
    modify fun s => { s with relov := { s.relov with comb := s.relov.comb.eraseIdx k } }
    modify fun s => e.dones.foldl (fun s d => sendDone d.1 d.2 e.pa (!ok) s) s
  | none => pure ()

/-- The first entry that meets a test is applied, as long as there is one. -/
def applyWhere (p : GwEntry → Bool) : Nat → M Unit
  | 0 => return
  | fuel + 1 => do
    match (← get).relov.comb.findIdx? p with
    | some k =>
      applyGw k
      applyWhere p fuel
    | none => pure ()

def GwEntry.overlaps (e : GwEntry) (pa n : Nat) : Bool := decide (e.pa < pa + n) && decide (pa < e.pa + (if e.add then 8 else 16))

/-- An ADD64 or ARRIVE enters the window: merged with its like, after any other entry at the word (R440). -/
def combine (dev : Nat) (tag : Word) (pa : Nat) (add : Bool) (v : Nat) : M Unit := do
  applyWhere (fun e => e.overlaps pa (if add then 8 else 16) && !(e.pa == pa && e.add == add)) 64
  let s ← get
  match s.relov.comb.findIdx? (fun e => e.pa == pa && e.add == add) with
  | some k =>
    let l := s.relov.comb.modify k fun e => { e with value := if add then (e.value + v) % 2 ^ 64 else e.value + v, dones := e.dones ++ [(dev, tag)] }
    set { s with relov := { s.relov with comb := l } }
  | none =>
    if 64 ≤ s.relov.comb.length then applyGw 0
    modify fun s => { s with relov := { s.relov with comb := s.relov.comb ++ [⟨pa, add, v, s.cycle, [(dev, tag)]⟩] } }

/-- RELOV_COMBINE_APPLY. -/
def execRelovCombineApply (s : State) : Result :=
  match s.input with
  | .relovCombineApply k => execAgent (applyGw k) s
  | _ => .next s.tick

/-! Answers to this device's commands. -/

/-- The status of an `arrive.remote` is written (R396). -/
def finishArrive (uid : Nat) (d : Reg) (v : Nat) (s : State) : State :=
  match s.seqOf uid with
  | some n => s.modSeq n fun q => (q.setScalar d (BitVec.ofNat 64 v)).setFull .scalar d
  | none => s

/-- A command of this device loses an answer it waited for: gone when none is left. -/
def answered (tag dev : Nat) (c : RCmd) (s : State) : State :=
  let left := NMap.erase c.left dev
  let cmds := if left = [] then NMap.erase s.relov.cmds tag else NMap.set s.relov.cmds tag { c with left := left }
  { s with relov := { s.relov with cmds := cmds } }

/-- A member refused what an `rcopy` sent it (R437, R439). -/
def refuseCopy (k dev : Nat) (s : State) : State :=
  let s := s.modEngine k fun c => { c with refusedBy := if dev ∈ c.refusedBy then c.refusedBy else c.refusedBy ++ [dev] }
  match NMap.get? s.engines k with
  | some c => if c.dev < 0xFF00 then stopEngine k 0xF4 s else s
  | none => s

/-- DONE arrives (R435). -/
def doneArrives (dev tag : Nat) (refused : Bool) (s : State) : State :=
  match NMap.get? s.relov.cmds tag with
  | some c =>
    if (NMap.get? c.left dev).isNone then s
    else
      let s' := answered tag dev c s
      match c.kind with
      | .data k | .signal k => sendSignals k (if refused then refuseCopy k dev s' else s')
      | .arrive uid d => finishArrive uid d (if refused then 2 ^ 63 + 0xF4 else 0) s'
      | .back _ slot => if refused then leaseLost slot s' else s'
      | .line _ _ _ => s
  | none => s

/-- RELOV_DONE_RECEIVE. -/
def execRelovDoneReceive (s : State) : Result :=
  match s.input with
  | .relovDoneReceive dev tag refused => execAgent (modify (doneArrives dev tag refused)) s
  | _ => .next s.tick

/-- DATA arrives: a line of a lease, or a refusal, which loses it (R128, R437). -/
def dataArrives (dev tag : Nat) (data : List Byte) (s : State) : State :=
  match NMap.get? s.relov.cmds tag with
  | some c =>
    match c.kind with
    | .line line slot pull =>
      if (NMap.get? c.left dev).isNone then s
      else
        let s := answered tag dev c s
        if data.length < 128 then leaseLost slot s else lineArrives line slot pull data s
    | _ => s
  | none => s

/-- A LEASE message (R127, R129, R441). -/
def leaseMessage (dev addr : Nat) (payload : List Byte) (s : State) : State :=
  let entry := addr % 256
  match addr / 256 with
  | 0 => leaseOffered dev entry (leNat (payload.take 8)) (leNat ((payload.drop 8).take 4)) (leNat ((payload.drop 12).take 4)) s
  | 1 => leaseTaken entry dev s
  | 2 => match s.borrow.find? (fun x => x.2.ldev == dev && x.2.lent == entry && x.2.st == .active) with
    | some (slot, _) => leaseReclaimed slot s
    | none => s
  | 3 => if (NMap.getD s.lend entry {}).dev = dev then leaseReturnBegun entry s else s
  | 4 => if (NMap.getD s.lend entry {}).dev = dev then leaseReturned entry s else s
  | _ => s

/-! Packets received. -/

/-- The effect of a packet that stands next in its flow. -/
def applyPacket (p : Packet) : M Unit := do
  let dev := p.src.toNat
  let pa := p.addr.toNat % 2 ^ 52
  match p.kind with
  | .write =>
    let n := p.payload.length
    applyWhere (·.overlaps pa n) 64
    if n != 0 && (← get).remoteOk dev pa n kWrite then
      let ok ← outsideReady pa n
      if ok then modify (outsideWrite (some dev) pa p.payload)
      modify (sendDone dev p.tag pa (!ok))
    else modify (sendDone dev p.tag pa true)
  | .add64 =>
    if pa % 8 = 0 && p.payload.length = 8 && (← get).remoteOk dev pa 8 kRmw then combine dev p.tag pa true (leNat p.payload)
    else modify (sendDone dev p.tag pa true)
  | .arrive =>
    if pa % 16 = 0 && (← get).remoteOk dev pa 16 kRmw then combine dev p.tag pa false 1
    else modify (sendDone dev p.tag pa true)
  | .read =>
    applyWhere (·.overlaps pa 128) 64
    let ok ← if pa % 128 = 0 && (← get).remoteOk dev pa 128 kRead then outsideReady pa 128 else pure false
    modify fun s => sendPacket dev (flowOf (dieOfPa pa) .rsp) .data p.tag.toNat pa (if ok then outsideRead (some dev) pa 128 s else []) s
  | .data => modify (dataArrives dev p.tag.toNat p.payload)
  | .done => modify (doneArrives dev p.tag.toNat (p.payload != []))
  | .lease => modify (leaseMessage dev p.addr.toNat p.payload)
  | .ack | .reserved _ => pure ()

/-- Key of a receiving flow: one SRC, DST and FLOW (R433). -/
def recvKey (src dst flow : Nat) : Nat := 2 ^ 20 * (if 0xFF00 ≤ dst then dst - 0xFEFF else 0) + flowKey src flow

def State.recvFlow (s : State) (k : Nat) : RecvFlow := NMap.getD s.relov.recv k {}

def State.setRecvFlow (s : State) (k : Nat) (f : RecvFlow) : State := { s with relov := { s.relov with recv := NMap.set s.relov.recv k f } }

/-- Packets that stand next in a flow take effect. One that is held stays, and so do those behind it. -/
def drainFlow (k : Nat) : Nat → M Unit
  | 0 => return
  | fuel + 1 => do
    match NMap.get? ((← get).recvFlow k).held ((← get).recvFlow k).expect with
    | some p =>
      applyPacket p
      modify fun s =>
        let f := s.recvFlow k
        s.setRecvFlow k { f with expect := (f.expect + 1) % 2 ^ 32, held := NMap.erase f.held f.expect }
      drainFlow k fuel
    | none => pure ()

/-- The ACK of a flow: base SEQ, and the packets received from there (R435). -/
def RecvFlow.ack (f : RecvFlow) : Nat × DWord :=
  (f.expect, f.held.foldl (fun m x =>
    let i := (x.1 + 2 ^ 32 - f.expect) % 2 ^ 32
    if i < 64 then m ||| (1 : DWord) <<< i else m) 0)

def sendAck (k : Nat) (s : State) : State :=
  let f := s.recvFlow k
  s.setRecvFlow k { f with since := 0, ackAt := s.cycle, acked := some f.ack }

/-- A header that the gateway takes (R432, R434). -/
def packetHeaderOk (p : Packet) (devno : Nat) : Bool :=
  (p.dst.toNat == devno || (decide (0xFF00 ≤ p.dst.toNat) && decide (p.dst.toNat < 0xFF10))) && decide (p.src.toNat < 0xFF00) &&
  decide (p.flow.toNat < 16) && p.rsvd == 0 && p.payload.length % 4 == 0 && decide (p.payload.length ≤ 256) &&
  (match p.kind with
   | .reserved _ => false
   | _ => true)

/-- Whether the trailer's CRC and the header hold. -/
def packetOk (p : Packet) (devno : Nat) : Bool := p.crc == packetCrc p && packetHeaderOk p devno

/-! Packets sent and acknowledged (R435, R439). -/

/-- A packet sent again. -/
def OutPacket.again (x : OutPacket) (cycle : Nat) : OutPacket := { x with sent := x.sent + 1, last := cycle }

def OutPacket.after (x : OutPacket) (base : Nat) : Nat := (x.pkt.num.toNat + 2 ^ 32 - base) % 2 ^ 32

/-- An acknowledgement of device dev for the flow towards dst: what every receiver has is dropped, gaps are sent again. -/
def ackPackets (dev dst flow base : Nat) (bitmap : DWord) (s : State) : State :=
  match NMap.get? s.relov.send (flowKey dst flow) with
  | some f =>
    let all := if dst < 0xFF00 then [dst] else s.members dst
    let got (x : OutPacket) : Bool := decide (2 ^ 31 ≤ x.after base) || (decide (x.after base < 64) && bitmap.getLsbD (x.after base))
    let mark (x : OutPacket) : OutPacket := if got x && !(dev ∈ x.acked) then { x with acked := x.acked ++ [dev] } else x
    let gap (x : OutPacket) : Bool := !got x && (upFrom (x.after base + 1) 64).any bitmap.getLsbD
    let l := (f.unacked.map mark).filter (fun x => !all.all (fun m => m ∈ x.acked))
    let again := (l.filter gap).length
    let l := l.map (fun x => if gap x then x.again s.cycle else x)
    { s with relov := { s.relov with send := NMap.set s.relov.send (flowKey dst flow) { f with unacked := l }, resent := s.relov.resent + again } }
  | none => s

/-- RELOV_ACK_RECEIVE. -/
def execRelovAckReceive (s : State) : Result :=
  match s.input with
  | .relovAckReceive dev dst flow base bitmap => execAgent (modify (ackPackets dev dst flow base bitmap)) s
  | _ => .next s.tick

/-- RELOV_PACKET_RECEIVE (R434): checked whole before any effect. An ACK stands in no flow; its payload is base and bitmap, its ADDR
the flow's DST (log 36). -/
def receivePacket (p : Packet) : M Unit := do
  let s ← get
  if p.stomp then set { s with relov := { s.relov with stomped := s.relov.stomped + 1 } }
  else if !packetOk p s.relov.devno then set { s with relov := { s.relov with crcErr := s.relov.crcErr + 1 } }
  else if p.kind = .ack then
    set (ackPackets p.src.toNat p.addr.toNat p.flow.toNat (leNat (p.payload.take 4)) (BitVec.ofNat 64 (leNat ((p.payload.drop 4).take 8))) s)
  else
    applyWhere (fun e => decide (e.born + 1024 ≤ s.cycle)) 64
    let k := recvKey p.src.toNat p.dst.toNat p.flow.toNat
    modify fun s =>
      let f := s.recvFlow k
      let dup := decide (2 ^ 31 ≤ (p.num.toNat + 2 ^ 32 - f.expect) % 2 ^ 32)
      s.setRecvFlow k { f with since := f.since + 1, held := if dup then f.held else NMap.set f.held p.num.toNat p }
    if 16 ≤ ((← get).recvFlow k).since then modify (sendAck k)
    drainFlow k (((← get).recvFlow k).held.length)

def execRelovPacketReceive (s : State) : Result :=
  match s.input with
  | .relovPacketReceive p => execAgent (receivePacket p) s
  | _ => .next s.tick

/-- RELOV_ACK_TIMER: every 256 cycles. Packets that were held are looked at again. -/
def execRelovAckTimer (s : State) : Result :=
  match s.input with
  | .relovAckTimer dev flow =>
    execAgent (do
      forEach (((← get).relov.recv.map (·.1)).filter (fun k => k % 2 ^ 20 == flowKey dev flow)) fun k => do
        let s ← get
        if (s.recvFlow k).ackAt + 256 ≤ s.cycle then set (sendAck k s)
        tryCatch (drainFlow k ((s.recvFlow k).held.length)) fun _ => pure ()) s
  | _ => .next s.tick

/-! Resending and path failure (R435, R436). -/

/-- 1 ms of the core clock (R3). -/
def pathLimit : Nat := 1050000

/-- A packet that its path has failed: sixteen transmissions, or 1 ms. -/
def OutPacket.failed (x : OutPacket) (cycle : Nat) : Bool :=
  (decide (16 ≤ x.sent) && decide (x.last + 8192 ≤ cycle)) || decide (x.first + pathLimit ≤ cycle)

/-- Whether a packet towards a device, its own or a group's, has shown the path failed. -/
def State.pathBad (s : State) (dev : Nat) : Bool :=
  s.relov.send.any (fun x =>
    (x.1 / 16 == dev || dev ∈ s.members (x.1 / 16)) && x.2.unacked.any (fun p => !(dev ∈ p.acked) && p.failed s.cycle))

/-- A command's answers from a device are given up: it ends with 0xF2. -/
def failCommand (dev : Nat) (c : RCmd) (s : State) : State :=
  if (NMap.get? c.left dev).isNone then s
  else match c.kind with
    | .data k | .signal k => stopEngine k 0xF2 s
    | .arrive uid d => finishArrive uid d (2 ^ 63 + 0xF2) s
    | .line _ _ _ | .back _ _ => s

/-- Remote copies towards a device, its own or a group's (R436): every one of them is outstanding, with or without a packet under way. -/
def State.copiesTo (s : State) (dev : Nat) : List Nat :=
  (s.engines.filter (fun x => x.2.kind == .rcopy && (x.2.dev == dev || dev ∈ s.members x.2.dev))).map (·.1)

/-- A flow whose path has failed: its packets are given up, and the next one takes the number of the oldest of them, so that a new
command tries the path afresh (R436; the model's choice, log 48). -/
def SendFlow.afresh (f : SendFlow) : SendFlow :=
  { next := (f.unacked.head?.map (·.pkt.num.toNat)).getD f.next, unacked := [] }

/-- The path to a device is declared failed (R436). -/
def pathFails (dev : Nat) (s : State) : State :=
  let cmds := s.relov.cmds
  let s : State := { s with relov := { s.relov with
    cmds := (cmds.map (fun x => (x.1, { x.2 with left := NMap.erase x.2.left dev }))).filter (fun x => x.2.left != [])
    send := (s.relov.send.map (fun x =>
      if x.1 / 16 = dev then (x.1, x.2.afresh)
      else if dev ∈ s.members (x.1 / 16) then
        (x.1, { x.2 with unacked := x.2.unacked.filter (fun p => !(s.members (x.1 / 16)).all (fun m => m == dev || m ∈ p.acked)) })
      else x))
    pathFail := s.relov.pathFail + 1 } }
  leasesLost dev ((s.copiesTo dev).foldl (fun s k => stopEngine k 0xF2 s) (cmds.foldl (fun s x => failCommand dev x.2 s) s))

/-- RELOV_RESEND_TIMEOUT: 8,192 cycles after a packet was sent; after the sixteenth time the path has failed. -/
def resendPacket (dev flow num : Nat) (s : State) : State :=
  match NMap.get? s.relov.send (flowKey dev flow) with
  | some f =>
    let due (x : OutPacket) : Bool := x.pkt.num.toNat == num && decide (x.last + 8192 ≤ s.cycle) && decide (x.sent < 16)
    let n := (f.unacked.filter due).length
    { s with relov := { s.relov with
      send := NMap.set s.relov.send (flowKey dev flow) { f with unacked := f.unacked.map (fun x => if due x then x.again s.cycle else x) }
      resent := s.relov.resent + n } }
  | none => s

def execRelovResendTimeout (s : State) : Result :=
  match s.input with
  | .relovResendTimeout dev flow num => execAgent (modify (resendPacket dev flow num)) s
  | _ => .next s.tick

/-- RELOV_PATH_FAILURE. -/
def execRelovPathFailure (s : State) : Result :=
  match s.input with
  | .relovPathFailure dev => execAgent (modify fun s => if s.pathBad dev then pathFails dev s else s) s
  | _ => .next s.tick

end Sys2Proof.Machine
end

