-- ==== Sys2Proof/Machine/HostPort.lean ====
section
/-! DEFINITION. The host port (20 R442, R443, R447): reads, writes and AtomicOps through the two BARs; the registers of R366 and R451;
the refill of the token buckets (R450). -/

namespace Sys2Proof.Machine

/-! The control BAR. -/

/-- A dword of a function's control BAR: reserved ones and the write-only RECORD read 0 (R6); none where the spec gives no value (the
mailbox page: log 44). -/
def State.controlDword (s : State) (fn a : Nat) : Option Nat :=
  if a < 0x4000 then
    let h := NMap.getD s.hostQueues (4 * fn + a / 4096) {}
    let o := a % 4096
    if o = 0x40 then some h.accepted.toNat
    else if o = 0x48 then some h.dropped.toNat
    else if o = 0x50 then some h.malformed.toNat
    else some 0
  else if fn ≠ 0 then some 0
  else if a = 0x8000 then some s.relov.devno
  else if a = 0x8008 then some s.relov.crcErr
  else if a = 0x8010 then some s.relov.stomped
  else if a = 0x8018 then some s.relov.resent
  else if a = 0x8020 then some s.relov.pathFail
  else if a = 0x8028 then some s.total
  else if 0x9000 ≤ a && a < 0x9800 then
    let t := (a - 0x9000) / 8
    some (NMap.getD s.shares t 0 + NMap.getD s.ports t 0 * 2 ^ 8 + (if t ∈ s.act then 2 ^ 24 else 0))
  else if 0xA000 ≤ a && a < 0xB000 then none
  else some 0

/-- Bytes read in the control BAR. -/
def controlRead (fn off n : Nat) : M (List Byte) :=
  (upFrom off n).foldlM (fun acc a => do
    match (← get).controlDword fn (a / 8 * 8) with
    | some v => return acc ++ [BitVec.ofNat 8 (v / 256 ^ (a % 8))]
    | none => return acc ++ [BitVec.ofNat 8 (Config.choice (← freshFree))]) []

/-- A write to the control BAR: only RECORD takes one. -/
def controlWrite (fn off : Nat) (data : List Byte) (s : State) : State :=
  if off < 0x4000 then queueWrite fn (off / 4096) (off % 4096) data s else s

/-! The memory BAR (R443). -/

/-- Whether the host port lets an access of a function through, and where it goes (R443, R447). -/
def State.barPlace (s : State) (fn off n kind : Nat) : Option Nat :=
  match NMap.get? s.functions fn with
  | some f =>
    let loc := f.barBase + off
    if n != 0 && decide (off + n ≤ f.barSize) && isHbm (loc + n - 1) && s.allowed 1 fn loc n (needOf kind) && !s.lentOut loc n then some loc
    else none
  | none => none

def setAnswer (a : Answer) : M Unit := modify fun s => { s with answer := a }

/-- The host link carries requests. -/
def State.hostUp (s : State) : Bool := s.powered && s.mgmt.linkUp

/-- HOST_BAR_READ. -/
def barRead (fn bar off n : Nat) : M Unit := do
  let s ← get
  if bar = 0 && n != 0 && off + n ≤ 0x10000 && fn < 64 then
    let l ← controlRead fn off n
    setAnswer (.data l)
  else if bar = 2 then
    match s.barPlace fn off n kRead with
    | some loc =>
      let ok ← outsideReady loc n
      if ok then modify fun s => { s with answer := .data (outsideRead none loc n s) } else setAnswer .unsupported
    | none => setAnswer .unsupported
  else setAnswer .unsupported

def execHostBarRead (s : State) : Result :=
  match s.input with
  | .hostBarRead fn bar off n => execAgent (do if (← get).hostUp then barRead fn bar off n) s
  | _ => .next s.tick

/-- HOST_BAR_WRITE: a write that is refused is dropped and counted (R447). -/
def barWrite (fn bar off : Nat) (data : List Byte) : M Unit := do
  let s ← get
  if bar = 0 then
    if fn < 64 then set (controlWrite fn off data s)
  else
    match (if bar = 2 then s.barPlace fn off data.length kWrite else none) with
    | some loc =>
      let ok ← outsideReady loc data.length
      modify fun s => if ok then outsideWrite none loc data s else { s with hostDrops := s.hostDrops + 1 }
    | none => set { s with hostDrops := s.hostDrops + 1 }

def execHostBarWrite (s : State) : Result :=
  match s.input with
  | .hostBarWrite fn bar off data => execAgent (do if (← get).hostUp then barWrite fn bar off data) s
  | _ => .next s.tick

/-- The completer's AtomicOps (R442), by size in bytes. -/
def completes (op : HostOp) (n : Nat) : Bool :=
  match op with
  | .fetchAdd | .swap => n == 4 || n == 8
  | .cas => n == 4 || n == 8 || n == 16
  | .other => false

/-- The value that an AtomicOp stores, if any. -/
def completerOp (op : HostOp) (n operand compare old : Nat) : Option Nat :=
  match op with
  | .fetchAdd => some ((old + operand) % 2 ^ (8 * n))
  | .swap => some (operand % 2 ^ (8 * n))
  | .cas => if old = compare % 2 ^ (8 * n) then some (operand % 2 ^ (8 * n)) else none
  | .other => none

/-- HOST_ATOMICOP_COMPLETER. -/
def execHostAtomicopCompleter (s : State) : Result :=
  match s.input with
  | .hostAtomicopCompleter fn off op n operand compare =>
    execAgent (do
      let s ← get
      if s.hostUp then
        match (if completes op n then s.barPlace fn off n kRmw else none) with
        | some loc =>
          let ok ← if loc % n = 0 then outsideReady loc n else pure false
          if ok then modify fun s =>
            let (old, s) := outsideAtomic none loc n (completerOp op n operand.toNat compare.toNat) s
            { s with answer := .data (leBytes n old) }
          else setAnswer .unsupported
        | none => setAnswer .unsupported) s
  | _ => .next s.tick

/-! Bandwidth (R449, R450). -/

/-- The ports that ran a tenant in the interval, or sent its requests, lowest first. -/
def State.portsOf (s : State) (t : Nat) : List Nat :=
  (List.range coreCount).filter (fun c => (t, c) ∈ s.ran || (t, c) ∈ s.active)

/-- A new interval: what runs has run in it. -/
def State.ranAnew (s : State) : State := ((s.seqs.filter (·.2.live)).map (·.1)).foldl (fun s n => s.noteRan n) { s with ran := [] }

/-- One tenant's refill: the first `extra` ports get one token more. -/
def refillPorts (t each extra : Nat) (ports : List Nat) (s : State) : State :=
  ports.zipIdx.foldl (fun s x =>
    let r := each + if x.2 < extra then 1 else 0
    s.modCore x.1 fun c => { c with tokens := NMap.modify c.tokens t 0 (fun b => Min.min (b + r) (2 * r)) }) s

/-- The tenants of A. -/
def State.activeTenants (s : State) : List Nat :=
  (s.shares.filter (fun x => x.2 != 0 && s.active.any (fun a => a.1 == x.1))).map (·.1)

/-- The refill of R450. -/
def refill (s : State) : State :=
  let a := s.activeTenants
  let sum := (a.map (fun t => NMap.getD s.shares t 0)).foldl (· + ·) 0
  let s' := a.foldl (fun s' t =>
    let g := s.total * NMap.getD s.shares t 0 / sum
    let p := s.portsOf t
    let n := Max.max 1 p.length
    let each := Max.max 1 (g / n)
    refillPorts t each (g - each * n) p { s' with ports := NMap.set s'.ports t p.length }) { s with ports := [] }
  { s' with act := a, active := [], refillAt := s.cycle }.ranAnew

/-- BANDWIDTH_REFILL: at the end of every interval of 1,024 cycles. -/
def execBandwidthRefill (s : State) : Result :=
  match s.input with
  | .bandwidthRefill => execAgent (modify fun s => if s.refillAt + 1024 ≤ s.cycle then refill s else s) s
  | _ => .next s.tick

end Sys2Proof.Machine
end

