-- ==== Sys2Proof/Machine/Power.lean ====
section
/-! DEFINITION. The management core (23 R460 to R468): images, restarts, attestation, power and lane grants, bring-up. -/

namespace Sys2Proof.Machine

/-! Images (R460, R463). -/

/-- Whether an image is accepted: its chain verifies, no key of it is revoked, its last key made the signature, and its security version
is not below the fused one. -/
def Mgmt.accepts (m : Mgmt) (i : Image) : Bool :=
  match Config.chainKeys i.chain with
  | some keys =>
    keys.all (fun k => !(k ∈ m.revoked)) && m.svn.ule (Config.imageSvn i.header) &&
    keys.getLast?.any (fun key => Config.ecdsaVerify key (beBytes 48 (sha384 i.body).toNat) i.signature)
  | none => false

def setMgmt (f : Mgmt → Mgmt) (s : State) : State := { s with mgmt := f s.mgmt }

/-- FIRMWARE_UPDATE: written into the inactive slot, verified, marked pending. -/
def Mgmt.update (m : Mgmt) (k : ImageKind) (i : Image) : Mgmt :=
  let m := { m with slots := NMap.set m.slots (2 * kindNo k + (1 - m.active k)) i }
  match k with
  | .management => { m with pendingMgmt := m.accepts i }
  | .computeBoot => { m with pendingBoot := m.accepts i }

def execFirmwareUpdate (s : State) : Result :=
  match s.input with
  | .firmwareUpdate k i => execAgent (modify fun s => if s.mgmtUp then setMgmt (·.update k i) s else s) s
  | _ => .next s.tick

/-- 200 ms and 5 s of the core clock. -/
def restartLimit : Nat := 210000000
def healthLimit : Nat := 5250000000

/-- The management core restarts from a slot, and its image is measured again (log 42). An SPDM session stands on, for the key-slot
requests that wait (R463). -/
def Mgmt.restart (m : Mgmt) (slot cycle k : Nat) : Mgmt :=
  { m with activeMgmt := slot, pendingMgmt := false, restartUntil := some (cycle + Config.restartTime k % (restartLimit + 1)),
           mrs := NMap.set m.mrs 0 (extendMr (NMap.getD m.mrs 0 0) (sha384 (m.image .management slot).body)) }

/-- MGMT_RESTART: a pending image takes effect. -/
def execMgmtRestart (s : State) : Result :=
  match s.input with
  | .mgmtRestart =>
    execAgent (do
      let k ← freshFree
      modify fun s =>
        if s.mgmtUp then setMgmt (fun m =>
          if m.pendingMgmt then { m.restart (1 - m.activeMgmt) s.cycle k with healthBy := some (s.cycle + healthLimit) }
          else m.restart m.activeMgmt s.cycle k) s
        else s) s
  | _ => .next s.tick

/-- MGMT_HEALTH_TIMEOUT: where the new image has not reported itself healthy in 5 s, the other slot starts. Whether it has is its own
doing. -/
def execMgmtHealthTimeout (s : State) : Result :=
  match s.input with
  | .mgmtHealthTimeout =>
    execAgent (do
      let k ← freshFree
      modify fun s =>
        if s.mgmt.healthBy.any (fun t => decide (t ≤ s.cycle)) then
          setMgmt (fun m =>
            if Config.imageHealthy k then { m with healthBy := none }
            else { (m.restart (1 - m.activeMgmt) s.cycle k) with healthBy := none, records := m.records ++ [.unhealthy m.activeMgmt] }) s
        else s) s
  | _ => .next s.tick

/-! Attestation (R462). -/

/-- Request codes of SPDM 1.2 (PRESUMED from that standard: log 22). -/
def spdmGetCertificate : Nat := 0x82
def spdmChallenge : Nat := 0x83
def spdmGetVersion : Nat := 0x84
def spdmGetMeasurements : Nat := 0xE0
def spdmGetCapabilities : Nat := 0xE1
def spdmNegotiateAlgorithms : Nat := 0xE3
def spdmKeyExchange : Nat := 0xE4

/-- A request answered, or found busy during a restart (R463). It is answered too where bring-up has stopped (R468). -/
def spdm (f : State → State) (s : State) : Result :=
  if !s.mgmt.linkUp && s.mgmt.failedStep.isNone then .next s.tick
  else if s.mgmtUp then .next (f s).tick
  else .next { s with answer := .busy }.tick

/-- A response whose bytes the standard fixes. -/
def spdmReply (code : Nat) (req : List Byte) (s : State) : State := { s with answer := .spdm code (Config.spdmPayload code req) }

def execGetVersion (s : State) : Result :=
  match s.input with
  | .getVersion => spdm (spdmReply spdmGetVersion []) s
  | _ => .next s.tick

def execGetCapabilities (s : State) : Result :=
  match s.input with
  | .getCapabilities r => spdm (spdmReply spdmGetCapabilities r) s
  | _ => .next s.tick

def execNegotiateAlgorithms (s : State) : Result :=
  match s.input with
  | .negotiateAlgorithms r => spdm (spdmReply spdmNegotiateAlgorithms r) s
  | _ => .next s.tick

def execGetCertificate (s : State) : Result :=
  match s.input with
  | .getCertificate r => spdm (spdmReply spdmGetCertificate r) s
  | _ => .next s.tick

/-- CHALLENGE: signed with the device identity key. -/
def execChallenge (s : State) : Result :=
  match s.input with
  | .challenge r =>
    spdm (fun s =>
      let l := Config.spdmPayload spdmChallenge r
      { s with answer := .spdm spdmChallenge (l ++ Config.ecdsaSign l) }) s
  | _ => .next s.tick

/-- What a measurement response says: MR0 to MR7, DEVNO, the active slot, both image versions, whether slot 0 holds a
device-generated key, the nonce (R462). -/
def measurementBytes (s : State) (nonce : List Byte) : List Byte :=
  let m := s.mgmt
  ((List.range 8).map (fun i => beBytes 48 (NMap.getD m.mrs i 0).toNat)).flatten ++ leBytes 2 s.relov.devno ++ leBytes 1 m.activeMgmt ++
  leBytes 4 (Config.imageVersion (m.image .management m.activeMgmt).header) ++
  leBytes 4 (Config.imageVersion (m.image .computeBoot m.activeBoot).header) ++
  leBytes 1 (match s.keyMat 0 with
    | .generated _ => 1
    | _ => 0) ++ nonce

/-- GET_MEASUREMENTS. -/
def execGetMeasurements (s : State) : Result :=
  match s.input with
  | .getMeasurements nonce =>
    spdm (fun s =>
      let l := measurementBytes s nonce
      { s with answer := .spdm spdmGetMeasurements (l ++ Config.ecdsaSign l) }) s
  | _ => .next s.tick

/-- KEY_EXCHANGE: a secured session stands. -/
def execKeyExchange (s : State) : Result :=
  match s.input with
  | .keyExchange r => spdm (fun s => setMgmt (fun m => { m with session := true }) (spdmReply spdmKeyExchange r s)) s
  | _ => .next s.tick

/-! Power (R464 to R467). -/

/-- Bytes of host memory, which the device's power does not hold. -/
def hostBytes (m : Memory) : Memory := m.filter (fun c => isHost c.1)

/-- The spares in use, and the cores that have failed, are facts of the chip that no reset changes (R5, R420). -/
def State.keepSpares (s old : State) : State :=
  (old.clusters.filter (fun x => x.2.spareUsed)).foldl (fun s x => s.modCluster x.1 fun k => { k with spareUsed := true }) s

def State.keepFailures (s old : State) : State :=
  (old.cores.filter (fun x => x.2.failed)).foldl (fun s x => s.setCore x.1 { inService := false, failed := true }) (s.keepSpares old)

/-- Power is taken from the compute dies and HBM: their state is lost, the host link goes down, and the cause is in flash. -/
def powerOff (r : FailRecord) (s : State) : State :=
  let dark : State :=
    { cycle := s.cycle, epochAt := s.cycle, refillAt := s.cycle, cur := s.cur, turns := s.turns, freeCtr := s.freeCtr, powered := false,
      mem := hostBytes s.mem,
      mgmt := { s.mgmt with records := s.mgmt.records ++ [r], linkUp := false, session := false, waiting := [] } }
  dark.keepFailures s

/-- THERMAL_TRIP. -/
def execThermalTrip (s : State) : Result :=
  match s.input with
  | .thermalTrip d => execAgent (modify fun s => if s.powered && d < 4 then powerOff (.thermal d) s else s) s
  | _ => .next s.tick

/-- SUPPLY_FAULT. -/
def execSupplyFault (s : State) : Result :=
  match s.input with
  | .supplyFault => execAgent (modify fun s => if s.powered then powerOff .supply s else s) s
  | _ => .next s.tick

/-- Lanes of a grant code (R465). -/
def lanesOf (ln : Nat) : Nat := 64 - 16 * ln

/-- The most lanes a hottest sensor allows (R464): none at 115 °C. -/
def lanesAllowed (temp : Nat) : Nat := if temp < 100 then 64 else if temp < 105 then 32 else if temp < 115 then 16 else 0

/-- The grant code of the largest grant that fits both limits, the least grant if none does. -/
def grantFor (temp : Nat) (watts : Nat → Nat) : Nat :=
  ((List.range 4).find? (fun ln => decide (lanesOf ln ≤ lanesAllowed temp) && decide (watts (lanesOf ln) < 2600))).getD 3

/-- A die's grant moves: down at once, up by one step; GEN counts the changes (R464, R465). -/
def Die.grant (d : Die) (ln : Nat) : Die :=
  let ln := if d.ln ≤ ln then ln else d.ln - 1
  if ln = d.ln then d else { d with ln := ln, gen := d.gen + 1 }

/-- The review of one die: at 115 °C power goes. -/
def reviewDie (d : Nat) : M Unit := do
  let k ← freshFree
  let temp := Config.hottest d k
  if (← get).powered then
    if lanesAllowed temp = 0 then modify (powerOff (.thermal d))
    else modify fun s => s.modDie d (·.grant (grantFor temp (fun n => Config.powerEstimate d n k)))

/-- POWER_CONTROL_TICK: every 1 ms, but not while the management core restarts, when every grant stands (R463). Requests that waited for
the end of a restart are performed first. -/
def execPowerControlTick (s : State) : Result :=
  match s.input with
  | .powerControlTick =>
    execAgent (do
      if (← get).powered && (← get).mgmtUp then
        modify flushHeld
        if (← get).mgmt.powerAt + pathLimit ≤ (← get).cycle then
          modify fun s => setMgmt (fun m => { m with powerAt := s.cycle }) s
          forEach (List.range 4) reviewDie) s
  | _ => .next s.tick

/-! Bring-up (R468). -/

/-- The management image that starts: slot A's, or else slot B's. -/
def Mgmt.firstAccepted (m : Mgmt) : Option Nat := (List.range 2).find? (fun i => m.accepts (m.image .management i))

/-- The measurement registers after the steps before a failure. -/
def measuredTo (m : Mgmt) (step k : Nat) (mgmt boot : Image) : NMap (BitVec 384) :=
  let ext (i : Nat) (d : BitVec 384) (m : NMap (BitVec 384)) : NMap (BitVec 384) := NMap.set m i (extendMr (NMap.getD m i 0) d)
  let l := ext 0 (sha384 mgmt.body) m.mrs
  if step ≤ 2 then l
  else if step = 3 then ext 3 (Config.bringUpDigest 3 k) l
  else if step = 4 then ext 2 (Config.bringUpDigest 2 k) (ext 3 (Config.bringUpDigest 3 k) l)
  else bringUpMrs m.mrs mgmt boot k

/-- Bring-up of the management core's side: what stands in it at the end, with the step that failed, if one did. Measurement
registers are zero when power comes to the management core (`cold`), and otherwise only extended (R461; log 42). -/
def bringUp (m : Mgmt) (cold : Bool) (cycle k : Nat) : Mgmt :=
  let m := { m with session := false, restartUntil := none, waiting := [], healthBy := none, failedStep := none, powerAt := cycle,
                    pendingMgmt := false, mrs := if cold then [] else m.mrs }
  let failAt (m : Mgmt) (step : Nat) : Mgmt :=
    { m with failedStep := some step, linkUp := false, records := m.records ++ [.bringUp step] }
  match m.firstAccepted with
  | none => failAt m 1
  | some slot =>
    let m := { m with activeMgmt := slot, activeBoot := if m.pendingBoot then 1 - m.activeBoot else m.activeBoot, pendingBoot := false }
    let boot := m.image .computeBoot m.activeBoot
    let bad (step : Nat) : Bool := Config.bringUpFails step k || (step == 4 && !m.accepts boot)
    match (upFrom 2 8).find? bad with
    | some step => failAt { m with mrs := measuredTo m step k (m.image .management slot) boot } step
    | none => { m with mrs := bringUpMrs m.mrs (m.image .management slot) boot k, linkUp := true }

/-- Step 3 maps spare cores (R420): each cluster's spare, if it is unused, takes the number of the cluster's lowest failed core. A failed
core without a spare starts out of service, with no sequencer running (log 127). `old`: the state that tells which cores have failed. -/
def mapSpares (old s : State) : State :=
  (List.range coreCount).foldl (fun s c =>
    if !(old.core c).failed then s
    else if (s.cluster (c / 8)).spareUsed then
      { (s.setCore c { inService := false, failed := true }) with seqs := s.seqs.filter (fun x => x.1 / 4 != c) }
    else s.modCluster (c / 8) fun x => { x with spareUsed := true }) s

/-- Step 4 loads the boot firmware: the payload of its image, from the entry on (log 3; its place is a DESIGN CHOICE), in memory that step 3
has scrubbed under slot 0's key. -/
def loadBoot (i : Image) (s : State) : State :=
  { s with mem := s.mem.writeBytes Config.bootEntry.toNat (i.payload.take 0x8000000000) }

/-- The compute side as bring-up leaves it: reset where every step succeeded, else with what the steps before the failed one did. A step
that fails leaves nothing of its own (log 42). -/
def broughtUp (m : Mgmt) (s : State) : State :=
  let t : State := { State.reset with cycle := s.cycle, epochAt := s.cycle, refillAt := s.cycle, turns := s.turns, freeCtr := s.freeCtr,
                                      mem := hostBytes s.mem, mgmt := m }
  let step := m.failedStep.getD 10
  if step ≤ 3 then { t with powered := false, seqs := [], ran := [], keys := [], windows := [] }.keepFailures s
  else
    let t := if step ≤ 6 then { t with windows := [] } else t
    let t := if step ≤ 8 then { t with seqs := [], ran := [] } else t
    let t := mapSpares s (t.keepSpares s)
    if step ≤ 4 then t else loadBoot (m.image .computeBoot m.activeBoot) t

/-- POWER_ON_RESET: from power-on (`cold`: of the management core too), or a module reset that the host asked for. -/
def execPowerOnReset (s : State) : Result :=
  match s.input with
  | .powerOnReset cold =>
    execAgent (do
      let k ← freshFree
      modify fun s => broughtUp (bringUp s.mgmt cold s.cycle k) s) s
  | _ => .next s.tick

end Sys2Proof.Machine
end

