-- ==== Sys2Proof/Machine/Scalar.lean ====
section
/-! DEFINITION. Scalar integer, immediate, floating and predicate instructions (13 R333 to R337). Each is one line over a
shared shape; none reads or changes ESTART (R470). -/

namespace Sys2Proof.Machine

/-- A binary SALU instruction (R333). -/
def salu2 (o : RArgs) (f : DWord → DWord → DWord) : M Unit := do
  let a ← readS o.sa
  let b ← readS o.sb
  writeS o.d (f a b)

/-- A unary SALU instruction (R333). -/
def salu1 (o : RArgs) (f : DWord → DWord) : M Unit := do
  let a ← readS o.sa
  writeS o.d (f a)

/-- The integer divide-by-zero trap of a scalar (R333). -/
def divideTrap : Trap := { cause := 0x19, tval := 0, estart := some 0 }

/-- A division form (R333): a zero divisor traps, s[D] unchanged. -/
def saluDiv (o : RArgs) (f : DWord → DWord → DWord) : M Unit := do
  let a ← readS o.sa
  let b ← readS o.sb
  if b = 0 then stopTrap divideTrap
  writeS o.d (f a b)

/-- An immediate instruction on x = sext(IMM17) (R334). -/
def saluI (o : IArgs) (f : DWord → DWord → DWord) : M Unit := do
  let a ← readS o.sa
  writeS o.d (f a (o.imm.signExtend 64))

/-- An immediate shift by IMM17[5:0] (R334). -/
def saluShift (o : IArgs) (f : DWord → Nat → DWord) : M Unit := do
  let a ← readS o.sa
  writeS o.d (f a (o.imm.toNat % 64))

def boolWord (b : Bool) : DWord := if b then 1 else 0

/-- Bits 64 to 127 of a product. -/
def highWord (p : Int) : DWord := BitVec.ofInt 64 (p / 2 ^ 64)

/-- The leading zeros of a w-bit value (R279, R333). -/
def leadingZeros (w x : Nat) : Nat := if x = 0 then w else w - 1 - x.log2

/-- The trailing zeros among n bits from bit i. -/
def trailingZeros (x : Nat) : Nat → Nat → Nat
  | 0, i => i
  | n + 1, i => if x.testBit i then i else trailingZeros x n (i + 1)

/-- The set bits among the low n bits. -/
def popCount (x : Nat) : Nat → Nat
  | 0 => 0
  | n + 1 => (if x.testBit n then 1 else 0) + popCount x n

def execAdd (o : RArgs) (s : State) : Result := execNext (salu2 o (· + ·)) s
def execSub (o : RArgs) (s : State) : Result := execNext (salu2 o (· - ·)) s
def execAndB (o : RArgs) (s : State) : Result := execNext (salu2 o (· &&& ·)) s
def execOrB (o : RArgs) (s : State) : Result := execNext (salu2 o (· ||| ·)) s
def execXorB (o : RArgs) (s : State) : Result := execNext (salu2 o (· ^^^ ·)) s
def execAndn (o : RArgs) (s : State) : Result := execNext (salu2 o (fun a b => a &&& ~~~b)) s
def execShl (o : RArgs) (s : State) : Result := execNext (salu2 o (fun a b => a <<< (b.toNat % 64))) s
def execShr (o : RArgs) (s : State) : Result := execNext (salu2 o (fun a b => a >>> (b.toNat % 64))) s
def execSra (o : RArgs) (s : State) : Result := execNext (salu2 o (fun a b => a.sshiftRight (b.toNat % 64))) s
def execMul (o : RArgs) (s : State) : Result := execNext (salu2 o (· * ·)) s
def execMulh (o : RArgs) (s : State) : Result := execNext (salu2 o (fun a b => highWord (a.toInt * b.toInt))) s
def execMulhn (o : RArgs) (s : State) : Result := execNext (salu2 o (fun a b => highWord (a.toNat * b.toNat : Nat))) s
def execDiv (o : RArgs) (s : State) : Result := execNext (saluDiv o BitVec.sdiv) s
def execDivn (o : RArgs) (s : State) : Result := execNext (saluDiv o BitVec.udiv) s
def execRem (o : RArgs) (s : State) : Result := execNext (saluDiv o BitVec.srem) s
def execRemn (o : RArgs) (s : State) : Result := execNext (saluDiv o BitVec.umod) s
def execMin (o : RArgs) (s : State) : Result := execNext (salu2 o (fun a b => if a.sle b then a else b)) s
def execMax (o : RArgs) (s : State) : Result := execNext (salu2 o (fun a b => if a.sle b then b else a)) s
def execMinn (o : RArgs) (s : State) : Result := execNext (salu2 o (fun a b => if a.ule b then a else b)) s
def execMaxn (o : RArgs) (s : State) : Result := execNext (salu2 o (fun a b => if a.ule b then b else a)) s
def execSlt (o : RArgs) (s : State) : Result := execNext (salu2 o (fun a b => boolWord (a.slt b))) s
def execSltn (o : RArgs) (s : State) : Result := execNext (salu2 o (fun a b => boolWord (a.ult b))) s
def execClz (o : RArgs) (s : State) : Result := execNext (salu1 o (fun a => BitVec.ofNat 64 (leadingZeros 64 a.toNat))) s
def execCtz (o : RArgs) (s : State) : Result := execNext (salu1 o (fun a => BitVec.ofNat 64 (trailingZeros a.toNat 64 0))) s
def execPopc (o : RArgs) (s : State) : Result := execNext (salu1 o (fun a => BitVec.ofNat 64 (popCount a.toNat 64))) s

def execAddi (o : IArgs) (s : State) : Result := execNext (saluI o (· + ·)) s
def execAndi (o : IArgs) (s : State) : Result := execNext (saluI o (· &&& ·)) s
def execOri (o : IArgs) (s : State) : Result := execNext (saluI o (· ||| ·)) s
def execXori (o : IArgs) (s : State) : Result := execNext (saluI o (· ^^^ ·)) s
def execShli (o : IArgs) (s : State) : Result := execNext (saluShift o (· <<< ·)) s
def execShri (o : IArgs) (s : State) : Result := execNext (saluShift o (· >>> ·)) s
def execSrai (o : IArgs) (s : State) : Result := execNext (saluShift o BitVec.sshiftRight) s
def execSlti (o : IArgs) (s : State) : Result := execNext (saluI o (fun a x => boolWord (a.slt x))) s
def execSltni (o : IArgs) (s : State) : Result := execNext (saluI o (fun a x => boolWord (a.ult x))) s

/-- R335. -/
def execMovi (d : Reg) (imm : BitVec 32) (s : State) : Result := execNext (writeS d (imm.signExtend 64)) s
def execMoviW64 (d : Reg) (imm : DWord) (s : State) : Result := execNext (writeS d imm) s

/-- `lea` (R335): L(PC) + 64·DISP27 + HEAD, a 56-bit code address. -/
def execLea (d : Reg) (disp : BitVec 27) (head : BitVec 5) (s : State) : Result :=
  execNext (do
    let q ← mySeq
    writeS d (((lineOf q.pc + disp.signExtend 50) ++ (0 : BitVec 6) + head.setWidth 56).setWidth 64)) s

/-! Scalar floating point (R336). -/

/-- The low w bits of a scalar. -/
def lowBits (w : Nat) (v : DWord) : Nat := v.toNat % 2 ^ w

/-- A rounding SFPU form: flags trap or merge, then s[D] is written. -/
def sfpu2 (o : FArgs) (f : NFmt → Nat → Nat → Rnd → Nat × Flags) : M Unit := do
  let a ← readS o.sa
  let b ← readS o.sb
  needWritable .scalar o.d
  let q ← mySeq
  let w := o.ty.width
  let (r, fl) := f (Ty.fmt o.ty) (lowBits w a) (lowBits w b) (q.mode o.rnd false)
  raiseFlags fl 0
  writeS o.d (BitVec.ofNat 64 r)

def execFadd (o : FArgs) (s : State) : Result := execNext (sfpu2 o fpAdd) s
def execFsub (o : FArgs) (s : State) : Result := execNext (sfpu2 o fpSub) s
def execFmul (o : FArgs) (s : State) : Result := execNext (sfpu2 o fpMul) s
def execFdiv (o : FArgs) (s : State) : Result := execNext (sfpu2 o fpDiv) s
def execFsqrt (o : FArgs) (s : State) : Result := execNext (sfpu2 o (fun f a _ m => fpSqrt f a m)) s
def execFmin (o : FArgs) (s : State) : Result := execNext (sfpu2 o (fun f a b _ => fpMinMax f false a b)) s
def execFmax (o : FArgs) (s : State) : Result := execNext (sfpu2 o (fun f a b _ => fpMinMax f true a b)) s

/-- `ffma`: the old s[D] is the addend (R336). -/
def execFfma (o : FArgs) (s : State) : Result :=
  execNext (do
    let c ← readReg o.d
    sfpu2 o (fun f a b m => fpFma f false false a b (lowBits o.ty.width c) m)) s

/-- `fcmp` writes a predicate (R287, R336). -/
def execFcmp (o : FArgs) (s : State) : Result :=
  execNext (do
    let a ← readS o.sa
    let b ← readS o.sb
    let w := o.ty.width
    let (r, fl) := fpCmp (Ty.fmt o.ty) o.cond.toNat (lowBits w a) (lowBits w b)
    raiseFlags fl 0
    writeP o.d r) s

/-- The source type of `fcvt` by its OT code (R336). -/
def fcvtSource (c : BitVec 3) : NFmt :=
  match c.toNat with
  | 0 => .fp64 | 1 => .fp32 | 2 => .bf16 | 3 => .fp16 | 4 => .int 64 | _ => .uint 64

def execFcvt (o : FArgs) (s : State) : Result :=
  execNext (do
    let a ← readS o.sa
    needWritable .scalar o.d
    let q ← mySeq
    let src := fcvtSource o.cond
    let (r, fl) := convert (Ty.fmt o.ty) src (lowBits src.width a) (q.mode o.rnd false) 0
    raiseFlags fl 0
    writeS o.d (BitVec.ofNat 64 r)) s

/-! Predicates (R337). -/

/-- The conditions of `pset`. -/
def psetCond (c : Nat) (a b : DWord) : Bool :=
  match c with
  | 0 => a == b | 1 => a != b | 2 => a.slt b | 3 => b.sle a | 4 => a.ult b | 5 => b.ule a | 6 => true | _ => false

def execPset (o : RArgs) (s : State) : Result :=
  execNext (do
    let a ← readS o.sa
    let b ← readS o.sb
    writeP o.d (psetCond (o.mod.toNat % 8) a b)) s

def pred2 (o : RArgs) (f : Bool → Bool → Bool) : M Unit := do
  let a ← readP o.sa.reg.toNat
  let b ← readP o.sb.reg.toNat
  writeP o.d (f a b)

def execPand (o : RArgs) (s : State) : Result := execNext (pred2 o (· && ·)) s
def execPor (o : RArgs) (s : State) : Result := execNext (pred2 o (· || ·)) s
def execPxor (o : RArgs) (s : State) : Result := execNext (pred2 o (· != ·)) s
def execPnot (o : RArgs) (s : State) : Result := execNext (do writeP o.d !(← readP o.sa.reg.toNat)) s

/-- `ptest` over the bits below VL of a mask. -/
def execPtest (o : RArgs) (s : State) : Result :=
  execNext (do
    let q ← mySeq
    let m := q.mask o.sa.reg.toNat
    let below := (BitVec.allOnes 8192) >>> (8192 - q.vl)
    writeP o.d (match o.mod.toNat % 4 with
      | 0 => m &&& below != 0
      | 1 => m &&& below == below
      | _ => m &&& below == 0)) s

def execCsel (o : RArgs) (s : State) : Result :=
  execNext (do
    let a ← readS o.sa
    let b ← readS o.sb
    let p ← readP (o.mod.toNat % 16)
    writeS o.d (if p then a else b)) s

end Sys2Proof.Machine
end

