-- ==== Sys2Proof/Machine/Dispatch.lean ====
section
/-! DEFINITION. One arm per constructor of Instr: its meaning. -/

namespace Sys2Proof.Machine

def exec (i : Instr) (s : State) : Host.Outcome State Fault Refusal :=
  match i with
  | .add o => Sys2Proof.Machine.execAdd o s
  | .sub o => Sys2Proof.Machine.execSub o s
  | .andB o => Sys2Proof.Machine.execAndB o s
  | .orB o => Sys2Proof.Machine.execOrB o s
  | .xorB o => Sys2Proof.Machine.execXorB o s
  | .andn o => Sys2Proof.Machine.execAndn o s
  | .shl o => Sys2Proof.Machine.execShl o s
  | .shr o => Sys2Proof.Machine.execShr o s
  | .sra o => Sys2Proof.Machine.execSra o s
  | .mul o => Sys2Proof.Machine.execMul o s
  | .mulh o => Sys2Proof.Machine.execMulh o s
  | .mulhn o => Sys2Proof.Machine.execMulhn o s
  | .div o => Sys2Proof.Machine.execDiv o s
  | .divn o => Sys2Proof.Machine.execDivn o s
  | .rem o => Sys2Proof.Machine.execRem o s
  | .remn o => Sys2Proof.Machine.execRemn o s
  | .min o => Sys2Proof.Machine.execMin o s
  | .max o => Sys2Proof.Machine.execMax o s
  | .minn o => Sys2Proof.Machine.execMinn o s
  | .maxn o => Sys2Proof.Machine.execMaxn o s
  | .slt o => Sys2Proof.Machine.execSlt o s
  | .sltn o => Sys2Proof.Machine.execSltn o s
  | .clz o => Sys2Proof.Machine.execClz o s
  | .ctz o => Sys2Proof.Machine.execCtz o s
  | .popc o => Sys2Proof.Machine.execPopc o s
  | .addi o => Sys2Proof.Machine.execAddi o s
  | .andi o => Sys2Proof.Machine.execAndi o s
  | .ori o => Sys2Proof.Machine.execOri o s
  | .xori o => Sys2Proof.Machine.execXori o s
  | .shli o => Sys2Proof.Machine.execShli o s
  | .shri o => Sys2Proof.Machine.execShri o s
  | .srai o => Sys2Proof.Machine.execSrai o s
  | .slti o => Sys2Proof.Machine.execSlti o s
  | .sltni o => Sys2Proof.Machine.execSltni o s
  | .movi d imm => Sys2Proof.Machine.execMovi d imm s
  | .moviW64 d imm => Sys2Proof.Machine.execMoviW64 d imm s
  | .lea d disp head => Sys2Proof.Machine.execLea d disp head s
  | .fadd o => Sys2Proof.Machine.execFadd o s
  | .fsub o => Sys2Proof.Machine.execFsub o s
  | .fmul o => Sys2Proof.Machine.execFmul o s
  | .ffma o => Sys2Proof.Machine.execFfma o s
  | .fdiv o => Sys2Proof.Machine.execFdiv o s
  | .fsqrt o => Sys2Proof.Machine.execFsqrt o s
  | .fmin o => Sys2Proof.Machine.execFmin o s
  | .fmax o => Sys2Proof.Machine.execFmax o s
  | .fcmp o => Sys2Proof.Machine.execFcmp o s
  | .fcvt o => Sys2Proof.Machine.execFcvt o s
  | .br o => Sys2Proof.Machine.execBr o s
  | .j o => Sys2Proof.Machine.execJ o s
  | .jl o => Sys2Proof.Machine.execJl o s
  | .jlr o => Sys2Proof.Machine.execJlr o s
  | .jr o => Sys2Proof.Machine.execJr o s
  | .loop o => Sys2Proof.Machine.execLoop o s
  | .strip o => Sys2Proof.Machine.execStrip o s
  | .fork o => Sys2Proof.Machine.execFork o s
  | .rdv o => Sys2Proof.Machine.execRdv o s
  | .abortLine o => Sys2Proof.Machine.execAbortLine o s
  | .abchk o => Sys2Proof.Machine.execAbchk o s
  | .qpush o => Sys2Proof.Machine.execQpush o s
  | .qpop o => Sys2Proof.Machine.execQpop o s
  | .qstat o => Sys2Proof.Machine.execQstat o s
  | .pset o => Sys2Proof.Machine.execPset o s
  | .pand o => Sys2Proof.Machine.execPand o s
  | .por o => Sys2Proof.Machine.execPor o s
  | .pxor o => Sys2Proof.Machine.execPxor o s
  | .pnot o => Sys2Proof.Machine.execPnot o s
  | .ptest o => Sys2Proof.Machine.execPtest o s
  | .csel o => Sys2Proof.Machine.execCsel o s
  | .crd o => Sys2Proof.Machine.execCrd o s
  | .cwr o => Sys2Proof.Machine.execCwr o s
  | .fsrWrite o => Sys2Proof.Machine.execFsrWrite o s
  | .estartWrite o => Sys2Proof.Machine.execEstartWrite o s
  | .xlrootWrite o => Sys2Proof.Machine.execXlrootWrite o s
  | .asidWrite o => Sys2Proof.Machine.execAsidWrite o s
  | .sventryWrite o => Sys2Proof.Machine.execSventryWrite o s
  | .tstatWrite o => Sys2Proof.Machine.execTstatWrite o s
  | .trap o => Sys2Proof.Machine.execTrap o s
  | .evpop o => Sys2Proof.Machine.execEvpop o s
  | .ctxsv o => Sys2Proof.Machine.execCtxsv o s
  | .ctxld o => Sys2Proof.Machine.execCtxld o s
  | .ld o => Sys2Proof.Machine.execLd o s
  | .st o => Sys2Proof.Machine.execSt o s
  | .vldUnit o => Sys2Proof.Machine.execVldUnit o s
  | .vldShaped o => Sys2Proof.Machine.execVldShaped o s
  | .vlds o => Sys2Proof.Machine.execVlds o s
  | .vldx o => Sys2Proof.Machine.execVldx o s
  | .vstUnit o => Sys2Proof.Machine.execVstUnit o s
  | .vstShaped o => Sys2Proof.Machine.execVstShaped o s
  | .vsts o => Sys2Proof.Machine.execVsts o s
  | .vstx o => Sys2Proof.Machine.execVstx o s
  | .amoAdd o => Sys2Proof.Machine.execAmoAdd o s
  | .amoAnd o => Sys2Proof.Machine.execAmoAnd o s
  | .amoOr o => Sys2Proof.Machine.execAmoOr o s
  | .amoXor o => Sys2Proof.Machine.execAmoXor o s
  | .amoMin o => Sys2Proof.Machine.execAmoMin o s
  | .amoMax o => Sys2Proof.Machine.execAmoMax o s
  | .amoMinn o => Sys2Proof.Machine.execAmoMinn o s
  | .amoMaxn o => Sys2Proof.Machine.execAmoMaxn o s
  | .amoSwap o => Sys2Proof.Machine.execAmoSwap o s
  | .amoFaddF32 o => Sys2Proof.Machine.execAmoFaddF32 o s
  | .amoFaddBf16 o => Sys2Proof.Machine.execAmoFaddBf16 o s
  | .cas o => Sys2Proof.Machine.execCas o s
  | .cas2 o => Sys2Proof.Machine.execCas2 o s
  | .vamoAdd o => Sys2Proof.Machine.execVamoAdd o s
  | .vamoAnd o => Sys2Proof.Machine.execVamoAnd o s
  | .vamoOr o => Sys2Proof.Machine.execVamoOr o s
  | .vamoXor o => Sys2Proof.Machine.execVamoXor o s
  | .vamoMin o => Sys2Proof.Machine.execVamoMin o s
  | .vamoMax o => Sys2Proof.Machine.execVamoMax o s
  | .vamoMinn o => Sys2Proof.Machine.execVamoMinn o s
  | .vamoMaxn o => Sys2Proof.Machine.execVamoMaxn o s
  | .vamoSwap o => Sys2Proof.Machine.execVamoSwap o s
  | .vamoFaddF32 o => Sys2Proof.Machine.execVamoFaddF32 o s
  | .vamoFaddBf16 o => Sys2Proof.Machine.execVamoFaddBf16 o s
  | .glink o => Sys2Proof.Machine.execGlink o s
  | .scond o => Sys2Proof.Machine.execScond o s
  | .saccAdd o => Sys2Proof.Machine.execSaccAdd o s
  | .saccAnd o => Sys2Proof.Machine.execSaccAnd o s
  | .saccOr o => Sys2Proof.Machine.execSaccOr o s
  | .saccXor o => Sys2Proof.Machine.execSaccXor o s
  | .saccMin o => Sys2Proof.Machine.execSaccMin o s
  | .saccMax o => Sys2Proof.Machine.execSaccMax o s
  | .saccMinn o => Sys2Proof.Machine.execSaccMinn o s
  | .saccMaxn o => Sys2Proof.Machine.execSaccMaxn o s
  | .saccFaddF32 o => Sys2Proof.Machine.execSaccFaddF32 o s
  | .saccFaddBf16 o => Sys2Proof.Machine.execSaccFaddBf16 o s
  | .vwait o => Sys2Proof.Machine.execVwait o s
  | .skim o => Sys2Proof.Machine.execSkim o s
  | .wbr o => Sys2Proof.Machine.execWbr o s
  | .flctx o => Sys2Proof.Machine.execFlctx o s
  | .flctxAll o => Sys2Proof.Machine.execFlctxAll o s
  | .tlbinv o => Sys2Proof.Machine.execTlbinv o s
  | .tlbprobe o => Sys2Proof.Machine.execTlbprobe o s
  | .resvNew o => Sys2Proof.Machine.execResvNew o s
  | .resvUse o => Sys2Proof.Machine.execResvUse o s
  | .resvQuota o => Sys2Proof.Machine.execResvQuota o s
  | .resvPool o => Sys2Proof.Machine.execResvPool o s
  | .unresv o => Sys2Proof.Machine.execUnresv o s
  | .disc o => Sys2Proof.Machine.execDisc o s
  | .umig o => Sys2Proof.Machine.execUmig o s
  | .promo o => Sys2Proof.Machine.execPromo o s
  | .tstat o => Sys2Proof.Machine.execTstat o s
  | .cfork o => Sys2Proof.Machine.execCfork o s
  | .loffer o => Sys2Proof.Machine.execLoffer o s
  | .ltake o => Sys2Proof.Machine.execLtake o s
  | .lrecl o => Sys2Proof.Machine.execLrecl o s
  | .lretRet o => Sys2Proof.Machine.execLretRet o s
  | .lretFree o => Sys2Proof.Machine.execLretFree o s
  | .fence o => Sys2Proof.Machine.execFence o s
  | .phase o => Sys2Proof.Machine.execPhase o s
  | .bwait o => Sys2Proof.Machine.execBwait o s
  | .arrive o => Sys2Proof.Machine.execArrive o s
  | .arriveRemote o => Sys2Proof.Machine.execArriveRemote o s
  | .arriveLeave o => Sys2Proof.Machine.execArriveLeave o s
  | .arriveJoin o => Sys2Proof.Machine.execArriveJoin o s
  | .fput o => Sys2Proof.Machine.execFput o s
  | .fget o => Sys2Proof.Machine.execFget o s
  | .twk o => Sys2Proof.Machine.execTwk o s
  | .twkm o => Sys2Proof.Machine.execTwkm o s
  | .grant o => Sys2Proof.Machine.execGrant o s
  | .copy o => Sys2Proof.Machine.execCopy o s
  | .rcopy o => Sys2Proof.Machine.execRcopy o s
  | .evwait o => Sys2Proof.Machine.execEvwait o s
  | .spawn o => Sys2Proof.Machine.execSpawn o s
  | .cancel o => Sys2Proof.Machine.execCancel o s
  | .done o => Sys2Proof.Machine.execDone o s
  | .yieldSeq o => Sys2Proof.Machine.execYieldSeq o s
  | .launch o => Sys2Proof.Machine.execLaunch o s
  | .vset o => Sys2Proof.Machine.execVset o s
  | .vsetFree o => Sys2Proof.Machine.execVsetFree o s
  | .bfield o => Sys2Proof.Machine.execBfield o s
  | .bhalo o => Sys2Proof.Machine.execBhalo o s
  | .vmov o => Sys2Proof.Machine.execVmov o s
  | .vbcast o => Sys2Proof.Machine.execVbcast o s
  | .vslide o => Sys2Proof.Machine.execVslide o s
  | .vtrans o => Sys2Proof.Machine.execVtrans o s
  | .vcomp o => Sys2Proof.Machine.execVcomp o s
  | .vexp o => Sys2Proof.Machine.execVexp o s
  | .vins o => Sys2Proof.Machine.execVins o s
  | .vext o => Sys2Proof.Machine.execVext o s
  | .vgath o => Sys2Proof.Machine.execVgath o s
  | .mand o => Sys2Proof.Machine.execMand o s
  | .mor o => Sys2Proof.Machine.execMor o s
  | .mxor o => Sys2Proof.Machine.execMxor o s
  | .mnot o => Sys2Proof.Machine.execMnot o s
  | .mpopc o => Sys2Proof.Machine.execMpopc o s
  | .mfirst o => Sys2Proof.Machine.execMfirst o s
  | .miota o => Sys2Proof.Machine.execMiota o s
  | .mset o => Sys2Proof.Machine.execMset o s
  | .vadd o => Sys2Proof.Machine.execVadd o s
  | .vsub o => Sys2Proof.Machine.execVsub o s
  | .vmul o => Sys2Proof.Machine.execVmul o s
  | .vmulh o => Sys2Proof.Machine.execVmulh o s
  | .vdiv o => Sys2Proof.Machine.execVdiv o s
  | .vrem o => Sys2Proof.Machine.execVrem o s
  | .vmin o => Sys2Proof.Machine.execVmin o s
  | .vmax o => Sys2Proof.Machine.execVmax o s
  | .vabs o => Sys2Proof.Machine.execVabs o s
  | .vand o => Sys2Proof.Machine.execVand o s
  | .vor o => Sys2Proof.Machine.execVor o s
  | .vxor o => Sys2Proof.Machine.execVxor o s
  | .vshl o => Sys2Proof.Machine.execVshl o s
  | .vshr o => Sys2Proof.Machine.execVshr o s
  | .vsra o => Sys2Proof.Machine.execVsra o s
  | .vsadd o => Sys2Proof.Machine.execVsadd o s
  | .vssub o => Sys2Proof.Machine.execVssub o s
  | .vcmp o => Sys2Proof.Machine.execVcmp o s
  | .vsel o => Sys2Proof.Machine.execVsel o s
  | .vclz o => Sys2Proof.Machine.execVclz o s
  | .vpopc o => Sys2Proof.Machine.execVpopc o s
  | .vfadd o => Sys2Proof.Machine.execVfadd o s
  | .vfsub o => Sys2Proof.Machine.execVfsub o s
  | .vfmul o => Sys2Proof.Machine.execVfmul o s
  | .vfdiv o => Sys2Proof.Machine.execVfdiv o s
  | .vfsqrt o => Sys2Proof.Machine.execVfsqrt o s
  | .vfmin o => Sys2Proof.Machine.execVfmin o s
  | .vfmax o => Sys2Proof.Machine.execVfmax o s
  | .vfabs o => Sys2Proof.Machine.execVfabs o s
  | .vfneg o => Sys2Proof.Machine.execVfneg o s
  | .vfcmp o => Sys2Proof.Machine.execVfcmp o s
  | .vfclass o => Sys2Proof.Machine.execVfclass o s
  | .vfma o => Sys2Proof.Machine.execVfma o s
  | .vfms o => Sys2Proof.Machine.execVfms o s
  | .vfnma o => Sys2Proof.Machine.execVfnma o s
  | .vfnms o => Sys2Proof.Machine.execVfnms o s
  | .vcvtn o => Sys2Proof.Machine.execVcvtn o s
  | .vcvtw o => Sys2Proof.Machine.execVcvtw o s
  | .vcvti o => Sys2Proof.Machine.execVcvti o s
  | .vq4 o => Sys2Proof.Machine.execVq4 o s
  | .vredo o => Sys2Proof.Machine.execVredo o s
  | .vredt o => Sys2Proof.Machine.execVredt o s
  | .vredm o => Sys2Proof.Machine.execVredm o s
  | .vredb o => Sys2Proof.Machine.execVredb o s
  | .vrcp o => Sys2Proof.Machine.execVrcp o s
  | .vrsq o => Sys2Proof.Machine.execVrsq o s
  | .vexp2 o => Sys2Proof.Machine.execVexp2 o s
  | .vlog2 o => Sys2Proof.Machine.execVlog2 o s
  | .mcfg o => Sys2Proof.Machine.execMcfg o s
  | .mstep o => Sys2Proof.Machine.execMstep o s
  | .mzero o => Sys2Proof.Machine.execMzero o s
  | .mrda o => Sys2Proof.Machine.execMrda o s
  | .mwra o => Sys2Proof.Machine.execMwra o s
  | .mdrainBrk o => Sys2Proof.Machine.execMdrainBrk o s
  | .mdrainMem o => Sys2Proof.Machine.execMdrainMem o s
  | .endl => Sys2Proof.Machine.execEndl s
  | .brkl => Sys2Proof.Machine.execBrkl s
  | .nop => Sys2Proof.Machine.execNop s
  | .halt => Sys2Proof.Machine.execHalt s
  | .wfe => Sys2Proof.Machine.execWfe s
  | .sret => Sys2Proof.Machine.execSret s
  | .combiningWindowApply => Sys2Proof.Machine.execCombiningWindowApply s
  | .vwaitFire => Sys2Proof.Machine.execVwaitFire s
  | .vwaitHostPoll => Sys2Proof.Machine.execVwaitHostPoll s
  | .linkExpiry => Sys2Proof.Machine.execLinkExpiry s
  | .homeReadRequest => Sys2Proof.Machine.execHomeReadRequest s
  | .homeRegistration => Sys2Proof.Machine.execHomeRegistration s
  | .homeWriteThrough => Sys2Proof.Machine.execHomeWriteThrough s
  | .engineWriteAtHome => Sys2Proof.Machine.execEngineWriteAtHome s
  | .epochTick => Sys2Proof.Machine.execEpochTick s
  | .l1UncorrectableError => Sys2Proof.Machine.execL1UncorrectableError s
  | .hostSharedRead => Sys2Proof.Machine.execHostSharedRead s
  | .hostExclusiveRequest => Sys2Proof.Machine.execHostExclusiveRequest s
  | .leaseOfferReceived => Sys2Proof.Machine.execLeaseOfferReceived s
  | .leaseTakeReceived => Sys2Proof.Machine.execLeaseTakeReceived s
  | .leaseReclaimReceived => Sys2Proof.Machine.execLeaseReclaimReceived s
  | .leaseReturnBegunReceived => Sys2Proof.Machine.execLeaseReturnBegunReceived s
  | .leasePullLine => Sys2Proof.Machine.execLeasePullLine s
  | .leasePullComplete => Sys2Proof.Machine.execLeasePullComplete s
  | .leaseReturnReceived => Sys2Proof.Machine.execLeaseReturnReceived s
  | .leaseDeadline => Sys2Proof.Machine.execLeaseDeadline s
  | .bwaitWake => Sys2Proof.Machine.execBwaitWake s
  | .fgetWake => Sys2Proof.Machine.execFgetWake s
  | .evwaitWake => Sys2Proof.Machine.execEvwaitWake s
  | .wfeWake => Sys2Proof.Machine.execWfeWake s
  | .permitCreditTake => Sys2Proof.Machine.execPermitCreditTake s
  | .trowelBeat => Sys2Proof.Machine.execTrowelBeat s
  | .engineCommandComplete => Sys2Proof.Machine.execEngineCommandComplete s
  | .spawnArrival => Sys2Proof.Machine.execSpawnArrival s
  | .cancelMark => Sys2Proof.Machine.execCancelMark s
  | .launchComplete => Sys2Proof.Machine.execLaunchComplete s
  | .hostQueueRecord => Sys2Proof.Machine.execHostQueueRecord s
  | .hiveDispatch => Sys2Proof.Machine.execHiveDispatch s
  | .energyAgeExpiry => Sys2Proof.Machine.execEnergyAgeExpiry s
  | .hiveSteal => Sys2Proof.Machine.execHiveSteal s
  | .stageReview => Sys2Proof.Machine.execStageReview s
  | .preempt => Sys2Proof.Machine.execPreempt s
  | .contextResume => Sys2Proof.Machine.execContextResume s
  | .tileStepIssue => Sys2Proof.Machine.execTileStepIssue s
  | .tileRecordComplete => Sys2Proof.Machine.execTileRecordComplete s
  | .tileStepStop => Sys2Proof.Machine.execTileStepStop s
  | .longLatencyComplete => Sys2Proof.Machine.execLongLatencyComplete s
  | .dieFlitReceive => Sys2Proof.Machine.execDieFlitReceive s
  | .dieAckReceive => Sys2Proof.Machine.execDieAckReceive s
  | .dieResendTimeout => Sys2Proof.Machine.execDieResendTimeout s
  | .dieLinkRetrain => Sys2Proof.Machine.execDieLinkRetrain s
  | .dieLinkFail => Sys2Proof.Machine.execDieLinkFail s
  | .relovPacketReceive => Sys2Proof.Machine.execRelovPacketReceive s
  | .relovAckTimer => Sys2Proof.Machine.execRelovAckTimer s
  | .relovAckReceive => Sys2Proof.Machine.execRelovAckReceive s
  | .relovResendTimeout => Sys2Proof.Machine.execRelovResendTimeout s
  | .relovDoneReceive => Sys2Proof.Machine.execRelovDoneReceive s
  | .relovPathFailure => Sys2Proof.Machine.execRelovPathFailure s
  | .relovCombineApply => Sys2Proof.Machine.execRelovCombineApply s
  | .hostBarRead => Sys2Proof.Machine.execHostBarRead s
  | .hostBarWrite => Sys2Proof.Machine.execHostBarWrite s
  | .hostAtomicopCompleter => Sys2Proof.Machine.execHostAtomicopCompleter s
  | .hostCompletionReceive => Sys2Proof.Machine.execHostCompletionReceive s
  | .bandwidthRefill => Sys2Proof.Machine.execBandwidthRefill s
  | .powerControlTick => Sys2Proof.Machine.execPowerControlTick s
  | .thermalTrip => Sys2Proof.Machine.execThermalTrip s
  | .supplyFault => Sys2Proof.Machine.execSupplyFault s
  | .coreSleep => Sys2Proof.Machine.execCoreSleep s
  | .coreWake => Sys2Proof.Machine.execCoreWake s
  | .powerOnReset => Sys2Proof.Machine.execPowerOnReset s
  | .firmwareUpdate => Sys2Proof.Machine.execFirmwareUpdate s
  | .mgmtRestart => Sys2Proof.Machine.execMgmtRestart s
  | .mgmtHealthTimeout => Sys2Proof.Machine.execMgmtHealthTimeout s
  | .mailboxCloseReopen => Sys2Proof.Machine.execMailboxCloseReopen s
  | .mailboxServiceChange => Sys2Proof.Machine.execMailboxServiceChange s
  | .mailboxAccessTableWrite => Sys2Proof.Machine.execMailboxAccessTableWrite s
  | .mailboxShareTotal => Sys2Proof.Machine.execMailboxShareTotal s
  | .mailboxMeasurementExtend => Sys2Proof.Machine.execMailboxMeasurementExtend s
  | .mailboxSvnRequest => Sys2Proof.Machine.execMailboxSvnRequest s
  | .mailboxSubmissionContext => Sys2Proof.Machine.execMailboxSubmissionContext s
  | .getVersion => Sys2Proof.Machine.execGetVersion s
  | .getCapabilities => Sys2Proof.Machine.execGetCapabilities s
  | .negotiateAlgorithms => Sys2Proof.Machine.execNegotiateAlgorithms s
  | .getCertificate => Sys2Proof.Machine.execGetCertificate s
  | .challenge => Sys2Proof.Machine.execChallenge s
  | .getMeasurements => Sys2Proof.Machine.execGetMeasurements s
  | .keyExchange => Sys2Proof.Machine.execKeyExchange s
  | .keySlotLoad => Sys2Proof.Machine.execKeySlotLoad s
  | .keySlotErase => Sys2Proof.Machine.execKeySlotErase s
  | .illegalInstruction => Sys2Proof.Machine.execIllegalInstruction s
  | .boundaryRetrained => Sys2Proof.Machine.execBoundaryRetrained s
  | .coreFailure => Sys2Proof.Machine.execCoreFailure s

end Sys2Proof.Machine
end

