-- ==== Sys2Proof/Machine/Sched.lean ====
section
/-! DEFINITION. Who moves when no turn is laid down (log 1): on even cycles the agents and waiting sequencers that have something to
do, in rotation, on odd cycles the sequencers that can run, in rotation. What comes from outside the device
is never moved by itself: it is laid down in `State.turns`. -/

namespace Sys2Proof.Machine

/-- A sequencer that its own next turn can move. -/
def Seq.canRun (q : Seq) : Bool :=
  match q.phase with
  | .running | .ending _ => q.wait.isNone
  | _ => false

/-- Waits that the sequencer's own turn does not end. -/
def Wait.foreign : Wait → Bool
  | .spawn _ | .host _ => true
  | _ => false

/-- A sequencer that waits: its turn tries the instruction again. -/
def Seq.canRetry (q : Seq) : Bool :=
  match q.phase with
  | .running | .ending _ => q.wait.any (fun w => !w.foreign)
  | _ => false

/-- The first sequencer after n, in rising order and then from the lowest, that satisfies p. -/
def nextSeq (p : Seq → Bool) (n : Nat) (s : State) : Option Nat :=
  ((s.seqs.find? (fun x => decide (n < x.1) && p x.2)).or (s.seqs.find? (fun x => p x.2))).map (·.1)

/-- The next step of an engine command. -/
def engineTurn (s : State) (n : Nat) (c : EngCmd) : Option Input :=
  if s.engineDone n c then some (.engineCommandComplete n)
  else if c.memDst && decide (c.wr + 4 ≤ c.rd) then some (.engineWriteAtHome n)
  else if s.signalsDue n c != [] then some (.trowelBeat n)
  else match c.branches.find? (fun b => s.mayStart n c && !b.credit && b.open' c.total &&
      decide (0 < (NMap.getD (s.core b.core).permits c.ptag {}).credits)) with
    | some b => some (.permitCreditTake n b.core)
    | none =>
      if (c.mayRead && s.mayStart n c) || c.branches.any (fun b => b.credit && b.open' c.total && decide (b.pos < c.rd))
      then some (.trowelBeat n) else none

/-- How old a long-latency result is when its bit is set by itself (log 1). -/
def resultAge : Nat := 64

/-- Turns of the homes, L1s and units. -/
def homeTurns (s : State) : List Input :=
  (s.cores.filter (fun x => x.2.regq != [])).map (fun x => .homeRegistration x.1) ++
  s.seqs.filterMap (fun x => (x.2.outst.find? (fun o => decide (o.2.2 + resultAge ≤ s.cycle))).map (fun o =>
    .longLatencyComplete x.1 o.1 o.2.1)) ++
  (s.homeComb.filter (fun x => x.2 != [])).map (fun x => .combiningWindowApply x.1) ++
  (s.cores.filter (fun x => x.2.comb != [])).map (fun x => .combiningWindowApply (160 + x.1)) ++
  (s.cores.map (fun x => (x.2.waits.filter (fun w => w.2.fired)).map (fun w => Input.vwaitFire x.1 w.1))).flatten ++
  s.cores.filterMap (fun x => (x.2.links.findIdx? (fun l => decide (l.born + 65536 ≤ s.cycle))).map (fun k => .linkExpiry x.1 k)) ++
  (if s.epochAt + 16384 ≤ s.cycle then [.epochTick] else []) ++
  (if s.refillAt + 1024 ≤ s.cycle then [.bandwidthRefill] else []) ++
  (if s.mgmtUp && (s.mgmt.waiting != [] || decide (s.mgmt.powerAt + pathLimit ≤ s.cycle)) then [.powerControlTick] else [])

/-- Turns of the lease engine, the gateway and the die boundaries. -/
def gatewayTurns (s : State) : List Input :=
  (s.borrow.filter (fun x => x.2.st == .demoting)).map (fun x =>
    if x.2.pages ≤ x.2.cursor then .leasePullComplete x.1 else .leasePullLine x.1) ++
  (s.lend.filter (fun x => x.2.deadline.any (fun t => decide (t ≤ s.cycle)))).map (fun x => .leaseDeadline x.1) ++
  (if s.relov.comb == [] then [] else [.relovCombineApply 0]) ++
  (s.relov.recv.filter (fun x => (x.2.since != 0 || x.2.held != []) && decide (x.2.ackAt + 256 ≤ s.cycle))).map (fun x => .relovAckTimer (x.1 % 2 ^ 20 / 16) (x.1 % 16)) ++
  (s.relov.send.map (fun x => (x.2.unacked.filter (fun p => decide (p.last + 8192 ≤ s.cycle))).map (fun p =>
    if p.failed s.cycle then Input.relovPathFailure (if x.1 / 16 < 0xFF00 then x.1 / 16 else ((s.members (x.1 / 16)).find? (fun m => !(m ∈ p.acked))).getD 0)
    else .relovResendTimeout (x.1 / 16) (x.1 % 16) p.pkt.num.toNat))).flatten ++
  (s.linkDirs.map (fun x => (x.2.unacked.filter (fun f => decide (f.sent + 2048 ≤ s.cycle))).map (fun f =>
    Input.dieResendTimeout (x.1 / 4) (x.1 % 4) f.flit.num.toNat))).flatten

/-- The next step of a tile-task record. -/
def tileTurn (s : State) (k : Nat) (r : TileRec) : Option Input :=
  if r.running == [] && r.stop.isSome then some (.tileStepStop k 0 0)
  else if r.running == [] && r.counts.any (fun c => decide (r.total c ≤ r.next)) then some (.tileRecordComplete k)
  else ((r.running.map (·.core) ++ r.ctx.core :: List.range coreCount).find? (fun c => s.tileReady r c)).map (fun c => .tileStepIssue k c)

/-- Whether a Hive may have work to hand out: an item, task or worker not started, or a sequencer pre-empted. -/
def State.mayDispatch (s : State) : Bool :=
  s.tasks != [] || s.saved != [] ||
  s.launches.any (fun x => !x.2.cancelled && (x.2.stages != [] || x.2.unstarted.any (fun u => u.2 != [])))

/-- Turns of the Hives. -/
def hiveTurns (s : State) : List Input :=
  s.spawns.map (fun x => .spawnArrival x.2.task.die) ++
  (s.cancels.map (fun c => ((c.2 :: List.range 4).filter (fun d => !s.marks.any (fun m => m == (d, c.1)))).take 1 |>.map (fun d =>
    Input.cancelMark d c.1))).flatten ++
  (s.launches.filter (fun x => s.launchDone x.1 x.2)).map (fun x => .launchComplete x.1) ++
  (s.hostQueues.filter (fun x => x.2.recs != [])).map (fun x => .hostQueueRecord (x.1 / 4) (x.1 % 4) 0 []) ++
  (s.launches.filter (fun x => x.2.ageNow s.cycle != [])).map (fun x => .energyAgeExpiry x.1) ++
  (s.launches.filter (fun x => x.2.started && x.2.stages != [] && decide (x.2.reviewAt + 4096 ≤ s.cycle))).map (fun x => .stageReview x.1) ++
  s.tiles.filterMap (fun x => tileTurn s x.1 x.2) ++
  (if !s.mayDispatch then []
   else (((List.range seqCount).find? (fun n => (s.seq n).phase == .free && (s.bestFor n).isSome)).map (fun n => Input.hiveDispatch n)).toList)

/-- Everything that an agent or a waiting sequencer could do now. -/
def pendingTurns (s : State) : List Turn :=
  (homeTurns s ++ s.engines.filterMap (fun x => engineTurn s x.1 x.2) ++ gatewayTurns s ++ hiveTurns s).map Turn.agent ++
  (s.seqs.filter (fun x => x.2.canRetry)).map (fun x => .seq x.1)

/-- The turn taken when none is laid down. -/
def defaultTurn (s : State) : Turn :=
  match nextSeq Seq.canRun s.rota s, pendingTurns s with
  | some n, [] => .seq n
  | none, [] => .agent .none
  | r, t :: ts =>
    match r with
    | some n => if s.cycle % 2 = 1 then .seq n else (t :: ts).getD (s.cycle / 2 % (ts.length + 1)) t
    | none => (t :: ts).getD (s.cycle % (ts.length + 1)) t

/-- The rotation goes on from the sequencer that it gave a turn. -/
def noteTurn (t : Turn) (s : State) : State :=
  match t with
  | .seq n => if (s.seq n).canRun then { s with rota := n } else s
  | .agent _ => s

end Sys2Proof.Machine
end

