-- ==== Sys2Proof/Machine/Step.lean ====
section
/-! DEFINITION. One step of the machine: the turn laid down next, or the default one. -/

namespace Sys2Proof.Machine

/-- A running sequencer's turn: a pre-emption asked for takes effect if this is a point of it (R412); otherwise one instruction is
fetched and executed. -/
def stepRunning (n : Nat) (s : State) : Result :=
  match preemptNow n s with
  | (true, s') => .next s'.tick
  | (false, s') =>
    let (r, s'') := fetchInstr.run.run s'
    match r with
    | .ok i => exec i s''
    | .error e => finishStep (.error e) s''

/-- A sequencer's turn. -/
def stepSeq (n : Nat) (s : State) : Result :=
  let s := { s with cur := n }
  if !s.powered then .fault .poweredOff
  else match (s.seq n).phase with
    | .running => stepRunning n s
    | .ending c => goOnEnding c s
    | _ => .next s.tick

/-- A turn. -/
def stepTurn (t : Turn) (s : State) : Result :=
  match t with
  | .seq n => stepSeq n s
  | .agent i =>
    match i.instr with
    | some j => exec j { s with input := i }
    | none => .next s.tick

/-- Whether the epochs advance now (R161). -/
def State.epochDue (s : State) : Bool := s.powered && decide (s.epochAt + 16384 ≤ s.cycle)

/-- Departures that wait at their cells are tried before every turn (R394). -/
def State.beforeTurn (s : State) : State := if s.departures = [] then s else retryDepartures s

/-- One step. An epoch that is due advances before anything else, so that no copy outlives its time (R162). -/
def step (s : State) : Host.Outcome State Fault Refusal :=
  if s.epochDue then exec .epochTick { s with input := .epochTick }
  else
    let s := s.beforeTurn
    match s.turns with
    | t :: rest => stepTurn t { s with turns := rest }
    | [] => stepTurn (defaultTurn s) (noteTurn (defaultTurn s) s)

/-- The state with the instruction of an opcode-table word placed where the next step fetches it. -/
def State.withFetchWord (s : State) (nbits w : Nat) : State := placeWord s nbits w

end Sys2Proof.Machine
end

