-- ==== Sys2Proof/Safety.lean ====
section
/-! DEFINITION. The terms in which claims are made: the sequencer whose turn it is, full registers, and the shapes of a next
state. -/

namespace Sys2Proof.Machine

/-- The sequencer whose turn it is. -/
def State.self (s : State) : Seq := s.seq s.cur

/-- A register of the sequencer whose turn it is, or an accumulator of its core, is full (R34). -/
def State.full (s : State) (f : RegFile) (r : Reg) : Prop := s.emptyReg f r = false

/-- The next state of an instruction that changes its own sequencer by f and falls through, one cycle later; everything else
is as before. -/
def State.fell (s : State) (f : Seq → Seq) : State := (s.modSeq s.cur fun q => (f q).advance).tick

/-- As `fell`, the next head fetched anew (R108). -/
def State.fellAnew (s : State) (f : Seq → Seq) : State := (s.modSeq s.cur fun q => (f q).advanceAnew).tick

/-- As `fell`, with control transferred to a target. -/
def State.jumped (s : State) (f : Seq → Seq) (t : Pc) : State := (s.modSeq s.cur fun q => (f q).transfer t).tick

/-- The next state of an instruction that changes nothing but to take a trap: it is taken now, or once older arrivals at other devices
are answered (R44, R406). -/
def State.trapped (s : State) (t : Trap) : State := (raiseTrap s.cur t s).tick

/-- A scalar result of another unit (R34): the value stands, and the register is empty until its producer completes. s0 takes
nothing. -/
def Seq.sentLong (q : Seq) (r : Reg) (v : DWord) (t : Nat) : Seq :=
  if r = 0 then q else { (q.setScalar r v).setEmpty .scalar r with outst := q.outst ++ [(.scalar, r, t)] }

/-- A release at a scope need not wait (R160, R386): no store of the sequencer's core is held back at its home, and at sys no remote
copy of the sequencer is outstanding. -/
def State.mayRelease (s : State) (sc : Scope) : Prop :=
  (sc ≠ .seq → (drainCore (coreOf s.cur) s).unacked (coreOf s.cur) = none) ∧
  (sc = .sys → s.engines.any (fun x => x.2.ctx.seq == s.cur && x.2.kind == .rcopy) = false)

/-- What a release at a scope by the sequencer leaves (R160). -/
def State.released (s : State) (sc : Scope) : State :=
  let c := coreOf s.cur
  let t := releaseL1 c sc (if sc = .seq then s else drainCore c s)
  if sc = .sys then hostHome c t else t

/-- The sequencer gives up its entry at a cell, if it has one. -/
def State.noCell (s : State) : State := s.modCore (coreOf s.cur) fun k => { k with cells := k.cells.filter (fun w => w.seq != s.cur) }

/-- The sequencer watches a cell from now on (R389). -/
def State.atCell (s : State) (va : Nat) (p : Place) (want : CellWant) : State :=
  s.noCell.modCore (coreOf s.cur) fun k => { k with cells := k.cells ++ [{ seq := s.cur, va := va, level := p.level, loc := p.loc, mat := p.mat, want := want }] }

/-- The cell that has ended the sequencer's wait, if one has. -/
def State.cellGot (s : State) : Option Nat := (s.cellWait s.cur).bind (·.got)

/-- What that end leaves: the copies of the cell that the core held are dropped (R381), and the entry is gone. -/
def State.gotCell (s : State) : State :=
  match s.cellWait s.cur with
  | some w => (dropCellCopies (coreOf s.cur) w.loc s).noCell
  | none => s.noCell

/-- A meaning runs to its end from a state, with a result and a state. -/
def Runs {α : Type} (m : M α) (s : State) (a : α) (s' : State) : Prop := m.run.run s = (.ok a, s')

/-- A meaning stops on the way. -/
def StopsWith {α : Type} (m : M α) (s : State) (st : Stop) (s' : State) : Prop := m.run.run s = (.error st, s')

/-- Every step of a list runs to its end, one after another. -/
def RunsAll {α : Type} (step : α → M Unit) : List α → State → State → Prop
  | [], s, t => s = t
  | a :: l, s, t => ∃ s1, Runs (step a) s () s1 ∧ RunsAll step l s1 t

/-- VTYPE is well formed and elements have the width of a type (R188). -/
def Seq.typed (q : Seq) (ty : Ty) : Prop := q.ill = false ∧ ty.width = q.sew

/-- A VA lies in a scratchpad window of its sequencer (R221), at an offset of the scratchpad of core k that the tenant holds,
with n bytes inside it, no combining entry there and no memory error anywhere. -/
def State.quietWindow (s : State) (va n k x : Nat) : Prop :=
  inWindow va = true ∧ windowTarget (coreOf s.cur) va = some (k, x) ∧ x + n ≤ 2 ^ 20 ∧ (s.core k).spOwner = s.self.tenant ∧
    (s.core k).comb = [] ∧ s.badWords = []

/-- The address form of a brick load or store by its sources (R187): unit, shaped, strided or indexed. -/
def State.formOf (s : State) (i : Nat) (b : Src) : AddrForm :=
  let v := s.self.scalar b.reg
  match i with
  | 0 => .unit
  | 1 => .shaped (v.toNat % 2 ^ 32) (v.toNat / 2 ^ 32)
  | 2 => .strided v.toInt (s.self.scalar (b.reg + 1)).toInt (s.self.scalar (b.reg + 2)).toInt
  | _ => .indexed b.reg.toNat

/-- The sources that a form reads are full. -/
def State.formFull (s : State) (i : Nat) (b : Src) : Prop :=
  match i with
  | 0 => True
  | 1 => s.full .scalar b.reg
  | 2 => s.full .scalar b.reg ∧ s.full .scalar (b.reg + 1) ∧ s.full .scalar (b.reg + 2)
  | _ => s.full .brick b.reg

/-- A 64-byte record, or any n bytes, at a VA read as one load by the sequencer (R181): the value, and the state after. -/
def State.loads (s : State) (va n v : Nat) (t : State) : Prop :=
  ∃ l p s1, Runs (resolve (s.ctx s.cur) .l1 kRead va n 0) s (l, p) s1 ∧
    Runs (loadBytes (s.ctx s.cur) p n false kRead va 0) s1 v t

/-- What a tier instruction leaves with page k of its pages done (R132): the instruction goes on with page k + 1, which ESTART names, at
a stopping point; or it falls through with ESTART 0. -/
def State.pageDone (s : State) (k pages : Nat) : State :=
  if k + 1 < pages then (s.modSeq s.cur fun q => { q with estart := BitVec.ofNat 40 (k + 1), wait := none, atStop := true }).tick
  else s.fell fun q => { q with estart := 0 }

/-- An engine command given to its engine: its status register empty until it completes (R229). -/
def State.entered (s : State) (c : EngCmd) : State :=
  let t : State := { s with engines := NMap.set s.engines s.nextCmd c, nextCmd := s.nextCmd + 1 }
  if c.d = 0 then t else t.modSeq t.cur (·.setEmpty .scalar c.d)

/-- An engine command accepted (R101, R228): every store of its core acknowledged, its source translated, and, where it writes memory,
its destination translated and placed, the source translated again (R106), and the destination checked and registered. -/
def State.accepts (s : State) (c : EngCmd) (t : State) : Prop :=
  (drainCore (coreOf s.cur) s).unacked (coreOf s.cur) = none ∧ ∃ src s1, Runs (translateSource c) (drainCore (coreOf s.cur) s) src s1 ∧
    ((c.memDst = false ∧ t = s1.entered { c with srcPages := src }) ∨
     (c.memDst = true ∧ ∃ l s2 c1 s3 src1 s4 c2 s5 s6, Runs (translateDest { c with srcPages := src }) s1 l s2 ∧
      Runs (placeDest { c with srcPages := src } l) s2 c1 s3 ∧ Runs (translateSource c1) s3 src1 s4 ∧
      Runs (checkDest { c1 with srcPages := src1 }) s4 c2 s5 ∧ Runs (registerDest s2.nextCmd c2) s5 () s6 ∧ t = s6.entered c2))

/-- Room in the Trowel that a walk goes to (R224). -/
def State.trowelRoom (s : State) : Prop := (s.walksOf (trowelOf (coreOf s.cur))).length < 16

/-- Every branch goes to a scratchpad that the tenant holds (R221). -/
def State.ownsBranches (s : State) (c : EngCmd) : Prop := ∀ b ∈ c.branches, ∀ k ∈ c.coresOf b, (s.core k).spOwner = s.self.tenant

/-- A brick element read at an offset without going to memory (R259): of the brick itself, of a register of its field, or 0 on a
zero face. -/
def Seq.readAt (q : Seq) (ty : Ty) (b : Nat) (o : Off) (e : Nat) : Option Nat :=
  if offZero o then some ((q.elem b e).toNat % 2 ^ ty.width)
  else match q.resolveElem b o e with
    | .elem r k => some ((q.elem r k).toNat % 2 ^ ty.width)
    | .zero => some 0
    | _ => none

/-- Every register that a brick source at an offset can reach is full (R261). -/
def State.reachFull (s : State) (b : Reg) (o : Off) : Prop :=
  ∀ r ∈ s.self.reachRegs b.toNat o, s.full .brick (BitVec.ofNat 6 r)

/-- A brick whose elements stand is written by a unit (R34, R36): empty, its slivers pending, until its producer completes. -/
def Seq.sentBrick (q : Seq) (d : Reg) (es : List Nat) (t : Nat) : Seq :=
  { (q.setEmpty .brick d) with
    outst := q.outst ++ [(.brick, d, t)]
    pend := es.foldl (fun p e => NMap.set p (1024 * d.toNat + e / 8) ()) q.pend }

/-- An instruction that writes elements of a brick: those listed hold the values given, no other element of any brick changes,
ESTART becomes 0, and nothing else changes. -/
def WritesBrick (i : Instr) (s : State) (d : Reg) (es : List Nat) (f : Nat → DWord) : Prop :=
  ∃ t, exec i s = .next t ∧ (∀ e ∈ es, t.self.elem d.toNat e = f e) ∧
    (∀ b e, e < 8192 → b ≠ d.toNat ∨ ¬e ∈ es → t.self.elem b e = s.self.elem b e) ∧
    t = s.fell fun q => { q with bricks := t.self.bricks, estart := 0 }

end Sys2Proof.Machine
end

