-- ==== Sys2Proof/Certificates/Slice0/Obligations.lean ====
section
/-! DEFINITION. The statements for the provers. -/

open Sys2Proof Sys2Proof.Machine

/-- The two-source arithmetic, logic, shift and product instructions write s[D] and nothing else. With s[A], s[B] and s[D] full,
each of these instructions answers a next state in which s[D] holds the result of the table modulo 2^64, control has fallen
through, one cycle has passed and everything else (memory, flags, every other register) is as before. Shifts use b[5:0].
Writes to s0 are discarded. With its registers full, mulh gives bits 127:64 of the product of the sign-extended operands and
mulhn those of the zero-extended operands, as 128-bit arithmetic; everything else is as before. (13 Scalar integer
instructions (table of R333, MN 0x00 to 0x09); 13 Scalar integer instructions (table of R333, MN 0x0A and 0x0B).) -/
def Obligations.ScalarTwoSourceResults : Prop :=
  (∀ (o : RArgs) (s : State), s.full .scalar o.sa.reg → s.full .scalar o.sb.reg → s.full .scalar o.d →
    let a := s.self.scalar o.sa.reg
    let b := s.self.scalar o.sb.reg
    let gives (i : Instr) (v : DWord) : Prop := exec i s = .next (s.fell (·.setScalar o.d v))
    gives (.add o) (a + b) ∧ gives (.sub o) (a - b) ∧ gives (.andB o) (a &&& b) ∧ gives (.orB o) (a ||| b) ∧
    gives (.xorB o) (a ^^^ b) ∧ gives (.andn o) (a &&& ~~~b) ∧ gives (.shl o) (a <<< (b.toNat % 64)) ∧
    gives (.shr o) (a >>> (b.toNat % 64)) ∧ gives (.sra o) (a.sshiftRight (b.toNat % 64)) ∧ gives (.mul o) (a * b)) ∧
  (∀ (o : RArgs) (s : State), s.full .scalar o.sa.reg → s.full .scalar o.sb.reg → s.full .scalar o.d →
    let a := s.self.scalar o.sa.reg
    let b := s.self.scalar o.sb.reg
    exec (.mulh o) s = .next (s.fell (·.setScalar o.d ((a.signExtend 128 * b.signExtend 128).extractLsb' 64 64))) ∧
    exec (.mulhn o) s = .next (s.fell (·.setScalar o.d ((a.zeroExtend 128 * b.zeroExtend 128).extractLsb' 64 64))))

/-- div, divn, rem and remn truncate towards zero, -2^63 by -1 does not trap, and a zero divisor takes trap 0x19. With registers
full and a divisor other than 0: divn and remn write the natural quotient and remainder; div writes the quotient truncated
towards zero modulo 2^64 (so -2^63 by -1 gives -2^63), rem writes a minus b times the quotient, with the sign of a. Everything
else is as before. div, divn, rem and remn with a full zero divisor take the integer divide-by-zero trap: cause 0x19, TVAL 0,
ESTART 0, the PC of the instruction; no register is written. (13 Scalar integer instructions (table of R333, MN 0x0C to 0x0F);
13 Scalar integer instructions (the sentence on a zero divisor in R333); 17 the table of causes (0x19).) -/
def Obligations.ScalarDivision : Prop :=
  (∀ (o : RArgs) (s : State), s.full .scalar o.sa.reg → s.full .scalar o.sb.reg → s.full .scalar o.d →
    s.self.scalar o.sb.reg ≠ 0 →
    let a := s.self.scalar o.sa.reg
    let b := s.self.scalar o.sb.reg
    let gives (i : Instr) (v : DWord) : Prop := exec i s = .next (s.fell (·.setScalar o.d v))
    gives (.div o) (BitVec.ofInt 64 (a.toInt.tdiv b.toInt)) ∧ gives (.divn o) (BitVec.ofNat 64 (a.toNat / b.toNat)) ∧
    gives (.rem o) (BitVec.ofInt 64 (a.toInt - b.toInt * a.toInt.tdiv b.toInt)) ∧
    gives (.remn o) (BitVec.ofNat 64 (a.toNat % b.toNat))) ∧
  (∀ (o : RArgs) (s : State), s.full .scalar o.sa.reg → s.full .scalar o.sb.reg → s.self.scalar o.sb.reg = 0 →
    ∀ i ∈ [Instr.div o, .divn o, .rem o, .remn o],
      exec i s = .next (s.trapped { cause := 0x19, tval := 0, estart := some 0 }))

/-- min, max, minn, maxn, slt and sltn. With registers full: min and max choose by the signed order, minn and maxn by the unsigned
order; slt and sltn write 1 if a is less than b and 0 otherwise. Everything else is as before. (13 Scalar integer instructions
(table of R333, MN 0x10 to 0x15).) -/
def Obligations.ScalarMinMaxAndCompare : Prop :=
  ∀ (o : RArgs) (s : State), s.full .scalar o.sa.reg → s.full .scalar o.sb.reg → s.full .scalar o.d →
    let a := s.self.scalar o.sa.reg
    let b := s.self.scalar o.sb.reg
    let gives (i : Instr) (v : DWord) : Prop := exec i s = .next (s.fell (·.setScalar o.d v))
    gives (.min o) (if a.toInt ≤ b.toInt then a else b) ∧ gives (.max o) (if b.toInt ≤ a.toInt then a else b) ∧
    gives (.minn o) (if a.toNat ≤ b.toNat then a else b) ∧ gives (.maxn o) (if b.toNat ≤ a.toNat then a else b) ∧
    gives (.slt o) (if a.toInt < b.toInt then 1 else 0) ∧ gives (.sltn o) (if a.toNat < b.toNat then 1 else 0)

/-- clz, ctz and popc count the leading zeros, trailing zeros and set bits of s[A]. With registers full, the instruction writes a
count n and nothing else. clz: the n top bits of a are 0 and the next one, if n < 64, is 1. ctz: the n low bits are 0 and the
next one, if n < 64, is 1. popc: n is the number of bits that are 1. Of 0, clz and ctz give 64. (13 Scalar integer
instructions (table of R333, MN 0x16 to 0x18).) -/
def Obligations.ScalarBitCounts : Prop :=
  ∀ (o : RArgs) (s : State), s.full .scalar o.sa.reg → s.full .scalar o.d →
    let a := s.self.scalar o.sa.reg
    let gives (i : Instr) (n : Nat) : Prop := exec i s = .next (s.fell (·.setScalar o.d (BitVec.ofNat 64 n)))
    (∃ n ≤ 64, gives (.clz o) n ∧ (∀ i, i < n → a.getLsbD (63 - i) = false) ∧ (n < 64 → a.getLsbD (63 - n) = true)) ∧
    (∃ n ≤ 64, gives (.ctz o) n ∧ (∀ i, i < n → a.getLsbD i = false) ∧ (n < 64 → a.getLsbD n = true)) ∧
    gives (.popc o) ((List.range 64).filter a.getLsbD).length

/-- addi, andi, ori, xori, shli, shri, srai, slti and sltni on the sign-extended immediate. With s[A] and s[D] full, x the sign
extension of IMM17 and k its low 6 bits: each instruction writes s[D] with the result of the table and changes nothing else.
sltni reads x as an unsigned 64-bit number. Head 0x0A00 + 4·D with an IA tail of the minor decodes to the instruction with D,
SA and IMM17 as given, for a shift only where IMM17[16:6] is 0. (R334.) -/
def Obligations.ScalarImmediates : Prop :=
  (∀ (o : IArgs) (s : State), s.full .scalar o.sa.reg → s.full .scalar o.d →
    let a := s.self.scalar o.sa.reg
    let x : DWord := o.imm.signExtend 64
    let k := (o.imm.extractLsb' 0 6).toNat
    let gives (i : Instr) (v : DWord) : Prop := exec i s = .next (s.fell (·.setScalar o.d v))
    gives (.addi o) (a + x) ∧ gives (.andi o) (a &&& x) ∧ gives (.ori o) (a ||| x) ∧ gives (.xori o) (a ^^^ x) ∧
    gives (.shli o) (a <<< k) ∧ gives (.shri o) (a >>> k) ∧ gives (.srai o) (a.sshiftRight k) ∧
    gives (.slti o) (if a.toInt < x.toInt then 1 else 0) ∧ gives (.sltni o) (if a.toNat < x.toNat then 1 else 0)) ∧
  (∀ o : IArgs,
    let word (mn : BitVec 8) : Except DecodeError Instr :=
      decode (0x0A00 + (o.d.setWidth 16 <<< 2)) ((mn ++ o.sa.pack ++ o.imm : BitVec 32).setWidth 64)
    word 0x00 = .ok (.addi o) ∧ word 0x01 = .ok (.andi o) ∧ word 0x02 = .ok (.ori o) ∧ word 0x03 = .ok (.xori o) ∧
    (o.imm.extractLsb' 6 11 = 0 → word 0x04 = .ok (.shli o) ∧ word 0x05 = .ok (.shri o) ∧ word 0x06 = .ok (.srai o)) ∧
    (o.imm.extractLsb' 6 11 ≠ 0 → ∀ i, word 0x04 ≠ .ok i ∧ word 0x05 ≠ .ok i ∧ word 0x06 ≠ .ok i) ∧
    word 0x07 = .ok (.slti o) ∧ word 0x08 = .ok (.sltni o))

/-- movi writes the sign-extended immediate, movi.w64 the 64-bit one, lea a code address. With s[D] full: movi writes sext(IMM32),
movi.w64 writes IMM64, and lea writes the line address of the PC plus DISP27 lines, with the head index in bits 5:0. Nothing
else changes. (13 Scalar integer instructions (table of R335).) -/
def Obligations.ScalarConstantsAndCodeAddresses : Prop :=
  ∀ (d : Reg) (s : State), s.full .scalar d →
    (∀ imm : BitVec 32, exec (.movi d imm) s = .next (s.fell (·.setScalar d (imm.signExtend 64)))) ∧
    (∀ imm : DWord, exec (.moviW64 d imm) s = .next (s.fell (·.setScalar d imm))) ∧
    (∀ (disp : BitVec 27) (head : BitVec 5), exec (.lea d disp head) s =
      .next (s.fell (·.setScalar d
        (((lineOf s.self.pc + disp.signExtend 50) ++ (0 : BitVec 6) + head.setWidth 56).setWidth 64))))

/-- The scalar floating instructions write their result and merge its flags, or trap on an enabled one. With registers full and no
flag that the operation raises enabled: fadd, fsub, fmul, fdiv, fsqrt, fmin, fmax, ffma and fcvt write s[D] with the result of
the operation on the low bits of their operands, zero above, and OR the flags into FSR; fcmp writes p[D] with the comparison
instead. ffma adds the old s[D]. fcvt reads its operand in the format that OT names. The mode is RND, or FSR.RM under .dyn.
Nothing else changes. With registers full and some flag that fadd, fsub, fmul, fdiv, fsqrt, fmin, fmax, ffma, fcvt or fcmp
raises enabled: trap 0x18 with TVAL the flags raised and ESTART 0; s[D], p[D] and FSR are unchanged. (13 Scalar floating point
(R336); 03 The floating-point status register (R83); 03 The floating-point status register (R84, for a scalar instruction).) -/
def Obligations.ScalarFloatResults : Prop :=
  (∀ (o : FArgs) (s : State), s.full .scalar o.sa.reg → s.full .scalar o.sb.reg → s.full .scalar o.d →
    let q := s.self
    let f := Ty.fmt o.ty
    let m := q.mode o.rnd false
    let w := o.ty.width
    let a := (q.scalar o.sa.reg).toNat % 2 ^ w
    let b := (q.scalar o.sb.reg).toNat % 2 ^ w
    let c := (q.scalar o.d).toNat % 2 ^ w
    let src := fcvtSource o.cond
    let gives (i : Instr) (r : Nat × Flags) : Prop := r.2 &&& q.enables = 0 →
      exec i s = .next (s.fell fun q => (q.mergeFlags r.2).setScalar o.d (BitVec.ofNat 64 r.1))
    gives (.fadd o) (fpAdd f a b m) ∧ gives (.fsub o) (fpSub f a b m) ∧ gives (.fmul o) (fpMul f a b m) ∧
    gives (.fdiv o) (fpDiv f a b m) ∧ gives (.fsqrt o) (fpSqrt f a m) ∧ gives (.fmin o) (fpMinMax f false a b) ∧
    gives (.fmax o) (fpMinMax f true a b) ∧ gives (.ffma o) (fpFma f false false a b c m) ∧
    gives (.fcvt o) (convert f src ((q.scalar o.sa.reg).toNat % 2 ^ src.width) m 0) ∧
    (let r := fpCmp f o.cond.toNat a b
     r.2 &&& q.enables = 0 → exec (.fcmp o) s = .next (s.fell fun q => (q.mergeFlags r.2).setPred o.d.toNat r.1))) ∧
  (∀ (o : FArgs) (s : State), s.full .scalar o.sa.reg → s.full .scalar o.sb.reg → s.full .scalar o.d →
    let q := s.self
    let f := Ty.fmt o.ty
    let m := q.mode o.rnd false
    let a := (q.scalar o.sa.reg).toNat % 2 ^ o.ty.width
    let b := (q.scalar o.sb.reg).toNat % 2 ^ o.ty.width
    let c := (q.scalar o.d).toNat % 2 ^ o.ty.width
    let src := fcvtSource o.cond
    let traps (i : Instr) (fl : Flags) : Prop := fl &&& q.enables ≠ 0 →
      exec i s = .next (s.trapped { cause := 0x18, tval := fl.setWidth 64, estart := some 0 })
    traps (.fadd o) (fpAdd f a b m).2 ∧ traps (.fsub o) (fpSub f a b m).2 ∧ traps (.fmul o) (fpMul f a b m).2 ∧
    traps (.fdiv o) (fpDiv f a b m).2 ∧ traps (.fsqrt o) (fpSqrt f a m).2 ∧ traps (.ffma o) (fpFma f false false a b c m).2 ∧
    traps (.fcvt o) (convert f src ((q.scalar o.sa.reg).toNat % 2 ^ src.width) m 0).2 ∧ traps (.fmin o) (fpMinMax f false a b).2 ∧
    traps (.fmax o) (fpMinMax f true a b).2 ∧ traps (.fcmp o) (fpCmp f o.cond.toNat a b).2)

/-- pset, pand, por, pxor, pnot, ptest and csel. pset writes p[D] with the comparison that COND names (0 eq, 1 ne, 2 lt, 3 ge
signed, 4 ltn, 5 gen unsigned, 6 true, 7 false); pand, por, pxor and pnot write it with the connective; ptest with any, all or
none of the bits of m[A] below VL; csel writes s[D] with s[A] if p[N] and s[B] otherwise. Writes to p0 are ignored. Nothing
else changes. Scalars that are read, and s[D] of csel, are full. (13 Predicates (R337).) -/
def Obligations.PredicateResults : Prop :=
  ∀ (o : RArgs) (s : State), s.full .scalar o.sa.reg → s.full .scalar o.sb.reg →
    let q := s.self
    let a := q.scalar o.sa.reg
    let b := q.scalar o.sb.reg
    let pa := q.pred o.sa.reg.toNat
    let pb := q.pred o.sb.reg.toNat
    let below := (List.range q.vl).map (q.mask o.sa.reg.toNat).getLsbD
    let gives (i : Instr) (v : Bool) : Prop := exec i s = .next (s.fell (·.setPred o.d.toNat v))
    gives (.pset o) (match o.mod.toNat % 8 with
      | 0 => decide (a = b) | 1 => decide (a ≠ b) | 2 => decide (a.toInt < b.toInt) | 3 => decide (b.toInt ≤ a.toInt)
      | 4 => decide (a.toNat < b.toNat) | 5 => decide (b.toNat ≤ a.toNat) | 6 => true | _ => false) ∧
    gives (.pand o) (pa && pb) ∧ gives (.por o) (pa || pb) ∧ gives (.pxor o) (pa ^^ pb) ∧ gives (.pnot o) (!pa) ∧
    (q.vl ≤ 8192 → o.mod.toNat % 4 < 3 → gives (.ptest o) (match o.mod.toNat % 4 with
      | 0 => below.any id | 1 => below.all id | _ => !below.any id)) ∧
    (s.full .scalar o.d →
      exec (.csel o) s = .next (s.fell (·.setScalar o.d (if q.pred (o.mod.toNat % 16) then a else b))))

/-- br, j, jl, jlr and jr set the PC, and the calls write the next PC to s[D] first. br transfers to its target if p[D[3:0]] XOR
D[5], and falls through otherwise. j and jl transfer to the target, jr and jlr to s[A][55:0] as read before the link is
written. jl and jlr write the next PC of R14 to s[D]. Nothing else changes but what every transfer leaves (the line is entered
afresh). Scalars read or written are full. (13 Branches and calls (R338); 01 Tail formats (R19).) -/
def Obligations.BranchesAndCalls : Prop :=
  (∀ (o : BArgs) (s : State),
    let t := (lineOf s.self.pc + o.disp.signExtend 50) ++ o.head.setWidth 6
    exec (.br o) s = .next (if s.self.pred (o.d.toNat % 16) ^^ o.d.getLsbD 5 then s.jumped id t else s.fell id) ∧
    exec (.j o) s = .next (s.jumped id t) ∧
    (s.full .scalar o.d → exec (.jl o) s = .next (s.jumped (·.setScalar o.d (s.self.nextPc.setWidth 64)) t))) ∧
  (∀ (o : RArgs) (s : State), s.full .scalar o.sa.reg →
    let t := (s.self.scalar o.sa.reg).setWidth 56
    exec (.jr o) s = .next (s.jumped id t) ∧
    (s.full .scalar o.d → exec (.jlr o) s = .next (s.jumped (·.setScalar o.d (s.self.nextPc.setWidth 64)) t)))

/-- loop, endl and brkl push, count and pop the innermost entry of the loop stack, or take the loop-stack trap. loop with s[D]
full: a count of 0 transfers to EXIT; otherwise, with fewer than 6 entries, the entry (next PC, EXIT, count) is pushed and
control falls through. endl with an entry and no abort line raised for its launch: the count goes down by one; if it is then
above 0 control goes to START, else the entry is popped and control goes to EXIT. brkl pops and goes to EXIT. Nothing else
changes. The loop-stack trap is cause 0x01 with ESTART 0 and TVAL the head with bit 16 set; loop takes it with a count other
than 0 and 6 entries, endl and brkl with none. The stack is left unchanged. (13 Loops (R339); 13 The abort line (R344, first
sentence); 13 Loops (the loop-stack trap of R339).) -/
def Obligations.LoopsRun : Prop :=
  ((∀ (o : BArgs) (s : State), s.full .scalar o.d →
    let n := s.self.scalar o.d
    let exit := (lineOf s.self.pc + o.disp.signExtend 50) ++ o.head.setWidth 6
    (n = 0 → exec (.loop o) s = .next (s.jumped id exit)) ∧
    (n ≠ 0 → s.self.loops.length < 6 →
      exec (.loop o) s = .next (s.fell fun q => { q with loops := ⟨s.self.nextPc, exit, n⟩ :: q.loops }))) ∧
  (∀ (s : State) (l : LoopEntry) (rest : List LoopEntry), s.self.loops = l :: rest →
    exec .brkl s = .next (s.jumped (fun q => { q with loops := rest }) l.exit) ∧
    ((∀ k, s.self.launch = some k → NMap.get? (s.cluster (clusterOf s.cur)).abort k = none) →
      exec .endl s = .next (s.modSeq s.cur fun q =>
        { (if l.count ≤ 1 then ({ q with loops := rest }).transfer l.exit
           else ({ q with loops := { l with count := l.count - 1 } :: rest }).transfer l.start) with atStop := true }).tick))) ∧
  (let trap (s : State) : Trap := { cause := 0x01, tval := s.self.head.setWidth 64 ||| 0x10000, estart := some 0 }
  (∀ (o : BArgs) (s : State), s.full .scalar o.d → s.self.scalar o.d ≠ 0 → 6 ≤ s.self.loops.length →
    exec (.loop o) s = .next (s.trapped (trap s)) ∧ (s.trapped (trap s)).self.loops = s.self.loops) ∧
  (∀ s : State, s.self.loops = [] →
    exec .endl s = .next (s.trapped (trap s)) ∧ exec .brkl s = .next (s.trapped (trap s)) ∧
    (s.trapped (trap s)).self.loops = []))

/-- strip consumes SLEN elements, advances its pointers, sets VL and SLEN and loops back while elements remain. With s[D] and
every pointer register full: r is s[D] less SLEN, or 0; each pointer P+j up to N (if P is not 0) other than s[D] goes up by
SLEN times 2^SZ[2j+1:2j] modulo 2^64; s[D] is r; VL and SLEN are 0 under an ill-formed VTYPE and min(r, BX*BY*BZ) otherwise;
control goes to the target if r > 0 and falls through otherwise; nothing else changes. (13 strip (R340, its effect).) -/
def Obligations.StripAdvances : Prop :=
  ∀ (o : StripArgs) (s : State), s.full .scalar o.d →
    (∀ j ≤ o.n.toNat, s.full .scalar (o.p + BitVec.ofNat 6 j)) →
    let q := s.self
    let c := q.slen
    let r := (q.scalar o.d).toNat - c
    let target := (lineOf q.pc + o.disp.signExtend 50) ++ o.head.setWidth 6
    let isPointer (k : Reg) (j : Nat) : Prop := o.p ≠ 0 ∧ j ≤ o.n.toNat ∧ k = o.p + BitVec.ofNat 6 j ∧ k ≠ o.d
    ∃ t, exec (.strip o) s = .next t ∧
      (o.d ≠ 0 → t.self.scalar o.d = BitVec.ofNat 64 r) ∧
      (∀ k j, k ≠ 0 → isPointer k j → t.self.scalar k =
        q.scalar k + BitVec.ofNat 64 (c * 2 ^ (o.sz.extractLsb' (2 * j) 2).toNat)) ∧
      (∀ k, k ≠ o.d → (∀ j, ¬isPointer k j) → t.self.scalar k = q.scalar k) ∧
      t.self.slen = (if q.ill then 0 else Min.min r q.volume) ∧ t.self.vl = t.self.slen ∧
      t.self.pc = (if 0 < r then target else q.nextPc) ∧
      t = (s.setSeq s.cur { q with s := t.self.s, vl := t.self.vl, slen := t.self.slen, pc := t.self.pc, wait := none,
                                   line := t.self.line, cameFrom := t.self.cameFrom, atStop := false, partWay := false }).tick

/-- An empty source with W = 1 takes trap 0x06; with W = 0 the instruction waits and does nothing. For any register file and
source: full, the check passes whatever W says. Empty with W = 1: trap 0x06, ESTART unchanged, TVAL the file in bits 7:6 and
the register in 5:0. Empty with W = 0 and its producer not finished: the instruction waits for the register. add shows what an
instruction then does: with an empty first source it takes that trap, or leaves its sequencer waiting with nothing else
changed. (01 Register files (R35).) -/
def Obligations.EmptySourceTraps : Prop :=
  ∀ (f : RegFile) (a : Src) (s : State),
    let code := match f with | .scalar => 0 | .brick => 1 | .acc => 2
    let trap : Trap := { cause := 0x06, tval := BitVec.ofNat 64 (64 * code + a.reg.toNat) }
    (s.full f a.reg → Runs (needFull f a) s () s) ∧
    (¬s.full f a.reg → a.w = true → StopsWith (needFull f a) s (.trap trap) s) ∧
    (¬s.full f a.reg → a.w = false → s.self.standing f a.reg = false → StopsWith (needFull f a) s (.wait (.reg f a.reg)) s) ∧
    (∀ o : RArgs, o.sa = a → f = .scalar → ¬s.full f a.reg →
      (a.w = true → exec (.add o) s = .next (s.trapped trap)) ∧
      (a.w = false → s.self.standing f a.reg = false →
        exec (.add o) s = .next (s.modSeq s.cur fun q => { q with wait := some (.reg f a.reg) }).tick))

/-- crd writes s[D] with the control register that MOD names and changes nothing else. At supervisor privilege, or for a register
that user code may read, with s[D] full: crd of each listed register number writes s[D] with the register, zero-extended.
LANES holds the grant code from bit 32 and GEN below; SEQID is the number within the core, COREID the core; EVQ holds the
count of records and, from bit 16, of those dropped, at most 65,535; SVENTRY is that of the die. (13 System instructions
(R346, crd); 01 Register files (R38); 09 Event queues (R242).) -/
def Obligations.ControlRegisterReads : Prop :=
  ∀ (o : RArgs) (s : State), s.full .scalar o.d →
    let q := s.self
    let d := s.die (dieOf s.cur)
    (q.priv = true ∨ (o.mod.toNat ≠ 0x020 ∧ o.mod.toNat ≠ 0x021 ∧ o.mod.toNat ≠ 0x030)) →
    ∀ x ∈ ([(0x000, q.estart.setWidth 64), (0x001, q.vtype), (0x002, BitVec.ofNat 64 q.vl), (0x003, BitVec.ofNat 64 q.mvl),
        (0x004, BitVec.ofNat 64 (d.ln * 2 ^ 32) ||| d.gen.setWidth 64), (0x005, q.fsr), (0x010, q.wid), (0x011, q.widfmt),
        (0x012, BitVec.ofNat 64 (s.cur % 4)), (0x013, BitVec.ofNat 64 (s.cur / 4)), (0x014, q.ctxtag), (0x018, q.tcause),
        (0x019, q.tval), (0x01A, q.tpc.setWidth 64), (0x01B, q.tstat.setWidth 64), (0x01C, q.tvec.setWidth 64),
        (0x01D, q.tsave), (0x020, q.xlroot), (0x021, q.asid.setWidth 64),
        (0x022, BitVec.ofNat 64 (q.evq.recs.length + 2 ^ 16 * Min.min q.evq.drops 65535)), (0x023, q.resvid), (0x024, q.mtcfg),
        (0x030, d.sventry.setWidth 64)] ++ (List.range 4).map (fun k => (8 + k, NMap.getD q.bfd k 0)) ++
        (List.range 4).map (fun k => (12 + k, NMap.getD q.halo k 0)) : List (Nat × DWord)),
      o.mod.toNat = x.1 → exec (.crd o) s = .next (s.fell (·.setScalar o.d x.2))

/-- cwr writes the fields of the register that MOD names, ignores reserved bits, and changes nothing else. With s[A] = v full,
each write sets exactly the writable fields. At either privilege: ESTART bits 39:0; FSR all fields, an RM of 6 or 7 stored as
0, and the 64 generators reseeded; TVAL whole; TCAUSE bits 17:0; TPC bits 55:0. At supervisor privilege: CTXTAG whole; TVEC
bits 55:0; TSTAT all fields but POL; TSAVE bits 55:12; XLROOT without its reserved bits; ASID bits 15:0; SVENTRY bits 55:0 of
the die of the sequencer. (13 System instructions (R346, cwr); 17 the trap registers (R408, R409); 03 The floating-point
status register (R82); 04 Translation control registers (R107).) -/
def Obligations.ControlRegisterWrites : Prop :=
  ∀ (o : RArgs) (s : State), s.full .scalar o.sa.reg →
    let v := s.self.scalar o.sa.reg
    let gives (i : Instr) (f : Seq → Seq) : Prop := exec i s = .next (s.fell f)
    let plain (n : Nat) (f : Seq → Seq) : Prop := o.mod.toNat = n → gives (.cwr o) f
    plain 0x018 (fun q => { q with tcause := (v.extractLsb' 0 18).setWidth 64 }) ∧ plain 0x019 (fun q => { q with tval := v }) ∧
    plain 0x01A (fun q => { q with tpc := v.setWidth 56 }) ∧
    (o.mod.toNat = 0x000 → gives (.estartWrite o) (fun q => { q with estart := v.setWidth 40 })) ∧
    (∃ f : DWord, (∀ i < 64, f.getLsbD i = (v.getLsbD i && decide ((i < 13 ∧ (10 ≤ i → v.toNat / 1024 % 8 < 6)) ∨ 32 ≤ i))) ∧
      (o.mod.toNat = 0x005 → gives (.fsrWrite o) (fun q => { q with
        fsr := f, gens := (List.range 64).map (fun l => (l, seedGen (v.extractLsb' 32 32) l)) }))) ∧
    (s.self.priv = true →
    gives (.estartWrite o) (fun q => { q with estart := v.setWidth 40 }) ∧
    (∃ f : DWord, (∀ i < 64, f.getLsbD i = (v.getLsbD i && decide ((i < 13 ∧ (10 ≤ i → v.toNat / 1024 % 8 < 6)) ∨ 32 ≤ i))) ∧
      gives (.fsrWrite o) (fun q => { q with
        fsr := f, gens := (List.range 64).map (fun l => (l, seedGen (v.extractLsb' 32 32) l)) })) ∧
    plain 0x014 (fun q => { q with ctxtag := v }) ∧ plain 0x01C (fun q => { q with tvec := v.setWidth 56 }) ∧
    plain 0x01D (fun q => { q with tsave := v &&& 0x00FFFFFFFFFFF000 }) ∧
    gives (.tstatWrite o) (fun q => { q with tstat := (q.tstat &&& 0xC00) ||| (v.setWidth 12 &&& 0x30F) }) ∧
    exec (.xlrootWrite o) s = .next (s.fellAnew fun q => { q with xlroot := v &&& 0x000FFFFFFFFFC7FF }) ∧
    exec (.asidWrite o) s = .next (s.fellAnew fun q => { q with asid := v.setWidth 16 }) ∧
    exec (.sventryWrite o) s =
      .next ((s.modDie (dieOf s.cur) fun d => { d with sventry := v.setWidth 56 }).fell id))

/-- A head that is no instruction takes trap 0x01; user code at a supervisor register or instruction takes trap 0x04; nothing else
changes. The illegal instruction completes in every state as its trap: cause 0x01 with TVAL the head, ESTART 0 and TPC at it,
taken as any trap is, once older arrivals at other devices are answered. At user privilege: crd of XLROOT, ASID or SVENTRY,
and every well-formed cwr, which names a register that the supervisor may write, but those of ESTART, FSR, TCAUSE, TVAL and
TPC, take trap 0x04 with TVAL the register number; flctx, flctx.all, tlbinv, tlbprobe, resv.quota, resv.pool, loffer, ltake,
lrecl, lret.ret and lret.free take it with TVAL the head. ESTART is 0, and nothing else has changed. (01 Register files (R39);
01 Illegal encodings (R43, R44); 17 the table of causes (0x01, 0x04).) -/
def Obligations.PrivilegeTraps : Prop :=
  (∀ s : State, exec .illegalInstruction s = .next (s.trapped { cause := 0x01, tval := s.self.head.setWidth 64, estart := some 0 })) ∧
  ∀ s : State, s.self.priv = false →
    let trap (v : DWord) : Trap := { cause := 0x04, tval := v, estart := some 0 }
    (∀ o : RArgs, (o.mod.toNat ∈ [0x020, 0x021, 0x030] →
        exec (.crd o) s = .next (s.trapped (trap (o.mod.setWidth 64)))) ∧
      (o.mod.toNat ∉ [0x000, 0x005, 0x018, 0x019, 0x01A] →
        ∀ i ∈ [Instr.cwr o, .tstatWrite o, .xlrootWrite o, .asidWrite o, .sventryWrite o], wellFormed i = true →
          exec i s = .next (s.trapped (trap (o.mod.setWidth 64)))) ∧
      ∀ i ∈ [Instr.flctx o, .flctxAll o, .tlbinv o, .tlbprobe o],
        exec i s = .next (s.trapped (trap (s.self.head.setWidth 64)))) ∧
    (∀ o : MArgs, ∀ i ∈ [Instr.resvQuota o, .resvPool o, .loffer o, .ltake o, .lrecl o, .lretRet o, .lretFree o],
      exec i s = .next (s.trapped (trap (s.self.head.setWidth 64))))

/-- trap raises cause 0x20 with TVAL s[A], CODE n, ESTART 0 and TPC the next instruction. With s[A] full, trap sA, n is taken as
any trap is, with TVAL := s[A] (0 for s0), TCAUSE := n in bits 17:8 and 0x20 below, ESTART 0 and TPC the next instruction.
Where it enters a handler, and no older arrival at another device is unanswered, these registers hold those values. Its words
decode to it: head 0x3200, and tail 0x02140011 for trap s5, 17. (R410.) -/
def Obligations.TrapInstruction : Prop :=
  (∀ (o : RArgs) (s : State), s.full .scalar o.sa.reg →
    let t : Trap := { cause := 0x20, code := o.mod, tval := s.self.scalar o.sa.reg, estart := some 0, tpc := some s.self.nextPc }
    exec (.trap o) s = .next (s.trapped t) ∧
    (s.arrivesRemote s.self.uid = false → (∀ dead, delivery 0x20 s.self (s.die (dieOf s.cur)).sventry ≠ .ends dead) →
      let q := (s.trapped t).self
      q.tval = s.self.scalar o.sa.reg ∧ q.tcause = (o.mod.setWidth 64 <<< 8) ||| 0x20 ∧ q.estart = 0 ∧
      q.tpc = s.self.nextPc)) ∧
  (∀ s : State, s.self.scalar 0 = 0) ∧
  (∀ (a : Src) (n : BitVec 10), decode 0x3200 (((0x02 : BitVec 8) ++ a.pack ++ (0 : BitVec 7) ++ n : BitVec 32).setWidth 64) =
    .ok (.trap ⟨0, a, ⟨0, false⟩, n⟩)) ∧
  decode 0x3200 0x02140011 = .ok (.trap ⟨0, ⟨5, false⟩, ⟨0, false⟩, 17⟩)

/-- sret restores PRIV and INH, clears HOLD and DBL and goes to TPC; outside a handler it is illegal. With TSTAT.INH = 0, sret
takes the illegal-instruction trap. With INH = 1 it waits while an older arrive.remote is unanswered; else: older results are
complete, PRIV := PPRIV, INH := PINH, HOLD := 0, DBL := 0, PC := TPC; POL, PPRIV, PINH, ESTART and every other register and
all of memory are unchanged. At user privilege with PPRIV = 0 it leaves PRIV 0. Its head 0x300D decodes to it. (R411.) -/
def Obligations.SretReturns : Prop :=
  decode 0x300D 0 = .ok .sret ∧
  (∀ s : State, s.self.tstat.getLsbD 2 = false →
    exec .sret s = .next (s.trapped { cause := 0x01, tval := s.self.head.setWidth 64, estart := some 0 })) ∧
  (∀ s : State, s.self.tstat.getLsbD 2 = true → s.arrivesRemote s.self.uid = true →
    exec .sret s = .next (s.setWait s.cur .engines).tick) ∧
  (∀ s : State, s.self.tstat.getLsbD 2 = true → s.arrivesRemote s.self.uid = false →
    let q := s.self.completeAll
    ∃ t, exec .sret s = .next t ∧ t.self.pc = s.self.tpc ∧
      t.self.priv = s.self.tstat.getLsbD 1 ∧ t.self.tstat.getLsbD 2 = s.self.tstat.getLsbD 3 ∧
      t.self.tstat.getLsbD 8 = false ∧ t.self.tstat.getLsbD 9 = false ∧ t.self.pol = s.self.pol ∧
      t.self.tstat.getLsbD 1 = s.self.tstat.getLsbD 1 ∧ t.self.tstat.getLsbD 3 = s.self.tstat.getLsbD 3 ∧
      t = (s.setSeq s.cur { q with tstat := t.self.tstat, pc := s.self.tpc, wait := none, atStop := false, partWay := false, line := none,
                                   cameFrom := some s.self.pc }).tick)

/-- Taking a trap: where it goes, what is saved, what status, privilege and PC become, and that nothing else changes. For any
sequencer n and trap t that enters a handler: TPC is the instruction of n, or the one t names; TCAUSE holds the cause and
code; TVAL is that of t; ESTART is that of t or unchanged; PPRIV, PINH are the PRIV and INH before, INH is 1; at the
supervisor entry PRIV is 1 and the PC is SVENTRY of the die, at a user handler PRIV stays and the PC is TVEC; HOLD and DBL are
set if the delivery says so and else stay. The links and wait-table entries of n, and of no other sequencer, are gone. Where
there is no entry the sequencer is left ending with code 2. Older long-latency results become full; every other register and
all other state of the sequencer, memory, every L1 and every other sequencer are unchanged. Under INH at supervisor privilege
there is no entry and the launch reports outcome 2; under INH at user privilege the supervisor entry with DBL; a cause for the
supervisor goes to the supervisor entry; otherwise policy 0 goes to TVEC, or ends the sequencer where TVEC is 0, policy 1 to
the supervisor entry with HOLD, policy 2 ends it. A delivery to a supervisor entry of 0 ends the sequencer with outcome 2. (17
the trap entry (R406); 17 the table of deliveries (R405).) -/
def Obligations.TrapEntrySavesAndSwitches : Prop :=
  (∀ (n : Nat) (t : Trap) (s : State),
    let q := s.seq n
    let r := takeTrap n t s
    let r' := r.seq n
    let sv := (s.die (dieOf n)).sventry
    let enters (priv hold dbl : Bool) (entry : Pc) : Prop :=
      r'.phase = q.phase ∧ r'.pc = entry ∧ r'.tpc = t.tpc.getD q.pc ∧
      r'.tcause = BitVec.ofNat 64 (t.code.toNat * 256 + t.cause) ∧ r'.tval = t.tval ∧
      r'.estart = (t.estart.map (BitVec.ofNat 40)).getD q.estart ∧ r'.priv = priv ∧ r'.inh = true ∧
      r'.tstat.getLsbD 1 = q.priv ∧ r'.tstat.getLsbD 3 = q.inh ∧
      r'.tstat.getLsbD 8 = (hold || q.tstat.getLsbD 8) ∧ r'.tstat.getLsbD 9 = (dbl || q.tstat.getLsbD 9) ∧ r'.pol = q.pol ∧
      r' = { q.completeAll with
        pc := entry, tpc := r'.tpc, tcause := r'.tcause, tval := t.tval, estart := r'.estart, tstat := r'.tstat, line := none,
        cameFrom := some q.pc, wait := none, atStop := false, partWay := false, hostAns := none }
    (match delivery t.cause q sv with
      | .ends outcome => r' = { q.completeAll with phase := .ending 2, wait := none, dead := q.dead || outcome }
      | .supervisor hold dbl => enters true hold dbl sv
      | .handler => enters q.priv false false q.tvec) ∧
    (∀ l ∈ (r.core (coreOf n)).links, l.seq ≠ n) ∧ (∀ w ∈ (r.core (coreOf n)).waits, w.2.seq ≠ n) ∧
    (∀ w ∈ (r.core (coreOf n)).cells, w.seq ≠ n) ∧
    r'.s = q.s ∧ r'.p = q.p ∧ r'.bricks = q.bricks ∧ r'.masks = q.masks ∧ r'.vl = q.vl ∧ r'.vtype = q.vtype ∧
    r'.fsr = q.fsr ∧ r'.loops = q.loops ∧ r'.slen = q.slen ∧ r'.bars = q.bars ∧ r'.resvid = q.resvid ∧ r'.mvl = q.mvl ∧
    r'.gens = q.gens ∧ r'.bfd = q.bfd ∧ r'.halo = q.halo ∧ r'.haloCopy = q.haloCopy ∧ r'.wid = q.wid ∧ r'.widfmt = q.widfmt ∧
    r'.ctxtag = q.ctxtag ∧ r'.tvec = q.tvec ∧ r'.tsave = q.tsave ∧ r'.xlroot = q.xlroot ∧ r'.asid = q.asid ∧ r'.evq = q.evq ∧
    r'.mtcfg = q.mtcfg ∧ r'.tcfg = q.tcfg ∧ r'.queues = q.queues ∧ r'.children = q.children ∧ r'.mstop = q.mstop ∧
    (∀ k, k ≠ n → r.seq k = s.seq k) ∧
    r = { s with seqs := r.seqs, cores := r.cores } ∧
    (∀ c, c ≠ coreOf n → r.core c = s.core c) ∧
    (let c := s.core (coreOf n)
     let full (a : Accum) : Accum := { a with full := a.full || a.writer == some q.uid }
     r.core (coreOf n) = { c with links := c.links.filter (fun l => l.seq != n), waits := c.waits.filter (fun w => w.2.seq != n),
                                  cells := c.cells.filter (fun w => w.seq != n), acc0 := full c.acc0, acc1 := full c.acc1 })) ∧
  (∀ (cause : Nat) (q : Seq) (sv : Pc),
    let sup (hold dbl : Bool) : Delivery := if sv = 0 then .ends true else .supervisor hold dbl
    let toSupervisor := cause ∈ [0x04, 0x08, 0x09, 0x0A, 0x0E, 0x10, 0x12, 0x13, 0x28, 0x29]
    (q.inh = true → q.priv = true → delivery cause q sv = .ends true) ∧
    (q.inh = true → q.priv = false → delivery cause q sv = sup false true) ∧
    (q.inh = false → toSupervisor → delivery cause q sv = sup false false) ∧
    (q.inh = false → ¬toSupervisor → q.pol = 0 → delivery cause q sv = if q.tvec = 0 then .ends false else .handler) ∧
    (q.inh = false → ¬toSupervisor → q.pol = 1 → delivery cause q sv = sup true false) ∧
    (q.inh = false → ¬toSupervisor → 2 ≤ q.pol → delivery cause q sv = .ends false))

/-- abort raises the line of its launch on its cluster after a release at clu; abchk reports it; endl ends the sequencer. abort by
a sequencer of a launch, once every store of its core is acknowledged: after the release at scope clu the launch has its line
raised on the cluster of the issuer, and no other cluster changes; without a launch only the release is performed. abchk never
ends the sequencer: without a launch or a raised line it writes false; with a line found before, or 64 cycles or more after
the abort, it writes true; before that it may write either. endl, which samples, then ends the sequencer with code 1 where the
line is found; the sequencer that raised the line finds it at once. (13 The abort line (R343, R344).) -/
def Obligations.AbortLineRaisedAndSampled : Prop :=
  (∀ (o : RArgs) (s : State),
    s.mayRelease .clu →
    let s1 := s.released .clu
    (s.self.launch = none → exec (.abortLine o) s = .next (s1.fell id)) ∧
    (∀ l, s1.self.launch = some l → ∃ t, exec (.abortLine o) s = .next t ∧
      (NMap.get? (t.cluster (clusterOf s.cur)).abort l).isSome = true ∧
      (∀ k, k ≠ clusterOf s.cur → t.cluster k = s1.cluster k) ∧ t.mem = s1.mem ∧ t.self.pc = s1.self.nextPc)) ∧
  (∀ (o : RArgs) (s : State),
    let line := s.self.launch.bind (NMap.get? (s.cluster (clusterOf s.cur)).abort)
    let late (x : Bool × Nat × Nat) : Prop := x.1 = true ∨ x.2.1 + 64 ≤ s.cycle
    (line = none → exec (.abchk o) s = .next (s.fell (·.setPred o.d.toNat false))) ∧
    (∀ x, line = some x → late x → exec (.abchk o) s = .next (s.fell (·.setPred o.d.toNat true)) ∧
      (s.self.loops ≠ [] → exec .endl s = .next (s.modSeq s.cur fun q => { q with phase := .ending 1, wait := none }).tick)) ∧
    (∀ x, line = some x → x.2.2 = s.self.uid → s.self.loops ≠ [] →
      ∃ t, exec .endl s = .next t ∧ t.self = { s.self with phase := .ending 1, wait := none } ∧ t.mem = s.mem) ∧
    (∀ x, line = some x → ¬late x → ∃ t v, exec (.abchk o) s = .next t ∧ t.self = (s.self.setPred o.d.toNat v).advance ∧
      t.mem = s.mem))

/-- fork starts a free sequencer of the core as a child, or gives 2^63; rdv waits for a child, collects its end code once, and
gives 2^63 for anything else. fork with every scalar full once older results stand, and every store of its core acknowledged,
after a release at scope core: with no free sequencer of the core, s[D] := 2^63 and nothing starts. Otherwise some free
sequencer k of the core starts at the target: it runs, has the scalars, predicates, FSR, queue handles, RESVID, WID, WIDFMT,
CTXTAG, TVEC, TSAVE, launch, group, privilege, policy, XLROOT and ASID of the parent, s[D] = 2^62 + the SEQID of the parent,
every other trap register, mask, brick, loop, queue and configuration empty with VTYPE ill-formed, generators seeded from FSR,
and is a child; s[D] of the parent is its SEQID. With s[A] and s[D] full: a value that names no uncollected child gives 2^63
at once; an ended child gives its end code after an acquire at scope core, and is collected; a child that has not ended leaves
rdv waiting. (13 Forked sequencers (R341); 13 Forked sequencers (R342).) -/
def Obligations.ForkStartsASibling : Prop :=
  (∀ (o : BArgs) (s : State), s.self.phase = .running →
    let s0 := s.modSeq s.cur Seq.completeAll
    s0.self.sEmpty = 0 →
    s0.mayRelease .core →
    let s1 := s0.released .core
    let free := s1.freeSiblings (coreOf s.cur)
    (free = [] → exec (.fork o) s = .next (s1.fell (·.setScalar o.d (BitVec.ofNat 64 (2 ^ 63))))) ∧
    (free ≠ [] → ∃ k ∈ free, ∃ t, exec (.fork o) s = .next t ∧
      (o.d ≠ 0 → t.self.scalar o.d = BitVec.ofNat 64 (k % 4)) ∧ (∀ r, r ≠ o.d → t.self.scalar r = s.self.scalar r) ∧
      t.self.pc = s1.self.nextPc ∧
      (let p := s1.self
       let b := t.seq k
       (∃ c ∈ t.self.children, c.seqid = k % 4 ∧ c.uid = b.uid ∧ c.code = none) ∧ b.parent = some p.uid ∧
       b.phase = .running ∧ b.pc = (lineOf p.pc + o.disp.signExtend 50) ++ o.head.setWidth 6 ∧
       (∀ r, r ≠ o.d → b.scalar r = p.scalar r) ∧ (o.d ≠ 0 → b.scalar o.d = BitVec.ofNat 64 (2 ^ 62 + s.cur % 4)) ∧
       b.p = p.p ∧ b.fsr = p.fsr ∧ b.queues = p.queues ∧ b.resvid = p.resvid ∧ b.wid = p.wid ∧ b.widfmt = p.widfmt ∧
       b.ctxtag = p.ctxtag ∧ b.tvec = p.tvec ∧ b.tsave = p.tsave ∧ b.launch = p.launch ∧ b.group = p.group ∧
       b.priv = p.priv ∧ b.pol = p.pol ∧ b.inh = false ∧ b.xlroot = p.xlroot ∧ b.asid = p.asid ∧ b.tcause = 0 ∧
       b.tval = 0 ∧ b.tpc = 0 ∧ b.masks = [] ∧ b.bricks = [] ∧ b.ill = true ∧ b.vl = 0 ∧ b.slen = 0 ∧ b.loops = [] ∧
       b.estart = 0 ∧ b.bfd = [] ∧ b.halo = [] ∧ b.mtcfg = 0 ∧ b.evq = {} ∧
       (∀ l < 64, NMap.get? b.gens l = some (seedGen (p.fsr.extractLsb' 32 32) l))))) ∧
  (∀ (o : RArgs) (s : State), s.full .scalar o.sa.reg → s.full .scalar o.d →
    let a := (s.self.scalar o.sa.reg).toNat
    let child := s.self.children.find? (fun c => c.seqid == a)
    (child = none → exec (.rdv o) s = .next (s.fell (·.setScalar o.d (BitVec.ofNat 64 (2 ^ 63))))) ∧
    (∀ c k, child = some c → c.code = some k → exec (.rdv o) s =
      .next ((acquireL1 (coreOf s.cur) .core s).fell fun q =>
        { q with children := q.children.filter (fun x => x.seqid != c.seqid) }.setScalar o.d (BitVec.ofNat 64 k))) ∧
    (∀ c, child = some c → c.code = none → exec (.rdv o) s =
      .next (s.modSeq s.cur fun q => { q with wait := some (.rdv c.seqid) }).tick))

/-- halt and done end the sequencer; yield and nop go on; wfe completes where one of its events stands, and else waits. halt, with
no engine command or remote arrival outstanding and every store of its core acknowledged, its departures performed, or left at
cells they must wait at, after the release at scope dev: the sequencer becomes free, with its links and wait entries gone.
done in a work item, task or worker ends every sequencer of it: after a release at scope dev the other running ones are ending
with code 0, those saved are gone with code 0, and it ends as halt ends one; stated too where it counts for no barrier and
none is saved. That done ends a sequencer of no work, as halt does, is the model's reading (log 82). yield at supervisor
privilege, or where the Hive of its die has nothing of the same or a higher priority for the place, writes false to p[D] and
falls through, to a point of pre-emption. nop falls through and changes nothing. wfe falls through and changes nothing where
the event queue holds a record, or the abort line of its launch is raised on its cluster, or it has waited to its deadline or
seen a child end; issued with none of these it waits, at most until 65,536 cycles from its issue; that a child which had ended
before does not end it is the model's reading (log 63). (13 System instructions (R348); 14 the task instructions (R376, R377);
13 System instructions (R347, R349).) -/
def Obligations.HaltDoneAndYield : Prop :=
  ((∀ (s s2 : State), s.enginesOf s.cur = [] → s.arrivesRemote s.self.uid = false → s.mayRelease .dev →
    Runs departAll (s.released .dev) () s2 →
    exec .halt s = .next (finishEnd s.cur 0 s2).tick ∧ ((finishEnd s.cur 0 s2).tick.seq s.cur).phase = .free) ∧
  (∀ (o : RArgs) (s s2 : State), s.enginesOf s.cur = [] → s.arrivesRemote s.self.uid = false → s.mayRelease .dev →
    let s1 := s.released .dev
    s1.self.work = none → s1.enginesOf s.cur = [] → s1.arrivesRemote s1.self.uid = false → s1.mayRelease .dev →
    Runs departAll (s1.released .dev) () s2 →
    exec (.done o) s = .next (finishEnd s.cur 0 s2).tick ∧ ((finishEnd s.cur 0 s2).tick.seq s.cur).phase = .free) ∧
  (∀ (o : RArgs) (s : State) (w : Nat), s.enginesOf s.cur = [] → s.arrivesRemote s.self.uid = false → s.mayRelease .dev →
    let r := s.released .dev
    r.self.work = some w → ∀ r1, RunsAll (fun x => releaseSaved x.2) (r.saved.filter (fun x => x.2.q.work == some w)) r r1 → r1.cur = s.cur →
    let s1 : State := { r1 with seqs := NMap.mapVals r1.seqs (fun m k =>
      if m ≠ s.cur ∧ k.work = some w ∧ k.phase = .running then { k with phase := .ending 0, wait := k.wait.filter Wait.isHost } else k) }
    let saved := (s1.saved.filter (fun x => x.2.q.work == some w)).map (·.1)
    (∀ s2 s3, RunsAll (fun k => endSaved k 0) saved s1 s2 → s2.cur = s.cur → s2.enginesOf s.cur = [] →
      s2.arrivesRemote s2.self.uid = false → s2.mayRelease .dev → Runs departAll (s2.released .dev) () s3 →
      exec (.done o) s = .next (finishEnd s.cur 0 s3).tick ∧ ((finishEnd s.cur 0 s3).tick.seq s.cur).phase = .free) ∧
    (saved = [] → (s1.released .dev).self.bars = [] → s1.enginesOf s.cur = [] → s1.arrivesRemote s1.self.uid = false → s1.mayRelease .dev →
      exec (.done o) s = .next (finishEnd s.cur 0 ((s1.released .dev).modSeq s.cur fun q => { q with bars := [] })).tick)) ∧
  (∀ (o : RArgs) (s : State),
    let prio := (s.self.launch.bind (fun j => (NMap.get? s.launches j).map (·.prio))).getD 8
    s.self.priv = true ∨ (∀ b ∈ (s.setSeq s.cur {}).readyHere s.cur, b.prio < prio) →
    exec (.yieldSeq o) s = .next (s.modSeq s.cur fun q => { (q.setPred o.d.toNat false).advance with atStop := true }).tick)) ∧
  ((∀ s : State, exec .nop s = .next (s.fell id)) ∧
  (∀ s : State,
    let line := s.self.launch.bind (NMap.get? (s.cluster (clusterOf s.cur)).abort)
    (s.self.evq.recs ≠ [] ∨ line.isSome = true ∨
      (∃ d c, s.self.wait = some (.wfe d c) ∧ (c = true ∨ d ≤ s.cycle)) → exec .wfe s = .next (s.fell id)) ∧
    (s.self.evq.recs = [] → line = none → s.self.wait = none → exec .wfe s =
      .next (s.modSeq s.cur fun q => { q with wait := some (.wfe (s.cycle + 65536) false) }).tick)))

/-- evpop removes the oldest record into four scalars; evwait ends with the count once n records are held. For its own queue, or
at supervisor privilege for that of the die (.sup), with its destinations full. evpop of an empty queue sets p[N] to 0 and
changes nothing else; otherwise the four dwords of the oldest record go to s[D] to s[D+3] (for D + 3 at most 63, s0 apart),
the record is removed, the overflow record takes its place if records were dropped, and p[N] is 1. evwait with at least n
records held writes the record count to s[D], a long-latency result, and falls through; with fewer and no timeout it waits.
(09 Event queues (R238, R240, R243).) -/
def Obligations.EventQueueInstructions : Prop :=
  ∀ (s : State) (sup : Bool), (sup = true → s.self.priv = true) →
    let e := if sup then (s.die (dieOf s.cur)).supq else s.self.evq
    (∀ o : RArgs, o.mod.getLsbD 4 = sup → (∀ i < 4, s.full .scalar (o.d + BitVec.ofNat 6 i)) →
      (e.recs = [] → exec (.evpop o) s = .next (s.fell (·.setPred (o.mod.toNat % 16) false))) ∧
      (∀ r rest, e.recs = r :: rest → o.d.toNat + 3 < 64 → ∃ t, exec (.evpop o) s = .next t ∧
        (∀ i < 4, o.d + BitVec.ofNat 6 i ≠ 0 → t.self.scalar (o.d + BitVec.ofNat 6 i) = r.extractLsb' (64 * i) 64) ∧
        (∀ k, (∀ i < 4, k ≠ o.d + BitVec.ofNat 6 i) → t.self.scalar k = s.self.scalar k) ∧
        (let e' := if sup then (t.die (dieOf s.cur)).supq else t.self.evq
         (e.drops = 0 → e'.recs = rest ∧ e'.drops = 0) ∧
         (e.drops ≠ 0 → e'.recs = rest ++ [Record.bits { kind := 0x0F, count := e.drops }] ∧ e'.drops = 0)) ∧
        (o.mod.toNat % 16 ≠ 0 → t.self.pred (o.mod.toNat % 16) = true) ∧ t.self.pc = s.self.nextPc ∧ t.mem = s.mem)) ∧
    (∀ o : MArgs, o.mod.getLsbD 0 = sup → s.full .scalar o.sa.reg → s.full .scalar o.d →
      (o.imm.toNat % 32 ≤ e.recs.length → ∃ t, exec (.evwait o) s = .next t ∧
        (o.d ≠ 0 → t.self.scalar o.d = BitVec.ofNat 64 e.recs.length) ∧ t.self.pc = s.self.nextPc ∧ t.mem = s.mem) ∧
      (e.recs.length < o.imm.toNat % 32 → s.self.scalar o.sa.reg = 0 → s.self.wait = none → exec (.evwait o) s =
        .next (s.modSeq s.cur fun q => { q with wait := some (.evwait sup (o.imm.toNat % 32) none o.d) }).tick))

/-- ld writes s[D] with the extended bytes of its place; a misaligned address traps; a scratchpad load reads memory. With its
registers full and a = (s[A] + sext(IMM17)) mod 2^56: a misaligned a takes trap 0x0D naming a, a read (its level field is 0
where there is no walk: the model's reading, log 13). Otherwise, where the address resolves to a place and the bytes are read
there (after the acquire of an acquire load), s[D] gets them, sign-extended for i8 to i64 and zero-extended for n8 to n32, as
a long-latency result, and control falls through. In the window of a core of its cluster whose scratchpad its tenant holds,
with no combining entry or memory error there, a relaxed load completes and its value is that of memory, which is unchanged.
(07 Scalar loads and stores (R183, R184, R185); 15 acquire loads (R385).) -/
def Obligations.ScalarLoadResult : Prop :=
  ∀ (o : LArgs) (s : State), s.full .scalar o.sa.reg → s.full .scalar o.d →
    let a := (s.self.scalar o.sa.reg + o.imm.signExtend 64).toNat % 2 ^ 56
    let n := [1, 2, 4, 8].getD (o.ty.toNat % 4) 1
    let extended (v : Nat) : DWord := if o.ty.toNat < 4 then (BitVec.ofNat (8 * n) v).signExtend 64 else BitVec.ofNat 64 v
    (a % n ≠ 0 → exec (.ld o) s =
      .next (s.trapped { cause := 0x0D, tval := BitVec.ofNat 64 a, estart := some 0 })) ∧
    (a % n = 0 → ∀ l p s1 v s2, Runs (resolve (s.ctx s.cur) .l1 kRead a n 0) s (l, p) s1 →
      let s1' := if o.ord = .acq then acquireL1 (coreOf s1.cur) o.scope s1 else s1
      Runs (loadOrdered (s.ctx s.cur) p n (o.ord == .acq && o.scope != .seq) (o.ord != .acq) kRead a 0) s1' v s2 →
      s2.full .scalar o.d → v < 2 ^ (8 * n) →
      exec (.ld o) s = .next (s2.fell (·.sentLong o.d (extended v) s2.cycle))) ∧
    (a % n = 0 → o.ord = .rlx → ∀ k x, inWindow a = true → windowTarget (coreOf s.cur) a = some (k, x) →
      (s.core k).spOwner = s.self.tenant → (s.core k).comb = [] → s.badWords = [] →
      exec (.ld o) s = .next (s.fell (·.sentLong o.d (extended (s.mem.readLe (scratchLoc k x) n)) s.cycle)))

/-- st writes the low bytes of s[D] at its address and no other byte; a misaligned address traps. With its registers full and a =
(s[A] + sext(IMM17)) mod 2^56: a misaligned a takes trap 0x0D naming a, a write (its level field is 0 where there is no walk:
the model's reading, log 13). Outside the windows an address that passes the checks of its page, where the page has a scale
array, takes the partial-block trap 0x0C. Where the address has a place for a store and the bytes are stored there (after the
release of a release store), control falls through and nothing else happens. In the window of a core of its cluster whose
scratchpad its tenant holds, with no combining entry or memory error there, a relaxed store completes: the n bytes of memory
at that place hold the low n bytes of s[D], every other byte of memory is as before, and so is everything else. (07 Scalar
loads and stores (R183, R184); 09 The scratchpad (R221).) -/
def Obligations.ScalarStoreEffectAndFrame : Prop :=
  ∀ (o : LArgs) (s : State), s.full .scalar o.sa.reg → s.full .scalar o.d →
    let a := (s.self.scalar o.sa.reg + o.imm.signExtend 64).toNat % 2 ^ 56
    let n := [1, 2, 4, 8].getD (o.ty.toNat % 4) 1
    let v := (s.self.scalar o.d).toNat % 2 ^ (8 * n)
    (a % n ≠ 0 → exec (.st o) s =
      .next (s.trapped { cause := 0x0D, tval := BitVec.ofNat 64 (2 ^ 56 + a), estart := some 0 })) ∧
    (a % n = 0 → inWindow a = false → ∀ l s1, Runs (checkLeaf (s.ctx s.cur) .l1 kWrite a n 0 .none) s l s1 → l.pte.scf ≠ 0 →
      exec (.st o) s = .next (s1.trapped (xtrap 0x0C l.level kWrite a 0))) ∧
    (a % n = 0 → ∀ p s1 s2 s3, Runs (storePlace (s.ctx s.cur) a n) s p s1 → Runs (if o.ord = .rel then release o.scope else pure ()) s1 () s2 →
      Runs (storeBytes (s.ctx s.cur) p n v (o.ord == .rlx) kWrite a 0) s2 () s3 →
      exec (.st o) s = .next (s3.fell id)) ∧
    (a % n = 0 → o.ord = .rlx → ∀ k x, inWindow a = true → windowTarget (coreOf s.cur) a = some (k, x) →
      (s.core k).spOwner = s.self.tenant → (s.core k).comb = [] → s.badWords = [] →
      ∃ t, exec (.st o) s = .next t ∧ t.mem.readLe (scratchLoc k x) n = v ∧
        (∀ loc, loc < scratchLoc k x ∨ scratchLoc k x + n ≤ loc → t.mem.read loc = s.mem.read loc) ∧
        t = { s.fell id with mem := t.mem })

/-- amo gives the old value in s[D] and leaves the result of its operation in memory. For every amo operation, n = 2, 4 or 8 bytes
by SZ, registers full, an aligned address a = s[A] mod 2^56: where the atomic of n bytes at a is performed with the operation
on the old value and the low n bytes of s[B], s[D] gets the old value, zero-extended, as a long-latency result and control
falls through. The operations modulo 2^(8n): add, and, or, xor, signed min and max, unsigned min and max, swap, and the FP32
and BF16 sums rounded to nearest even. In a scratchpad window of its tenant, with no host operation under way, the memory word
holds the result and no other byte changes. A misaligned address takes trap 0x0D naming a read-modify-write (its level field
is 0 where there is no walk: the model's reading, log 13). (08 Scalar atomics (R200, R202).) -/
def Obligations.ScalarAtomicsUpdate : Prop :=
  ∀ (o : AArgs) (s : State), s.full .scalar o.sa.reg → s.full .scalar o.sb.reg → s.full .scalar o.d →
    let a := (s.self.scalar o.sa.reg).toNat % 2 ^ 56
    let n := 2 * 2 ^ o.sz.toNat
    let w := 8 * n
    let v := (s.self.scalar o.sb.reg).toNat % 2 ^ w
    let signed (x : Nat) : Int := sext w x
    let is (i : Instr) (op : Nat) (host : Bool) (f : Nat → Nat) : Prop :=
      (a % n ≠ 0 → exec i s = .next (s.trapped { cause := 0x0D, tval := BitVec.ofNat 64 (3 * 2 ^ 56 + a), estart := some 0 })) ∧
      (∀ old s1, Runs (scalarAtomic o a n (performs true host) ⟨op, v, 0⟩) s old s1 → s1.full .scalar o.d →
        exec i s = .next (s1.fell (·.sentLong o.d (BitVec.ofNat 64 old) s1.cycle))) ∧
      (a % n = 0 → o.ord = .rlx → ∀ k x, inWindow a = true → windowTarget (coreOf s.cur) a = some (k, x) → x + n ≤ 2 ^ 20 →
        (s.core k).spOwner = s.self.tenant → (s.core k).comb = [] → s.badWords = [] → s.self.hostAns = none →
        let old := s.mem.readLe (scratchLoc k x) n
        exec i s = .next ({ s with mem := s.mem.writeLe (scratchLoc k x) n (f old) }.fell
          (·.sentLong o.d (BitVec.ofNat 64 old) s.cycle)))
    is (.amoAdd o) 0 true (fun x => (x + v) % 2 ^ w) ∧ is (.amoAnd o) 1 false (· &&& v) ∧ is (.amoOr o) 2 false (· ||| v) ∧
    is (.amoXor o) 3 false (· ^^^ v) ∧ is (.amoSwap o) 8 true (fun _ => v) ∧
    is (.amoMin o) 4 false (fun x => if signed x ≤ signed v then x else v) ∧
    is (.amoMax o) 5 false (fun x => if signed x ≤ signed v then v else x) ∧
    is (.amoMinn o) 6 false (fun x => if x ≤ v then x else v) ∧ is (.amoMaxn o) 7 false (fun x => if x ≤ v then v else x) ∧
    is (.amoFaddF32 o) 9 false (fun x => (fpAdd .fp32 x v .rne).1) ∧
    is (.amoFaddBf16 o) 10 false (fun x => (fpAdd .bf16 x v .rne).1)

/-- cas and cas2 write the new value only where the old one is the expected one, and give the old value. With registers full. cas:
where the atomic at s[A] is performed, s[D] gets the old n bytes; the new value, the low n bytes of s[B], is written only
where the old one equals the low n bytes of the old s[D]. cas2: the 16 bytes at s[A] against s[D+1]:s[D], with s[B+1]:s[B] as
the new value; the old value goes to s[D] and s[D+1]; in device memory, where the address has a place and its words come home,
the 16 bytes at that place are written only where the old ones are the expected ones, and stand else. In a scratchpad window
of its tenant, with no host operation under way, cas writes nothing where the values differ. (08 Scalar atomics (R203).) -/
def Obligations.CompareAndSwap : Prop :=
  (∀ (o : AArgs) (s : State), s.full .scalar o.sa.reg → s.full .scalar o.sb.reg → s.full .scalar o.d →
    let a := (s.self.scalar o.sa.reg).toNat % 2 ^ 56
    let n := 2 * 2 ^ o.sz.toNat
    let v := (s.self.scalar o.sb.reg).toNat % 2 ^ (8 * n)
    let x := (s.self.scalar o.d).toNat % 2 ^ (8 * n)
    (∀ old s1, Runs (scalarAtomic o a n (performs true true) ⟨casOp, v, x⟩) s old s1 →
      s1.full .scalar o.d → exec (.cas o) s = .next (s1.fell (·.sentLong o.d (BitVec.ofNat 64 old) s1.cycle))) ∧
    (a % n = 0 → o.ord = .rlx → ∀ k off, inWindow a = true → windowTarget (coreOf s.cur) a = some (k, off) →
      off + n ≤ 2 ^ 20 → (s.core k).spOwner = s.self.tenant → (s.core k).comb = [] → s.badWords = [] → s.self.hostAns = none →
      let old := s.mem.readLe (scratchLoc k off) n
      exec (.cas o) s = .next (({ s with
          mem := if old = x then s.mem.writeLe (scratchLoc k off) n v else s.mem }).fell
        (·.sentLong o.d (BitVec.ofNat 64 old) s.cycle)))) ∧
  (∀ (o : AArgs) (s : State), s.full .scalar o.sa.reg → s.full .scalar o.sb.reg → s.full .scalar (o.sb.reg + 1) →
    s.full .scalar o.d → s.full .scalar (o.d + 1) →
    let q := s.self
    let a := (q.scalar o.sa.reg).toNat % 2 ^ 56
    let expected := (q.scalar o.d).toNat + 2 ^ 64 * (q.scalar (o.d + 1)).toNat
    let new := (q.scalar o.sb.reg).toNat + 2 ^ 64 * (q.scalar (o.sb.reg + 1)).toNat
    let gives (t : State) (old : Nat) : Prop := t.full .scalar o.d → t.full .scalar (o.d + 1) → exec (.cas2 o) s = .next (t.fell fun q =>
      (q.sentLong o.d (BitVec.ofNat 64 old) t.cycle).sentLong (o.d + 1) (BitVec.ofNat 64 (old / 2 ^ 64)) t.cycle)
    (∀ old s1, Runs (scalarAtomic o a 16 (performs false true) ⟨casOp, new, expected⟩) s old s1 → gives s1 old) ∧
    (a % 16 = 0 → o.ord = .rlx → q.hostAns = none → ∀ p s1 s2,
      Runs (atomicPlace (s.ctx s.cur) .l1 kRmw a 16 0 (performs false true)) s p s1 → p.scratch = none → isHost p.loc = false →
      Runs (gatherWords (s.ctx s.cur) p 16 kRmw a 0) s1 () s2 →
      let old := s2.valueUnder p.mat p.loc 16
      let u := if old = expected then homeWrite p.mat p.loc 16 new s2 else breakLinks (p.loc / 128) s2
      gives ((wordsOf p.loc 16).foldl (fun s w => dropUnreg (coreOf s.cur) w s) u) old))

/-- qpush appends and qpop removes the oldest record of a queue, and neither blocks; qstat reads the counts. For a handle given
for the use, no abort line and registers full. qpush, where the record at s[B] resolves and is read and every store of the
core is acknowledged: after a release at dev the record is offered to the queue, and p[D] tells whether it was appended; a
stage queue with room has it at its end, a full one is unchanged. qpop, where s[B] resolves as a store and no worker ends
there: where the oldest record is stored and removed, an acquire at dev follows and p[D] is 1; an empty stage queue gives p[D]
0 and changes nothing. qstat writes s[D] with the record count, capacity, log2 R and kind; for a stage queue those of the
queue. A handle not given takes trap 0x04 with TVAL its number. (13 Hardware queues (R345); 14 the queues of a launch (R356,
R368, R369).) -/
def Obligations.QueueInstructions : Prop :=
  ∀ (o : RArgs) (s : State), s.full .scalar o.sb.reg → s.full .scalar o.d →
    s.self.launch.bind (NMap.get? (s.cluster (clusterOf s.cur)).abort) = none →
    let va := (s.self.scalar o.sb.reg).toNat % 2 ^ 56
    let c := s.ctx s.cur
    (NMap.get? s.self.queues o.sa.reg.toNat = none →
      ∀ i ∈ [Instr.qpush o, .qpop o, .qstat o],
        exec i s = .next (s.trapped { cause := 0x04, tval := BitVec.ofNat 64 o.sa.reg.toNat, estart := some 0 })) ∧
    (∀ h, NMap.get? s.self.queues o.sa.reg.toNat = some h →
      let n := 2 ^ s.logr h
      (h.pushable = true → va % n = 0 → ∀ l p s1 rec s2, Runs (resolve c .l1 kRead va n 0) s (l, p) s1 →
        Runs (loadBytes c p n false kRead va 0) s1 rec s2 → s2.mayRelease .dev →
        let s3 := s2.released .dev
        (∀ j i t, h = .stage j i → s3.stageAt j i = some t → ∃ t', exec (.qpush o) s = .next t' ∧
          (o.d ≠ 0 → o.d.toNat < 16 → t'.self.pred o.d.toNat = decide (t.recs.length < t.depth)) ∧
          (t'.stageAt j i).map (·.recs) =
            some (if t.recs.length < t.depth then t.recs ++ [leBytes n rec] else t.recs)) ∧
        (∀ j i m ok s4, h = .memory j i → s3.memQueue j i = some m → Runs (pushMemory m rec) s3 ok s4 →
          exec (.qpush o) s = .next (s4.fell (·.setPred o.d.toNat ok))) ∧
        (∀ j i ok s4, h = .tiles j i → Runs (pushTile j i rec) s3 ok s4 →
          exec (.qpush o) s = .next (s4.fell (·.setPred o.d.toNat ok)))) ∧
      (h.poppable = true → va % n = 0 → ∀ p s1, Runs (endsWorker o.sa.reg.toNat h) s false s → Runs (storePlace c va n) s p s1 →
        let store (v : Nat) : M Unit := storeBytes c p n v true kWrite va 0
        (∀ j i ok s2, h = .stage j i → Runs (popStage j i store) s1 ok s2 → exec (.qpop o) s =
          .next ((if ok then acquireL1 (coreOf s2.cur) .dev s2 else s2).fell (·.setPred o.d.toNat ok))) ∧
        (∀ j i t, h = .stage j i → s1.stageAt j i = some t → t.recs = [] →
          exec (.qpop o) s = .next (s1.fell (·.setPred o.d.toNat false))) ∧
        (∀ j i m ok s2, h = .memory j i → s1.memQueue j i = some m → Runs (popMemory o.sa.reg.toNat m store) s1 ok s2 →
          exec (.qpop o) s =
            .next ((if ok then acquireL1 (coreOf s2.cur) .dev s2 else s2).fell (·.setPred o.d.toNat ok)))) ∧
      (∀ held cap kind s1, Runs (queueCounts h) s (held, cap, kind) s1 → held < 65536 → cap < 65536 → s1.full .scalar o.d →
        exec (.qstat o) s = .next (s1.fell (·.setScalar o.d
          (BitVec.ofNat 64 (held + cap * 2 ^ 16 + s1.logr h * 2 ^ 32 + kind * 2 ^ 35))))) ∧
      (∀ j i t, h = .stage j i → s.stageAt j i = some t → Runs (queueCounts h) s (t.recs.length, t.depth, 0) s))

/-- fence completes for every scope and order, performing the release and then the acquire that its order names. fence that is
well formed falls through in every state: where its order releases (.rel, .ar), once every store of the core is acknowledged
and, at sys, no remote copy of the sequencer is outstanding, the release at its scope is performed first (at sys registered
words of the host windows go home too); where its order acquires (.acq, .ar), the acquire at its scope follows. No register
changes. (15 Fences (R391).) -/
def Obligations.FencesPerformAcquireAndRelease : Prop :=
  ∀ (o : SArgs) (s : State), wellFormed (.fence o) = true →
    (o.ord = .acq → exec (.fence o) s = .next ((acquireL1 (coreOf s.cur) o.scope s).fell id)) ∧
    (s.mayRelease o.scope →
      let s1 := s.released o.scope
      (o.ord = .rel → exec (.fence o) s = .next (s1.fell id)) ∧
      (o.ord = .ar → exec (.fence o) s = .next ((acquireL1 (coreOf s1.cur) o.scope s1).fell id))) ∧
    ((releases o.ord = true → s.mayRelease o.scope) →
      let s1 := if releases o.ord then s.released o.scope else s
      exec (.fence o) s = .next ((if acquires o.ord then acquireL1 (coreOf s1.cur) o.scope s1 else s1).fell id))

/-- An arrival counts or completes a phase, a departure gives up its place, as R392 defines them. For a cell with fields EXPECT,
COUNT and PHASE: an arrival that makes the count reach EXPECT sets COUNT 0 and PHASE + 1 modulo 2^64, and any other adds 1 to
COUNT; EXPECT stays. A departure takes 1 from EXPECT unless it is 0, and from COUNT where the member has arrived in this
phase; where the count left is above 0 and reaches the new EXPECT the phase completes. COUNT + 1 is compared with EXPECT as an
exact sum, so that 2^32 - 1 counted does not wrap (the model's reading: log 16). (15 Barriers (R392).) -/
def Obligations.BarrierArithmetic : Prop :=
  ∀ expect count phase : Nat, expect < 2 ^ 32 → count < 2 ^ 32 → phase < 2 ^ 64 →
    let fields (v : Nat) : Nat × Nat × Nat := (cellExpect v, cellCount v, cellPhase v)
    let cell := mkCell expect count phase
    fields cell = (expect, count, phase) ∧
    (expect ≤ count + 1 → fields (arriveAt cell) = (expect, 0, (phase + 1) % 2 ^ 64)) ∧
    (count + 1 < expect → fields (arriveAt cell) = (expect, count + 1, phase)) ∧
    (∀ last : Option DWord,
      let n := if last = some (BitVec.ofNat 64 phase) then count - 1 else count
      (0 < n → expect - 1 ≤ n → fields (departAt last cell) = (expect - 1, 0, (phase + 1) % 2 ^ 64)) ∧
      (n = 0 ∨ n < expect - 1 → fields (departAt last cell) = (expect - 1, n, phase)))

/-- phase and arrive arrive at a cell and give its phase, leave departs, join enters, bwait ends when the phase has passed. With
an aligned cell address, registers full and no abort line. phase (after the release at its scope) and arrive: where the
sequencer has a barrier entry, or takes one at an address that passes its checks, and the arrival is performed at the cell,
s[D] gets the phase number found, and the entry records it. arrive.leave of a cell with an entry: where the departure is
performed the entry is gone; without one nothing happens. arrive.join: the cell has an entry, with no phase recorded where it
is new and its address passes the checks. bwait with room in the wait table: where the cell is read and its phase has passed
s[B], the acquire at its scope follows and control falls through; else it waits and the cell is watched; once a write has made
the phase pass it ends, whatever the cell holds by then. A misaligned address takes trap 0x0D (its level field is 0 where
there is no walk: the model's reading, log 13); that arrive.leave checks it although no entry has it, and arrive.join as
arrive does, is the model's reading too (log 16). (15 Barriers (R393 to R397); 15 the table of illegal uses (R401).) -/
def Obligations.BarrierInstructions : Prop :=
  ∀ (o : SArgs) (s : State), s.full .scalar o.sa.reg → s.full .scalar o.sb.reg → s.full .scalar o.d →
    s.self.launch.bind (NMap.get? (s.cluster (clusterOf s.cur)).abort) = none →
    let va := (s.self.scalar o.sa.reg).toNat % 2 ^ 56
    let c := s.ctx s.cur
    (va % 16 ≠ 0 → ∀ i ∈ [Instr.phase o, .arrive o, .arriveLeave o, .arriveJoin o, .bwait o],
      exec i s = .next (s.trapped { cause := 0x0D, tval := BitVec.ofNat 64 (3 * 2 ^ 56 + va), estart := some 0 })) ∧
    (va % 16 = 0 →
      (∀ i s0, Runs (barrierEntry va) s i s0 → ∀ old s1, Runs (cellStep (s0.ctx s0.cur) va arriveAt) s0 old s1 → s1.full .scalar o.d →
        exec (.arrive o) s = .next (s1.fell fun q =>
          { q with bars := NMap.set q.bars i ⟨BitVec.ofNat 56 va, some (BitVec.ofNat 64 (cellPhase old))⟩ }.sentLong o.d
            (BitVec.ofNat 64 (cellPhase old)) s1.cycle)) ∧
      (∀ i s0, Runs (barrierEntry va) s i s0 → ∀ s1, Runs (release o.scope) s0 () s1 → ∀ j s2, Runs (barrierEntry va) s1 j s2 →
        ∀ old s3, Runs (cellStep (s2.ctx s2.cur) va arriveAt) s2 old s3 → s3.full .scalar o.d →
        exec (.phase o) s = .next (s3.fell fun q =>
          { q with bars := NMap.set q.bars j ⟨BitVec.ofNat 56 va, some (BitVec.ofNat 64 (cellPhase old))⟩ }.sentLong o.d
            (BitVec.ofNat 64 (cellPhase old)) s3.cycle)) ∧
      ((s.self.bars.find? (fun x => x.2.va.toNat == va) = none → exec (.arriveLeave o) s = .next (s.fell id)) ∧
       ∀ i b old s1, s.self.bars.find? (fun x => x.2.va.toNat == va) = some (i, b) →
        Runs (cellStep c va (departAt b.phase)) s old s1 →
        exec (.arriveLeave o) s = .next (s1.fell fun q => { q with bars := NMap.erase q.bars i })) ∧
      (∀ i, s.self.barOf va = some i → exec (.arriveJoin o) s = .next (s.fell id)) ∧
      (∀ i s1, s.self.barOf va = none → Runs (barrierEntry va) s i s1 → s1.self.barOf va = none → exec (.arriveJoin o) s =
        .next (s1.fell fun q => { q with bars := NMap.set q.bars i ⟨BitVec.ofNat 56 va, none⟩ })) ∧
      (s.waitRoom s.cur = true → s.cellGot = none → ∀ p v s1, Runs (cellRead c va) s (p, v) s1 →
        let d := (BitVec.ofNat 64 (cellPhase v) - s.self.scalar o.sb.reg).toNat
        (1 ≤ d → d < 2 ^ 63 → exec (.bwait o) s = .next ((acquireL1 (coreOf s1.noCell.cur) o.scope s1.noCell).fell id)) ∧
        (d = 0 ∨ 2 ^ 63 ≤ d → exec (.bwait o) s = .next ((s1.atCell va p (.phase (s.self.scalar o.sb.reg))).modSeq s1.cur fun q =>
          { q with wait := some (.bwait va (s.self.scalar o.sb.reg) o.scope) }).tick)) ∧
      (s.waitRoom s.cur = true → s.cellGot ≠ none →
        exec (.bwait o) s = .next ((acquireL1 (coreOf s.gotCell.cur) o.scope s.gotCell).fell id)))

/-- fput fills an empty cell and refuses a full one unless it overwrites; fget gives the value of a full cell and may take it. The
put: an empty cell takes the value and turns full; a full one takes it only under .ovw, counting the overwrite up to 2^32 - 1,
and is otherwise unchanged. fput, aligned, without release: where the put is performed p[D] tells whether the cell was empty.
fget, aligned, with room in the wait table and no acquire or take: where the cell is read full s[D] gets its value, as a long-
latency result; with .take the full bit is cleared first; an empty cell leaves it waiting, and the cell watched; once a write
has filled the cell it ends with the value found then. (15 Futures (R399, R400).) -/
def Obligations.FutureCells : Prop :=
  (∀ (x : DWord) (v : Nat),
    (futureFull v = false → futureFull (putAt x false v) = true ∧ futureFull (putAt x true v) = true ∧
      futureValue (putAt x false v) = x.toNat ∧ futureOvw (putAt x false v) = futureOvw v) ∧
    (futureFull v = true → putAt x false v = v ∧ futureValue (putAt x true v) = x.toNat ∧
      futureFull (putAt x true v) = true ∧ futureOvw (putAt x true v) = Min.min (futureOvw v + 1) (2 ^ 32 - 1))) ∧
  (∀ (o : SArgs) (s : State), s.full .scalar o.sa.reg → s.full .scalar o.sb.reg → s.full .scalar o.d →
    let va := (s.self.scalar o.sa.reg).toNat % 2 ^ 56
    let c := s.ctx s.cur
    va % 16 = 0 →
    (∀ s0 old s1, Runs (if releases o.ord then release o.scope else pure ()) s () s0 → s0.cur = s.cur → s0.self = s.self →
      Runs (cellStep c va (putAt (s.self.scalar o.sb.reg) (o.fm.getLsbD 0))) s0 old s1 →
      exec (.fput o) s = .next (s1.fell (·.setPred o.d.toNat (!futureFull old)))) ∧
    (s.waitRoom s.cur = true → acquires o.ord = false → ∀ v, s.cellGot = some v →
      exec (.fget o) s = .next (s.gotCell.fell (·.sentLong o.d (BitVec.ofNat 64 (futureValue v)) s.cycle))) ∧
    (s.waitRoom s.cur = true → acquires o.ord = false → s.cellGot = none → ∀ p v s1, Runs (cellRead c va) s (p, v) s1 →
      s1.full .scalar o.d →
      (futureFull v = true → o.fm.getLsbD 0 = false →
        exec (.fget o) s = .next (s1.noCell.fell (·.sentLong o.d (BitVec.ofNat 64 (futureValue v)) s1.cycle))) ∧
      (futureFull v = true → o.fm.getLsbD 0 = true → ∀ old s2,
        Runs (performAtomic c p 16 (fun v => some (v - 2 ^ 64)) kRmw va 0) s1 old s2 → s2.full .scalar o.d →
        exec (.fget o) s = .next (s2.noCell.fell (·.sentLong o.d (BitVec.ofNat 64 (futureValue v)) s2.cycle))) ∧
      (futureFull v = false → exec (.fget o) s = .next ((s1.atCell va p (.full (o.fm.getLsbD 0))).modSeq s1.cur fun q =>
        { q with wait := some (.fget va o.d (o.fm.getLsbD 0) none) }).tick)))

/-- The brick loads write each active element from ESTART with the element at its address and leave the others. vld (unit and
shaped), vlds and vldx, with a well-formed type of its width, registers full and an aligned base: where every active element
from ESTART, in ascending order, is loaded and converted and raises no enabled flag, the load falls through with ESTART 0; a
gather leaves its brick pending. An unaligned base takes trap 0x0D at the first active element (its level field is 0 where
there is no walk: the model's reading, log 13). A unit-stride raw load from a scratchpad window of its tenant completes: each
active element from ESTART below VL holds the little-endian bytes at base + e times its width; every other element of every
brick, and all else, is unchanged. (07 Brick loads and stores (R181, R182, R187, R188); 09 The scratchpad (R221).) -/
def Obligations.BrickLoads : Prop :=
  (∀ (o : VArgs) (s : State), s.self.typed o.ty → s.full .scalar o.sa.reg → s.full .brick o.d →
    let q := s.self
    let base := (q.scalar o.sa.reg).toNat % 2 ^ 56
    let w := mwBits (o.vmod.toNat % 8) o.ty
    let es := q.activeFrom o.me o.msel
    let loads (k : Nat) (e : Nat) : M Unit := do
      let (v, fl) ← loadElem (s.ctx s.cur) (s.formOf k o.sb) w o.ty (q.mode o.rnd false)
        (eaSum w (eaOf base w) (q.elemOffset (s.formOf k o.sb) e)) e
      raiseFlags fl e
      modMe (·.setElem o.d.toNat e (BitVec.ofNat 64 v))
    let completes (i : Instr) (k : Nat) : Prop := s.formFull k o.sb →
      (∀ s1, es = [] ∨ baseAligned base w = true → RunsAll (loads k) es s s1 →
        exec i s = .next (s1.fell fun q => if k = 3
          then { q.setEmpty .brick o.d with estart := 0, outst := q.outst ++ [(.brick, o.d, s1.cycle)],
                                            pend := es.foldl (fun p e => NMap.set p (1024 * o.d.toNat + e / 8) ()) q.pend }
          else { q with estart := 0 })) ∧
      (∀ e rest, es = e :: rest → baseAligned base w = false → exec i s =
        .next (s.trapped { cause := 0x0D, tval := BitVec.ofNat 64 base, estart := some e }))
    completes (.vldUnit o) 0 ∧ completes (.vldShaped o) 1 ∧ completes (.vlds o) 2 ∧ completes (.vldx o) 3) ∧
  (∀ (o : VArgs) (s : State) (k x : Nat), s.self.typed o.ty → s.full .scalar o.sa.reg → s.full .brick o.d →
    o.vmod.toNat % 8 = 0 →
    let q := s.self
    let base := (q.scalar o.sa.reg).toNat % 2 ^ 56
    let n := o.ty.width / 8
    s.quietWindow base (q.vl * n) k x → base % n = 0 → q.vl ≤ 8192 →
    ∃ t, exec (.vldUnit o) s = .next t ∧
      (∀ e ∈ q.activeFrom o.me o.msel, t.self.elem o.d.toNat e = BitVec.ofNat 64 (s.mem.readLe (scratchLoc k (x + n * e)) n)) ∧
      (∀ b e, e < 8192 → (b ≠ o.d.toNat ∨ e ∉ q.activeFrom o.me o.msel) → t.self.elem b e = q.elem b e) ∧
      t = s.fell fun q => { q with bricks := t.self.bricks, estart := 0 })

/-- The brick stores write each active element from ESTART at its address and no other byte. vst (unit and shaped), vsts and vstx,
with a well-formed type of its width, registers full, an aligned base and no page with a scale array among those its run-ahead
reads: where every active element from ESTART is stored in ascending order, the store falls through with ESTART 0. A unit-
stride raw store to a scratchpad window of its tenant, not stochastic, completes: each active element from ESTART stands,
little-endian, at base + e times its width; every byte outside those elements is as before, and so is everything else. (07
Brick loads and stores (R181, R182, R187, R188); 09 The scratchpad (R221).) -/
def Obligations.BrickStores : Prop :=
  (∀ (o : VArgs) (s : State), s.self.typed o.ty → s.full .scalar o.sa.reg → s.full .brick o.sc.reg →
    let q := s.self
    let c := s.ctx s.cur
    let base := (q.scalar o.sa.reg).toNat % 2 ^ 56
    let w := mwBits (o.vmod.toNat % 8) o.ty
    let es := q.activeFrom o.me o.msel
    let ea (k e : Nat) : Nat := eaSum w (eaOf base w) (q.elemOffset (s.formOf k o.sb) e)
    let completes (i : Instr) (k : Nat) : Prop := s.formFull k o.sb → es = [] ∨ baseAligned base w = true →
      ∀ ahead s1 s2,
        Runs (es.foldlM (fun (acc : List (Nat × Nat × Ahead)) e => do
          return acc ++ [(e, ea k e, ← lookAhead c (s.formOf k o.sb) w o.ty e (ea k e))]) []) s ahead s1 →
        (upToFault (ahead.map (fun y => (y.1, y.2.2)))).all (fun y => !y.2.scaled) = true →
        RunsAll (fun e => storeElem c (s.formOf k o.sb) w o.ty (q.mode o.rnd true) o.sc.reg.toNat e (ea k e)) es s1 s2 →
        exec i s = .next (s2.fell fun q => { q with estart := 0 })
    completes (.vstUnit o) 0 ∧ completes (.vstShaped o) 1 ∧ completes (.vsts o) 2 ∧ completes (.vstx o) 3) ∧
  (∀ (o : VArgs) (s : State) (k x : Nat), s.self.typed o.ty → s.full .scalar o.sa.reg → s.full .brick o.sc.reg →
    o.vmod.toNat % 8 = 0 → s.self.mode o.rnd true ≠ .rsr →
    let q := s.self
    let base := (q.scalar o.sa.reg).toNat % 2 ^ 56
    let n := o.ty.width / 8
    let es := q.activeFrom o.me o.msel
    s.quietWindow base (q.vl * n) k x → base % n = 0 → q.vl ≤ 8192 →
    ∃ t, exec (.vstUnit o) s = .next t ∧
      (∀ e ∈ es, t.mem.readLe (scratchLoc k (x + n * e)) n = (q.elem o.sc.reg.toNat e).toNat % 2 ^ o.ty.width) ∧
      (∀ loc, (∀ e ∈ es, loc < scratchLoc k (x + n * e) ∨ scratchLoc k (x + n * e) + n ≤ loc) →
        t.mem.read loc = s.mem.read loc) ∧
      t = { s.fell (fun q => { q with estart := 0 }) with mem := t.mem })

/-- vamo performs its operation on each accepted element, and gives the old values unless told not to. For every vamo operation,
with a well-formed type of its width, registers full and an aligned base: where every active element from ESTART is accepted
by its target with none stopping (at the host: once the host has performed it), and each other one is then performed in the
order of performance with the operation on the old word and the element of b[C], putting the old word in the element of b[D]
unless the form returns nothing, the instruction falls through with ESTART 0, b[D] pending if written. The operations are
those of amo at the width of the type. With no active element it completes having done nothing else. (08 Brick atomics (R206,
R207, R208, R210).) -/
def Obligations.BrickAtomicsUpdate : Prop :=
  ∀ (o : VArgs) (s : State), s.self.typed o.ty → s.full .scalar o.sa.reg → s.full .brick o.sb.reg → s.full .brick o.sc.reg →
    s.full .brick o.d →
    let q := s.self
    let c := s.ctx s.cur
    let base := (q.scalar o.sa.reg).toNat % 2 ^ 56
    let w := o.ty.width
    let n := w / 8
    let es := q.activeFrom o.me o.msel
    let ret := !o.vmod.getLsbD 0
    let ended (es : List Nat) (s1 : State) : State := s1.fell fun q => if ret
      then { q.setEmpty .brick o.d with estart := 0, outst := q.outst ++ [(.brick, o.d, s1.cycle)],
                                        pend := es.foldl (fun p e => NMap.set p (1024 * o.d.toNat + e / 8) ()) q.pend }
      else { q with estart := 0 }
    let value (op e : Nat) : AtomicDo := ⟨op, (q.elem o.sc.reg.toNat e).toNat % 2 ^ w, 0⟩
    let is (i : Instr) (op : Nat) (host : Bool) (f : Nat → Nat → Nat) : Prop :=
      (es = [] → exec i s = .next (ended [] s)) ∧
      (es = [] ∨ baseAligned base w = true → ∀ l s1 l' s2 s3,
        Runs (offerAll (fun e => offerVamo c n (q.atomicVa w base o.sb.reg.toNat e) e (performs true host) (value op e)) es) s
          (l, none) s1 →
        Runs (performOrder l) s1 l' s2 →
        RunsAll (fun x => do
          let old ← match x.done with
            | some old => pure old
            | none => performAtomic c x.place n (fun old => some (f old (value op x.elem).value)) kRmw x.va x.elem
          if ret then modMe (·.setElem o.d.toNat x.elem (BitVec.ofNat 64 old))) l' s2 s3 →
        exec i s = .next (ended es s3))
    is (.vamoAdd o) 0x00 true (fun x v => (x + v) % 2 ^ w) ∧ is (.vamoAnd o) 0x01 false (fun x v => x &&& v) ∧
    is (.vamoOr o) 0x02 false (fun x v => x ||| v) ∧ is (.vamoXor o) 0x03 false (fun x v => x ^^^ v) ∧
    is (.vamoMin o) 0x04 false (fun x v => if sext w x ≤ sext w v then x else v) ∧
    is (.vamoMax o) 0x05 false (fun x v => if sext w x ≤ sext w v then v else x) ∧
    is (.vamoMinn o) 0x06 false (fun x v => if x ≤ v then x else v) ∧ is (.vamoMaxn o) 0x07 false (fun x v => if x ≤ v then v else x) ∧
    is (.vamoSwap o) 0x08 true (fun _ v => v) ∧ is (.vamoFaddF32 o) 0x09 false (fun x v => (fpAdd .fp32 x v .rne).1) ∧
    is (.vamoFaddBf16 o) 0x0A false (fun x v => (fpAdd .bf16 x v .rne).1)

/-- sacc hands each accepted element to the window of its receiver, where equal words combine, and writes no register. For every
sacc operation, with a well-formed type of its width, registers full and an aligned base: where every active element from
ESTART is accepted with none stopping, and none lies on a device-class page, each in ascending order is merged into the window
of its lane array, or in memory, once its words have come home, the host is snooped, links on its line are broken and the
copies of its core dropped, into that of its home slice, and the instruction falls through with ESTART 0. One on a device-
class page is performed at once in its turn, the lower elements that still wait in windows before it. An element that finds an
entry of its word, operation, width and key combines with it: one entry stands for both, keeping both values, which are
combined when it is applied (the list, and the key in its key, are the model's choice: log 60); otherwise a new entry enters a
window of at most 64, the oldest leaving to be applied. (08 sacc and the combining windows (R214, R215); 04 device-class pages
(R104).) -/
def Obligations.ScatterAccumulates : Prop :=
  (∀ (o : VArgs) (s : State), s.self.typed o.ty → s.full .scalar o.sa.reg → s.full .brick o.sb.reg → s.full .brick o.sc.reg →
    let q := s.self
    let c := s.ctx s.cur
    let base := (q.scalar o.sa.reg).toNat % 2 ^ 56
    let w := o.ty.width
    let es := q.activeFrom o.me o.msel
    let is (i : Instr) (op : Nat) : Prop := es = [] ∨ baseAligned base w = true → ∀ l s1,
      Runs (offerAll (fun e => offerAtomic c kRmw (w / 8) (q.atomicVa w base o.sb.reg.toNat e) e (performs true false)) es) s
        (l, none) s1 →
      let v (e : Nat) : Nat := (q.elem o.sc.reg.toNat e).toNat % 2 ^ w
      let ready (x : Offered) (s : State) : State :=
        let ws := wordsOf x.place.loc (w / 8)
        if x.place.scratch.isSome then s
        else ws.foldl (fun s k => dropUnreg c.core k s)
          (breakLinks (x.place.loc / 128) (recallWords ws (snoopHost (x.place.loc / 128) (noteRequest c (w / 8) s))))
      let applied (x : Offered) (s : State) : State := (l.filter (fun y => decide (y.elem < x.elem) && !y.place.ic)).foldl (fun s y =>
        match y.place.scratch with
        | some k => settleScratch k y.place.loc (w / 8) s
        | none => settle y.place.loc (w / 8) s) s
      ((∀ x ∈ l, x.place.ic = false) → exec i s = .next ((l.foldl (fun s x =>
        acceptComb ⟨x.place.loc, op, w, [v x.elem], x.place.mat, (ready x s).cycle⟩ x.place.scratch (ready x s)) s1).fell
          fun q => { q with estart := 0 })) ∧
      (∀ s2, RunsAll (fun x => do
          if x.place.ic then
            modify (applied x)
            let _ ← performAtomic c x.place (w / 8) (fun old => some (atomicOp op w old (v x.elem))) kRmw x.va x.elem
          else modify fun s =>
            acceptComb ⟨x.place.loc, op, w, [v x.elem], x.place.mat, (ready x s).cycle⟩ x.place.scratch (ready x s)) l s1 s2 →
        exec i s = .next (s2.fell fun q => { q with estart := 0 }))
    is (.saccAdd o) 0x00 ∧ is (.saccAnd o) 0x01 ∧ is (.saccOr o) 0x02 ∧ is (.saccXor o) 0x03 ∧ is (.saccMin o) 0x04 ∧
    is (.saccMax o) 0x05 ∧ is (.saccMinn o) 0x06 ∧ is (.saccMaxn o) 0x07 ∧ is (.saccFaddF32 o) 0x09 ∧
    is (.saccFaddBf16 o) 0x0A) ∧
  (∀ (l : List CombEntry) (e : CombEntry),
    (∀ x ∈ l, x.covers e.loc e.bytes = true → x.loc = e.loc ∧ x.op = e.op ∧ x.width = e.width ∧ x.mat = e.mat) →
    (∀ x, x ∈ l → x.loc = e.loc → x.op = e.op → x.width = e.width → x.mat = e.mat →
      { x with values := x.values ++ e.values } ∈ (mergeComb l e).1 ∧ (mergeComb l e).2 = [] ∧
      (mergeComb l e).1.length = l.length) ∧
    ((∀ x ∈ l, x.covers e.loc e.bytes = false) → 0 < e.bytes → l.length < 64 → mergeComb l e = (l ++ [e], [])) ∧
    ((∀ x ∈ l, x.covers e.loc e.bytes = false) → 0 < e.bytes → l.length = 64 → mergeComb l e = (l.drop 1 ++ [e], l.take 1)))

/-- glink reads each word and sets a link on its line; scond stores where its link stands and says so in a mask. With a well-
formed type of its width, registers full and an aligned base. glink: where every active element is accepted with none stopping
and each is then read at its home in order, leaving the value in b[D] and a link of this sequencer on its line, the
instruction falls through with ESTART 0 and b[D] pending. scond with no active element clears the bits of m[D] from ESTART to
VL and above VL, all of m[D] where VL is not above ESTART or no element below VL is active, and falls through with ESTART 0;
with one accepted element, once the host is snooped and pending updates of its word are applied: where the sequencer has no
link on its line, nothing more is written to memory and its bit in m[D] is 0; where its link stands, and the word comes home,
the element of b[C] is written at the place that the offer found, the links of the sequencer on that line are consumed, and
its bit is 1; the other bits from ESTART up are 0. (08 glink and scond (R211, R212, R213); 08 The vector forms (R219, an empty
scond).) -/
def Obligations.LinksAndConditionalStores : Prop :=
  (∀ (o : VArgs) (s : State), s.self.typed o.ty → s.full .scalar o.sa.reg → s.full .brick o.sb.reg → s.full .brick o.d →
    let q := s.self
    let c := s.ctx s.cur
    let base := (q.scalar o.sa.reg).toNat % 2 ^ 56
    let w := o.ty.width
    let n := w / 8
    let es := q.activeFrom o.me o.msel
    es = [] ∨ baseAligned base w = true → ∀ l s1 s2,
      Runs (offerAll (fun e => offerAtomic c kWatch n (q.atomicVa w base o.sb.reg.toNat e) e (performs false false)) es) s
        (l, none) s1 →
      RunsAll (fun x => do
        gatherWords c x.place n kWatch x.va x.elem
        modify (recallLine (x.place.loc / 128))
        let v := (← get).valueUnder x.place.mat x.place.loc n
        forEach (wordsOf x.place.loc n) fun w => modify (dropUnreg c.core w)
        modify fun s => s.modCore c.core (·.addLink (x.place.loc / 128) c.seq s.cycle)
        modMe (·.setElem o.d.toNat x.elem (BitVec.ofNat 64 v))) l s1 s2 →
      exec (.glink o) s = .next (s2.fell fun q =>
        { q.setEmpty .brick o.d with estart := 0, outst := q.outst ++ [(.brick, o.d, s2.cycle)],
                                     pend := es.foldl (fun p e => NMap.set p (1024 * o.d.toNat + e / 8) ()) q.pend })) ∧
  (∀ (c : Core) (line n born : Nat), (∃ l ∈ (c.addLink line n born).links, l.line = line ∧ l.seq = n ∧ l.born = born) ∧
    (c.links.length ≤ 64 → (c.addLink line n born).links.length ≤ 64)) ∧
  (∀ (o : VArgs) (s : State), s.self.typed o.ty → s.full .scalar o.sa.reg → s.full .brick o.sb.reg → s.full .brick o.sc.reg →
    let q := s.self
    let base := (q.scalar o.sa.reg).toNat % 2 ^ 56
    let w := o.ty.width
    (q.activeFrom o.me o.msel = [] → q.vl ≤ 8192 → ∃ t, exec (.scond o) s = .next t ∧
      (∀ e < 8192, o.d ≠ 0 → (t.self.mask o.d.toNat).getLsbD e =
        (decide (e < q.estart.toNat ∧ q.estart.toNat < q.vl ∧ q.activeAll o.me o.msel ≠ []) && (q.mask o.d.toNat).getLsbD e)) ∧
      t = s.fell fun q => { q with masks := t.self.masks, estart := 0 }) ∧
    (∀ e x s1, q.activeFrom o.me o.msel = [e] → baseAligned base w = true → q.vl ≤ 8192 →
      Runs (offerAll (fun e => offerAtomic (s.ctx s.cur) kRmw (w / 8) (q.atomicVa w base o.sb.reg.toNat e) e
        (performs false false)) [e]) s ([x], none) s1 → x.elem = e → s1.cur = s.cur →
      let n := w / 8
      let line := x.place.loc / 128
      let s2 := settle x.place.loc n s1
      (s2.linked s.cur line = false → ∃ t, exec (.scond o) s = .next t ∧ t.mem = s2.mem ∧ t.lines = s2.lines ∧
        (o.d ≠ 0 → (t.self.mask o.d.toNat).getLsbD e = false) ∧ t.self.estart = 0 ∧ t.self.pc = s1.self.nextPc) ∧
      (s2.linked s.cur line = true → x.place.scratch = none → ∀ s3, Runs (gatherWords (s.ctx s.cur) x.place n kRmw x.va e) s2 () s3 →
        let written := homeWrite x.place.mat x.place.loc n ((q.elem o.sc.reg.toNat e).toNat % 2 ^ w) s3
        let s4 := ((wordsOf x.place.loc n).foldl (fun u k => dropUnreg (coreOf s.cur) k u) written).modCore (coreOf s.cur) fun k =>
          { k with links := k.links.filter (fun y => !(y.line == line && y.seq == s.cur)) }
        ∃ t, exec (.scond o) s = .next t ∧
          (∀ f < 8192, o.d ≠ 0 → (t.self.mask o.d.toNat).getLsbD f =
            (decide (f = e) || (decide (f < q.estart.toNat) && (q.mask o.d.toNat).getLsbD f))) ∧
          t = s4.fell fun q => { q with masks := t.self.masks, estart := 0 })))

/-- vwait completes when the condition of every word it watches has held, with the number of elements covered. With a well-formed
type of its width and registers full: with no active element from ESTART, s[D], a long-latency result, becomes VL - ESTART
modulo 2^64, SLEN the same number, or 0 where ESTART exceeds VL (the model's choice: log 111), and ESTART 0, with no acquire
(R219, and the model's reading: log 54). Where the wait stands and every entry of the sequencer has fired, they are freed, an
acquire at dev follows, s[D] and SLEN become the number covered, ESTART 0, and control falls through. A watched word fires
when its value equals, differs from, or is at least its operand, signed for i32 and i64, as the condition says; a fired entry
stays fired. (08 vwait (R216, R217).) -/
def Obligations.VwaitWatchesWords : Prop :=
  (∀ (o : VArgs) (s : State), s.self.typed o.ty → s.full .scalar o.sa.reg → s.full .brick o.sb.reg → s.full .brick o.sc.reg →
    s.full .scalar o.d → s.self.wait = none → s.self.activeFrom o.me o.msel = [] →
    let k := BitVec.ofNat 64 s.self.vl - BitVec.ofNat 64 s.self.estart.toNat
    exec (.vwait o) s = .next (s.fell fun q =>
      { q.sentLong o.d k s.cycle with slen := (if 2 ^ 63 ≤ k.toNat then 0 else k.toNat), estart := 0 })) ∧
  (∀ (o : VArgs) (s : State) (k : DWord) (d : Reg), s.self.wait = some (.vwait k d) → s.full .scalar d →
    (s.core (coreOf s.cur)).waits.all (fun x => !(x.2.seq == s.cur && !x.2.fired)) = true →
    let s1 := s.modCore (coreOf s.cur) fun c => { c with waits := c.waits.filter (fun x => !(x.2.seq == s.cur && x.2.fired)) }
    exec (.vwait o) s = .next ((acquireL1 (coreOf s.cur) .dev s1).fell fun q =>
      { q.sentLong d k s.cycle with slen := (if 2 ^ 63 ≤ k.toNat then 0 else k.toNat), estart := 0 })) ∧
  (∀ (e : WaitEntry) (v : Nat), e.holds v = (match e.cond with
    | 0 => decide (v = e.operand)
    | 1 => decide (v ≠ e.operand)
    | _ => if e.signed then decide (sext e.width e.operand ≤ sext e.width v) else decide (e.operand ≤ v))) ∧
  (∀ (c : Core) (p : WaitEntry → Bool) (i : Nat) (e : WaitEntry), NMap.get? c.waits i = some e →
    NMap.get? (c.fireWhere p).waits i = some { e with fired := e.fired || p e })

/-- skim, wbr, flctx and flctx.all act on the L1s as their ranges and tags say, and on nothing for a length of 0. With registers
full. skim and wbr without .pclr of a length of 0 do nothing. skim of more than 512 KiB drops every unregistered word of the
L1s that act as the one of its core: that the whole L1 is taken wherever R176 says it may be, and exactly the lines of the
range else, is the model's reading (log 57). skim of a range within 512 KiB drops those of the lines the range translates to.
wbr of more than 512 KiB, after the registrations of its core, writes every registered word of those L1s home. flctx and
flctx.all at supervisor privilege of core 0 to 191, once every store of the own core is acknowledged, write home the
registered words that core itself holds under the tag, or all (in a fused cluster the model's choice: log 125); of another
number they take trap 0x09 with TVAL s[A]. (06 Cache maintenance (R176 to R179).) -/
def Obligations.CacheMaintenance : Prop :=
  ∀ (o : RArgs) (s : State), s.full .scalar o.sa.reg → s.full .scalar o.sb.reg →
    let a := s.self.scalar o.sa.reg
    let b := s.self.scalar o.sb.reg
    let c := coreOf s.cur
    let lo := a.toNat % 2 ^ 56
    let size := Min.min (lo + b.toNat) (2 ^ 56) - lo
    (b = 0 → exec (.skim o) s = .next (s.fell id) ∧ (o.mod.getLsbD 1 = false → exec (.wbr o) s = .next (s.fell id))) ∧
    (512 * 1024 < size → exec (.skim o) s =
        .next (((s.l1Cores c).foldl (fun s k => s.modCore k (·.skimLines fun _ => true)) s).fell id)) ∧
    (512 * 1024 < size → o.mod.getLsbD 1 = false →
      let s1 := drainCore c s
      exec (.wbr o) s =
        .next (((s1.l1Cores c).foldl (fun s k => writeLinesHome k (fun _ => true) (!o.mod.getLsbD 0) s) s1).fell id)) ∧
    (b ≠ 0 → size ≤ 512 * 1024 → ∀ x s1, Runs (extentOf lo (lo + size - 1)) s x s1 →
      exec (.skim o) s = .next (((s1.l1Cores (coreOf s1.cur)).foldl (fun s k => s.modCore k (·.skimLines x.hasLine)) s1).fell id) ∧
      (o.mod.getLsbD 1 = false →
        let s2 := drainCore (coreOf s1.cur) s1
        exec (.wbr o) s = .next (((s2.l1Cores (coreOf s1.cur)).foldl
          (fun s k => writeLinesHome k x.hasLine (!o.mod.getLsbD 0) s) s2).fell id))) ∧
    (s.self.priv = true → a.toNat ≤ 191 → (drainCore c s).unacked c = none →
      exec (.flctx o) s = .next ((flushTag a.toNat (some b) (drainCore c s)).fell id) ∧
      exec (.flctxAll o) s = .next ((flushTag a.toNat none (drainCore c s)).fell id)) ∧
    (s.self.priv = true → 191 < a.toNat → ∀ i ∈ [Instr.flctx o, .flctxAll o],
      exec i s = .next (s.trapped { cause := 0x09, tval := a, estart := some 0 }))

/-- tlbinv drops the selected translations within its scope after a release; tlbprobe gives the result word and changes nothing
else. At supervisor privilege with registers full. tlbinv, with no engine command, tile step or AtomicOp outstanding: after
the release at its scope the translations that its form selects, .all, .asid, .va or .range, and walk-cache entries are
dropped from the buffers within the scope, what waits through them starts again (the model's reading: log 126), and control
falls through; a range of length 0 drops nothing. .all selects every entry; .asid those of its ASID that are not global; .va
and .range those that map an address of the range, of the ASID or global. tlbprobe: where the probe ends, s[D] gets the result
word: the hit bit 57, the level in 56:55, the leaf kind in 54:52 (the KIND field of its entry, the model's reading: log 46)
and the physical address, 0 for a page of another tier; or bit 63, the level in bits 15:8 and the cause of the fault below.
(04 tlbinv (R109); 04 tlbprobe (R110).) -/
def Obligations.TlbInstructions : Prop :=
  ∀ (o : RArgs) (s : State), s.self.priv = true → s.full .scalar o.sa.reg → s.full .scalar o.sb.reg → s.full .scalar o.d →
    let scopeCode := (o.mod.extractLsb' 7 3).toNat
    let sc : Scope := match scopeCode with | 1 => .core | 2 => .clu | 3 => .die | _ => .dev
    let type := (o.mod.extractLsb' 4 3).toNat
    let s1 := s.released sc
    let asid := (s.self.scalar o.sb.reg).extractLsb' 0 16
    let at' := (s.self.scalar o.sa.reg).toNat % 2 ^ 56
    let len := (s.self.scalar o.d).toNat
    let drops (sel : Selection) : Prop := s.mayRelease sc → s1.engines = [] → s1.hostOps = [] →
      (∀ x ∈ s1.tiles, x.2.running = []) → exec (.tlbinv o) s =
      .next ((restartWaits (coresIn sc (coreOf s1.cur)) sel (invalidate sc (coreOf s1.cur) sel s1)).fell id)
    (type = 0 → drops Selection.all) ∧ (type = 1 → drops (Selection.byAsid asid)) ∧
    (type = 2 → drops (Selection.byRange asid at' at')) ∧
    (type = 3 → len ≠ 0 → drops (Selection.byRange asid at' (Min.min (at' + len) (2 ^ 56) - 1))) ∧
    (∀ (e : TlbEntry) (lo hi : Nat),
      let a := e.page * 2 ^ levelShift e.level
      (Selection.all.entry e = true) ∧
      ((Selection.byAsid asid).entry e = true ↔ Pte.g e.pte = false ∧ e.asid = asid) ∧
      ((Selection.byRange asid lo hi).entry e = true ↔
        (Pte.g e.pte = true ∨ e.asid = asid) ∧ a ≤ hi ∧ lo < a + 2 ^ levelShift e.level)) ∧
    (type = 3 → s.mayRelease sc → s.self.scalar o.d = 0 → exec (.tlbinv o) s = .next (s1.fell id)) ∧
    (let kind := [kRead, kWrite, kFetch, kRmw].getD (o.mod.extractLsb' 8 2).toNat kRmw
     let va := (s.self.scalar o.sa.reg).toNat % 2 ^ 56
     let c := s.ctx s.cur
     ∀ r s2, Runs (probe (if o.mod.getLsbD 7 then { c with priv := false } else c) kind va) s r s2 → s2.full .scalar o.d →
      exec (.tlbprobe o) s = .next (s2.fell (·.sentLong o.d (match r with
        | .ok (l, hit) => BitVec.ofNat 64 ((if hit then 2 ^ 57 else 0) + l.level * 2 ^ 55 + l.pte.kind * 2 ^ 52 +
            (if l.pte.kind = 1 ∨ l.pte.kind = 4 then l.pa va else 0))
        | .error f => BitVec.ofNat 64 (2 ^ 63 + f.level * 256 + f.cause)) s2.cycle)))

/-- resv makes, binds and bounds reservations, and unresv frees one; each follows a release at dev. With full registers, every
store of the core acknowledged, s1 the state after the release at dev. resv.new: a limit of 0, above 2^26, below the capacity
or below the first copy index gives 2^63 + 4; capacity that the die has not left gives 2^63 + 1; at user privilege a quota
exceeded gives 2^63 + 2; no free ID gives 2^63 + 3; otherwise a free ID of the die names a new reservation with those fields,
s[D] gets it, with the use form RESVID becomes 2^12 + ID, and the slices of the die give up the leased lines that they have no
room for now. resv.use clears V, or binds a reservation of the tenant, or takes trap 0x09 naming s[A]. resv.quota and
resv.pool at supervisor privilege write the quota and the pool base; a base not on 64 takes trap 0x0D. unresv frees a
reservation of the tenant, or takes trap 0x09. (05 resv (R131, R133, R134); 05 unresv, disc, umig, promo (R135).) -/
def Obligations.ReservationInstructions : Prop :=
  ∀ (o : MArgs) (s : State), s.full .scalar o.sa.reg → s.full .scalar o.sb.reg → s.full .scalar o.sc.reg → s.full .scalar o.d →
    s.mayRelease .dev →
    let s1 := s.released .dev
    let a := s.self.scalar o.sa.reg
    let b := s.self.scalar o.sb.reg
    let c := s.self.scalar o.sc.reg
    let q := s1.self
    let die := if o.imm.toNat % 8 = 4 then dieOf s1.cur else o.imm.toNat % 8
    let made : Resv :=
      { cap := a.toNat, limit := b.toNat, cowbase := c.toNat, ncow := c.toNat, tenant := q.tenant,
        group := if q.priv || q.launch.isNone then none else some q.group }
    let answer (k : Nat) : Prop := exec (.resvNew o) s = .next (s1.fell (·.sentLong o.d (BitVec.ofNat 64 k) s1.cycle))
    let bad : Prop := b.toNat = 0 ∨ 2 ^ 26 < b.toNat ∨ b.toNat < a.toNat ∨ b.toNat < c.toNat
    let above : Prop := q.priv = false ∧ NMap.getD s1.quotas (4 * q.tenant + die) 0 < s1.heldBy q.tenant die + a.toNat
    (bad → answer (2 ^ 63 + 4)) ∧
    (¬bad → 1280 - s1.reserved die < a.toNat → answer (2 ^ 63 + 1)) ∧
    (¬bad → a.toNat ≤ 1280 - s1.reserved die → above → answer (2 ^ 63 + 2)) ∧
    (¬bad → a.toNat ≤ 1280 - s1.reserved die → ¬above → s1.freeResvs die = [] → answer (2 ^ 63 + 3)) ∧
    (¬bad → a.toNat ≤ 1280 - s1.reserved die → ¬above → s1.freeResvs die ≠ [] →
      ∃ id ∈ s1.freeResvs die, ∃ k, exec (.resvNew o) s = .next (State.fell
        (trimSlices die { s1 with freeCtr := k, resvs := NMap.set s1.resvs id made })
        fun q => if o.mod.getLsbD 2 then { q.sentLong o.d (BitVec.ofNat 64 id) s1.cycle with resvid := BitVec.ofNat 64 (2 ^ 12 + id) }
          else q.sentLong o.d (BitVec.ofNat 64 id) s1.cycle)) ∧
    (a.getLsbD 63 = true → exec (.resvUse o) s = .next (s1.fell fun q => { q with resvid := q.resvid &&& 0xFFF })) ∧
    (a.getLsbD 63 = false → (s1.resvOf q.tenant a).isSome = true →
      exec (.resvUse o) s = .next (s1.fell fun q => { q with resvid := 0x1000 ||| a })) ∧
    (a.getLsbD 63 = false → s1.resvOf q.tenant a = none →
      exec (.resvUse o) s = .next (s1.trapped { cause := 0x09, tval := a, estart := some 0 })) ∧
    ((s1.resvOf q.tenant a).isSome = true → exec (.unresv o) s = .next ((freeResv a.toNat s1).fell id)) ∧
    (s1.resvOf q.tenant a = none → exec (.unresv o) s = .next (s1.trapped { cause := 0x09, tval := a, estart := some 0 })) ∧
    (s.self.priv = true →
      exec (.resvQuota o) s =
        .next (State.fell { s1 with quotas := NMap.set s1.quotas (4 * a.toNat + o.imm.toNat % 4) b.toNat } id) ∧
      (a.toNat % 64 = 0 → exec (.resvPool o) s =
        .next ((s1.modDie (o.imm.toNat % 4) fun d => { d with pool := a.toNat }).fell id)) ∧
      (a.toNat % 64 ≠ 0 → exec (.resvPool o) s = .next (s1.trapped { cause := 0x0D, tval := a, estart := some 0 })))

/-- disc, umig, promo and cfork do page ESTART as its rule says and go on with the next; tstat tells what stands there. With full
registers, every store of the core acknowledged, s1 the state after the release at dev. With bases on a page boundary and page
ESTART found (its leaf as its entry now stands, checked), the page is done; then ESTART names the next page, at a stopping
point, or after the last one the instruction falls through with ESTART 0. disc discards an unbacked page, and leaves others.
umig moves an unbacked page, its lines read without a fault, to the same index of a reservation of the tenant with room and
limit, and rewrites its leaf. promo gives an unbacked page with LF a frame of the pool, or takes trap 0x13 where it has none,
and leaves others. cfork of a backed or shared page without scale array (an unbacked one with LF promoted first) discards the
child page and makes both leaves shared copy-on-write. No page left: nothing but ESTART 0. A base off the boundary takes trap
0x0D. tstat writes s[D] with what stands. (05 unresv, disc, umig, promo (R132, R136, R137, R138); 05 cfork (R139); 05 tstat
(R140).) -/
def Obligations.TierPageLoops : Prop :=
  ∀ (o : MArgs) (s : State), s.full .scalar o.sa.reg → s.full .scalar o.sb.reg → s.full .scalar o.sc.reg → s.full .scalar o.d →
    s.mayRelease .dev →
    let s1 := s.released .dev
    let c := s1.ctx s1.cur
    let a := s.self.scalar o.sa.reg
    let b := s.self.scalar o.sb.reg
    let n := s.self.scalar o.sc.reg
    let k := s1.self.estart.toNat
    let pages (n : DWord) : Nat := Min.min n.toNat (2 ^ 40)
    let va := pageVa a k
    let pva := pageVa b k
    let resv (l : Leaf) : Nat := l.pte.frame / 2 ^ 26
    let page (l : Leaf) : Nat := l.pte.frame % 2 ^ 26
    (a.toNat % 65536 ≠ 0 → b ≠ 0 → ∀ i ∈ [Instr.disc o, .umig o, .promo o],
      exec i s = .next (s1.trapped { cause := 0x0D, tval := a, estart := some 0 })) ∧
    (a.toNat % 65536 = 0 → k < pages b → ∀ l s2, Runs (pageLeaf c kRmw va k) s1 l s2 →
      let does (i : Instr) (t : State) : Prop := exec i s = .next (t.pageDone k (pages b))
      does (.disc o) (if l.pte.kind = 3 then discardPage (resv l) (page l) s2 else s2) ∧
      (l.pte.kind = 3 → ∀ r s3, s2.resvOf c.tenant n = some r → page l < r.limit →
        (page l ∈ (NMap.getD s2.resvs (resv l) {}).pages → page l ∈ r.pages ∨ r.pages.length < r.cap) →
        let src := unbackedLoc (resv l) (page l) 0
        Runs (checkLines src 65536 false l.level kRmw va k (pure ())) (readyRange src 65536 s2) () s3 →
        does (.umig o) (rewriteLeaf c l va (l.pte.retarget 3 (n.toNat * 2 ^ 26 + page l) false)
          (movePage (resv l) (page l) n.toNat (page l) s3))) ∧
      (l.pte.kind ≠ 3 → does (.promo o) s2) ∧
      (l.pte.kind = 3 → l.pte.lf = true → ∀ s3,
        (Runs (framePage c l kRmw va k) s2 true s3 → does (.promo o) s3) ∧
        (Runs (framePage c l kRmw va k) s2 false s3 → exec (.promo o) s = .next (s3.trapped (xtrap 0x13 l.level kRmw va k))))) ∧
    (a.toNat % 65536 = 0 → b.toNat % 65536 = 0 → k < pages n → ∀ p ch s2,
      Runs (do
        let p ← pageLeaf c kRead pva k
        let ch ← pageLeaf c kWrite va k
        if p.pte.kind = 3 ∧ p.level = 3 ∧ ch.level = 3 ∧ p.pte.lf = true then
          promote c p kRead pva k
          return (← pageLeaf c kRead pva k, ← pageLeaf c kWrite va k)
        else return (p, ch)) s1 (p, ch) s2 →
      p.level = 3 → ch.level = 3 → p.pte.kind = 1 ∨ p.pte.kind = 4 → p.pte.ic = false → Pte.scf p.pte = 0 → ch.pte.kind = 3 →
      exec (.cfork o) s = .next ((rewriteLeaf c p pva (p.pte.setField 1 3 4)
        (rewriteLeaf c ch va (ch.pte.childOf p.pte) (discardPage (resv ch) (page ch) s2))).pageDone k (pages n))) ∧
    (pages b ≤ k → b = 0 ∨ a.toNat % 65536 = 0 → ∀ i ∈ [Instr.disc o, .umig o, .promo o],
      exec i s = .next (s1.fell fun q => { q with estart := 0 })) ∧
    (pages n ≤ k → n = 0 ∨ (a.toNat % 65536 = 0 ∧ b.toNat % 65536 = 0) →
      exec (.cfork o) s = .next (s1.fell fun q => { q with estart := 0 })) ∧
    (let tells (t : State) (v : DWord) : Prop := exec (.tstat o) s = .next (t.fell (·.sentLong o.d v t.cycle))
     (o.mod.toNat % 4 = 0 → ∀ r t, Runs (probe { c with priv := false } kRead (a.toNat % 2 ^ 56)) s1 r t → t.full .scalar o.d →
        tells t (pageState t (a.toNat % 2 ^ 56) r)) ∧
     (o.mod.toNat % 4 = 1 → tells s1 (resvState s1 c.tenant a)) ∧
     (o.mod.toNat % 4 = 2 → s.self.priv = true → tells s1 (leaseState s1 a)))

/-- loffer offers a region, ltake takes an offer, lrecl withdraws or reclaims, lret returns a lease or frees its slot. At
supervisor privilege with full registers and every store of the core acknowledged, s1 the state after the release at dev.
loffer: with no free entry 2^63 + 1, a region that may not be lent 2^63 + 2, one that overlaps an entry in use 2^63 + 3, the
lowest code first where several hold (the model's choice: log 144); else its lines go home, a free entry becomes OFFERED with
the fields given, the offer goes to the device and s[D] gets the entry. ltake: where the descriptor is read, a reserved field
set gives 2^63 + 6, no offer 2^63 + 1, as does one that its lender no longer holds open (a free value: log 35). lrecl: an
OFFERED entry is freed and s[D] = 0; a LENT one is RECLAIMING with its deadline, the borrower told, and s[D] = 1; else 2^63.
lret.ret: an ACTIVE slot is DEMOTING, the lender told, s[D] = 0; lret.free: a DEMOTED or LOST slot is FREE, the reads under
way for it forgotten, s[D] = 0; else 2^63. The bytes that an offer carries to the device are the model's choice: the spec
gives no layout (log 36). (05 loffer, ltake, lrecl, lret (R141 to R144); 05 Leases (R125, R127).) -/
def Obligations.LeaseInstructions : Prop :=
  ∀ (o : MArgs) (s : State), s.self.priv = true → s.full .scalar o.sa.reg → s.full .scalar o.sb.reg → s.full .scalar o.sc.reg →
    s.full .scalar o.d → s.mayRelease .dev →
    let s1 := s.released .dev
    let a := s.self.scalar o.sa.reg
    let size := (s.self.scalar o.sb.reg).toNat
    let dev := (s.self.scalar o.sc.reg).toNat % 65536
    let key := o.mod.toNat % 2048
    let tells (i : Instr) (t : State) (k : Nat) : Prop := exec i s = .next (t.fell (·.sentLong o.d (BitVec.ofNat 64 k) s1.cycle))
    let free := (List.range 128).filter (fun i => (NMap.getD s1.lend i {}).st == .free)
    (free = [] → tells (.loffer o) s1 (2 ^ 63 + 1)) ∧
    (free ≠ [] → lendable s1 a.toNat size key = false → tells (.loffer o) s1 (2 ^ 63 + 2)) ∧
    (free ≠ [] → lendable s1 a.toNat size key = true → s1.lentOut a.toNat size = true → tells (.loffer o) s1 (2 ^ 63 + 3)) ∧
    (free ≠ [] → lendable s1 a.toNat size key = true → s1.lentOut a.toNat size = false → ∃ i ∈ free, ∃ k t,
      t = sendLease dev .offer i (leBytes 8 a.toNat ++ leBytes 4 (size / 65536) ++ leBytes 4 o.imm.toNat)
        (addOffer i ⟨.offered, a.toNat, size / 65536, key, dev, o.imm.toNat, none⟩ (leaveRegion a.toNat size { s1 with freeCtr := k })) ∧
      (t.full .scalar o.d → exec (.loffer o) s = .next (t.fell (·.sentLong o.d (BitVec.ofNat 64 i) t.cycle)))) ∧
    (∀ v t, a.toNat % 2 ^ 56 % 64 = 0 → s1.loads (a.toNat % 2 ^ 56) 64 v t → t.full .scalar o.d →
      let d := takeDesc v
      let bad : Prop := d.reserved = true ∨ (128 ≤ d.slot ∧ d.slot < 0xFF)
      let refuses (k : Nat) : Prop := exec (.ltake o) s = .next (t.fell (·.sentLong o.d (BitVec.ofNat 64 (2 ^ 63 + k)) t.cycle))
      (bad → refuses 6) ∧
      (¬bad → NMap.get? t.offers (256 * d.ldev + d.lent) = none → refuses 1) ∧
      (∀ base pages tr, ¬bad → NMap.get? t.offers (256 * d.ldev + d.lent) = some (base, pages, tr) →
        let t1 := { t with freeCtr := t.freeCtr + 1 }
        let answers (u : State) (k : Nat) : Prop := exec (.ltake o) s = .next (u.fell (·.sentLong o.d (BitVec.ofNat 64 k) u.cycle))
        let fits : Prop := oneRange d.fbase d.fsize = true ∧ d.fbase % 65536 = 0 ∧ pages * 65536 ≤ d.fsize
        (Config.offerClosed t.freeCtr = true →
          answers { t1 with offers := NMap.erase t1.offers (256 * d.ldev + d.lent) } (2 ^ 63 + 1)) ∧
        (Config.offerClosed t.freeCtr = false → t1.slotFor d = none → answers t1 (2 ^ 63 + 5)) ∧
        (∀ i, Config.offerClosed t.freeCtr = false → t1.slotFor d = some i →
          (¬fits → answers t1 (2 ^ 63 + 2)) ∧
          (fits → d.dbw < minDbw pages tr → answers t1 (2 ^ 63 + 3)) ∧
          (fits → minDbw pages tr ≤ d.dbw → 1750 < t1.dbwInUse + d.dbw → answers t1 (2 ^ 63 + 4)) ∧
          (fits → minDbw pages tr ≤ d.dbw → t1.dbwInUse + d.dbw ≤ 1750 → (takeLease d i base pages t1).full .scalar o.d →
            answers (takeLease d i base pages t1) i)))) ∧
    (let e := s1.entryAt a
     (e.st = .offered → tells (.lrecl o) { s1 with lend := NMap.erase s1.lend a.toNat } 0) ∧
     (∀ t, e.st = .lent → t = sendLease e.dev .reclaim a.toNat [] (startReclaim a.toNat s1) → t.full .scalar o.d →
       exec (.lrecl o) s = .next (t.fell (·.sentLong o.d 1 t.cycle))) ∧
     (e.st = .free ∨ e.st = .reclaiming → tells (.lrecl o) s1 (2 ^ 63))) ∧
    (let b := s1.slotAt a
     (∀ t, b.st = .active → t = sendLease b.ldev .returnBegun b.lent [] (startPull a.toNat s1) → t.full .scalar o.d →
       exec (.lretRet o) s = .next (t.fell (·.sentLong o.d 0 t.cycle))) ∧
     (b.st ≠ .active → tells (.lretRet o) s1 (2 ^ 63)) ∧
     (b.st = .demoted ∨ b.st = .lost → tells (.lretFree o) { (dropReads a.toNat s1) with borrow := NMap.erase s1.borrow a.toNat } 0) ∧
     (b.st ≠ .demoted → b.st ≠ .lost → tells (.lretFree o) s1 (2 ^ 63)))

/-- twk, twkm, copy and rcopy give their engine the command their operands describe, or one refused with status 0xF0; grant sets a
permit. With full registers, s1 the state after the release that the order names. twk and twkm: where the descriptor is read
and the Trowel has room, a descriptor that R226 or R233 refuses enters as a command stopped with 0xF0; else, where the
branches belong to the tenant and the command is accepted, it enters with the fields of the descriptor, the Trowel of its
core, its permit tag and the branches of its destination. copy enters as one row; a length of 0 enters with nothing to do;
misaligned or oversized is refused. rcopy enters with the device, PA (modulo 2^52: log 123) and signal of its operands. s[D]
of each empties. grant sets range and credits, adds credits up to 65535, or takes them away; a range outside the scratchpad or
not on 4 takes trap 0x09. (09 The instructions (R224 to R229, R233 to R237).) -/
def Obligations.EngineCommands : Prop :=
  ∀ (o : MArgs) (s s1 : State), s.full .scalar o.sa.reg → s.full .scalar o.sb.reg → s.full .scalar o.sc.reg → s.full .scalar o.d →
    Runs (if o.ord == .rel then release o.scope else pure ()) s () s1 →
    let a := s.self.scalar o.sa.reg
    let b := s.self.scalar o.sb.reg
    let n := s.self.scalar o.sc.reg
    let refused (c : EngCmd) : EngCmd := { c with stop := some 0xF0, branches := [] }
    let issues (i : Instr) (t : State) : Prop := exec i s = .next (t.fell id)
    let base (t : State) (kind : EngKind) : EngCmd :=
      { kind := kind, ctx := t.ctx t.cur, d := o.d, ev := o.mod.getLsbD 4, utag := o.imm.toNat }
    let walk (t : State) (kind : EngKind) (v : Nat) : EngCmd :=
      walkOf v { base t kind with src := trowelOf (t.ctx t.cur).core, ptag := o.mod.toNat % 16, started := false }
    (∀ v t, (a.toNat % 2 ^ 56) % 64 = 0 → s1.loads (a.toNat % 2 ^ 56) 64 v t → t.trowelRoom →
      let c0 := walk t .walk v
      let d := c0.dva % 2 ^ 56
      let c : EngCmd := { c0 with
        dva := d, memDst := !inWindow d
        branches := if inWindow d then ((windowTarget (t.ctx t.cur).core d).toList.map fun x => { core := x.1, base := x.2 }) else [] }
      let bad : Prop := badWalk v c = true ∨ (inScratch c.ctx.core c.sva = false ∧ inScratch c.ctx.core d = false) ∨ 4096 < c.memoryPages ∨
        c.sourceFits = false ∨ c.branchesFit = false
      (bad → issues (.twk o) (t.entered (refused c))) ∧
      (∀ u, ¬bad → (inWindow d = true → c.branches ≠ []) → t.ownsBranches c → t.accepts c u → issues (.twk o) u)) ∧
    (∀ v t, (a.toNat % 2 ^ 56) % 64 = 0 → s1.loads (a.toNat % 2 ^ 56) 64 v t → t.trowelRoom →
      let c0 := walk t .multicast v
      let m := b.toNat % 256
      let c : EngCmd := { c0 with
        branches := ((List.range 8).filter (fun i => bit m i)).map fun i => { core := (t.ctx t.cur).core / 8 * 8 + i, base := c0.dva } }
      let bad : Prop := m = 0 ∨ badWalk v c = true ∨ inScratch c.ctx.core c.sva = true ∨ 4096 < c.memoryPages ∨ c.branchesFit = false
      (bad → issues (.twkm o) (t.entered (refused c))) ∧
      (∀ u, ¬bad → t.ownsBranches c → t.accepts c u → issues (.twkm o) u)) ∧
    (let d := a.toNat % 2 ^ 56
     let c : EngCmd := { base s1 .copy with
       src := 8 * ((s1.ctx s1.cur).core / 48) + Config.copyEngine s1.nextCmd % 8, sva := b.toNat % 2 ^ 56, dva := d, rowb := n.toNat
       memDst := !inWindow d
       branches := if inWindow d then
         ((windowTarget (s1.ctx s1.cur).core d).toList.map fun x => { core := x.1, base := x.2, credit := true }) else [] }
     let bad : Prop := d % 4 ≠ 0 ∨ c.sva % 4 ≠ 0 ∨ n.toNat % 4 ≠ 0 ∨ 2 ^ 32 < n.toNat ∨ 4096 < c.srcTouched.length ∨
       4096 < c.dstTouched.length
     (bad → issues (.copy o) (s1.entered (refused c))) ∧
     (∀ u, ¬bad → n = 0 → s1.accepts c u → issues (.copy o) u) ∧
     (∀ u, ¬bad → (inWindow d = true → c.branches ≠ [] ∧ c.branchesFit = true) → s1.ownsBranches c → s1.accepts c u → issues (.copy o) u)) ∧
    (s.full .scalar (o.sc.reg + 1) → s.full .scalar (o.sc.reg + 2) →
     let sig := if o.mod.getLsbD 0 then some (s.self.scalar (o.sc.reg + 2)).toNat else none
     let dev := (s.self.scalar (o.sc.reg + 1)).toNat % 65536
     let c : EngCmd := { base s1 .rcopy with
       src := dev, sva := b.toNat % 2 ^ 56, dva := a.toNat % 2 ^ 52, rowb := n.toNat, dev := dev, sig := sig }
     let bad : Prop := n.toNat % 4 ≠ 0 ∨ 2 ^ 32 < n.toNat ∨ sig.any (fun x => x % 8 != 0) = true ∨ s1.members dev = []
     (bad → issues (.rcopy o) (s1.entered (refused c))) ∧
     (∀ u, ¬bad → s1.accepts c u → issues (.rcopy o) u)) ∧
    (let t := o.mod.toNat % 16
     let p := NMap.getD (s1.core (coreOf s1.cur)).permits t {}
     let sets (p : Permit) : Prop := issues (.grant o) (s1.modCore (coreOf s1.cur) (·.setPermit t p))
     let form := bits o.mod.toNat 4 2
     (form = 0 → a.toNat + b.toNat ≤ 2 ^ 20 → a.toNat % 4 = 0 → b.toNat % 4 = 0 → sets ⟨a.toNat, b.toNat, o.imm.toNat⟩) ∧
     (form = 0 → 2 ^ 20 < a.toNat + b.toNat ∨ a.toNat % 4 ≠ 0 ∨ b.toNat % 4 ≠ 0 →
       exec (.grant o) s = .next (s1.trapped { cause := 0x09, tval := a, estart := some 0 })) ∧
     (form = 1 → sets { p with credits := Min.min (p.credits + o.imm.toNat) 65535 }) ∧
     (2 ≤ form → sets { p with credits := 0 }))

/-- spawn, cancel and launch act through the Hive, ctxsv and ctxld move a context, and arrive.remote sends an arrival. With full
registers. With the stores of the core acknowledged: spawn: where the record is read and good and the sequencer is of a
launch, a request follows the release at dev and the sequencer waits; the Hive takes the oldest request of an unmarked group
with room: the task is queued and, for a spawner that still waits, p[D] = 1 and control falls through. A bad record gives p[D]
= 0 at once. cancel of a group without a member gives 2^63 + 1; of one with a member the group goes to the Hives and the
issuer waits; when it is gone, s[D] = 0 after an acquire at dev. launch gives s[D] = 0 or 2^63 + the code. ctxsv stores the
area in order and gives its size; without an area, trap 0x09. ctxld refuses a bad head with 2^63 + 1, before it reads the rest
and by more checks than R416 lists (the model's reading: log 50), and having read the whole area refuses with 2^63 + 2 or 3,
or the context runs on from the area and the core it was saved on, where another one, is flushed by its tag. arrive.remote of
a cell off 16 bytes takes trap 0x0D (its level 0: log 13); else it sends ARRIVE to a device (the PA modulo 2^52: log 123), or
gives 2^63 + 0xF0. (14 the task instructions (R372 to R375, R378); 17 the save area (R414 to R416); 15 Barriers (R396,
arrive.remote).) -/
def Obligations.TasksLaunchesAndContexts : Prop :=
  (∀ (o : RArgs) (s : State), s.full .scalar o.sa.reg → s.full .scalar o.d →
    let va := (s.self.scalar o.sa.reg).toNat % 2 ^ 56
    let a := s.self.scalar o.sa.reg
    (∀ v t, va % 64 = 0 → s.loads va 64 v t →
      t.mayRelease .dev →
      let u := t.released .dev
      ((∀ k, s.self.wait ≠ some (.spawn k)) → ∀ l w, t.self.launch = some l → t.self.work = some w →
        (taskBad v = true → exec (.spawn o) s = .next (t.fell (·.setPred o.d.toNat false))) ∧
        (taskBad v = false → exec (.spawn o) s = .next (State.setWait
          { u with spawns := NMap.set u.spawns u.nextSpawn ⟨u.cur, t.self.uid, o.d, t.self.group, taskOf l t.self (coreOf u.cur) v⟩,
                   nextSpawn := u.nextSpawn + 1 } u.cur (.spawn u.nextSpawn)).tick)) ∧
      (∀ k t', Runs (submitLaunch (hiveCtx (dieOf u.cur) (u.ctx u.cur)) (dieOf u.cur) u.self.group v) u k t' → t'.full .scalar o.d →
        exec (.launch o) s =
          .next (t'.fell (·.sentLong o.d (BitVec.ofNat 64 (if k = 0 then 0 else 2 ^ 63 + k)) t'.cycle)))) ∧
    (let g := if a = 0 then s.self.group else groupKey s.self.tenant a.toNat
     let member : Prop := s.groupHolds s.self.tenant g = true ∨ s.marks.any (fun m => m.2 == g) = true
     ((∀ k, s.self.wait ≠ some (.cancel k)) → g = 0 ∨ ¬member →
       exec (.cancel o) s = .next (s.fell (·.sentLong o.d (BitVec.ofNat 64 (2 ^ 63 + 1)) s.cycle))) ∧
     ((∀ k, s.self.wait ≠ some (.cancel k)) → g ≠ 0 → member → s.mayRelease .dev →
       let u := s.released .dev
       exec (.cancel o) s =
         .next (State.setWait { u with cancels := u.cancels ++ [(g, dieOf u.cur)] } u.cur (.cancel g)).tick) ∧
     (∀ k, s.self.wait = some (.cancel k) → s.cancels.any (fun c => c.1 == k) = false →
       let u := if o.d = 0 then s else s.modSeq s.cur (·.sentLong o.d 0 s.cycle)
       exec (.cancel o) s = .next ((acquireL1 (coreOf u.cur) .dev u).fell id))) ∧
    (let area := (s.self.tsave.extractLsb' 12 44).toNat * 4096
     (area = 0 → exec (.ctxsv o) s = .next (s.trapped { cause := 0x09, tval := 0, estart := some 0 })) ∧
     (∀ s1 t, area ≠ 0 → Runs needSaved s () s1 →
       let s2 := s1.modCore (coreOf s1.cur) fun c => { c with links := c.links.filter (fun l => l.seq != s1.cur) }
       let q := s2.self
       RunsAll (fun x => storeDword (s2.ctx s2.cur) ((area + 8 * x.2) % 2 ^ 56) x.1)
         (areaDwords s2 s2.cur q o.d q.nextPc).zipIdx s2 t → t.full .scalar o.d →
       exec (.ctxsv o) s =
         .next (t.fell (·.setScalar o.d (BitVec.ofNat 64 (areaSize q.claim q.mvl (setBitsOf q.savedAccs))))))) ∧
    (∀ head t, va % 4096 = 0 → Runs (loadRun (s.ctx s.cur) va 0 0x140) s head t → t.full .scalar o.d →
      let user := !t.self.priv
      let claim := ((savedCr head 1).extractLsb' 16 5).toNat
      let m := 7 * maskBytes (savedCr head 3).toNat / 8
      let named := accsOf (bits (head.getD 2 0) 9 2)
      let refused (t : State) (k : Nat) : Prop :=
        exec (.ctxld o) s = .next (t.fell (·.setScalar o.d (BitVec.ofNat 64 (2 ^ 63 + k))))
      (areaOk head = false → refused t 1) ∧
      (∀ t1 t2 t3 masks store accs, areaOk head = true →
        Runs (loadRun (s.ctx s.cur) va 0x140 m) t masks t1 →
        Runs (loadRun (s.ctx s.cur) va (0x140 + m) (4096 * claim)) t1 store t2 →
        Runs (loadRun (s.ctx s.cur) va (0x140 + m + 4096 * claim) (2048 * named.length)) t2 accs t3 → t3.full .scalar o.d →
        let sneaks : Prop := user = true ∧ (savedCr head 0x1B).getLsbD 0 = true
        let short : Prop := t3.self.claim + t3.freeUnits (coreOf t3.cur) < claim
        (sneaks → refused t3 2) ∧
        (¬sneaks → short → refused t3 3) ∧
        (∀ t4 t5, ¬sneaks → ¬short → Runs needSaved t3 () t4 →
          let k := ((t4.self.loadHead head).loadCrs head user).loadChecked t3 head user
          let u := t4.modSeq t4.cur fun q => { k with
            masks := loadMasks (savedCr head 3).toNat masks, bricks := loadBricks claim (savedCr head 3).toNat k.sewCode store
            line := none, cameFrom := some q.pc, wait := none, atStop := false, partWay := false }
          RunsAll (fun x => writeAcc x.1 (loadAcc ((accs.drop (2048 * x.2)).take 2048))) named.zipIdx u t5 →
          let core := coreOf t3.cur
          exec (.ctxld o) s = .next (settleBanks core (t5.flushMoved head core)).tick ∧
            k.pc = BitVec.ofNat 56 (head.getD 1 0) ∧ k.vl = (savedCr head 2).toNat ∧ k.vtype = savedCr head 1 ∧
            ∀ r : Reg, r ≠ 0 → k.scalar r = BitVec.ofNat 64 (head.getD (0x18 + r.toNat) 0))))) ∧
  (∀ (s : State) (die k : Nat) (r : SpawnReq) (l : Launch), s.input = .spawnArrival die →
    s.spawns.find? (fun x => x.2.task.die == die) = some (k, r) → s.marks.any (fun m => m.1 == die && m.2 == r.group) = false →
    s.tasksOf r.task.launch die < 1024 → NMap.get? s.launches r.task.launch = some l →
    let q := s.seq r.seq
    let s1 : State := { s with
      spawns := NMap.erase s.spawns k, nextTask := s.nextTask + 1
      tasks := NMap.set s.tasks s.nextTask { r.task with prio := Min.min r.task.prio l.prio } }
    (q.uid = r.uid ∧ q.live = true ∧ q.wait = some (.spawn k) →
      exec .spawnArrival s = .next (s1.modSeq r.seq fun q => (q.setPred r.d.toNat true).advance).tick) ∧
    (¬(q.uid = r.uid ∧ q.live = true ∧ q.wait = some (.spawn k)) → exec .spawnArrival s = .next s1.tick)) ∧
  (∀ (o : SArgs) (s : State), s.full .scalar o.sa.reg → s.full .scalar o.sb.reg → s.full .scalar o.d →
    s.engines.any (fun x => x.2.ctx.seq == s.cur && x.2.kind == .rcopy) = false →
    let dev := (s.self.scalar o.sb.reg).toNat % 65536
    let pa := (s.self.scalar o.sa.reg).toNat
    (pa % 16 ≠ 0 → exec (.arriveRemote o) s = .next (s.trapped (misaligned kRmw (pa % 2 ^ 56) 0))) ∧
    (pa % 16 = 0 → dev = s.relov.devno ∨ 0xFF00 ≤ dev → exec (.arriveRemote o) s =
      .next (s.fell (·.sentLong o.d (BitVec.ofNat 64 (2 ^ 63 + 0xF0)) s.cycle))) ∧
    (pa % 16 = 0 → dev ≠ s.relov.devno → dev < 0xFF00 →
      let x := newCommand { kind := .arrive s.self.uid o.d, left := [(dev, 1)] } (noteRequest (s.ctx s.cur) 0 s)
      let t := sendPacket dev (flowOf (dieOf s.cur) .wr) .arrive x.1 (pa % 2 ^ 52) [] x.2
      exec (.arriveRemote o) s = .next (t.fell fun q => if o.d = 0 then q else q.setEmpty .scalar o.d)))

/-- vset, fields and halos set up bricks; moves and permutations write the elements their tables name; mask instructions their
masks. With full registers. vset with bricks complete: an unsupported type sets VILL, VL 0 and s[D] = 0; else the granted
shape, VL at most AVL and MVL, in s[D]; the free form gives all back. bfield sets or clears a descriptor, and clears V of
others that overlap it. bhalo clears, or takes a descriptor read, or refuses with 2^63 + 1. With a well-formed type of its
width: vbcast, vslide, vtrans, vcomp, vexp, vins and vgath write the active elements their rule names, reading sources first,
and vext gives an element. Mask instructions write bits below VL and clear those above, m0 staying all ones; mpopc, mfirst and
miota count. An ill-formed type takes trap 0x05, also where a source is empty (the model's choice: log 132); what an
unsupported vset keeps is log 78. (10 vset and the storage it claims (R249 to R253); 10 Brick fields and halos (R256, R258);
10 Moves and permutations (R266 to R269); 10 Mask instructions (R270 to R272).) -/
def Obligations.BrickShapesMovesAndMasks : Prop :=
  (∀ (o : MArgs) (s s1 : State), s.full .scalar o.sa.reg → s.full .scalar o.d → Runs needBricksDone s () s1 → s1.full .scalar o.d →
    let im (lo n : Nat) : Nat := bits o.imm.toNat lo n
    let avl := (s.self.scalar o.sa.reg).toNat
    let core := coreOf s1.cur
    let bad : Prop := 3 < im 0 3 ∨ im 3 3 = 7 ∨ im 6 3 = 7 ∨ im 9 3 = 7
    (bad → exec (.vset o) s = .next (s1.fell fun q => Seq.sentLong
      { q with vtype := (q.vtype &&& 0xFFFFFFFFFFFFF000) ||| BitVec.ofNat 64 (2 ^ 31 + o.imm.toNat % 4096), vl := 0, slen := 0 }
      o.d 0 s1.cycle)) ∧
    (¬bad →
      let g := grantBricks s1.self (im 0 3) (im 3 3) (im 6 3) (im 9 3) avl (s1.claims core) (s1.core core).banks
        (s1.die (dieOf s1.cur)).ln (o.mod.getLsbD 0)
      let t := settleBanks core (s1.modSeq s1.cur fun _ => g)
      g.vl ≤ avl ∧ g.vl ≤ g.mvl ∧
      (t.full .scalar o.d → exec (.vset o) s = .next (t.fell (·.sentLong o.d (BitVec.ofNat 64 t.self.vl) t.cycle)))) ∧
    (let t := settleBanks core (s1.modSeq s1.cur fun q =>
      { q with vtype := 0x80000000, vl := 0, slen := 0, mvl := 0, bricks := [], masks := [] })
     t.full .scalar o.d → exec (.vsetFree o) s = .next (t.fell (·.sentLong o.d 0 t.cycle)))) ∧
  (∀ (o : MArgs) (s : State),
    let n := bits o.imm.toNat 12 2
    let v := BitVec.ofNat 64 (2 ^ 63 + o.d.toNat * 2 ^ 56 + bits o.imm.toNat 14 2 * 2 ^ 28 + o.mod.toNat % 4096 * 2 ^ 16 +
      bits o.imm.toNat 8 4 * 2 ^ 10 + bits o.imm.toNat 4 4 * 2 ^ 6 + bits o.imm.toNat 0 4 * 2 ^ 2)
    let noV (b : DWord) : DWord := b &&& 0x7FFFFFFFFFFFFFFF
    let old (i : Nat) : DWord := NMap.getD s.self.bfd i 0
    ∃ t, exec (.bfield o) s = .next t ∧ t = s.fell (fun q => { q with bfd := t.self.bfd }) ∧
      NMap.getD t.self.bfd n 0 = (if o.mod.getLsbD 12 then noV (old n) else v) ∧
      ∀ i, i ≠ n → NMap.getD t.self.bfd i 0 =
        if o.mod.getLsbD 12 = false ∧ bfdValid (old i) = true ∧ bfdOverlaps (old i) v = true then noV (old i) else old i) ∧
  (∀ (o : MArgs) (s : State), s.full .scalar o.sa.reg → s.full .scalar o.d →
    let n := o.imm.toNat % 4
    let a := (s.self.scalar o.sa.reg).toNat % 2 ^ 56
    let cleared (t : State) (k : DWord) : Prop := exec (.bhalo o) s = .next (t.fell fun q => Seq.sentLong
      { q with halo := NMap.modify q.halo n 0 (fun v => v &&& ~~~(1 : DWord)), haloCopy := NMap.erase q.haloCopy n } o.d k t.cycle)
    (o.mod.getLsbD 0 = true → cleared s 0) ∧
    (∀ v t, o.mod.getLsbD 0 = false → a % 64 = 0 → s.loads a 64 v t → t.full .scalar o.d →
      let d := BitVec.ofNat 512 v
      (haloOk d = true → exec (.bhalo o) s = .next (t.fell fun q => Seq.sentLong
        { q with halo := NMap.set q.halo n (BitVec.ofNat 64 (a + 1)), haloCopy := NMap.set q.haloCopy n d } o.d 0 t.cycle)) ∧
      (haloOk d = false → cleared t (BitVec.ofNat 64 (2 ^ 63 + 1))))) ∧
  (∀ (o : VArgs) (s : State), s.self.vl ≤ 8192 →
    let q := s.self
    let x := q.bitsOf o.sa.reg.toNat
    let i := (q.scalar o.sb.reg).toNat
    let act := q.activeAll o.me o.msel
    let writes (k : Instr) (es : List Nat) (f : Nat → DWord) : Prop := WritesBrick k s o.d es f
    (q.typed o.ty → s.full .brick o.d →
      (o.vmod.getLsbD 0 = false → s.full .scalar o.sa.reg →
        writes (.vbcast o) (q.activeFrom o.me o.msel) fun _ => BitVec.ofNat 64 ((q.scalar o.sa.reg).toNat % 2 ^ o.ty.width)) ∧
      (o.vmod.getLsbD 0 = true → s.full .brick o.sa.reg → s.full .scalar o.sb.reg →
        writes (.vbcast o) (q.activeFrom o.me o.msel) fun _ => if i < q.vl then x i else 0) ∧
      (s.full .brick o.sa.reg → s.full .scalar o.sb.reg → writes (.vslide o) act fun e =>
        let j : Int := if o.vmod.getLsbD 0 then ((e : Int) + (q.scalar o.sb.reg).toInt) % (q.vl : Int)
          else (e : Int) + (q.scalar o.sb.reg).toInt
        if 0 ≤ j ∧ j < (q.vl : Int) then x j.toNat else 0) ∧
      (s.full .brick o.sa.reg → writes (.vtrans o) act fun e => x (q.transSource (o.vmod.toNat % 8) e)) ∧
      (s.full .brick o.sa.reg → writes (.vcomp o) (List.range act.length) fun j => x (act.getD j 0)) ∧
      (s.full .brick o.sa.reg → writes (.vexp o) act fun e => x (act.idxOf e)) ∧
      (s.full .scalar o.sa.reg → s.full .scalar o.sb.reg → writes (.vins o) (if i < q.vl then [i] else []) fun _ =>
        BitVec.ofNat 64 ((q.scalar o.sa.reg).toNat % 2 ^ q.sew)) ∧
      (s.full .brick o.sa.reg → s.full .brick o.sb.reg → writes (.vgath o) act fun e =>
        if (q.bitsOf o.sb.reg.toNat e).toNat < q.vl then x (q.bitsOf o.sb.reg.toNat e).toNat else 0)) ∧
    (q.typed o.ty → s.full .brick o.sa.reg → s.full .scalar o.sb.reg → s.full .scalar o.d →
      exec (.vext o) s = .next (s.fell fun q => { q.sentLong o.d
        (if i < q.vl then (if o.ty.isSigned then BitVec.ofInt 64 (sext q.sew (x i).toNat) else x i) else 0) s.cycle with estart := 0 })) ∧
    (¬q.typed o.ty → ∀ k ∈ [Instr.vbcast o, .vslide o, .vtrans o, .vcomp o, .vexp o, .vins o, .vgath o, .vext o, .vadd o, .vfma o, .vcmp o,
      .vsel o, .vredo o], exec k s = .next (s.trapped { cause := 0x05, tval := q.vtype }))) ∧
  (∀ (o : RArgs) (s : State), s.self.vl ≤ 8192 →
    let q := s.self
    let a := q.mask o.sa.reg.toNat
    let b := q.mask o.sb.reg.toNat
    let v := if o.mod.toNat % 4 < 2 then (q.scalar o.sa.reg).toNat else 0
    let writes (k : Instr) (f : Nat → Bool) : Prop := ∃ t, exec k s = .next t ∧
      t = s.fell (fun q => { q with masks := t.self.masks, estart := 0 }) ∧
      (∀ d e, e < 8192 → (t.self.mask d).getLsbD e =
        if d = o.d.toNat ∧ d ≠ 0 then decide (e < q.vl) && f e else (q.mask d).getLsbD e)
    (q.ill = false →
      writes (.mand o) (fun e => a.getLsbD e && b.getLsbD e) ∧ writes (.mor o) (fun e => a.getLsbD e || b.getLsbD e) ∧
      writes (.mxor o) (fun e => a.getLsbD e ^^ b.getLsbD e) ∧ writes (.mnot o) (fun e => !a.getLsbD e) ∧
      (o.mod.toNat % 4 < 2 → s.full .scalar o.sa.reg → writes (.mset o) fun e =>
        if o.mod.toNat % 4 = 0 then decide (e < v) else v.testBit e) ∧
      (2 ≤ o.mod.toNat % 4 → writes (.mset o) fun _ => decide (o.mod.toNat % 4 = 2)) ∧
      (s.full .scalar o.d → exec (.mpopc o) s = .next (s.fell fun q =>
        { q.sentLong o.d (BitVec.ofNat 64 ((List.range q.vl).filter a.getLsbD).length) s.cycle with estart := 0 })) ∧
      (s.full .scalar o.d → ∀ r : DWord,
        (∀ e, (List.range q.vl).find? a.getLsbD = some e → r = BitVec.ofNat 64 e) →
        ((List.range q.vl).find? a.getLsbD = none → r = BitVec.allOnes 64) →
        exec (.mfirst o) s = .next (s.fell fun q => { q.sentLong o.d r s.cycle with estart := 0 })) ∧
      (s.full .brick o.d → WritesBrick (.miota o) s o.d (List.range q.vl) fun e =>
        BitVec.ofNat 64 (((List.range e).filter a.getLsbD).length % 2 ^ q.sew))) ∧
    (q.ill = true → ∀ k ∈ [Instr.mand o, .mor o, .mxor o, .mnot o, .mpopc o, .mfirst o, .miota o, .mset o],
      exec k s = .next (s.trapped { cause := 0x05, tval := q.vtype })))

/-- Every element instruction writes each active element from ESTART with its operation on the elements its operands name. With a
well-formed type of its width and every register reached full. Where operands stay in registers (no offset, a neighbour in the
field, a zero face) and rounding is not stochastic: if no element divides by zero or raises an enabled flag, each active
element from ESTART becomes the result of the table, its flags are merged into FSR, ESTART becomes 0 and nothing else changes;
a zero divisor at the first active element takes trap 0x19 there, an enabled flag trap 0x18 with the flags. In general (memory
faces, stochastic rounding), where each element step runs to its end, the instruction falls through, its brick pending if a
memory face can be reached. vcmp and vfcmp write mask bits, clearing those above VL; vsel chooses by the mask. (11 The common
mould (R273 to R278); 11 Integer instructions (R279 to R282); 11 Floating-point instructions (R283 to R289); 11 Conversions
(R290 to R293); 11 Approximations (R299 to R301); 03 The floating-point status register (R83, R84).) -/
def Obligations.ElementArithmetic : Prop :=
  ∀ (o : VArgs) (s : State), s.self.typed o.ty → s.reachFull o.sa.reg o.offA →
    let q := s.self
    let c := s.ctx s.cur
    let es := q.activeFrom o.me o.msel
    let w := o.ty.width
    let i (x : Nat) : Int := intOf o.ty x
    let f := Ty.fmt o.ty
    let m := q.mode o.rnd false
    let mn := q.mode o.rnd true
    let b : Second := if o.vmod.getLsbD 0 then .scalar ((q.scalar o.sb.reg).toNat % 2 ^ w) else .brick o.sb.reg.toNat o.offB
    let bFull : Prop := if o.vmod.getLsbD 0 then s.full .scalar o.sb.reg else s.reachFull o.sb.reg o.offB
    let bGives (e y : Nat) : Prop :=
      (∀ v, b = .scalar v → y = v) ∧ (∀ r off, b = .brick r off → q.readAt o.ty r off e = some y)
    let mould (k : Instr) (binary third : Bool) (mode : Rnd) (ok : Nat → Bool) (g : Nat → Nat → Nat → Nat → Nat × Flags) : Prop :=
      let b' := if binary then b else Second.none
      let far := q.reachesMem o.sa.reg.toNat o.offA || b'.reachesMem q
      s.full .brick o.d → (binary = true → bFull) → (third = true → s.full .brick o.sc.reg) →
      (∀ x y : Nat → Nat, far = false → mode ≠ .rsr → (∀ e ∈ es, q.readAt o.ty o.sa.reg.toNat o.offA e = some (x e)) →
        (∀ e ∈ es, binary = true → bGives e (y e)) →
        let v (e : Nat) : Nat × Flags :=
          g (x e) (if binary then y e else 0) (if third then (q.elem o.sc.reg.toNat e).toNat % 2 ^ w else 0) 0
        ((∀ e ∈ es, ok (y e) = true ∧ (v e).2 &&& q.enables = 0) → exec k s = .next (s.fell fun q =>
          { es.foldl (fun q e => (q.mergeFlags (v e).2).setElem o.d.toNat e (BitVec.ofNat 64 (v e).1)) q with estart := 0 })) ∧
        (∀ e rest, es = e :: rest → binary = true → ok (y e) = false →
          exec k s = .next (s.trapped { cause := 0x19, estart := some e })) ∧
        (∀ e rest, es = e :: rest → ok (y e) = true → (v e).2 &&& q.enables ≠ 0 →
          exec k s = .next (s.trapped (floatTrap (v e).2 e)))) ∧
      (∀ s1, RunsAll (elementStep c q o b' third mode
          (fun x y z r => if ok y then pure (g x y z r) else stopTrap { cause := 0x19 })
          (fun e v => modMe (·.setElem o.d.toNat e (BitVec.ofNat 64 v)))) es s s1 →
        exec k s = .next (s1.fell fun q =>
          if far then { q.sentBrick o.d es s1.cycle with estart := 0 } else { q with estart := 0 }))
    mould (.vadd o) true false .rne (fun _ => true) (fun x y _ _ => (wrap w (i x + i y), 0)) ∧
    mould (.vsub o) true false .rne (fun _ => true) (fun x y _ _ => (wrap w (i x - i y), 0)) ∧
    mould (.vmul o) true false .rne (fun _ => true) (fun x y _ _ => (wrap w (i x * i y), 0)) ∧
    mould (.vmulh o) true false .rne (fun _ => true) (fun x y _ _ => (wrap w (i x * i y / ((2 ^ w : Nat) : Int)), 0)) ∧
    mould (.vmin o) true false .rne (fun _ => true) (fun x y _ _ => (wrap w (if i x ≤ i y then i x else i y), 0)) ∧
    mould (.vmax o) true false .rne (fun _ => true) (fun x y _ _ => (wrap w (if i x ≤ i y then i y else i x), 0)) ∧
    mould (.vabs o) false false .rne (fun _ => true) (fun x _ _ _ => (wrap w ((i x).natAbs : Int), 0)) ∧
    mould (.vand o) true false .rne (fun _ => true) (fun x y _ _ => ((x &&& y) % 2 ^ w, 0)) ∧
    mould (.vor o) true false .rne (fun _ => true) (fun x y _ _ => ((x ||| y) % 2 ^ w, 0)) ∧
    mould (.vxor o) true false .rne (fun _ => true) (fun x y _ _ => ((x ^^^ y) % 2 ^ w, 0)) ∧
    mould (.vshl o) true false .rne (fun _ => true) (fun x y _ _ => (x * 2 ^ (y % w) % 2 ^ w, 0)) ∧
    mould (.vshr o) true false .rne (fun _ => true) (fun x y _ _ => (x / 2 ^ (y % w) % 2 ^ w, 0)) ∧
    mould (.vsra o) true false .rne (fun _ => true) (fun x y _ _ => (wrap w (sext w x / ((2 ^ (y % w) : Nat) : Int)) % 2 ^ w, 0)) ∧
    mould (.vsadd o) true false .rne (fun _ => true) (fun x y _ _ => (wrap w (clampTo o.ty (i x + i y)), 0)) ∧
    mould (.vssub o) true false .rne (fun _ => true) (fun x y _ _ => (wrap w (clampTo o.ty (i x - i y)), 0)) ∧
    mould (.vclz o) false false .rne (fun _ => true) (fun x _ _ _ => (wrap w ((if x = 0 then w else w - 1 - x.log2 : Nat) : Int), 0)) ∧
    mould (.vpopc o) false false .rne (fun _ => true) (fun x _ _ _ => (wrap w ((((List.range w).filter (bit x)).length : Nat) : Int), 0)) ∧
    mould (.vmov o) false false .rne (fun _ => true) (fun x _ _ _ => (x, 0)) ∧
    mould (.vdiv o) true false .rne (fun y => y != 0) (fun x y _ _ => (wrap w (Int.tdiv (i x) (i y)), 0)) ∧
    mould (.vrem o) true false .rne (fun y => y != 0) (fun x y _ _ => (wrap w (Int.tmod (i x) (i y)), 0)) ∧
    mould (.vfadd o) true false m (fun _ => true) (fun x y _ _ => fpAdd f x y m) ∧
    mould (.vfsub o) true false m (fun _ => true) (fun x y _ _ => fpSub f x y m) ∧
    mould (.vfmul o) true false m (fun _ => true) (fun x y _ _ => fpMul f x y m) ∧
    mould (.vfdiv o) true false m (fun _ => true) (fun x y _ _ => fpDiv f x y m) ∧
    mould (.vfsqrt o) false false m (fun _ => true) (fun x _ _ _ => fpSqrt f x m) ∧
    mould (.vfmin o) true false m (fun _ => true) (fun x y _ _ => fpMinMax f false x y) ∧
    mould (.vfmax o) true false m (fun _ => true) (fun x y _ _ => fpMinMax f true x y) ∧
    mould (.vfabs o) false false m (fun _ => true) (fun x _ _ _ => (fpAbs f x, 0)) ∧
    mould (.vfneg o) false false m (fun _ => true) (fun x _ _ _ => (fpNeg f x, 0)) ∧
    mould (.vfclass o) false false m (fun _ => true) (fun x _ _ _ => (fpClass f x, 0)) ∧
    mould (.vfma o) true true m (fun _ => true) (fun x y z _ => fpFma f false false x y z m) ∧
    mould (.vfms o) true true m (fun _ => true) (fun x y z _ => fpFma f false true x y z m) ∧
    mould (.vfnma o) true true m (fun _ => true) (fun x y z _ => fpFma f true true x y z m) ∧
    mould (.vfnms o) true true m (fun _ => true) (fun x y z _ => fpFma f true false x y z m) ∧
    mould (.vcvtn o) false false mn (fun _ => true) (fun x _ _ r => convert (Ty.fmt (otherTy o)) f x mn r) ∧
    mould (.vcvtw o) false false .rne (fun _ => true) (fun x _ _ _ => convert f (Ty.fmt (otherTy o)) (x % 2 ^ (otherTy o).width) .rne 0) ∧
    mould (.vcvti o) false false m (fun _ => true) (fun x _ _ _ => convert f (Ty.fmt (otherTy o)) x m 0) ∧
    mould (.vrcp o) false false .rne (fun _ => true) (fun x _ _ _ => approxOf .rcp f x) ∧
    mould (.vrsq o) false false .rne (fun _ => true) (fun x _ _ _ => approxOf .rsq f x) ∧
    mould (.vexp2 o) false false .rne (fun _ => true) (fun x _ _ _ => approxOf .exp2 f x) ∧
    mould (.vlog2 o) false false .rne (fun _ => true) (fun x _ _ _ => approxOf .log2 f x) ∧
    (∀ x y : Nat → Nat, bFull → (∀ e ∈ es, q.readAt o.ty o.sa.reg.toNat o.offA e = some (x e) ∧ bGives e (y e)) →
      let compares (k : Instr) (v : Nat → Bool × Flags) : Prop := (∀ e ∈ es, (v e).2 &&& q.enables = 0) →
        exec k s = .next (s.fell fun q =>
          { (es.foldl (fun q e => (q.mergeFlags (v e).2).setMask o.d.toNat (setBits (q.mask o.d.toNat) [(e, (v e).1)])) q).trimMask
              o.d.toNat with estart := 0 })
      compares (.vcmp o) (fun e => (intCond (condOf o) (i (x e)) (i (y e)), 0)) ∧
      compares (.vfcmp o) (fun e => fpCmp f (condOf o) (x e) (y e))) ∧
    (∀ x y : Nat → Nat, bFull → s.full .brick o.d → (q.reachesMem o.sa.reg.toNat o.offA || b.reachesMem q) = false →
      (∀ e ∈ q.activeFrom false 0, q.readAt o.ty o.sa.reg.toNat o.offA e = some (x e) ∧ bGives e (y e)) →
      exec (.vsel o) s = .next (s.fell fun q =>
        { (s.self.activeFrom false 0).foldl (fun k e => k.setElem o.d.toNat e
            (BitVec.ofNat 64 (if (q.mask o.msel.toNat).getLsbD e then x e else y e))) q with estart := 0 }))

/-- vq4 quantises groups, the reductions fold the active elements, and the matrix instructions configure, step, move and drain
accumulators. With well-formed types and registers full. vq4 does its groups from ESTART, and a rest takes trap 0x0C there. A
reduction with VL above 0 reads the active elements, and b[D][0] gets the ordered sum from b[B][0], the tree sum, the least or
most, or the bitwise fold, its flags merged; an enabled flag takes trap 0x18 with ESTART 0; VL 0 writes nothing. mcfg takes a
good configuration (s[D] = 0), or rejects it (V clear, 2^63 + the reason). mstep with checked operands and quiet memory adds
the products of the row group at ESTART to its accumulator; it goes on with the next, the accumulator empty, at a stopping
point, or after the last one merges the flags of all and falls through with ESTART 0; each check has its trap. mzero zeroes;
mrda and mwra move elements; mdrain delivers epilogue results to a brick, a scratchpad or memory and zeroes what it drained if
told to, or reports the rows written and the cause of its stop. A struck bias word has level 0 in TVAL (log 13), and the count
of a stopped drain has a free part (log 26): both are the model's. (11 vq4 (R294, R295); 11 Reductions (R296 to R298); 12 The
matrix instructions (R313 to R319); 12 Accumulators and the matrix queue (R303).) -/
def Obligations.QuantisingReductionsAndMatrix : Prop :=
  (∀ (o : VArgs) (s : State), s.self.typed o.ty →
    let q := s.self
    let act := q.activeAll o.me o.msel
    (s.full .brick o.sa.reg → s.full .brick o.d → s.full .brick (o.d + 1) → q.estart.toNat % 16 = 0 →
      let g0 := q.estart.toNat / 16
      let n := q.vl / 16
      ∀ s1, RunsAll (quantGroup o (q.mode o.rnd true)) (upFrom g0 (n - g0)) s s1 →
        (q.vl % 16 = 0 → exec (.vq4 o) s = .next (s1.fell fun q => { q with estart := 0 })) ∧
        (q.vl % 16 ≠ 0 → exec (.vq4 o) s = .next (s1.trapped { cause := 0x0C, estart := some (16 * n) }))) ∧
    (s.reachFull o.sa.reg o.offA → s.full .brick o.d → q.reachesMem o.sa.reg.toNat o.offA = false → ∀ x : Nat → Nat,
      (∀ e ∈ act, q.readAt o.ty o.sa.reg.toNat o.offA e = some (x e)) →
      let l := act.map (fun e => (e, x e))
      let init := (q.elem o.sb.reg.toNat 0).toNat % 2 ^ o.ty.width
      let f := Ty.fmt o.ty
      let m := q.mode o.rnd false
      let reduces (k : Instr) (initial : Bool) (r : Nat × SumFlags) : Prop := (initial = true → s.full .brick o.sb.reg) →
        (q.vl = 0 → exec k s = .next (s.fell fun q => { q with estart := 0 })) ∧
        (q.vl ≠ 0 → r.2.trap = none → exec k s = .next (s.fell fun q =>
          { (q.mergeFlags r.2.all).setElem o.d.toNat 0 (BitVec.ofNat 64 r.1) with estart := 0 })) ∧
        (∀ fl, q.vl ≠ 0 → r.2.trap = some fl → exec k s = .next (s.trapped (floatTrap fl 0)))
      reduces (.vredo o) true (orderedSum f m q.enables init ⟨0, none⟩ (act.map x)) ∧
      reduces (.vredt o) false (treeSum f m q.enables 14 ⟨0, none⟩ ((List.range q.vl).map (fun e => if e ∈ act then some (x e) else none))) ∧
      reduces (.vredm o) true (l.foldl (fun (acc : Nat × SumFlags) y =>
        let r := leastMost o.ty (o.vmod.getLsbD 1) acc.1 y.2
        (r.1, acc.2.note q.enables r.2)) (init, ⟨0, none⟩)) ∧
      reduces (.vredb o) true ((act.map x).foldl (fun a y => bitwise (bits o.vmod.toNat 1 2) a y) init, ⟨0, none⟩))) ∧
  (∀ (o : MArgs) (s : State), s.full .scalar o.sa.reg → s.full .scalar o.sb.reg → s.full .scalar o.sc.reg →
    let q := s.self
    let core := coreOf s.cur
    let va := (q.scalar o.sa.reg).toNat % 2 ^ 56
    let r := (q.scalar o.sb.reg).toNat
    let cfg := Cfg.of q.tcfg
    let acc (t : State) (i : Nat) : Accum := (t.core core).accOf i
    let wrote (t : State) (i : Nat) (l : NMap Word) : State :=
      t.modCore (coreOf t.cur) fun c => c.setAcc i { elems := l, full := true, writer := some t.self.uid }
    (∀ v t, va % 64 = 0 → s.full .scalar o.d → s.loads va 64 v t → t.full .scalar o.d →
      let g := BitVec.ofNat 512 v
      (Cfg.reason (Cfg.of g) = none → exec (.mcfg o) s = .next (t.fell fun q =>
        Seq.sentLong { q with tcfg := g, mtcfg := Cfg.reg (Cfg.of g) } o.d 0 t.cycle)) ∧
      (∀ k, Cfg.reason (Cfg.of g) = some k → exec (.mcfg o) s = .next (t.fell fun q =>
        Seq.sentLong { q with mtcfg := q.mtcfg &&& 0x7FFFFFFFFFFFFFFF } o.d (BitVec.ofNat 64 (2 ^ 63 + k)) t.cycle))) ∧
    (let z := (q.scalar o.sc.reg).toNat
     let addrs : StepAddrs :=
       { a := (cfg.abase + (q.scalar o.sa.reg).toNat) % 2 ^ 56, b := (cfg.bbase + r) % 2 ^ 56, asc := (cfg.asc + z % 2 ^ 32) % 2 ^ 56,
         bsc := (cfg.bsc + z / 2 ^ 32) % 2 ^ 56 }
     let ng := if o.imm.toNat % 16 = 0 then 8 else o.imm.toNat % 16
     let g0 := q.estart.toNat / 8
     let f0 := q.stepFlags o.d
     let accFull : Prop := s.full .acc o.d ∨ s.stepUnderWay o.d = true
     (accFull → q.mtcfg.getLsbD 63 = false → exec (.mstep o) s = .next (s.trapped { cause := 0x05, tval := q.mtcfg })) ∧
     (∀ ft, accFull → q.mtcfg.getLsbD 63 = true → stepOperands s core q.tenant cfg addrs = .error ft →
       exec (.mstep o) s = .next (s.trapped { cause := ft.cause, tval := BitVec.ofNat 64 ft.va })) ∧
     (∀ a b, accFull → q.mtcfg.getLsbD 63 = true → stepOperands s core q.tenant cfg addrs = .ok (a, b) → s.badWords = [] →
       (∀ k, (s.core k).comb = []) →
       let grp := rowGroup (stepMemory s a b) a b g0 (acc s o.d.toNat).elems
       ∃ t, exec (.mstep o) s = .next t ∧ t.mem = s.mem ∧ (∀ n, n ≠ s.cur → t.seq n = s.seq n) ∧
         (∀ i, (i = 0 ↔ o.d.toNat ≠ 0) → acc t i = acc s i) ∧
         (g0 + 1 < ng → acc t o.d.toNat = { elems := grp.1, full := false, writer := some q.uid } ∧
           t.self = { q with mstop := some ⟨o.d.toNat, 8 * (g0 + 1), f0 ||| grp.2⟩, estart := BitVec.ofNat 40 (8 * (g0 + 1)), wait := none,
                             atStop := true }) ∧
         (g0 + 1 = ng → acc t o.d.toNat = { elems := grp.1, full := true, writer := some q.uid } ∧
           t.self = { (q.mergeFlags (f0 ||| grp.2)) with mstop := none, estart := 0 }.advance) ∧
         (ng ≤ g0 → acc t o.d.toNat = acc s o.d.toNat ∧ t.self = { (q.mergeFlags f0) with mstop := none, estart := 0 }.advance))) ∧
    (s.full .acc o.d → exec (.mzero o) s = .next ((wrote s o.d.toNat []).fell id)) ∧
    (q.typed .i32 → s.full .acc o.sa.reg → s.full .brick o.d → exec (.mrda o) s = .next (s.fell fun q =>
      let es := List.range q.vl
      { Seq.sentBrick (es.foldl (fun q e => q.setElem o.d.toNat e
          (((acc s o.sa.reg.toNat).at (r + e / 64) (e % 64)).setWidth 64)) q) o.d es s.cycle with estart := 0 })) ∧
    (q.typed .i32 → s.full .acc o.d → s.full .brick o.sa.reg → exec (.mwra o) s = .next ((wrote s o.d.toNat ((List.range q.vl).foldl (fun l e =>
      Accum.put l (r + e / 64) (e % 64) ((q.elem o.sa.reg.toNat e).setWidth 32)) (acc s o.d.toNat).elems)).fell
        fun q => { q with estart := 0 })) ∧
    (∀ bias t, q.mtcfg.getLsbD 63 = true → s.full .acc o.sa.reg → Runs (needBias cfg) s bias t →
      let t' := wrote t o.sa.reg.toNat
      let y (row col : Nat) : Nat × Flags :=
        drainElem cfg .fp32 (biasOf t bias col) ((acc t o.sa.reg.toNat).at row col).toNat
      let es := List.range t.self.vl
      (∀ col, q.typed .i32 → s.full .brick o.d → biasBad t bias = some col →
        exec (.mdrainBrk o) s = .next (t.trapped (xtrap 0x28 0 kRead (cfg.bias % 2 ^ 56 + 4 * col) 0))) ∧
      (q.typed .i32 → s.full .brick o.d → biasBad t bias = none → coreOf t.cur = core → exec (.mdrainBrk o) s = .next
        ((if o.mod.getLsbD 1 then t' (es.foldl (fun l e => Accum.put l (r + e / 64) (e % 64) 0) (acc t o.sa.reg.toNat).elems) else t).fell
          fun q => { Seq.sentBrick (es.foldl (fun q e => if r + e / 64 ≤ 63 then
              (q.setElem o.d.toNat e (BitVec.ofNat 64 (y (r + e / 64) (e % 64)).1)).mergeFlags (y (r + e / 64) (e % 64)).2
            else q.setElem o.d.toNat e 0) q) o.d es t.cycle with estart := 0 })) ∧
      (s.full .scalar o.d → t.full .scalar o.d → coreOf t.cur = core →
        let n := o.imm.toNat % 128
        let dst := (q.scalar o.sc.reg).toNat % 2 ^ 56
        let rows := drainRows t cfg bias (acc t o.sa.reg.toNat).elems r n dst (cfg.cpitch : Int)
        let after (u : State) : State := if o.mod.getLsbD 1 then
          wrote u o.sa.reg.toNat ((upFrom (64 * r) (64 * n)).foldl (fun l i => NMap.erase l i) (acc t o.sa.reg.toNat).elems) else u
        let ends (u : State) : Prop := (after u).full .scalar o.d → exec (.mdrainMem o) s =
          .next ((after (u.modSeq u.cur (·.mergeFlags rows.2))).fell (·.sentLong o.d (BitVec.ofNat 64 (256 * n * 2 ^ 16)) u.cycle))
        (drainRefused cfg core r n dst = true → exec (.mdrainMem o) s = .next (t.fell (·.sentLong o.d 0xF0 t.cycle))) ∧
        (∀ leaves i u1 u, drainRefused cfg core r n dst = false → Runs (drainIssue (s.ctx s.cur) cfg dst rows.1) t leaves u1 →
          (Runs (drainRun core bias cfg.bias dst (drainMemory none (drainReady (s.ctx s.cur) leaves)) rows.1) u1 (i, none) u → ends u) ∧
          (∀ k va, Runs (drainRun core bias cfg.bias dst (drainMemory none (drainReady (s.ctx s.cur) leaves)) rows.1) u1 (i, some (k, va)) u → u.full .scalar o.d →
            let v := 256 * i + Config.readAhead u.freeCtr % (256 * (n - i) + 1)
            let fl := (drainRows u cfg bias (acc t o.sa.reg.toNat).elems r i dst (cfg.cpitch : Int)).2
            exec (.mdrainMem o) s = .next (State.fell { u with freeCtr := u.freeCtr + 1 } fun q =>
              (q.mergeFlags fl).sentLong o.d (BitVec.ofNat 64 (v * 2 ^ 16 + k)) u.cycle))))))

/-- The steps of homes, caches, engines and waiting sequencers do what the spec gives each, when its condition holds. A combining
window applies its oldest entry. A fired wait entry is freed, and with the last one its vwait ends. A host entry polled is
evaluated. A link 65,536 cycles old is broken. A home answers a read with an unregistered copy, records a registration, and
performs a write-through where it refuses nothing and has a place for the bytes, after which they stand; both go under the key
last written under, since neither names a leaf (the model's reading: log 43), and a leased line not at its home is asked of
its lender first. Every 16,384 cycles each core that is awake ages its copies; a tick that is not due does nothing (log 56). A
line struck by an error is lost and its registered words poisoned. The host reads a line shared, or takes it; what it writes
there, and that it reaches HBM by the HDM lines of the physical function alone, are the model's choices (logs 59, 100); a read
of an HDM line that no window lets in is an Unsupported Request, a write is counted. Waits looked at again go on when they
have ended. A standing result fills its register. A credit is taken from a permit that covers the branch at a core of the
tenant (another tenant's: log 114). An engine beat of 64 bytes (log 69) reads the next bytes of a started command where the
buffer has room, and each branch takes its next beat: with its credit and its scratchpad still the tenant's, the bytes go
there and its position advances. An engine's write puts the next buffered word at its home, E cleared, unless the word is
lost, bad, out of reach or in a lent region (log 70), which stop the command. A command completes. An idle core of a cluster
that is not fused may sleep (log 121), and wakes without unregistered words. (06 The registry, L1 copies and the three
policies (R155 to R163, R171); 08 sacc and vwait (R212, R215, R217); 09 Walks and permits (R227, R228, R231); 15 the waking
waits (R397, R400); 13 System instructions (R349); 05 Host memory (R114); 01 Register files (R34).) -/
def Obligations.HomesCachesAndWakings : Prop :=
  ∀ s : State,
    let runs (i : Instr) (t : State) : Prop := exec i s = .next t.tick
    (∀ k e rest, s.input = .combiningWindowApply k → k < 160 → NMap.getD s.homeComb k [] = e :: rest →
      runs .combiningWindowApply (applyComb e { s with homeComb := NMap.set s.homeComb k rest })) ∧
    (∀ k e rest, s.input = .combiningWindowApply (160 + k) → (s.core k).comb = e :: rest →
      runs .combiningWindowApply (applyComb e (s.modCore k fun c => { c with comb := rest }))) ∧
    (∀ core k e t, s.input = .vwaitFire core k → NMap.get? (s.core core).waits k = some e → e.fired = true →
      t = s.modCore core (fun c => { c with waits := NMap.erase c.waits k }) →
      (((t.core core).waitsOf e.seq ≠ [] ∨ ∀ cov d, (t.seq e.seq).wait ≠ some (.vwait cov d)) → runs .vwaitFire t) ∧
      (∀ cov d u, (t.core core).waitsOf e.seq = [] → (t.seq e.seq).wait = some (.vwait cov d) →
        Runs (endVwait cov d true) { t with cur := e.seq } () u → u.cur = e.seq →
        runs .vwaitFire { u.modSeq e.seq Seq.advance with cur := s.cur })) ∧
    (∀ core k e, s.input = .vwaitHostPoll core k → NMap.get? (s.core core).waits k = some e → e.host = true →
      runs .vwaitHostPoll (evalWaits e.loc (e.width / 8) s)) ∧
    (∀ core k l, s.input = .linkExpiry core k → (s.core core).links[k]? = some l → l.born + 65536 ≤ s.cycle →
      runs .linkExpiry (s.modCore core fun c => { c with links := c.links.eraseIdx k })) ∧
    (∀ core loc key, s.input = .homeReadRequest core loc →
      let w := loc / 4
      let t := settle (4 * w) 4 s
      s.lineHere loc = true → t.plainKey (4 * w) = some key → homeCheck (some core) false w t = .ok →
      let h := t.holder core (w / 32)
      (t.core h).l1Word w = none → (NMap.get? (t.core h).l1 (w / 32)).any (fun l => l.key != key) = false → t.homeAnswers (4 * w) 4 = true →
      runs .homeReadRequest (fillL1 h w (homeValue (t.lineMat (4 * w)) w t) key t)) ∧
    (∀ core loc data u st, s.lineHere loc = false → StopsWith (askLender loc) s st u →
      (s.input = .homeReadRequest core loc → runs .homeReadRequest u) ∧
      (s.input = .homeWriteThrough core loc data → runs .homeWriteThrough u)) ∧
    (∀ core, s.input = .homeRegistration core → runs .homeRegistration (recordNext core s)) ∧
    (∀ core loc data, s.input = .homeWriteThrough core loc data → data ≠ [] → loc % 128 + data.length ≤ 128 →
      s.homeAnswers loc data.length = true → s.backed loc = true → (∀ w ∈ wordsOf loc data.length, homeCheck (some core) false w s = .ok) →
      let u := recordRange loc data.length s
      let t := homeWrite (u.lineMat loc) loc data.length (leNat data) u
      runs .homeWriteThrough ((wordsOf loc data.length).foldl (fun s w => dropUnreg core w s) t)) ∧
    (∀ core loc data, s.input = .homeWriteThrough core loc data → s.lineHere loc = true → s.backed loc = false →
      runs .homeWriteThrough s) ∧
    (s.epochAt + 16384 ≤ s.cycle →
      runs .epochTick { (List.range 192).foldl (fun s c => s.modCore c Core.nextEpoch) s with epochAt := s.epochAt + 16384 }) ∧
    (s.cycle < s.epochAt + 16384 → runs .epochTick s) ∧
    (∀ core line, s.input = .l1UncorrectableError core line → runs .l1UncorrectableError (loseLine core line s)) ∧
    (∀ n, s.input = .hostSharedRead n →
      let line := storeLoc (128 * n) / 128
      let t := recallLine line (settle (128 * line) 128 s)
      (s.takesHost line = true → isHost (128 * line) = true → runs .hostSharedRead t) ∧
      (s.takesHost line = true → isHost (128 * line) = false → s.hdmOpen line 1 = true →
        runs .hostSharedRead { t with hostLines := NMap.set t.hostLines line [] }) ∧
      (s.takesHost line = true → isHost (128 * line) = false → s.hdmLine line = true → s.hdmOpen line 1 = false →
        runs .hostSharedRead { s with answer := .unsupported }) ∧
      (s.takesHost line = false ∨ (isHost (128 * line) = false ∧ s.hdmLine line = false) → runs .hostSharedRead s)) ∧
    (∀ n data, s.input = .hostExclusiveRequest n data →
      let line := storeLoc (128 * n) / 128
      let t := hostTakesLine line s
      let u : State := { t with hostLines := NMap.set t.hostLines line (data.take 128) }
      let w := u.watched (128 * line) 128 || u.cellsTouched (128 * line) 128 != []
      (s.takesHost line = true → isHost (128 * line) = true → runs .hostExclusiveRequest
        (evalWaits (128 * line) 128 (breakLinks line { t with mem := t.mem.writeBytes (128 * line) (data.take 128) }))) ∧
      (s.takesHost line = true → isHost (128 * line) = false → s.hdmOpen line (if data = [] then 1 else 2) = true →
        runs .hostExclusiveRequest (if w then snoopHost line u else u)) ∧
      (s.takesHost line = true → isHost (128 * line) = false → s.hdmLine line = true → s.hdmOpen line 2 = false → data ≠ [] →
        runs .hostExclusiveRequest { s with hostDrops := s.hostDrops + 1 }) ∧
      (s.takesHost line = true → isHost (128 * line) = false → s.hdmLine line = true → s.hdmOpen line 1 = false → data = [] →
        runs .hostExclusiveRequest { s with answer := .unsupported }) ∧
      (s.takesHost line = false ∨ (isHost (128 * line) = false ∧ s.hdmLine line = false) →
        runs .hostExclusiveRequest s)) ∧
    (∀ n ok t, t.cur = n →
      let ends : State := { (if ok then t.modSeq n Seq.advance else t) with cur := s.cur }
      let from' : State := { s with cur := n }
      (∀ va p sc, s.input = .bwaitWake n → (s.seq n).wait = some (.bwait va p sc) → Runs (sampleLine false) from' false from' →
        Runs (tryBwait va p sc) from' ok t → runs .bwaitWake ends) ∧
      (∀ va d take acq, s.input = .fgetWake n → (s.seq n).wait = some (.fget va d take acq) →
        Runs (tryFget va d take acq) from' ok t → runs .fgetWake ends) ∧
      (∀ dl c, s.input = .wfeWake n → (s.seq n).wait = some (.wfe dl c) → Runs (wfeDone dl c) from' ok t → runs .wfeWake ends) ∧
      (∀ sup k dl d u, s.input = .evwaitWake n → (s.seq n).wait = some (.evwait sup k dl d) →
        Runs (evwaitDone sup k dl) from' ok u → (if ok then Runs (endEvwait sup d) u () t else t = u) → runs .evwaitWake ends)) ∧
    (∀ n file reg, s.input = .longLatencyComplete n file reg → (s.seq n).standing file reg = true →
      runs .longLatencyComplete (s.modSeq n (·.complete file reg))) ∧
    (∀ n core c b, s.input = .permitCreditTake n core → NMap.get? s.engines n = some c →
      c.branches.find? (fun b => b.core == core) = some b → c.stop = none → s.mayStart n c = true → b.credit = false →
      b.open' c.total = true → 0 < (NMap.getD (s.core core).permits c.ptag {}).credits →
      let p := NMap.getD (s.core core).permits c.ptag {}
      let covers : Bool := c.within b.base c.dpitch c.dplane p.base p.len && (s.core core).spOwner == c.ctx.tenant
      (covers = true → runs .permitCreditTake
        ((s.modCore core (·.setPermit c.ptag { p with credits := p.credits - 1 })).setEngine n
          { (c.modBranch core fun b => { b with credit := true }) with started := true })) ∧
      (covers = false → runs .permitCreditTake
        (s.setEngine n { (c.modBranch core fun b => { b with refused := true }).trim with started := true }))) ∧
    (∀ n c, s.input = .trowelBeat n → NMap.get? s.engines n = some c →
      let begun := s.modEngine n fun k => { k with started := true }
      let got (t : State) (data : List Byte) : State := t.modEngine n fun k => { k with rd := k.rd + c.beat, buf := k.buf ++ data }
      let ends (t : State) : State := sendSignals n (c.branches.foldl (fun u b => deliverBeat n b.core u) t)
      (c.mayRead = false ∨ s.mayStart n c = false → runs .trowelBeat (ends s)) ∧
      (c.mayRead = true → s.mayStart n c = true → ∀ data t, Runs (engineReadRun n c c.rd c.beat) begun data t →
        let t1 := enginePays c (c.srcVa c.rd) c.beat t
        (c.kind ≠ .rcopy → runs .trowelBeat (ends (got t1 data))) ∧
        (c.kind = .rcopy → runs .trowelBeat (ends ((sendData n c c.rd data (noteRequest c.ctx c.beat t1)).modEngine n fun k =>
          { k with rd := k.rd + c.beat, wr := k.wr + c.beat, bufBase := k.rd + c.beat })))) ∧
      (c.mayRead = true → s.mayStart n c = true → c.kind ≠ .rcopy → c.sva % 4 = 0 → s.badWords = [] →
        (∀ x, (s.core x).comb = []) → ∀ loc : Nat → Nat,
        inWindow (c.srcVa c.rd) = true →
        (∀ i < c.beat / 4, inWindow (c.srcVa (c.rd + 4 * i)) = true ∧ ∃ k o, windowTarget c.ctx.core (c.srcVa (c.rd + 4 * i)) = some (k, o) ∧
          o + 4 ≤ 2 ^ 20 ∧ (s.core k).spOwner = c.ctx.tenant ∧ loc i = scratchLoc k o) →
        runs .trowelBeat (ends (got begun ((List.range (c.beat / 4)).flatMap fun i => leBytes 4 (s.mem.readLe (loc i) 4))))) ∧
      (∀ b, c.mayRead = false → c.branches = [b] → c.stop = none → b.credit = true → b.open' c.total = true → b.pos < c.rd →
        (s.core ((c.scratchOf b b.pos - scratchBase) / 2 ^ 20)).spOwner = c.ctx.tenant → s.badWords = [] → (∀ k, (s.core k).comb = []) →
        let m := Min.min (if c.kind = .copy then 128 - c.dstVa b.pos % 128 else 64) (c.rd - b.pos)
        let u := (writeScratch c b b.pos ((c.buf.drop (b.pos - c.bufBase)).take m) s).2
        u = { s with mem := u.mem } ∧ runs .trowelBeat (sendSignals n
          (u.modEngine n fun k => (k.modBranch b.core fun b => { b with pos := b.pos + m }).trim)))) ∧
    (∀ n c, s.input = .engineWriteAtHome n → NMap.get? s.engines n = some c →
      let stops (k : Nat) : Prop := runs .engineWriteAtHome (stopEngine n k s)
      let due : Prop := c.stop = none ∧ c.memDst = true ∧ c.wr + 4 ≤ c.rd
      (¬due → runs .engineWriteAtHome s) ∧
      (due → c.reaches c.wr = false → stops ((c.failAt.map (·.2)).getD 0)) ∧
      (∀ p, due → c.reaches c.wr = true → c.dstPlace c.wr = some p → s.discarded c.ctx.tenant p = false → isLeased p.loc = false →
        (s.lentOut p.loc 4 = true → stops 0x09) ∧
        (s.lentOut p.loc 4 = false →
          let w := p.loc / 4
          let ans := if p.plain then .ok else homeCheck none false w s
          (ans = .poisoned → stops 0x10) ∧
          (ans ≠ .poisoned → s.bad (4 * w) 4 = true → stops 0x28) ∧
          (ans ≠ .poisoned → s.bad (4 * w) 4 = false → p.plain = false → s.dieReachable (4 * w) = false → stops 0x29) ∧
          (ans = .ok ∨ s.ownerOf w = some (.engine n) → ans ≠ .poisoned → s.bad (4 * w) 4 = false → p.plain = true ∨ s.dieReachable (4 * w) = true →
            let s1 := if c.wr % 64 = 0 then noteRequest c.ctx (Min.min 64 (c.total - c.wr)) s else s
            let t := engineWrite w (leNat ((c.buf.drop (c.wr - c.bufBase)).take 4)) p s1
            (t = homeWrite p.mat (4 * w) 4 (leNat ((c.buf.drop (c.wr - c.bufBase)).take 4))
              (let r := s1.lineRec (w / 32)
               if p.plain then hostTakesLine (w / 32) s1
               else s1.setLine (w / 32) { r.clearWord w with e := r.e &&& ~~~(wordBit w) })) ∧
            runs .engineWriteAtHome (t.modEngine n fun k => EngCmd.trim { k with wr := k.wr + 4 }))))) ∧
    (∀ n, s.input = .engineCommandComplete n → runs .engineCommandComplete (completeEngine n s)) ∧
    (∀ core, s.input = .coreSleep core → s.idle core = true → (s.cluster (core / 8)).fused = none → runs .coreSleep (s.modCore core fun c => { c with asleep := true })) ∧
    (∀ core, s.input = .coreWake core → (s.core core).asleep = true →
      runs .coreWake (s.modCore core fun c => { c.skimAll with asleep := false }))

/-- The steps of the Hives and matrix queues mark, dispatch, steal, review, resume, complete and report as the spec gives them. A
cancel mark spreads from the issuer's Hive, then the members there are reclaimed and what has ended reports. A launch that has
ended reports its outcome. A host record is taken where it comes with no bytes, else its bytes are written (log 53), or
dropped and counted with the link or power down. Dispatch and steal start the ready work that comes first at a place. After
65,536 cycles at a place where they were passed over, items of a launch are aged (log 84). A stage is reviewed every 4,096
cycles. A pre-emption asked for is noted, and takes effect at a point. A saved sequencer resumes on a place that takes it,
where no ready work comes before it. A tile step issues, or goes on by a row group, where nothing of higher priority could;
with its last group the step is done; a record whose steps are done sets its tags and posts; a stopped one reports its status
once no step is under way; an error strikes a step under way (which one is the device's doing: log 33). A core that fails is
lost. (14 What the Hive runs next (R358 to R361); 14 Launch records and host submission (R365, R366); 14 A cancel that meets
two spawns (R373, R374); 12 Tile tasks (R321 to R326); 17 Pre-emption and cancellation (R412, R419).) -/
def Obligations.HivesAndTiles : Prop :=
  ∀ s : State,
    let runs (i : Instr) (t : State) : Prop := exec i s = .next t.tick
    (∀ die g t u, s.input = .cancelMark die g → die < 4 → s.marks.any (fun m => m == (die, g)) = false →
      s.cancels.any (fun c => c.1 == g && (c.2 == die || s.marks.any (fun m => m == (c.2, g)))) = true →
      Runs (reclaimGroup die g) { s with marks := s.marks ++ [(die, g)] } () t → Runs (completeGroup g) t () u →
      runs .cancelMark (finishCancel g u)) ∧
    (∀ k t, s.input = .launchComplete k → Runs (completeLaunch k) s () t → runs .launchComplete t) ∧
    (∀ k l t, s.input = .launchComplete k → NMap.get? s.launches k = some l → s.launchDone k l = true →
      Runs (writeCpl (hiveCtx l.die l.ctx) l.die l.cpl l.useq (cplWord 0 l.outcome l.useq l.ended)) s () t →
      runs .launchComplete (finishCancel l.group
        { t with launches := NMap.erase t.launches k, tags := t.tags.filter (fun x => x.1 / 4 != k) })) ∧
    (∀ fn die off data t, s.input = .hostQueueRecord fn die off data →
      (data = [] → Runs (takeHostRecord fn die) s () t → runs .hostQueueRecord t) ∧
      (data ≠ [] → fn < 64 → die < 4 → s.powered = true → s.mgmt.linkUp = true → runs .hostQueueRecord (queueWrite fn die off data s)) ∧
      (data ≠ [] → fn < 64 → die < 4 → s.powered = false ∨ s.mgmt.linkUp = false → runs .hostQueueRecord { s with
        hostQueues := NMap.modify s.hostQueues (4 * fn + die) ({} : HostQueue) (fun h => { h with dropped := h.dropped + 1 }) })) ∧
    (∀ n b t, s.input = .hiveDispatch n → s.bestFor n = some b → n < 768 → Runs (takeReady b n) (notePassed false n b s) () t →
      runs .hiveDispatch t) ∧
    (∀ k l, s.input = .energyAgeExpiry k → NMap.get? s.launches k = some l →
      let now := (l.passed.filter (fun x => !(x.1 ∈ l.aged) && decide (x.2.1 + 65536 ≤ s.cycle))).map (·.1)
      runs .energyAgeExpiry { s with launches := NMap.set s.launches k { l with aged := l.aged ++ now } }) ∧
    (∀ k n l b t, s.input = .hiveSteal k n → NMap.get? s.launches k = some l → n < 768 →
      bestOf (s.lanes64 n) true (s.readyItems k l n ++ s.readyTasks k l n) = some b →
      (s.readyFor n).any (fun a => a.before (s.lanes64 n) true b) = false → Runs (takeReady b n) (notePassed true n b s) () t →
      runs .hiveSteal t) ∧
    (∀ k l t, s.input = .stageReview k → NMap.get? s.launches k = some l → l.started = true → l.stages ≠ [] →
      l.reviewAt + 4096 ≤ s.cycle →
      RunsAll (fun x => reviewStage k x.2 x.1) l.stages.zipIdx
        { s with launches := NMap.set s.launches k { l with reviewAt := s.cycle } } t → runs .stageReview t) ∧
    (∀ n, s.input = .preempt n → (s.seq n).live = true → s.preemptable n = true →
      runs .preempt (preemptNow n (s.modSeq n fun q => { q with preempt := true })).2) ∧
    (∀ k n b, s.input = .contextResume k n → (s.readyFor n).find? (fun a => a.kind == .resume k) = some b → n < 768 →
      (s.readyFor n).any (fun a => a.before (s.lanes64 n) false b) = false →
      runs .contextResume (resumeSaved k n (notePassed false n b s))) ∧
    (∀ k core r t, s.input = .tileStepIssue k core → NMap.get? s.tiles k = some r → s.tileReady r core = true →
      s.tiles.any (fun x => s.tileReady x.2 core && decide (r.prio < x.2.prio)) = false → Runs (runTile k r core) s () t →
      runs .tileStepIssue t) ∧
    (∀ k core r t, s.input = .tileStepIssue k core → NMap.get? s.tiles k = some r → s.tileReady r core = true →
      s.tiles.any (fun x => s.tileReady x.2 core && decide (r.prio < x.2.prio)) = false → r.stepOn core = some t →
      let group : M Flags := do
        tileGroup (r.ctxOn t.core) (← tileChecks (r.ctxOn t.core) t.block (r.vector (r.counts.getD []) t.index)) t
      (∀ f u, Runs group s f u → runs .tileStepIssue (u.modTile k (·.groupDone t f))) ∧
      (∀ e u, StopsWith group s (.trap e) u → runs .tileStepIssue (stopStep k t (e.cause, e.tval.toNat % 2 ^ 56) u))) ∧
    (∀ (r : TileRec) (t : TileStep) (f : Flags), (t.group < 7 → (r.groupDone t f).steps = r.steps ∧
        (∀ u ∈ r.running, u.index = t.index → { t with group := t.group + 1 } ∈ (r.groupDone t f).running)) ∧
      (7 ≤ t.group → (r.groupDone t f).steps = r.steps + 1 ∧ (r.groupDone t f).last = some t.core ∧
        ∀ u ∈ (r.groupDone t f).running, u.index ≠ t.index)) ∧
    (∀ k r c core, s.input = .tileRecordComplete k → NMap.get? s.tiles k = some r → r.stop = none → r.counts = some c → r.running = [] →
      r.total c ≤ r.next → r.last = some core →
      runs .tileRecordComplete (postUid r.uid (r.record core 0 r.steps 0)
        { s with tiles := NMap.erase s.tiles k,
                 tags := NMap.modify s.tags (4 * r.launch + r.die) [] (fun l => l ++ r.sigs.filter (fun t => !(t ∈ l))) })) ∧
    (∀ k cause va0 r status index va core, s.input = .tileStepStop k cause va0 → NMap.get? s.tiles k = some r →
      r.running = [] → r.stop = some (status, index, va) → r.last = some core →
      runs .tileStepStop (postUid r.uid (r.record core status index va) { s with tiles := NMap.erase s.tiles k })) ∧
    (∀ k cause va r, s.input = .tileStepStop k cause va → NMap.get? s.tiles k = some r → r.running ≠ [] → cause = 0x28 ∨ cause = 0x29 →
      ∃ t ∈ r.running, ∃ c, runs .tileStepStop (stopStep k t (cause.toNat, va) { s with freeCtr := c })) ∧
    (∀ c, s.input = .coreFailure c → c < 192 → runs .coreFailure (loseCore true c s))

/-- Lease messages, die boundaries and the Relov gateway: what each arrival, timer and failure does. An offer is held and its
event posted; an acceptance makes an OFFERED entry LENT; a reclaim makes an ACTIVE slot DEMOTING; a return begun makes a LENT
entry RECLAIMING; a return, or the deadline passing, frees a RECLAIMING entry with its event; a pull moves the next line,
unless its fallback lies in a region lent meanwhile (log 135), and completes a slot whose pages are moved. A good flit is
held, what stands next in order is delivered, and the receiver acknowledges, a duplicate too; a bad one changes nothing;
acknowledged flits are dropped; a flit unacknowledged for 2,048 cycles goes again; a boundary retrains, comes back with
everything unacknowledged sent again and waiting flits going on, or fails and leaves service. A packet stomped or bad is
counted and has no other effect; DONE, ACK, timers and path failures act on the commands and packets they name. An entry of
the combining window is applied at its home and answered, refused where a word is lost or bad (the model's reading: log 93),
under the key last written under (log 43), and held with a word that an engine has yet to write. From the deadline on, the
device is refused the region (log 124). Payload fields of an event that R129 does not list are 0 (log 140); the payloads of
lease messages are the model's (log 36). (05 Leases and Reclaim under load (R125 to R129); 20 Between the dies (R427 to R430);
20 The Relov gateway (R431 to R441).) -/
def Obligations.LeasesLinksAndGateway : Prop :=
  ∀ s : State,
    let runs (i : Instr) (t : State) : Prop := exec i s = .next t.tick
    let lend (e : Nat) : LendEntry := NMap.getD s.lend e {}
    let slot (b : Nat) : BorrowSlot := NMap.getD s.borrow b {}
    let relov (r : Relov) : State := { s with relov := r }
    (∀ dev e base pages t, s.input = .leaseOfferReceived dev e base pages t → runs .leaseOfferReceived
      (State.postSup { s with offers := NMap.set s.offers (256 * dev + e) (base, pages, t) } 0 (leaseRecord 5 dev e pages t 0))) ∧
    (∀ e dev, s.input = .leaseTakeReceived e dev → (lend e).st = .offered → (lend e).dev = dev →
      runs .leaseTakeReceived { s with lend := NMap.set s.lend e { lend e with st := .lent } }) ∧
    (∀ b, s.input = .leaseReclaimReceived b → (slot b).st = .active → runs .leaseReclaimReceived (startPull b s)) ∧
    (∀ e, s.input = .leaseReturnBegunReceived e → (lend e).st = .lent → runs .leaseReturnBegunReceived (startReclaim e s)) ∧
    (∀ b i, s.input = .leasePullLine b → (slot b).st = .demoting → (slot b).nextLine = some i →
      let line := leasedLoc b (slot b).cursor (128 * i) / 128
      (s.fallbackLent (slot b) i = true → runs .leasePullLine s) ∧
      (s.fallbackLent (slot b) i = false → (NMap.get? s.leasedHere line).isSome = true →
        let t := recallLine line (readyRange (128 * line) 128 s)
        runs .leasePullLine (moveLine b i (t.mem.readLe (128 * line) 128) t)) ∧
      (s.fallbackLent (slot b) i = false → NMap.get? s.leasedHere line = none → (slot b).pulling ≠ some i → s.goingBack line = false → runs .leasePullLine
        (sendLineRead b line true { s with borrow := NMap.set s.borrow b { slot b with pulling := some i } }))) ∧
    (∀ b, s.input = .leasePullComplete b → (slot b).st = .demoting → (slot b).pages ≤ (slot b).cursor → runs .leasePullComplete
      (postLease (slot b).regs (leaseRecord 6 (slot b).ldev b (slot b).pages 0 0) (sendLease (slot b).ldev .returned (slot b).lent []
        { s with borrow := NMap.set s.borrow b { slot b with st := .demoted } }))) ∧
    (∀ e, s.input = .leaseReturnReceived e → (lend e).st = .reclaiming → runs .leaseReturnReceived
      (State.postSup { s with lend := NMap.erase s.lend e } 0 (leaseRecord 7 (lend e).dev e 0 0 0))) ∧
    (∀ e t, s.input = .leaseDeadline e → (lend e).st = .reclaiming → (lend e).deadline = some t → t ≤ s.cycle → runs .leaseDeadline
      (State.postSup { s with lend := NMap.erase s.lend e, barred := s.barred ++ [((lend e).dev, (lend e).base, 65536 * (lend e).pages)] } 0 (leaseRecord 8 (lend e).dev e 0 0 0))) ∧
    (∀ a b f, s.input = .dieFlitReceive a b f → diePair a b = true →
      let d := s.dir a b
      (s.hopServes a b = false ∨ f.crcOk = false → runs .dieFlitReceive s) ∧
      (s.hopServes a b = true → f.crcOk = true → 64 ≤ (f.num.toNat + 65536 - d.expect) % 65536 →
        runs .dieFlitReceive (s.setDir a b { d with acked := some d.ack })) ∧
      (s.hopServes a b = true → f.crcOk = true → (f.num.toNat + 65536 - d.expect) % 65536 < 64 →
        runs .dieFlitReceive (pushFlits (giveAck a b (drainFlits a b 65 (s.setDir a b { d with held := NMap.set d.held f.num.toNat f })))))) ∧
    (∀ a b base bm, s.input = .dieAckReceive a b base bm → diePair a b = true → runs .dieAckReceive (ackFlits a b (base % 65536) bm s)) ∧
    (∀ a b num, s.input = .dieResendTimeout a b num → diePair a b = true → runs .dieResendTimeout
      (resendFlits a b (fun f => f.flit.num.toNat == num && decide (f.sent + 2048 ≤ s.cycle)) s)) ∧
    (∀ a b, s.input = .dieLinkRetrain a b → diePair a b = true → s.boundary a b = .up →
      runs .dieLinkRetrain (s.setBoundary a b (.retraining s.cycle))) ∧
    (∀ a b c, s.input = .boundaryRetrained a b → diePair a b = true → s.boundary a b = .retraining c →
      let t := (s.setBoundary a b .up).setDir a b ((s.dir a b).sendAgain s.cycle)
      runs .boundaryRetrained (pushFlits (t.setDir b a ((t.dir b a).sendAgain s.cycle)))) ∧
    (∀ a b c t, s.input = .dieLinkFail a b → diePair a b = true → s.boundary a b = .retraining c →
      RunsAll (fun x => dropUnreachable x.1 x.2) [(0, 1), (0, 2), (0, 3), (1, 2), (1, 3), (2, 3)]
        (reroute b a (reroute a b (s.setBoundary a b .out))) t → runs .dieLinkFail t) ∧
    (∀ p, s.input = .relovPacketReceive p →
      (p.stomp = true → runs .relovPacketReceive (relov { s.relov with stomped := s.relov.stomped + 1 })) ∧
      (p.stomp = false → packetOk p s.relov.devno = false →
        runs .relovPacketReceive (relov { s.relov with crcErr := s.relov.crcErr + 1 })) ∧
      (∀ t, p.stomp = false → packetOk p s.relov.devno = true → Runs (receivePacket p) s () t → runs .relovPacketReceive t)) ∧
    (∀ dev flow, s.input = .relovAckTimer dev flow → s.relov.recv.all (fun x => x.1 % 2 ^ 20 != flowKey dev flow) = true →
      runs .relovAckTimer s) ∧
    (∀ dev flow k f, s.input = .relovAckTimer dev flow →
      (s.relov.recv.map (·.1)).filter (fun k => k % 2 ^ 20 == flowKey dev flow) = [k] → s.recvFlow k = f → f.held = [] →
      f.ackAt + 256 ≤ s.cycle →
      runs .relovAckTimer (s.setRecvFlow k { f with since := 0, ackAt := s.cycle, acked := some f.ack })) ∧
    (∀ dev dst flow base bm, s.input = .relovAckReceive dev dst flow base bm →
      runs .relovAckReceive (ackPackets dev dst flow base bm s)) ∧
    (∀ dev flow num f, s.input = .relovResendTimeout dev flow num → NMap.get? s.relov.send (flowKey dev flow) = some f →
      let due (x : OutPacket) : Bool := x.pkt.num.toNat == num && decide (x.last + 8192 ≤ s.cycle) && decide (x.sent < 16)
      runs .relovResendTimeout (relov { s.relov with
        send := NMap.set s.relov.send (flowKey dev flow)
          { f with unacked := f.unacked.map (fun x => if due x then { x with sent := x.sent + 1, last := s.cycle } else x) }
        resent := s.relov.resent + (f.unacked.filter due).length })) ∧
    (∀ dev tag refused, s.input = .relovDoneReceive dev tag refused →
      (NMap.get? s.relov.cmds tag = none → runs .relovDoneReceive s) ∧
      (∀ c uid d, NMap.get? s.relov.cmds tag = some c → (NMap.get? c.left dev).isSome = true → c.kind = .arrive uid d →
        runs .relovDoneReceive (finishArrive uid d (if refused then 2 ^ 63 + 0xF4 else 0) (answered tag dev c s)))) ∧
    (∀ dev tag refused c k, s.input = .relovDoneReceive dev tag refused → NMap.get? s.relov.cmds tag = some c →
      (NMap.get? c.left dev).isSome = true → c.kind = .data k ∨ c.kind = .signal k → runs .relovDoneReceive
        (sendSignals k (if refused then refuseCopy k dev (answered tag dev c s) else answered tag dev c s))) ∧
    (∀ dev, s.input = .relovPathFailure dev → s.pathBad dev = true → runs .relovPathFailure (pathFails dev s)) ∧
    (∀ k, s.input = .relovCombineApply k →
      (s.relov.comb[k]? = none → runs .relovCombineApply s) ∧
      (∀ e, s.relov.comb[k]? = some e →
        let n := if e.add then 8 else 16
        let t := settleRange e.pa n s
        let answers (a : HomeAns) : Prop := ∃ w ∈ wordsOf e.pa n, homeCheck none false w t = a
        let told (u : State) (refused : Bool) : State := e.dones.foldl (fun u d => sendDone d.1 d.2 e.pa refused u)
          { u with relov := { u.relov with comb := u.relov.comb.eraseIdx k } }
        (t.bad e.pa n = true ∨ (¬answers .held ∧ answers .poisoned) → runs .relovCombineApply (told t true)) ∧
        (t.bad e.pa n = false → answers .held → runs .relovCombineApply t) ∧
        (t.bad e.pa n = false → (∀ w ∈ wordsOf e.pa n, homeCheck none false w t = .ok) →
          let r := recallWords (wordsOf e.pa n) t
          let u := readyUnder (r.lineMat e.pa) e.pa r
          let old := u.valueUnder (r.lineMat e.pa) e.pa n
          let v := if e.add then (old + e.value) % 2 ^ 64 else (List.range e.value).foldl (fun v _ => arriveAt v) old
          runs .relovCombineApply (told (homeWrite (r.lineMat e.pa) e.pa n v u) false))))

/-- The host port, power control, bring-up, the mailbox, attestation and keys do what the spec gives each request. With the host
link up: a BAR read gives the bytes of the registers or of the memory window, one refused gives Unsupported Request; a BAR
write stores, or is dropped and counted; an AtomicOp gives the old value and stores its result. A completion performs the
operation that was sent, and reaches the sequencer if it still waits for it. Buckets are refilled every 1,024 cycles. A review
moves each die's grant; a thermal trip or supply fault takes the power, leaving cycle, turns, host memory, management and the
failed cores. Bring-up leaves the reset state over host memory, with spare cores mapped (log 127) and the boot firmware loaded
at its entry (log 3); where a step fails, what the steps before it left (log 42). Updates, restarts and health timeouts act on
the slots. A mailbox request is performed with status 0, refused with 1, or, while the management core restarts, found busy
with 2 (the model's reading: log 91); access-table and key requests then wait, and are performed first of all after it (the
model's choice: log 42). What the host performs and the times of steps are logs 55 and 56. SPDM requests are answered with the
codes of SPDM 1.2, which the model takes from that standard (log 22), or found busy. A key loaded in a session over an
occupied slot has the copies under the old key flushed first, the model's choice (log 92); keys are erased. (20 The host link
(R442, R443); 20 Bandwidth shares (R449, R450); 20 Access tables and keys (R446, R447, R448); 23 Management and bring-up (R461
to R469).) -/
def Obligations.HostPowerAndManagement : Prop :=
  ∀ s : State,
    let runs (i : Instr) (t : State) : Prop := exec i s = .next t.tick
    let tells (t : State) (a : Answer) : State := { t with answer := a }
    let m := s.mgmt
    let u := flushHeld s
    let held : State := { s with mgmt := { m with waiting := m.waiting ++ [s.input] } }
    (∀ fn bar off n, s.input = .hostBarRead fn bar off n → s.hostUp = true →
      (∀ l t, bar = 0 → n ≠ 0 → off + n ≤ 0x10000 → fn < 64 → Runs (controlRead fn off n) s l t →
        runs .hostBarRead (tells t (.data l))) ∧
      (∀ loc t, bar = 2 → s.barPlace fn off n kRead = some loc → Runs (outsideReady loc n) s true t →
        runs .hostBarRead (tells t (.data (outsideRead none loc n t)))) ∧
      (bar = 2 → s.barPlace fn off n kRead = none → runs .hostBarRead (tells s .unsupported))) ∧
    (∀ fn bar off data, s.input = .hostBarWrite fn bar off data → s.hostUp = true →
      (bar = 0 → fn < 64 → runs .hostBarWrite (controlWrite fn off data s)) ∧
      (∀ loc t, bar = 2 → s.barPlace fn off data.length kWrite = some loc → Runs (outsideReady loc data.length) s true t →
        runs .hostBarWrite (outsideWrite none loc data t)) ∧
      (bar = 2 → s.barPlace fn off data.length kWrite = none → runs .hostBarWrite { s with hostDrops := s.hostDrops + 1 })) ∧
    (∀ fn off op n x y loc t, s.input = .hostAtomicopCompleter fn off op n x y → s.hostUp = true → completes op n = true →
      s.barPlace fn off n kRmw = some loc → loc % n = 0 → Runs (outsideReady loc n) s true t →
      let r := outsideAtomic none loc n (completerOp op n x.toNat y.toNat) t
      runs .hostAtomicopCompleter (tells r.2 (.data (leBytes n r.1)))) ∧
    (∀ n ok, s.input = .hostCompletionReceive n ok →
      (s.hostOps.find? (fun o => o.ctx.seq == n) = none → runs .hostCompletionReceive s) ∧
      (∀ o, s.hostOps.find? (fun o => o.ctx.seq == n) = some o →
        let u : State := { s with hostOps := s.hostOps.erase o }
        let r := if ok then hostPerforms o.req u else (0, u)
        let waits : Prop := (r.2.seq n).uid = o.uid ∧ (r.2.seq n).wait = some (.host o.req)
        (waits → runs .hostCompletionReceive
          (r.2.modSeq n fun q => { q with hostAns := some (o.req.level, if ok then some r.1 else none), wait := none })) ∧
        (¬waits → runs .hostCompletionReceive r.2))) ∧
    (s.input = .bandwidthRefill → s.refillAt + 1024 ≤ s.cycle → runs .bandwidthRefill (refill s)) ∧
    (s.input = .powerControlTick →
      (s.powered = false ∨ s.mgmtUp = false → runs .powerControlTick s) ∧
      (s.powered = true → s.mgmtUp = true → u.cycle < u.mgmt.powerAt + 1050000 → runs .powerControlTick u) ∧
      (∀ t, s.powered = true → s.mgmtUp = true → u.mgmt.powerAt + 1050000 ≤ u.cycle →
        RunsAll reviewDie (List.range 4) { u with mgmt := { u.mgmt with powerAt := u.cycle } } t → runs .powerControlTick t)) ∧
    (let off (r : FailRecord) : State := State.keepFailures
       { cycle := s.cycle, epochAt := s.cycle, refillAt := s.cycle, cur := s.cur, turns := s.turns, freeCtr := s.freeCtr, powered := false, mem := s.mem.filter (fun c => isHost c.1),
         mgmt := { m with records := m.records ++ [r], linkUp := false, session := false, waiting := [] } } s
     (∀ d, s.input = .thermalTrip d → s.powered = true → d < 4 → runs .thermalTrip (off (.thermal d))) ∧
     (s.input = .supplyFault → s.powered = true → runs .supplyFault (off .supply))) ∧
    (∀ cold, s.input = .powerOnReset cold →
      let g := bringUp m cold s.cycle s.freeCtr
      let t : State := { State.reset with
        cycle := s.cycle, epochAt := s.cycle, refillAt := s.cycle, turns := s.turns, freeCtr := s.freeCtr + 1, mem := s.mem.filter (fun c => isHost c.1), mgmt := g }
      let loaded (u : State) : State :=
        { u with mem := u.mem.writeBytes Config.bootEntry.toNat ((g.image .computeBoot g.activeBoot).payload.take (2 ^ 39)) }
      let mapped (u : State) : State := mapSpares s (u.keepSpares s)
      let idle (u : State) : State := { u with seqs := [], ran := [] }
      (g.failedStep = none → runs .powerOnReset (loaded (mapped t))) ∧
      (∀ k, g.failedStep = some k →
        (k ≤ 3 → runs .powerOnReset (State.keepFailures { idle t with powered := false, keys := [], windows := [] } s)) ∧
        (k = 4 → runs .powerOnReset (mapped (idle { t with windows := [] }))) ∧
        (k = 5 ∨ k = 6 → runs .powerOnReset (loaded (mapped (idle { t with windows := [] })))) ∧
        (k = 7 ∨ k = 8 → runs .powerOnReset (loaded (mapped (idle t)))) ∧
        (k = 9 → runs .powerOnReset (loaded (mapped t))))) ∧
    (let up : Prop := s.mgmtUp = true
     let t : State := { s with freeCtr := s.freeCtr + 1 }
     (∀ k i, s.input = .firmwareUpdate k i → up → runs .firmwareUpdate { s with mgmt := m.update k i }) ∧
     (s.input = .mgmtRestart → up → m.pendingMgmt = true → runs .mgmtRestart { t with
       mgmt := { m.restart (1 - m.activeMgmt) s.cycle s.freeCtr with healthBy := some (s.cycle + 5250000000) } }) ∧
     (s.input = .mgmtRestart → up → m.pendingMgmt = false →
       runs .mgmtRestart { t with mgmt := m.restart m.activeMgmt s.cycle s.freeCtr }) ∧
     (∀ h, s.input = .mgmtHealthTimeout → m.healthBy = some h → h ≤ s.cycle → runs .mgmtHealthTimeout { t with
       mgmt := if Config.imageHealthy s.freeCtr then { m with healthBy := none }
         else { m.restart (1 - m.activeMgmt) s.cycle s.freeCtr with healthBy := none, records := m.records ++ [.unhealthy m.activeMgmt] } }) ∧
     (∀ slot, s.input = .keySlotErase slot → s.powered = true →
       (up → slot < 2048 → runs .keySlotErase { flushKey slot u with keys := NMap.erase u.keys slot }) ∧
       (¬up → runs .keySlotErase held)) ∧
     (∀ slot tenant key, s.input = .keySlotLoad slot tenant key → s.powered = true →
       (up → u.mgmt.session = true → slot < 2048 →
         runs .keySlotLoad { flushKey slot u with keys := NMap.set u.keys slot { mat := .loaded key, owner := tenant } }) ∧
       (up → u.mgmt.session = false → runs .keySlotLoad u) ∧
       (¬up → runs .keySlotLoad held))) ∧
    (s.powered = true → m.linkUp = true → s.mgmtUp = true →
      let done (t : State) (k : Nat) : State := tells t (.status k)
      (∀ k c, s.input = .mailboxCloseReopen (.cluster k) c → runs .mailboxCloseReopen
        (if k < 24 then done (u.modCluster k fun x => { x with closed := c }) 0 else done u 1)) ∧
      (∀ d c, s.input = .mailboxCloseReopen (.die d) c → runs .mailboxCloseReopen
        (if d < 4 then done (u.modDie d fun x => { x with closed := c }) 0 else done u 1)) ∧
      (∀ c, s.input = .mailboxServiceChange (.core c) false → c < 192 → runs .mailboxServiceChange
        (done (if (u.core c).inService then loseCore false c u else u) 0)) ∧
      (∀ c, s.input = .mailboxServiceChange (.core c) true → c < 192 → runs .mailboxServiceChange
        (done (enableCore c u).2 (if (enableCore c u).1 then 0 else 1))) ∧
      (∀ i w, s.input = .mailboxAccessTableWrite i w → runs .mailboxAccessTableWrite
        (if i < 4096 then done { u.lift (windowBits w) with windows := NMap.set u.windows i (windowBits w) } 0 else done u 1)) ∧
      (∀ v, s.input = .mailboxShareTotal none v → runs .mailboxShareTotal (if v < 2 ^ 32 then done { u with total := v } 0 else done u 1)) ∧
      (∀ t v, s.input = .mailboxShareTotal (some t) v → runs .mailboxShareTotal
        (if t < 256 ∧ v < 256 then done { u with shares := NMap.set u.shares t v } 0 else done u 1)) ∧
      (∀ i d, s.input = .mailboxMeasurementExtend i d → runs .mailboxMeasurementExtend
        (if 4 ≤ i ∧ i < 8 then done { u with mgmt := { u.mgmt with mrs := NMap.set u.mgmt.mrs i (extendMr (NMap.getD u.mgmt.mrs i 0) d) } } 0
          else done u 1)) ∧
      (∀ k, s.input = .mailboxSvnRequest k → let v := Config.imageSvn (u.mgmt.image k (u.mgmt.active k)).header
        runs .mailboxSvnRequest (if u.mgmt.svn ≤ v then done { u with mgmt := { u.mgmt with svn := v } } 0 else done u 1)) ∧
      (∀ fn x asid, s.input = .mailboxSubmissionContext fn x asid →
        (∀ f, NMap.get? u.functions fn = some f → runs .mailboxSubmissionContext
          (done { u with functions := NMap.set u.functions fn { f with submit := some (xlrootValue x, asid.setWidth 16) } } 0)) ∧
        (NMap.get? u.functions fn = none → runs .mailboxSubmissionContext (done u 1)))) ∧
    (s.powered = true → m.linkUp = true → s.mgmtUp = false →
      let busy (i : Instr) : Prop := runs i (tells s (.status 2))
      (∀ x c, s.input = .mailboxCloseReopen x c → busy .mailboxCloseReopen) ∧
      (∀ x c, s.input = .mailboxServiceChange x c → busy .mailboxServiceChange) ∧
      (∀ t v, s.input = .mailboxShareTotal t v → busy .mailboxShareTotal) ∧
      (∀ i d, s.input = .mailboxMeasurementExtend i d → busy .mailboxMeasurementExtend) ∧
      (∀ k, s.input = .mailboxSvnRequest k → busy .mailboxSvnRequest) ∧
      (∀ fn x a, s.input = .mailboxSubmissionContext fn x a → busy .mailboxSubmissionContext) ∧
      (∀ i w, s.input = .mailboxAccessTableWrite i w → runs .mailboxAccessTableWrite held)) ∧
    (m.linkUp = true ∨ m.failedStep ≠ none → s.mgmtUp = true →
      let reply (k : Nat) (r : List Byte) : State := tells s (.spdm k (Config.spdmPayload k r))
      let signed (k : Nat) (l : List Byte) : State := tells s (.spdm k (l ++ Config.ecdsaSign l))
      (s.input = .getVersion → runs .getVersion (reply 0x84 [])) ∧
      (∀ r, s.input = .getCapabilities r → runs .getCapabilities (reply 0xE1 r)) ∧
      (∀ r, s.input = .negotiateAlgorithms r → runs .negotiateAlgorithms (reply 0xE3 r)) ∧
      (∀ r, s.input = .getCertificate r → runs .getCertificate (reply 0x82 r)) ∧
      (∀ r, s.input = .challenge r → runs .challenge (signed 0x83 (Config.spdmPayload 0x83 r))) ∧
      (∀ r, s.input = .getMeasurements r → runs .getMeasurements (signed 0xE0 (measurementBytes s r))) ∧
      (∀ r, s.input = .keyExchange r → runs .keyExchange { reply 0xE4 r with mgmt := { m with session := true } })) ∧
    (m.linkUp = true ∨ m.failedStep ≠ none → s.mgmtUp = false →
      let busy (i : Instr) : Prop := runs i (tells s .busy)
      (s.input = .getVersion → busy .getVersion) ∧ (∀ r, s.input = .getCapabilities r → busy .getCapabilities) ∧
      (∀ r, s.input = .negotiateAlgorithms r → busy .negotiateAlgorithms) ∧ (∀ r, s.input = .getCertificate r → busy .getCertificate) ∧
      (∀ r, s.input = .challenge r → busy .challenge) ∧ (∀ r, s.input = .getMeasurements r → busy .getMeasurements) ∧
      (∀ r, s.input = .keyExchange r → busy .keyExchange))

/-- A turn of a running sequencer executes the instruction that its line decodes to, in the state with the line entered. With
power on, a turn of sequencer n laid down, n running and no pre-emption asked for, no epoch due and no departure waiting at
its cell (both come before any turn, log 1): if the line at its PC is at hand or is entered, giving l, and the head at the PC
index of l decodes to i, then the step is exec of i in the state with the turn taken, n as the sequencer whose turn it is, and
l recorded as its line. If the head does not decode, the step takes the illegal-instruction trap (0x01, TVAL the head, ESTART
0). If entering stops, the step is that stop: a trap taken or a wait. A line recorded for the address of the PC is used as it
is, with no access to memory; otherwise the line is read, and one that is ill-formed traps with 0x02 and TVAL its header, one
with no such head with 0x03 and TVAL the address of the instruction that transferred control here (the PC itself where no
instruction did: log 108, the model's choice). A trap found earlier, which waits for older arrivals at other devices, is
raised again. The order of turns is the model's (log 1). (01 Instruction formats (R10 to R17: lines and heads); 01 Instruction
formats (R43, R44: illegal instructions); 01 Instruction formats (R46: where control enters a line).) -/
def Obligations.StepRunsDecoded : Prop :=
  ∀ (s : State) (n : Nat) (rest : List Turn), s.powered = true → s.turns = .seq n :: rest →
    (s.seq n).phase = .running → (s.seq n).preempt = false → s.epochDue = false → s.departures = [] →
    let t : State := { s with cur := n, turns := rest }
    let q := t.self
    let plain : Prop := ∀ x, q.wait ≠ some (.trapping x)
    (∀ x, q.wait = some (.trapping x) → step s = .next (t.trapped x)) ∧
    (∀ l u, plain → Runs fetchLine t l u →
      let v := u.modSeq u.cur fun q => { q with line := some l }
      (∀ i, decodeAt l.code (indexOf v.self.pc) = .ok i → step s = exec i v) ∧
      (∀ e, decodeAt l.code (indexOf v.self.pc) = .error e →
        step s = .next (v.trapped { cause := 0x01, tval := v.self.head.setWidth 64, estart := some 0 }))) ∧
    (∀ x u, plain → StopsWith fetchLine t (.trap x) u → step s = .next (u.trapped x)) ∧
    (∀ w u, plain → StopsWith fetchLine t (.wait w) u → step s = .next (u.setWait u.cur w).tick) ∧
    (∀ l, q.line = some l → l.addr = lineOf q.pc → Runs fetchLine t l t) ∧
    ((∀ l, q.line = some l → l.addr ≠ lineOf q.pc) → ∀ c u, Runs (readLine (t.ctx n) ((lineOf q.pc).toNat * 64)) t c u →
      (c.wellFormed = false → StopsWith fetchLine t (.trap { cause := 0x02, tval := c.header.setWidth 64, estart := some 0 }) u) ∧
      (c.wellFormed = true → c.heads ≤ indexOf q.pc →
        StopsWith fetchLine t (.trap { cause := 0x03, tval := (q.cameFrom.getD q.pc).setWidth 64, estart := some 0 }) u) ∧
      (c.wellFormed = true → indexOf q.pc < c.heads → Runs fetchLine t ⟨lineOf q.pc, c⟩ u))

/-- Words written out field by field from the tables decode to the instructions they stand for. add s3, s1, s2; addi s7, s4, -1
with W set; movi.w64; fadd.f32 towards zero; j to head 3 of the next line; nop; ld.acq.dev of a dword; vadd.i32 under m5 with
an offset; vfma.bf16 with a scalar operand; amo.add.ar.die of a dword; vset with MOD 1: each head (MAJ, TL, D, X) and tail
(its format's fields from the top) written out in binary or hexadecimal fields. (01 Instruction formats (R12: heads); 01
Instruction formats (R19 to R24: tails); 01 Instruction formats (R40: the table of majors and minors).) -/
def Obligations.DecodeWords : Prop :=
  decode ((0b000001 : BitVec 6) ++ (0b10 : BitVec 2) ++ (3 : BitVec 6) ++ (0 : BitVec 2))
    (((0x00 : BitVec 8) ++ (1 : BitVec 6) ++ (0 : BitVec 1) ++ (2 : BitVec 6) ++ (0 : BitVec 1) ++ (0 : BitVec 10) : BitVec 32).setWidth 64) =
    .ok (.add ⟨3, ⟨1, false⟩, ⟨2, false⟩, 0⟩) ∧
  decode ((0b000010 : BitVec 6) ++ (0b10 : BitVec 2) ++ (7 : BitVec 6) ++ (0 : BitVec 2))
    (((0x00 : BitVec 8) ++ (4 : BitVec 6) ++ (1 : BitVec 1) ++ (0x1FFFF : BitVec 17) : BitVec 32).setWidth 64) =
    .ok (.addi ⟨7, ⟨4, true⟩, 0x1FFFF⟩) ∧
  decode ((0b000011 : BitVec 6) ++ (0b11 : BitVec 2) ++ (9 : BitVec 6) ++ (1 : BitVec 2)) 0x0123456789ABCDEF =
    .ok (.moviW64 9 0x0123456789ABCDEF) ∧
  decode ((0b000100 : BitVec 6) ++ (0b10 : BitVec 2) ++ (5 : BitVec 6) ++ (0 : BitVec 2))
    (((0x00 : BitVec 8) ++ (6 : BitVec 6) ++ (0 : BitVec 1) ++ (7 : BitVec 6) ++ (0 : BitVec 1) ++ (0 : BitVec 3) ++ (2 : BitVec 3) ++
      (0x9 : BitVec 4) : BitVec 32).setWidth 64) = .ok (.fadd ⟨5, ⟨6, false⟩, ⟨7, false⟩, 0, .rtz, .f32⟩) ∧
  decode ((0b000101 : BitVec 6) ++ (0b01 : BitVec 2) ++ (0 : BitVec 6) ++ (1 : BitVec 2))
    (((1 : BitVec 11) ++ (3 : BitVec 5) : BitVec 16).setWidth 64) = .ok (.j ⟨0, 1, 3⟩) ∧
  decode ((0x0C : BitVec 6) ++ (0 : BitVec 2) ++ (0 : BitVec 6) ++ (1 : BitVec 2)) 0 = .ok .nop ∧
  decode ((0x10 : BitVec 6) ++ (0b10 : BitVec 2) ++ (8 : BitVec 6) ++ (0 : BitVec 2))
    (((0b01 : BitVec 2) ++ (4 : BitVec 3) ++ (3 : BitVec 3) ++ (9 : BitVec 6) ++ (0 : BitVec 1) ++ (0x10 : BitVec 17) :
      BitVec 32).setWidth 64) = .ok (.ld ⟨8, .acq, .dev, 3, ⟨9, false⟩, 0x10⟩) ∧
  decode ((0x23 : BitVec 6) ++ (0b11 : BitVec 2) ++ (2 : BitVec 6) ++ (0 : BitVec 2))
    ((0x00 : BitVec 8) ++ (3 : BitVec 6) ++ (0 : BitVec 1) ++ (4 : BitVec 6) ++ (0 : BitVec 1) ++ (0 : BitVec 7) ++
      (0 : BitVec 3) ++ (7 : BitVec 3) ++ (1 : BitVec 3) ++ (0 : BitVec 9) ++ (1 : BitVec 1) ++ (5 : BitVec 3) ++ (0x2 : BitVec 4) ++
      (0 : BitVec 3) ++ (0 : BitVec 6)) =
    .ok (.vadd ⟨2, ⟨3, false⟩, ⟨4, false⟩, ⟨0, false⟩, ⟨0, 7, 1⟩, ⟨0, 0, 0⟩, true, 5, .i32, .rne, 0⟩) ∧
  decode ((0x25 : BitVec 6) ++ (0b11 : BitVec 2) ++ (2 : BitVec 6) ++ (0 : BitVec 2))
    ((0x00 : BitVec 8) ++ (3 : BitVec 6) ++ (0 : BitVec 1) ++ (4 : BitVec 6) ++ (0 : BitVec 1) ++ (5 : BitVec 6) ++ (0 : BitVec 1) ++
      (0 : BitVec 9) ++ (0 : BitVec 9) ++ (0 : BitVec 1) ++ (0 : BitVec 3) ++ (0xA : BitVec 4) ++ (1 : BitVec 3) ++ (1 : BitVec 6)) =
    .ok (.vfma ⟨2, ⟨3, false⟩, ⟨4, false⟩, ⟨5, false⟩, ⟨0, 0, 0⟩, ⟨0, 0, 0⟩, false, 0, .bf16, .rna, 1⟩) ∧
  decode ((0x14 : BitVec 6) ++ (0b10 : BitVec 2) ++ (1 : BitVec 6) ++ (0 : BitVec 2))
    (((0x00 : BitVec 8) ++ (2 : BitVec 6) ++ (0 : BitVec 1) ++ (3 : BitVec 6) ++ (0 : BitVec 1) ++ (0b11 : BitVec 2) ++ (3 : BitVec 3) ++
      (2 : BitVec 2) ++ (0 : BitVec 3) : BitVec 32).setWidth 64) = .ok (.amoAdd ⟨1, ⟨2, false⟩, ⟨3, false⟩, .ar, .die, 2⟩) ∧
  decode ((0x20 : BitVec 6) ++ (0b11 : BitVec 2) ++ (1 : BitVec 6) ++ (0 : BitVec 2))
    ((0x00 : BitVec 8) ++ (2 : BitVec 6) ++ (0 : BitVec 1) ++ (0 : BitVec 7) ++ (0 : BitVec 7) ++ (0 : BitVec 3) ++ (0 : BitVec 2) ++
      (1 : BitVec 14) ++ (0x40 : BitVec 16)) =
    .ok (.vset ⟨1, ⟨2, false⟩, ⟨0, false⟩, ⟨0, false⟩, .seq, .rlx, 1, 0x40⟩)

/-- After bring-up one sequencer per die runs as supervisor, all memory is zero, and scratchpads, key slot 0 and windows are
tenant 0's. In State.reset power is on; sequencer n is running if n is 0, 192, 384 or 576 and free otherwise; those four have
PRIV 1 and stand outside every handler at the entry of the boot firmware (the value of the entry is the model's, log 3); every
register is full and VTYPE.ILL is 1; every byte of HBM and of the scratchpads is 0 (and, by log 6, of host memory), and every
scratchpad is tenant 0's; key slot 0 is loaded and tenant 0's, and every other slot is empty; LANES gives 16 lanes on each die
and SVENTRY is 0; every window of the access table that is loaded is tenant 0's; no launch, task, engine command, lease, tile
record or Relov traffic exists. Registers whose reset value the spec does not give are 0 (log 2). (23 Management, power and
bring-up (R468: bring-up; the sentence after its table); 01 Register files (R37) and 10 Bricks (R247): a free sequencer; 20
Access tables and keys (R448: key slots).) -/
def Obligations.ResetState : Prop :=
  let s := State.reset
  s.powered = true ∧ s.turns = [] ∧
  (∀ n, (s.seq n).phase = (if n ∈ [0, 192, 384, 576] then .running else .free)) ∧
  (∀ n ∈ [0, 192, 384, 576], (s.seq n).priv = true ∧ (s.seq n).inh = false ∧ (s.seq n).pc = Config.bootEntry ∧ (s.seq n).line = none) ∧
  (∀ n f r, (s.seq n).isEmpty f r = false) ∧ (∀ n, (s.seq n).ill = true) ∧
  (∀ n r, (s.seq n).scalar r = 0) ∧ (∀ n, (s.seq n).loops = [] ∧ (s.seq n).fsr = 0 ∧ (s.seq n).estart = 0) ∧
  (∀ a, s.mem.read a = 0) ∧ (∀ c, (s.core c).spOwner = 0 ∧ (s.core c).inService = true) ∧
  (∀ k, k ≠ 0 → NMap.get? s.keys k = none) ∧ (NMap.get? s.keys 0).map (·.owner) = some 0 ∧
  (∀ d, lanesOf (s.die d).ln = 16 ∧ (s.die d).sventry = 0) ∧
  (∀ w ∈ s.windows, w.2.extractLsb' 75 16 = 0) ∧
  s.launches = [] ∧ s.tasks = [] ∧ s.engines = [] ∧ s.borrow = [] ∧ s.lend = [] ∧ s.tiles = [] ∧ s.relov.send = [] ∧ s.relov.recv = []

/-- The memory after reset is in the canonical form. State.reset's memory lists no byte, so it is in the canonical form that every
step keeps (the form is the model's, log 6). (23 Management, power and bring-up (R468: scrubbing); The model's form of memory
(log 6).) -/
def Obligations.ResetMemoryCanonical : Prop :=
  State.reset.mem.wf = true

/-- Every step of the machine keeps memory in its canonical form. For every state whose memory lists locations in rising order and
no byte equal to what an unlisted location reads as, and every step from it that answers a next state, whichever agent moves,
the next state's memory is in that form again: equal memories stay equal data. The form is the model's (log 6). (05 The
physical map (R111); The model's form of memory (log 6).) -/
def Obligations.MemoryStaysCanonical : Prop :=
  ∀ s t : State, s.mem.wf = true → step s = .next t → t.mem.wf = true

/-- Decoding the encoding of any well-formed instruction gives the instruction back, with every operand at every value. For every
instruction that passes the static checks and has an encoding (every instruction but the steps of other agents), the decoder
reads from its head and tail the instruction itself. Every instruction of the table has a tail that fits its class. (01
Instruction formats (R12: heads); 01 Instruction formats (R18 to R24: tails); 01 Instruction formats (R40, R41: the tables of
majors and minors); 01 Instruction formats (R43: the static checks).) -/
def Obligations.EncodeThenDecode : Prop :=
  ∀ i : Instr, wellFormed i = true → ∀ h t, encode i = some (h, t) →
    decode h t = .ok i ∧ t.toNat < 2 ^ (8 * tailBytes (headTl h))

/-- A head and tail that decode are the encoding of what they decode to, which is well formed: no two words are one instruction.
If a head, with a tail no longer than its class, decodes to an instruction, the instruction passes the static checks and
encodes to that head and tail. So no bit of a word is ignored, and reserved encodings are refused. (01 Instruction formats
(R12: heads); 01 Instruction formats (R18 to R24: tails); 01 Instruction formats (R40, R41: the tables of majors and minors).) -/
def Obligations.DecodeThenEncode : Prop :=
  ∀ (h : BitVec 16) (t : BitVec 64) (i : Instr), t.toNat < 2 ^ (8 * tailBytes (headTl h)) → decode h t = .ok i →
    wellFormed i = true ∧ encode i = some (h, t)

/-- Executing any instruction answers a next state, and a step stops only at a turn of a sequencer without power. For every
instruction and every state exec answers a next state: no fault, no refusal. A step answers a next state unless the turn is a
sequencer's and power is off, where it is the fault of no power. (That such a turn stops is the model's: without power no
sequencer exists.) (17 Traps (R404, R406: what an instruction cannot do is a trap); 01 Instruction formats (R14: one
instruction at a time).) -/
def Obligations.EveryInstructionAnswers : Prop :=
  (∀ (i : Instr) (s : State), ∃ t, exec i s = .next t) ∧
  (∀ s : State, s.powered = true → ∃ t, step s = .next t) ∧
  (∀ (s : State) (n : Nat) (rest : List Turn), s.turns = .seq n :: rest → s.powered = false → step s = .fault .poweredOff)

/-- Scalar, floating, predicate and branch instructions leave memory, every other sequencer and core, and other registers as they
are. For every instruction of majors 0x01 to 0x06 and pset, pand, por, pxor, pnot, ptest and csel, in every state, whether it
completes, waits or traps: every byte of memory reads as before; every other sequencer, every other core and every other part
of the machine is unchanged (at a trap the own core loses the links, wait-table entries and watched cells of the sequencer,
and an accumulator fills); of the sequencer itself every scalar other than s[D], every predicate other than p[D], every brick
element, mask, tile configuration, queue handle and every other register is unchanged, but for the PC and its line, ESTART,
FSR and the generators, the trap registers TCAUSE, TVAL, TPC and TSTAT, and full and pending bits. The clock advances by one.
(13 Scalar instructions (R333 to R338: what each writes); 17 Traps (R406: what entry changes); 01 Register files (R34:
waiting).) -/
def Obligations.RegisterInstructionsFrame : Prop :=
  ∀ (i : Instr) (h : BitVec 16) (w : BitVec 64) (s t : State), encode i = some (h, w) → exec i s = .next t →
    ((h.extractLsb' 10 6).toNat ∈ [1, 2, 3, 4, 5, 6] ∨
      ∃ o, i ∈ [Instr.pset o, .pand o, .por o, .pxor o, .pnot o, .ptest o, .csel o]) →
    let d : Reg := h.extractLsb' 2 6
    let c := coreOf s.cur
    (∀ a, t.mem.read a = s.mem.read a) ∧
    t = { s with seqs := t.seqs, cores := t.cores, cycle := s.cycle + 1 } ∧
    (∀ n, n ≠ s.cur → t.seq n = s.seq n) ∧ (∀ k, k ≠ c → t.core k = s.core k) ∧
    t.core c = { s.core c with links := (t.core c).links, waits := (t.core c).waits, cells := (t.core c).cells, acc0 := (t.core c).acc0, acc1 := (t.core c).acc1 } ∧
    ((t.core c).links = (s.core c).links ∨ (t.core c).links = (s.core c).links.filter (fun l => l.seq != s.cur)) ∧
    ((t.core c).waits = (s.core c).waits ∨ (t.core c).waits = (s.core c).waits.filter (fun w => w.2.seq != s.cur)) ∧
    ((t.core c).cells = (s.core c).cells ∨ (t.core c).cells = (s.core c).cells.filter (fun w => w.seq != s.cur)) ∧
    ((t.core c).acc0 = (s.core c).acc0 ∨ (t.core c).acc0 = { (s.core c).acc0 with full := true }) ∧
    ((t.core c).acc1 = (s.core c).acc1 ∨ (t.core c).acc1 = { (s.core c).acc1 with full := true }) ∧
    t.self = { s.self with
      phase := t.self.phase, pc := t.self.pc, line := t.self.line, cameFrom := t.self.cameFrom, s := t.self.s, sEmpty := t.self.sEmpty
      p := t.self.p, bEmpty := t.self.bEmpty, pend := t.self.pend, outst := t.self.outst, estart := t.self.estart, fsr := t.self.fsr
      gens := t.self.gens, tcause := t.self.tcause, tval := t.self.tval, tpc := t.self.tpc, tstat := t.self.tstat, wait := t.self.wait
      atStop := t.self.atStop, dead := t.self.dead, partWay := t.self.partWay, hostAns := t.self.hostAns } ∧
    (∀ r, r ≠ d → t.self.scalar r = s.self.scalar r) ∧ (∀ k, k ≠ d.toNat → t.self.pred k = s.self.pred k) ∧
    (∀ b e, t.self.elem b e = s.self.elem b e) ∧ (∀ k, t.self.mask k = s.self.mask k) ∧
    t.self.tcfg = s.self.tcfg ∧ t.self.queues = s.self.queues ∧ t.self.loops = s.self.loops ∧ t.self.vtype = s.self.vtype
end

