-- ==== Sys2Proof/Laws/Decode.lean ====
section
/-! SUPPORT. The tail formats: reading the fields of a packed tail gives the fields back (01 R18 to R24). -/

namespace Sys2Proof

theorem Ty.ofCode_code (t : Ty) : Ty.ofCode t.code = some t := by cases t <;> rfl
theorem Rnd.ofCode_code (r : Rnd) : Rnd.ofCode r.code = some r := by cases r <;> rfl
theorem Scope.ofCode_code (c : Scope) : Scope.ofCode c.code = some c := by cases c <;> rfl
theorem Ord.ofCode_code (o : Ord) : Ord.ofCode o.code = o := by cases o <;> rfl

theorem bit_ofBool (b : Bool) : (BitVec.ofBool b).getLsbD 0 = b := by cases b <;> rfl

/-- A field that lies in the lower part of a concatenation. -/
theorem field_low {n m lo len : Nat} (x : BitVec n) (y : BitVec m) (h : lo + len ≤ m) :
    (x ++ y).extractLsb' lo len = y.extractLsb' lo len := by
  ext i hi
  simp [BitVec.getLsbD_append]
  grind

/-- A field that lies in the upper part of a concatenation. -/
theorem field_high {n m lo len : Nat} (x : BitVec n) (y : BitVec m) (h : m ≤ lo) :
    (x ++ y).extractLsb' lo len = x.extractLsb' (lo - m) len := by
  ext i hi
  simp [BitVec.getLsbD_append]
  grind

theorem field_setWidth {n k lo len : Nat} (x : BitVec n) (h : lo + len ≤ k) :
    (x.setWidth k).extractLsb' lo len = x.extractLsb' lo len := by
  ext i hi
  simp
  omega

theorem field_all {n : Nat} (x : BitVec n) : x.extractLsb' 0 n = x := by
  ext i hi; simp

theorem bit_low {n m i : Nat} (x : BitVec n) (y : BitVec m) (h : i < m) : (x ++ y).getLsbD i = y.getLsbD i := by
  simp [BitVec.getLsbD_append, h]

theorem bit_high {n m i : Nat} (x : BitVec n) (y : BitVec m) (h : m ≤ i) : (x ++ y).getLsbD i = x.getLsbD (i - m) := by
  simp [BitVec.getLsbD_append, Nat.not_lt.2 h]

theorem Src.unpack_pack (a : Src) : Src.unpack a.pack = a := by
  obtain ⟨r, w⟩ := a
  exact congr (congrArg Src.mk ((field_high _ _ (by decide)).trans (field_all _))) ((bit_low _ _ (by decide)).trans (bit_ofBool _))

theorem Off.unpack_pack (o : Off) : Off.unpack o.pack = o := by
  obtain ⟨z, y, x⟩ := o
  have hz : (z ++ y ++ x).extractLsb' 6 3 = z := (field_high _ _ (by decide)).trans <| (field_high _ _ (by decide)).trans <| field_all _
  have hy : (z ++ y ++ x).extractLsb' 3 3 = y := (field_high _ _ (by decide)).trans <| (field_low _ _ (by decide)).trans <| field_all _
  have hx : (z ++ y ++ x).extractLsb' 0 3 = x := (field_low _ _ (by decide)).trans <| field_all _
  exact congr (congr (congrArg Off.mk hz) hy) hx

theorem unpackR_packR (mn : BitVec 8) (o : RArgs) : unpackR o.d (packR mn o) = o := by
  have h0 : (packR mn o).extractLsb' 0 10 = o.mod := (field_setWidth _ (by decide)).trans <| (field_low _ _ (by decide)).trans <| field_all _
  have h1 : (packR mn o).extractLsb' 10 7 = o.sb.pack := (field_setWidth _ (by decide)).trans <| (field_high _ _ (by decide)).trans <| (field_low _ _ (by decide)).trans <| field_all _
  have h2 : (packR mn o).extractLsb' 17 7 = o.sa.pack := (field_setWidth _ (by decide)).trans <| (field_high _ _ (by decide)).trans <| (field_high _ _ (by decide)).trans <| (field_low _ _ (by decide)).trans <| field_all _
  simp only [unpackR, h0, h1, h2, Src.unpack_pack]

theorem mn32_packR (mn : BitVec 8) (o : RArgs) : mn32 (packR mn o) = mn.toNat :=
  congrArg BitVec.toNat ((field_setWidth _ (by decide)).trans <| (field_high _ _ (by decide)).trans <| (field_high _ _ (by decide)).trans <| (field_high _ _ (by decide)).trans <| field_all _)

theorem unpackF_packF (mn : BitVec 8) (o : FArgs) : unpackF o.d (packF mn o) = some o := by
  have h0 : (packF mn o).extractLsb' 0 4 = o.ty.code := (field_setWidth _ (by decide)).trans <| (field_low _ _ (by decide)).trans <| field_all _
  have h1 : (packF mn o).extractLsb' 4 3 = o.rnd.code := (field_setWidth _ (by decide)).trans <| (field_high _ _ (by decide)).trans <| (field_low _ _ (by decide)).trans <| field_all _
  have h2 : (packF mn o).extractLsb' 7 3 = o.cond := (field_setWidth _ (by decide)).trans <| (field_high _ _ (by decide)).trans <| (field_high _ _ (by decide)).trans <| (field_low _ _ (by decide)).trans <| field_all _
  have h3 : (packF mn o).extractLsb' 10 7 = o.sb.pack := (field_setWidth _ (by decide)).trans <| (field_high _ _ (by decide)).trans <| (field_high _ _ (by decide)).trans <| (field_high _ _ (by decide)).trans <| (field_low _ _ (by decide)).trans <| field_all _
  have h4 : (packF mn o).extractLsb' 17 7 = o.sa.pack := (field_setWidth _ (by decide)).trans <| (field_high _ _ (by decide)).trans <| (field_high _ _ (by decide)).trans <| (field_high _ _ (by decide)).trans <| (field_high _ _ (by decide)).trans <| (field_low _ _ (by decide)).trans <| field_all _
  simp only [unpackF, h0, h1, h2, h3, h4, Src.unpack_pack, Rnd.ofCode_code, Ty.ofCode_code, Option.bind_eq_bind, Option.bind_some, Option.pure_def]

theorem mn32_packF (mn : BitVec 8) (o : FArgs) : mn32 (packF mn o) = mn.toNat :=
  congrArg BitVec.toNat ((field_setWidth _ (by decide)).trans <| (field_high _ _ (by decide)).trans <| (field_high _ _ (by decide)).trans <| (field_high _ _ (by decide)).trans <| (field_high _ _ (by decide)).trans <| (field_high _ _ (by decide)).trans <| field_all _)

theorem unpackA_packA (mn : BitVec 8) (o : AArgs) : unpackA o.d (packA mn o) = some o := by
  have h0 : (packA mn o).extractLsb' 0 3 = (0 : BitVec 3) := (field_setWidth _ (by decide)).trans <| (field_low _ _ (by decide)).trans <| field_all _
  have h1 : (packA mn o).extractLsb' 3 2 = o.sz := (field_setWidth _ (by decide)).trans <| (field_high _ _ (by decide)).trans <| (field_low _ _ (by decide)).trans <| field_all _
  have h2 : (packA mn o).extractLsb' 5 3 = o.scope.code := (field_setWidth _ (by decide)).trans <| (field_high _ _ (by decide)).trans <| (field_high _ _ (by decide)).trans <| (field_low _ _ (by decide)).trans <| field_all _
  have h3 : (packA mn o).extractLsb' 8 2 = o.ord.code := (field_setWidth _ (by decide)).trans <| (field_high _ _ (by decide)).trans <| (field_high _ _ (by decide)).trans <| (field_high _ _ (by decide)).trans <| (field_low _ _ (by decide)).trans <| field_all _
  have h4 : (packA mn o).extractLsb' 10 7 = o.sb.pack := (field_setWidth _ (by decide)).trans <| (field_high _ _ (by decide)).trans <| (field_high _ _ (by decide)).trans <| (field_high _ _ (by decide)).trans <| (field_high _ _ (by decide)).trans <| (field_low _ _ (by decide)).trans <| field_all _
  have h5 : (packA mn o).extractLsb' 17 7 = o.sa.pack := (field_setWidth _ (by decide)).trans <| (field_high _ _ (by decide)).trans <| (field_high _ _ (by decide)).trans <| (field_high _ _ (by decide)).trans <| (field_high _ _ (by decide)).trans <| (field_high _ _ (by decide)).trans <| (field_low _ _ (by decide)).trans <| field_all _
  simp only [unpackA, h0, h1, h2, h3, h4, h5, Src.unpack_pack, Scope.ofCode_code, Ord.ofCode_code, Option.bind_eq_bind, Option.bind_some, Option.pure_def, bne_self_eq_false, Bool.false_eq_true, if_false]

theorem mn32_packA (mn : BitVec 8) (o : AArgs) : mn32 (packA mn o) = mn.toNat :=
  congrArg BitVec.toNat ((field_setWidth _ (by decide)).trans <| (field_high _ _ (by decide)).trans <| (field_high _ _ (by decide)).trans <| (field_high _ _ (by decide)).trans <| (field_high _ _ (by decide)).trans <| (field_high _ _ (by decide)).trans <| (field_high _ _ (by decide)).trans <| field_all _)

theorem unpackS_packS (mn : BitVec 8) (o : SArgs) : unpackS o.d (packS mn o) = some o := by
  have h0 : (packS mn o).extractLsb' 0 5 = o.fm := (field_setWidth _ (by decide)).trans <| (field_low _ _ (by decide)).trans <| field_all _
  have h1 : (packS mn o).extractLsb' 5 3 = o.scope.code := (field_setWidth _ (by decide)).trans <| (field_high _ _ (by decide)).trans <| (field_low _ _ (by decide)).trans <| field_all _
  have h2 : (packS mn o).extractLsb' 8 2 = o.ord.code := (field_setWidth _ (by decide)).trans <| (field_high _ _ (by decide)).trans <| (field_high _ _ (by decide)).trans <| (field_low _ _ (by decide)).trans <| field_all _
  have h3 : (packS mn o).extractLsb' 10 7 = o.sb.pack := (field_setWidth _ (by decide)).trans <| (field_high _ _ (by decide)).trans <| (field_high _ _ (by decide)).trans <| (field_high _ _ (by decide)).trans <| (field_low _ _ (by decide)).trans <| field_all _
  have h4 : (packS mn o).extractLsb' 17 7 = o.sa.pack := (field_setWidth _ (by decide)).trans <| (field_high _ _ (by decide)).trans <| (field_high _ _ (by decide)).trans <| (field_high _ _ (by decide)).trans <| (field_high _ _ (by decide)).trans <| (field_low _ _ (by decide)).trans <| field_all _
  simp only [unpackS, h0, h1, h2, h3, h4, Src.unpack_pack, Scope.ofCode_code, Ord.ofCode_code, Option.bind_eq_bind, Option.bind_some, Option.pure_def]

theorem mn32_packS (mn : BitVec 8) (o : SArgs) : mn32 (packS mn o) = mn.toNat :=
  congrArg BitVec.toNat ((field_setWidth _ (by decide)).trans <| (field_high _ _ (by decide)).trans <| (field_high _ _ (by decide)).trans <| (field_high _ _ (by decide)).trans <| (field_high _ _ (by decide)).trans <| (field_high _ _ (by decide)).trans <| field_all _)

theorem unpackI_packI (mn : BitVec 8) (o : IArgs) : unpackI o.d (packI mn o) = o := by
  have h0 : (packI mn o).extractLsb' 0 17 = o.imm := (field_setWidth _ (by decide)).trans <| (field_low _ _ (by decide)).trans <| field_all _
  have h1 : (packI mn o).extractLsb' 17 7 = o.sa.pack := (field_setWidth _ (by decide)).trans <| (field_high _ _ (by decide)).trans <| (field_low _ _ (by decide)).trans <| field_all _
  simp only [unpackI, h0, h1, Src.unpack_pack]

theorem mn32_packI (mn : BitVec 8) (o : IArgs) : mn32 (packI mn o) = mn.toNat :=
  congrArg BitVec.toNat ((field_setWidth _ (by decide)).trans <| (field_high _ _ (by decide)).trans <| (field_high _ _ (by decide)).trans <| field_all _)

theorem unpackL_packL (o : LArgs) : unpackL o.d (packL o) = some o := by
  have h0 : (packL o).extractLsb' 0 17 = o.imm := (field_setWidth _ (by decide)).trans <| (field_low _ _ (by decide)).trans <| field_all _
  have h1 : (packL o).extractLsb' 17 7 = o.sa.pack := (field_setWidth _ (by decide)).trans <| (field_high _ _ (by decide)).trans <| (field_low _ _ (by decide)).trans <| field_all _
  have h2 : (packL o).extractLsb' 24 3 = o.ty := (field_setWidth _ (by decide)).trans <| (field_high _ _ (by decide)).trans <| (field_high _ _ (by decide)).trans <| (field_low _ _ (by decide)).trans <| field_all _
  have h3 : (packL o).extractLsb' 27 3 = o.scope.code := (field_setWidth _ (by decide)).trans <| (field_high _ _ (by decide)).trans <| (field_high _ _ (by decide)).trans <| (field_high _ _ (by decide)).trans <| (field_low _ _ (by decide)).trans <| field_all _
  have h4 : (packL o).extractLsb' 30 2 = o.ord.code := (field_setWidth _ (by decide)).trans <| (field_high _ _ (by decide)).trans <| (field_high _ _ (by decide)).trans <| (field_high _ _ (by decide)).trans <| (field_high _ _ (by decide)).trans <| field_all _
  simp only [unpackL, h0, h1, h2, h3, h4, Src.unpack_pack, Scope.ofCode_code, Ord.ofCode_code, Option.bind_eq_bind, Option.bind_some, Option.pure_def]

theorem unpackB_packB (o : BArgs) : unpackB o.d (packB o) = o := by
  have h0 : (packB o).extractLsb' 0 5 = o.head := (field_setWidth _ (by decide)).trans <| (field_low _ _ (by decide)).trans <| field_all _
  have h1 : (packB o).extractLsb' 5 11 = o.disp := (field_setWidth _ (by decide)).trans <| (field_high _ _ (by decide)).trans <| field_all _
  simp only [unpackB, h0, h1]

theorem unpackIs_packIs (o : StripArgs) : unpackIs o.d (packIs o) = o := by
  have h0 : (packIs o).extractLsb' 0 8 = o.sz := (field_setWidth _ (by decide)).trans <| (field_low _ _ (by decide)).trans <| field_all _
  have h1 : (packIs o).extractLsb' 8 2 = o.n := (field_setWidth _ (by decide)).trans <| (field_high _ _ (by decide)).trans <| (field_low _ _ (by decide)).trans <| field_all _
  have h2 : (packIs o).extractLsb' 10 6 = o.p := (field_setWidth _ (by decide)).trans <| (field_high _ _ (by decide)).trans <| (field_high _ _ (by decide)).trans <| (field_low _ _ (by decide)).trans <| field_all _
  have h3 : (packIs o).extractLsb' 16 5 = o.head := (field_setWidth _ (by decide)).trans <| (field_high _ _ (by decide)).trans <| (field_high _ _ (by decide)).trans <| (field_high _ _ (by decide)).trans <| (field_low _ _ (by decide)).trans <| field_all _
  have h4 : (packIs o).extractLsb' 21 11 = o.disp := (field_setWidth _ (by decide)).trans <| (field_high _ _ (by decide)).trans <| (field_high _ _ (by decide)).trans <| (field_high _ _ (by decide)).trans <| (field_high _ _ (by decide)).trans <| field_all _
  simp only [unpackIs, h0, h1, h2, h3, h4]

theorem unpackV_packV (mn : BitVec 8) (o : VArgs) : unpackV o.d (packV mn o) = some o := by
  have h0 : (packV mn o).extractLsb' 0 6 = o.vmod := (field_low _ _ (by decide)).trans <| field_all _
  have h1 : (packV mn o).extractLsb' 6 3 = o.rnd.code := (field_high _ _ (by decide)).trans <| (field_low _ _ (by decide)).trans <| field_all _
  have h2 : (packV mn o).extractLsb' 9 4 = o.ty.code := (field_high _ _ (by decide)).trans <| (field_high _ _ (by decide)).trans <| (field_low _ _ (by decide)).trans <| field_all _
  have h3 : (packV mn o).extractLsb' 13 3 = o.msel := (field_high _ _ (by decide)).trans <| (field_high _ _ (by decide)).trans <| (field_high _ _ (by decide)).trans <| (field_low _ _ (by decide)).trans <| field_all _
  have h4 : (packV mn o).extractLsb' 16 1 = BitVec.ofBool o.me := (field_high _ _ (by decide)).trans <| (field_high _ _ (by decide)).trans <| (field_high _ _ (by decide)).trans <| (field_high _ _ (by decide)).trans <| (field_low _ _ (by decide)).trans <| field_all _
  have hb : (packV mn o).getLsbD 16 = o.me := (bit_high _ _ (by decide)).trans <| (bit_high _ _ (by decide)).trans <| (bit_high _ _ (by decide)).trans <| (bit_high _ _ (by decide)).trans <| (bit_low _ _ (by decide)).trans <| bit_ofBool _
  have h5 : (packV mn o).extractLsb' 17 9 = o.offB.pack := (field_high _ _ (by decide)).trans <| (field_high _ _ (by decide)).trans <| (field_high _ _ (by decide)).trans <| (field_high _ _ (by decide)).trans <| (field_high _ _ (by decide)).trans <| (field_low _ _ (by decide)).trans <| field_all _
  have h6 : (packV mn o).extractLsb' 26 9 = o.offA.pack := (field_high _ _ (by decide)).trans <| (field_high _ _ (by decide)).trans <| (field_high _ _ (by decide)).trans <| (field_high _ _ (by decide)).trans <| (field_high _ _ (by decide)).trans <| (field_high _ _ (by decide)).trans <| (field_low _ _ (by decide)).trans <| field_all _
  have h7 : (packV mn o).extractLsb' 35 7 = o.sc.pack := (field_high _ _ (by decide)).trans <| (field_high _ _ (by decide)).trans <| (field_high _ _ (by decide)).trans <| (field_high _ _ (by decide)).trans <| (field_high _ _ (by decide)).trans <| (field_high _ _ (by decide)).trans <| (field_high _ _ (by decide)).trans <| (field_low _ _ (by decide)).trans <| field_all _
  have h8 : (packV mn o).extractLsb' 42 7 = o.sb.pack := (field_high _ _ (by decide)).trans <| (field_high _ _ (by decide)).trans <| (field_high _ _ (by decide)).trans <| (field_high _ _ (by decide)).trans <| (field_high _ _ (by decide)).trans <| (field_high _ _ (by decide)).trans <| (field_high _ _ (by decide)).trans <| (field_high _ _ (by decide)).trans <| (field_low _ _ (by decide)).trans <| field_all _
  have h9 : (packV mn o).extractLsb' 49 7 = o.sa.pack := (field_high _ _ (by decide)).trans <| (field_high _ _ (by decide)).trans <| (field_high _ _ (by decide)).trans <| (field_high _ _ (by decide)).trans <| (field_high _ _ (by decide)).trans <| (field_high _ _ (by decide)).trans <| (field_high _ _ (by decide)).trans <| (field_high _ _ (by decide)).trans <| (field_high _ _ (by decide)).trans <| (field_low _ _ (by decide)).trans <| field_all _
  simp only [unpackV, h0, h1, h2, h3, h5, h6, h7, h8, h9, hb, Src.unpack_pack, Off.unpack_pack, Rnd.ofCode_code, Ty.ofCode_code, Option.bind_eq_bind, Option.bind_some, Option.pure_def]

theorem mn64_packV (mn : BitVec 8) (o : VArgs) : mn64 (packV mn o) = mn.toNat :=
  congrArg BitVec.toNat ((field_high _ _ (by decide)).trans <| (field_high _ _ (by decide)).trans <| (field_high _ _ (by decide)).trans <| (field_high _ _ (by decide)).trans <| (field_high _ _ (by decide)).trans <| (field_high _ _ (by decide)).trans <| (field_high _ _ (by decide)).trans <| (field_high _ _ (by decide)).trans <| (field_high _ _ (by decide)).trans <| (field_high _ _ (by decide)).trans <| field_all _)

theorem unpackM_packM (mn : BitVec 8) (o : MArgs) : unpackM o.d (packM mn o) = some o := by
  have h0 : (packM mn o).extractLsb' 0 16 = o.imm := (field_low _ _ (by decide)).trans <| field_all _
  have h1 : (packM mn o).extractLsb' 16 14 = o.mod := (field_high _ _ (by decide)).trans <| (field_low _ _ (by decide)).trans <| field_all _
  have h2 : (packM mn o).extractLsb' 30 2 = o.ord.code := (field_high _ _ (by decide)).trans <| (field_high _ _ (by decide)).trans <| (field_low _ _ (by decide)).trans <| field_all _
  have h3 : (packM mn o).extractLsb' 32 3 = o.scope.code := (field_high _ _ (by decide)).trans <| (field_high _ _ (by decide)).trans <| (field_high _ _ (by decide)).trans <| (field_low _ _ (by decide)).trans <| field_all _
  have h4 : (packM mn o).extractLsb' 35 7 = o.sc.pack := (field_high _ _ (by decide)).trans <| (field_high _ _ (by decide)).trans <| (field_high _ _ (by decide)).trans <| (field_high _ _ (by decide)).trans <| (field_low _ _ (by decide)).trans <| field_all _
  have h5 : (packM mn o).extractLsb' 42 7 = o.sb.pack := (field_high _ _ (by decide)).trans <| (field_high _ _ (by decide)).trans <| (field_high _ _ (by decide)).trans <| (field_high _ _ (by decide)).trans <| (field_high _ _ (by decide)).trans <| (field_low _ _ (by decide)).trans <| field_all _
  have h6 : (packM mn o).extractLsb' 49 7 = o.sa.pack := (field_high _ _ (by decide)).trans <| (field_high _ _ (by decide)).trans <| (field_high _ _ (by decide)).trans <| (field_high _ _ (by decide)).trans <| (field_high _ _ (by decide)).trans <| (field_high _ _ (by decide)).trans <| (field_low _ _ (by decide)).trans <| field_all _
  simp only [unpackM, h0, h1, h2, h3, h4, h5, h6, Src.unpack_pack, Scope.ofCode_code, Ord.ofCode_code, Option.bind_eq_bind, Option.bind_some, Option.pure_def]

theorem mn64_packM (mn : BitVec 8) (o : MArgs) : mn64 (packM mn o) = mn.toNat :=
  congrArg BitVec.toNat ((field_high _ _ (by decide)).trans <| (field_high _ _ (by decide)).trans <| (field_high _ _ (by decide)).trans <| (field_high _ _ (by decide)).trans <| (field_high _ _ (by decide)).trans <| (field_high _ _ (by decide)).trans <| (field_high _ _ (by decide)).trans <| field_all _)


theorem packHead_maj (m : BitVec 6) (tl : BitVec 2) (d : Reg) (x : BitVec 2) : (packHead m tl d x).extractLsb' 10 6 = m :=
  (field_high _ _ (by decide)).trans <| (field_high _ _ (by decide)).trans <| (field_high _ _ (by decide)).trans (field_all _)

theorem packHead_tl (m : BitVec 6) (tl : BitVec 2) (d : Reg) (x : BitVec 2) : headTl (packHead m tl d x) = tl :=
  (field_high _ _ (by decide)).trans <| (field_high _ _ (by decide)).trans <| (field_low _ _ (by decide)).trans (field_all _)

theorem packHead_d (m : BitVec 6) (tl : BitVec 2) (d : Reg) (x : BitVec 2) : (packHead m tl d x).extractLsb' 2 6 = d :=
  (field_high _ _ (by decide)).trans <| (field_low _ _ (by decide)).trans (field_all _)

theorem packHead_x (m : BitVec 6) (tl : BitVec 2) (d : Reg) (x : BitVec 2) : (packHead m tl d x).extractLsb' 0 2 = x :=
  (field_low _ _ (by decide)).trans (field_all _)

/-- A head packed from an assigned major, X and tail class decodes to what its body reads, if that is well formed. -/
theorem decode_packHead {m : BitVec 6} {tl : BitVec 2} {d : Reg} {x : BitVec 2} {t : BitVec 64} {f : Form} {i : Instr}
    (hf : formOf m.toNat x.toNat = some f) (hb : decodeBody m.toNat x.toNat d t = .ok i) (w : wellFormed i = true)
    (hm : m.toNat ≠ 0) (ht : tl = f.tl) : decode (packHead m tl d x) t = .ok i := by
  simp only [decode, packHead_maj, packHead_tl, packHead_d, packHead_x, hf, hb, w, ht, if_neg hm, if_true]

/-- What a minor code's table answers for an operand reading it has. -/
theorem decodeMinor_ok {α : Type} {f : Nat → α → Option Instr} {n n' : Nat} {o : Option α} {a : α} {i : Instr}
    (hn : n' = n) (ho : o = some a) (hi : f n a = some i) : decodeMinor (f n') o = .ok i := by
  subst hn ho
  simp only [decodeMinor, hi, orError]

/-! Packing the fields of a tail gives the tail back. -/

theorem field_join {w lo m n k : Nat} (t : BitVec w) (h : k = lo + m) :
    t.extractLsb' k n ++ t.extractLsb' lo m = t.extractLsb' lo (n + m) := by
  subst h
  ext i hi
  simp [BitVec.getElem_append]
  intro h
  congr 1
  omega

theorem bit_field {w i : Nat} (t : BitVec w) : BitVec.ofBool (t.getLsbD i) = t.extractLsb' i 1 := by
  ext k hk
  obtain rfl : k = 0 := by omega
  simp

theorem field_field {w lo n a b : Nat} (t : BitVec w) (h : a + b ≤ n) :
    (t.extractLsb' lo n).extractLsb' a b = t.extractLsb' (lo + a) b := by
  ext i hi
  simp
  rw [decide_eq_true (by omega), Bool.true_and]
  congr 1
  omega

theorem field_bit {w lo n a : Nat} (t : BitVec w) (h : a < n) : (t.extractLsb' lo n).getLsbD a = t.getLsbD (lo + a) := by
  simp [h]

theorem Ty.code_ofCode : ∀ {c : BitVec 4} {y : Ty}, Ty.ofCode c = some y → y.code = c := by decide
theorem Rnd.code_ofCode : ∀ {c : BitVec 3} {y : Rnd}, Rnd.ofCode c = some y → y.code = c := by decide
theorem Scope.code_ofCode : ∀ {c : BitVec 3} {y : Scope}, Scope.ofCode c = some y → y.code = c := by decide
theorem Ord.code_ofCode : ∀ {c : BitVec 2}, (Ord.ofCode c).code = c := by decide

theorem Src.pack_unpack (b : BitVec 7) : (Src.unpack b).pack = b := by
  simp only [Src.pack, Src.unpack, bit_field]
  exact (field_join b rfl).trans (field_all b)

theorem low32 {t : BitVec 64} (h : t.toNat < 2 ^ 32) : (t.extractLsb' 0 32).setWidth 64 = t := by
  apply BitVec.eq_of_toNat_eq
  simp
  omega

theorem low16 {t : BitVec 64} (h : t.toNat < 2 ^ 16) : (t.extractLsb' 0 16).setWidth 64 = t := by
  apply BitVec.eq_of_toNat_eq
  simp
  omega

theorem Off.pack_unpack (b : BitVec 9) : (Off.unpack b).pack = b := by
  have h1 : b.extractLsb' 6 3 ++ b.extractLsb' 3 3 = b.extractLsb' 3 6 := field_join b rfl
  have h2 : b.extractLsb' 3 6 ++ b.extractLsb' 0 3 = b.extractLsb' 0 9 := field_join b rfl
  simp only [Off.pack, Off.unpack]
  rw [h1, h2]
  exact field_all b

theorem packR_unpackR (d : Reg) {t : BitVec 64} (h : t.toNat < 2 ^ 32) : packR (t.extractLsb' 24 8) (unpackR d t) = t := by
  have h1 : t.extractLsb' 24 8 ++ t.extractLsb' 17 7 = t.extractLsb' 17 15 := field_join t rfl
  have h2 : t.extractLsb' 17 15 ++ t.extractLsb' 10 7 = t.extractLsb' 10 22 := field_join t rfl
  have h3 : t.extractLsb' 10 22 ++ t.extractLsb' 0 10 = t.extractLsb' 0 32 := field_join t rfl
  simp only [packR, Src.pack_unpack, unpackR]
  rw [h1, h2, h3]
  exact low32 h

theorem packF_unpackF {d : Reg} {t : BitVec 64} {o : FArgs} (h : t.toNat < 2 ^ 32) (u : unpackF d t = some o) :
    packF (t.extractLsb' 24 8) o = t ∧ o.d = d := by
  have h1 : t.extractLsb' 24 8 ++ t.extractLsb' 17 7 = t.extractLsb' 17 15 := field_join t rfl
  have h2 : t.extractLsb' 17 15 ++ t.extractLsb' 10 7 = t.extractLsb' 10 22 := field_join t rfl
  have h3 : t.extractLsb' 10 22 ++ t.extractLsb' 7 3 = t.extractLsb' 7 25 := field_join t rfl
  have h4 : t.extractLsb' 7 25 ++ t.extractLsb' 4 3 = t.extractLsb' 4 28 := field_join t rfl
  have h5 : t.extractLsb' 4 28 ++ t.extractLsb' 0 4 = t.extractLsb' 0 32 := field_join t rfl
  unfold unpackF at u
  cases er : Rnd.ofCode (t.extractLsb' 4 3) with
  | none => rw [er] at u; exact absurd u (by simp)
  | some r =>
  rw [er] at u
  cases ey : Ty.ofCode (t.extractLsb' 0 4) with
  | none => rw [ey] at u; exact absurd u (by simp)
  | some y =>
  rw [ey] at u
  obtain rfl := Option.some.inj u
  refine ⟨?_, rfl⟩
  simp only [packF, Src.pack_unpack, Rnd.code_ofCode er, Ty.code_ofCode ey]
  rw [h1, h2, h3, h4, h5]
  exact low32 h

theorem packA_unpackA {d : Reg} {t : BitVec 64} {o : AArgs} (h : t.toNat < 2 ^ 32) (u : unpackA d t = some o) :
    packA (t.extractLsb' 24 8) o = t ∧ o.d = d := by
  have h1 : t.extractLsb' 24 8 ++ t.extractLsb' 17 7 = t.extractLsb' 17 15 := field_join t rfl
  have h2 : t.extractLsb' 17 15 ++ t.extractLsb' 10 7 = t.extractLsb' 10 22 := field_join t rfl
  have h3 : t.extractLsb' 10 22 ++ t.extractLsb' 8 2 = t.extractLsb' 8 24 := field_join t rfl
  have h4 : t.extractLsb' 8 24 ++ t.extractLsb' 5 3 = t.extractLsb' 5 27 := field_join t rfl
  have h5 : t.extractLsb' 5 27 ++ t.extractLsb' 3 2 = t.extractLsb' 3 29 := field_join t rfl
  have h6 : t.extractLsb' 3 29 ++ t.extractLsb' 0 3 = t.extractLsb' 0 32 := field_join t rfl
  unfold unpackA at u
  cases es : Scope.ofCode (t.extractLsb' 5 3) with
  | none => rw [es] at u; exact absurd u (by simp)
  | some c =>
  rw [es] at u
  by_cases z : t.extractLsb' 0 3 = 0
  · simp only [z, Option.bind_eq_bind, Option.bind_some, Option.pure_def, bne_self_eq_false, Bool.false_eq_true, if_false] at u
    obtain rfl := Option.some.inj u
    refine ⟨?_, rfl⟩
    simp only [packA, Src.pack_unpack, Ord.code_ofCode, Scope.code_ofCode es]
    rw [← z, h1, h2, h3, h4, h5, h6]
    exact low32 h
  · exfalso
    simp at u
    exact z u.1

theorem packS_unpackS {d : Reg} {t : BitVec 64} {o : SArgs} (h : t.toNat < 2 ^ 32) (u : unpackS d t = some o) :
    packS (t.extractLsb' 24 8) o = t ∧ o.d = d := by
  have h1 : t.extractLsb' 24 8 ++ t.extractLsb' 17 7 = t.extractLsb' 17 15 := field_join t rfl
  have h2 : t.extractLsb' 17 15 ++ t.extractLsb' 10 7 = t.extractLsb' 10 22 := field_join t rfl
  have h3 : t.extractLsb' 10 22 ++ t.extractLsb' 8 2 = t.extractLsb' 8 24 := field_join t rfl
  have h4 : t.extractLsb' 8 24 ++ t.extractLsb' 5 3 = t.extractLsb' 5 27 := field_join t rfl
  have h5 : t.extractLsb' 5 27 ++ t.extractLsb' 0 5 = t.extractLsb' 0 32 := field_join t rfl
  unfold unpackS at u
  cases es : Scope.ofCode (t.extractLsb' 5 3) with
  | none => rw [es] at u; exact absurd u (by simp)
  | some c =>
  rw [es] at u
  obtain rfl := Option.some.inj u
  refine ⟨?_, rfl⟩
  simp only [packS, Src.pack_unpack, Ord.code_ofCode, Scope.code_ofCode es]
  rw [h1, h2, h3, h4, h5]
  exact low32 h

theorem packI_unpackI (d : Reg) {t : BitVec 64} (h : t.toNat < 2 ^ 32) : packI (t.extractLsb' 24 8) (unpackI d t) = t := by
  have h1 : t.extractLsb' 24 8 ++ t.extractLsb' 17 7 = t.extractLsb' 17 15 := field_join t rfl
  have h2 : t.extractLsb' 17 15 ++ t.extractLsb' 0 17 = t.extractLsb' 0 32 := field_join t rfl
  simp only [packI, Src.pack_unpack, unpackI]
  rw [h1, h2]
  exact low32 h

theorem packL_unpackL {d : Reg} {t : BitVec 64} {o : LArgs} (h : t.toNat < 2 ^ 32) (u : unpackL d t = some o) :
    packL o = t ∧ o.d = d := by
  have h1 : t.extractLsb' 30 2 ++ t.extractLsb' 27 3 = t.extractLsb' 27 5 := field_join t rfl
  have h2 : t.extractLsb' 27 5 ++ t.extractLsb' 24 3 = t.extractLsb' 24 8 := field_join t rfl
  have h3 : t.extractLsb' 24 8 ++ t.extractLsb' 17 7 = t.extractLsb' 17 15 := field_join t rfl
  have h4 : t.extractLsb' 17 15 ++ t.extractLsb' 0 17 = t.extractLsb' 0 32 := field_join t rfl
  unfold unpackL at u
  cases es : Scope.ofCode (t.extractLsb' 27 3) with
  | none => rw [es] at u; exact absurd u (by simp)
  | some c =>
  rw [es] at u
  obtain rfl := Option.some.inj u
  refine ⟨?_, rfl⟩
  simp only [packL, Src.pack_unpack, Ord.code_ofCode, Scope.code_ofCode es]
  rw [h1, h2, h3, h4]
  exact low32 h

theorem packB_unpackB (d : Reg) {t : BitVec 64} (h : t.toNat < 2 ^ 16) : packB (unpackB d t) = t := by
  have h1 : t.extractLsb' 5 11 ++ t.extractLsb' 0 5 = t.extractLsb' 0 16 := field_join t rfl
  simp only [packB, unpackB]
  rw [h1]
  exact low16 h

theorem packIs_unpackIs (d : Reg) {t : BitVec 64} (h : t.toNat < 2 ^ 32) : packIs (unpackIs d t) = t := by
  have h1 : t.extractLsb' 21 11 ++ t.extractLsb' 16 5 = t.extractLsb' 16 16 := field_join t rfl
  have h2 : t.extractLsb' 16 16 ++ t.extractLsb' 10 6 = t.extractLsb' 10 22 := field_join t rfl
  have h3 : t.extractLsb' 10 22 ++ t.extractLsb' 8 2 = t.extractLsb' 8 24 := field_join t rfl
  have h4 : t.extractLsb' 8 24 ++ t.extractLsb' 0 8 = t.extractLsb' 0 32 := field_join t rfl
  simp only [packIs, unpackIs]
  rw [h1, h2, h3, h4]
  exact low32 h

theorem packV_unpackV {d : Reg} {t : BitVec 64} {o : VArgs} (u : unpackV d t = some o) :
    packV (t.extractLsb' 56 8) o = t ∧ o.d = d := by
  have h1 : t.extractLsb' 56 8 ++ t.extractLsb' 49 7 = t.extractLsb' 49 15 := field_join t rfl
  have h2 : t.extractLsb' 49 15 ++ t.extractLsb' 42 7 = t.extractLsb' 42 22 := field_join t rfl
  have h3 : t.extractLsb' 42 22 ++ t.extractLsb' 35 7 = t.extractLsb' 35 29 := field_join t rfl
  have h4 : t.extractLsb' 35 29 ++ t.extractLsb' 26 9 = t.extractLsb' 26 38 := field_join t rfl
  have h5 : t.extractLsb' 26 38 ++ t.extractLsb' 17 9 = t.extractLsb' 17 47 := field_join t rfl
  have h6 : t.extractLsb' 17 47 ++ t.extractLsb' 16 1 = t.extractLsb' 16 48 := field_join t rfl
  have h7 : t.extractLsb' 16 48 ++ t.extractLsb' 13 3 = t.extractLsb' 13 51 := field_join t rfl
  have h8 : t.extractLsb' 13 51 ++ t.extractLsb' 9 4 = t.extractLsb' 9 55 := field_join t rfl
  have h9 : t.extractLsb' 9 55 ++ t.extractLsb' 6 3 = t.extractLsb' 6 58 := field_join t rfl
  have h10 : t.extractLsb' 6 58 ++ t.extractLsb' 0 6 = t.extractLsb' 0 64 := field_join t rfl
  unfold unpackV at u
  cases ey : Ty.ofCode (t.extractLsb' 9 4) with
  | none => rw [ey] at u; exact absurd u (by simp)
  | some y =>
  rw [ey] at u
  cases er : Rnd.ofCode (t.extractLsb' 6 3) with
  | none => rw [er] at u; exact absurd u (by simp)
  | some r =>
  rw [er] at u
  obtain rfl := Option.some.inj u
  refine ⟨?_, rfl⟩
  simp only [packV, Src.pack_unpack, Off.pack_unpack, bit_field, Ty.code_ofCode ey, Rnd.code_ofCode er]
  rw [h1, h2, h3, h4, h5, h6, h7, h8, h9, h10]
  exact field_all t

theorem packM_unpackM {d : Reg} {t : BitVec 64} {o : MArgs} (u : unpackM d t = some o) :
    packM (t.extractLsb' 56 8) o = t ∧ o.d = d := by
  have h1 : t.extractLsb' 56 8 ++ t.extractLsb' 49 7 = t.extractLsb' 49 15 := field_join t rfl
  have h2 : t.extractLsb' 49 15 ++ t.extractLsb' 42 7 = t.extractLsb' 42 22 := field_join t rfl
  have h3 : t.extractLsb' 42 22 ++ t.extractLsb' 35 7 = t.extractLsb' 35 29 := field_join t rfl
  have h4 : t.extractLsb' 35 29 ++ t.extractLsb' 32 3 = t.extractLsb' 32 32 := field_join t rfl
  have h5 : t.extractLsb' 32 32 ++ t.extractLsb' 30 2 = t.extractLsb' 30 34 := field_join t rfl
  have h6 : t.extractLsb' 30 34 ++ t.extractLsb' 16 14 = t.extractLsb' 16 48 := field_join t rfl
  have h7 : t.extractLsb' 16 48 ++ t.extractLsb' 0 16 = t.extractLsb' 0 64 := field_join t rfl
  unfold unpackM at u
  cases es : Scope.ofCode (t.extractLsb' 32 3) with
  | none => rw [es] at u; exact absurd u (by simp)
  | some c =>
  rw [es] at u
  obtain rfl := Option.some.inj u
  refine ⟨?_, rfl⟩
  simp only [packM, Src.pack_unpack, Ord.code_ofCode, Scope.code_ofCode es]
  rw [h1, h2, h3, h4, h5, h6, h7]
  exact field_all t

/-- A head is packed from its own fields. -/
theorem packHead_fields (h : BitVec 16) :
    packHead (h.extractLsb' 10 6) (headTl h) (h.extractLsb' 2 6) (h.extractLsb' 0 2) = h := by
  have h1 : h.extractLsb' 10 6 ++ h.extractLsb' 8 2 = h.extractLsb' 8 8 := field_join h rfl
  have h2 : h.extractLsb' 8 8 ++ h.extractLsb' 2 6 = h.extractLsb' 2 14 := field_join h rfl
  have h3 : h.extractLsb' 2 14 ++ h.extractLsb' 0 2 = h.extractLsb' 0 16 := field_join h rfl
  simp only [packHead, headTl]
  rw [h1, h2, h3]
  exact field_all h

end Sys2Proof
end

