-- ==== Sys2Proof/Laws/NMap.lean ====
section
/-! SUPPORT. Sparse maps: a read after a write, a read after an erasure, and that both keep the keys rising. -/

namespace Sys2Proof.NMap
set_option Elab.async false

variable {α : Type}

@[simp] theorem get?_nil (k : Nat) : get? ([] : NMap α) k = none := rfl

@[simp] theorem get?_set_self (m : NMap α) (k : Nat) (a : α) : get? (set m k a) k = some a := by
  induction m with
  | nil => simp [set, get?]
  | cons x m ih =>
    obtain ⟨j, b⟩ := x
    simp only [set]
    split
    · simp [get?]
    · split
      · simp [get?]
      · simp [get?, *]

theorem get?_set_of_ne (m : NMap α) {k j : Nat} (a : α) (h : j ≠ k) : get? (set m k a) j = get? m j := by
  induction m with
  | nil => simp [set, get?, h]
  | cons x m ih =>
    obtain ⟨i, b⟩ := x
    simp only [set]
    split
    · simp [get?, h]
    · split
      · next hk => subst hk; simp [get?, h]
      · simp only [get?, ih]

@[simp] theorem getD_set_self (m : NMap α) (k : Nat) (a d : α) : getD (set m k a) k d = a := by simp [getD]

/-- The later of two writes to one key stands. -/
theorem set_set (m : NMap α) (k : Nat) (a b : α) : set (set m k a) k b = set m k b := by
  induction m with
  | nil => simp [set]
  | cons x m ih =>
    obtain ⟨j, c⟩ := x
    simp only [set]
    split
    · simp [set]
    · split
      · simp [set]
      · next h1 h2 => simp only [set, h1, h2, if_false, ih]

theorem getD_set_of_ne (m : NMap α) {k j : Nat} (a d : α) (h : j ≠ k) : getD (set m k a) j d = getD m j d := by
  simp [getD, get?_set_of_ne m a h]

@[simp] theorem get?_erase_self (m : NMap α) (k : Nat) : get? (erase m k) k = none := by
  induction m with
  | nil => rfl
  | cons x m ih =>
    obtain ⟨j, b⟩ := x
    simp only [erase]
    split
    · exact ih
    · next h => simp [get?, h, ih]

theorem get?_erase_of_ne (m : NMap α) {k j : Nat} (h : j ≠ k) : get? (erase m k) j = get? m j := by
  induction m with
  | nil => rfl
  | cons x m ih =>
    obtain ⟨i, b⟩ := x
    simp only [erase]
    split
    · next hk => subst hk; simp [get?, h, ih]
    · simp only [get?, ih]

@[simp] theorem getD_erase_self (m : NMap α) (k : Nat) (d : α) : getD (erase m k) k d = d := by simp [getD]

theorem getD_erase_of_ne (m : NMap α) {k j : Nat} (d : α) (h : j ≠ k) : getD (erase m k) j d = getD m j d := by
  simp [getD, get?_erase_of_ne m h]

/-- Rising keys, as a predicate on pairs. -/
def Rises (m : NMap α) : Prop := List.Pairwise (fun x y => x.1 < y.1) m

theorem rising_iff (m : NMap α) : rising m = true ↔ Rises m := by
  induction m with
  | nil => simp [rising, Rises]
  | cons x m ih =>
    cases m with
    | nil => simp [rising, Rises]
    | cons y m =>
      obtain ⟨j, a⟩ := x
      obtain ⟨k, b⟩ := y
      simp only [rising, Bool.and_eq_true, decide_eq_true_eq, ih, Rises, List.pairwise_cons]
      constructor
      · rintro ⟨h, h1, h2⟩
        refine ⟨?_, h1, h2⟩
        intro z hz
        rcases List.mem_cons.1 hz with rfl | hz
        · exact h
        · exact Nat.lt_trans h (h1 z hz)
      · rintro ⟨h, h1, h2⟩
        exact ⟨h (k, b) (by simp), h1, h2⟩

theorem mem_set (m : NMap α) (k : Nat) (a : α) (x : Nat × α) (h : x ∈ set m k a) : x = (k, a) ∨ x ∈ m := by
  induction m with
  | nil => simpa [set] using h
  | cons y m ih =>
    obtain ⟨j, b⟩ := y
    simp only [set] at h
    split at h
    · simpa using h
    · split at h
      · simp only [List.mem_cons] at h ⊢
        rcases h with h | h
        · exact .inl h
        · exact .inr (.inr h)
      · simp only [List.mem_cons] at h ⊢
        rcases h with h | h
        · exact .inr (.inl h)
        · rcases ih h with h | h
          · exact .inl h
          · exact .inr (.inr h)

theorem mem_erase (m : NMap α) (k : Nat) (x : Nat × α) (h : x ∈ erase m k) : x ∈ m := by
  induction m with
  | nil => simp [erase] at h
  | cons y m ih =>
    obtain ⟨j, b⟩ := y
    simp only [erase] at h
    split at h
    · exact List.mem_cons_of_mem _ (ih h)
    · rcases List.mem_cons.1 h with h | h
      · simp [h]
      · exact List.mem_cons_of_mem _ (ih h)

theorem rises_set (m : NMap α) (k : Nat) (a : α) (h : Rises m) : Rises (set m k a) := by
  induction m with
  | nil => simp [set, Rises]
  | cons y m ih =>
    obtain ⟨j, b⟩ := y
    have hm : Rises m := (List.pairwise_cons.1 h).2
    have hj := (List.pairwise_cons.1 h).1
    simp only [set]
    split
    · next hk =>
      refine List.pairwise_cons.2 ⟨?_, h⟩
      intro z hz
      rcases List.mem_cons.1 hz with rfl | hz
      · exact hk
      · exact Nat.lt_trans hk (hj z hz)
    · split
      · next hk => subst hk; exact List.pairwise_cons.2 ⟨hj, hm⟩
      · next h1 h2 =>
        refine List.pairwise_cons.2 ⟨?_, ih hm⟩
        intro z hz
        rcases mem_set m k a z hz with rfl | hz
        · exact Nat.lt_of_le_of_ne (Nat.le_of_not_lt h1) (Ne.symm h2)
        · exact hj z hz

theorem rises_erase (m : NMap α) (k : Nat) (h : Rises m) : Rises (erase m k) := by
  induction m with
  | nil => exact h
  | cons y m ih =>
    obtain ⟨j, b⟩ := y
    have hm : Rises m := (List.pairwise_cons.1 h).2
    have hj := (List.pairwise_cons.1 h).1
    simp only [erase]
    split
    · exact ih hm
    · exact List.pairwise_cons.2 ⟨fun z hz => hj z (mem_erase m k z hz), ih hm⟩

theorem rises_filter (m : NMap α) (p : Nat × α → Bool) (h : Rises m) : Rises (List.filter p m) := List.Pairwise.filter p h

end Sys2Proof.NMap
end

