-- ==== Sys2Proof/Laws/Memory.lean ====
section
/-! SUPPORT. Memory: every operation keeps the canonical form, and the laws of reads after writes. -/

namespace Sys2Proof.Machine

open NMap (Rises)

/-- The canonical form as a proposition: locations rising, no byte that an unlisted location reads as. -/
theorem Memory.wf_iff (m : Memory) : m.wf = true ↔ Rises m ∧ ∀ c ∈ m, c.2 ≠ Memory.unlisted := by
  simp [Memory.wf, NMap.rising_iff, List.all_eq_true]

theorem Memory.wf_nil : Memory.wf [] = true := rfl

theorem Memory.wf_write (m : Memory) (loc : Nat) (b : Byte) (h : m.wf = true) : (m.write loc b).wf = true := by
  rw [Memory.wf_iff] at h ⊢
  unfold Memory.write
  split
  · exact ⟨NMap.rises_erase m loc h.1, fun c hc => h.2 c (NMap.mem_erase m loc c hc)⟩
  · next hb =>
    refine ⟨NMap.rises_set m loc b h.1, fun c hc => ?_⟩
    rcases NMap.mem_set m loc b c hc with rfl | hc
    · exact hb
    · exact h.2 c hc

theorem Memory.wf_writeLe (n : Nat) : ∀ (m : Memory) (loc v : Nat), m.wf = true → (m.writeLe loc n v).wf = true := by
  induction n with
  | zero => exact fun m loc v h => h
  | succ n ih => exact fun m loc v h => ih _ _ _ (wf_write m loc _ h)

theorem Memory.wf_writeBytes (l : List Byte) : ∀ (m : Memory) (loc : Nat), m.wf = true → (m.writeBytes loc l).wf = true := by
  induction l with
  | nil => exact fun m loc h => h
  | cons b l ih => exact fun m loc h => ih _ _ (wf_write m loc b h)

theorem Memory.wf_writeCells (l : List (Nat × Byte)) (m : Memory) (loc : Nat) (h : m.wf = true) :
    (m.writeCells loc l).wf = true := by
  unfold Memory.writeCells
  induction l generalizing m with
  | nil => exact h
  | cons x l ih => exact ih _ (wf_write m _ _ h)

theorem Memory.wf_clear (m : Memory) (loc n : Nat) (h : m.wf = true) : (m.clear loc n).wf = true := by
  rw [Memory.wf_iff] at h ⊢
  exact ⟨NMap.rises_filter m _ h.1, fun c hc => h.2 c (List.mem_filter.1 hc).1⟩

theorem State.reset_mem_wf : State.reset.mem.wf = true := rfl

/-! Reads after writes. -/

@[simp] theorem Memory.read_write_self (m : Memory) (loc : Nat) (b : Byte) : (m.write loc b).read loc = b := by
  unfold Memory.write Memory.read
  split
  · next h => simp [h]
  · simp

theorem Memory.read_write_of_ne (m : Memory) {loc a : Nat} (b : Byte) (h : a ≠ loc) : (m.write loc b).read a = m.read a := by
  unfold Memory.write Memory.read
  split
  · exact NMap.getD_erase_of_ne m _ h
  · exact NMap.getD_set_of_ne m _ _ h

theorem Memory.read_writeLe_outside (n : Nat) : ∀ (m : Memory) (loc v a : Nat), a < loc ∨ loc + n ≤ a →
    (m.writeLe loc n v).read a = m.read a := by
  induction n with
  | zero => intros; rfl
  | succ n ih =>
    intro m loc v a h
    simp only [Memory.writeLe]
    rw [ih _ _ _ _ (by omega), Memory.read_write_of_ne _ _ (by omega)]

theorem Memory.readLe_writeLe (n : Nat) : ∀ (m : Memory) (loc v : Nat), (m.writeLe loc n v).readLe loc n = v % 256 ^ n := by
  induction n with
  | zero => intro m loc v; simp [Memory.readLe, Nat.mod_one]
  | succ n ih =>
    intro m loc v
    simp only [Memory.writeLe, Memory.readLe]
    rw [ih, Memory.read_writeLe_outside _ _ _ _ _ (by omega)]
    simp only [Memory.read_write_self, BitVec.toNat_ofNat]
    have h : v % 256 ^ (n + 1) = v % 256 + 256 * (v / 256 % 256 ^ n) := by
      rw [Nat.pow_succ, Nat.mul_comm, Nat.mod_mul]
    rw [h]

end Sys2Proof.Machine
end

