-- ==== Sys2Proof/Laws/State.lean ====
section
/-! SUPPORT. What each update of the state and of a sequencer leaves in every field: one lemma a field. -/

namespace Sys2Proof.Machine


/-! setSeq -/

@[simp] theorem State.setSeq_cycle (s : State) (n : Nat) (q : Seq) : (s.setSeq n q).cycle = s.cycle := rfl
@[simp] theorem State.setSeq_cur (s : State) (n : Nat) (q : Seq) : (s.setSeq n q).cur = s.cur := rfl
@[simp] theorem State.setSeq_rota (s : State) (n : Nat) (q : Seq) : (s.setSeq n q).rota = s.rota := rfl
@[simp] theorem State.setSeq_turns (s : State) (n : Nat) (q : Seq) : (s.setSeq n q).turns = s.turns := rfl
@[simp] theorem State.setSeq_input (s : State) (n : Nat) (q : Seq) : (s.setSeq n q).input = s.input := rfl
@[simp] theorem State.setSeq_freeCtr (s : State) (n : Nat) (q : Seq) : (s.setSeq n q).freeCtr = s.freeCtr := rfl
@[simp] theorem State.setSeq_powered (s : State) (n : Nat) (q : Seq) : (s.setSeq n q).powered = s.powered := rfl
@[simp] theorem State.setSeq_epochAt (s : State) (n : Nat) (q : Seq) : (s.setSeq n q).epochAt = s.epochAt := rfl
@[simp] theorem State.setSeq_mem (s : State) (n : Nat) (q : Seq) : (s.setSeq n q).mem = s.mem := rfl
@[simp] theorem State.setSeq_lineMats (s : State) (n : Nat) (q : Seq) : (s.setSeq n q).lineMats = s.lineMats := rfl
@[simp] theorem State.setSeq_keys (s : State) (n : Nat) (q : Seq) : (s.setSeq n q).keys = s.keys := rfl
@[simp] theorem State.setSeq_windows (s : State) (n : Nat) (q : Seq) : (s.setSeq n q).windows = s.windows := rfl
@[simp] theorem State.setSeq_lines (s : State) (n : Nat) (q : Seq) : (s.setSeq n q).lines = s.lines := rfl
@[simp] theorem State.setSeq_homeComb (s : State) (n : Nat) (q : Seq) : (s.setSeq n q).homeComb = s.homeComb := rfl
@[simp] theorem State.setSeq_pageSlots (s : State) (n : Nat) (q : Seq) : (s.setSeq n q).pageSlots = s.pageSlots := rfl
@[simp] theorem State.setSeq_resvs (s : State) (n : Nat) (q : Seq) : (s.setSeq n q).resvs = s.resvs := rfl
@[simp] theorem State.setSeq_borrow (s : State) (n : Nat) (q : Seq) : (s.setSeq n q).borrow = s.borrow := rfl
@[simp] theorem State.setSeq_lend (s : State) (n : Nat) (q : Seq) : (s.setSeq n q).lend = s.lend := rfl
@[simp] theorem State.setSeq_leasedHere (s : State) (n : Nat) (q : Seq) : (s.setSeq n q).leasedHere = s.leasedHere := rfl
@[simp] theorem State.setSeq_leaseReads (s : State) (n : Nat) (q : Seq) : (s.setSeq n q).leaseReads = s.leaseReads := rfl
@[simp] theorem State.setSeq_badWords (s : State) (n : Nat) (q : Seq) : (s.setSeq n q).badWords = s.badWords := rfl
@[simp] theorem State.setSeq_unreachable (s : State) (n : Nat) (q : Seq) : (s.setSeq n q).unreachable = s.unreachable := rfl
@[simp] theorem State.setSeq_quotas (s : State) (n : Nat) (q : Seq) : (s.setSeq n q).quotas = s.quotas := rfl
@[simp] theorem State.setSeq_offers (s : State) (n : Nat) (q : Seq) : (s.setSeq n q).offers = s.offers := rfl
@[simp] theorem State.setSeq_engines (s : State) (n : Nat) (q : Seq) : (s.setSeq n q).engines = s.engines := rfl
@[simp] theorem State.setSeq_nextCmd (s : State) (n : Nat) (q : Seq) : (s.setSeq n q).nextCmd = s.nextCmd := rfl
@[simp] theorem State.setSeq_relov (s : State) (n : Nat) (q : Seq) : (s.setSeq n q).relov = s.relov := rfl
@[simp] theorem State.setSeq_linkDirs (s : State) (n : Nat) (q : Seq) : (s.setSeq n q).linkDirs = s.linkDirs := rfl
@[simp] theorem State.setSeq_linkStates (s : State) (n : Nat) (q : Seq) : (s.setSeq n q).linkStates = s.linkStates := rfl
@[simp] theorem State.setSeq_flitsWaiting (s : State) (n : Nat) (q : Seq) : (s.setSeq n q).flitsWaiting = s.flitsWaiting := rfl
@[simp] theorem State.setSeq_functions (s : State) (n : Nat) (q : Seq) : (s.setSeq n q).functions = s.functions := rfl
@[simp] theorem State.setSeq_hostDrops (s : State) (n : Nat) (q : Seq) : (s.setSeq n q).hostDrops = s.hostDrops := rfl
@[simp] theorem State.setSeq_hostLines (s : State) (n : Nat) (q : Seq) : (s.setSeq n q).hostLines = s.hostLines := rfl
@[simp] theorem State.setSeq_total (s : State) (n : Nat) (q : Seq) : (s.setSeq n q).total = s.total := rfl
@[simp] theorem State.setSeq_shares (s : State) (n : Nat) (q : Seq) : (s.setSeq n q).shares = s.shares := rfl
@[simp] theorem State.setSeq_ports (s : State) (n : Nat) (q : Seq) : (s.setSeq n q).ports = s.ports := rfl
@[simp] theorem State.setSeq_act (s : State) (n : Nat) (q : Seq) : (s.setSeq n q).act = s.act := rfl
@[simp] theorem State.setSeq_active (s : State) (n : Nat) (q : Seq) : (s.setSeq n q).active = s.active := rfl
@[simp] theorem State.setSeq_ran (s : State) (n : Nat) (q : Seq) : (s.setSeq n q).ran = s.ran := rfl
@[simp] theorem State.setSeq_launches (s : State) (n : Nat) (q : Seq) : (s.setSeq n q).launches = s.launches := rfl
@[simp] theorem State.setSeq_nextLaunch (s : State) (n : Nat) (q : Seq) : (s.setSeq n q).nextLaunch = s.nextLaunch := rfl
@[simp] theorem State.setSeq_works (s : State) (n : Nat) (q : Seq) : (s.setSeq n q).works = s.works := rfl
@[simp] theorem State.setSeq_nextWork (s : State) (n : Nat) (q : Seq) : (s.setSeq n q).nextWork = s.nextWork := rfl
@[simp] theorem State.setSeq_tasks (s : State) (n : Nat) (q : Seq) : (s.setSeq n q).tasks = s.tasks := rfl
@[simp] theorem State.setSeq_nextTask (s : State) (n : Nat) (q : Seq) : (s.setSeq n q).nextTask = s.nextTask := rfl
@[simp] theorem State.setSeq_spawns (s : State) (n : Nat) (q : Seq) : (s.setSeq n q).spawns = s.spawns := rfl
@[simp] theorem State.setSeq_nextSpawn (s : State) (n : Nat) (q : Seq) : (s.setSeq n q).nextSpawn = s.nextSpawn := rfl
@[simp] theorem State.setSeq_saved (s : State) (n : Nat) (q : Seq) : (s.setSeq n q).saved = s.saved := rfl
@[simp] theorem State.setSeq_nextSaved (s : State) (n : Nat) (q : Seq) : (s.setSeq n q).nextSaved = s.nextSaved := rfl
@[simp] theorem State.setSeq_tiles (s : State) (n : Nat) (q : Seq) : (s.setSeq n q).tiles = s.tiles := rfl
@[simp] theorem State.setSeq_nextTile (s : State) (n : Nat) (q : Seq) : (s.setSeq n q).nextTile = s.nextTile := rfl
@[simp] theorem State.setSeq_tags (s : State) (n : Nat) (q : Seq) : (s.setSeq n q).tags = s.tags := rfl
@[simp] theorem State.setSeq_marks (s : State) (n : Nat) (q : Seq) : (s.setSeq n q).marks = s.marks := rfl
@[simp] theorem State.setSeq_cancels (s : State) (n : Nat) (q : Seq) : (s.setSeq n q).cancels = s.cancels := rfl
@[simp] theorem State.setSeq_departures (s : State) (n : Nat) (q : Seq) : (s.setSeq n q).departures = s.departures := rfl
@[simp] theorem State.setSeq_hostOps (s : State) (n : Nat) (q : Seq) : (s.setSeq n q).hostOps = s.hostOps := rfl
@[simp] theorem State.setSeq_barred (s : State) (n : Nat) (q : Seq) : (s.setSeq n q).barred = s.barred := rfl
@[simp] theorem State.setSeq_hostQueues (s : State) (n : Nat) (q : Seq) : (s.setSeq n q).hostQueues = s.hostQueues := rfl
@[simp] theorem State.setSeq_mgmt (s : State) (n : Nat) (q : Seq) : (s.setSeq n q).mgmt = s.mgmt := rfl
@[simp] theorem State.setSeq_answer (s : State) (n : Nat) (q : Seq) : (s.setSeq n q).answer = s.answer := rfl
@[simp] theorem State.setSeq_refillAt (s : State) (n : Nat) (q : Seq) : (s.setSeq n q).refillAt = s.refillAt := rfl
@[simp] theorem State.setSeq_nextUid (s : State) (n : Nat) (q : Seq) : (s.setSeq n q).nextUid = s.nextUid := rfl
@[simp] theorem State.setSeq_seqs (s : State) (n : Nat) (q : Seq) : (s.setSeq n q).seqs = NMap.set s.seqs n q := rfl
@[simp] theorem State.setSeq_cores (s : State) (n : Nat) (q : Seq) : (s.setSeq n q).cores = s.cores := rfl
@[simp] theorem State.setSeq_clusters (s : State) (n : Nat) (q : Seq) : (s.setSeq n q).clusters = s.clusters := rfl
@[simp] theorem State.setSeq_dies (s : State) (n : Nat) (q : Seq) : (s.setSeq n q).dies = s.dies := rfl

/-! setCore -/

@[simp] theorem State.setCore_cycle (s : State) (n : Nat) (c : Core) : (s.setCore n c).cycle = s.cycle := rfl
@[simp] theorem State.setCore_cur (s : State) (n : Nat) (c : Core) : (s.setCore n c).cur = s.cur := rfl
@[simp] theorem State.setCore_rota (s : State) (n : Nat) (c : Core) : (s.setCore n c).rota = s.rota := rfl
@[simp] theorem State.setCore_turns (s : State) (n : Nat) (c : Core) : (s.setCore n c).turns = s.turns := rfl
@[simp] theorem State.setCore_input (s : State) (n : Nat) (c : Core) : (s.setCore n c).input = s.input := rfl
@[simp] theorem State.setCore_freeCtr (s : State) (n : Nat) (c : Core) : (s.setCore n c).freeCtr = s.freeCtr := rfl
@[simp] theorem State.setCore_powered (s : State) (n : Nat) (c : Core) : (s.setCore n c).powered = s.powered := rfl
@[simp] theorem State.setCore_epochAt (s : State) (n : Nat) (c : Core) : (s.setCore n c).epochAt = s.epochAt := rfl
@[simp] theorem State.setCore_mem (s : State) (n : Nat) (c : Core) : (s.setCore n c).mem = s.mem := rfl
@[simp] theorem State.setCore_lineMats (s : State) (n : Nat) (c : Core) : (s.setCore n c).lineMats = s.lineMats := rfl
@[simp] theorem State.setCore_keys (s : State) (n : Nat) (c : Core) : (s.setCore n c).keys = s.keys := rfl
@[simp] theorem State.setCore_windows (s : State) (n : Nat) (c : Core) : (s.setCore n c).windows = s.windows := rfl
@[simp] theorem State.setCore_lines (s : State) (n : Nat) (c : Core) : (s.setCore n c).lines = s.lines := rfl
@[simp] theorem State.setCore_homeComb (s : State) (n : Nat) (c : Core) : (s.setCore n c).homeComb = s.homeComb := rfl
@[simp] theorem State.setCore_pageSlots (s : State) (n : Nat) (c : Core) : (s.setCore n c).pageSlots = s.pageSlots := rfl
@[simp] theorem State.setCore_resvs (s : State) (n : Nat) (c : Core) : (s.setCore n c).resvs = s.resvs := rfl
@[simp] theorem State.setCore_borrow (s : State) (n : Nat) (c : Core) : (s.setCore n c).borrow = s.borrow := rfl
@[simp] theorem State.setCore_lend (s : State) (n : Nat) (c : Core) : (s.setCore n c).lend = s.lend := rfl
@[simp] theorem State.setCore_leasedHere (s : State) (n : Nat) (c : Core) : (s.setCore n c).leasedHere = s.leasedHere := rfl
@[simp] theorem State.setCore_leaseReads (s : State) (n : Nat) (c : Core) : (s.setCore n c).leaseReads = s.leaseReads := rfl
@[simp] theorem State.setCore_badWords (s : State) (n : Nat) (c : Core) : (s.setCore n c).badWords = s.badWords := rfl
@[simp] theorem State.setCore_unreachable (s : State) (n : Nat) (c : Core) : (s.setCore n c).unreachable = s.unreachable := rfl
@[simp] theorem State.setCore_quotas (s : State) (n : Nat) (c : Core) : (s.setCore n c).quotas = s.quotas := rfl
@[simp] theorem State.setCore_offers (s : State) (n : Nat) (c : Core) : (s.setCore n c).offers = s.offers := rfl
@[simp] theorem State.setCore_engines (s : State) (n : Nat) (c : Core) : (s.setCore n c).engines = s.engines := rfl
@[simp] theorem State.setCore_nextCmd (s : State) (n : Nat) (c : Core) : (s.setCore n c).nextCmd = s.nextCmd := rfl
@[simp] theorem State.setCore_relov (s : State) (n : Nat) (c : Core) : (s.setCore n c).relov = s.relov := rfl
@[simp] theorem State.setCore_linkDirs (s : State) (n : Nat) (c : Core) : (s.setCore n c).linkDirs = s.linkDirs := rfl
@[simp] theorem State.setCore_linkStates (s : State) (n : Nat) (c : Core) : (s.setCore n c).linkStates = s.linkStates := rfl
@[simp] theorem State.setCore_flitsWaiting (s : State) (n : Nat) (c : Core) : (s.setCore n c).flitsWaiting = s.flitsWaiting := rfl
@[simp] theorem State.setCore_functions (s : State) (n : Nat) (c : Core) : (s.setCore n c).functions = s.functions := rfl
@[simp] theorem State.setCore_hostDrops (s : State) (n : Nat) (c : Core) : (s.setCore n c).hostDrops = s.hostDrops := rfl
@[simp] theorem State.setCore_hostLines (s : State) (n : Nat) (c : Core) : (s.setCore n c).hostLines = s.hostLines := rfl
@[simp] theorem State.setCore_total (s : State) (n : Nat) (c : Core) : (s.setCore n c).total = s.total := rfl
@[simp] theorem State.setCore_shares (s : State) (n : Nat) (c : Core) : (s.setCore n c).shares = s.shares := rfl
@[simp] theorem State.setCore_ports (s : State) (n : Nat) (c : Core) : (s.setCore n c).ports = s.ports := rfl
@[simp] theorem State.setCore_act (s : State) (n : Nat) (c : Core) : (s.setCore n c).act = s.act := rfl
@[simp] theorem State.setCore_active (s : State) (n : Nat) (c : Core) : (s.setCore n c).active = s.active := rfl
@[simp] theorem State.setCore_ran (s : State) (n : Nat) (c : Core) : (s.setCore n c).ran = s.ran := rfl
@[simp] theorem State.setCore_launches (s : State) (n : Nat) (c : Core) : (s.setCore n c).launches = s.launches := rfl
@[simp] theorem State.setCore_nextLaunch (s : State) (n : Nat) (c : Core) : (s.setCore n c).nextLaunch = s.nextLaunch := rfl
@[simp] theorem State.setCore_works (s : State) (n : Nat) (c : Core) : (s.setCore n c).works = s.works := rfl
@[simp] theorem State.setCore_nextWork (s : State) (n : Nat) (c : Core) : (s.setCore n c).nextWork = s.nextWork := rfl
@[simp] theorem State.setCore_tasks (s : State) (n : Nat) (c : Core) : (s.setCore n c).tasks = s.tasks := rfl
@[simp] theorem State.setCore_nextTask (s : State) (n : Nat) (c : Core) : (s.setCore n c).nextTask = s.nextTask := rfl
@[simp] theorem State.setCore_spawns (s : State) (n : Nat) (c : Core) : (s.setCore n c).spawns = s.spawns := rfl
@[simp] theorem State.setCore_nextSpawn (s : State) (n : Nat) (c : Core) : (s.setCore n c).nextSpawn = s.nextSpawn := rfl
@[simp] theorem State.setCore_saved (s : State) (n : Nat) (c : Core) : (s.setCore n c).saved = s.saved := rfl
@[simp] theorem State.setCore_nextSaved (s : State) (n : Nat) (c : Core) : (s.setCore n c).nextSaved = s.nextSaved := rfl
@[simp] theorem State.setCore_tiles (s : State) (n : Nat) (c : Core) : (s.setCore n c).tiles = s.tiles := rfl
@[simp] theorem State.setCore_nextTile (s : State) (n : Nat) (c : Core) : (s.setCore n c).nextTile = s.nextTile := rfl
@[simp] theorem State.setCore_tags (s : State) (n : Nat) (c : Core) : (s.setCore n c).tags = s.tags := rfl
@[simp] theorem State.setCore_marks (s : State) (n : Nat) (c : Core) : (s.setCore n c).marks = s.marks := rfl
@[simp] theorem State.setCore_cancels (s : State) (n : Nat) (c : Core) : (s.setCore n c).cancels = s.cancels := rfl
@[simp] theorem State.setCore_departures (s : State) (n : Nat) (c : Core) : (s.setCore n c).departures = s.departures := rfl
@[simp] theorem State.setCore_hostOps (s : State) (n : Nat) (c : Core) : (s.setCore n c).hostOps = s.hostOps := rfl
@[simp] theorem State.setCore_barred (s : State) (n : Nat) (c : Core) : (s.setCore n c).barred = s.barred := rfl
@[simp] theorem State.setCore_hostQueues (s : State) (n : Nat) (c : Core) : (s.setCore n c).hostQueues = s.hostQueues := rfl
@[simp] theorem State.setCore_mgmt (s : State) (n : Nat) (c : Core) : (s.setCore n c).mgmt = s.mgmt := rfl
@[simp] theorem State.setCore_answer (s : State) (n : Nat) (c : Core) : (s.setCore n c).answer = s.answer := rfl
@[simp] theorem State.setCore_refillAt (s : State) (n : Nat) (c : Core) : (s.setCore n c).refillAt = s.refillAt := rfl
@[simp] theorem State.setCore_nextUid (s : State) (n : Nat) (c : Core) : (s.setCore n c).nextUid = s.nextUid := rfl
@[simp] theorem State.setCore_seqs (s : State) (n : Nat) (c : Core) : (s.setCore n c).seqs = s.seqs := rfl
@[simp] theorem State.setCore_cores (s : State) (n : Nat) (c : Core) : (s.setCore n c).cores = NMap.set s.cores n c := rfl
@[simp] theorem State.setCore_clusters (s : State) (n : Nat) (c : Core) : (s.setCore n c).clusters = s.clusters := rfl
@[simp] theorem State.setCore_dies (s : State) (n : Nat) (c : Core) : (s.setCore n c).dies = s.dies := rfl

/-! setCluster -/

@[simp] theorem State.setCluster_cycle (s : State) (n : Nat) (c : Cluster) : (s.setCluster n c).cycle = s.cycle := rfl
@[simp] theorem State.setCluster_cur (s : State) (n : Nat) (c : Cluster) : (s.setCluster n c).cur = s.cur := rfl
@[simp] theorem State.setCluster_rota (s : State) (n : Nat) (c : Cluster) : (s.setCluster n c).rota = s.rota := rfl
@[simp] theorem State.setCluster_turns (s : State) (n : Nat) (c : Cluster) : (s.setCluster n c).turns = s.turns := rfl
@[simp] theorem State.setCluster_input (s : State) (n : Nat) (c : Cluster) : (s.setCluster n c).input = s.input := rfl
@[simp] theorem State.setCluster_freeCtr (s : State) (n : Nat) (c : Cluster) : (s.setCluster n c).freeCtr = s.freeCtr := rfl
@[simp] theorem State.setCluster_powered (s : State) (n : Nat) (c : Cluster) : (s.setCluster n c).powered = s.powered := rfl
@[simp] theorem State.setCluster_epochAt (s : State) (n : Nat) (c : Cluster) : (s.setCluster n c).epochAt = s.epochAt := rfl
@[simp] theorem State.setCluster_mem (s : State) (n : Nat) (c : Cluster) : (s.setCluster n c).mem = s.mem := rfl
@[simp] theorem State.setCluster_lineMats (s : State) (n : Nat) (c : Cluster) : (s.setCluster n c).lineMats = s.lineMats := rfl
@[simp] theorem State.setCluster_keys (s : State) (n : Nat) (c : Cluster) : (s.setCluster n c).keys = s.keys := rfl
@[simp] theorem State.setCluster_windows (s : State) (n : Nat) (c : Cluster) : (s.setCluster n c).windows = s.windows := rfl
@[simp] theorem State.setCluster_lines (s : State) (n : Nat) (c : Cluster) : (s.setCluster n c).lines = s.lines := rfl
@[simp] theorem State.setCluster_homeComb (s : State) (n : Nat) (c : Cluster) : (s.setCluster n c).homeComb = s.homeComb := rfl
@[simp] theorem State.setCluster_pageSlots (s : State) (n : Nat) (c : Cluster) : (s.setCluster n c).pageSlots = s.pageSlots := rfl
@[simp] theorem State.setCluster_resvs (s : State) (n : Nat) (c : Cluster) : (s.setCluster n c).resvs = s.resvs := rfl
@[simp] theorem State.setCluster_borrow (s : State) (n : Nat) (c : Cluster) : (s.setCluster n c).borrow = s.borrow := rfl
@[simp] theorem State.setCluster_lend (s : State) (n : Nat) (c : Cluster) : (s.setCluster n c).lend = s.lend := rfl
@[simp] theorem State.setCluster_leasedHere (s : State) (n : Nat) (c : Cluster) : (s.setCluster n c).leasedHere = s.leasedHere := rfl
@[simp] theorem State.setCluster_leaseReads (s : State) (n : Nat) (c : Cluster) : (s.setCluster n c).leaseReads = s.leaseReads := rfl
@[simp] theorem State.setCluster_badWords (s : State) (n : Nat) (c : Cluster) : (s.setCluster n c).badWords = s.badWords := rfl
@[simp] theorem State.setCluster_unreachable (s : State) (n : Nat) (c : Cluster) : (s.setCluster n c).unreachable = s.unreachable := rfl
@[simp] theorem State.setCluster_quotas (s : State) (n : Nat) (c : Cluster) : (s.setCluster n c).quotas = s.quotas := rfl
@[simp] theorem State.setCluster_offers (s : State) (n : Nat) (c : Cluster) : (s.setCluster n c).offers = s.offers := rfl
@[simp] theorem State.setCluster_engines (s : State) (n : Nat) (c : Cluster) : (s.setCluster n c).engines = s.engines := rfl
@[simp] theorem State.setCluster_nextCmd (s : State) (n : Nat) (c : Cluster) : (s.setCluster n c).nextCmd = s.nextCmd := rfl
@[simp] theorem State.setCluster_relov (s : State) (n : Nat) (c : Cluster) : (s.setCluster n c).relov = s.relov := rfl
@[simp] theorem State.setCluster_linkDirs (s : State) (n : Nat) (c : Cluster) : (s.setCluster n c).linkDirs = s.linkDirs := rfl
@[simp] theorem State.setCluster_linkStates (s : State) (n : Nat) (c : Cluster) : (s.setCluster n c).linkStates = s.linkStates := rfl
@[simp] theorem State.setCluster_flitsWaiting (s : State) (n : Nat) (c : Cluster) : (s.setCluster n c).flitsWaiting = s.flitsWaiting := rfl
@[simp] theorem State.setCluster_functions (s : State) (n : Nat) (c : Cluster) : (s.setCluster n c).functions = s.functions := rfl
@[simp] theorem State.setCluster_hostDrops (s : State) (n : Nat) (c : Cluster) : (s.setCluster n c).hostDrops = s.hostDrops := rfl
@[simp] theorem State.setCluster_hostLines (s : State) (n : Nat) (c : Cluster) : (s.setCluster n c).hostLines = s.hostLines := rfl
@[simp] theorem State.setCluster_total (s : State) (n : Nat) (c : Cluster) : (s.setCluster n c).total = s.total := rfl
@[simp] theorem State.setCluster_shares (s : State) (n : Nat) (c : Cluster) : (s.setCluster n c).shares = s.shares := rfl
@[simp] theorem State.setCluster_ports (s : State) (n : Nat) (c : Cluster) : (s.setCluster n c).ports = s.ports := rfl
@[simp] theorem State.setCluster_act (s : State) (n : Nat) (c : Cluster) : (s.setCluster n c).act = s.act := rfl
@[simp] theorem State.setCluster_active (s : State) (n : Nat) (c : Cluster) : (s.setCluster n c).active = s.active := rfl
@[simp] theorem State.setCluster_ran (s : State) (n : Nat) (c : Cluster) : (s.setCluster n c).ran = s.ran := rfl
@[simp] theorem State.setCluster_launches (s : State) (n : Nat) (c : Cluster) : (s.setCluster n c).launches = s.launches := rfl
@[simp] theorem State.setCluster_nextLaunch (s : State) (n : Nat) (c : Cluster) : (s.setCluster n c).nextLaunch = s.nextLaunch := rfl
@[simp] theorem State.setCluster_works (s : State) (n : Nat) (c : Cluster) : (s.setCluster n c).works = s.works := rfl
@[simp] theorem State.setCluster_nextWork (s : State) (n : Nat) (c : Cluster) : (s.setCluster n c).nextWork = s.nextWork := rfl
@[simp] theorem State.setCluster_tasks (s : State) (n : Nat) (c : Cluster) : (s.setCluster n c).tasks = s.tasks := rfl
@[simp] theorem State.setCluster_nextTask (s : State) (n : Nat) (c : Cluster) : (s.setCluster n c).nextTask = s.nextTask := rfl
@[simp] theorem State.setCluster_spawns (s : State) (n : Nat) (c : Cluster) : (s.setCluster n c).spawns = s.spawns := rfl
@[simp] theorem State.setCluster_nextSpawn (s : State) (n : Nat) (c : Cluster) : (s.setCluster n c).nextSpawn = s.nextSpawn := rfl
@[simp] theorem State.setCluster_saved (s : State) (n : Nat) (c : Cluster) : (s.setCluster n c).saved = s.saved := rfl
@[simp] theorem State.setCluster_nextSaved (s : State) (n : Nat) (c : Cluster) : (s.setCluster n c).nextSaved = s.nextSaved := rfl
@[simp] theorem State.setCluster_tiles (s : State) (n : Nat) (c : Cluster) : (s.setCluster n c).tiles = s.tiles := rfl
@[simp] theorem State.setCluster_nextTile (s : State) (n : Nat) (c : Cluster) : (s.setCluster n c).nextTile = s.nextTile := rfl
@[simp] theorem State.setCluster_tags (s : State) (n : Nat) (c : Cluster) : (s.setCluster n c).tags = s.tags := rfl
@[simp] theorem State.setCluster_marks (s : State) (n : Nat) (c : Cluster) : (s.setCluster n c).marks = s.marks := rfl
@[simp] theorem State.setCluster_cancels (s : State) (n : Nat) (c : Cluster) : (s.setCluster n c).cancels = s.cancels := rfl
@[simp] theorem State.setCluster_departures (s : State) (n : Nat) (c : Cluster) : (s.setCluster n c).departures = s.departures := rfl
@[simp] theorem State.setCluster_hostOps (s : State) (n : Nat) (c : Cluster) : (s.setCluster n c).hostOps = s.hostOps := rfl
@[simp] theorem State.setCluster_barred (s : State) (n : Nat) (c : Cluster) : (s.setCluster n c).barred = s.barred := rfl
@[simp] theorem State.setCluster_hostQueues (s : State) (n : Nat) (c : Cluster) : (s.setCluster n c).hostQueues = s.hostQueues := rfl
@[simp] theorem State.setCluster_mgmt (s : State) (n : Nat) (c : Cluster) : (s.setCluster n c).mgmt = s.mgmt := rfl
@[simp] theorem State.setCluster_answer (s : State) (n : Nat) (c : Cluster) : (s.setCluster n c).answer = s.answer := rfl
@[simp] theorem State.setCluster_refillAt (s : State) (n : Nat) (c : Cluster) : (s.setCluster n c).refillAt = s.refillAt := rfl
@[simp] theorem State.setCluster_nextUid (s : State) (n : Nat) (c : Cluster) : (s.setCluster n c).nextUid = s.nextUid := rfl
@[simp] theorem State.setCluster_seqs (s : State) (n : Nat) (c : Cluster) : (s.setCluster n c).seqs = s.seqs := rfl
@[simp] theorem State.setCluster_cores (s : State) (n : Nat) (c : Cluster) : (s.setCluster n c).cores = s.cores := rfl
@[simp] theorem State.setCluster_clusters (s : State) (n : Nat) (c : Cluster) : (s.setCluster n c).clusters = NMap.set s.clusters n c := rfl
@[simp] theorem State.setCluster_dies (s : State) (n : Nat) (c : Cluster) : (s.setCluster n c).dies = s.dies := rfl

/-! setDie -/

@[simp] theorem State.setDie_cycle (s : State) (n : Nat) (d : Die) : (s.setDie n d).cycle = s.cycle := rfl
@[simp] theorem State.setDie_cur (s : State) (n : Nat) (d : Die) : (s.setDie n d).cur = s.cur := rfl
@[simp] theorem State.setDie_rota (s : State) (n : Nat) (d : Die) : (s.setDie n d).rota = s.rota := rfl
@[simp] theorem State.setDie_turns (s : State) (n : Nat) (d : Die) : (s.setDie n d).turns = s.turns := rfl
@[simp] theorem State.setDie_input (s : State) (n : Nat) (d : Die) : (s.setDie n d).input = s.input := rfl
@[simp] theorem State.setDie_freeCtr (s : State) (n : Nat) (d : Die) : (s.setDie n d).freeCtr = s.freeCtr := rfl
@[simp] theorem State.setDie_powered (s : State) (n : Nat) (d : Die) : (s.setDie n d).powered = s.powered := rfl
@[simp] theorem State.setDie_epochAt (s : State) (n : Nat) (d : Die) : (s.setDie n d).epochAt = s.epochAt := rfl
@[simp] theorem State.setDie_mem (s : State) (n : Nat) (d : Die) : (s.setDie n d).mem = s.mem := rfl
@[simp] theorem State.setDie_lineMats (s : State) (n : Nat) (d : Die) : (s.setDie n d).lineMats = s.lineMats := rfl
@[simp] theorem State.setDie_keys (s : State) (n : Nat) (d : Die) : (s.setDie n d).keys = s.keys := rfl
@[simp] theorem State.setDie_windows (s : State) (n : Nat) (d : Die) : (s.setDie n d).windows = s.windows := rfl
@[simp] theorem State.setDie_lines (s : State) (n : Nat) (d : Die) : (s.setDie n d).lines = s.lines := rfl
@[simp] theorem State.setDie_homeComb (s : State) (n : Nat) (d : Die) : (s.setDie n d).homeComb = s.homeComb := rfl
@[simp] theorem State.setDie_pageSlots (s : State) (n : Nat) (d : Die) : (s.setDie n d).pageSlots = s.pageSlots := rfl
@[simp] theorem State.setDie_resvs (s : State) (n : Nat) (d : Die) : (s.setDie n d).resvs = s.resvs := rfl
@[simp] theorem State.setDie_borrow (s : State) (n : Nat) (d : Die) : (s.setDie n d).borrow = s.borrow := rfl
@[simp] theorem State.setDie_lend (s : State) (n : Nat) (d : Die) : (s.setDie n d).lend = s.lend := rfl
@[simp] theorem State.setDie_leasedHere (s : State) (n : Nat) (d : Die) : (s.setDie n d).leasedHere = s.leasedHere := rfl
@[simp] theorem State.setDie_leaseReads (s : State) (n : Nat) (d : Die) : (s.setDie n d).leaseReads = s.leaseReads := rfl
@[simp] theorem State.setDie_badWords (s : State) (n : Nat) (d : Die) : (s.setDie n d).badWords = s.badWords := rfl
@[simp] theorem State.setDie_unreachable (s : State) (n : Nat) (d : Die) : (s.setDie n d).unreachable = s.unreachable := rfl
@[simp] theorem State.setDie_quotas (s : State) (n : Nat) (d : Die) : (s.setDie n d).quotas = s.quotas := rfl
@[simp] theorem State.setDie_offers (s : State) (n : Nat) (d : Die) : (s.setDie n d).offers = s.offers := rfl
@[simp] theorem State.setDie_engines (s : State) (n : Nat) (d : Die) : (s.setDie n d).engines = s.engines := rfl
@[simp] theorem State.setDie_nextCmd (s : State) (n : Nat) (d : Die) : (s.setDie n d).nextCmd = s.nextCmd := rfl
@[simp] theorem State.setDie_relov (s : State) (n : Nat) (d : Die) : (s.setDie n d).relov = s.relov := rfl
@[simp] theorem State.setDie_linkDirs (s : State) (n : Nat) (d : Die) : (s.setDie n d).linkDirs = s.linkDirs := rfl
@[simp] theorem State.setDie_linkStates (s : State) (n : Nat) (d : Die) : (s.setDie n d).linkStates = s.linkStates := rfl
@[simp] theorem State.setDie_flitsWaiting (s : State) (n : Nat) (d : Die) : (s.setDie n d).flitsWaiting = s.flitsWaiting := rfl
@[simp] theorem State.setDie_functions (s : State) (n : Nat) (d : Die) : (s.setDie n d).functions = s.functions := rfl
@[simp] theorem State.setDie_hostDrops (s : State) (n : Nat) (d : Die) : (s.setDie n d).hostDrops = s.hostDrops := rfl
@[simp] theorem State.setDie_hostLines (s : State) (n : Nat) (d : Die) : (s.setDie n d).hostLines = s.hostLines := rfl
@[simp] theorem State.setDie_total (s : State) (n : Nat) (d : Die) : (s.setDie n d).total = s.total := rfl
@[simp] theorem State.setDie_shares (s : State) (n : Nat) (d : Die) : (s.setDie n d).shares = s.shares := rfl
@[simp] theorem State.setDie_ports (s : State) (n : Nat) (d : Die) : (s.setDie n d).ports = s.ports := rfl
@[simp] theorem State.setDie_act (s : State) (n : Nat) (d : Die) : (s.setDie n d).act = s.act := rfl
@[simp] theorem State.setDie_active (s : State) (n : Nat) (d : Die) : (s.setDie n d).active = s.active := rfl
@[simp] theorem State.setDie_ran (s : State) (n : Nat) (d : Die) : (s.setDie n d).ran = s.ran := rfl
@[simp] theorem State.setDie_launches (s : State) (n : Nat) (d : Die) : (s.setDie n d).launches = s.launches := rfl
@[simp] theorem State.setDie_nextLaunch (s : State) (n : Nat) (d : Die) : (s.setDie n d).nextLaunch = s.nextLaunch := rfl
@[simp] theorem State.setDie_works (s : State) (n : Nat) (d : Die) : (s.setDie n d).works = s.works := rfl
@[simp] theorem State.setDie_nextWork (s : State) (n : Nat) (d : Die) : (s.setDie n d).nextWork = s.nextWork := rfl
@[simp] theorem State.setDie_tasks (s : State) (n : Nat) (d : Die) : (s.setDie n d).tasks = s.tasks := rfl
@[simp] theorem State.setDie_nextTask (s : State) (n : Nat) (d : Die) : (s.setDie n d).nextTask = s.nextTask := rfl
@[simp] theorem State.setDie_spawns (s : State) (n : Nat) (d : Die) : (s.setDie n d).spawns = s.spawns := rfl
@[simp] theorem State.setDie_nextSpawn (s : State) (n : Nat) (d : Die) : (s.setDie n d).nextSpawn = s.nextSpawn := rfl
@[simp] theorem State.setDie_saved (s : State) (n : Nat) (d : Die) : (s.setDie n d).saved = s.saved := rfl
@[simp] theorem State.setDie_nextSaved (s : State) (n : Nat) (d : Die) : (s.setDie n d).nextSaved = s.nextSaved := rfl
@[simp] theorem State.setDie_tiles (s : State) (n : Nat) (d : Die) : (s.setDie n d).tiles = s.tiles := rfl
@[simp] theorem State.setDie_nextTile (s : State) (n : Nat) (d : Die) : (s.setDie n d).nextTile = s.nextTile := rfl
@[simp] theorem State.setDie_tags (s : State) (n : Nat) (d : Die) : (s.setDie n d).tags = s.tags := rfl
@[simp] theorem State.setDie_marks (s : State) (n : Nat) (d : Die) : (s.setDie n d).marks = s.marks := rfl
@[simp] theorem State.setDie_cancels (s : State) (n : Nat) (d : Die) : (s.setDie n d).cancels = s.cancels := rfl
@[simp] theorem State.setDie_departures (s : State) (n : Nat) (d : Die) : (s.setDie n d).departures = s.departures := rfl
@[simp] theorem State.setDie_hostOps (s : State) (n : Nat) (d : Die) : (s.setDie n d).hostOps = s.hostOps := rfl
@[simp] theorem State.setDie_barred (s : State) (n : Nat) (d : Die) : (s.setDie n d).barred = s.barred := rfl
@[simp] theorem State.setDie_hostQueues (s : State) (n : Nat) (d : Die) : (s.setDie n d).hostQueues = s.hostQueues := rfl
@[simp] theorem State.setDie_mgmt (s : State) (n : Nat) (d : Die) : (s.setDie n d).mgmt = s.mgmt := rfl
@[simp] theorem State.setDie_answer (s : State) (n : Nat) (d : Die) : (s.setDie n d).answer = s.answer := rfl
@[simp] theorem State.setDie_refillAt (s : State) (n : Nat) (d : Die) : (s.setDie n d).refillAt = s.refillAt := rfl
@[simp] theorem State.setDie_nextUid (s : State) (n : Nat) (d : Die) : (s.setDie n d).nextUid = s.nextUid := rfl
@[simp] theorem State.setDie_seqs (s : State) (n : Nat) (d : Die) : (s.setDie n d).seqs = s.seqs := rfl
@[simp] theorem State.setDie_cores (s : State) (n : Nat) (d : Die) : (s.setDie n d).cores = s.cores := rfl
@[simp] theorem State.setDie_clusters (s : State) (n : Nat) (d : Die) : (s.setDie n d).clusters = s.clusters := rfl
@[simp] theorem State.setDie_dies (s : State) (n : Nat) (d : Die) : (s.setDie n d).dies = NMap.set s.dies n d := rfl

/-! tick -/

@[simp] theorem State.tick_cycle (s : State) : s.tick.cycle = s.cycle + 1 := rfl
@[simp] theorem State.tick_cur (s : State) : s.tick.cur = s.cur := rfl
@[simp] theorem State.tick_rota (s : State) : s.tick.rota = s.rota := rfl
@[simp] theorem State.tick_turns (s : State) : s.tick.turns = s.turns := rfl
@[simp] theorem State.tick_input (s : State) : s.tick.input = s.input := rfl
@[simp] theorem State.tick_freeCtr (s : State) : s.tick.freeCtr = s.freeCtr := rfl
@[simp] theorem State.tick_powered (s : State) : s.tick.powered = s.powered := rfl
@[simp] theorem State.tick_epochAt (s : State) : s.tick.epochAt = s.epochAt := rfl
@[simp] theorem State.tick_mem (s : State) : s.tick.mem = s.mem := rfl
@[simp] theorem State.tick_lineMats (s : State) : s.tick.lineMats = s.lineMats := rfl
@[simp] theorem State.tick_keys (s : State) : s.tick.keys = s.keys := rfl
@[simp] theorem State.tick_windows (s : State) : s.tick.windows = s.windows := rfl
@[simp] theorem State.tick_lines (s : State) : s.tick.lines = s.lines := rfl
@[simp] theorem State.tick_homeComb (s : State) : s.tick.homeComb = s.homeComb := rfl
@[simp] theorem State.tick_pageSlots (s : State) : s.tick.pageSlots = s.pageSlots := rfl
@[simp] theorem State.tick_resvs (s : State) : s.tick.resvs = s.resvs := rfl
@[simp] theorem State.tick_borrow (s : State) : s.tick.borrow = s.borrow := rfl
@[simp] theorem State.tick_lend (s : State) : s.tick.lend = s.lend := rfl
@[simp] theorem State.tick_leasedHere (s : State) : s.tick.leasedHere = s.leasedHere := rfl
@[simp] theorem State.tick_leaseReads (s : State) : s.tick.leaseReads = s.leaseReads := rfl
@[simp] theorem State.tick_badWords (s : State) : s.tick.badWords = s.badWords := rfl
@[simp] theorem State.tick_unreachable (s : State) : s.tick.unreachable = s.unreachable := rfl
@[simp] theorem State.tick_quotas (s : State) : s.tick.quotas = s.quotas := rfl
@[simp] theorem State.tick_offers (s : State) : s.tick.offers = s.offers := rfl
@[simp] theorem State.tick_engines (s : State) : s.tick.engines = s.engines := rfl
@[simp] theorem State.tick_nextCmd (s : State) : s.tick.nextCmd = s.nextCmd := rfl
@[simp] theorem State.tick_relov (s : State) : s.tick.relov = s.relov := rfl
@[simp] theorem State.tick_linkDirs (s : State) : s.tick.linkDirs = s.linkDirs := rfl
@[simp] theorem State.tick_linkStates (s : State) : s.tick.linkStates = s.linkStates := rfl
@[simp] theorem State.tick_flitsWaiting (s : State) : s.tick.flitsWaiting = s.flitsWaiting := rfl
@[simp] theorem State.tick_functions (s : State) : s.tick.functions = s.functions := rfl
@[simp] theorem State.tick_hostDrops (s : State) : s.tick.hostDrops = s.hostDrops := rfl
@[simp] theorem State.tick_hostLines (s : State) : s.tick.hostLines = s.hostLines := rfl
@[simp] theorem State.tick_total (s : State) : s.tick.total = s.total := rfl
@[simp] theorem State.tick_shares (s : State) : s.tick.shares = s.shares := rfl
@[simp] theorem State.tick_ports (s : State) : s.tick.ports = s.ports := rfl
@[simp] theorem State.tick_act (s : State) : s.tick.act = s.act := rfl
@[simp] theorem State.tick_active (s : State) : s.tick.active = s.active := rfl
@[simp] theorem State.tick_ran (s : State) : s.tick.ran = s.ran := rfl
@[simp] theorem State.tick_launches (s : State) : s.tick.launches = s.launches := rfl
@[simp] theorem State.tick_nextLaunch (s : State) : s.tick.nextLaunch = s.nextLaunch := rfl
@[simp] theorem State.tick_works (s : State) : s.tick.works = s.works := rfl
@[simp] theorem State.tick_nextWork (s : State) : s.tick.nextWork = s.nextWork := rfl
@[simp] theorem State.tick_tasks (s : State) : s.tick.tasks = s.tasks := rfl
@[simp] theorem State.tick_nextTask (s : State) : s.tick.nextTask = s.nextTask := rfl
@[simp] theorem State.tick_spawns (s : State) : s.tick.spawns = s.spawns := rfl
@[simp] theorem State.tick_nextSpawn (s : State) : s.tick.nextSpawn = s.nextSpawn := rfl
@[simp] theorem State.tick_saved (s : State) : s.tick.saved = s.saved := rfl
@[simp] theorem State.tick_nextSaved (s : State) : s.tick.nextSaved = s.nextSaved := rfl
@[simp] theorem State.tick_tiles (s : State) : s.tick.tiles = s.tiles := rfl
@[simp] theorem State.tick_nextTile (s : State) : s.tick.nextTile = s.nextTile := rfl
@[simp] theorem State.tick_tags (s : State) : s.tick.tags = s.tags := rfl
@[simp] theorem State.tick_marks (s : State) : s.tick.marks = s.marks := rfl
@[simp] theorem State.tick_cancels (s : State) : s.tick.cancels = s.cancels := rfl
@[simp] theorem State.tick_departures (s : State) : s.tick.departures = s.departures := rfl
@[simp] theorem State.tick_hostOps (s : State) : s.tick.hostOps = s.hostOps := rfl
@[simp] theorem State.tick_barred (s : State) : s.tick.barred = s.barred := rfl
@[simp] theorem State.tick_hostQueues (s : State) : s.tick.hostQueues = s.hostQueues := rfl
@[simp] theorem State.tick_mgmt (s : State) : s.tick.mgmt = s.mgmt := rfl
@[simp] theorem State.tick_answer (s : State) : s.tick.answer = s.answer := rfl
@[simp] theorem State.tick_refillAt (s : State) : s.tick.refillAt = s.refillAt := rfl
@[simp] theorem State.tick_nextUid (s : State) : s.tick.nextUid = s.nextUid := rfl
@[simp] theorem State.tick_seqs (s : State) : s.tick.seqs = s.seqs := rfl
@[simp] theorem State.tick_cores (s : State) : s.tick.cores = s.cores := rfl
@[simp] theorem State.tick_clusters (s : State) : s.tick.clusters = s.clusters := rfl
@[simp] theorem State.tick_dies (s : State) : s.tick.dies = s.dies := rfl

/-! A sequencer -/

@[simp] theorem Seq.setElem_phase (q : Seq) (b e : Nat) (v : DWord) : (q.setElem b e v).phase = q.phase := rfl
@[simp] theorem Seq.setElem_uid (q : Seq) (b e : Nat) (v : DWord) : (q.setElem b e v).uid = q.uid := rfl
@[simp] theorem Seq.setElem_pc (q : Seq) (b e : Nat) (v : DWord) : (q.setElem b e v).pc = q.pc := rfl
@[simp] theorem Seq.setElem_line (q : Seq) (b e : Nat) (v : DWord) : (q.setElem b e v).line = q.line := rfl
@[simp] theorem Seq.setElem_cameFrom (q : Seq) (b e : Nat) (v : DWord) : (q.setElem b e v).cameFrom = q.cameFrom := rfl
@[simp] theorem Seq.setElem_loops (q : Seq) (b e : Nat) (v : DWord) : (q.setElem b e v).loops = q.loops := rfl
@[simp] theorem Seq.setElem_slen (q : Seq) (b e : Nat) (v : DWord) : (q.setElem b e v).slen = q.slen := rfl
@[simp] theorem Seq.setElem_s (q : Seq) (b e : Nat) (v : DWord) : (q.setElem b e v).s = q.s := rfl
@[simp] theorem Seq.setElem_sEmpty (q : Seq) (b e : Nat) (v : DWord) : (q.setElem b e v).sEmpty = q.sEmpty := rfl
@[simp] theorem Seq.setElem_p (q : Seq) (b e : Nat) (v : DWord) : (q.setElem b e v).p = q.p := rfl
@[simp] theorem Seq.setElem_bricks (q : Seq) (b e : Nat) (v : DWord) : (q.setElem b e v).bricks = NMap.set q.bricks (8192 * b + e) v := rfl
@[simp] theorem Seq.setElem_bEmpty (q : Seq) (b e : Nat) (v : DWord) : (q.setElem b e v).bEmpty = q.bEmpty := rfl
@[simp] theorem Seq.setElem_pend (q : Seq) (b e : Nat) (v : DWord) : (q.setElem b e v).pend = q.pend := rfl
@[simp] theorem Seq.setElem_masks (q : Seq) (b e : Nat) (v : DWord) : (q.setElem b e v).masks = q.masks := rfl
@[simp] theorem Seq.setElem_estart (q : Seq) (b e : Nat) (v : DWord) : (q.setElem b e v).estart = q.estart := rfl
@[simp] theorem Seq.setElem_vtype (q : Seq) (b e : Nat) (v : DWord) : (q.setElem b e v).vtype = q.vtype := rfl
@[simp] theorem Seq.setElem_vl (q : Seq) (b e : Nat) (v : DWord) : (q.setElem b e v).vl = q.vl := rfl
@[simp] theorem Seq.setElem_mvl (q : Seq) (b e : Nat) (v : DWord) : (q.setElem b e v).mvl = q.mvl := rfl
@[simp] theorem Seq.setElem_fsr (q : Seq) (b e : Nat) (v : DWord) : (q.setElem b e v).fsr = q.fsr := rfl
@[simp] theorem Seq.setElem_gens (q : Seq) (b e : Nat) (v : DWord) : (q.setElem b e v).gens = q.gens := rfl
@[simp] theorem Seq.setElem_bfd (q : Seq) (b e : Nat) (v : DWord) : (q.setElem b e v).bfd = q.bfd := rfl
@[simp] theorem Seq.setElem_halo (q : Seq) (b e : Nat) (v : DWord) : (q.setElem b e v).halo = q.halo := rfl
@[simp] theorem Seq.setElem_haloCopy (q : Seq) (b e : Nat) (v : DWord) : (q.setElem b e v).haloCopy = q.haloCopy := rfl
@[simp] theorem Seq.setElem_wid (q : Seq) (b e : Nat) (v : DWord) : (q.setElem b e v).wid = q.wid := rfl
@[simp] theorem Seq.setElem_widfmt (q : Seq) (b e : Nat) (v : DWord) : (q.setElem b e v).widfmt = q.widfmt := rfl
@[simp] theorem Seq.setElem_ctxtag (q : Seq) (b e : Nat) (v : DWord) : (q.setElem b e v).ctxtag = q.ctxtag := rfl
@[simp] theorem Seq.setElem_tcause (q : Seq) (b e : Nat) (v : DWord) : (q.setElem b e v).tcause = q.tcause := rfl
@[simp] theorem Seq.setElem_tval (q : Seq) (b e : Nat) (v : DWord) : (q.setElem b e v).tval = q.tval := rfl
@[simp] theorem Seq.setElem_tpc (q : Seq) (b e : Nat) (v : DWord) : (q.setElem b e v).tpc = q.tpc := rfl
@[simp] theorem Seq.setElem_tstat (q : Seq) (b e : Nat) (v : DWord) : (q.setElem b e v).tstat = q.tstat := rfl
@[simp] theorem Seq.setElem_tvec (q : Seq) (b e : Nat) (v : DWord) : (q.setElem b e v).tvec = q.tvec := rfl
@[simp] theorem Seq.setElem_tsave (q : Seq) (b e : Nat) (v : DWord) : (q.setElem b e v).tsave = q.tsave := rfl
@[simp] theorem Seq.setElem_xlroot (q : Seq) (b e : Nat) (v : DWord) : (q.setElem b e v).xlroot = q.xlroot := rfl
@[simp] theorem Seq.setElem_asid (q : Seq) (b e : Nat) (v : DWord) : (q.setElem b e v).asid = q.asid := rfl
@[simp] theorem Seq.setElem_evq (q : Seq) (b e : Nat) (v : DWord) : (q.setElem b e v).evq = q.evq := rfl
@[simp] theorem Seq.setElem_resvid (q : Seq) (b e : Nat) (v : DWord) : (q.setElem b e v).resvid = q.resvid := rfl
@[simp] theorem Seq.setElem_mtcfg (q : Seq) (b e : Nat) (v : DWord) : (q.setElem b e v).mtcfg = q.mtcfg := rfl
@[simp] theorem Seq.setElem_tcfg (q : Seq) (b e : Nat) (v : DWord) : (q.setElem b e v).tcfg = q.tcfg := rfl
@[simp] theorem Seq.setElem_queues (q : Seq) (b e : Nat) (v : DWord) : (q.setElem b e v).queues = q.queues := rfl
@[simp] theorem Seq.setElem_bars (q : Seq) (b e : Nat) (v : DWord) : (q.setElem b e v).bars = q.bars := rfl
@[simp] theorem Seq.setElem_unitTlb (q : Seq) (b e : Nat) (v : DWord) : (q.setElem b e v).unitTlb = q.unitTlb := rfl
@[simp] theorem Seq.setElem_outst (q : Seq) (b e : Nat) (v : DWord) : (q.setElem b e v).outst = q.outst := rfl
@[simp] theorem Seq.setElem_launch (q : Seq) (b e : Nat) (v : DWord) : (q.setElem b e v).launch = q.launch := rfl
@[simp] theorem Seq.setElem_work (q : Seq) (b e : Nat) (v : DWord) : (q.setElem b e v).work = q.work := rfl
@[simp] theorem Seq.setElem_stage (q : Seq) (b e : Nat) (v : DWord) : (q.setElem b e v).stage = q.stage := rfl
@[simp] theorem Seq.setElem_group (q : Seq) (b e : Nat) (v : DWord) : (q.setElem b e v).group = q.group := rfl
@[simp] theorem Seq.setElem_tenant (q : Seq) (b e : Nat) (v : DWord) : (q.setElem b e v).tenant = q.tenant := rfl
@[simp] theorem Seq.setElem_parent (q : Seq) (b e : Nat) (v : DWord) : (q.setElem b e v).parent = q.parent := rfl
@[simp] theorem Seq.setElem_children (q : Seq) (b e : Nat) (v : DWord) : (q.setElem b e v).children = q.children := rfl
@[simp] theorem Seq.setElem_wait (q : Seq) (b e : Nat) (v : DWord) : (q.setElem b e v).wait = q.wait := rfl
@[simp] theorem Seq.setElem_mstop (q : Seq) (b e : Nat) (v : DWord) : (q.setElem b e v).mstop = q.mstop := rfl
@[simp] theorem Seq.setElem_atStop (q : Seq) (b e : Nat) (v : DWord) : (q.setElem b e v).atStop = q.atStop := rfl
@[simp] theorem Seq.setElem_dead (q : Seq) (b e : Nat) (v : DWord) : (q.setElem b e v).dead = q.dead := rfl
@[simp] theorem Seq.setElem_hostAns (q : Seq) (b e : Nat) (v : DWord) : (q.setElem b e v).hostAns = q.hostAns := rfl
@[simp] theorem Seq.setElem_partWay (q : Seq) (b e : Nat) (v : DWord) : (q.setElem b e v).partWay = q.partWay := rfl
@[simp] theorem Seq.setElem_preempt (q : Seq) (b e : Nat) (v : DWord) : (q.setElem b e v).preempt = q.preempt := rfl
@[simp] theorem Seq.setScalar_phase (q : Seq) (r : Reg) (v : DWord) : (q.setScalar r v).phase = q.phase := by unfold Seq.setScalar; split <;> rfl
@[simp] theorem Seq.setScalar_uid (q : Seq) (r : Reg) (v : DWord) : (q.setScalar r v).uid = q.uid := by unfold Seq.setScalar; split <;> rfl
@[simp] theorem Seq.setScalar_pc (q : Seq) (r : Reg) (v : DWord) : (q.setScalar r v).pc = q.pc := by unfold Seq.setScalar; split <;> rfl
@[simp] theorem Seq.setScalar_line (q : Seq) (r : Reg) (v : DWord) : (q.setScalar r v).line = q.line := by unfold Seq.setScalar; split <;> rfl
@[simp] theorem Seq.setScalar_cameFrom (q : Seq) (r : Reg) (v : DWord) : (q.setScalar r v).cameFrom = q.cameFrom := by unfold Seq.setScalar; split <;> rfl
@[simp] theorem Seq.setScalar_loops (q : Seq) (r : Reg) (v : DWord) : (q.setScalar r v).loops = q.loops := by unfold Seq.setScalar; split <;> rfl
@[simp] theorem Seq.setScalar_slen (q : Seq) (r : Reg) (v : DWord) : (q.setScalar r v).slen = q.slen := by unfold Seq.setScalar; split <;> rfl
@[simp] theorem Seq.setScalar_sEmpty (q : Seq) (r : Reg) (v : DWord) : (q.setScalar r v).sEmpty = q.sEmpty := by unfold Seq.setScalar; split <;> rfl
@[simp] theorem Seq.setScalar_p (q : Seq) (r : Reg) (v : DWord) : (q.setScalar r v).p = q.p := by unfold Seq.setScalar; split <;> rfl
@[simp] theorem Seq.setScalar_bricks (q : Seq) (r : Reg) (v : DWord) : (q.setScalar r v).bricks = q.bricks := by unfold Seq.setScalar; split <;> rfl
@[simp] theorem Seq.setScalar_bEmpty (q : Seq) (r : Reg) (v : DWord) : (q.setScalar r v).bEmpty = q.bEmpty := by unfold Seq.setScalar; split <;> rfl
@[simp] theorem Seq.setScalar_pend (q : Seq) (r : Reg) (v : DWord) : (q.setScalar r v).pend = q.pend := by unfold Seq.setScalar; split <;> rfl
@[simp] theorem Seq.setScalar_masks (q : Seq) (r : Reg) (v : DWord) : (q.setScalar r v).masks = q.masks := by unfold Seq.setScalar; split <;> rfl
@[simp] theorem Seq.setScalar_estart (q : Seq) (r : Reg) (v : DWord) : (q.setScalar r v).estart = q.estart := by unfold Seq.setScalar; split <;> rfl
@[simp] theorem Seq.setScalar_vtype (q : Seq) (r : Reg) (v : DWord) : (q.setScalar r v).vtype = q.vtype := by unfold Seq.setScalar; split <;> rfl
@[simp] theorem Seq.setScalar_vl (q : Seq) (r : Reg) (v : DWord) : (q.setScalar r v).vl = q.vl := by unfold Seq.setScalar; split <;> rfl
@[simp] theorem Seq.setScalar_mvl (q : Seq) (r : Reg) (v : DWord) : (q.setScalar r v).mvl = q.mvl := by unfold Seq.setScalar; split <;> rfl
@[simp] theorem Seq.setScalar_fsr (q : Seq) (r : Reg) (v : DWord) : (q.setScalar r v).fsr = q.fsr := by unfold Seq.setScalar; split <;> rfl
@[simp] theorem Seq.setScalar_gens (q : Seq) (r : Reg) (v : DWord) : (q.setScalar r v).gens = q.gens := by unfold Seq.setScalar; split <;> rfl
@[simp] theorem Seq.setScalar_bfd (q : Seq) (r : Reg) (v : DWord) : (q.setScalar r v).bfd = q.bfd := by unfold Seq.setScalar; split <;> rfl
@[simp] theorem Seq.setScalar_halo (q : Seq) (r : Reg) (v : DWord) : (q.setScalar r v).halo = q.halo := by unfold Seq.setScalar; split <;> rfl
@[simp] theorem Seq.setScalar_haloCopy (q : Seq) (r : Reg) (v : DWord) : (q.setScalar r v).haloCopy = q.haloCopy := by unfold Seq.setScalar; split <;> rfl
@[simp] theorem Seq.setScalar_wid (q : Seq) (r : Reg) (v : DWord) : (q.setScalar r v).wid = q.wid := by unfold Seq.setScalar; split <;> rfl
@[simp] theorem Seq.setScalar_widfmt (q : Seq) (r : Reg) (v : DWord) : (q.setScalar r v).widfmt = q.widfmt := by unfold Seq.setScalar; split <;> rfl
@[simp] theorem Seq.setScalar_ctxtag (q : Seq) (r : Reg) (v : DWord) : (q.setScalar r v).ctxtag = q.ctxtag := by unfold Seq.setScalar; split <;> rfl
@[simp] theorem Seq.setScalar_tcause (q : Seq) (r : Reg) (v : DWord) : (q.setScalar r v).tcause = q.tcause := by unfold Seq.setScalar; split <;> rfl
@[simp] theorem Seq.setScalar_tval (q : Seq) (r : Reg) (v : DWord) : (q.setScalar r v).tval = q.tval := by unfold Seq.setScalar; split <;> rfl
@[simp] theorem Seq.setScalar_tpc (q : Seq) (r : Reg) (v : DWord) : (q.setScalar r v).tpc = q.tpc := by unfold Seq.setScalar; split <;> rfl
@[simp] theorem Seq.setScalar_tstat (q : Seq) (r : Reg) (v : DWord) : (q.setScalar r v).tstat = q.tstat := by unfold Seq.setScalar; split <;> rfl
@[simp] theorem Seq.setScalar_tvec (q : Seq) (r : Reg) (v : DWord) : (q.setScalar r v).tvec = q.tvec := by unfold Seq.setScalar; split <;> rfl
@[simp] theorem Seq.setScalar_tsave (q : Seq) (r : Reg) (v : DWord) : (q.setScalar r v).tsave = q.tsave := by unfold Seq.setScalar; split <;> rfl
@[simp] theorem Seq.setScalar_xlroot (q : Seq) (r : Reg) (v : DWord) : (q.setScalar r v).xlroot = q.xlroot := by unfold Seq.setScalar; split <;> rfl
@[simp] theorem Seq.setScalar_asid (q : Seq) (r : Reg) (v : DWord) : (q.setScalar r v).asid = q.asid := by unfold Seq.setScalar; split <;> rfl
@[simp] theorem Seq.setScalar_evq (q : Seq) (r : Reg) (v : DWord) : (q.setScalar r v).evq = q.evq := by unfold Seq.setScalar; split <;> rfl
@[simp] theorem Seq.setScalar_resvid (q : Seq) (r : Reg) (v : DWord) : (q.setScalar r v).resvid = q.resvid := by unfold Seq.setScalar; split <;> rfl
@[simp] theorem Seq.setScalar_mtcfg (q : Seq) (r : Reg) (v : DWord) : (q.setScalar r v).mtcfg = q.mtcfg := by unfold Seq.setScalar; split <;> rfl
@[simp] theorem Seq.setScalar_tcfg (q : Seq) (r : Reg) (v : DWord) : (q.setScalar r v).tcfg = q.tcfg := by unfold Seq.setScalar; split <;> rfl
@[simp] theorem Seq.setScalar_queues (q : Seq) (r : Reg) (v : DWord) : (q.setScalar r v).queues = q.queues := by unfold Seq.setScalar; split <;> rfl
@[simp] theorem Seq.setScalar_bars (q : Seq) (r : Reg) (v : DWord) : (q.setScalar r v).bars = q.bars := by unfold Seq.setScalar; split <;> rfl
@[simp] theorem Seq.setScalar_unitTlb (q : Seq) (r : Reg) (v : DWord) : (q.setScalar r v).unitTlb = q.unitTlb := by unfold Seq.setScalar; split <;> rfl
@[simp] theorem Seq.setScalar_outst (q : Seq) (r : Reg) (v : DWord) : (q.setScalar r v).outst = q.outst := by unfold Seq.setScalar; split <;> rfl
@[simp] theorem Seq.setScalar_launch (q : Seq) (r : Reg) (v : DWord) : (q.setScalar r v).launch = q.launch := by unfold Seq.setScalar; split <;> rfl
@[simp] theorem Seq.setScalar_work (q : Seq) (r : Reg) (v : DWord) : (q.setScalar r v).work = q.work := by unfold Seq.setScalar; split <;> rfl
@[simp] theorem Seq.setScalar_stage (q : Seq) (r : Reg) (v : DWord) : (q.setScalar r v).stage = q.stage := by unfold Seq.setScalar; split <;> rfl
@[simp] theorem Seq.setScalar_group (q : Seq) (r : Reg) (v : DWord) : (q.setScalar r v).group = q.group := by unfold Seq.setScalar; split <;> rfl
@[simp] theorem Seq.setScalar_tenant (q : Seq) (r : Reg) (v : DWord) : (q.setScalar r v).tenant = q.tenant := by unfold Seq.setScalar; split <;> rfl
@[simp] theorem Seq.setScalar_parent (q : Seq) (r : Reg) (v : DWord) : (q.setScalar r v).parent = q.parent := by unfold Seq.setScalar; split <;> rfl
@[simp] theorem Seq.setScalar_children (q : Seq) (r : Reg) (v : DWord) : (q.setScalar r v).children = q.children := by unfold Seq.setScalar; split <;> rfl
@[simp] theorem Seq.setScalar_wait (q : Seq) (r : Reg) (v : DWord) : (q.setScalar r v).wait = q.wait := by unfold Seq.setScalar; split <;> rfl
@[simp] theorem Seq.setScalar_mstop (q : Seq) (r : Reg) (v : DWord) : (q.setScalar r v).mstop = q.mstop := by unfold Seq.setScalar; split <;> rfl
@[simp] theorem Seq.setScalar_atStop (q : Seq) (r : Reg) (v : DWord) : (q.setScalar r v).atStop = q.atStop := by unfold Seq.setScalar; split <;> rfl
@[simp] theorem Seq.setScalar_dead (q : Seq) (r : Reg) (v : DWord) : (q.setScalar r v).dead = q.dead := by unfold Seq.setScalar; split <;> rfl
@[simp] theorem Seq.setScalar_hostAns (q : Seq) (r : Reg) (v : DWord) : (q.setScalar r v).hostAns = q.hostAns := by unfold Seq.setScalar; split <;> rfl
@[simp] theorem Seq.setScalar_partWay (q : Seq) (r : Reg) (v : DWord) : (q.setScalar r v).partWay = q.partWay := by unfold Seq.setScalar; split <;> rfl
@[simp] theorem Seq.setScalar_preempt (q : Seq) (r : Reg) (v : DWord) : (q.setScalar r v).preempt = q.preempt := by unfold Seq.setScalar; split <;> rfl
@[simp] theorem Seq.setPred_phase (q : Seq) (i : Nat) (v : Bool) : (q.setPred i v).phase = q.phase := by unfold Seq.setPred; split <;> rfl
@[simp] theorem Seq.setPred_uid (q : Seq) (i : Nat) (v : Bool) : (q.setPred i v).uid = q.uid := by unfold Seq.setPred; split <;> rfl
@[simp] theorem Seq.setPred_pc (q : Seq) (i : Nat) (v : Bool) : (q.setPred i v).pc = q.pc := by unfold Seq.setPred; split <;> rfl
@[simp] theorem Seq.setPred_line (q : Seq) (i : Nat) (v : Bool) : (q.setPred i v).line = q.line := by unfold Seq.setPred; split <;> rfl
@[simp] theorem Seq.setPred_cameFrom (q : Seq) (i : Nat) (v : Bool) : (q.setPred i v).cameFrom = q.cameFrom := by unfold Seq.setPred; split <;> rfl
@[simp] theorem Seq.setPred_loops (q : Seq) (i : Nat) (v : Bool) : (q.setPred i v).loops = q.loops := by unfold Seq.setPred; split <;> rfl
@[simp] theorem Seq.setPred_slen (q : Seq) (i : Nat) (v : Bool) : (q.setPred i v).slen = q.slen := by unfold Seq.setPred; split <;> rfl
@[simp] theorem Seq.setPred_s (q : Seq) (i : Nat) (v : Bool) : (q.setPred i v).s = q.s := by unfold Seq.setPred; split <;> rfl
@[simp] theorem Seq.setPred_sEmpty (q : Seq) (i : Nat) (v : Bool) : (q.setPred i v).sEmpty = q.sEmpty := by unfold Seq.setPred; split <;> rfl
@[simp] theorem Seq.setPred_bricks (q : Seq) (i : Nat) (v : Bool) : (q.setPred i v).bricks = q.bricks := by unfold Seq.setPred; split <;> rfl
@[simp] theorem Seq.setPred_bEmpty (q : Seq) (i : Nat) (v : Bool) : (q.setPred i v).bEmpty = q.bEmpty := by unfold Seq.setPred; split <;> rfl
@[simp] theorem Seq.setPred_pend (q : Seq) (i : Nat) (v : Bool) : (q.setPred i v).pend = q.pend := by unfold Seq.setPred; split <;> rfl
@[simp] theorem Seq.setPred_masks (q : Seq) (i : Nat) (v : Bool) : (q.setPred i v).masks = q.masks := by unfold Seq.setPred; split <;> rfl
@[simp] theorem Seq.setPred_estart (q : Seq) (i : Nat) (v : Bool) : (q.setPred i v).estart = q.estart := by unfold Seq.setPred; split <;> rfl
@[simp] theorem Seq.setPred_vtype (q : Seq) (i : Nat) (v : Bool) : (q.setPred i v).vtype = q.vtype := by unfold Seq.setPred; split <;> rfl
@[simp] theorem Seq.setPred_vl (q : Seq) (i : Nat) (v : Bool) : (q.setPred i v).vl = q.vl := by unfold Seq.setPred; split <;> rfl
@[simp] theorem Seq.setPred_mvl (q : Seq) (i : Nat) (v : Bool) : (q.setPred i v).mvl = q.mvl := by unfold Seq.setPred; split <;> rfl
@[simp] theorem Seq.setPred_fsr (q : Seq) (i : Nat) (v : Bool) : (q.setPred i v).fsr = q.fsr := by unfold Seq.setPred; split <;> rfl
@[simp] theorem Seq.setPred_gens (q : Seq) (i : Nat) (v : Bool) : (q.setPred i v).gens = q.gens := by unfold Seq.setPred; split <;> rfl
@[simp] theorem Seq.setPred_bfd (q : Seq) (i : Nat) (v : Bool) : (q.setPred i v).bfd = q.bfd := by unfold Seq.setPred; split <;> rfl
@[simp] theorem Seq.setPred_halo (q : Seq) (i : Nat) (v : Bool) : (q.setPred i v).halo = q.halo := by unfold Seq.setPred; split <;> rfl
@[simp] theorem Seq.setPred_haloCopy (q : Seq) (i : Nat) (v : Bool) : (q.setPred i v).haloCopy = q.haloCopy := by unfold Seq.setPred; split <;> rfl
@[simp] theorem Seq.setPred_wid (q : Seq) (i : Nat) (v : Bool) : (q.setPred i v).wid = q.wid := by unfold Seq.setPred; split <;> rfl
@[simp] theorem Seq.setPred_widfmt (q : Seq) (i : Nat) (v : Bool) : (q.setPred i v).widfmt = q.widfmt := by unfold Seq.setPred; split <;> rfl
@[simp] theorem Seq.setPred_ctxtag (q : Seq) (i : Nat) (v : Bool) : (q.setPred i v).ctxtag = q.ctxtag := by unfold Seq.setPred; split <;> rfl
@[simp] theorem Seq.setPred_tcause (q : Seq) (i : Nat) (v : Bool) : (q.setPred i v).tcause = q.tcause := by unfold Seq.setPred; split <;> rfl
@[simp] theorem Seq.setPred_tval (q : Seq) (i : Nat) (v : Bool) : (q.setPred i v).tval = q.tval := by unfold Seq.setPred; split <;> rfl
@[simp] theorem Seq.setPred_tpc (q : Seq) (i : Nat) (v : Bool) : (q.setPred i v).tpc = q.tpc := by unfold Seq.setPred; split <;> rfl
@[simp] theorem Seq.setPred_tstat (q : Seq) (i : Nat) (v : Bool) : (q.setPred i v).tstat = q.tstat := by unfold Seq.setPred; split <;> rfl
@[simp] theorem Seq.setPred_tvec (q : Seq) (i : Nat) (v : Bool) : (q.setPred i v).tvec = q.tvec := by unfold Seq.setPred; split <;> rfl
@[simp] theorem Seq.setPred_tsave (q : Seq) (i : Nat) (v : Bool) : (q.setPred i v).tsave = q.tsave := by unfold Seq.setPred; split <;> rfl
@[simp] theorem Seq.setPred_xlroot (q : Seq) (i : Nat) (v : Bool) : (q.setPred i v).xlroot = q.xlroot := by unfold Seq.setPred; split <;> rfl
@[simp] theorem Seq.setPred_asid (q : Seq) (i : Nat) (v : Bool) : (q.setPred i v).asid = q.asid := by unfold Seq.setPred; split <;> rfl
@[simp] theorem Seq.setPred_evq (q : Seq) (i : Nat) (v : Bool) : (q.setPred i v).evq = q.evq := by unfold Seq.setPred; split <;> rfl
@[simp] theorem Seq.setPred_resvid (q : Seq) (i : Nat) (v : Bool) : (q.setPred i v).resvid = q.resvid := by unfold Seq.setPred; split <;> rfl
@[simp] theorem Seq.setPred_mtcfg (q : Seq) (i : Nat) (v : Bool) : (q.setPred i v).mtcfg = q.mtcfg := by unfold Seq.setPred; split <;> rfl
@[simp] theorem Seq.setPred_tcfg (q : Seq) (i : Nat) (v : Bool) : (q.setPred i v).tcfg = q.tcfg := by unfold Seq.setPred; split <;> rfl
@[simp] theorem Seq.setPred_queues (q : Seq) (i : Nat) (v : Bool) : (q.setPred i v).queues = q.queues := by unfold Seq.setPred; split <;> rfl
@[simp] theorem Seq.setPred_bars (q : Seq) (i : Nat) (v : Bool) : (q.setPred i v).bars = q.bars := by unfold Seq.setPred; split <;> rfl
@[simp] theorem Seq.setPred_unitTlb (q : Seq) (i : Nat) (v : Bool) : (q.setPred i v).unitTlb = q.unitTlb := by unfold Seq.setPred; split <;> rfl
@[simp] theorem Seq.setPred_outst (q : Seq) (i : Nat) (v : Bool) : (q.setPred i v).outst = q.outst := by unfold Seq.setPred; split <;> rfl
@[simp] theorem Seq.setPred_launch (q : Seq) (i : Nat) (v : Bool) : (q.setPred i v).launch = q.launch := by unfold Seq.setPred; split <;> rfl
@[simp] theorem Seq.setPred_work (q : Seq) (i : Nat) (v : Bool) : (q.setPred i v).work = q.work := by unfold Seq.setPred; split <;> rfl
@[simp] theorem Seq.setPred_stage (q : Seq) (i : Nat) (v : Bool) : (q.setPred i v).stage = q.stage := by unfold Seq.setPred; split <;> rfl
@[simp] theorem Seq.setPred_group (q : Seq) (i : Nat) (v : Bool) : (q.setPred i v).group = q.group := by unfold Seq.setPred; split <;> rfl
@[simp] theorem Seq.setPred_tenant (q : Seq) (i : Nat) (v : Bool) : (q.setPred i v).tenant = q.tenant := by unfold Seq.setPred; split <;> rfl
@[simp] theorem Seq.setPred_parent (q : Seq) (i : Nat) (v : Bool) : (q.setPred i v).parent = q.parent := by unfold Seq.setPred; split <;> rfl
@[simp] theorem Seq.setPred_children (q : Seq) (i : Nat) (v : Bool) : (q.setPred i v).children = q.children := by unfold Seq.setPred; split <;> rfl
@[simp] theorem Seq.setPred_wait (q : Seq) (i : Nat) (v : Bool) : (q.setPred i v).wait = q.wait := by unfold Seq.setPred; split <;> rfl
@[simp] theorem Seq.setPred_mstop (q : Seq) (i : Nat) (v : Bool) : (q.setPred i v).mstop = q.mstop := by unfold Seq.setPred; split <;> rfl
@[simp] theorem Seq.setPred_atStop (q : Seq) (i : Nat) (v : Bool) : (q.setPred i v).atStop = q.atStop := by unfold Seq.setPred; split <;> rfl
@[simp] theorem Seq.setPred_dead (q : Seq) (i : Nat) (v : Bool) : (q.setPred i v).dead = q.dead := by unfold Seq.setPred; split <;> rfl
@[simp] theorem Seq.setPred_hostAns (q : Seq) (i : Nat) (v : Bool) : (q.setPred i v).hostAns = q.hostAns := by unfold Seq.setPred; split <;> rfl
@[simp] theorem Seq.setPred_partWay (q : Seq) (i : Nat) (v : Bool) : (q.setPred i v).partWay = q.partWay := by unfold Seq.setPred; split <;> rfl
@[simp] theorem Seq.setPred_preempt (q : Seq) (i : Nat) (v : Bool) : (q.setPred i v).preempt = q.preempt := by unfold Seq.setPred; split <;> rfl
@[simp] theorem Seq.setMask_phase (q : Seq) (i : Nat) (v : BitVec 8192) : (q.setMask i v).phase = q.phase := by unfold Seq.setMask; split <;> rfl
@[simp] theorem Seq.setMask_uid (q : Seq) (i : Nat) (v : BitVec 8192) : (q.setMask i v).uid = q.uid := by unfold Seq.setMask; split <;> rfl
@[simp] theorem Seq.setMask_pc (q : Seq) (i : Nat) (v : BitVec 8192) : (q.setMask i v).pc = q.pc := by unfold Seq.setMask; split <;> rfl
@[simp] theorem Seq.setMask_line (q : Seq) (i : Nat) (v : BitVec 8192) : (q.setMask i v).line = q.line := by unfold Seq.setMask; split <;> rfl
@[simp] theorem Seq.setMask_cameFrom (q : Seq) (i : Nat) (v : BitVec 8192) : (q.setMask i v).cameFrom = q.cameFrom := by unfold Seq.setMask; split <;> rfl
@[simp] theorem Seq.setMask_loops (q : Seq) (i : Nat) (v : BitVec 8192) : (q.setMask i v).loops = q.loops := by unfold Seq.setMask; split <;> rfl
@[simp] theorem Seq.setMask_slen (q : Seq) (i : Nat) (v : BitVec 8192) : (q.setMask i v).slen = q.slen := by unfold Seq.setMask; split <;> rfl
@[simp] theorem Seq.setMask_s (q : Seq) (i : Nat) (v : BitVec 8192) : (q.setMask i v).s = q.s := by unfold Seq.setMask; split <;> rfl
@[simp] theorem Seq.setMask_sEmpty (q : Seq) (i : Nat) (v : BitVec 8192) : (q.setMask i v).sEmpty = q.sEmpty := by unfold Seq.setMask; split <;> rfl
@[simp] theorem Seq.setMask_p (q : Seq) (i : Nat) (v : BitVec 8192) : (q.setMask i v).p = q.p := by unfold Seq.setMask; split <;> rfl
@[simp] theorem Seq.setMask_bricks (q : Seq) (i : Nat) (v : BitVec 8192) : (q.setMask i v).bricks = q.bricks := by unfold Seq.setMask; split <;> rfl
@[simp] theorem Seq.setMask_bEmpty (q : Seq) (i : Nat) (v : BitVec 8192) : (q.setMask i v).bEmpty = q.bEmpty := by unfold Seq.setMask; split <;> rfl
@[simp] theorem Seq.setMask_pend (q : Seq) (i : Nat) (v : BitVec 8192) : (q.setMask i v).pend = q.pend := by unfold Seq.setMask; split <;> rfl
@[simp] theorem Seq.setMask_estart (q : Seq) (i : Nat) (v : BitVec 8192) : (q.setMask i v).estart = q.estart := by unfold Seq.setMask; split <;> rfl
@[simp] theorem Seq.setMask_vtype (q : Seq) (i : Nat) (v : BitVec 8192) : (q.setMask i v).vtype = q.vtype := by unfold Seq.setMask; split <;> rfl
@[simp] theorem Seq.setMask_vl (q : Seq) (i : Nat) (v : BitVec 8192) : (q.setMask i v).vl = q.vl := by unfold Seq.setMask; split <;> rfl
@[simp] theorem Seq.setMask_mvl (q : Seq) (i : Nat) (v : BitVec 8192) : (q.setMask i v).mvl = q.mvl := by unfold Seq.setMask; split <;> rfl
@[simp] theorem Seq.setMask_fsr (q : Seq) (i : Nat) (v : BitVec 8192) : (q.setMask i v).fsr = q.fsr := by unfold Seq.setMask; split <;> rfl
@[simp] theorem Seq.setMask_gens (q : Seq) (i : Nat) (v : BitVec 8192) : (q.setMask i v).gens = q.gens := by unfold Seq.setMask; split <;> rfl
@[simp] theorem Seq.setMask_bfd (q : Seq) (i : Nat) (v : BitVec 8192) : (q.setMask i v).bfd = q.bfd := by unfold Seq.setMask; split <;> rfl
@[simp] theorem Seq.setMask_halo (q : Seq) (i : Nat) (v : BitVec 8192) : (q.setMask i v).halo = q.halo := by unfold Seq.setMask; split <;> rfl
@[simp] theorem Seq.setMask_haloCopy (q : Seq) (i : Nat) (v : BitVec 8192) : (q.setMask i v).haloCopy = q.haloCopy := by unfold Seq.setMask; split <;> rfl
@[simp] theorem Seq.setMask_wid (q : Seq) (i : Nat) (v : BitVec 8192) : (q.setMask i v).wid = q.wid := by unfold Seq.setMask; split <;> rfl
@[simp] theorem Seq.setMask_widfmt (q : Seq) (i : Nat) (v : BitVec 8192) : (q.setMask i v).widfmt = q.widfmt := by unfold Seq.setMask; split <;> rfl
@[simp] theorem Seq.setMask_ctxtag (q : Seq) (i : Nat) (v : BitVec 8192) : (q.setMask i v).ctxtag = q.ctxtag := by unfold Seq.setMask; split <;> rfl
@[simp] theorem Seq.setMask_tcause (q : Seq) (i : Nat) (v : BitVec 8192) : (q.setMask i v).tcause = q.tcause := by unfold Seq.setMask; split <;> rfl
@[simp] theorem Seq.setMask_tval (q : Seq) (i : Nat) (v : BitVec 8192) : (q.setMask i v).tval = q.tval := by unfold Seq.setMask; split <;> rfl
@[simp] theorem Seq.setMask_tpc (q : Seq) (i : Nat) (v : BitVec 8192) : (q.setMask i v).tpc = q.tpc := by unfold Seq.setMask; split <;> rfl
@[simp] theorem Seq.setMask_tstat (q : Seq) (i : Nat) (v : BitVec 8192) : (q.setMask i v).tstat = q.tstat := by unfold Seq.setMask; split <;> rfl
@[simp] theorem Seq.setMask_tvec (q : Seq) (i : Nat) (v : BitVec 8192) : (q.setMask i v).tvec = q.tvec := by unfold Seq.setMask; split <;> rfl
@[simp] theorem Seq.setMask_tsave (q : Seq) (i : Nat) (v : BitVec 8192) : (q.setMask i v).tsave = q.tsave := by unfold Seq.setMask; split <;> rfl
@[simp] theorem Seq.setMask_xlroot (q : Seq) (i : Nat) (v : BitVec 8192) : (q.setMask i v).xlroot = q.xlroot := by unfold Seq.setMask; split <;> rfl
@[simp] theorem Seq.setMask_asid (q : Seq) (i : Nat) (v : BitVec 8192) : (q.setMask i v).asid = q.asid := by unfold Seq.setMask; split <;> rfl
@[simp] theorem Seq.setMask_evq (q : Seq) (i : Nat) (v : BitVec 8192) : (q.setMask i v).evq = q.evq := by unfold Seq.setMask; split <;> rfl
@[simp] theorem Seq.setMask_resvid (q : Seq) (i : Nat) (v : BitVec 8192) : (q.setMask i v).resvid = q.resvid := by unfold Seq.setMask; split <;> rfl
@[simp] theorem Seq.setMask_mtcfg (q : Seq) (i : Nat) (v : BitVec 8192) : (q.setMask i v).mtcfg = q.mtcfg := by unfold Seq.setMask; split <;> rfl
@[simp] theorem Seq.setMask_tcfg (q : Seq) (i : Nat) (v : BitVec 8192) : (q.setMask i v).tcfg = q.tcfg := by unfold Seq.setMask; split <;> rfl
@[simp] theorem Seq.setMask_queues (q : Seq) (i : Nat) (v : BitVec 8192) : (q.setMask i v).queues = q.queues := by unfold Seq.setMask; split <;> rfl
@[simp] theorem Seq.setMask_bars (q : Seq) (i : Nat) (v : BitVec 8192) : (q.setMask i v).bars = q.bars := by unfold Seq.setMask; split <;> rfl
@[simp] theorem Seq.setMask_unitTlb (q : Seq) (i : Nat) (v : BitVec 8192) : (q.setMask i v).unitTlb = q.unitTlb := by unfold Seq.setMask; split <;> rfl
@[simp] theorem Seq.setMask_outst (q : Seq) (i : Nat) (v : BitVec 8192) : (q.setMask i v).outst = q.outst := by unfold Seq.setMask; split <;> rfl
@[simp] theorem Seq.setMask_launch (q : Seq) (i : Nat) (v : BitVec 8192) : (q.setMask i v).launch = q.launch := by unfold Seq.setMask; split <;> rfl
@[simp] theorem Seq.setMask_work (q : Seq) (i : Nat) (v : BitVec 8192) : (q.setMask i v).work = q.work := by unfold Seq.setMask; split <;> rfl
@[simp] theorem Seq.setMask_stage (q : Seq) (i : Nat) (v : BitVec 8192) : (q.setMask i v).stage = q.stage := by unfold Seq.setMask; split <;> rfl
@[simp] theorem Seq.setMask_group (q : Seq) (i : Nat) (v : BitVec 8192) : (q.setMask i v).group = q.group := by unfold Seq.setMask; split <;> rfl
@[simp] theorem Seq.setMask_tenant (q : Seq) (i : Nat) (v : BitVec 8192) : (q.setMask i v).tenant = q.tenant := by unfold Seq.setMask; split <;> rfl
@[simp] theorem Seq.setMask_parent (q : Seq) (i : Nat) (v : BitVec 8192) : (q.setMask i v).parent = q.parent := by unfold Seq.setMask; split <;> rfl
@[simp] theorem Seq.setMask_children (q : Seq) (i : Nat) (v : BitVec 8192) : (q.setMask i v).children = q.children := by unfold Seq.setMask; split <;> rfl
@[simp] theorem Seq.setMask_wait (q : Seq) (i : Nat) (v : BitVec 8192) : (q.setMask i v).wait = q.wait := by unfold Seq.setMask; split <;> rfl
@[simp] theorem Seq.setMask_mstop (q : Seq) (i : Nat) (v : BitVec 8192) : (q.setMask i v).mstop = q.mstop := by unfold Seq.setMask; split <;> rfl
@[simp] theorem Seq.setMask_atStop (q : Seq) (i : Nat) (v : BitVec 8192) : (q.setMask i v).atStop = q.atStop := by unfold Seq.setMask; split <;> rfl
@[simp] theorem Seq.setMask_dead (q : Seq) (i : Nat) (v : BitVec 8192) : (q.setMask i v).dead = q.dead := by unfold Seq.setMask; split <;> rfl
@[simp] theorem Seq.setMask_hostAns (q : Seq) (i : Nat) (v : BitVec 8192) : (q.setMask i v).hostAns = q.hostAns := by unfold Seq.setMask; split <;> rfl
@[simp] theorem Seq.setMask_partWay (q : Seq) (i : Nat) (v : BitVec 8192) : (q.setMask i v).partWay = q.partWay := by unfold Seq.setMask; split <;> rfl
@[simp] theorem Seq.setMask_preempt (q : Seq) (i : Nat) (v : BitVec 8192) : (q.setMask i v).preempt = q.preempt := by unfold Seq.setMask; split <;> rfl
@[simp] theorem Seq.advance_phase (q : Seq) : q.advance.phase = q.phase := by unfold Seq.advance; simp only []; split <;> rfl
@[simp] theorem Seq.advance_uid (q : Seq) : q.advance.uid = q.uid := by unfold Seq.advance; simp only []; split <;> rfl
@[simp] theorem Seq.advance_pc (q : Seq) : q.advance.pc = q.nextPc := by unfold Seq.advance; simp only []; split <;> rfl
@[simp] theorem Seq.advance_loops (q : Seq) : q.advance.loops = q.loops := by unfold Seq.advance; simp only []; split <;> rfl
@[simp] theorem Seq.advance_slen (q : Seq) : q.advance.slen = q.slen := by unfold Seq.advance; simp only []; split <;> rfl
@[simp] theorem Seq.advance_s (q : Seq) : q.advance.s = q.s := by unfold Seq.advance; simp only []; split <;> rfl
@[simp] theorem Seq.advance_sEmpty (q : Seq) : q.advance.sEmpty = q.sEmpty := by unfold Seq.advance; simp only []; split <;> rfl
@[simp] theorem Seq.advance_p (q : Seq) : q.advance.p = q.p := by unfold Seq.advance; simp only []; split <;> rfl
@[simp] theorem Seq.advance_bricks (q : Seq) : q.advance.bricks = q.bricks := by unfold Seq.advance; simp only []; split <;> rfl
@[simp] theorem Seq.advance_bEmpty (q : Seq) : q.advance.bEmpty = q.bEmpty := by unfold Seq.advance; simp only []; split <;> rfl
@[simp] theorem Seq.advance_pend (q : Seq) : q.advance.pend = q.pend := by unfold Seq.advance; simp only []; split <;> rfl
@[simp] theorem Seq.advance_masks (q : Seq) : q.advance.masks = q.masks := by unfold Seq.advance; simp only []; split <;> rfl
@[simp] theorem Seq.advance_estart (q : Seq) : q.advance.estart = q.estart := by unfold Seq.advance; simp only []; split <;> rfl
@[simp] theorem Seq.advance_vtype (q : Seq) : q.advance.vtype = q.vtype := by unfold Seq.advance; simp only []; split <;> rfl
@[simp] theorem Seq.advance_vl (q : Seq) : q.advance.vl = q.vl := by unfold Seq.advance; simp only []; split <;> rfl
@[simp] theorem Seq.advance_mvl (q : Seq) : q.advance.mvl = q.mvl := by unfold Seq.advance; simp only []; split <;> rfl
@[simp] theorem Seq.advance_fsr (q : Seq) : q.advance.fsr = q.fsr := by unfold Seq.advance; simp only []; split <;> rfl
@[simp] theorem Seq.advance_gens (q : Seq) : q.advance.gens = q.gens := by unfold Seq.advance; simp only []; split <;> rfl
@[simp] theorem Seq.advance_bfd (q : Seq) : q.advance.bfd = q.bfd := by unfold Seq.advance; simp only []; split <;> rfl
@[simp] theorem Seq.advance_halo (q : Seq) : q.advance.halo = q.halo := by unfold Seq.advance; simp only []; split <;> rfl
@[simp] theorem Seq.advance_haloCopy (q : Seq) : q.advance.haloCopy = q.haloCopy := by unfold Seq.advance; simp only []; split <;> rfl
@[simp] theorem Seq.advance_wid (q : Seq) : q.advance.wid = q.wid := by unfold Seq.advance; simp only []; split <;> rfl
@[simp] theorem Seq.advance_widfmt (q : Seq) : q.advance.widfmt = q.widfmt := by unfold Seq.advance; simp only []; split <;> rfl
@[simp] theorem Seq.advance_ctxtag (q : Seq) : q.advance.ctxtag = q.ctxtag := by unfold Seq.advance; simp only []; split <;> rfl
@[simp] theorem Seq.advance_tcause (q : Seq) : q.advance.tcause = q.tcause := by unfold Seq.advance; simp only []; split <;> rfl
@[simp] theorem Seq.advance_tval (q : Seq) : q.advance.tval = q.tval := by unfold Seq.advance; simp only []; split <;> rfl
@[simp] theorem Seq.advance_tpc (q : Seq) : q.advance.tpc = q.tpc := by unfold Seq.advance; simp only []; split <;> rfl
@[simp] theorem Seq.advance_tstat (q : Seq) : q.advance.tstat = q.tstat := by unfold Seq.advance; simp only []; split <;> rfl
@[simp] theorem Seq.advance_tvec (q : Seq) : q.advance.tvec = q.tvec := by unfold Seq.advance; simp only []; split <;> rfl
@[simp] theorem Seq.advance_tsave (q : Seq) : q.advance.tsave = q.tsave := by unfold Seq.advance; simp only []; split <;> rfl
@[simp] theorem Seq.advance_xlroot (q : Seq) : q.advance.xlroot = q.xlroot := by unfold Seq.advance; simp only []; split <;> rfl
@[simp] theorem Seq.advance_asid (q : Seq) : q.advance.asid = q.asid := by unfold Seq.advance; simp only []; split <;> rfl
@[simp] theorem Seq.advance_evq (q : Seq) : q.advance.evq = q.evq := by unfold Seq.advance; simp only []; split <;> rfl
@[simp] theorem Seq.advance_resvid (q : Seq) : q.advance.resvid = q.resvid := by unfold Seq.advance; simp only []; split <;> rfl
@[simp] theorem Seq.advance_mtcfg (q : Seq) : q.advance.mtcfg = q.mtcfg := by unfold Seq.advance; simp only []; split <;> rfl
@[simp] theorem Seq.advance_tcfg (q : Seq) : q.advance.tcfg = q.tcfg := by unfold Seq.advance; simp only []; split <;> rfl
@[simp] theorem Seq.advance_queues (q : Seq) : q.advance.queues = q.queues := by unfold Seq.advance; simp only []; split <;> rfl
@[simp] theorem Seq.advance_bars (q : Seq) : q.advance.bars = q.bars := by unfold Seq.advance; simp only []; split <;> rfl
@[simp] theorem Seq.advance_unitTlb (q : Seq) : q.advance.unitTlb = q.unitTlb := by unfold Seq.advance; simp only []; split <;> rfl
@[simp] theorem Seq.advance_outst (q : Seq) : q.advance.outst = q.outst := by unfold Seq.advance; simp only []; split <;> rfl
@[simp] theorem Seq.advance_launch (q : Seq) : q.advance.launch = q.launch := by unfold Seq.advance; simp only []; split <;> rfl
@[simp] theorem Seq.advance_work (q : Seq) : q.advance.work = q.work := by unfold Seq.advance; simp only []; split <;> rfl
@[simp] theorem Seq.advance_stage (q : Seq) : q.advance.stage = q.stage := by unfold Seq.advance; simp only []; split <;> rfl
@[simp] theorem Seq.advance_group (q : Seq) : q.advance.group = q.group := by unfold Seq.advance; simp only []; split <;> rfl
@[simp] theorem Seq.advance_tenant (q : Seq) : q.advance.tenant = q.tenant := by unfold Seq.advance; simp only []; split <;> rfl
@[simp] theorem Seq.advance_parent (q : Seq) : q.advance.parent = q.parent := by unfold Seq.advance; simp only []; split <;> rfl
@[simp] theorem Seq.advance_children (q : Seq) : q.advance.children = q.children := by unfold Seq.advance; simp only []; split <;> rfl
@[simp] theorem Seq.advance_wait (q : Seq) : q.advance.wait = none := by unfold Seq.advance; simp only []; split <;> rfl
@[simp] theorem Seq.advance_mstop (q : Seq) : q.advance.mstop = q.mstop := by unfold Seq.advance; simp only []; split <;> rfl
@[simp] theorem Seq.advance_atStop (q : Seq) : q.advance.atStop = false := by unfold Seq.advance; simp only []; split <;> rfl
@[simp] theorem Seq.advance_dead (q : Seq) : q.advance.dead = q.dead := by unfold Seq.advance; simp only []; split <;> rfl
@[simp] theorem Seq.advance_hostAns (q : Seq) : q.advance.hostAns = q.hostAns := by unfold Seq.advance; simp only []; split <;> rfl
@[simp] theorem Seq.advance_partWay (q : Seq) : q.advance.partWay = false := by unfold Seq.advance; simp only []; split <;> rfl
@[simp] theorem Seq.advance_preempt (q : Seq) : q.advance.preempt = q.preempt := by unfold Seq.advance; simp only []; split <;> rfl
@[simp] theorem Seq.transfer_phase (q : Seq) (t : Pc) : (q.transfer t).phase = q.phase := rfl
@[simp] theorem Seq.transfer_uid (q : Seq) (t : Pc) : (q.transfer t).uid = q.uid := rfl
@[simp] theorem Seq.transfer_pc (q : Seq) (t : Pc) : (q.transfer t).pc = t := rfl
@[simp] theorem Seq.transfer_line (q : Seq) (t : Pc) : (q.transfer t).line = none := rfl
@[simp] theorem Seq.transfer_cameFrom (q : Seq) (t : Pc) : (q.transfer t).cameFrom = some q.pc := rfl
@[simp] theorem Seq.transfer_loops (q : Seq) (t : Pc) : (q.transfer t).loops = q.loops := rfl
@[simp] theorem Seq.transfer_slen (q : Seq) (t : Pc) : (q.transfer t).slen = q.slen := rfl
@[simp] theorem Seq.transfer_s (q : Seq) (t : Pc) : (q.transfer t).s = q.s := rfl
@[simp] theorem Seq.transfer_sEmpty (q : Seq) (t : Pc) : (q.transfer t).sEmpty = q.sEmpty := rfl
@[simp] theorem Seq.transfer_p (q : Seq) (t : Pc) : (q.transfer t).p = q.p := rfl
@[simp] theorem Seq.transfer_bricks (q : Seq) (t : Pc) : (q.transfer t).bricks = q.bricks := rfl
@[simp] theorem Seq.transfer_bEmpty (q : Seq) (t : Pc) : (q.transfer t).bEmpty = q.bEmpty := rfl
@[simp] theorem Seq.transfer_pend (q : Seq) (t : Pc) : (q.transfer t).pend = q.pend := rfl
@[simp] theorem Seq.transfer_masks (q : Seq) (t : Pc) : (q.transfer t).masks = q.masks := rfl
@[simp] theorem Seq.transfer_estart (q : Seq) (t : Pc) : (q.transfer t).estart = q.estart := rfl
@[simp] theorem Seq.transfer_vtype (q : Seq) (t : Pc) : (q.transfer t).vtype = q.vtype := rfl
@[simp] theorem Seq.transfer_vl (q : Seq) (t : Pc) : (q.transfer t).vl = q.vl := rfl
@[simp] theorem Seq.transfer_mvl (q : Seq) (t : Pc) : (q.transfer t).mvl = q.mvl := rfl
@[simp] theorem Seq.transfer_fsr (q : Seq) (t : Pc) : (q.transfer t).fsr = q.fsr := rfl
@[simp] theorem Seq.transfer_gens (q : Seq) (t : Pc) : (q.transfer t).gens = q.gens := rfl
@[simp] theorem Seq.transfer_bfd (q : Seq) (t : Pc) : (q.transfer t).bfd = q.bfd := rfl
@[simp] theorem Seq.transfer_halo (q : Seq) (t : Pc) : (q.transfer t).halo = q.halo := rfl
@[simp] theorem Seq.transfer_haloCopy (q : Seq) (t : Pc) : (q.transfer t).haloCopy = q.haloCopy := rfl
@[simp] theorem Seq.transfer_wid (q : Seq) (t : Pc) : (q.transfer t).wid = q.wid := rfl
@[simp] theorem Seq.transfer_widfmt (q : Seq) (t : Pc) : (q.transfer t).widfmt = q.widfmt := rfl
@[simp] theorem Seq.transfer_ctxtag (q : Seq) (t : Pc) : (q.transfer t).ctxtag = q.ctxtag := rfl
@[simp] theorem Seq.transfer_tcause (q : Seq) (t : Pc) : (q.transfer t).tcause = q.tcause := rfl
@[simp] theorem Seq.transfer_tval (q : Seq) (t : Pc) : (q.transfer t).tval = q.tval := rfl
@[simp] theorem Seq.transfer_tpc (q : Seq) (t : Pc) : (q.transfer t).tpc = q.tpc := rfl
@[simp] theorem Seq.transfer_tstat (q : Seq) (t : Pc) : (q.transfer t).tstat = q.tstat := rfl
@[simp] theorem Seq.transfer_tvec (q : Seq) (t : Pc) : (q.transfer t).tvec = q.tvec := rfl
@[simp] theorem Seq.transfer_tsave (q : Seq) (t : Pc) : (q.transfer t).tsave = q.tsave := rfl
@[simp] theorem Seq.transfer_xlroot (q : Seq) (t : Pc) : (q.transfer t).xlroot = q.xlroot := rfl
@[simp] theorem Seq.transfer_asid (q : Seq) (t : Pc) : (q.transfer t).asid = q.asid := rfl
@[simp] theorem Seq.transfer_evq (q : Seq) (t : Pc) : (q.transfer t).evq = q.evq := rfl
@[simp] theorem Seq.transfer_resvid (q : Seq) (t : Pc) : (q.transfer t).resvid = q.resvid := rfl
@[simp] theorem Seq.transfer_mtcfg (q : Seq) (t : Pc) : (q.transfer t).mtcfg = q.mtcfg := rfl
@[simp] theorem Seq.transfer_tcfg (q : Seq) (t : Pc) : (q.transfer t).tcfg = q.tcfg := rfl
@[simp] theorem Seq.transfer_queues (q : Seq) (t : Pc) : (q.transfer t).queues = q.queues := rfl
@[simp] theorem Seq.transfer_bars (q : Seq) (t : Pc) : (q.transfer t).bars = q.bars := rfl
@[simp] theorem Seq.transfer_unitTlb (q : Seq) (t : Pc) : (q.transfer t).unitTlb = q.unitTlb := rfl
@[simp] theorem Seq.transfer_outst (q : Seq) (t : Pc) : (q.transfer t).outst = q.outst := rfl
@[simp] theorem Seq.transfer_launch (q : Seq) (t : Pc) : (q.transfer t).launch = q.launch := rfl
@[simp] theorem Seq.transfer_work (q : Seq) (t : Pc) : (q.transfer t).work = q.work := rfl
@[simp] theorem Seq.transfer_stage (q : Seq) (t : Pc) : (q.transfer t).stage = q.stage := rfl
@[simp] theorem Seq.transfer_group (q : Seq) (t : Pc) : (q.transfer t).group = q.group := rfl
@[simp] theorem Seq.transfer_tenant (q : Seq) (t : Pc) : (q.transfer t).tenant = q.tenant := rfl
@[simp] theorem Seq.transfer_parent (q : Seq) (t : Pc) : (q.transfer t).parent = q.parent := rfl
@[simp] theorem Seq.transfer_children (q : Seq) (t : Pc) : (q.transfer t).children = q.children := rfl
@[simp] theorem Seq.transfer_wait (q : Seq) (t : Pc) : (q.transfer t).wait = none := rfl
@[simp] theorem Seq.transfer_mstop (q : Seq) (t : Pc) : (q.transfer t).mstop = q.mstop := rfl
@[simp] theorem Seq.transfer_atStop (q : Seq) (t : Pc) : (q.transfer t).atStop = false := rfl
@[simp] theorem Seq.transfer_dead (q : Seq) (t : Pc) : (q.transfer t).dead = q.dead := rfl
@[simp] theorem Seq.transfer_hostAns (q : Seq) (t : Pc) : (q.transfer t).hostAns = q.hostAns := rfl
@[simp] theorem Seq.transfer_partWay (q : Seq) (t : Pc) : (q.transfer t).partWay = false := rfl
@[simp] theorem Seq.transfer_preempt (q : Seq) (t : Pc) : (q.transfer t).preempt = q.preempt := rfl

/-! Reads through updates. -/

@[simp] theorem State.seq_setSeq_self (s : State) (n : Nat) (q : Seq) : (s.setSeq n q).seq n = q := by simp [State.seq]

theorem State.seq_setSeq_of_ne (s : State) {n k : Nat} (q : Seq) (h : k ≠ n) : (s.setSeq n q).seq k = s.seq k := by
  simp [State.seq, NMap.getD_set_of_ne _ _ _ h]

@[simp] theorem State.core_setCore_self (s : State) (n : Nat) (c : Core) : (s.setCore n c).core n = c := by simp [State.core]

theorem State.core_setCore_of_ne (s : State) {n k : Nat} (c : Core) (h : k ≠ n) : (s.setCore n c).core k = s.core k := by
  simp [State.core, NMap.getD_set_of_ne _ _ _ h]

@[simp] theorem State.cluster_setCluster_self (s : State) (n : Nat) (c : Cluster) : (s.setCluster n c).cluster n = c := by
  simp [State.cluster]

@[simp] theorem State.die_setDie_self (s : State) (n : Nat) (d : Die) : (s.setDie n d).die n = d := by simp [State.die]

@[simp] theorem State.core_setSeq (s : State) (n k : Nat) (q : Seq) : (s.setSeq n q).core k = s.core k := rfl
@[simp] theorem State.die_setSeq (s : State) (n k : Nat) (q : Seq) : (s.setSeq n q).die k = s.die k := rfl
@[simp] theorem State.cluster_setSeq (s : State) (n k : Nat) (q : Seq) : (s.setSeq n q).cluster k = s.cluster k := rfl
@[simp] theorem State.seq_setCore (s : State) (n k : Nat) (c : Core) : (s.setCore n c).seq k = s.seq k := rfl
@[simp] theorem State.seq_setDie (s : State) (n k : Nat) (d : Die) : (s.setDie n d).seq k = s.seq k := rfl
@[simp] theorem State.seq_setCluster (s : State) (n k : Nat) (c : Cluster) : (s.setCluster n c).seq k = s.seq k := rfl
@[simp] theorem State.seq_tick (s : State) (k : Nat) : s.tick.seq k = s.seq k := rfl
@[simp] theorem State.core_tick (s : State) (k : Nat) : s.tick.core k = s.core k := rfl
@[simp] theorem State.die_tick (s : State) (k : Nat) : s.tick.die k = s.die k := rfl
@[simp] theorem State.cluster_tick (s : State) (k : Nat) : s.tick.cluster k = s.cluster k := rfl

/-- A scalar register reads what was written to it, but for s0, which reads zero (R31). -/
theorem Seq.scalar_setScalar_self (q : Seq) (r : Reg) (v : DWord) (h : r ≠ 0) : (q.setScalar r v).scalar r = v := by
  rw [Seq.scalar, if_neg h, Seq.setScalar, if_neg h]
  simp

@[simp] theorem Seq.scalar_zero (q : Seq) : q.scalar 0#6 = 0#64 := rfl

theorem Seq.scalar_setScalar_of_ne (q : Seq) {r k : Reg} (v : DWord) (h : k ≠ r) : (q.setScalar r v).scalar k = q.scalar k := by
  have hn : k.toNat ≠ r.toNat := fun e => h (BitVec.eq_of_toNat_eq e)
  by_cases hk : k = 0
  · simp [hk]
  · by_cases hr : r = 0
    · rw [Seq.setScalar, if_pos hr]
    · rw [Seq.scalar, if_neg hk, Seq.setScalar, if_neg hr, Seq.scalar, if_neg hk]
      exact NMap.getD_set_of_ne _ _ _ hn

theorem Seq.elem_setElem_self (q : Seq) (b e : Nat) (v : DWord) : (q.setElem b e v).elem b e = v := by simp [Seq.elem]

theorem Seq.elem_setElem_of_ne (q : Seq) {b e b' e' : Nat} (v : DWord) (h : 8192 * b' + e' ≠ 8192 * b + e) :
    (q.setElem b e v).elem b' e' = q.elem b' e' := by
  simp [Seq.elem, NMap.getD_set_of_ne _ _ _ h]

theorem Seq.mask_setMask_self (q : Seq) (i : Nat) (v : BitVec 8192) (h : i ≠ 0) : (q.setMask i v).mask i = v := by
  simp [Seq.mask, Seq.setMask, h]

theorem Seq.mask_setMask_of_ne (q : Seq) {i j : Nat} (v : BitVec 8192) (h : j ≠ i) : (q.setMask i v).mask j = q.mask j := by
  by_cases hj : j = 0
  · simp [Seq.mask, hj]
  · by_cases hi : i = 0
    · simp [Seq.setMask, hi]
    · simp [Seq.mask, Seq.setMask, hj, hi, NMap.getD_set_of_ne _ _ _ h]

end Sys2Proof.Machine
end

