-- ==== Sys2Proof/Laws/Ops.lean ====
section
/-! SUPPORT. The shared operations of a step, each with what it does when its operands are full, and what the end of a meaning
leaves. -/

namespace Sys2Proof.Machine

variable {α β : Type}

/-! Running. -/

theorem run_pure (a : α) (s : State) : (pure a : M α).run.run s = (.ok a, s) := rfl

theorem run_throw (st : Stop) (s : State) : (throw st : M α).run.run s = (.error st, s) := rfl

theorem run_bind (m : M α) (f : α → M β) (s : State) :
    (m >>= f).run.run s = match m.run.run s with
      | (.ok a, s') => (f a).run.run s'
      | (.error e, s') => (.error e, s') := by
  show (ExceptT.bind m f).run.run s = _
  simp only [ExceptT.bind, ExceptT.run, ExceptT.mk, StateT.run, bind, StateT.bind]
  generalize m s = x
  obtain ⟨r, s'⟩ := x
  cases r <;> rfl

theorem run_tryCatch (m : M α) (h : Stop → M α) (s : State) :
    (tryCatch m h).run.run s = match m.run.run s with
      | (.ok a, s') => (.ok a, s')
      | (.error e, s') => (h e).run.run s' := by
  show (ExceptT.tryCatch m h).run.run s = _
  simp only [ExceptT.tryCatch, ExceptT.run, ExceptT.mk, StateT.run, bind, StateT.bind]
  generalize m s = x
  obtain ⟨r, s'⟩ := x
  cases r <;> rfl

theorem Runs.pure (a : α) (s : State) : Runs (pure a) s a s := rfl

theorem Runs.bind {m : M α} {f : α → M β} {s s1 s2 : State} {a : α} {b : β} (h : Runs m s a s1) (k : Runs (f a) s1 b s2) :
    Runs (m >>= f) s b s2 := by
  unfold Runs at *
  rw [run_bind, h]
  exact k

theorem Runs.bindStop {m : M α} {f : α → M β} {s s1 s2 : State} {a : α} {st : Stop} (h : Runs m s a s1)
    (k : StopsWith (f a) s1 st s2) : StopsWith (m >>= f) s st s2 := by
  unfold Runs StopsWith at *
  rw [run_bind, h]
  exact k

theorem StopsWith.bind {m : M α} {f : α → M β} {s s1 : State} {st : Stop} (h : StopsWith m s st s1) :
    StopsWith (m >>= f) s st s1 := by
  unfold StopsWith at *
  rw [run_bind, h]

theorem Runs.get (s : State) : Runs (get : M State) s s s := rfl

theorem Runs.set (s t : State) : Runs (set t : M PUnit) s () t := rfl

theorem Runs.modify (f : State → State) (s : State) : Runs (modify f : M PUnit) s () (f s) := rfl

theorem Runs.me (s : State) : Runs me s s.cur s := rfl

theorem Runs.mySeq (s : State) : Runs mySeq s s.self s := rfl

theorem Runs.myCore (s : State) : Runs myCore s (s.core (coreOf s.cur)) s := rfl

theorem Runs.modMe (f : Seq → Seq) (s : State) : Runs (modMe f) s () (s.modSeq s.cur f) := rfl

theorem StopsWith.stopTrap (t : Trap) (s : State) : StopsWith (stopTrap t : M α) s (.trap t) s := rfl

theorem StopsWith.stopWait (w : Wait) (s : State) : StopsWith (stopWait w : M α) s (.wait w) s := rfl

theorem StopsWith.throw (st : Stop) (s : State) : StopsWith (throw st : M α) s st s := rfl

theorem Runs.ite {c : Prop} [Decidable c] {m k : M α} {s s' : State} {a : α} (h1 : c → Runs m s a s') (h2 : ¬c → Runs k s a s') :
    Runs (if c then m else k) s a s' := by
  split
  · exact h1 ‹_›
  · exact h2 ‹_›

/-! The end of a meaning. -/

theorem execSeq_ok {m : M Cont} {s s' : State} {k : Cont} (h : Runs m s k s') : execSeq m s = finishStep (.ok k) s' := by
  unfold Runs at h
  simp only [execSeq, h]

theorem execSeq_stop {m : M Cont} {s s' : State} {st : Stop} (h : StopsWith m s st s') : execSeq m s = finishStep (.error st) s' := by
  unfold StopsWith at h
  simp only [execSeq, h]

theorem execNext_ok {m : M Unit} {s s' : State} (h : Runs m s () s') :
    execNext m s = .next (s'.modSeq s'.cur Seq.advance).tick :=
  execSeq_ok (k := .next) (Runs.bind (f := fun _ => pure Cont.next) h (Runs.pure _ _))

theorem execNext_stop {m : M Unit} {s s' : State} {st : Stop} (h : StopsWith m s st s') :
    execNext m s = finishStep (.error st) s' := execSeq_stop (StopsWith.bind (f := fun _ => pure Cont.next) h)

theorem execNext_trap {m : M Unit} {s s' : State} {t : Trap} (h : StopsWith m s (.trap t) s') :
    execNext m s = .next (raiseTrap s'.cur t s').tick := execNext_stop h

theorem execAgent_ok {m : M Unit} {s s' : State} (h : Runs m s () s') : execAgent m s = .next s'.tick := by
  unfold Runs at h
  simp only [execAgent, h]

theorem execAgent_modify (f : State → State) (s : State) : execAgent (modify f) s = .next (f s).tick := rfl

/-- A meaning that runs to its end does so however it would wait. -/
theorem Runs.allOrWait {m : M α} {s s' : State} {a : α} (h : Runs m s a s') : Runs (allOrWait m) s a s' := by
  refine (Runs.get s).bind ?_
  unfold Runs at *
  rw [run_tryCatch, h]

/-- A trap on the way leaves what was done before it. -/
theorem StopsWith.allOrWait_trap {m : M α} {s s' : State} {t : Trap} (h : StopsWith m s (.trap t) s') :
    StopsWith (Machine.allOrWait m) s (.trap t) s' := by
  refine (Runs.get s).bindStop ?_
  unfold StopsWith at *
  rw [run_tryCatch, h]
  rfl

/-- A wait for anything but the host leaves nothing done but what a lender was asked for. -/
theorem StopsWith.allOrWait_wait {m : M α} {s s' : State} {w : Wait} (h : StopsWith m s (.wait w) s') (hw : ∀ op, w ≠ .host op) :
    StopsWith (Machine.allOrWait m) s (.wait w) { s with leaseReads := s'.leaseReads, relov := s'.relov } := by
  refine (Runs.get s).bindStop ?_
  unfold StopsWith at *
  rw [run_tryCatch, h]
  cases w <;> first | rfl | exact absurd rfl (hw _)

theorem execWhole_ok {m : M Unit} {s s' : State} (h : Runs m s () s') :
    execWhole m s = .next (s'.modSeq s'.cur Seq.advance).tick := execNext_ok h.allOrWait

theorem execWhole_trap {m : M Unit} {s s' : State} {t : Trap} (h : StopsWith m s (.trap t) s') :
    execWhole m s = .next (raiseTrap s'.cur t s').tick := execNext_trap h.allOrWait_trap

/-- An instruction that only changes its own sequencer. -/
theorem execNext_modMe {m : M Unit} {s : State} {f : Seq → Seq} (h : Runs m s () (s.modSeq s.cur f)) :
    execNext m s = .next (s.fell f) := by
  rw [execNext_ok h]
  simp only [State.fell, State.modSeq, State.setSeq_cur, State.seq_setSeq_self]
  congr 2
  simp only [State.setSeq, NMap.set_set]

/-- One that changes nothing. -/
theorem execNext_same {m : M Unit} {s : State} (h : Runs m s () s) : execNext m s = .next (s.fell id) := by
  rw [execNext_ok h]; rfl

/-! Registers. -/

theorem Runs.needFull {f : RegFile} {a : Src} {s : State} (h : s.full f a.reg) : Runs (needFull f a) s () s := by
  unfold State.full at h
  refine (Runs.mySeq s).bind ((Runs.get s).bind ?_)
  rw [if_neg (by simp [h])]
  exact Runs.pure _ _

theorem Runs.needWritable {f : RegFile} {r : Reg} {s : State} (h : s.full f r) : Runs (needWritable f r) s () s := Runs.needFull h

/-- An empty source with W set traps at once (R35). -/
theorem StopsWith.needFull_trap {f : RegFile} {a : Src} {s : State} (h : ¬s.full f a.reg) (hw : a.w = true) :
    StopsWith (needFull f a) s (.trap (emptySource f a.reg)) s := by
  unfold State.full at h
  refine (Runs.mySeq s).bindStop ((Runs.get s).bindStop ?_)
  rw [if_pos (by simpa using h), if_pos hw]
  exact StopsWith.stopTrap _ _

theorem Runs.readS {a : Src} {s : State} (h : s.full .scalar a.reg) : Runs (readS a) s (s.self.scalar a.reg) s :=
  (Runs.needFull h).bind ((Runs.mySeq s).bind (Runs.pure _ _))

theorem Runs.readReg {r : Reg} {s : State} (h : s.full .scalar r) : Runs (readReg r) s (s.self.scalar r) s := Runs.readS h

theorem Runs.writeS {r : Reg} {v : DWord} {s : State} (h : s.full .scalar r) :
    Runs (writeS r v) s () (s.modSeq s.cur (·.setScalar r v)) := (Runs.needWritable h).bind (Runs.modMe _ _)

theorem Runs.readP (i : Nat) (s : State) : Runs (readP i) s (s.self.pred i) s := rfl

theorem Runs.writeP (r : Reg) (v : Bool) (s : State) : Runs (writeP r v) s () (s.modSeq s.cur (·.setPred r.toNat v)) := rfl

theorem Runs.writeLong {r : Reg} {v : DWord} {s : State} (h : s.full .scalar r) :
    Runs (writeLong r v) s () (if r = 0 then s else s.modSeq s.cur (·.sentLong r v s.cycle)) := by
  refine (Runs.needWritable h).bind ?_
  show Runs (if r ≠ 0 then _ else Pure.pure ()) _ _ _
  by_cases h0 : r = 0
  · rw [if_neg (fun h => h h0), if_pos h0]; exact Runs.pure _ _
  · rw [if_pos h0, if_neg h0]
    refine (Runs.get s).bind ?_
    have : (fun q : Seq => { (q.setScalar r v).setEmpty .scalar r with outst := q.outst ++ [(.scalar, r, s.cycle)] }) =
        (·.sentLong r v s.cycle) := by
      funext q; rw [Seq.sentLong, if_neg h0]
    rw [← this]
    exact Runs.modMe _ _

theorem execSeq_goto {m : M Cont} {s : State} {f : Seq → Seq} {t : Pc} (h : Runs m s (.goto t) (s.modSeq s.cur f)) :
    execSeq m s = .next (s.jumped f t) := by
  rw [execSeq_ok h]
  simp only [State.jumped, State.modSeq, State.setSeq_cur, State.seq_setSeq_self, finishStep]
  congr 2
  simp only [State.setSeq, NMap.set_set]

theorem Runs.needSupervisor {s : State} (h : s.self.priv = true) : Runs needSupervisor s () s := by
  refine (Runs.mySeq s).bind ?_
  rw [if_neg (by simp [h])]
  exact Runs.pure _ _

theorem StopsWith.needSupervisor {s : State} (h : s.self.priv = false) :
    StopsWith needSupervisor s (.trap (privilegeTrap s.self)) s := by
  refine (Runs.mySeq s).bindStop ?_
  rw [if_pos (by simp [h])]
  exact StopsWith.stopTrap _ _

/-! Every meaning answers a next state. -/

theorem finishStep_answers (r : Except Stop Cont) (s : State) : ∃ t, finishStep r s = .next t := by
  unfold finishStep
  split <;> exact ⟨_, rfl⟩

theorem execSeq_answers (m : M Cont) (s : State) : ∃ t, execSeq m s = .next t := finishStep_answers _ _

theorem execNext_answers (m : M Unit) (s : State) : ∃ t, execNext m s = .next t := execSeq_answers _ _

theorem execWhole_answers (m : M Unit) (s : State) : ∃ t, execWhole m s = .next t := execSeq_answers _ _

theorem execAgent_answers (m : M Unit) (s : State) : ∃ t, execAgent m s = .next t := ⟨_, rfl⟩

end Sys2Proof.Machine
end

