-- ==== Sys2Proof/Laws/Keeps.lean ====
section
/-! SUPPORT. What keeps memory in its canonical form: meanings, one after another, and the end of a step. One lemma per operation,
from these, gives the invariant. -/

namespace Sys2Proof.Machine

variable {α β : Type}

/-- A meaning that keeps memory canonical (log 6), however it ends. -/
structure Keeps (m : M α) : Prop where
  run : ∀ s : State, s.mem.wf = true → (m.run.run s).2.mem.wf = true

theorem Keeps.pure (a : α) : Keeps (Pure.pure a : M α) := ⟨fun _ h => h⟩

theorem Keeps.throw (e : Stop) : Keeps (throw e : M α) := ⟨fun _ h => h⟩

theorem Keeps.get : Keeps (get : M State) := ⟨fun _ h => h⟩

theorem Keeps.modify {f : State → State} (k : ∀ s, s.mem.wf = true → (f s).mem.wf = true) : Keeps (modify f : M PUnit) := ⟨k⟩

theorem Keeps.set {t : State} (k : t.mem.wf = true) : Keeps (set t : M PUnit) := ⟨fun _ _ => k⟩

theorem Keeps.bind {m : M α} {f : α → M β} (h : Keeps m) (k : ∀ a, Keeps (f a)) : Keeps (m >>= f) := by
  refine ⟨fun s hs => ?_⟩
  rw [run_bind]
  have := h.run s hs
  generalize m.run.run s = r at this ⊢
  obtain ⟨r | a, t⟩ := r
  · exact this
  · exact (k a).run t this

/-- As `bind`, where what is bound is the state itself. -/
theorem Keeps.getBind {f : State → M β} (k : ∀ s : State, s.mem.wf = true → Keeps (f s)) : Keeps (MonadState.get >>= f) :=
  ⟨fun s h => (k s h).run s h⟩

theorem Keeps.tryCatch {m : M α} {f : Stop → M α} (h : Keeps m) (k : ∀ e, Keeps (f e)) :
    Keeps (MonadExcept.tryCatch m f) := by
  refine ⟨fun s hs => ?_⟩
  rw [run_tryCatch]
  have := h.run s hs
  generalize m.run.run s = r at this ⊢
  obtain ⟨r | a, t⟩ := r
  · exact (k r).run t this
  · exact this

/-- A wait leaves the memory that was there before. -/
theorem Keeps.allOrWait {m : M α} (h : Keeps m) : Keeps (allOrWait m) := by
  refine Keeps.getBind fun s0 h0 => Keeps.tryCatch h fun e => ?_
  split
  · exact Keeps.throw _
  · exact Keeps.bind (Keeps.modify fun _ _ => h0) fun _ => Keeps.throw _
  · exact Keeps.throw _

theorem Keeps.foldlM {l : List α} {f : β → α → M β} {b : β} (k : ∀ b a, Keeps (f b a)) : Keeps (l.foldlM f b) := by
  induction l generalizing b with
  | nil => exact Keeps.pure _
  | cons a l ih => rw [List.foldlM_cons]; exact Keeps.bind (k b a) fun _ => ih

theorem Keeps.map {m : M α} {f : α → β} (h : Keeps m) : Keeps (f <$> m) := by
  rw [← bind_pure_comp]
  exact Keeps.bind h fun _ => Keeps.pure _

theorem mem_foldl {l : List α} {f : State → α → State} {s : State} (k : ∀ s a, s.mem.wf = true → (f s a).mem.wf = true)
    (h : s.mem.wf = true) : (l.foldl f s).mem.wf = true := by
  induction l generalizing s with
  | nil => exact h
  | cons a l ih => exact ih (k s a h)

/-- A result whose next state has canonical memory. -/
structure KeepsR (r : Result) : Prop where
  run : ∀ t, r = .next t → t.mem.wf = true

theorem KeepsR.next {t : State} (h : t.mem.wf = true) : KeepsR (.next t) := by
  exact ⟨fun t e => by cases e; exact h⟩

theorem takeTrap_mem (n : Nat) (t : Trap) (s : State) : (takeTrap n t s).mem = s.mem := by
  unfold takeTrap
  dsimp only
  split <;> rfl

theorem raiseTrap_mem (n : Nat) (t : Trap) (s : State) : (raiseTrap n t s).mem = s.mem := by
  unfold raiseTrap
  split
  · rfl
  · exact takeTrap_mem n t s

theorem finishStep_keeps (r : Except Stop Cont) {s : State} (h : s.mem.wf = true) : KeepsR (finishStep r s) := by
  unfold finishStep
  split <;> apply KeepsR.next <;> first | exact h | (show (raiseTrap _ _ s).mem.wf = true; rw [raiseTrap_mem]; exact h)

theorem execSeq_keeps {m : M Cont} (k : Keeps m) {s : State} (h : s.mem.wf = true) : KeepsR (execSeq m s) :=
  finishStep_keeps _ (k.run s h)

theorem execNext_keeps {m : M Unit} (k : Keeps m) {s : State} (h : s.mem.wf = true) : KeepsR (execNext m s) :=
  execSeq_keeps (Keeps.bind k fun _ => Keeps.pure _) h

theorem execWhole_keeps {m : M Unit} (k : Keeps m) {s : State} (h : s.mem.wf = true) : KeepsR (execWhole m s) :=
  execNext_keeps k.allOrWait h

theorem execAgent_keeps {m : M Unit} (k : Keeps m) {s : State} (h : s.mem.wf = true) : KeepsR (execAgent m s) :=
  KeepsR.next (k.run s h)

end Sys2Proof.Machine
end

