-- ==== Sys2Proof/Laws/PerInstr.lean ====
section
/-! SUPPORT. The family RoundTrip: for each instruction, the decoder reads back what the encoder writes (01 R10 to R46). -/

namespace Sys2Proof.Laws.RoundTrip
set_option Elab.async false

open Sys2Proof

/-- Decoding the encoding of a well-formed instruction gives the instruction, and the tail fits its class. -/
def Statement (i : Instr) : Prop :=
  wellFormed i = true → ∀ h t, encode i = some (h, t) → decode h t = .ok i ∧ t.toNat < 2 ^ (8 * tailBytes (headTl h))

/-- A step with no encoding. -/
theorem of_none {i : Instr} (e : encode i = Option.none) : Statement i :=
  fun _ _ _ h => nomatch e.symm.trans h

theorem lt32 (x : BitVec 32) : (x.setWidth 64).toNat < 2 ^ 32 := by simp; omega

theorem lt16 (x : BitVec 16) : (x.setWidth 64).toNat < 2 ^ 16 := by simp; omega

/-- An instruction whose head has no minor code. -/
theorem of_body {i : Instr} {m : BitVec 6} {tl : BitVec 2} {d : Reg} {x : BitVec 2} {t : BitVec 64} {f : Form}
    (e : encode i = some (packHead m tl d x, t)) (hf : formOf m.toNat x.toNat = some f)
    (hb : wellFormed i = true → decodeBody m.toNat x.toNat d t = .ok i) (hm : m.toNat ≠ 0) (ht : tl = f.tl)
    (hl : t.toNat < 2 ^ (8 * tailBytes tl)) : Statement i := by
  intro w h t' h'
  obtain ⟨rfl, rfl⟩ := Prod.mk.inj (Option.some.inj (e.symm.trans h'))
  exact ⟨decode_packHead hf (hb w) w hm ht, by rw [packHead_tl]; exact hl⟩

/-- An instruction of a table of minor codes. -/
theorem of_minor {α : Type} {i : Instr} {m : BitVec 6} {tl : BitVec 2} {d : Reg} {x : BitVec 2} {t : BitVec 64} {f : Form}
    {g : Nat → α → Option Instr} {n n' : Nat} {o : Option α} {a : α}
    (hn : n' = n) (ho : o = some a) (hg : wellFormed i = true → g n a = some i)
    (e : encode i = some (packHead m tl d x, t)) (hf : formOf m.toNat x.toNat = some f)
    (hb : decodeBody m.toNat x.toNat d t = decodeMinor (g n') o) (hm : m.toNat ≠ 0)
    (ht : tl = f.tl) (hl : t.toNat < 2 ^ (8 * tailBytes tl)) : Statement i :=
  of_body e hf (fun w => hb.trans (decodeMinor_ok hn ho (hg w))) hm ht hl

theorem cwrOf_fsrWrite (o : RArgs) (w : wellFormed (.fsrWrite o) = true) : cwrOf o = .fsrWrite o := by
  have h := w
  simp only [wellFormed, Bool.and_eq_true, beq_iff_eq] at h
  simp [cwrOf, h]

theorem cwrOf_estartWrite (o : RArgs) (w : wellFormed (.estartWrite o) = true) : cwrOf o = .estartWrite o := by
  have h := w
  simp only [wellFormed, Bool.and_eq_true, beq_iff_eq] at h
  simp [cwrOf, h]

theorem cwrOf_xlrootWrite (o : RArgs) (w : wellFormed (.xlrootWrite o) = true) : cwrOf o = .xlrootWrite o := by
  have h := w
  simp only [wellFormed, Bool.and_eq_true, beq_iff_eq] at h
  simp [cwrOf, h]

theorem cwrOf_asidWrite (o : RArgs) (w : wellFormed (.asidWrite o) = true) : cwrOf o = .asidWrite o := by
  have h := w
  simp only [wellFormed, Bool.and_eq_true, beq_iff_eq] at h
  simp [cwrOf, h]

theorem cwrOf_sventryWrite (o : RArgs) (w : wellFormed (.sventryWrite o) = true) : cwrOf o = .sventryWrite o := by
  have h := w
  simp only [wellFormed, Bool.and_eq_true, beq_iff_eq] at h
  simp [cwrOf, h]

theorem cwrOf_tstatWrite (o : RArgs) (w : wellFormed (.tstatWrite o) = true) : cwrOf o = .tstatWrite o := by
  have h := w
  simp only [wellFormed, Bool.and_eq_true, beq_iff_eq] at h
  simp [cwrOf, h]

theorem flctxOf_flctx (o : RArgs) (w : wellFormed (.flctx o) = true) : flctxOf o = .flctx o := by
  have h := w
  simp only [wellFormed, Bool.and_eq_true, beq_iff_eq] at h
  simp [flctxOf, h]

theorem flctxOf_flctxAll (o : RArgs) (w : wellFormed (.flctxAll o) = true) : flctxOf o = .flctxAll o := by
  have h := w
  simp only [wellFormed, Bool.and_eq_true, beq_iff_eq] at h
  simp [flctxOf, h]

theorem resvOf_resvUse (o : MArgs) (w : wellFormed (.resvUse o) = true) : resvOf o = .resvUse o := by
  have h := w
  simp only [wellFormed, Bool.and_eq_true, beq_iff_eq] at h
  simp [resvOf, h]

theorem resvOf_resvQuota (o : MArgs) (w : wellFormed (.resvQuota o) = true) : resvOf o = .resvQuota o := by
  have h := w
  simp only [wellFormed, Bool.and_eq_true, beq_iff_eq] at h
  simp [resvOf, h]

theorem resvOf_resvPool (o : MArgs) (w : wellFormed (.resvPool o) = true) : resvOf o = .resvPool o := by
  have h := w
  simp only [wellFormed, Bool.and_eq_true, beq_iff_eq] at h
  simp [resvOf, h]

theorem lretOf_lretRet (o : MArgs) (w : wellFormed (.lretRet o) = true) : lretOf o = .lretRet o := by
  have h := w
  simp only [wellFormed, Bool.and_eq_true, beq_iff_eq] at h
  simp [lretOf, h]

theorem lretOf_lretFree (o : MArgs) (w : wellFormed (.lretFree o) = true) : lretOf o = .lretFree o := by
  have h := w
  simp only [wellFormed, Bool.and_eq_true, beq_iff_eq] at h
  simp [lretOf, h]

theorem vsetOf_vsetFree (o : MArgs) (w : wellFormed (.vsetFree o) = true) : vsetOf o = .vsetFree o := by
  have h := w
  simp only [wellFormed, Bool.and_eq_true, beq_iff_eq] at h
  simp [vsetOf, h]

theorem arriveOf_arrive (o : SArgs) (w : wellFormed (.arrive o) = true) : arriveOf o = .arrive o := by
  have h := w
  simp only [wellFormed, Bool.and_eq_true, beq_iff_eq] at h
  simp [arriveOf, h]

theorem arriveOf_arriveRemote (o : SArgs) (w : wellFormed (.arriveRemote o) = true) : arriveOf o = .arriveRemote o := by
  have h := w
  simp only [wellFormed, Bool.and_eq_true, beq_iff_eq] at h
  simp [arriveOf, h]

theorem arriveOf_arriveLeave (o : SArgs) (w : wellFormed (.arriveLeave o) = true) : arriveOf o = .arriveLeave o := by
  have h := w
  simp only [wellFormed, Bool.and_eq_true, beq_iff_eq] at h
  simp [arriveOf, h]

theorem arriveOf_arriveJoin (o : SArgs) (w : wellFormed (.arriveJoin o) = true) : arriveOf o = .arriveJoin o := by
  have h := w
  simp only [wellFormed, Bool.and_eq_true, beq_iff_eq] at h
  simp [arriveOf, h]

theorem cwrOf_cwr (o : RArgs) (w : wellFormed (.cwr o) = true) : cwrOf o = .cwr o := by
  have h := w
  simp only [wellFormed, Bool.and_eq_true, crPlainWritable, decide_eq_true_eq, List.mem_cons, List.not_mem_nil, or_false] at h
  obtain ⟨-, h | h | h | h | h | h⟩ := h <;> simp only [cwrOf, h]

theorem resvOf_resvNew (o : MArgs) (w : wellFormed (.resvNew o) = true) : resvOf o = .resvNew o := by
  have h := w
  simp only [wellFormed, Bool.and_eq_true, decide_eq_true_eq] at h
  obtain ⟨⟨-, h | h⟩, -⟩ := h <;> simp only [resvOf, h]

theorem vsetOf_vset (o : MArgs) (w : wellFormed (.vset o) = true) : vsetOf o = .vset o := by
  have h := w
  simp only [wellFormed, Bool.and_eq_true, decide_eq_true_eq] at h
  have n : ¬ (o.mod == 2) = true := fun e => by
    have e := beq_iff_eq.1 e
    rw [e] at h
    exact absurd h.1.2 (by decide)
  exact if_neg n

theorem mdrainOf_bit (v : BitVec 14) : v.getLsbD 0 = decide (v.toNat % 2 = 1) := by
  simp [BitVec.getLsbD, Nat.testBit_zero]

theorem mdrainOf_mdrainBrk (o : MArgs) (w : wellFormed (.mdrainBrk o) = true) : mdrainOf o = .mdrainBrk o := by
  have h := w
  simp only [wellFormed, Bool.and_eq_true, decide_eq_true_eq] at h
  obtain ⟨⟨-, h | h⟩, -⟩ := h <;> simp only [mdrainOf, mdrainOf_bit, h] <;> rfl

theorem mdrainOf_mdrainMem (o : MArgs) (w : wellFormed (.mdrainMem o) = true) : mdrainOf o = .mdrainMem o := by
  have h := w
  simp only [wellFormed, Bool.and_eq_true, decide_eq_true_eq] at h
  obtain ⟨⟨-, h | h⟩, -⟩ := h <;> simp only [mdrainOf, mdrainOf_bit, h] <;> rfl

theorem add (o : RArgs) : Statement (.add o) :=
  of_minor (g := minor01x0) (mn32_packR 0x00 o) (congrArg some (unpackR_packR _ o)) (fun _ => rfl) rfl rfl rfl (by decide) rfl (lt32 _)
theorem sub (o : RArgs) : Statement (.sub o) :=
  of_minor (g := minor01x0) (mn32_packR 0x01 o) (congrArg some (unpackR_packR _ o)) (fun _ => rfl) rfl rfl rfl (by decide) rfl (lt32 _)
theorem andB (o : RArgs) : Statement (.andB o) :=
  of_minor (g := minor01x0) (mn32_packR 0x02 o) (congrArg some (unpackR_packR _ o)) (fun _ => rfl) rfl rfl rfl (by decide) rfl (lt32 _)
theorem orB (o : RArgs) : Statement (.orB o) :=
  of_minor (g := minor01x0) (mn32_packR 0x03 o) (congrArg some (unpackR_packR _ o)) (fun _ => rfl) rfl rfl rfl (by decide) rfl (lt32 _)
theorem xorB (o : RArgs) : Statement (.xorB o) :=
  of_minor (g := minor01x0) (mn32_packR 0x04 o) (congrArg some (unpackR_packR _ o)) (fun _ => rfl) rfl rfl rfl (by decide) rfl (lt32 _)
theorem andn (o : RArgs) : Statement (.andn o) :=
  of_minor (g := minor01x0) (mn32_packR 0x05 o) (congrArg some (unpackR_packR _ o)) (fun _ => rfl) rfl rfl rfl (by decide) rfl (lt32 _)
theorem shl (o : RArgs) : Statement (.shl o) :=
  of_minor (g := minor01x0) (mn32_packR 0x06 o) (congrArg some (unpackR_packR _ o)) (fun _ => rfl) rfl rfl rfl (by decide) rfl (lt32 _)
theorem shr (o : RArgs) : Statement (.shr o) :=
  of_minor (g := minor01x0) (mn32_packR 0x07 o) (congrArg some (unpackR_packR _ o)) (fun _ => rfl) rfl rfl rfl (by decide) rfl (lt32 _)
theorem sra (o : RArgs) : Statement (.sra o) :=
  of_minor (g := minor01x0) (mn32_packR 0x08 o) (congrArg some (unpackR_packR _ o)) (fun _ => rfl) rfl rfl rfl (by decide) rfl (lt32 _)
theorem mul (o : RArgs) : Statement (.mul o) :=
  of_minor (g := minor01x0) (mn32_packR 0x09 o) (congrArg some (unpackR_packR _ o)) (fun _ => rfl) rfl rfl rfl (by decide) rfl (lt32 _)
theorem mulh (o : RArgs) : Statement (.mulh o) :=
  of_minor (g := minor01x0) (mn32_packR 0x0A o) (congrArg some (unpackR_packR _ o)) (fun _ => rfl) rfl rfl rfl (by decide) rfl (lt32 _)
theorem mulhn (o : RArgs) : Statement (.mulhn o) :=
  of_minor (g := minor01x0) (mn32_packR 0x0B o) (congrArg some (unpackR_packR _ o)) (fun _ => rfl) rfl rfl rfl (by decide) rfl (lt32 _)
theorem div (o : RArgs) : Statement (.div o) :=
  of_minor (g := minor01x0) (mn32_packR 0x0C o) (congrArg some (unpackR_packR _ o)) (fun _ => rfl) rfl rfl rfl (by decide) rfl (lt32 _)
theorem divn (o : RArgs) : Statement (.divn o) :=
  of_minor (g := minor01x0) (mn32_packR 0x0D o) (congrArg some (unpackR_packR _ o)) (fun _ => rfl) rfl rfl rfl (by decide) rfl (lt32 _)
theorem rem (o : RArgs) : Statement (.rem o) :=
  of_minor (g := minor01x0) (mn32_packR 0x0E o) (congrArg some (unpackR_packR _ o)) (fun _ => rfl) rfl rfl rfl (by decide) rfl (lt32 _)
theorem remn (o : RArgs) : Statement (.remn o) :=
  of_minor (g := minor01x0) (mn32_packR 0x0F o) (congrArg some (unpackR_packR _ o)) (fun _ => rfl) rfl rfl rfl (by decide) rfl (lt32 _)
theorem min (o : RArgs) : Statement (.min o) :=
  of_minor (g := minor01x0) (mn32_packR 0x10 o) (congrArg some (unpackR_packR _ o)) (fun _ => rfl) rfl rfl rfl (by decide) rfl (lt32 _)
theorem max (o : RArgs) : Statement (.max o) :=
  of_minor (g := minor01x0) (mn32_packR 0x11 o) (congrArg some (unpackR_packR _ o)) (fun _ => rfl) rfl rfl rfl (by decide) rfl (lt32 _)
theorem minn (o : RArgs) : Statement (.minn o) :=
  of_minor (g := minor01x0) (mn32_packR 0x12 o) (congrArg some (unpackR_packR _ o)) (fun _ => rfl) rfl rfl rfl (by decide) rfl (lt32 _)
theorem maxn (o : RArgs) : Statement (.maxn o) :=
  of_minor (g := minor01x0) (mn32_packR 0x13 o) (congrArg some (unpackR_packR _ o)) (fun _ => rfl) rfl rfl rfl (by decide) rfl (lt32 _)
theorem slt (o : RArgs) : Statement (.slt o) :=
  of_minor (g := minor01x0) (mn32_packR 0x14 o) (congrArg some (unpackR_packR _ o)) (fun _ => rfl) rfl rfl rfl (by decide) rfl (lt32 _)
theorem sltn (o : RArgs) : Statement (.sltn o) :=
  of_minor (g := minor01x0) (mn32_packR 0x15 o) (congrArg some (unpackR_packR _ o)) (fun _ => rfl) rfl rfl rfl (by decide) rfl (lt32 _)
theorem clz (o : RArgs) : Statement (.clz o) :=
  of_minor (g := minor01x0) (mn32_packR 0x16 o) (congrArg some (unpackR_packR _ o)) (fun _ => rfl) rfl rfl rfl (by decide) rfl (lt32 _)
theorem ctz (o : RArgs) : Statement (.ctz o) :=
  of_minor (g := minor01x0) (mn32_packR 0x17 o) (congrArg some (unpackR_packR _ o)) (fun _ => rfl) rfl rfl rfl (by decide) rfl (lt32 _)
theorem popc (o : RArgs) : Statement (.popc o) :=
  of_minor (g := minor01x0) (mn32_packR 0x18 o) (congrArg some (unpackR_packR _ o)) (fun _ => rfl) rfl rfl rfl (by decide) rfl (lt32 _)
theorem addi (o : IArgs) : Statement (.addi o) :=
  of_minor (g := minor02x0) (mn32_packI 0x00 o) (congrArg some (unpackI_packI _ o)) (fun _ => rfl) rfl rfl rfl (by decide) rfl (lt32 _)
theorem andi (o : IArgs) : Statement (.andi o) :=
  of_minor (g := minor02x0) (mn32_packI 0x01 o) (congrArg some (unpackI_packI _ o)) (fun _ => rfl) rfl rfl rfl (by decide) rfl (lt32 _)
theorem ori (o : IArgs) : Statement (.ori o) :=
  of_minor (g := minor02x0) (mn32_packI 0x02 o) (congrArg some (unpackI_packI _ o)) (fun _ => rfl) rfl rfl rfl (by decide) rfl (lt32 _)
theorem xori (o : IArgs) : Statement (.xori o) :=
  of_minor (g := minor02x0) (mn32_packI 0x03 o) (congrArg some (unpackI_packI _ o)) (fun _ => rfl) rfl rfl rfl (by decide) rfl (lt32 _)
theorem shli (o : IArgs) : Statement (.shli o) :=
  of_minor (g := minor02x0) (mn32_packI 0x04 o) (congrArg some (unpackI_packI _ o)) (fun _ => rfl) rfl rfl rfl (by decide) rfl (lt32 _)
theorem shri (o : IArgs) : Statement (.shri o) :=
  of_minor (g := minor02x0) (mn32_packI 0x05 o) (congrArg some (unpackI_packI _ o)) (fun _ => rfl) rfl rfl rfl (by decide) rfl (lt32 _)
theorem srai (o : IArgs) : Statement (.srai o) :=
  of_minor (g := minor02x0) (mn32_packI 0x06 o) (congrArg some (unpackI_packI _ o)) (fun _ => rfl) rfl rfl rfl (by decide) rfl (lt32 _)
theorem slti (o : IArgs) : Statement (.slti o) :=
  of_minor (g := minor02x0) (mn32_packI 0x07 o) (congrArg some (unpackI_packI _ o)) (fun _ => rfl) rfl rfl rfl (by decide) rfl (lt32 _)
theorem sltni (o : IArgs) : Statement (.sltni o) :=
  of_minor (g := minor02x0) (mn32_packI 0x08 o) (congrArg some (unpackI_packI _ o)) (fun _ => rfl) rfl rfl rfl (by decide) rfl (lt32 _)
theorem movi (d : Reg) (imm : BitVec 32) : Statement (.movi d imm) :=
  of_body rfl rfl (fun _ => congrArg (fun v => Except.ok (Instr.movi d v)) ((field_setWidth _ (by decide)).trans (field_all _))) (by decide) rfl (lt32 _)
theorem moviW64 (d : Reg) (imm : BitVec 64) : Statement (.moviW64 d imm) :=
  of_body rfl rfl (fun _ => rfl) (by decide) rfl (BitVec.isLt _)
theorem lea (d : Reg) (disp : BitVec 27) (head : BitVec 5) : Statement (.lea d disp head) :=
  of_body rfl rfl (fun _ => congr (congrArg (fun a b => Except.ok (Instr.lea d a b))
    ((field_setWidth _ (by decide)).trans <| (field_high _ _ (by decide)).trans (field_all _)))
    ((field_setWidth _ (by decide)).trans <| (field_low _ _ (by decide)).trans (field_all _))) (by decide) rfl (lt32 _)
theorem fadd (o : FArgs) : Statement (.fadd o) :=
  of_minor (g := minor04x0) (mn32_packF 0x00 o) (unpackF_packF _ o) (fun _ => rfl) rfl rfl rfl (by decide) rfl (lt32 _)
theorem fsub (o : FArgs) : Statement (.fsub o) :=
  of_minor (g := minor04x0) (mn32_packF 0x01 o) (unpackF_packF _ o) (fun _ => rfl) rfl rfl rfl (by decide) rfl (lt32 _)
theorem fmul (o : FArgs) : Statement (.fmul o) :=
  of_minor (g := minor04x0) (mn32_packF 0x02 o) (unpackF_packF _ o) (fun _ => rfl) rfl rfl rfl (by decide) rfl (lt32 _)
theorem ffma (o : FArgs) : Statement (.ffma o) :=
  of_minor (g := minor04x0) (mn32_packF 0x03 o) (unpackF_packF _ o) (fun _ => rfl) rfl rfl rfl (by decide) rfl (lt32 _)
theorem fdiv (o : FArgs) : Statement (.fdiv o) :=
  of_minor (g := minor04x0) (mn32_packF 0x04 o) (unpackF_packF _ o) (fun _ => rfl) rfl rfl rfl (by decide) rfl (lt32 _)
theorem fsqrt (o : FArgs) : Statement (.fsqrt o) :=
  of_minor (g := minor04x0) (mn32_packF 0x05 o) (unpackF_packF _ o) (fun _ => rfl) rfl rfl rfl (by decide) rfl (lt32 _)
theorem fmin (o : FArgs) : Statement (.fmin o) :=
  of_minor (g := minor04x0) (mn32_packF 0x06 o) (unpackF_packF _ o) (fun _ => rfl) rfl rfl rfl (by decide) rfl (lt32 _)
theorem fmax (o : FArgs) : Statement (.fmax o) :=
  of_minor (g := minor04x0) (mn32_packF 0x07 o) (unpackF_packF _ o) (fun _ => rfl) rfl rfl rfl (by decide) rfl (lt32 _)
theorem fcmp (o : FArgs) : Statement (.fcmp o) :=
  of_minor (g := minor04x0) (mn32_packF 0x08 o) (unpackF_packF _ o) (fun _ => rfl) rfl rfl rfl (by decide) rfl (lt32 _)
theorem fcvt (o : FArgs) : Statement (.fcvt o) :=
  of_minor (g := minor04x0) (mn32_packF 0x09 o) (unpackF_packF _ o) (fun _ => rfl) rfl rfl rfl (by decide) rfl (lt32 _)
theorem br (o : BArgs) : Statement (.br o) :=
  of_body rfl rfl (fun _ => congrArg (fun a => Except.ok (Instr.br a)) (unpackB_packB o)) (by decide) rfl (lt16 _)
theorem j (o : BArgs) : Statement (.j o) :=
  of_body rfl rfl (fun _ => congrArg (fun a => Except.ok (Instr.j a)) (unpackB_packB o)) (by decide) rfl (lt16 _)
theorem jl (o : BArgs) : Statement (.jl o) :=
  of_body rfl rfl (fun _ => congrArg (fun a => Except.ok (Instr.jl a)) (unpackB_packB o)) (by decide) rfl (lt16 _)
theorem jlr (o : RArgs) : Statement (.jlr o) :=
  of_minor (g := minor06x1) (mn32_packR 0x00 o) (congrArg some (unpackR_packR _ o)) (fun _ => rfl) rfl rfl rfl (by decide) rfl (lt32 _)
theorem jr (o : RArgs) : Statement (.jr o) :=
  of_minor (g := minor06x2) (mn32_packR 0x00 o) (congrArg some (unpackR_packR _ o)) (fun _ => rfl) rfl rfl rfl (by decide) rfl (lt32 _)
theorem loop (o : BArgs) : Statement (.loop o) :=
  of_body rfl rfl (fun _ => congrArg (fun a => Except.ok (Instr.loop a)) (unpackB_packB o)) (by decide) rfl (lt16 _)
theorem endl : Statement .endl := of_body rfl rfl (fun _ => rfl) (by decide) rfl (by decide)
theorem brkl : Statement .brkl := of_body rfl rfl (fun _ => rfl) (by decide) rfl (by decide)
theorem strip (o : StripArgs) : Statement (.strip o) :=
  of_body rfl rfl (fun _ => congrArg (fun a => Except.ok (Instr.strip a)) (unpackIs_packIs o)) (by decide) rfl (lt32 _)
theorem fork (o : BArgs) : Statement (.fork o) :=
  of_body rfl rfl (fun _ => congrArg (fun a => Except.ok (Instr.fork a)) (unpackB_packB o)) (by decide) rfl (lt16 _)
theorem rdv (o : RArgs) : Statement (.rdv o) :=
  of_minor (g := minor09x1) (mn32_packR 0x00 o) (congrArg some (unpackR_packR _ o)) (fun _ => rfl) rfl rfl rfl (by decide) rfl (lt32 _)
theorem abortLine (o : RArgs) : Statement (.abortLine o) :=
  of_minor (g := minor09x1) (mn32_packR 0x01 o) (congrArg some (unpackR_packR _ o)) (fun _ => rfl) rfl rfl rfl (by decide) rfl (lt32 _)
theorem abchk (o : RArgs) : Statement (.abchk o) :=
  of_minor (g := minor09x1) (mn32_packR 0x02 o) (congrArg some (unpackR_packR _ o)) (fun _ => rfl) rfl rfl rfl (by decide) rfl (lt32 _)
theorem qpush (o : RArgs) : Statement (.qpush o) :=
  of_minor (g := minor0Ax0) (mn32_packR 0x00 o) (congrArg some (unpackR_packR _ o)) (fun _ => rfl) rfl rfl rfl (by decide) rfl (lt32 _)
theorem qpop (o : RArgs) : Statement (.qpop o) :=
  of_minor (g := minor0Ax0) (mn32_packR 0x01 o) (congrArg some (unpackR_packR _ o)) (fun _ => rfl) rfl rfl rfl (by decide) rfl (lt32 _)
theorem qstat (o : RArgs) : Statement (.qstat o) :=
  of_minor (g := minor0Ax0) (mn32_packR 0x02 o) (congrArg some (unpackR_packR _ o)) (fun _ => rfl) rfl rfl rfl (by decide) rfl (lt32 _)
theorem pset (o : RArgs) : Statement (.pset o) :=
  of_minor (g := minor0Bx0) (mn32_packR 0x00 o) (congrArg some (unpackR_packR _ o)) (fun _ => rfl) rfl rfl rfl (by decide) rfl (lt32 _)
theorem pand (o : RArgs) : Statement (.pand o) :=
  of_minor (g := minor0Bx0) (mn32_packR 0x01 o) (congrArg some (unpackR_packR _ o)) (fun _ => rfl) rfl rfl rfl (by decide) rfl (lt32 _)
theorem por (o : RArgs) : Statement (.por o) :=
  of_minor (g := minor0Bx0) (mn32_packR 0x02 o) (congrArg some (unpackR_packR _ o)) (fun _ => rfl) rfl rfl rfl (by decide) rfl (lt32 _)
theorem pxor (o : RArgs) : Statement (.pxor o) :=
  of_minor (g := minor0Bx0) (mn32_packR 0x03 o) (congrArg some (unpackR_packR _ o)) (fun _ => rfl) rfl rfl rfl (by decide) rfl (lt32 _)
theorem pnot (o : RArgs) : Statement (.pnot o) :=
  of_minor (g := minor0Bx0) (mn32_packR 0x04 o) (congrArg some (unpackR_packR _ o)) (fun _ => rfl) rfl rfl rfl (by decide) rfl (lt32 _)
theorem ptest (o : RArgs) : Statement (.ptest o) :=
  of_minor (g := minor0Bx0) (mn32_packR 0x05 o) (congrArg some (unpackR_packR _ o)) (fun _ => rfl) rfl rfl rfl (by decide) rfl (lt32 _)
theorem csel (o : RArgs) : Statement (.csel o) :=
  of_minor (g := minor0Bx0) (mn32_packR 0x06 o) (congrArg some (unpackR_packR _ o)) (fun _ => rfl) rfl rfl rfl (by decide) rfl (lt32 _)
theorem crd (o : RArgs) : Statement (.crd o) :=
  of_minor (g := minor0Cx0) (mn32_packR 0x00 o) (congrArg some (unpackR_packR _ o)) (fun _ => rfl) rfl rfl rfl (by decide) rfl (lt32 _)
theorem cwr (o : RArgs) : Statement (.cwr o) :=
  of_minor (g := minor0Cx0) (mn32_packR 0x01 o) (congrArg some (unpackR_packR _ o)) (fun w => congrArg some (cwrOf_cwr o w)) rfl rfl rfl (by decide) rfl (lt32 _)
theorem fsrWrite (o : RArgs) : Statement (.fsrWrite o) :=
  of_minor (g := minor0Cx0) (mn32_packR 0x01 o) (congrArg some (unpackR_packR _ o)) (fun w => congrArg some (cwrOf_fsrWrite o w)) rfl rfl rfl (by decide) rfl (lt32 _)
theorem estartWrite (o : RArgs) : Statement (.estartWrite o) :=
  of_minor (g := minor0Cx0) (mn32_packR 0x01 o) (congrArg some (unpackR_packR _ o)) (fun w => congrArg some (cwrOf_estartWrite o w)) rfl rfl rfl (by decide) rfl (lt32 _)
theorem xlrootWrite (o : RArgs) : Statement (.xlrootWrite o) :=
  of_minor (g := minor0Cx0) (mn32_packR 0x01 o) (congrArg some (unpackR_packR _ o)) (fun w => congrArg some (cwrOf_xlrootWrite o w)) rfl rfl rfl (by decide) rfl (lt32 _)
theorem asidWrite (o : RArgs) : Statement (.asidWrite o) :=
  of_minor (g := minor0Cx0) (mn32_packR 0x01 o) (congrArg some (unpackR_packR _ o)) (fun w => congrArg some (cwrOf_asidWrite o w)) rfl rfl rfl (by decide) rfl (lt32 _)
theorem sventryWrite (o : RArgs) : Statement (.sventryWrite o) :=
  of_minor (g := minor0Cx0) (mn32_packR 0x01 o) (congrArg some (unpackR_packR _ o)) (fun w => congrArg some (cwrOf_sventryWrite o w)) rfl rfl rfl (by decide) rfl (lt32 _)
theorem tstatWrite (o : RArgs) : Statement (.tstatWrite o) :=
  of_minor (g := minor0Cx0) (mn32_packR 0x01 o) (congrArg some (unpackR_packR _ o)) (fun w => congrArg some (cwrOf_tstatWrite o w)) rfl rfl rfl (by decide) rfl (lt32 _)
theorem trap (o : RArgs) : Statement (.trap o) :=
  of_minor (g := minor0Cx0) (mn32_packR 0x02 o) (congrArg some (unpackR_packR _ o)) (fun _ => rfl) rfl rfl rfl (by decide) rfl (lt32 _)
theorem evpop (o : RArgs) : Statement (.evpop o) :=
  of_minor (g := minor0Cx0) (mn32_packR 0x03 o) (congrArg some (unpackR_packR _ o)) (fun _ => rfl) rfl rfl rfl (by decide) rfl (lt32 _)
theorem ctxsv (o : RArgs) : Statement (.ctxsv o) :=
  of_minor (g := minor0Cx0) (mn32_packR 0x04 o) (congrArg some (unpackR_packR _ o)) (fun _ => rfl) rfl rfl rfl (by decide) rfl (lt32 _)
theorem ctxld (o : RArgs) : Statement (.ctxld o) :=
  of_minor (g := minor0Cx0) (mn32_packR 0x05 o) (congrArg some (unpackR_packR _ o)) (fun _ => rfl) rfl rfl rfl (by decide) rfl (lt32 _)
theorem nop : Statement .nop := of_body rfl rfl (fun _ => rfl) (by decide) rfl (by decide)
theorem halt : Statement .halt := of_body rfl rfl (fun _ => rfl) (by decide) rfl (by decide)
theorem wfe : Statement .wfe := of_body rfl rfl (fun _ => rfl) (by decide) rfl (by decide)
theorem sret : Statement .sret := of_body rfl rfl (fun _ => rfl) (by decide) rfl (by decide)
theorem ld (o : LArgs) : Statement (.ld o) :=
  of_body rfl rfl (fun _ => congrArg (fun a => (do return Instr.ld (← orError .reservedValue a) : Except DecodeError Instr)) (unpackL_packL o)) (by decide) rfl (lt32 _)
theorem st (o : LArgs) : Statement (.st o) :=
  of_body rfl rfl (fun _ => congrArg (fun a => (do return Instr.st (← orError .reservedValue a) : Except DecodeError Instr)) (unpackL_packL o)) (by decide) rfl (lt32 _)
theorem vldUnit (o : VArgs) : Statement (.vldUnit o) :=
  of_minor (g := minor12x0) (mn64_packV 0x00 o) (unpackV_packV _ o) (fun _ => rfl) rfl rfl rfl (by decide) rfl (BitVec.isLt _)
theorem vldShaped (o : VArgs) : Statement (.vldShaped o) :=
  of_minor (g := minor12x0) (mn64_packV 0x01 o) (unpackV_packV _ o) (fun _ => rfl) rfl rfl rfl (by decide) rfl (BitVec.isLt _)
theorem vlds (o : VArgs) : Statement (.vlds o) :=
  of_minor (g := minor12x0) (mn64_packV 0x02 o) (unpackV_packV _ o) (fun _ => rfl) rfl rfl rfl (by decide) rfl (BitVec.isLt _)
theorem vldx (o : VArgs) : Statement (.vldx o) :=
  of_minor (g := minor12x0) (mn64_packV 0x03 o) (unpackV_packV _ o) (fun _ => rfl) rfl rfl rfl (by decide) rfl (BitVec.isLt _)
theorem vstUnit (o : VArgs) : Statement (.vstUnit o) :=
  of_minor (g := minor13x0) (mn64_packV 0x00 o) (unpackV_packV _ o) (fun _ => rfl) rfl rfl rfl (by decide) rfl (BitVec.isLt _)
theorem vstShaped (o : VArgs) : Statement (.vstShaped o) :=
  of_minor (g := minor13x0) (mn64_packV 0x01 o) (unpackV_packV _ o) (fun _ => rfl) rfl rfl rfl (by decide) rfl (BitVec.isLt _)
theorem vsts (o : VArgs) : Statement (.vsts o) :=
  of_minor (g := minor13x0) (mn64_packV 0x02 o) (unpackV_packV _ o) (fun _ => rfl) rfl rfl rfl (by decide) rfl (BitVec.isLt _)
theorem vstx (o : VArgs) : Statement (.vstx o) :=
  of_minor (g := minor13x0) (mn64_packV 0x03 o) (unpackV_packV _ o) (fun _ => rfl) rfl rfl rfl (by decide) rfl (BitVec.isLt _)
theorem amoAdd (o : AArgs) : Statement (.amoAdd o) :=
  of_minor (g := minor14x0) (mn32_packA 0x00 o) (unpackA_packA _ o) (fun _ => rfl) rfl rfl rfl (by decide) rfl (lt32 _)
theorem amoAnd (o : AArgs) : Statement (.amoAnd o) :=
  of_minor (g := minor14x0) (mn32_packA 0x01 o) (unpackA_packA _ o) (fun _ => rfl) rfl rfl rfl (by decide) rfl (lt32 _)
theorem amoOr (o : AArgs) : Statement (.amoOr o) :=
  of_minor (g := minor14x0) (mn32_packA 0x02 o) (unpackA_packA _ o) (fun _ => rfl) rfl rfl rfl (by decide) rfl (lt32 _)
theorem amoXor (o : AArgs) : Statement (.amoXor o) :=
  of_minor (g := minor14x0) (mn32_packA 0x03 o) (unpackA_packA _ o) (fun _ => rfl) rfl rfl rfl (by decide) rfl (lt32 _)
theorem amoMin (o : AArgs) : Statement (.amoMin o) :=
  of_minor (g := minor14x0) (mn32_packA 0x04 o) (unpackA_packA _ o) (fun _ => rfl) rfl rfl rfl (by decide) rfl (lt32 _)
theorem amoMax (o : AArgs) : Statement (.amoMax o) :=
  of_minor (g := minor14x0) (mn32_packA 0x05 o) (unpackA_packA _ o) (fun _ => rfl) rfl rfl rfl (by decide) rfl (lt32 _)
theorem amoMinn (o : AArgs) : Statement (.amoMinn o) :=
  of_minor (g := minor14x0) (mn32_packA 0x06 o) (unpackA_packA _ o) (fun _ => rfl) rfl rfl rfl (by decide) rfl (lt32 _)
theorem amoMaxn (o : AArgs) : Statement (.amoMaxn o) :=
  of_minor (g := minor14x0) (mn32_packA 0x07 o) (unpackA_packA _ o) (fun _ => rfl) rfl rfl rfl (by decide) rfl (lt32 _)
theorem amoSwap (o : AArgs) : Statement (.amoSwap o) :=
  of_minor (g := minor14x0) (mn32_packA 0x08 o) (unpackA_packA _ o) (fun _ => rfl) rfl rfl rfl (by decide) rfl (lt32 _)
theorem amoFaddF32 (o : AArgs) : Statement (.amoFaddF32 o) :=
  of_minor (g := minor14x0) (mn32_packA 0x09 o) (unpackA_packA _ o) (fun _ => rfl) rfl rfl rfl (by decide) rfl (lt32 _)
theorem amoFaddBf16 (o : AArgs) : Statement (.amoFaddBf16 o) :=
  of_minor (g := minor14x0) (mn32_packA 0x0A o) (unpackA_packA _ o) (fun _ => rfl) rfl rfl rfl (by decide) rfl (lt32 _)
theorem cas (o : AArgs) : Statement (.cas o) :=
  of_minor (g := minor14x0) (mn32_packA 0x10 o) (unpackA_packA _ o) (fun _ => rfl) rfl rfl rfl (by decide) rfl (lt32 _)
theorem cas2 (o : AArgs) : Statement (.cas2 o) :=
  of_minor (g := minor14x0) (mn32_packA 0x11 o) (unpackA_packA _ o) (fun _ => rfl) rfl rfl rfl (by decide) rfl (lt32 _)
theorem vamoAdd (o : VArgs) : Statement (.vamoAdd o) :=
  of_minor (g := minor15x0) (mn64_packV 0x00 o) (unpackV_packV _ o) (fun _ => rfl) rfl rfl rfl (by decide) rfl (BitVec.isLt _)
theorem vamoAnd (o : VArgs) : Statement (.vamoAnd o) :=
  of_minor (g := minor15x0) (mn64_packV 0x01 o) (unpackV_packV _ o) (fun _ => rfl) rfl rfl rfl (by decide) rfl (BitVec.isLt _)
theorem vamoOr (o : VArgs) : Statement (.vamoOr o) :=
  of_minor (g := minor15x0) (mn64_packV 0x02 o) (unpackV_packV _ o) (fun _ => rfl) rfl rfl rfl (by decide) rfl (BitVec.isLt _)
theorem vamoXor (o : VArgs) : Statement (.vamoXor o) :=
  of_minor (g := minor15x0) (mn64_packV 0x03 o) (unpackV_packV _ o) (fun _ => rfl) rfl rfl rfl (by decide) rfl (BitVec.isLt _)
theorem vamoMin (o : VArgs) : Statement (.vamoMin o) :=
  of_minor (g := minor15x0) (mn64_packV 0x04 o) (unpackV_packV _ o) (fun _ => rfl) rfl rfl rfl (by decide) rfl (BitVec.isLt _)
theorem vamoMax (o : VArgs) : Statement (.vamoMax o) :=
  of_minor (g := minor15x0) (mn64_packV 0x05 o) (unpackV_packV _ o) (fun _ => rfl) rfl rfl rfl (by decide) rfl (BitVec.isLt _)
theorem vamoMinn (o : VArgs) : Statement (.vamoMinn o) :=
  of_minor (g := minor15x0) (mn64_packV 0x06 o) (unpackV_packV _ o) (fun _ => rfl) rfl rfl rfl (by decide) rfl (BitVec.isLt _)
theorem vamoMaxn (o : VArgs) : Statement (.vamoMaxn o) :=
  of_minor (g := minor15x0) (mn64_packV 0x07 o) (unpackV_packV _ o) (fun _ => rfl) rfl rfl rfl (by decide) rfl (BitVec.isLt _)
theorem vamoSwap (o : VArgs) : Statement (.vamoSwap o) :=
  of_minor (g := minor15x0) (mn64_packV 0x08 o) (unpackV_packV _ o) (fun _ => rfl) rfl rfl rfl (by decide) rfl (BitVec.isLt _)
theorem vamoFaddF32 (o : VArgs) : Statement (.vamoFaddF32 o) :=
  of_minor (g := minor15x0) (mn64_packV 0x09 o) (unpackV_packV _ o) (fun _ => rfl) rfl rfl rfl (by decide) rfl (BitVec.isLt _)
theorem vamoFaddBf16 (o : VArgs) : Statement (.vamoFaddBf16 o) :=
  of_minor (g := minor15x0) (mn64_packV 0x0A o) (unpackV_packV _ o) (fun _ => rfl) rfl rfl rfl (by decide) rfl (BitVec.isLt _)
theorem glink (o : VArgs) : Statement (.glink o) :=
  of_minor (g := minor15x0) (mn64_packV 0x10 o) (unpackV_packV _ o) (fun _ => rfl) rfl rfl rfl (by decide) rfl (BitVec.isLt _)
theorem scond (o : VArgs) : Statement (.scond o) :=
  of_minor (g := minor15x0) (mn64_packV 0x11 o) (unpackV_packV _ o) (fun _ => rfl) rfl rfl rfl (by decide) rfl (BitVec.isLt _)
theorem saccAdd (o : VArgs) : Statement (.saccAdd o) :=
  of_minor (g := minor15x0) (mn64_packV 0x20 o) (unpackV_packV _ o) (fun _ => rfl) rfl rfl rfl (by decide) rfl (BitVec.isLt _)
theorem saccAnd (o : VArgs) : Statement (.saccAnd o) :=
  of_minor (g := minor15x0) (mn64_packV 0x21 o) (unpackV_packV _ o) (fun _ => rfl) rfl rfl rfl (by decide) rfl (BitVec.isLt _)
theorem saccOr (o : VArgs) : Statement (.saccOr o) :=
  of_minor (g := minor15x0) (mn64_packV 0x22 o) (unpackV_packV _ o) (fun _ => rfl) rfl rfl rfl (by decide) rfl (BitVec.isLt _)
theorem saccXor (o : VArgs) : Statement (.saccXor o) :=
  of_minor (g := minor15x0) (mn64_packV 0x23 o) (unpackV_packV _ o) (fun _ => rfl) rfl rfl rfl (by decide) rfl (BitVec.isLt _)
theorem saccMin (o : VArgs) : Statement (.saccMin o) :=
  of_minor (g := minor15x0) (mn64_packV 0x24 o) (unpackV_packV _ o) (fun _ => rfl) rfl rfl rfl (by decide) rfl (BitVec.isLt _)
theorem saccMax (o : VArgs) : Statement (.saccMax o) :=
  of_minor (g := minor15x0) (mn64_packV 0x25 o) (unpackV_packV _ o) (fun _ => rfl) rfl rfl rfl (by decide) rfl (BitVec.isLt _)
theorem saccMinn (o : VArgs) : Statement (.saccMinn o) :=
  of_minor (g := minor15x0) (mn64_packV 0x26 o) (unpackV_packV _ o) (fun _ => rfl) rfl rfl rfl (by decide) rfl (BitVec.isLt _)
theorem saccMaxn (o : VArgs) : Statement (.saccMaxn o) :=
  of_minor (g := minor15x0) (mn64_packV 0x27 o) (unpackV_packV _ o) (fun _ => rfl) rfl rfl rfl (by decide) rfl (BitVec.isLt _)
theorem saccFaddF32 (o : VArgs) : Statement (.saccFaddF32 o) :=
  of_minor (g := minor15x0) (mn64_packV 0x29 o) (unpackV_packV _ o) (fun _ => rfl) rfl rfl rfl (by decide) rfl (BitVec.isLt _)
theorem saccFaddBf16 (o : VArgs) : Statement (.saccFaddBf16 o) :=
  of_minor (g := minor15x0) (mn64_packV 0x2A o) (unpackV_packV _ o) (fun _ => rfl) rfl rfl rfl (by decide) rfl (BitVec.isLt _)
theorem combiningWindowApply : Statement .combiningWindowApply := of_none rfl
theorem vwait (o : VArgs) : Statement (.vwait o) :=
  of_minor (g := minor15x0) (mn64_packV 0x12 o) (unpackV_packV _ o) (fun _ => rfl) rfl rfl rfl (by decide) rfl (BitVec.isLt _)
theorem vwaitFire : Statement .vwaitFire := of_none rfl
theorem vwaitHostPoll : Statement .vwaitHostPoll := of_none rfl
theorem linkExpiry : Statement .linkExpiry := of_none rfl
theorem skim (o : RArgs) : Statement (.skim o) :=
  of_minor (g := minor16x0) (mn32_packR 0x00 o) (congrArg some (unpackR_packR _ o)) (fun _ => rfl) rfl rfl rfl (by decide) rfl (lt32 _)
theorem wbr (o : RArgs) : Statement (.wbr o) :=
  of_minor (g := minor16x0) (mn32_packR 0x01 o) (congrArg some (unpackR_packR _ o)) (fun _ => rfl) rfl rfl rfl (by decide) rfl (lt32 _)
theorem flctx (o : RArgs) : Statement (.flctx o) :=
  of_minor (g := minor16x0) (mn32_packR 0x02 o) (congrArg some (unpackR_packR _ o)) (fun w => congrArg some (flctxOf_flctx o w)) rfl rfl rfl (by decide) rfl (lt32 _)
theorem flctxAll (o : RArgs) : Statement (.flctxAll o) :=
  of_minor (g := minor16x0) (mn32_packR 0x02 o) (congrArg some (unpackR_packR _ o)) (fun w => congrArg some (flctxOf_flctxAll o w)) rfl rfl rfl (by decide) rfl (lt32 _)
theorem homeReadRequest : Statement .homeReadRequest := of_none rfl
theorem homeRegistration : Statement .homeRegistration := of_none rfl
theorem homeWriteThrough : Statement .homeWriteThrough := of_none rfl
theorem engineWriteAtHome : Statement .engineWriteAtHome := of_none rfl
theorem epochTick : Statement .epochTick := of_none rfl
theorem l1UncorrectableError : Statement .l1UncorrectableError := of_none rfl
theorem hostSharedRead : Statement .hostSharedRead := of_none rfl
theorem hostExclusiveRequest : Statement .hostExclusiveRequest := of_none rfl
theorem tlbinv (o : RArgs) : Statement (.tlbinv o) :=
  of_minor (g := minor18x0) (mn32_packR 0x00 o) (congrArg some (unpackR_packR _ o)) (fun _ => rfl) rfl rfl rfl (by decide) rfl (lt32 _)
theorem tlbprobe (o : RArgs) : Statement (.tlbprobe o) :=
  of_minor (g := minor18x0) (mn32_packR 0x01 o) (congrArg some (unpackR_packR _ o)) (fun _ => rfl) rfl rfl rfl (by decide) rfl (lt32 _)
theorem resvNew (o : MArgs) : Statement (.resvNew o) :=
  of_minor (g := minor17x0) (mn64_packM 0x00 o) (unpackM_packM _ o) (fun w => congrArg some (resvOf_resvNew o w)) rfl rfl rfl (by decide) rfl (BitVec.isLt _)
theorem resvUse (o : MArgs) : Statement (.resvUse o) :=
  of_minor (g := minor17x0) (mn64_packM 0x00 o) (unpackM_packM _ o) (fun w => congrArg some (resvOf_resvUse o w)) rfl rfl rfl (by decide) rfl (BitVec.isLt _)
theorem resvQuota (o : MArgs) : Statement (.resvQuota o) :=
  of_minor (g := minor17x0) (mn64_packM 0x00 o) (unpackM_packM _ o) (fun w => congrArg some (resvOf_resvQuota o w)) rfl rfl rfl (by decide) rfl (BitVec.isLt _)
theorem resvPool (o : MArgs) : Statement (.resvPool o) :=
  of_minor (g := minor17x0) (mn64_packM 0x00 o) (unpackM_packM _ o) (fun w => congrArg some (resvOf_resvPool o w)) rfl rfl rfl (by decide) rfl (BitVec.isLt _)
theorem unresv (o : MArgs) : Statement (.unresv o) :=
  of_minor (g := minor17x0) (mn64_packM 0x01 o) (unpackM_packM _ o) (fun _ => rfl) rfl rfl rfl (by decide) rfl (BitVec.isLt _)
theorem disc (o : MArgs) : Statement (.disc o) :=
  of_minor (g := minor17x0) (mn64_packM 0x02 o) (unpackM_packM _ o) (fun _ => rfl) rfl rfl rfl (by decide) rfl (BitVec.isLt _)
theorem umig (o : MArgs) : Statement (.umig o) :=
  of_minor (g := minor17x0) (mn64_packM 0x03 o) (unpackM_packM _ o) (fun _ => rfl) rfl rfl rfl (by decide) rfl (BitVec.isLt _)
theorem promo (o : MArgs) : Statement (.promo o) :=
  of_minor (g := minor17x0) (mn64_packM 0x04 o) (unpackM_packM _ o) (fun _ => rfl) rfl rfl rfl (by decide) rfl (BitVec.isLt _)
theorem tstat (o : MArgs) : Statement (.tstat o) :=
  of_minor (g := minor17x0) (mn64_packM 0x05 o) (unpackM_packM _ o) (fun _ => rfl) rfl rfl rfl (by decide) rfl (BitVec.isLt _)
theorem cfork (o : MArgs) : Statement (.cfork o) :=
  of_minor (g := minor17x0) (mn64_packM 0x06 o) (unpackM_packM _ o) (fun _ => rfl) rfl rfl rfl (by decide) rfl (BitVec.isLt _)
theorem loffer (o : MArgs) : Statement (.loffer o) :=
  of_minor (g := minor17x0) (mn64_packM 0x10 o) (unpackM_packM _ o) (fun _ => rfl) rfl rfl rfl (by decide) rfl (BitVec.isLt _)
theorem ltake (o : MArgs) : Statement (.ltake o) :=
  of_minor (g := minor17x0) (mn64_packM 0x11 o) (unpackM_packM _ o) (fun _ => rfl) rfl rfl rfl (by decide) rfl (BitVec.isLt _)
theorem lrecl (o : MArgs) : Statement (.lrecl o) :=
  of_minor (g := minor17x0) (mn64_packM 0x12 o) (unpackM_packM _ o) (fun _ => rfl) rfl rfl rfl (by decide) rfl (BitVec.isLt _)
theorem lretRet (o : MArgs) : Statement (.lretRet o) :=
  of_minor (g := minor17x0) (mn64_packM 0x13 o) (unpackM_packM _ o) (fun w => congrArg some (lretOf_lretRet o w)) rfl rfl rfl (by decide) rfl (BitVec.isLt _)
theorem lretFree (o : MArgs) : Statement (.lretFree o) :=
  of_minor (g := minor17x0) (mn64_packM 0x13 o) (unpackM_packM _ o) (fun w => congrArg some (lretOf_lretFree o w)) rfl rfl rfl (by decide) rfl (BitVec.isLt _)
theorem leaseOfferReceived : Statement .leaseOfferReceived := of_none rfl
theorem leaseTakeReceived : Statement .leaseTakeReceived := of_none rfl
theorem leaseReclaimReceived : Statement .leaseReclaimReceived := of_none rfl
theorem leaseReturnBegunReceived : Statement .leaseReturnBegunReceived := of_none rfl
theorem leasePullLine : Statement .leasePullLine := of_none rfl
theorem leasePullComplete : Statement .leasePullComplete := of_none rfl
theorem leaseReturnReceived : Statement .leaseReturnReceived := of_none rfl
theorem leaseDeadline : Statement .leaseDeadline := of_none rfl
theorem fence (o : SArgs) : Statement (.fence o) :=
  of_minor (g := minor19x0) (mn32_packS 0x00 o) (unpackS_packS _ o) (fun _ => rfl) rfl rfl rfl (by decide) rfl (lt32 _)
theorem phase (o : SArgs) : Statement (.phase o) :=
  of_minor (g := minor19x0) (mn32_packS 0x01 o) (unpackS_packS _ o) (fun _ => rfl) rfl rfl rfl (by decide) rfl (lt32 _)
theorem bwait (o : SArgs) : Statement (.bwait o) :=
  of_minor (g := minor19x0) (mn32_packS 0x02 o) (unpackS_packS _ o) (fun _ => rfl) rfl rfl rfl (by decide) rfl (lt32 _)
theorem bwaitWake : Statement .bwaitWake := of_none rfl
theorem arrive (o : SArgs) : Statement (.arrive o) :=
  of_minor (g := minor19x0) (mn32_packS 0x03 o) (unpackS_packS _ o) (fun w => congrArg some (arriveOf_arrive o w)) rfl rfl rfl (by decide) rfl (lt32 _)
theorem arriveRemote (o : SArgs) : Statement (.arriveRemote o) :=
  of_minor (g := minor19x0) (mn32_packS 0x03 o) (unpackS_packS _ o) (fun w => congrArg some (arriveOf_arriveRemote o w)) rfl rfl rfl (by decide) rfl (lt32 _)
theorem arriveLeave (o : SArgs) : Statement (.arriveLeave o) :=
  of_minor (g := minor19x0) (mn32_packS 0x03 o) (unpackS_packS _ o) (fun w => congrArg some (arriveOf_arriveLeave o w)) rfl rfl rfl (by decide) rfl (lt32 _)
theorem arriveJoin (o : SArgs) : Statement (.arriveJoin o) :=
  of_minor (g := minor19x0) (mn32_packS 0x03 o) (unpackS_packS _ o) (fun w => congrArg some (arriveOf_arriveJoin o w)) rfl rfl rfl (by decide) rfl (lt32 _)
theorem fput (o : SArgs) : Statement (.fput o) :=
  of_minor (g := minor19x0) (mn32_packS 0x04 o) (unpackS_packS _ o) (fun _ => rfl) rfl rfl rfl (by decide) rfl (lt32 _)
theorem fget (o : SArgs) : Statement (.fget o) :=
  of_minor (g := minor19x0) (mn32_packS 0x05 o) (unpackS_packS _ o) (fun _ => rfl) rfl rfl rfl (by decide) rfl (lt32 _)
theorem fgetWake : Statement .fgetWake := of_none rfl
theorem twk (o : MArgs) : Statement (.twk o) :=
  of_minor (g := minor1Ax0) (mn64_packM 0x00 o) (unpackM_packM _ o) (fun _ => rfl) rfl rfl rfl (by decide) rfl (BitVec.isLt _)
theorem twkm (o : MArgs) : Statement (.twkm o) :=
  of_minor (g := minor1Ax0) (mn64_packM 0x01 o) (unpackM_packM _ o) (fun _ => rfl) rfl rfl rfl (by decide) rfl (BitVec.isLt _)
theorem grant (o : MArgs) : Statement (.grant o) :=
  of_minor (g := minor1Ax0) (mn64_packM 0x02 o) (unpackM_packM _ o) (fun _ => rfl) rfl rfl rfl (by decide) rfl (BitVec.isLt _)
theorem copy (o : MArgs) : Statement (.copy o) :=
  of_minor (g := minor1Ax0) (mn64_packM 0x03 o) (unpackM_packM _ o) (fun _ => rfl) rfl rfl rfl (by decide) rfl (BitVec.isLt _)
theorem rcopy (o : MArgs) : Statement (.rcopy o) :=
  of_minor (g := minor1Ax0) (mn64_packM 0x04 o) (unpackM_packM _ o) (fun _ => rfl) rfl rfl rfl (by decide) rfl (BitVec.isLt _)
theorem evwait (o : MArgs) : Statement (.evwait o) :=
  of_minor (g := minor1Ax0) (mn64_packM 0x05 o) (unpackM_packM _ o) (fun _ => rfl) rfl rfl rfl (by decide) rfl (BitVec.isLt _)
theorem evwaitWake : Statement .evwaitWake := of_none rfl
theorem wfeWake : Statement .wfeWake := of_none rfl
theorem permitCreditTake : Statement .permitCreditTake := of_none rfl
theorem trowelBeat : Statement .trowelBeat := of_none rfl
theorem engineCommandComplete : Statement .engineCommandComplete := of_none rfl
theorem spawn (o : RArgs) : Statement (.spawn o) :=
  of_minor (g := minor1Bx0) (mn32_packR 0x00 o) (congrArg some (unpackR_packR _ o)) (fun _ => rfl) rfl rfl rfl (by decide) rfl (lt32 _)
theorem spawnArrival : Statement .spawnArrival := of_none rfl
theorem cancel (o : RArgs) : Statement (.cancel o) :=
  of_minor (g := minor1Bx0) (mn32_packR 0x01 o) (congrArg some (unpackR_packR _ o)) (fun _ => rfl) rfl rfl rfl (by decide) rfl (lt32 _)
theorem cancelMark : Statement .cancelMark := of_none rfl
theorem done (o : RArgs) : Statement (.done o) :=
  of_minor (g := minor1Bx0) (mn32_packR 0x02 o) (congrArg some (unpackR_packR _ o)) (fun _ => rfl) rfl rfl rfl (by decide) rfl (lt32 _)
theorem yieldSeq (o : RArgs) : Statement (.yieldSeq o) :=
  of_minor (g := minor1Bx0) (mn32_packR 0x03 o) (congrArg some (unpackR_packR _ o)) (fun _ => rfl) rfl rfl rfl (by decide) rfl (lt32 _)
theorem launch (o : RArgs) : Statement (.launch o) :=
  of_minor (g := minor1Bx0) (mn32_packR 0x04 o) (congrArg some (unpackR_packR _ o)) (fun _ => rfl) rfl rfl rfl (by decide) rfl (lt32 _)
theorem launchComplete : Statement .launchComplete := of_none rfl
theorem hostQueueRecord : Statement .hostQueueRecord := of_none rfl
theorem hiveDispatch : Statement .hiveDispatch := of_none rfl
theorem energyAgeExpiry : Statement .energyAgeExpiry := of_none rfl
theorem hiveSteal : Statement .hiveSteal := of_none rfl
theorem stageReview : Statement .stageReview := of_none rfl
theorem preempt : Statement .preempt := of_none rfl
theorem contextResume : Statement .contextResume := of_none rfl
theorem tileStepIssue : Statement .tileStepIssue := of_none rfl
theorem tileRecordComplete : Statement .tileRecordComplete := of_none rfl
theorem tileStepStop : Statement .tileStepStop := of_none rfl
theorem vset (o : MArgs) : Statement (.vset o) :=
  of_minor (g := minor20x0) (mn64_packM 0x00 o) (unpackM_packM _ o) (fun w => congrArg some (vsetOf_vset o w)) rfl rfl rfl (by decide) rfl (BitVec.isLt _)
theorem vsetFree (o : MArgs) : Statement (.vsetFree o) :=
  of_minor (g := minor20x0) (mn64_packM 0x00 o) (unpackM_packM _ o) (fun w => congrArg some (vsetOf_vsetFree o w)) rfl rfl rfl (by decide) rfl (BitVec.isLt _)
theorem bfield (o : MArgs) : Statement (.bfield o) :=
  of_minor (g := minor20x0) (mn64_packM 0x01 o) (unpackM_packM _ o) (fun _ => rfl) rfl rfl rfl (by decide) rfl (BitVec.isLt _)
theorem bhalo (o : MArgs) : Statement (.bhalo o) :=
  of_minor (g := minor20x0) (mn64_packM 0x02 o) (unpackM_packM _ o) (fun _ => rfl) rfl rfl rfl (by decide) rfl (BitVec.isLt _)
theorem vmov (o : VArgs) : Statement (.vmov o) :=
  of_minor (g := minor21x0) (mn64_packV 0x00 o) (unpackV_packV _ o) (fun _ => rfl) rfl rfl rfl (by decide) rfl (BitVec.isLt _)
theorem vbcast (o : VArgs) : Statement (.vbcast o) :=
  of_minor (g := minor21x0) (mn64_packV 0x01 o) (unpackV_packV _ o) (fun _ => rfl) rfl rfl rfl (by decide) rfl (BitVec.isLt _)
theorem vslide (o : VArgs) : Statement (.vslide o) :=
  of_minor (g := minor21x0) (mn64_packV 0x02 o) (unpackV_packV _ o) (fun _ => rfl) rfl rfl rfl (by decide) rfl (BitVec.isLt _)
theorem vtrans (o : VArgs) : Statement (.vtrans o) :=
  of_minor (g := minor21x0) (mn64_packV 0x03 o) (unpackV_packV _ o) (fun _ => rfl) rfl rfl rfl (by decide) rfl (BitVec.isLt _)
theorem vcomp (o : VArgs) : Statement (.vcomp o) :=
  of_minor (g := minor21x0) (mn64_packV 0x04 o) (unpackV_packV _ o) (fun _ => rfl) rfl rfl rfl (by decide) rfl (BitVec.isLt _)
theorem vexp (o : VArgs) : Statement (.vexp o) :=
  of_minor (g := minor21x0) (mn64_packV 0x05 o) (unpackV_packV _ o) (fun _ => rfl) rfl rfl rfl (by decide) rfl (BitVec.isLt _)
theorem vins (o : VArgs) : Statement (.vins o) :=
  of_minor (g := minor21x0) (mn64_packV 0x06 o) (unpackV_packV _ o) (fun _ => rfl) rfl rfl rfl (by decide) rfl (BitVec.isLt _)
theorem vext (o : VArgs) : Statement (.vext o) :=
  of_minor (g := minor21x0) (mn64_packV 0x07 o) (unpackV_packV _ o) (fun _ => rfl) rfl rfl rfl (by decide) rfl (BitVec.isLt _)
theorem vgath (o : VArgs) : Statement (.vgath o) :=
  of_minor (g := minor21x0) (mn64_packV 0x08 o) (unpackV_packV _ o) (fun _ => rfl) rfl rfl rfl (by decide) rfl (BitVec.isLt _)
theorem mand (o : RArgs) : Statement (.mand o) :=
  of_minor (g := minor22x0) (mn32_packR 0x00 o) (congrArg some (unpackR_packR _ o)) (fun _ => rfl) rfl rfl rfl (by decide) rfl (lt32 _)
theorem mor (o : RArgs) : Statement (.mor o) :=
  of_minor (g := minor22x0) (mn32_packR 0x01 o) (congrArg some (unpackR_packR _ o)) (fun _ => rfl) rfl rfl rfl (by decide) rfl (lt32 _)
theorem mxor (o : RArgs) : Statement (.mxor o) :=
  of_minor (g := minor22x0) (mn32_packR 0x02 o) (congrArg some (unpackR_packR _ o)) (fun _ => rfl) rfl rfl rfl (by decide) rfl (lt32 _)
theorem mnot (o : RArgs) : Statement (.mnot o) :=
  of_minor (g := minor22x0) (mn32_packR 0x03 o) (congrArg some (unpackR_packR _ o)) (fun _ => rfl) rfl rfl rfl (by decide) rfl (lt32 _)
theorem mpopc (o : RArgs) : Statement (.mpopc o) :=
  of_minor (g := minor22x0) (mn32_packR 0x04 o) (congrArg some (unpackR_packR _ o)) (fun _ => rfl) rfl rfl rfl (by decide) rfl (lt32 _)
theorem mfirst (o : RArgs) : Statement (.mfirst o) :=
  of_minor (g := minor22x0) (mn32_packR 0x05 o) (congrArg some (unpackR_packR _ o)) (fun _ => rfl) rfl rfl rfl (by decide) rfl (lt32 _)
theorem miota (o : RArgs) : Statement (.miota o) :=
  of_minor (g := minor22x0) (mn32_packR 0x06 o) (congrArg some (unpackR_packR _ o)) (fun _ => rfl) rfl rfl rfl (by decide) rfl (lt32 _)
theorem mset (o : RArgs) : Statement (.mset o) :=
  of_minor (g := minor22x0) (mn32_packR 0x07 o) (congrArg some (unpackR_packR _ o)) (fun _ => rfl) rfl rfl rfl (by decide) rfl (lt32 _)
theorem vadd (o : VArgs) : Statement (.vadd o) :=
  of_minor (g := minor23x0) (mn64_packV 0x00 o) (unpackV_packV _ o) (fun _ => rfl) rfl rfl rfl (by decide) rfl (BitVec.isLt _)
theorem vsub (o : VArgs) : Statement (.vsub o) :=
  of_minor (g := minor23x0) (mn64_packV 0x01 o) (unpackV_packV _ o) (fun _ => rfl) rfl rfl rfl (by decide) rfl (BitVec.isLt _)
theorem vmul (o : VArgs) : Statement (.vmul o) :=
  of_minor (g := minor23x0) (mn64_packV 0x02 o) (unpackV_packV _ o) (fun _ => rfl) rfl rfl rfl (by decide) rfl (BitVec.isLt _)
theorem vmulh (o : VArgs) : Statement (.vmulh o) :=
  of_minor (g := minor23x0) (mn64_packV 0x03 o) (unpackV_packV _ o) (fun _ => rfl) rfl rfl rfl (by decide) rfl (BitVec.isLt _)
theorem vdiv (o : VArgs) : Statement (.vdiv o) :=
  of_minor (g := minor23x0) (mn64_packV 0x04 o) (unpackV_packV _ o) (fun _ => rfl) rfl rfl rfl (by decide) rfl (BitVec.isLt _)
theorem vrem (o : VArgs) : Statement (.vrem o) :=
  of_minor (g := minor23x0) (mn64_packV 0x05 o) (unpackV_packV _ o) (fun _ => rfl) rfl rfl rfl (by decide) rfl (BitVec.isLt _)
theorem vmin (o : VArgs) : Statement (.vmin o) :=
  of_minor (g := minor23x0) (mn64_packV 0x06 o) (unpackV_packV _ o) (fun _ => rfl) rfl rfl rfl (by decide) rfl (BitVec.isLt _)
theorem vmax (o : VArgs) : Statement (.vmax o) :=
  of_minor (g := minor23x0) (mn64_packV 0x07 o) (unpackV_packV _ o) (fun _ => rfl) rfl rfl rfl (by decide) rfl (BitVec.isLt _)
theorem vabs (o : VArgs) : Statement (.vabs o) :=
  of_minor (g := minor23x0) (mn64_packV 0x08 o) (unpackV_packV _ o) (fun _ => rfl) rfl rfl rfl (by decide) rfl (BitVec.isLt _)
theorem vand (o : VArgs) : Statement (.vand o) :=
  of_minor (g := minor23x0) (mn64_packV 0x09 o) (unpackV_packV _ o) (fun _ => rfl) rfl rfl rfl (by decide) rfl (BitVec.isLt _)
theorem vor (o : VArgs) : Statement (.vor o) :=
  of_minor (g := minor23x0) (mn64_packV 0x0A o) (unpackV_packV _ o) (fun _ => rfl) rfl rfl rfl (by decide) rfl (BitVec.isLt _)
theorem vxor (o : VArgs) : Statement (.vxor o) :=
  of_minor (g := minor23x0) (mn64_packV 0x0B o) (unpackV_packV _ o) (fun _ => rfl) rfl rfl rfl (by decide) rfl (BitVec.isLt _)
theorem vshl (o : VArgs) : Statement (.vshl o) :=
  of_minor (g := minor23x0) (mn64_packV 0x0C o) (unpackV_packV _ o) (fun _ => rfl) rfl rfl rfl (by decide) rfl (BitVec.isLt _)
theorem vshr (o : VArgs) : Statement (.vshr o) :=
  of_minor (g := minor23x0) (mn64_packV 0x0D o) (unpackV_packV _ o) (fun _ => rfl) rfl rfl rfl (by decide) rfl (BitVec.isLt _)
theorem vsra (o : VArgs) : Statement (.vsra o) :=
  of_minor (g := minor23x0) (mn64_packV 0x0E o) (unpackV_packV _ o) (fun _ => rfl) rfl rfl rfl (by decide) rfl (BitVec.isLt _)
theorem vsadd (o : VArgs) : Statement (.vsadd o) :=
  of_minor (g := minor23x0) (mn64_packV 0x0F o) (unpackV_packV _ o) (fun _ => rfl) rfl rfl rfl (by decide) rfl (BitVec.isLt _)
theorem vssub (o : VArgs) : Statement (.vssub o) :=
  of_minor (g := minor23x0) (mn64_packV 0x10 o) (unpackV_packV _ o) (fun _ => rfl) rfl rfl rfl (by decide) rfl (BitVec.isLt _)
theorem vcmp (o : VArgs) : Statement (.vcmp o) :=
  of_minor (g := minor23x0) (mn64_packV 0x11 o) (unpackV_packV _ o) (fun _ => rfl) rfl rfl rfl (by decide) rfl (BitVec.isLt _)
theorem vsel (o : VArgs) : Statement (.vsel o) :=
  of_minor (g := minor23x0) (mn64_packV 0x12 o) (unpackV_packV _ o) (fun _ => rfl) rfl rfl rfl (by decide) rfl (BitVec.isLt _)
theorem vclz (o : VArgs) : Statement (.vclz o) :=
  of_minor (g := minor23x0) (mn64_packV 0x13 o) (unpackV_packV _ o) (fun _ => rfl) rfl rfl rfl (by decide) rfl (BitVec.isLt _)
theorem vpopc (o : VArgs) : Statement (.vpopc o) :=
  of_minor (g := minor23x0) (mn64_packV 0x14 o) (unpackV_packV _ o) (fun _ => rfl) rfl rfl rfl (by decide) rfl (BitVec.isLt _)
theorem vfadd (o : VArgs) : Statement (.vfadd o) :=
  of_minor (g := minor24x0) (mn64_packV 0x00 o) (unpackV_packV _ o) (fun _ => rfl) rfl rfl rfl (by decide) rfl (BitVec.isLt _)
theorem vfsub (o : VArgs) : Statement (.vfsub o) :=
  of_minor (g := minor24x0) (mn64_packV 0x01 o) (unpackV_packV _ o) (fun _ => rfl) rfl rfl rfl (by decide) rfl (BitVec.isLt _)
theorem vfmul (o : VArgs) : Statement (.vfmul o) :=
  of_minor (g := minor24x0) (mn64_packV 0x02 o) (unpackV_packV _ o) (fun _ => rfl) rfl rfl rfl (by decide) rfl (BitVec.isLt _)
theorem vfdiv (o : VArgs) : Statement (.vfdiv o) :=
  of_minor (g := minor24x0) (mn64_packV 0x03 o) (unpackV_packV _ o) (fun _ => rfl) rfl rfl rfl (by decide) rfl (BitVec.isLt _)
theorem vfsqrt (o : VArgs) : Statement (.vfsqrt o) :=
  of_minor (g := minor24x0) (mn64_packV 0x04 o) (unpackV_packV _ o) (fun _ => rfl) rfl rfl rfl (by decide) rfl (BitVec.isLt _)
theorem vfmin (o : VArgs) : Statement (.vfmin o) :=
  of_minor (g := minor24x0) (mn64_packV 0x05 o) (unpackV_packV _ o) (fun _ => rfl) rfl rfl rfl (by decide) rfl (BitVec.isLt _)
theorem vfmax (o : VArgs) : Statement (.vfmax o) :=
  of_minor (g := minor24x0) (mn64_packV 0x06 o) (unpackV_packV _ o) (fun _ => rfl) rfl rfl rfl (by decide) rfl (BitVec.isLt _)
theorem vfabs (o : VArgs) : Statement (.vfabs o) :=
  of_minor (g := minor24x0) (mn64_packV 0x07 o) (unpackV_packV _ o) (fun _ => rfl) rfl rfl rfl (by decide) rfl (BitVec.isLt _)
theorem vfneg (o : VArgs) : Statement (.vfneg o) :=
  of_minor (g := minor24x0) (mn64_packV 0x08 o) (unpackV_packV _ o) (fun _ => rfl) rfl rfl rfl (by decide) rfl (BitVec.isLt _)
theorem vfcmp (o : VArgs) : Statement (.vfcmp o) :=
  of_minor (g := minor24x0) (mn64_packV 0x09 o) (unpackV_packV _ o) (fun _ => rfl) rfl rfl rfl (by decide) rfl (BitVec.isLt _)
theorem vfclass (o : VArgs) : Statement (.vfclass o) :=
  of_minor (g := minor24x0) (mn64_packV 0x0A o) (unpackV_packV _ o) (fun _ => rfl) rfl rfl rfl (by decide) rfl (BitVec.isLt _)
theorem vfma (o : VArgs) : Statement (.vfma o) :=
  of_minor (g := minor25x0) (mn64_packV 0x00 o) (unpackV_packV _ o) (fun _ => rfl) rfl rfl rfl (by decide) rfl (BitVec.isLt _)
theorem vfms (o : VArgs) : Statement (.vfms o) :=
  of_minor (g := minor25x0) (mn64_packV 0x01 o) (unpackV_packV _ o) (fun _ => rfl) rfl rfl rfl (by decide) rfl (BitVec.isLt _)
theorem vfnma (o : VArgs) : Statement (.vfnma o) :=
  of_minor (g := minor25x0) (mn64_packV 0x02 o) (unpackV_packV _ o) (fun _ => rfl) rfl rfl rfl (by decide) rfl (BitVec.isLt _)
theorem vfnms (o : VArgs) : Statement (.vfnms o) :=
  of_minor (g := minor25x0) (mn64_packV 0x03 o) (unpackV_packV _ o) (fun _ => rfl) rfl rfl rfl (by decide) rfl (BitVec.isLt _)
theorem vcvtn (o : VArgs) : Statement (.vcvtn o) :=
  of_minor (g := minor26x0) (mn64_packV 0x00 o) (unpackV_packV _ o) (fun _ => rfl) rfl rfl rfl (by decide) rfl (BitVec.isLt _)
theorem vcvtw (o : VArgs) : Statement (.vcvtw o) :=
  of_minor (g := minor26x0) (mn64_packV 0x01 o) (unpackV_packV _ o) (fun _ => rfl) rfl rfl rfl (by decide) rfl (BitVec.isLt _)
theorem vcvti (o : VArgs) : Statement (.vcvti o) :=
  of_minor (g := minor26x0) (mn64_packV 0x02 o) (unpackV_packV _ o) (fun _ => rfl) rfl rfl rfl (by decide) rfl (BitVec.isLt _)
theorem vq4 (o : VArgs) : Statement (.vq4 o) :=
  of_minor (g := minor26x0) (mn64_packV 0x03 o) (unpackV_packV _ o) (fun _ => rfl) rfl rfl rfl (by decide) rfl (BitVec.isLt _)
theorem vredo (o : VArgs) : Statement (.vredo o) :=
  of_minor (g := minor27x0) (mn64_packV 0x00 o) (unpackV_packV _ o) (fun _ => rfl) rfl rfl rfl (by decide) rfl (BitVec.isLt _)
theorem vredt (o : VArgs) : Statement (.vredt o) :=
  of_minor (g := minor27x0) (mn64_packV 0x01 o) (unpackV_packV _ o) (fun _ => rfl) rfl rfl rfl (by decide) rfl (BitVec.isLt _)
theorem vredm (o : VArgs) : Statement (.vredm o) :=
  of_minor (g := minor27x0) (mn64_packV 0x02 o) (unpackV_packV _ o) (fun _ => rfl) rfl rfl rfl (by decide) rfl (BitVec.isLt _)
theorem vredb (o : VArgs) : Statement (.vredb o) :=
  of_minor (g := minor27x0) (mn64_packV 0x03 o) (unpackV_packV _ o) (fun _ => rfl) rfl rfl rfl (by decide) rfl (BitVec.isLt _)
theorem vrcp (o : VArgs) : Statement (.vrcp o) :=
  of_minor (g := minor28x0) (mn64_packV 0x00 o) (unpackV_packV _ o) (fun _ => rfl) rfl rfl rfl (by decide) rfl (BitVec.isLt _)
theorem vrsq (o : VArgs) : Statement (.vrsq o) :=
  of_minor (g := minor28x0) (mn64_packV 0x01 o) (unpackV_packV _ o) (fun _ => rfl) rfl rfl rfl (by decide) rfl (BitVec.isLt _)
theorem vexp2 (o : VArgs) : Statement (.vexp2 o) :=
  of_minor (g := minor28x0) (mn64_packV 0x02 o) (unpackV_packV _ o) (fun _ => rfl) rfl rfl rfl (by decide) rfl (BitVec.isLt _)
theorem vlog2 (o : VArgs) : Statement (.vlog2 o) :=
  of_minor (g := minor28x0) (mn64_packV 0x03 o) (unpackV_packV _ o) (fun _ => rfl) rfl rfl rfl (by decide) rfl (BitVec.isLt _)
theorem mcfg (o : MArgs) : Statement (.mcfg o) :=
  of_minor (g := minor30x0) (mn64_packM 0x00 o) (unpackM_packM _ o) (fun _ => rfl) rfl rfl rfl (by decide) rfl (BitVec.isLt _)
theorem mstep (o : MArgs) : Statement (.mstep o) :=
  of_minor (g := minor30x0) (mn64_packM 0x01 o) (unpackM_packM _ o) (fun _ => rfl) rfl rfl rfl (by decide) rfl (BitVec.isLt _)
theorem mzero (o : MArgs) : Statement (.mzero o) :=
  of_minor (g := minor30x0) (mn64_packM 0x02 o) (unpackM_packM _ o) (fun _ => rfl) rfl rfl rfl (by decide) rfl (BitVec.isLt _)
theorem mrda (o : MArgs) : Statement (.mrda o) :=
  of_minor (g := minor30x0) (mn64_packM 0x03 o) (unpackM_packM _ o) (fun _ => rfl) rfl rfl rfl (by decide) rfl (BitVec.isLt _)
theorem mwra (o : MArgs) : Statement (.mwra o) :=
  of_minor (g := minor30x0) (mn64_packM 0x04 o) (unpackM_packM _ o) (fun _ => rfl) rfl rfl rfl (by decide) rfl (BitVec.isLt _)
theorem mdrainBrk (o : MArgs) : Statement (.mdrainBrk o) :=
  of_minor (g := minor30x0) (mn64_packM 0x05 o) (unpackM_packM _ o) (fun w => congrArg some (mdrainOf_mdrainBrk o w)) rfl rfl rfl (by decide) rfl (BitVec.isLt _)
theorem mdrainMem (o : MArgs) : Statement (.mdrainMem o) :=
  of_minor (g := minor30x0) (mn64_packM 0x05 o) (unpackM_packM _ o) (fun w => congrArg some (mdrainOf_mdrainMem o w)) rfl rfl rfl (by decide) rfl (BitVec.isLt _)
theorem longLatencyComplete : Statement .longLatencyComplete := of_none rfl
theorem dieFlitReceive : Statement .dieFlitReceive := of_none rfl
theorem dieAckReceive : Statement .dieAckReceive := of_none rfl
theorem dieResendTimeout : Statement .dieResendTimeout := of_none rfl
theorem dieLinkRetrain : Statement .dieLinkRetrain := of_none rfl
theorem dieLinkFail : Statement .dieLinkFail := of_none rfl
theorem relovPacketReceive : Statement .relovPacketReceive := of_none rfl
theorem relovAckTimer : Statement .relovAckTimer := of_none rfl
theorem relovAckReceive : Statement .relovAckReceive := of_none rfl
theorem relovResendTimeout : Statement .relovResendTimeout := of_none rfl
theorem relovDoneReceive : Statement .relovDoneReceive := of_none rfl
theorem relovPathFailure : Statement .relovPathFailure := of_none rfl
theorem relovCombineApply : Statement .relovCombineApply := of_none rfl
theorem hostBarRead : Statement .hostBarRead := of_none rfl
theorem hostBarWrite : Statement .hostBarWrite := of_none rfl
theorem hostAtomicopCompleter : Statement .hostAtomicopCompleter := of_none rfl
theorem hostCompletionReceive : Statement .hostCompletionReceive := of_none rfl
theorem bandwidthRefill : Statement .bandwidthRefill := of_none rfl
theorem powerControlTick : Statement .powerControlTick := of_none rfl
theorem thermalTrip : Statement .thermalTrip := of_none rfl
theorem supplyFault : Statement .supplyFault := of_none rfl
theorem coreSleep : Statement .coreSleep := of_none rfl
theorem coreWake : Statement .coreWake := of_none rfl
theorem powerOnReset : Statement .powerOnReset := of_none rfl
theorem firmwareUpdate : Statement .firmwareUpdate := of_none rfl
theorem mgmtRestart : Statement .mgmtRestart := of_none rfl
theorem mgmtHealthTimeout : Statement .mgmtHealthTimeout := of_none rfl
theorem mailboxCloseReopen : Statement .mailboxCloseReopen := of_none rfl
theorem mailboxServiceChange : Statement .mailboxServiceChange := of_none rfl
theorem mailboxAccessTableWrite : Statement .mailboxAccessTableWrite := of_none rfl
theorem mailboxShareTotal : Statement .mailboxShareTotal := of_none rfl
theorem mailboxMeasurementExtend : Statement .mailboxMeasurementExtend := of_none rfl
theorem mailboxSvnRequest : Statement .mailboxSvnRequest := of_none rfl
theorem mailboxSubmissionContext : Statement .mailboxSubmissionContext := of_none rfl
theorem getVersion : Statement .getVersion := of_none rfl
theorem getCapabilities : Statement .getCapabilities := of_none rfl
theorem negotiateAlgorithms : Statement .negotiateAlgorithms := of_none rfl
theorem getCertificate : Statement .getCertificate := of_none rfl
theorem challenge : Statement .challenge := of_none rfl
theorem getMeasurements : Statement .getMeasurements := of_none rfl
theorem keyExchange : Statement .keyExchange := of_none rfl
theorem keySlotLoad : Statement .keySlotLoad := of_none rfl
theorem keySlotErase : Statement .keySlotErase := of_none rfl
theorem illegalInstruction : Statement .illegalInstruction := of_none rfl
theorem boundaryRetrained : Statement .boundaryRetrained := of_none rfl
theorem coreFailure : Statement .coreFailure := of_none rfl

end Sys2Proof.Laws.RoundTrip
end

