-- ==== Sys2Proof/Laws/Release.lean ====
section
/-! SUPPORT. What a release and an acquire do (R158, R160), each said once. -/

namespace Sys2Proof.Machine

variable {s : State}

/-- No store of the core is held back: the stores on their way are recorded. -/
theorem Runs.storesAcked (h : (drainCore (coreOf s.cur) s).unacked (coreOf s.cur) = none) :
    Runs storesAcked s () (drainCore (coreOf s.cur) s) := by
  refine (Runs.me s).bind ((Runs.modify _ s).bind ((Runs.get _).bind ?_))
  rw [h]; exact Runs.pure _ _

/-- A store that its home holds back is waited for. -/
theorem StopsWith.storesAcked {p : PendReg} (h : (drainCore (coreOf s.cur) s).unacked (coreOf s.cur) = some p) :
    StopsWith storesAcked s (.wait (.held (4 * p.word))) (drainCore (coreOf s.cur) s) := by
  refine (Runs.me s).bindStop ((Runs.modify _ s).bindStop ((Runs.get _).bindStop ?_))
  rw [h]; exact StopsWith.stopWait _ _

/-- A release that need not wait. -/
theorem Runs.release {sc : Scope} (h : s.mayRelease sc) : Runs (release sc) s () (s.released sc) := by
  have acked (hs : sc ≠ .seq) := Runs.storesAcked (h.1 hs)
  cases sc with
  | seq => rfl
  | sys =>
    refine (Runs.me s).bind ((Runs.get s).bind ?_)
    simp only [h.2 rfl]
    exact (acked nofun).bind ((Runs.modify _ _).bind (Runs.modify _ _))
  | _ => exact (Runs.me s).bind ((Runs.get s).bind ((acked nofun).bind (Runs.modify _ _)))

theorem Runs.acquire (sc : Scope) (s : State) : Runs (acquire sc) s () (acquireL1 (coreOf s.cur) sc s) := rfl

end Sys2Proof.Machine
end

