-- ==== Sys2Proof/Laws/Scalar.lean ====
section
/-! SUPPORT. The shared shapes of the scalar instructions: what each does when its registers are full. -/

namespace Sys2Proof.Machine

variable {s : State}

theorem Runs.salu2 {o : RArgs} {f : DWord → DWord → DWord} (ha : s.full .scalar o.sa.reg) (hb : s.full .scalar o.sb.reg)
    (hd : s.full .scalar o.d) :
    Runs (salu2 o f) s () (s.modSeq s.cur (·.setScalar o.d (f (s.self.scalar o.sa.reg) (s.self.scalar o.sb.reg)))) :=
  (Runs.readS ha).bind ((Runs.readS hb).bind (Runs.writeS hd))

theorem Runs.salu1 {o : RArgs} {f : DWord → DWord} (ha : s.full .scalar o.sa.reg) (hd : s.full .scalar o.d) :
    Runs (salu1 o f) s () (s.modSeq s.cur (·.setScalar o.d (f (s.self.scalar o.sa.reg)))) :=
  (Runs.readS ha).bind (Runs.writeS hd)

theorem Runs.saluDiv {o : RArgs} {f : DWord → DWord → DWord} (ha : s.full .scalar o.sa.reg) (hb : s.full .scalar o.sb.reg)
    (hd : s.full .scalar o.d) (h : s.self.scalar o.sb.reg ≠ 0) :
    Runs (saluDiv o f) s () (s.modSeq s.cur (·.setScalar o.d (f (s.self.scalar o.sa.reg) (s.self.scalar o.sb.reg)))) := by
  refine (Runs.readS ha).bind ((Runs.readS hb).bind ?_)
  rw [if_neg h]
  exact (Runs.pure _ _).bind (Runs.writeS hd)

theorem StopsWith.saluDiv {o : RArgs} {f : DWord → DWord → DWord} (ha : s.full .scalar o.sa.reg) (hb : s.full .scalar o.sb.reg)
    (h : s.self.scalar o.sb.reg = 0) : StopsWith (saluDiv o f) s (.trap divideTrap) s := by
  refine (Runs.readS ha).bindStop ((Runs.readS hb).bindStop ?_)
  rw [if_pos h]
  exact StopsWith.bind (StopsWith.stopTrap _ _)

theorem Runs.saluI {o : IArgs} {f : DWord → DWord → DWord} (ha : s.full .scalar o.sa.reg) (hd : s.full .scalar o.d) :
    Runs (saluI o f) s () (s.modSeq s.cur (·.setScalar o.d (f (s.self.scalar o.sa.reg) (o.imm.signExtend 64)))) :=
  (Runs.readS ha).bind (Runs.writeS hd)

theorem Runs.saluShift {o : IArgs} {f : DWord → Nat → DWord} (ha : s.full .scalar o.sa.reg) (hd : s.full .scalar o.d) :
    Runs (saluShift o f) s () (s.modSeq s.cur (·.setScalar o.d (f (s.self.scalar o.sa.reg) (o.imm.toNat % 64)))) :=
  (Runs.readS ha).bind (Runs.writeS hd)

/-- Flags none of which is enabled merge into FSR (R83). -/
theorem Runs.raiseFlags {f : Flags} {e : Nat} (h : f &&& s.self.enables = 0) :
    Runs (raiseFlags f e) s () (if f = 0 then s else s.modSeq s.cur (·.mergeFlags f)) := by
  refine (Runs.mySeq s).bind ?_
  rw [if_neg (by simp [h])]
  show Runs (if (f != 0) = true then Machine.modMe (·.mergeFlags f) else Pure.pure ()) _ _ _
  by_cases h0 : f = 0
  · subst h0; exact Runs.pure _ _
  · rw [if_pos (bne_iff_ne.2 h0), if_neg h0]; exact Runs.modMe _ _

/-- An enabled flag traps (R84). -/
theorem StopsWith.raiseFlags {f : Flags} {e : Nat} (h : f &&& s.self.enables ≠ 0) :
    StopsWith (raiseFlags f e) s (.trap (floatTrap f e)) s := by
  refine (Runs.mySeq s).bindStop ?_
  rw [if_pos (by simpa using h)]
  exact StopsWith.bind (StopsWith.stopTrap _ _)

theorem Runs.pred2 {o : RArgs} {f : Bool → Bool → Bool} :
    Runs (pred2 o f) s () (s.modSeq s.cur (·.setPred o.d.toNat (f (s.self.pred o.sa.reg.toNat) (s.self.pred o.sb.reg.toNat)))) :=
  (Runs.readP _ _).bind ((Runs.readP _ _).bind (Runs.writeP _ _ _))

end Sys2Proof.Machine
end

