-- ==== Sys2Proof/Tests/Slice0.lean ====
section
/-! SUPPORT. The model's own tests: words written out from the encoding tables and what they decode to, terms that each
static check refuses, one step of instructions on small states, and for every obligation a state that meets its hypotheses. -/
namespace Sys2Proof.Tests
open Sys2Proof Sys2Proof.Machine
set_option Elab.async false
/-- Heads and tails, written out from the tables of R12, R18 to R24 and R40, decode to these instructions. -/
abbrev readsAs (words : List (BitVec 16 × BitVec 64)) (is : List (Option Instr)) : Prop :=
  words.map (fun w => (decode w.1 w.2).toOption) = is
/-- Every one of these instructions fails a static check. -/
abbrev refusesAll (is : List Instr) : Prop := is.all (fun i => !wellFormed i) = true

/-- Encodings that the chapters of the spec print with the instruction. -/
theorem test_printed_encodings_xlat : readsAs
    [(0x6200, 0x102A20)]
    [some (.tlbinv ⟨0, ⟨4, false⟩, ⟨5, false⟩, 0x220⟩)] := by decide

/-- Encodings that the chapters of the spec print with the instruction. -/
theorem test_printed_encodings_tier : readsAs
    [(0x5F00, 0x210280000000000),
     (0x5F1C, 0x2048A000040004),
     (0x5F00, 0x60C105000000000),
     (0x5F00, 0x40C680000000000)]
    [some (.disc ⟨0, ⟨4, false⟩, ⟨5, false⟩, ⟨0, false⟩, .seq, .rlx, 0, 0⟩),
     some (.resvNew ⟨7, ⟨8, false⟩, ⟨9, false⟩, ⟨10, false⟩, .seq, .rlx, 4, 4⟩),
     some (.cfork ⟨0, ⟨3, false⟩, ⟨2, false⟩, ⟨5, false⟩, .seq, .rlx, 0, 0⟩),
     some (.promo ⟨0, ⟨3, false⟩, ⟨13, false⟩, ⟨0, false⟩, .seq, .rlx, 0, 0⟩)] := by decide

/-- Encodings that the chapters of the spec print with the instruction. -/
theorem test_printed_encodings_cache : readsAs
    [(0x5A00, 0x102800),
     (0x5A00, 0x1183801),
     (0x5A00, 0x2204800)]
    [some (.skim ⟨0, ⟨4, false⟩, ⟨5, false⟩, 0⟩),
     some (.wbr ⟨0, ⟨6, false⟩, ⟨7, false⟩, 1⟩),
     some (.flctx ⟨0, ⟨8, false⟩, ⟨9, false⟩, 0⟩)] := by decide

/-- Encodings that the chapters of the spec print with the instruction. -/
theorem test_printed_encodings_memory : readsAs
    [(0x4214, 0x62100010),
     (0x4614, 0xA311FFF8),
     (0x4224, 0x6B5C0000),
     (0x4B0C, 0x10000000013201)]
    [some (.ld ⟨5, .acq, .dev, 2, ⟨4, false⟩, 16⟩),
     some (.st ⟨5, .rel, .dev, 3, ⟨4, false⟩, 0x1FFF8⟩),
     some (.ld ⟨9, .acq, .sys, 3, ⟨23, false⟩, 0⟩),
     some (.vldUnit ⟨3, ⟨4, false⟩, ⟨0, false⟩, ⟨0, false⟩, ⟨0, 0, 0⟩, ⟨0, 0, 0⟩, true, 1, .f32, .rne, 1⟩)] := by decide

/-- Encodings that the chapters of the spec print with the instruction. -/
theorem test_printed_encodings_atomics : readsAs
    [(0x5214, 0x103190),
     (0x5220, 0x111052A0),
     (0x5200, 0x274F810),
     (0x5708, 0x10286000012400)]
    [some (.amoAdd ⟨5, ⟨4, false⟩, ⟨6, false⟩, .acq, .dev, 2⟩),
     some (.cas2 ⟨8, ⟨4, false⟩, ⟨10, false⟩, .rel, .sys, 0⟩),
     some (.amoOr ⟨0, ⟨29, false⟩, ⟨31, false⟩, .rlx, .seq, 2⟩),
     some (.vamoAdd ⟨2, ⟨4, false⟩, ⟨5, false⟩, ⟨6, false⟩, ⟨0, 0, 0⟩, ⟨0, 0, 0⟩, true, 1, .i32, .rne, 0⟩)] := by decide

/-- Encodings that the chapters of the spec print with the instruction. -/
theorem test_printed_encodings_engines : readsAs
    [(0x6B14, 0x10000000130007),
     (0x6B18, 0x42048A580010002)]
    [some (.twk ⟨5, ⟨4, false⟩, ⟨0, false⟩, ⟨0, false⟩, .seq, .rlx, 0x13, 7⟩),
     some (.rcopy ⟨6, ⟨8, false⟩, ⟨9, false⟩, ⟨10, false⟩, .sys, .rel, 1, 2⟩)] := by decide

/-- Encodings that the chapters of the spec print with the instruction. -/
theorem test_printed_encodings_system : readsAs
    [(0x3220, 0x3000002),
     (0x3200, 0x2140011),
     (0x3214, 0x4000000),
     (0x3218, 0x5100000),
     (0x3270, 0x18)]
    [some (.evpop ⟨8, ⟨0, false⟩, ⟨0, false⟩, 2⟩),
     some (.trap ⟨0, ⟨5, false⟩, ⟨0, false⟩, 17⟩),
     some (.ctxsv ⟨5, ⟨0, false⟩, ⟨0, false⟩, 0⟩),
     some (.ctxld ⟨6, ⟨4, false⟩, ⟨0, false⟩, 0⟩),
     some (.crd ⟨28, ⟨0, false⟩, ⟨0, false⟩, 0x18⟩)] := by decide

/-- Encodings that the chapters of the spec print with the instruction. -/
theorem test_printed_encodings_bricks : readsAs
    [(0x8314, 0x1000000000001A),
     (0x8320, 0x1000000000A0001),
     (0x870C, 0x20000004015200),
     (0x8A08, 0x41800),
     (0x8718, 0x114000000001201)]
    [some (.vset ⟨5, ⟨4, false⟩, ⟨0, false⟩, ⟨0, false⟩, .seq, .rlx, 0, 0x1A⟩),
     some (.bfield ⟨8, ⟨0, false⟩, ⟨0, false⟩, ⟨0, false⟩, .seq, .rlx, 10, 1⟩),
     some (.vmov ⟨3, ⟨8, false⟩, ⟨0, false⟩, ⟨0, false⟩, ⟨0, 0, 1⟩, ⟨0, 0, 0⟩, true, 2, .f32, .rne, 0⟩),
     some (.mand ⟨2, ⟨1, false⟩, ⟨3, false⟩, 0⟩),
     some (.vbcast ⟨6, ⟨5, false⟩, ⟨0, false⟩, ⟨0, false⟩, ⟨0, 0, 0⟩, ⟨0, 0, 0⟩, false, 0, .f32, .rne, 1⟩)] := by decide

/-- Encodings that the chapters of the spec print with the instruction. -/
theorem test_printed_encodings_arithmetic : readsAs
    [(0x9B14, 0x10000000001354),
     (0x9B28, 0x30C000000001204),
     (0x9318, 0x218500000001201),
     (0x930C, 0x1244800000E1200),
     (0xA318, 0x118000000001200)]
    [some (.vcvtn ⟨5, ⟨4, false⟩, ⟨0, false⟩, ⟨0, false⟩, ⟨0, 0, 0⟩, ⟨0, 0, 0⟩, false, 0, .f32, .rsr, 0x14⟩),
     some (.vq4 ⟨10, ⟨3, false⟩, ⟨0, false⟩, ⟨0, false⟩, ⟨0, 0, 0⟩, ⟨0, 0, 0⟩, false, 0, .f32, .rne, 4⟩),
     some (.vfmul ⟨6, ⟨6, false⟩, ⟨10, false⟩, ⟨0, false⟩, ⟨0, 0, 0⟩, ⟨0, 0, 0⟩, false, 0, .f32, .rne, 1⟩),
     some (.vfsub ⟨3, ⟨9, false⟩, ⟨9, false⟩, ⟨0, false⟩, ⟨0, 0, 0⟩, ⟨0, 0, 7⟩, false, 0, .f32, .rne, 0⟩),
     some (.vrsq ⟨6, ⟨6, false⟩, ⟨0, false⟩, ⟨0, false⟩, ⟨0, 0, 0⟩, ⟨0, 0, 0⟩, false, 0, .f32, .rne, 0⟩)] := by decide

/-- Encodings that the chapters of the spec print with the instruction. -/
theorem test_printed_encodings_matrix : readsAs
    [(0xC314, 0x10000000000000),
     (0xC304, 0x118380000000000),
     (0xC304, 0x200000000000000),
     (0xC30C, 0x300280000000000),
     (0xC324, 0x504286000030008)]
    [some (.mcfg ⟨5, ⟨4, false⟩, ⟨0, false⟩, ⟨0, false⟩, .seq, .rlx, 0, 0⟩),
     some (.mstep ⟨1, ⟨6, false⟩, ⟨7, false⟩, ⟨0, false⟩, .seq, .rlx, 0, 0⟩),
     some (.mzero ⟨1, ⟨0, false⟩, ⟨0, false⟩, ⟨0, false⟩, .seq, .rlx, 0, 0⟩),
     some (.mrda ⟨3, ⟨0, false⟩, ⟨5, false⟩, ⟨0, false⟩, .seq, .rlx, 0, 0⟩),
     some (.mdrainMem ⟨9, ⟨1, false⟩, ⟨5, false⟩, ⟨6, false⟩, .seq, .rlx, 3, 8⟩)] := by decide

/-- Encodings that the chapters of the spec print with the instruction. -/
theorem test_printed_encodings_scalar : readsAs
    [(0x0614, 0x183800),
     (0x1204, 0x8183909),
     (0x2E44, 0x6385802),
     (0x2A08, 0x3C8000)]
    [some (.add ⟨5, ⟨6, false⟩, ⟨7, false⟩, 0⟩),
     some (.fcmp ⟨1, ⟨6, false⟩, ⟨7, false⟩, 2, .rne, .f32⟩),
     some (.csel ⟨17, ⟨14, false⟩, ⟨11, false⟩, 2⟩),
     some (.qpush ⟨2, ⟨15, false⟩, ⟨16, false⟩, 0⟩)] := by decide

/-- Encodings that the chapters of the spec print with the instruction. -/
theorem test_printed_encodings_tasks : readsAs
    [(0x6E04, 0x100000),
     (0x6E14, 0x1180000),
     (0x6E00, 0x2000000),
     (0x6E08, 0x3000000),
     (0x6E1C, 0x4200000)]
    [some (.spawn ⟨1, ⟨4, false⟩, ⟨0, false⟩, 0⟩),
     some (.cancel ⟨5, ⟨6, false⟩, ⟨0, false⟩, 0⟩),
     some (.done ⟨0, ⟨0, false⟩, ⟨0, false⟩, 0⟩),
     some (.yieldSeq ⟨2, ⟨0, false⟩, ⟨0, false⟩, 0⟩),
     some (.launch ⟨7, ⟨8, false⟩, ⟨0, false⟩, 0⟩)] := by decide

/-- Encodings that the chapters of the spec print with the instruction. -/
theorem test_printed_encodings_sync : readsAs
    [(0x6600, 0x380),
     (0x6614, 0x1100080),
     (0x6600, 0x2102880),
     (0x6618, 0x3100000),
     (0x6604, 0x4103280),
     (0x661C, 0x5100180)]
    [some (.fence ⟨0, ⟨0, false⟩, ⟨0, false⟩, .ar, .dev, 0⟩),
     some (.phase ⟨5, ⟨4, false⟩, ⟨0, false⟩, .rlx, .dev, 0⟩),
     some (.bwait ⟨0, ⟨4, false⟩, ⟨5, false⟩, .rlx, .dev, 0⟩),
     some (.arrive ⟨6, ⟨4, false⟩, ⟨0, false⟩, .rlx, .seq, 0⟩),
     some (.fput ⟨1, ⟨4, false⟩, ⟨6, false⟩, .rel, .dev, 0⟩),
     some (.fget ⟨7, ⟨4, false⟩, ⟨0, false⟩, .acq, .dev, 0⟩)] := by decide


theorem test_decode_alu : readsAs
    [(0x0624, 0x82C00),
     (0x060C, 0x1164800),
     (0x060C, 0x2242C00),
     (0x0624, 0x3160800),
     (0x06A4, 0x4242C00),
     (0x06A4, 0x5164800),
     (0x060C, 0x6160800),
     (0x060C, 0x7164800),
     (0x0624, 0x8164800),
     (0x0624, 0x9242C00),
     (0x060C, 0xA164800),
     (0x0624, 0xB164800)]
    [some (.add ⟨9, ⟨2, false⟩, ⟨5, true⟩, 0⟩),
     some (.sub ⟨3, ⟨5, true⟩, ⟨9, false⟩, 0⟩),
     some (.andB ⟨3, ⟨9, false⟩, ⟨5, true⟩, 0⟩),
     some (.orB ⟨9, ⟨5, true⟩, ⟨1, false⟩, 0⟩),
     some (.xorB ⟨41, ⟨9, false⟩, ⟨5, true⟩, 0⟩),
     some (.andn ⟨41, ⟨5, true⟩, ⟨9, false⟩, 0⟩),
     some (.shl ⟨3, ⟨5, true⟩, ⟨1, false⟩, 0⟩),
     some (.shr ⟨3, ⟨5, true⟩, ⟨9, false⟩, 0⟩),
     some (.sra ⟨9, ⟨5, true⟩, ⟨9, false⟩, 0⟩),
     some (.mul ⟨9, ⟨9, false⟩, ⟨5, true⟩, 0⟩),
     some (.mulh ⟨3, ⟨5, true⟩, ⟨9, false⟩, 0⟩),
     some (.mulhn ⟨9, ⟨5, true⟩, ⟨9, false⟩, 0⟩)] := by decide

theorem test_decode_alu_2 : readsAs
    [(0x060C, 0xC161000),
     (0x0624, 0xD242C00),
     (0x0624, 0xE241000),
     (0x060C, 0xF082C00),
     (0x060C, 0x10160800),
     (0x060C, 0x11242C00),
     (0x0624, 0x12242C00),
     (0x060C, 0x13242C00),
     (0x0624, 0x14161000),
     (0x060C, 0x15164800),
     (0x0610, 0x16F80000),
     (0x0624, 0x17020000)]
    [some (.div ⟨3, ⟨5, true⟩, ⟨2, false⟩, 0⟩),
     some (.divn ⟨9, ⟨9, false⟩, ⟨5, true⟩, 0⟩),
     some (.rem ⟨9, ⟨9, false⟩, ⟨2, false⟩, 0⟩),
     some (.remn ⟨3, ⟨2, false⟩, ⟨5, true⟩, 0⟩),
     some (.min ⟨3, ⟨5, true⟩, ⟨1, false⟩, 0⟩),
     some (.max ⟨3, ⟨9, false⟩, ⟨5, true⟩, 0⟩),
     some (.minn ⟨9, ⟨9, false⟩, ⟨5, true⟩, 0⟩),
     some (.maxn ⟨3, ⟨9, false⟩, ⟨5, true⟩, 0⟩),
     some (.slt ⟨9, ⟨5, true⟩, ⟨2, false⟩, 0⟩),
     some (.sltn ⟨3, ⟨5, true⟩, ⟨9, false⟩, 0⟩),
     some (.clz ⟨4, ⟨62, false⟩, ⟨0, false⟩, 0⟩),
     some (.ctz ⟨9, ⟨0, true⟩, ⟨0, false⟩, 0⟩)] := by decide

theorem test_decode_alu_3 : readsAs
    [(0x06A4, 0x18160000)]
    [some (.popc ⟨41, ⟨5, true⟩, ⟨0, false⟩, 0⟩)] := by decide

theorem test_decode_alu_immediate : readsAs
    [(0x0A0C, 0x17FFFB),
     (0x0A24, 0x117FFFB),
     (0x0A0C, 0x217FFFB),
     (0x0A0C, 0x317FFFB),
     (0x0A0C, 0x4240007),
     (0x0A24, 0x504003F),
     (0x0A0C, 0x6160007),
     (0x0A0C, 0x7160007),
     (0x0A0C, 0x8160007)]
    [some (.addi ⟨3, ⟨5, true⟩, 0x1fffb⟩),
     some (.andi ⟨9, ⟨5, true⟩, 0x1fffb⟩),
     some (.ori ⟨3, ⟨5, true⟩, 0x1fffb⟩),
     some (.xori ⟨3, ⟨5, true⟩, 0x1fffb⟩),
     some (.shli ⟨3, ⟨9, false⟩, 7⟩),
     some (.shri ⟨9, ⟨1, false⟩, 63⟩),
     some (.srai ⟨3, ⟨5, true⟩, 7⟩),
     some (.slti ⟨3, ⟨5, true⟩, 7⟩),
     some (.sltni ⟨3, ⟨5, true⟩, 7⟩)] := by decide

theorem test_decode_constants : readsAs
    [(0x0E24, 0xFFFF1234),
     (0x0F25, 0x123456789ABCDEF),
     (0x0E26, 0xFFFFFFA4)]
    [some (.movi 9 4294906420),
     some (.moviW64 9 0x123456789ABCDEF),
     some (.lea 9 134217725 4)] := by decide

theorem test_decode_scalar_float : readsAs
    [(0x12F8, 0xF5F06B),
     (0x120C, 0x1023048),
     (0x1204, 0x2F83049),
     (0x1250, 0x317E83B),
     (0x1210, 0x4300819),
     (0x12FC, 0x5240038),
     (0x12F8, 0x6F42C09),
     (0x12A4, 0x752080A),
     (0x1210, 0x8080989),
     (0x1204, 0x9080269)]
    [some (.fadd ⟨62, ⟨61, false⟩, ⟨62, false⟩, 0, .dyn, .f16⟩),
     some (.fsub ⟨3, ⟨0, true⟩, ⟨6, false⟩, 0, .rup, .f64⟩),
     some (.fmul ⟨1, ⟨62, false⟩, ⟨6, false⟩, 0, .rup, .f32⟩),
     some (.ffma ⟨20, ⟨5, true⟩, ⟨61, false⟩, 0, .rdn, .f16⟩),
     some (.fdiv ⟨4, ⟨12, false⟩, ⟨1, false⟩, 0, .rna, .f32⟩),
     some (.fsqrt ⟨63, ⟨9, false⟩, ⟨0, false⟩, 0, .rdn, .f64⟩),
     some (.fmin ⟨62, ⟨61, false⟩, ⟨5, true⟩, 0, .rne, .f32⟩),
     some (.fmax ⟨41, ⟨20, true⟩, ⟨1, false⟩, 0, .rne, .bf16⟩),
     some (.fcmp ⟨4, ⟨2, false⟩, ⟨1, false⟩, 3, .rne, .f32⟩),
     some (.fcvt ⟨1, ⟨2, false⟩, ⟨0, false⟩, 4, .dyn, .f32⟩)] := by decide

theorem test_decode_branches : readsAs
    [(0x1524, 0xFFC4),
     (0x1501, 0xFFC4)]
    [some (.br ⟨9, 0x7fe, 4⟩),
     some (.j ⟨0, 0x7fe, 4⟩)] := by decide

theorem test_decode_calls : readsAs
    [(0x190C, 0xFFC4),
     (0x1A11, 0x240000),
     (0x1A02, 0x160000)]
    [some (.jl ⟨3, 0x7fe, 4⟩),
     some (.jlr ⟨4, ⟨9, false⟩, ⟨0, false⟩, 0⟩),
     some (.jr ⟨0, ⟨5, true⟩, ⟨0, false⟩, 0⟩)] := by decide

theorem test_decode_loops : readsAs
    [(0x1D24, 0xFFC4),
     (0x1C01, 0x0),
     (0x1C02, 0x0)]
    [some (.loop ⟨9, 0x7fe, 4⟩),
     some (.endl),
     some (.brkl)] := by decide

theorem test_decode_strip : readsAs
    [(0x22FC, 0x641508)]
    [some (.strip ⟨63, 3, 4, 5, 1, 8⟩)] := by decide

theorem test_decode_fork : readsAs
    [(0x250C, 0xFFC4),
     (0x26F1, 0x240000),
     (0x2601, 0x1000000),
     (0x2611, 0x2000000)]
    [some (.fork ⟨3, 0x7fe, 4⟩),
     some (.rdv ⟨60, ⟨9, false⟩, ⟨0, false⟩, 0⟩),
     some (.abortLine ⟨0, ⟨0, false⟩, ⟨0, false⟩, 0⟩),
     some (.abchk ⟨4, ⟨0, false⟩, ⟨0, false⟩, 0⟩)] := by decide

theorem test_decode_queues : readsAs
    [(0x2A0C, 0x82C00),
     (0x2A0C, 0x1242C00),
     (0x2AFC, 0x2040000)]
    [some (.qpush ⟨3, ⟨2, false⟩, ⟨5, true⟩, 0⟩),
     some (.qpop ⟨3, ⟨9, false⟩, ⟨5, true⟩, 0⟩),
     some (.qstat ⟨63, ⟨1, false⟩, ⟨0, false⟩, 0⟩)] := by decide

theorem test_decode_predicates : readsAs
    [(0x2E24, 0x164801),
     (0x2E0C, 0x1240800),
     (0x2E0C, 0x2240800),
     (0x2E0C, 0x3041000),
     (0x2E0C, 0x4080000),
     (0x2E0C, 0x5080002),
     (0x2E50, 0x6242C01)]
    [some (.pset ⟨9, ⟨5, true⟩, ⟨9, false⟩, 1⟩),
     some (.pand ⟨3, ⟨9, false⟩, ⟨1, false⟩, 0⟩),
     some (.por ⟨3, ⟨9, false⟩, ⟨1, false⟩, 0⟩),
     some (.pxor ⟨3, ⟨1, false⟩, ⟨2, false⟩, 0⟩),
     some (.pnot ⟨3, ⟨2, false⟩, ⟨0, false⟩, 0⟩),
     some (.ptest ⟨3, ⟨2, false⟩, ⟨0, false⟩, 2⟩),
     some (.csel ⟨20, ⟨9, false⟩, ⟨5, true⟩, 1⟩)] := by decide

theorem test_decode_system : readsAs
    [(0x3208, 0x5),
     (0x3200, 0x1160018),
     (0x3200, 0x1300005),
     (0x3200, 0x1020000),
     (0x3200, 0x1520020),
     (0x3200, 0x1020021),
     (0x3200, 0x1040030),
     (0x3200, 0x124001B),
     (0x3200, 0x2240080),
     (0x3250, 0x3000003),
     (0x32F0, 0x4000000),
     (0x3250, 0x5520000)]
    [some (.crd ⟨2, ⟨0, false⟩, ⟨0, false⟩, 5⟩),
     some (.cwr ⟨0, ⟨5, true⟩, ⟨0, false⟩, 24⟩),
     some (.fsrWrite ⟨0, ⟨12, false⟩, ⟨0, false⟩, 5⟩),
     some (.estartWrite ⟨0, ⟨0, true⟩, ⟨0, false⟩, 0⟩),
     some (.xlrootWrite ⟨0, ⟨20, true⟩, ⟨0, false⟩, 32⟩),
     some (.asidWrite ⟨0, ⟨0, true⟩, ⟨0, false⟩, 33⟩),
     some (.sventryWrite ⟨0, ⟨1, false⟩, ⟨0, false⟩, 48⟩),
     some (.tstatWrite ⟨0, ⟨9, false⟩, ⟨0, false⟩, 27⟩),
     some (.trap ⟨0, ⟨9, false⟩, ⟨0, false⟩, 0x80⟩),
     some (.evpop ⟨20, ⟨0, false⟩, ⟨0, false⟩, 3⟩),
     some (.ctxsv ⟨60, ⟨0, false⟩, ⟨0, false⟩, 0⟩),
     some (.ctxld ⟨20, ⟨20, true⟩, ⟨0, false⟩, 0⟩)] := by decide

theorem test_decode_system_2 : readsAs
    [(0x3001, 0x0),
     (0x3005, 0x0),
     (0x3009, 0x0),
     (0x300D, 0x0)]
    [some (.nop),
     some (.halt),
     some (.wfe),
     some (.sret)] := by decide

theorem test_decode_load : readsAs
    [(0x4224, 0x6317FFF8)]
    [some (.ld ⟨9, .acq, .dev, 3, ⟨5, true⟩, 0x1fff8⟩)] := by decide

theorem test_decode_store : readsAs
    [(0x460C, 0x9B17FFF8)]
    [some (.st ⟨3, .rel, .die, 3, ⟨5, true⟩, 0x1fff8⟩)] := by decide

theorem test_decode_brick_load : readsAs
    [(0x4B00, 0x1A706),
     (0x4BFC, 0x12404000001B040),
     (0x4B04, 0x21604000001A044),
     (0x4BF8, 0x31800000001B900)]
    [some (.vldUnit ⟨0, ⟨0, false⟩, ⟨0, false⟩, ⟨0, false⟩, ⟨0, 0, 0⟩, ⟨0, 0, 0⟩, true, 5, .i64, .rup, 6⟩),
     some (.vldShaped ⟨63, ⟨9, false⟩, ⟨0, true⟩, ⟨0, false⟩, ⟨0, 0, 0⟩, ⟨0, 0, 0⟩, true, 5, .f64, .rna, 0⟩),
     some (.vlds ⟨1, ⟨5, true⟩, ⟨0, true⟩, ⟨0, false⟩, ⟨0, 0, 0⟩, ⟨0, 0, 0⟩, true, 5, .i8, .rna, 4⟩),
     some (.vldx ⟨62, ⟨6, false⟩, ⟨0, false⟩, ⟨0, false⟩, ⟨0, 0, 0⟩, ⟨0, 0, 0⟩, true, 5, .fp8a, .rup, 0⟩)] := by decide

theorem test_decode_brick_store : readsAs
    [(0x4F00, 0x3000000001AF80),
     (0x4F00, 0x124100800011140),
     (0x4F00, 0x21860580001A740),
     (0x4F00, 0x3F8045800011502)]
    [some (.vstUnit ⟨0, ⟨12, false⟩, ⟨0, false⟩, ⟨0, false⟩, ⟨0, 0, 0⟩, ⟨0, 0, 0⟩, true, 5, .n64, .dyn, 0⟩),
     some (.vstShaped ⟨0, ⟨9, false⟩, ⟨2, false⟩, ⟨0, true⟩, ⟨0, 0, 0⟩, ⟨0, 0, 0⟩, true, 0, .f64, .rsr, 0⟩),
     some (.vsts ⟨0, ⟨6, false⟩, ⟨12, false⟩, ⟨5, true⟩, ⟨0, 0, 0⟩, ⟨0, 0, 0⟩, true, 5, .i64, .rsr, 0⟩),
     some (.vstx ⟨0, ⟨62, false⟩, ⟨0, true⟩, ⟨5, true⟩, ⟨0, 0, 0⟩, ⟨0, 0, 0⟩, true, 0, .bf16, .rup, 2⟩)] := by decide

theorem test_decode_atomics : readsAs
    [(0x5250, 0x164B88),
     (0x520C, 0x1042F90),
     (0x520C, 0x2160990),
     (0x5224, 0x3086268),
     (0x52F8, 0x4242F30),
     (0x5224, 0x5082D70),
     (0x5250, 0x6F81170),
     (0x5224, 0x7161390),
     (0x52F8, 0x8086288),
     (0x5224, 0x9020BA8),
     (0x5224, 0xA242D40),
     (0x5250, 0x10164970)]
    [some (.amoAdd ⟨20, ⟨5, true⟩, ⟨9, false⟩, .ar, .dev, 1⟩),
     some (.amoAnd ⟨3, ⟨1, false⟩, ⟨5, true⟩, .ar, .dev, 2⟩),
     some (.amoOr ⟨3, ⟨5, true⟩, ⟨1, false⟩, .acq, .dev, 2⟩),
     some (.amoXor ⟨9, ⟨2, false⟩, ⟨12, false⟩, .rel, .die, 1⟩),
     some (.amoMin ⟨62, ⟨9, false⟩, ⟨5, true⟩, .ar, .core, 2⟩),
     some (.amoMax ⟨9, ⟨2, false⟩, ⟨5, true⟩, .acq, .die, 2⟩),
     some (.amoMinn ⟨20, ⟨62, false⟩, ⟨2, false⟩, .acq, .die, 2⟩),
     some (.amoMaxn ⟨9, ⟨5, true⟩, ⟨2, false⟩, .ar, .dev, 2⟩),
     some (.amoSwap ⟨62, ⟨2, false⟩, ⟨12, false⟩, .rel, .dev, 1⟩),
     some (.amoFaddF32 ⟨9, ⟨0, true⟩, ⟨1, false⟩, .ar, .sys, 1⟩),
     some (.amoFaddBf16 ⟨9, ⟨9, false⟩, ⟨5, true⟩, .acq, .clu, 0⟩),
     some (.cas ⟨20, ⟨5, true⟩, ⟨9, false⟩, .acq, .die, 2⟩)] := by decide

theorem test_decode_atomics_2 : readsAs
    [(0x5250, 0x11046120)]
    [some (.cas2 ⟨20, ⟨1, false⟩, ⟨12, false⟩, .acq, .core, 0⟩)] := by decide

theorem test_decode_brick_atomics : readsAs
    [(0x570C, 0x242C900001A400),
     (0x57F0, 0x10030000001A600),
     (0x5750, 0x204480000010600),
     (0x5704, 0x30060080001A400),
     (0x57FC, 0x400302000000400),
     (0x570C, 0x5162C580001A600),
     (0x5724, 0x60408C000010E00),
     (0x57F0, 0x7F830080001AC00),
     (0x57A4, 0x8162C5800010400),
     (0x5750, 0x916080000011200),
     (0x57F8, 0xA2403D000001400),
     (0x57F8, 0x102404000001AC00)]
    [some (.vamoAdd ⟨3, ⟨9, false⟩, ⟨5, true⟩, ⟨9, false⟩, ⟨0, 0, 0⟩, ⟨0, 0, 0⟩, true, 5, .i32, .rne, 0⟩),
     some (.vamoAnd ⟨60, ⟨0, false⟩, ⟨6, false⟩, ⟨0, false⟩, ⟨0, 0, 0⟩, ⟨0, 0, 0⟩, true, 5, .i64, .rne, 0⟩),
     some (.vamoOr ⟨20, ⟨1, false⟩, ⟨9, false⟩, ⟨0, false⟩, ⟨0, 0, 0⟩, ⟨0, 0, 0⟩, true, 0, .i64, .rne, 0⟩),
     some (.vamoXor ⟨1, ⟨0, false⟩, ⟨12, false⟩, ⟨0, true⟩, ⟨0, 0, 0⟩, ⟨0, 0, 0⟩, true, 5, .i32, .rne, 0⟩),
     some (.vamoMin ⟨63, ⟨0, false⟩, ⟨6, false⟩, ⟨2, false⟩, ⟨0, 0, 0⟩, ⟨0, 0, 0⟩, false, 0, .i32, .rne, 0⟩),
     some (.vamoMax ⟨3, ⟨5, true⟩, ⟨5, true⟩, ⟨5, true⟩, ⟨0, 0, 0⟩, ⟨0, 0, 0⟩, true, 5, .i64, .rne, 0⟩),
     some (.vamoMinn ⟨9, ⟨1, false⟩, ⟨1, false⟩, ⟨12, false⟩, ⟨0, 0, 0⟩, ⟨0, 0, 0⟩, true, 0, .n64, .rne, 0⟩),
     some (.vamoMaxn ⟨60, ⟨62, false⟩, ⟨6, false⟩, ⟨0, true⟩, ⟨0, 0, 0⟩, ⟨0, 0, 0⟩, true, 5, .n32, .rne, 0⟩),
     some (.vamoSwap ⟨41, ⟨5, true⟩, ⟨5, true⟩, ⟨5, true⟩, ⟨0, 0, 0⟩, ⟨0, 0, 0⟩, true, 0, .i32, .rne, 0⟩),
     some (.vamoFaddF32 ⟨20, ⟨5, true⟩, ⟨1, false⟩, ⟨0, false⟩, ⟨0, 0, 0⟩, ⟨0, 0, 0⟩, true, 0, .f32, .rne, 0⟩),
     some (.vamoFaddBf16 ⟨62, ⟨9, false⟩, ⟨0, false⟩, ⟨61, false⟩, ⟨0, 0, 0⟩, ⟨0, 0, 0⟩, false, 0, .bf16, .rne, 0⟩),
     some (.glink ⟨62, ⟨9, false⟩, ⟨0, true⟩, ⟨0, false⟩, ⟨0, 0, 0⟩, ⟨0, 0, 0⟩, true, 5, .n32, .rne, 0⟩)] := by decide

theorem test_decode_brick_atomics_2 : readsAs
    [(0x570C, 0x11022C5800010600),
     (0x5700, 0x2001E8580001A400),
     (0x5700, 0x21304BD00001A400),
     (0x5700, 0x2208014800010E00),
     (0x5700, 0x23F8041000010E00),
     (0x5700, 0x2402614800010400),
     (0x5700, 0x2553E86000010600),
     (0x5700, 0x26F4A4600001AE00),
     (0x5700, 0x270000C00001AC00),
     (0x5700, 0x2918480000011200),
     (0x5700, 0x2A00049000011400),
     (0x5750, 0x1200049000010C00)]
    [some (.scond ⟨3, ⟨0, true⟩, ⟨5, true⟩, ⟨5, true⟩, ⟨0, 0, 0⟩, ⟨0, 0, 0⟩, true, 0, .i64, .rne, 0⟩),
     some (.saccAdd ⟨0, ⟨0, false⟩, ⟨61, false⟩, ⟨5, true⟩, ⟨0, 0, 0⟩, ⟨0, 0, 0⟩, true, 5, .i32, .rne, 0⟩),
     some (.saccAnd ⟨0, ⟨12, false⟩, ⟨9, false⟩, ⟨61, false⟩, ⟨0, 0, 0⟩, ⟨0, 0, 0⟩, true, 5, .i32, .rne, 0⟩),
     some (.saccOr ⟨0, ⟨2, false⟩, ⟨0, false⟩, ⟨20, true⟩, ⟨0, 0, 0⟩, ⟨0, 0, 0⟩, true, 0, .n64, .rne, 0⟩),
     some (.saccXor ⟨0, ⟨62, false⟩, ⟨0, true⟩, ⟨1, false⟩, ⟨0, 0, 0⟩, ⟨0, 0, 0⟩, true, 0, .n64, .rne, 0⟩),
     some (.saccMin ⟨0, ⟨0, true⟩, ⟨12, false⟩, ⟨20, true⟩, ⟨0, 0, 0⟩, ⟨0, 0, 0⟩, true, 0, .i32, .rne, 0⟩),
     some (.saccMax ⟨0, ⟨20, true⟩, ⟨61, false⟩, ⟨6, false⟩, ⟨0, 0, 0⟩, ⟨0, 0, 0⟩, true, 0, .i64, .rne, 0⟩),
     some (.saccMinn ⟨0, ⟨61, false⟩, ⟨20, true⟩, ⟨6, false⟩, ⟨0, 0, 0⟩, ⟨0, 0, 0⟩, true, 5, .n64, .rne, 0⟩),
     some (.saccMaxn ⟨0, ⟨0, false⟩, ⟨0, false⟩, ⟨12, false⟩, ⟨0, 0, 0⟩, ⟨0, 0, 0⟩, true, 5, .n32, .rne, 0⟩),
     some (.saccFaddF32 ⟨0, ⟨6, false⟩, ⟨9, false⟩, ⟨0, false⟩, ⟨0, 0, 0⟩, ⟨0, 0, 0⟩, true, 0, .f32, .rne, 0⟩),
     some (.saccFaddBf16 ⟨0, ⟨0, false⟩, ⟨0, true⟩, ⟨9, false⟩, ⟨0, 0, 0⟩, ⟨0, 0, 0⟩, true, 0, .bf16, .rne, 0⟩),
     some (.vwait ⟨20, ⟨0, false⟩, ⟨0, true⟩, ⟨9, false⟩, ⟨0, 0, 0⟩, ⟨0, 0, 0⟩, true, 0, .n32, .rne, 0⟩)] := by decide

theorem test_decode_cache : readsAs
    [(0x5A00, 0x23000),
     (0x5A00, 0x1521003),
     (0x5A00, 0x2082C00),
     (0x5A00, 0x2020001)]
    [some (.skim ⟨0, ⟨0, true⟩, ⟨6, false⟩, 0⟩),
     some (.wbr ⟨0, ⟨20, true⟩, ⟨2, false⟩, 3⟩),
     some (.flctx ⟨0, ⟨2, false⟩, ⟨5, true⟩, 0⟩),
     some (.flctxAll ⟨0, ⟨0, true⟩, ⟨0, false⟩, 1⟩)] := by decide

theorem test_decode_tier : readsAs
    [(0x5F04, 0x1F0C000040003),
     (0x5F00, 0x24000000010000),
     (0x5F00, 0x480000020003),
     (0x5F00, 0x8000000030000),
     (0x5F00, 0x130000000000000),
     (0x5F00, 0x224A40000000000),
     (0x5F00, 0x3F8482000000000),
     (0x5F00, 0x430480000000000),
     (0x5FF8, 0x516000000020000),
     (0x5F00, 0x62407D000000000),
     (0x5F50, 0x1024105800020029),
     (0x5F24, 0x1104000000000000)]
    [some (.resvNew ⟨1, ⟨0, false⟩, ⟨62, false⟩, ⟨12, false⟩, .seq, .rlx, 4, 3⟩),
     some (.resvUse ⟨0, ⟨9, false⟩, ⟨0, false⟩, ⟨0, false⟩, .seq, .rlx, 1, 0⟩),
     some (.resvQuota ⟨0, ⟨0, false⟩, ⟨9, false⟩, ⟨0, false⟩, .seq, .rlx, 2, 3⟩),
     some (.resvPool ⟨0, ⟨2, false⟩, ⟨0, false⟩, ⟨0, false⟩, .seq, .rlx, 3, 0⟩),
     some (.unresv ⟨0, ⟨12, false⟩, ⟨0, false⟩, ⟨0, false⟩, .seq, .rlx, 0, 0⟩),
     some (.disc ⟨0, ⟨9, false⟩, ⟨20, true⟩, ⟨0, false⟩, .seq, .rlx, 0, 0⟩),
     some (.umig ⟨0, ⟨62, false⟩, ⟨9, false⟩, ⟨2, false⟩, .seq, .rlx, 0, 0⟩),
     some (.promo ⟨0, ⟨12, false⟩, ⟨9, false⟩, ⟨0, false⟩, .seq, .rlx, 0, 0⟩),
     some (.tstat ⟨62, ⟨5, true⟩, ⟨0, false⟩, ⟨0, false⟩, .seq, .rlx, 2, 0⟩),
     some (.cfork ⟨0, ⟨9, false⟩, ⟨0, true⟩, ⟨61, false⟩, .seq, .rlx, 0, 0⟩),
     some (.loffer ⟨20, ⟨9, false⟩, ⟨2, false⟩, ⟨5, true⟩, .seq, .rlx, 2, 41⟩),
     some (.ltake ⟨9, ⟨1, false⟩, ⟨0, false⟩, ⟨0, false⟩, .seq, .rlx, 0, 0⟩)] := by decide

theorem test_decode_tier_2 : readsAs
    [(0x5F24, 0x12F4000000000000),
     (0x5F50, 0x1304000000000000),
     (0x5F00, 0x1318000000010000)]
    [some (.lrecl ⟨9, ⟨61, false⟩, ⟨0, false⟩, ⟨0, false⟩, .seq, .rlx, 0, 0⟩),
     some (.lretRet ⟨20, ⟨1, false⟩, ⟨0, false⟩, ⟨0, false⟩, .seq, .rlx, 0, 0⟩),
     some (.lretFree ⟨0, ⟨6, false⟩, ⟨0, false⟩, ⟨0, false⟩, .seq, .rlx, 1, 0⟩)] := by decide

theorem test_decode_xlat : readsAs
    [(0x6200, 0x100),
     (0x620C, 0x1520100)]
    [some (.tlbinv ⟨0, ⟨0, false⟩, ⟨0, false⟩, 0x100⟩),
     some (.tlbprobe ⟨3, ⟨20, true⟩, ⟨0, false⟩, 0x100⟩)] := by decide

theorem test_decode_sync : readsAs
    [(0x6600, 0x340),
     (0x66F8, 0x1300080),
     (0x6600, 0x2F46040),
     (0x660C, 0x3160000),
     (0x66F8, 0x3020801),
     (0x6600, 0x3020002),
     (0x6600, 0x3040003),
     (0x660C, 0x4082E80),
     (0x66F0, 0x5F40140)]
    [some (.fence ⟨0, ⟨0, false⟩, ⟨0, false⟩, .ar, .clu, 0⟩),
     some (.phase ⟨62, ⟨12, false⟩, ⟨0, false⟩, .rlx, .dev, 0⟩),
     some (.bwait ⟨0, ⟨61, false⟩, ⟨12, false⟩, .rlx, .clu, 0⟩),
     some (.arrive ⟨3, ⟨5, true⟩, ⟨0, false⟩, .rlx, .seq, 0⟩),
     some (.arriveRemote ⟨62, ⟨0, true⟩, ⟨1, false⟩, .rlx, .seq, 1⟩),
     some (.arriveLeave ⟨0, ⟨0, true⟩, ⟨0, false⟩, .rlx, .seq, 2⟩),
     some (.arriveJoin ⟨0, ⟨1, false⟩, ⟨0, false⟩, .rlx, .seq, 3⟩),
     some (.fput ⟨3, ⟨2, false⟩, ⟨5, true⟩, .rel, .dev, 0⟩),
     some (.fget ⟨60, ⟨61, false⟩, ⟨0, false⟩, .acq, .clu, 0⟩)] := by decide

theorem test_decode_engines : readsAs
    [(0x6B0C, 0x5200048010FFFF),
     (0x6B00, 0x109F00480010007),
     (0x6B00, 0x217E80380001234),
     (0x6B10, 0x352105B80000007),
     (0x6B50, 0x424489380010003),
     (0x6BFC, 0x502000000000001)]
    [some (.twk ⟨3, ⟨20, true⟩, ⟨0, false⟩, ⟨0, false⟩, .dev, .rel, 16, 0xffff⟩),
     some (.twkm ⟨0, ⟨2, false⟩, ⟨62, false⟩, ⟨0, false⟩, .dev, .rel, 1, 7⟩),
     some (.grant ⟨0, ⟨5, true⟩, ⟨61, false⟩, ⟨0, false⟩, .die, .rel, 0, 0x1234⟩),
     some (.copy ⟨4, ⟨20, true⟩, ⟨2, false⟩, ⟨5, true⟩, .die, .rel, 0, 7⟩),
     some (.rcopy ⟨20, ⟨9, false⟩, ⟨9, false⟩, ⟨9, false⟩, .die, .rel, 1, 3⟩),
     some (.evwait ⟨63, ⟨0, true⟩, ⟨0, false⟩, ⟨0, false⟩, .seq, .rlx, 0, 1⟩)] := by decide

theorem test_decode_tasks : readsAs
    [(0x6E0C, 0x40000),
     (0x6EFC, 0x1240000),
     (0x6E00, 0x2000000),
     (0x6E08, 0x3000000),
     (0x6E50, 0x4160000)]
    [some (.spawn ⟨3, ⟨1, false⟩, ⟨0, false⟩, 0⟩),
     some (.cancel ⟨63, ⟨9, false⟩, ⟨0, false⟩, 0⟩),
     some (.done ⟨0, ⟨0, false⟩, ⟨0, false⟩, 0⟩),
     some (.yieldSeq ⟨2, ⟨0, false⟩, ⟨0, false⟩, 0⟩),
     some (.launch ⟨20, ⟨5, true⟩, ⟨0, false⟩, 0⟩)] := by decide

theorem test_decode_brick_config : readsAs
    [(0x83A4, 0xF4000000010003),
     (0x8310, 0x20000),
     (0x8308, 0x100000000140007),
     (0x83FC, 0x218000000000001)]
    [some (.vset ⟨41, ⟨61, false⟩, ⟨0, false⟩, ⟨0, false⟩, .seq, .rlx, 1, 3⟩),
     some (.vsetFree ⟨4, ⟨0, false⟩, ⟨0, false⟩, ⟨0, false⟩, .seq, .rlx, 2, 0⟩),
     some (.bfield ⟨2, ⟨0, false⟩, ⟨0, false⟩, ⟨0, false⟩, .seq, .rlx, 20, 7⟩),
     some (.bhalo ⟨63, ⟨6, false⟩, ⟨0, false⟩, ⟨0, false⟩, .seq, .rlx, 0, 1⟩)] := by decide

theorem test_decode_brick_move : readsAs
    [(0x87F8, 0x1800014C011A00),
     (0x8700, 0x102480000010801),
     (0x8700, 0x252A4000001B201),
     (0x8750, 0x31600000001A400),
     (0x8724, 0x43000000001AC00),
     (0x87F0, 0x516000000010A00),
     (0x8704, 0x6182C0000000400),
     (0x8708, 0x705E80000000E00),
     (0x87F0, 0x830040000011A00)]
    [some (.vmov ⟨62, ⟨6, false⟩, ⟨0, false⟩, ⟨0, false⟩, ⟨1, 2, 3⟩, ⟨0, 0, 0⟩, true, 0, .fp8b, .rne, 0⟩),
     some (.vbcast ⟨0, ⟨0, true⟩, ⟨9, false⟩, ⟨0, false⟩, ⟨0, 0, 0⟩, ⟨0, 0, 0⟩, true, 0, .n8, .rne, 1⟩),
     some (.vslide ⟨0, ⟨20, true⟩, ⟨20, true⟩, ⟨0, false⟩, ⟨0, 0, 0⟩, ⟨0, 0, 0⟩, true, 5, .f32, .rne, 1⟩),
     some (.vtrans ⟨20, ⟨5, true⟩, ⟨0, false⟩, ⟨0, false⟩, ⟨0, 0, 0⟩, ⟨0, 0, 0⟩, true, 5, .i32, .rne, 0⟩),
     some (.vcomp ⟨9, ⟨12, false⟩, ⟨0, false⟩, ⟨0, false⟩, ⟨0, 0, 0⟩, ⟨0, 0, 0⟩, true, 5, .n32, .rne, 0⟩),
     some (.vexp ⟨60, ⟨5, true⟩, ⟨0, false⟩, ⟨0, false⟩, ⟨0, 0, 0⟩, ⟨0, 0, 0⟩, true, 0, .n16, .rne, 0⟩),
     some (.vins ⟨1, ⟨6, false⟩, ⟨5, true⟩, ⟨0, false⟩, ⟨0, 0, 0⟩, ⟨0, 0, 0⟩, false, 0, .i32, .rne, 0⟩),
     some (.vext ⟨2, ⟨1, false⟩, ⟨61, false⟩, ⟨0, false⟩, ⟨0, 0, 0⟩, ⟨0, 0, 0⟩, false, 0, .n64, .rne, 0⟩),
     some (.vgath ⟨60, ⟨12, false⟩, ⟨0, true⟩, ⟨0, false⟩, ⟨0, 0, 0⟩, ⟨0, 0, 0⟩, true, 0, .fp8b, .rne, 0⟩)] := by decide

theorem test_decode_mask : readsAs
    [(0x8A0C, 0x83000),
     (0x8A0C, 0x1041000),
     (0x8A08, 0x2001000),
     (0x8A0C, 0x3180000),
     (0x8A24, 0x4080000),
     (0x8AF0, 0x5180000),
     (0x8AFC, 0x6040000),
     (0x8A0C, 0x7080001)]
    [some (.mand ⟨3, ⟨2, false⟩, ⟨6, false⟩, 0⟩),
     some (.mor ⟨3, ⟨1, false⟩, ⟨2, false⟩, 0⟩),
     some (.mxor ⟨2, ⟨0, false⟩, ⟨2, false⟩, 0⟩),
     some (.mnot ⟨3, ⟨6, false⟩, ⟨0, false⟩, 0⟩),
     some (.mpopc ⟨9, ⟨2, false⟩, ⟨0, false⟩, 0⟩),
     some (.mfirst ⟨60, ⟨6, false⟩, ⟨0, false⟩, 0⟩),
     some (.miota ⟨63, ⟨1, false⟩, ⟨0, false⟩, 0⟩),
     some (.mset ⟨3, ⟨2, false⟩, ⟨0, false⟩, 1⟩)] := by decide

theorem test_decode_brick_integer : readsAs
    [(0x8F00, 0xF8A400E473A400),
     (0x8F24, 0x10430014C01A000),
     (0x8F08, 0x25230014C73A000),
     (0x8FA4, 0x319E8000073A800),
     (0x8F00, 0x43030014CA7A800),
     (0x8FA4, 0x5F4300000A7AA00),
     (0x8F10, 0x625E8014CA7A000),
     (0x8F24, 0x70030014C730600),
     (0x8FF0, 0x8000000E401A000),
     (0x8F00, 0x92460014C73AE00),
     (0x8F04, 0xA0830014CA70400),
     (0x8F50, 0xB0800014C73AE00)]
    [some (.vadd ⟨0, ⟨62, false⟩, ⟨20, true⟩, ⟨0, false⟩, ⟨0, 7, 1⟩, ⟨0, 7, 1⟩, true, 5, .i32, .rne, 0⟩),
     some (.vsub ⟨9, ⟨1, false⟩, ⟨6, false⟩, ⟨0, false⟩, ⟨1, 2, 3⟩, ⟨0, 0, 0⟩, true, 5, .i8, .rne, 0⟩),
     some (.vmul ⟨2, ⟨20, true⟩, ⟨6, false⟩, ⟨0, false⟩, ⟨1, 2, 3⟩, ⟨0, 7, 1⟩, true, 5, .i8, .rne, 0⟩),
     some (.vmulh ⟨41, ⟨6, false⟩, ⟨61, false⟩, ⟨0, false⟩, ⟨0, 0, 0⟩, ⟨0, 7, 1⟩, true, 5, .n8, .rne, 0⟩),
     some (.vdiv ⟨0, ⟨12, false⟩, ⟨6, false⟩, ⟨0, false⟩, ⟨1, 2, 3⟩, ⟨1, 2, 3⟩, true, 5, .n8, .rne, 0⟩),
     some (.vrem ⟨41, ⟨61, false⟩, ⟨6, false⟩, ⟨0, false⟩, ⟨0, 0, 0⟩, ⟨1, 2, 3⟩, true, 5, .n16, .rne, 0⟩),
     some (.vmin ⟨4, ⟨9, false⟩, ⟨61, false⟩, ⟨0, false⟩, ⟨1, 2, 3⟩, ⟨1, 2, 3⟩, true, 5, .i8, .rne, 0⟩),
     some (.vmax ⟨9, ⟨0, false⟩, ⟨6, false⟩, ⟨0, false⟩, ⟨1, 2, 3⟩, ⟨0, 7, 1⟩, true, 0, .i64, .rne, 0⟩),
     some (.vabs ⟨60, ⟨0, false⟩, ⟨0, false⟩, ⟨0, false⟩, ⟨0, 7, 1⟩, ⟨0, 0, 0⟩, true, 5, .i8, .rne, 0⟩),
     some (.vand ⟨0, ⟨9, false⟩, ⟨12, false⟩, ⟨0, false⟩, ⟨1, 2, 3⟩, ⟨0, 7, 1⟩, true, 5, .n64, .rne, 0⟩),
     some (.vor ⟨1, ⟨2, false⟩, ⟨6, false⟩, ⟨0, false⟩, ⟨1, 2, 3⟩, ⟨1, 2, 3⟩, true, 0, .i32, .rne, 0⟩),
     some (.vxor ⟨20, ⟨2, false⟩, ⟨0, false⟩, ⟨0, false⟩, ⟨1, 2, 3⟩, ⟨0, 7, 1⟩, true, 5, .n64, .rne, 0⟩)] := by decide

theorem test_decode_brick_integer_2 : readsAs
    [(0x8F50, 0xCF830014C01A000),
     (0x8F08, 0xD2410000073AE00),
     (0x8F0C, 0xE02A4014C720A00),
     (0x8F10, 0xF2408014C730200),
     (0x8FA4, 0x10082C014C01A600),
     (0x8F08, 0x110060014CA7AA00),
     (0x8FF0, 0x1216300000731800),
     (0x8F10, 0x132400014C01A200),
     (0x8FA4, 0x14180000E401A000)]
    [some (.vshl ⟨20, ⟨62, false⟩, ⟨6, false⟩, ⟨0, false⟩, ⟨1, 2, 3⟩, ⟨0, 0, 0⟩, true, 5, .i8, .rne, 0⟩),
     some (.vshr ⟨2, ⟨9, false⟩, ⟨2, false⟩, ⟨0, false⟩, ⟨0, 0, 0⟩, ⟨0, 7, 1⟩, true, 5, .n64, .rne, 0⟩),
     some (.vsra ⟨3, ⟨0, true⟩, ⟨20, true⟩, ⟨0, false⟩, ⟨1, 2, 3⟩, ⟨0, 7, 1⟩, false, 0, .n16, .rne, 0⟩),
     some (.vsadd ⟨4, ⟨9, false⟩, ⟨1, false⟩, ⟨0, false⟩, ⟨1, 2, 3⟩, ⟨0, 7, 1⟩, true, 0, .i16, .rne, 0⟩),
     some (.vssub ⟨41, ⟨2, false⟩, ⟨5, true⟩, ⟨0, false⟩, ⟨1, 2, 3⟩, ⟨0, 0, 0⟩, true, 5, .i64, .rne, 0⟩),
     some (.vcmp ⟨2, ⟨0, false⟩, ⟨12, false⟩, ⟨0, false⟩, ⟨1, 2, 3⟩, ⟨1, 2, 3⟩, true, 5, .n16, .rne, 0⟩),
     some (.vsel ⟨60, ⟨5, true⟩, ⟨6, false⟩, ⟨0, false⟩, ⟨0, 0, 0⟩, ⟨0, 7, 1⟩, true, 0, .fp8a, .rne, 0⟩),
     some (.vclz ⟨4, ⟨9, false⟩, ⟨0, false⟩, ⟨0, false⟩, ⟨1, 2, 3⟩, ⟨0, 0, 0⟩, true, 5, .i16, .rne, 0⟩),
     some (.vpopc ⟨41, ⟨6, false⟩, ⟨0, false⟩, ⟨0, false⟩, ⟨0, 7, 1⟩, ⟨0, 0, 0⟩, true, 5, .i8, .rne, 0⟩)] := by decide

theorem test_decode_brick_float : readsAs
    [(0x9324, 0xA4000073B600),
     (0x9310, 0x1F8480000A71580),
     (0x930C, 0x2162C00E401B200),
     (0x9310, 0x3F82C0000A7B040),
     (0x9310, 0x40400000001B380),
     (0x9308, 0x5520000E473B200),
     (0x9310, 0x604A4000001B600),
     (0x93F8, 0x72400014C001200),
     (0x9310, 0x80000014C001000),
     (0x9300, 0x95230000073B600),
     (0x9310, 0xA0000014C011600)]
    [some (.vfadd ⟨9, ⟨0, false⟩, ⟨20, true⟩, ⟨0, false⟩, ⟨0, 0, 0⟩, ⟨0, 7, 1⟩, true, 5, .f16, .rne, 0⟩),
     some (.vfsub ⟨4, ⟨62, false⟩, ⟨9, false⟩, ⟨0, false⟩, ⟨0, 0, 0⟩, ⟨1, 2, 3⟩, true, 0, .bf16, .dyn, 0⟩),
     some (.vfmul ⟨3, ⟨5, true⟩, ⟨5, true⟩, ⟨0, false⟩, ⟨0, 7, 1⟩, ⟨0, 0, 0⟩, true, 5, .f32, .rne, 0⟩),
     some (.vfdiv ⟨4, ⟨62, false⟩, ⟨5, true⟩, ⟨0, false⟩, ⟨0, 0, 0⟩, ⟨1, 2, 3⟩, true, 5, .f64, .rna, 0⟩),
     some (.vfsqrt ⟨4, ⟨1, false⟩, ⟨0, false⟩, ⟨0, false⟩, ⟨0, 0, 0⟩, ⟨0, 0, 0⟩, true, 5, .f32, .dyn, 0⟩),
     some (.vfmin ⟨2, ⟨20, true⟩, ⟨0, false⟩, ⟨0, false⟩, ⟨0, 7, 1⟩, ⟨0, 7, 1⟩, true, 5, .f32, .rne, 0⟩),
     some (.vfmax ⟨4, ⟨1, false⟩, ⟨20, true⟩, ⟨0, false⟩, ⟨0, 0, 0⟩, ⟨0, 0, 0⟩, true, 5, .f16, .rne, 0⟩),
     some (.vfabs ⟨62, ⟨9, false⟩, ⟨0, false⟩, ⟨0, false⟩, ⟨1, 2, 3⟩, ⟨0, 0, 0⟩, false, 0, .f32, .rne, 0⟩),
     some (.vfneg ⟨4, ⟨0, false⟩, ⟨0, false⟩, ⟨0, false⟩, ⟨1, 2, 3⟩, ⟨0, 0, 0⟩, false, 0, .f64, .rne, 0⟩),
     some (.vfcmp ⟨0, ⟨20, true⟩, ⟨6, false⟩, ⟨0, false⟩, ⟨0, 0, 0⟩, ⟨0, 7, 1⟩, true, 5, .f16, .rne, 0⟩),
     some (.vfclass ⟨4, ⟨0, false⟩, ⟨0, false⟩, ⟨0, false⟩, ⟨1, 2, 3⟩, ⟨0, 0, 0⟩, true, 0, .f16, .rne, 0⟩)] := by decide

theorem test_decode_fused : readsAs
    [(0x9724, 0x162C9000A7B240),
     (0x9750, 0x12410594C01B201),
     (0x9710, 0x21610580073B240),
     (0x970C, 0x31648594C01B301)]
    [some (.vfma ⟨9, ⟨5, true⟩, ⟨5, true⟩, ⟨9, false⟩, ⟨0, 0, 0⟩, ⟨1, 2, 3⟩, true, 5, .f32, .rna, 0⟩),
     some (.vfms ⟨20, ⟨9, false⟩, ⟨2, false⟩, ⟨5, true⟩, ⟨1, 2, 3⟩, ⟨0, 0, 0⟩, true, 5, .f32, .rne, 1⟩),
     some (.vfnma ⟨4, ⟨5, true⟩, ⟨2, false⟩, ⟨5, true⟩, ⟨0, 0, 0⟩, ⟨0, 7, 1⟩, true, 5, .f32, .rna, 0⟩),
     some (.vfnms ⟨3, ⟨5, true⟩, ⟨9, false⟩, ⟨5, true⟩, ⟨1, 2, 3⟩, ⟨0, 0, 0⟩, true, 5, .f32, .rup, 1⟩)] := by decide

theorem test_decode_convert : readsAs
    [(0x9BF8, 0x800014C00141A),
     (0x9B10, 0x152000000010200),
     (0x9B00, 0x218000000000710),
     (0x9B0C, 0x324000000001242)]
    [some (.vcvtn ⟨62, ⟨2, false⟩, ⟨0, false⟩, ⟨0, false⟩, ⟨1, 2, 3⟩, ⟨0, 0, 0⟩, false, 0, .bf16, .rne, 26⟩),
     some (.vcvtw ⟨4, ⟨20, true⟩, ⟨0, false⟩, ⟨0, false⟩, ⟨0, 0, 0⟩, ⟨0, 0, 0⟩, true, 0, .i16, .rne, 0⟩),
     some (.vcvti ⟨0, ⟨6, false⟩, ⟨0, false⟩, ⟨0, false⟩, ⟨0, 0, 0⟩, ⟨0, 0, 0⟩, false, 0, .i64, .rup, 16⟩),
     some (.vq4 ⟨3, ⟨9, false⟩, ⟨0, false⟩, ⟨0, false⟩, ⟨0, 0, 0⟩, ⟨0, 0, 0⟩, false, 0, .f32, .rna, 2⟩)] := by decide

theorem test_decode_reduce : readsAs
    [(0x9F00, 0x22C014C011100),
     (0x9F0C, 0x1000000E401B500),
     (0x9F10, 0x2F4A4014C000A02),
     (0x9F50, 0x3240800E4010C00)]
    [some (.vredo ⟨0, ⟨0, true⟩, ⟨5, true⟩, ⟨0, false⟩, ⟨1, 2, 3⟩, ⟨0, 0, 0⟩, true, 0, .f64, .rup, 0⟩),
     some (.vredt ⟨3, ⟨0, false⟩, ⟨0, false⟩, ⟨0, false⟩, ⟨0, 7, 1⟩, ⟨0, 0, 0⟩, true, 5, .bf16, .rup, 0⟩),
     some (.vredm ⟨4, ⟨61, false⟩, ⟨20, true⟩, ⟨0, false⟩, ⟨1, 2, 3⟩, ⟨0, 0, 0⟩, false, 0, .n16, .rne, 2⟩),
     some (.vredb ⟨20, ⟨9, false⟩, ⟨1, false⟩, ⟨0, false⟩, ⟨0, 7, 1⟩, ⟨0, 0, 0⟩, true, 0, .n32, .rne, 0⟩)] := by decide

theorem test_decode_approx : readsAs
    [(0xA300, 0xF800000001B200),
     (0xA350, 0x1000000E4011600),
     (0xA3F8, 0x2040000E4011200),
     (0xA300, 0x3F80000E4001400)]
    [some (.vrcp ⟨0, ⟨62, false⟩, ⟨0, false⟩, ⟨0, false⟩, ⟨0, 0, 0⟩, ⟨0, 0, 0⟩, true, 5, .f32, .rne, 0⟩),
     some (.vrsq ⟨20, ⟨0, false⟩, ⟨0, false⟩, ⟨0, false⟩, ⟨0, 7, 1⟩, ⟨0, 0, 0⟩, true, 0, .f16, .rne, 0⟩),
     some (.vexp2 ⟨62, ⟨1, false⟩, ⟨0, false⟩, ⟨0, false⟩, ⟨0, 7, 1⟩, ⟨0, 0, 0⟩, true, 0, .f32, .rne, 0⟩),
     some (.vlog2 ⟨0, ⟨62, false⟩, ⟨0, false⟩, ⟨0, false⟩, ⟨0, 7, 1⟩, ⟨0, 0, 0⟩, false, 0, .bf16, .rne, 0⟩)] := by decide

theorem test_decode_matrix : readsAs
    [(0xC304, 0x2000000000000),
     (0xC304, 0x118101000000000),
     (0xC304, 0x200000000000000),
     (0xC30C, 0x3042C0000000000),
     (0xC304, 0x418A40000000000),
     (0xC30C, 0x5042C0000000000),
     (0xC30C, 0x5042C5800010029)]
    [some (.mcfg ⟨1, ⟨0, true⟩, ⟨0, false⟩, ⟨0, false⟩, .seq, .rlx, 0, 0⟩),
     some (.mstep ⟨1, ⟨6, false⟩, ⟨2, false⟩, ⟨1, false⟩, .seq, .rlx, 0, 0⟩),
     some (.mzero ⟨1, ⟨0, false⟩, ⟨0, false⟩, ⟨0, false⟩, .seq, .rlx, 0, 0⟩),
     some (.mrda ⟨3, ⟨1, false⟩, ⟨5, true⟩, ⟨0, false⟩, .seq, .rlx, 0, 0⟩),
     some (.mwra ⟨1, ⟨6, false⟩, ⟨20, true⟩, ⟨0, false⟩, .seq, .rlx, 0, 0⟩),
     some (.mdrainBrk ⟨3, ⟨1, false⟩, ⟨5, true⟩, ⟨0, false⟩, .seq, .rlx, 0, 0⟩),
     some (.mdrainMem ⟨3, ⟨1, false⟩, ⟨5, true⟩, ⟨5, true⟩, .seq, .rlx, 1, 41⟩)] := by decide


theorem test_wf_refuses_alu : refusesAll
    [.add ⟨9, ⟨2, false⟩, ⟨5, true⟩, 1⟩,
     .clz ⟨4, ⟨62, false⟩, ⟨5, true⟩, 0⟩,
     .clz ⟨4, ⟨62, false⟩, ⟨0, false⟩, 1⟩] := by decide

theorem test_wf_refuses_alu_immediate : refusesAll
    [.shli ⟨3, ⟨9, false⟩, 0x1fffb⟩] := by decide

theorem test_wf_refuses_scalar_float : refusesAll
    [.fadd ⟨62, ⟨61, false⟩, ⟨62, false⟩, 1, .dyn, .f16⟩,
     .fadd ⟨62, ⟨61, false⟩, ⟨62, false⟩, 0, .rsr, .f16⟩,
     .fadd ⟨62, ⟨61, false⟩, ⟨62, false⟩, 0, .dyn, .i8⟩,
     .fsqrt ⟨63, ⟨9, false⟩, ⟨5, true⟩, 0, .rdn, .f64⟩,
     .fsqrt ⟨63, ⟨9, false⟩, ⟨0, false⟩, 1, .rdn, .f64⟩,
     .fsqrt ⟨63, ⟨9, false⟩, ⟨0, false⟩, 0, .rsr, .f64⟩,
     .fsqrt ⟨63, ⟨9, false⟩, ⟨0, false⟩, 0, .rdn, .i8⟩,
     .fmin ⟨62, ⟨61, false⟩, ⟨5, true⟩, 1, .rne, .f32⟩,
     .fmin ⟨62, ⟨61, false⟩, ⟨5, true⟩, 0, .rna, .f32⟩,
     .fmin ⟨62, ⟨61, false⟩, ⟨5, true⟩, 0, .rne, .i8⟩,
     .fcmp ⟨20, ⟨2, false⟩, ⟨1, false⟩, 3, .rne, .f32⟩,
     .fcmp ⟨4, ⟨2, false⟩, ⟨1, false⟩, 7, .rne, .f32⟩,
     .fcmp ⟨4, ⟨2, false⟩, ⟨1, false⟩, 3, .rna, .f32⟩,
     .fcmp ⟨4, ⟨2, false⟩, ⟨1, false⟩, 3, .rne, .i8⟩,
     .fcvt ⟨1, ⟨2, false⟩, ⟨5, true⟩, 4, .dyn, .f32⟩,
     .fcvt ⟨1, ⟨2, false⟩, ⟨0, false⟩, 1, .dyn, .f32⟩,
     .fcvt ⟨1, ⟨2, false⟩, ⟨0, false⟩, 4, .rsr, .f32⟩,
     .fcvt ⟨1, ⟨2, false⟩, ⟨0, false⟩, 4, .dyn, .i8⟩] := by decide

theorem test_wf_refuses_branches : refusesAll
    [.br ⟨20, 0x7fe, 4⟩,
     .j ⟨9, 0x7fe, 4⟩] := by decide

theorem test_wf_refuses_calls : refusesAll
    [.jr ⟨3, ⟨5, true⟩, ⟨0, false⟩, 0⟩,
     .jr ⟨0, ⟨5, true⟩, ⟨5, true⟩, 0⟩,
     .jr ⟨0, ⟨5, true⟩, ⟨0, false⟩, 1⟩] := by decide

theorem test_wf_refuses_strip : refusesAll
    [.strip ⟨63, 3, 4, 0, 1, 8⟩,
     .strip ⟨63, 3, 4, 5, 0, 8⟩,
     .strip ⟨63, 3, 4, 5, 1, 0xff⟩] := by decide

theorem test_wf_refuses_fork : refusesAll
    [.abortLine ⟨3, ⟨0, false⟩, ⟨0, false⟩, 0⟩,
     .abortLine ⟨0, ⟨5, true⟩, ⟨0, false⟩, 0⟩,
     .abortLine ⟨0, ⟨0, false⟩, ⟨5, true⟩, 0⟩,
     .abortLine ⟨0, ⟨0, false⟩, ⟨0, false⟩, 1⟩,
     .abchk ⟨20, ⟨0, false⟩, ⟨0, false⟩, 0⟩,
     .abchk ⟨4, ⟨5, true⟩, ⟨0, false⟩, 0⟩,
     .abchk ⟨4, ⟨0, false⟩, ⟨5, true⟩, 0⟩,
     .abchk ⟨4, ⟨0, false⟩, ⟨0, false⟩, 1⟩] := by decide

theorem test_wf_refuses_queues : refusesAll
    [.qpush ⟨20, ⟨2, false⟩, ⟨5, true⟩, 0⟩,
     .qpush ⟨3, ⟨5, true⟩, ⟨5, true⟩, 0⟩,
     .qpush ⟨3, ⟨2, false⟩, ⟨5, true⟩, 1⟩,
     .qstat ⟨63, ⟨5, true⟩, ⟨0, false⟩, 0⟩,
     .qstat ⟨63, ⟨1, false⟩, ⟨5, true⟩, 0⟩,
     .qstat ⟨63, ⟨1, false⟩, ⟨0, false⟩, 1⟩] := by decide

theorem test_wf_refuses_predicates : refusesAll
    [.pset ⟨20, ⟨5, true⟩, ⟨9, false⟩, 1⟩,
     .pset ⟨9, ⟨5, true⟩, ⟨9, false⟩, 6⟩,
     .pand ⟨20, ⟨9, false⟩, ⟨1, false⟩, 0⟩,
     .pand ⟨3, ⟨5, true⟩, ⟨1, false⟩, 0⟩,
     .pand ⟨3, ⟨9, false⟩, ⟨5, true⟩, 0⟩,
     .pand ⟨3, ⟨9, false⟩, ⟨1, false⟩, 1⟩,
     .pnot ⟨20, ⟨2, false⟩, ⟨0, false⟩, 0⟩,
     .pnot ⟨3, ⟨5, true⟩, ⟨0, false⟩, 0⟩,
     .pnot ⟨3, ⟨2, false⟩, ⟨5, true⟩, 0⟩,
     .pnot ⟨3, ⟨2, false⟩, ⟨0, false⟩, 1⟩,
     .ptest ⟨20, ⟨2, false⟩, ⟨0, false⟩, 2⟩,
     .ptest ⟨3, ⟨5, true⟩, ⟨0, false⟩, 2⟩,
     .ptest ⟨3, ⟨2, false⟩, ⟨5, true⟩, 2⟩,
     .ptest ⟨3, ⟨2, false⟩, ⟨0, false⟩, 3⟩,
     .csel ⟨20, ⟨9, false⟩, ⟨5, true⟩, 16⟩] := by decide

theorem test_wf_refuses_system : refusesAll
    [.crd ⟨2, ⟨5, true⟩, ⟨0, false⟩, 5⟩,
     .crd ⟨2, ⟨0, false⟩, ⟨5, true⟩, 5⟩,
     .crd ⟨2, ⟨0, false⟩, ⟨0, false⟩, 6⟩,
     .cwr ⟨3, ⟨5, true⟩, ⟨0, false⟩, 24⟩,
     .cwr ⟨0, ⟨5, true⟩, ⟨5, true⟩, 24⟩,
     .cwr ⟨0, ⟨5, true⟩, ⟨0, false⟩, 0⟩,
     .fsrWrite ⟨3, ⟨12, false⟩, ⟨0, false⟩, 5⟩,
     .fsrWrite ⟨0, ⟨12, false⟩, ⟨5, true⟩, 5⟩,
     .fsrWrite ⟨0, ⟨12, false⟩, ⟨0, false⟩, 0⟩,
     .estartWrite ⟨3, ⟨0, true⟩, ⟨0, false⟩, 0⟩,
     .estartWrite ⟨0, ⟨0, true⟩, ⟨5, true⟩, 0⟩,
     .estartWrite ⟨0, ⟨0, true⟩, ⟨0, false⟩, 1⟩,
     .xlrootWrite ⟨3, ⟨20, true⟩, ⟨0, false⟩, 32⟩,
     .xlrootWrite ⟨0, ⟨20, true⟩, ⟨5, true⟩, 32⟩,
     .xlrootWrite ⟨0, ⟨20, true⟩, ⟨0, false⟩, 0⟩,
     .asidWrite ⟨3, ⟨0, true⟩, ⟨0, false⟩, 33⟩,
     .asidWrite ⟨0, ⟨0, true⟩, ⟨5, true⟩, 33⟩,
     .asidWrite ⟨0, ⟨0, true⟩, ⟨0, false⟩, 0⟩,
     .sventryWrite ⟨3, ⟨1, false⟩, ⟨0, false⟩, 48⟩,
     .sventryWrite ⟨0, ⟨1, false⟩, ⟨5, true⟩, 48⟩,
     .sventryWrite ⟨0, ⟨1, false⟩, ⟨0, false⟩, 0⟩,
     .tstatWrite ⟨3, ⟨9, false⟩, ⟨0, false⟩, 27⟩,
     .tstatWrite ⟨0, ⟨9, false⟩, ⟨5, true⟩, 27⟩,
     .tstatWrite ⟨0, ⟨9, false⟩, ⟨0, false⟩, 0⟩,
     .trap ⟨3, ⟨9, false⟩, ⟨0, false⟩, 0x80⟩,
     .trap ⟨0, ⟨9, false⟩, ⟨5, true⟩, 0x80⟩,
     .evpop ⟨3, ⟨0, false⟩, ⟨0, false⟩, 3⟩,
     .evpop ⟨20, ⟨5, true⟩, ⟨0, false⟩, 3⟩,
     .evpop ⟨20, ⟨0, false⟩, ⟨5, true⟩, 3⟩,
     .evpop ⟨20, ⟨0, false⟩, ⟨0, false⟩, 32⟩,
     .ctxsv ⟨60, ⟨5, true⟩, ⟨0, false⟩, 0⟩,
     .ctxsv ⟨60, ⟨0, false⟩, ⟨5, true⟩, 0⟩,
     .ctxsv ⟨60, ⟨0, false⟩, ⟨0, false⟩, 1⟩] := by decide

theorem test_wf_refuses_load : refusesAll
    [.ld ⟨9, .rel, .dev, 3, ⟨5, true⟩, 0x1fff8⟩,
     .ld ⟨9, .acq, .dev, 7, ⟨5, true⟩, 0x1fff8⟩] := by decide

theorem test_wf_refuses_store : refusesAll
    [.st ⟨3, .acq, .die, 3, ⟨5, true⟩, 0x1fff8⟩,
     .st ⟨3, .rel, .die, 6, ⟨5, true⟩, 0x1fff8⟩] := by decide

theorem test_wf_refuses_brick_load : refusesAll
    [.vldUnit ⟨0, ⟨0, false⟩, ⟨5, true⟩, ⟨0, false⟩, ⟨0, 0, 0⟩, ⟨0, 0, 0⟩, true, 5, .i64, .rup, 6⟩,
     .vldUnit ⟨0, ⟨0, false⟩, ⟨0, false⟩, ⟨5, true⟩, ⟨0, 0, 0⟩, ⟨0, 0, 0⟩, true, 5, .i64, .rup, 6⟩,
     .vldUnit ⟨0, ⟨0, false⟩, ⟨0, false⟩, ⟨0, false⟩, ⟨0, 7, 1⟩, ⟨0, 0, 0⟩, true, 5, .i64, .rup, 6⟩,
     .vldUnit ⟨0, ⟨0, false⟩, ⟨0, false⟩, ⟨0, false⟩, ⟨0, 0, 0⟩, ⟨0, 7, 1⟩, true, 5, .i64, .rup, 6⟩,
     .vldUnit ⟨0, ⟨0, false⟩, ⟨0, false⟩, ⟨0, false⟩, ⟨0, 0, 0⟩, ⟨0, 0, 0⟩, false, 5, .i64, .rup, 6⟩,
     .vldUnit ⟨0, ⟨0, false⟩, ⟨0, false⟩, ⟨0, false⟩, ⟨0, 0, 0⟩, ⟨0, 0, 0⟩, true, 5, .i64, .rsr, 6⟩,
     .vldUnit ⟨0, ⟨0, false⟩, ⟨0, false⟩, ⟨0, false⟩, ⟨0, 0, 0⟩, ⟨0, 0, 0⟩, true, 5, .i64, .rup, 7⟩,
     .vldShaped ⟨63, ⟨9, false⟩, ⟨0, true⟩, ⟨5, true⟩, ⟨0, 0, 0⟩, ⟨0, 0, 0⟩, true, 5, .f64, .rna, 0⟩,
     .vldShaped ⟨63, ⟨9, false⟩, ⟨0, true⟩, ⟨0, false⟩, ⟨0, 7, 1⟩, ⟨0, 0, 0⟩, true, 5, .f64, .rna, 0⟩,
     .vldShaped ⟨63, ⟨9, false⟩, ⟨0, true⟩, ⟨0, false⟩, ⟨0, 0, 0⟩, ⟨0, 7, 1⟩, true, 5, .f64, .rna, 0⟩,
     .vldShaped ⟨63, ⟨9, false⟩, ⟨0, true⟩, ⟨0, false⟩, ⟨0, 0, 0⟩, ⟨0, 0, 0⟩, false, 5, .f64, .rna, 0⟩,
     .vldShaped ⟨63, ⟨9, false⟩, ⟨0, true⟩, ⟨0, false⟩, ⟨0, 0, 0⟩, ⟨0, 0, 0⟩, true, 5, .f64, .rsr, 0⟩,
     .vldShaped ⟨63, ⟨9, false⟩, ⟨0, true⟩, ⟨0, false⟩, ⟨0, 0, 0⟩, ⟨0, 0, 0⟩, true, 5, .f64, .rna, 7⟩,
     .vlds ⟨1, ⟨5, true⟩, ⟨62, false⟩, ⟨0, false⟩, ⟨0, 0, 0⟩, ⟨0, 0, 0⟩, true, 5, .i8, .rna, 4⟩,
     .vlds ⟨1, ⟨5, true⟩, ⟨0, true⟩, ⟨5, true⟩, ⟨0, 0, 0⟩, ⟨0, 0, 0⟩, true, 5, .i8, .rna, 4⟩,
     .vlds ⟨1, ⟨5, true⟩, ⟨0, true⟩, ⟨0, false⟩, ⟨0, 7, 1⟩, ⟨0, 0, 0⟩, true, 5, .i8, .rna, 4⟩,
     .vlds ⟨1, ⟨5, true⟩, ⟨0, true⟩, ⟨0, false⟩, ⟨0, 0, 0⟩, ⟨0, 7, 1⟩, true, 5, .i8, .rna, 4⟩,
     .vlds ⟨1, ⟨5, true⟩, ⟨0, true⟩, ⟨0, false⟩, ⟨0, 0, 0⟩, ⟨0, 0, 0⟩, false, 5, .i8, .rna, 4⟩,
     .vlds ⟨1, ⟨5, true⟩, ⟨0, true⟩, ⟨0, false⟩, ⟨0, 0, 0⟩, ⟨0, 0, 0⟩, true, 5, .i8, .rsr, 4⟩,
     .vlds ⟨1, ⟨5, true⟩, ⟨0, true⟩, ⟨0, false⟩, ⟨0, 0, 0⟩, ⟨0, 0, 0⟩, true, 5, .i8, .rna, 7⟩] := by decide

theorem test_wf_refuses_brick_store : refusesAll
    [.vstUnit ⟨3, ⟨12, false⟩, ⟨0, false⟩, ⟨0, false⟩, ⟨0, 0, 0⟩, ⟨0, 0, 0⟩, true, 5, .n64, .dyn, 0⟩,
     .vstUnit ⟨0, ⟨12, false⟩, ⟨5, true⟩, ⟨0, false⟩, ⟨0, 0, 0⟩, ⟨0, 0, 0⟩, true, 5, .n64, .dyn, 0⟩,
     .vstUnit ⟨0, ⟨12, false⟩, ⟨0, false⟩, ⟨0, false⟩, ⟨0, 7, 1⟩, ⟨0, 0, 0⟩, true, 5, .n64, .dyn, 0⟩,
     .vstUnit ⟨0, ⟨12, false⟩, ⟨0, false⟩, ⟨0, false⟩, ⟨0, 0, 0⟩, ⟨0, 7, 1⟩, true, 5, .n64, .dyn, 0⟩,
     .vstUnit ⟨0, ⟨12, false⟩, ⟨0, false⟩, ⟨0, false⟩, ⟨0, 0, 0⟩, ⟨0, 0, 0⟩, false, 5, .n64, .dyn, 0⟩,
     .vstUnit ⟨0, ⟨12, false⟩, ⟨0, false⟩, ⟨0, false⟩, ⟨0, 0, 0⟩, ⟨0, 0, 0⟩, true, 5, .n64, .dyn, 7⟩,
     .vstShaped ⟨3, ⟨9, false⟩, ⟨2, false⟩, ⟨0, true⟩, ⟨0, 0, 0⟩, ⟨0, 0, 0⟩, true, 0, .f64, .rsr, 0⟩,
     .vstShaped ⟨0, ⟨9, false⟩, ⟨2, false⟩, ⟨0, true⟩, ⟨0, 7, 1⟩, ⟨0, 0, 0⟩, true, 0, .f64, .rsr, 0⟩,
     .vstShaped ⟨0, ⟨9, false⟩, ⟨2, false⟩, ⟨0, true⟩, ⟨0, 0, 0⟩, ⟨0, 7, 1⟩, true, 0, .f64, .rsr, 0⟩,
     .vstShaped ⟨0, ⟨9, false⟩, ⟨2, false⟩, ⟨0, true⟩, ⟨0, 0, 0⟩, ⟨0, 0, 0⟩, true, 0, .f64, .rsr, 7⟩,
     .vsts ⟨3, ⟨6, false⟩, ⟨12, false⟩, ⟨5, true⟩, ⟨0, 0, 0⟩, ⟨0, 0, 0⟩, true, 5, .i64, .rsr, 0⟩,
     .vsts ⟨0, ⟨6, false⟩, ⟨62, false⟩, ⟨5, true⟩, ⟨0, 0, 0⟩, ⟨0, 0, 0⟩, true, 5, .i64, .rsr, 0⟩,
     .vsts ⟨0, ⟨6, false⟩, ⟨12, false⟩, ⟨5, true⟩, ⟨0, 7, 1⟩, ⟨0, 0, 0⟩, true, 5, .i64, .rsr, 0⟩,
     .vsts ⟨0, ⟨6, false⟩, ⟨12, false⟩, ⟨5, true⟩, ⟨0, 0, 0⟩, ⟨0, 7, 1⟩, true, 5, .i64, .rsr, 0⟩,
     .vsts ⟨0, ⟨6, false⟩, ⟨12, false⟩, ⟨5, true⟩, ⟨0, 0, 0⟩, ⟨0, 0, 0⟩, false, 5, .i64, .rsr, 0⟩,
     .vsts ⟨0, ⟨6, false⟩, ⟨12, false⟩, ⟨5, true⟩, ⟨0, 0, 0⟩, ⟨0, 0, 0⟩, true, 5, .i64, .rsr, 7⟩] := by decide

theorem test_wf_refuses_atomics : refusesAll
    [.amoAdd ⟨20, ⟨5, true⟩, ⟨9, false⟩, .rlx, .dev, 1⟩,
     .amoAdd ⟨20, ⟨5, true⟩, ⟨9, false⟩, .ar, .dev, 0⟩,
     .amoFaddF32 ⟨9, ⟨0, true⟩, ⟨1, false⟩, .rlx, .sys, 1⟩,
     .amoFaddF32 ⟨9, ⟨0, true⟩, ⟨1, false⟩, .ar, .sys, 2⟩,
     .amoFaddBf16 ⟨9, ⟨9, false⟩, ⟨5, true⟩, .rlx, .clu, 0⟩,
     .amoFaddBf16 ⟨9, ⟨9, false⟩, ⟨5, true⟩, .acq, .clu, 2⟩,
     .cas2 ⟨3, ⟨1, false⟩, ⟨12, false⟩, .acq, .core, 0⟩,
     .cas2 ⟨20, ⟨1, false⟩, ⟨5, true⟩, .acq, .core, 0⟩,
     .cas2 ⟨20, ⟨1, false⟩, ⟨12, false⟩, .rlx, .core, 0⟩,
     .cas2 ⟨20, ⟨1, false⟩, ⟨12, false⟩, .acq, .core, 2⟩] := by decide

theorem test_wf_refuses_brick_atomics : refusesAll
    [.vamoAdd ⟨3, ⟨9, false⟩, ⟨5, true⟩, ⟨9, false⟩, ⟨0, 7, 1⟩, ⟨0, 0, 0⟩, true, 5, .i32, .rne, 0⟩,
     .vamoAdd ⟨3, ⟨9, false⟩, ⟨5, true⟩, ⟨9, false⟩, ⟨0, 0, 0⟩, ⟨0, 7, 1⟩, true, 5, .i32, .rne, 0⟩,
     .vamoAdd ⟨3, ⟨9, false⟩, ⟨5, true⟩, ⟨9, false⟩, ⟨0, 0, 0⟩, ⟨0, 0, 0⟩, false, 5, .i32, .rne, 0⟩,
     .vamoAdd ⟨3, ⟨9, false⟩, ⟨5, true⟩, ⟨9, false⟩, ⟨0, 0, 0⟩, ⟨0, 0, 0⟩, true, 5, .f32, .rne, 0⟩,
     .vamoAdd ⟨3, ⟨9, false⟩, ⟨5, true⟩, ⟨9, false⟩, ⟨0, 0, 0⟩, ⟨0, 0, 0⟩, true, 5, .i32, .rna, 0⟩,
     .vamoAdd ⟨3, ⟨9, false⟩, ⟨5, true⟩, ⟨9, false⟩, ⟨0, 0, 0⟩, ⟨0, 0, 0⟩, true, 5, .i32, .rne, 1⟩,
     .vamoMin ⟨63, ⟨0, false⟩, ⟨6, false⟩, ⟨2, false⟩, ⟨0, 7, 1⟩, ⟨0, 0, 0⟩, false, 0, .i32, .rne, 0⟩,
     .vamoMin ⟨63, ⟨0, false⟩, ⟨6, false⟩, ⟨2, false⟩, ⟨0, 0, 0⟩, ⟨0, 7, 1⟩, false, 0, .i32, .rne, 0⟩,
     .vamoMin ⟨63, ⟨0, false⟩, ⟨6, false⟩, ⟨2, false⟩, ⟨0, 0, 0⟩, ⟨0, 0, 0⟩, false, 5, .i32, .rne, 0⟩,
     .vamoMin ⟨63, ⟨0, false⟩, ⟨6, false⟩, ⟨2, false⟩, ⟨0, 0, 0⟩, ⟨0, 0, 0⟩, false, 0, .f32, .rne, 0⟩,
     .vamoMin ⟨63, ⟨0, false⟩, ⟨6, false⟩, ⟨2, false⟩, ⟨0, 0, 0⟩, ⟨0, 0, 0⟩, false, 0, .i32, .rna, 0⟩,
     .vamoMin ⟨63, ⟨0, false⟩, ⟨6, false⟩, ⟨2, false⟩, ⟨0, 0, 0⟩, ⟨0, 0, 0⟩, false, 0, .i32, .rne, 1⟩,
     .vamoMinn ⟨9, ⟨1, false⟩, ⟨1, false⟩, ⟨12, false⟩, ⟨0, 7, 1⟩, ⟨0, 0, 0⟩, true, 0, .n64, .rne, 0⟩,
     .vamoMinn ⟨9, ⟨1, false⟩, ⟨1, false⟩, ⟨12, false⟩, ⟨0, 0, 0⟩, ⟨0, 7, 1⟩, true, 0, .n64, .rne, 0⟩,
     .vamoMinn ⟨9, ⟨1, false⟩, ⟨1, false⟩, ⟨12, false⟩, ⟨0, 0, 0⟩, ⟨0, 0, 0⟩, true, 0, .i32, .rne, 0⟩,
     .vamoMinn ⟨9, ⟨1, false⟩, ⟨1, false⟩, ⟨12, false⟩, ⟨0, 0, 0⟩, ⟨0, 0, 0⟩, true, 0, .n64, .rna, 0⟩,
     .vamoMinn ⟨9, ⟨1, false⟩, ⟨1, false⟩, ⟨12, false⟩, ⟨0, 0, 0⟩, ⟨0, 0, 0⟩, true, 0, .n64, .rne, 1⟩,
     .vamoFaddF32 ⟨20, ⟨5, true⟩, ⟨1, false⟩, ⟨0, false⟩, ⟨0, 7, 1⟩, ⟨0, 0, 0⟩, true, 0, .f32, .rne, 0⟩,
     .vamoFaddF32 ⟨20, ⟨5, true⟩, ⟨1, false⟩, ⟨0, false⟩, ⟨0, 0, 0⟩, ⟨0, 7, 1⟩, true, 0, .f32, .rne, 0⟩,
     .vamoFaddF32 ⟨20, ⟨5, true⟩, ⟨1, false⟩, ⟨0, false⟩, ⟨0, 0, 0⟩, ⟨0, 0, 0⟩, true, 0, .i32, .rne, 0⟩,
     .vamoFaddF32 ⟨20, ⟨5, true⟩, ⟨1, false⟩, ⟨0, false⟩, ⟨0, 0, 0⟩, ⟨0, 0, 0⟩, true, 0, .f32, .rna, 0⟩,
     .vamoFaddF32 ⟨20, ⟨5, true⟩, ⟨1, false⟩, ⟨0, false⟩, ⟨0, 0, 0⟩, ⟨0, 0, 0⟩, true, 0, .f32, .rne, 1⟩,
     .vamoFaddBf16 ⟨62, ⟨9, false⟩, ⟨0, false⟩, ⟨61, false⟩, ⟨0, 7, 1⟩, ⟨0, 0, 0⟩, false, 0, .bf16, .rne, 0⟩,
     .vamoFaddBf16 ⟨62, ⟨9, false⟩, ⟨0, false⟩, ⟨61, false⟩, ⟨0, 0, 0⟩, ⟨0, 7, 1⟩, false, 0, .bf16, .rne, 0⟩,
     .vamoFaddBf16 ⟨62, ⟨9, false⟩, ⟨0, false⟩, ⟨61, false⟩, ⟨0, 0, 0⟩, ⟨0, 0, 0⟩, false, 5, .bf16, .rne, 0⟩,
     .vamoFaddBf16 ⟨62, ⟨9, false⟩, ⟨0, false⟩, ⟨61, false⟩, ⟨0, 0, 0⟩, ⟨0, 0, 0⟩, false, 0, .i32, .rne, 0⟩,
     .vamoFaddBf16 ⟨62, ⟨9, false⟩, ⟨0, false⟩, ⟨61, false⟩, ⟨0, 0, 0⟩, ⟨0, 0, 0⟩, false, 0, .bf16, .rna, 0⟩,
     .vamoFaddBf16 ⟨62, ⟨9, false⟩, ⟨0, false⟩, ⟨61, false⟩, ⟨0, 0, 0⟩, ⟨0, 0, 0⟩, false, 0, .bf16, .rne, 1⟩,
     .glink ⟨62, ⟨9, false⟩, ⟨0, true⟩, ⟨5, true⟩, ⟨0, 0, 0⟩, ⟨0, 0, 0⟩, true, 5, .n32, .rne, 0⟩,
     .glink ⟨62, ⟨9, false⟩, ⟨0, true⟩, ⟨0, false⟩, ⟨0, 7, 1⟩, ⟨0, 0, 0⟩, true, 5, .n32, .rne, 0⟩,
     .glink ⟨62, ⟨9, false⟩, ⟨0, true⟩, ⟨0, false⟩, ⟨0, 0, 0⟩, ⟨0, 7, 1⟩, true, 5, .n32, .rne, 0⟩,
     .glink ⟨62, ⟨9, false⟩, ⟨0, true⟩, ⟨0, false⟩, ⟨0, 0, 0⟩, ⟨0, 0, 0⟩, false, 5, .n32, .rne, 0⟩,
     .glink ⟨62, ⟨9, false⟩, ⟨0, true⟩, ⟨0, false⟩, ⟨0, 0, 0⟩, ⟨0, 0, 0⟩, true, 5, .i8, .rne, 0⟩,
     .glink ⟨62, ⟨9, false⟩, ⟨0, true⟩, ⟨0, false⟩, ⟨0, 0, 0⟩, ⟨0, 0, 0⟩, true, 5, .n32, .rna, 0⟩,
     .glink ⟨62, ⟨9, false⟩, ⟨0, true⟩, ⟨0, false⟩, ⟨0, 0, 0⟩, ⟨0, 0, 0⟩, true, 5, .n32, .rne, 1⟩,
     .scond ⟨9, ⟨0, true⟩, ⟨5, true⟩, ⟨5, true⟩, ⟨0, 0, 0⟩, ⟨0, 0, 0⟩, true, 0, .i64, .rne, 0⟩,
     .scond ⟨3, ⟨0, true⟩, ⟨5, true⟩, ⟨5, true⟩, ⟨0, 7, 1⟩, ⟨0, 0, 0⟩, true, 0, .i64, .rne, 0⟩,
     .scond ⟨3, ⟨0, true⟩, ⟨5, true⟩, ⟨5, true⟩, ⟨0, 0, 0⟩, ⟨0, 7, 1⟩, true, 0, .i64, .rne, 0⟩,
     .scond ⟨3, ⟨0, true⟩, ⟨5, true⟩, ⟨5, true⟩, ⟨0, 0, 0⟩, ⟨0, 0, 0⟩, true, 0, .i8, .rne, 0⟩,
     .scond ⟨3, ⟨0, true⟩, ⟨5, true⟩, ⟨5, true⟩, ⟨0, 0, 0⟩, ⟨0, 0, 0⟩, true, 0, .i64, .rna, 0⟩] := by decide

theorem test_wf_refuses_brick_atomics_2 : refusesAll
    [.scond ⟨3, ⟨0, true⟩, ⟨5, true⟩, ⟨5, true⟩, ⟨0, 0, 0⟩, ⟨0, 0, 0⟩, true, 0, .i64, .rne, 1⟩,
     .saccAdd ⟨3, ⟨0, false⟩, ⟨61, false⟩, ⟨5, true⟩, ⟨0, 0, 0⟩, ⟨0, 0, 0⟩, true, 5, .i32, .rne, 0⟩,
     .saccAdd ⟨0, ⟨0, false⟩, ⟨61, false⟩, ⟨5, true⟩, ⟨0, 7, 1⟩, ⟨0, 0, 0⟩, true, 5, .i32, .rne, 0⟩,
     .saccAdd ⟨0, ⟨0, false⟩, ⟨61, false⟩, ⟨5, true⟩, ⟨0, 0, 0⟩, ⟨0, 7, 1⟩, true, 5, .i32, .rne, 0⟩,
     .saccAdd ⟨0, ⟨0, false⟩, ⟨61, false⟩, ⟨5, true⟩, ⟨0, 0, 0⟩, ⟨0, 0, 0⟩, false, 5, .i32, .rne, 0⟩,
     .saccAdd ⟨0, ⟨0, false⟩, ⟨61, false⟩, ⟨5, true⟩, ⟨0, 0, 0⟩, ⟨0, 0, 0⟩, true, 5, .f32, .rne, 0⟩,
     .saccAdd ⟨0, ⟨0, false⟩, ⟨61, false⟩, ⟨5, true⟩, ⟨0, 0, 0⟩, ⟨0, 0, 0⟩, true, 5, .i32, .rna, 0⟩,
     .saccAdd ⟨0, ⟨0, false⟩, ⟨61, false⟩, ⟨5, true⟩, ⟨0, 0, 0⟩, ⟨0, 0, 0⟩, true, 5, .i32, .rne, 1⟩,
     .saccMin ⟨3, ⟨0, true⟩, ⟨12, false⟩, ⟨20, true⟩, ⟨0, 0, 0⟩, ⟨0, 0, 0⟩, true, 0, .i32, .rne, 0⟩,
     .saccMin ⟨0, ⟨0, true⟩, ⟨12, false⟩, ⟨20, true⟩, ⟨0, 7, 1⟩, ⟨0, 0, 0⟩, true, 0, .i32, .rne, 0⟩,
     .saccMin ⟨0, ⟨0, true⟩, ⟨12, false⟩, ⟨20, true⟩, ⟨0, 0, 0⟩, ⟨0, 7, 1⟩, true, 0, .i32, .rne, 0⟩,
     .saccMin ⟨0, ⟨0, true⟩, ⟨12, false⟩, ⟨20, true⟩, ⟨0, 0, 0⟩, ⟨0, 0, 0⟩, true, 0, .f32, .rne, 0⟩,
     .saccMin ⟨0, ⟨0, true⟩, ⟨12, false⟩, ⟨20, true⟩, ⟨0, 0, 0⟩, ⟨0, 0, 0⟩, true, 0, .i32, .rna, 0⟩,
     .saccMin ⟨0, ⟨0, true⟩, ⟨12, false⟩, ⟨20, true⟩, ⟨0, 0, 0⟩, ⟨0, 0, 0⟩, true, 0, .i32, .rne, 1⟩,
     .saccMinn ⟨3, ⟨61, false⟩, ⟨20, true⟩, ⟨6, false⟩, ⟨0, 0, 0⟩, ⟨0, 0, 0⟩, true, 5, .n64, .rne, 0⟩,
     .saccMinn ⟨0, ⟨61, false⟩, ⟨20, true⟩, ⟨6, false⟩, ⟨0, 7, 1⟩, ⟨0, 0, 0⟩, true, 5, .n64, .rne, 0⟩,
     .saccMinn ⟨0, ⟨61, false⟩, ⟨20, true⟩, ⟨6, false⟩, ⟨0, 0, 0⟩, ⟨0, 7, 1⟩, true, 5, .n64, .rne, 0⟩,
     .saccMinn ⟨0, ⟨61, false⟩, ⟨20, true⟩, ⟨6, false⟩, ⟨0, 0, 0⟩, ⟨0, 0, 0⟩, false, 5, .n64, .rne, 0⟩,
     .saccMinn ⟨0, ⟨61, false⟩, ⟨20, true⟩, ⟨6, false⟩, ⟨0, 0, 0⟩, ⟨0, 0, 0⟩, true, 5, .i32, .rne, 0⟩,
     .saccMinn ⟨0, ⟨61, false⟩, ⟨20, true⟩, ⟨6, false⟩, ⟨0, 0, 0⟩, ⟨0, 0, 0⟩, true, 5, .n64, .rna, 0⟩,
     .saccMinn ⟨0, ⟨61, false⟩, ⟨20, true⟩, ⟨6, false⟩, ⟨0, 0, 0⟩, ⟨0, 0, 0⟩, true, 5, .n64, .rne, 1⟩,
     .saccFaddF32 ⟨3, ⟨6, false⟩, ⟨9, false⟩, ⟨0, false⟩, ⟨0, 0, 0⟩, ⟨0, 0, 0⟩, true, 0, .f32, .rne, 0⟩,
     .saccFaddF32 ⟨0, ⟨6, false⟩, ⟨9, false⟩, ⟨0, false⟩, ⟨0, 7, 1⟩, ⟨0, 0, 0⟩, true, 0, .f32, .rne, 0⟩,
     .saccFaddF32 ⟨0, ⟨6, false⟩, ⟨9, false⟩, ⟨0, false⟩, ⟨0, 0, 0⟩, ⟨0, 7, 1⟩, true, 0, .f32, .rne, 0⟩,
     .saccFaddF32 ⟨0, ⟨6, false⟩, ⟨9, false⟩, ⟨0, false⟩, ⟨0, 0, 0⟩, ⟨0, 0, 0⟩, true, 0, .i32, .rne, 0⟩,
     .saccFaddF32 ⟨0, ⟨6, false⟩, ⟨9, false⟩, ⟨0, false⟩, ⟨0, 0, 0⟩, ⟨0, 0, 0⟩, true, 0, .f32, .rna, 0⟩,
     .saccFaddF32 ⟨0, ⟨6, false⟩, ⟨9, false⟩, ⟨0, false⟩, ⟨0, 0, 0⟩, ⟨0, 0, 0⟩, true, 0, .f32, .rne, 1⟩,
     .saccFaddBf16 ⟨3, ⟨0, false⟩, ⟨0, true⟩, ⟨9, false⟩, ⟨0, 0, 0⟩, ⟨0, 0, 0⟩, true, 0, .bf16, .rne, 0⟩,
     .saccFaddBf16 ⟨0, ⟨0, false⟩, ⟨0, true⟩, ⟨9, false⟩, ⟨0, 7, 1⟩, ⟨0, 0, 0⟩, true, 0, .bf16, .rne, 0⟩,
     .saccFaddBf16 ⟨0, ⟨0, false⟩, ⟨0, true⟩, ⟨9, false⟩, ⟨0, 0, 0⟩, ⟨0, 7, 1⟩, true, 0, .bf16, .rne, 0⟩,
     .saccFaddBf16 ⟨0, ⟨0, false⟩, ⟨0, true⟩, ⟨9, false⟩, ⟨0, 0, 0⟩, ⟨0, 0, 0⟩, true, 0, .i32, .rne, 0⟩,
     .saccFaddBf16 ⟨0, ⟨0, false⟩, ⟨0, true⟩, ⟨9, false⟩, ⟨0, 0, 0⟩, ⟨0, 0, 0⟩, true, 0, .bf16, .rna, 0⟩,
     .saccFaddBf16 ⟨0, ⟨0, false⟩, ⟨0, true⟩, ⟨9, false⟩, ⟨0, 0, 0⟩, ⟨0, 0, 0⟩, true, 0, .bf16, .rne, 1⟩,
     .vwait ⟨20, ⟨0, false⟩, ⟨0, true⟩, ⟨9, false⟩, ⟨0, 7, 1⟩, ⟨0, 0, 0⟩, true, 0, .n32, .rne, 0⟩,
     .vwait ⟨20, ⟨0, false⟩, ⟨0, true⟩, ⟨9, false⟩, ⟨0, 0, 0⟩, ⟨0, 7, 1⟩, true, 0, .n32, .rne, 0⟩,
     .vwait ⟨20, ⟨0, false⟩, ⟨0, true⟩, ⟨9, false⟩, ⟨0, 0, 0⟩, ⟨0, 0, 0⟩, true, 0, .f32, .rne, 0⟩,
     .vwait ⟨20, ⟨0, false⟩, ⟨0, true⟩, ⟨9, false⟩, ⟨0, 0, 0⟩, ⟨0, 0, 0⟩, true, 0, .n32, .rna, 0⟩,
     .vwait ⟨20, ⟨0, false⟩, ⟨0, true⟩, ⟨9, false⟩, ⟨0, 0, 0⟩, ⟨0, 0, 0⟩, true, 0, .n32, .rne, 3⟩] := by decide

theorem test_wf_refuses_cache : refusesAll
    [.skim ⟨3, ⟨0, true⟩, ⟨6, false⟩, 0⟩,
     .skim ⟨0, ⟨0, true⟩, ⟨6, false⟩, 1⟩,
     .wbr ⟨3, ⟨20, true⟩, ⟨2, false⟩, 3⟩,
     .wbr ⟨0, ⟨20, true⟩, ⟨2, false⟩, 4⟩,
     .flctxAll ⟨3, ⟨0, true⟩, ⟨0, false⟩, 1⟩,
     .flctxAll ⟨0, ⟨0, true⟩, ⟨5, true⟩, 1⟩,
     .flctxAll ⟨0, ⟨0, true⟩, ⟨0, false⟩, 0⟩] := by decide

theorem test_wf_refuses_tier : refusesAll
    [.resvNew ⟨1, ⟨0, false⟩, ⟨62, false⟩, ⟨12, false⟩, .die, .rlx, 4, 3⟩,
     .resvNew ⟨1, ⟨0, false⟩, ⟨62, false⟩, ⟨12, false⟩, .seq, .rel, 4, 3⟩,
     .resvNew ⟨1, ⟨0, false⟩, ⟨62, false⟩, ⟨12, false⟩, .seq, .rlx, 1, 3⟩,
     .resvNew ⟨1, ⟨0, false⟩, ⟨62, false⟩, ⟨12, false⟩, .seq, .rlx, 4, 41⟩,
     .resvUse ⟨3, ⟨9, false⟩, ⟨0, false⟩, ⟨0, false⟩, .seq, .rlx, 1, 0⟩,
     .resvUse ⟨0, ⟨9, false⟩, ⟨5, true⟩, ⟨0, false⟩, .seq, .rlx, 1, 0⟩,
     .resvUse ⟨0, ⟨9, false⟩, ⟨0, false⟩, ⟨5, true⟩, .seq, .rlx, 1, 0⟩,
     .resvUse ⟨0, ⟨9, false⟩, ⟨0, false⟩, ⟨0, false⟩, .die, .rlx, 1, 0⟩,
     .resvUse ⟨0, ⟨9, false⟩, ⟨0, false⟩, ⟨0, false⟩, .seq, .rel, 1, 0⟩,
     .resvUse ⟨0, ⟨9, false⟩, ⟨0, false⟩, ⟨0, false⟩, .seq, .rlx, 0, 0⟩,
     .resvUse ⟨0, ⟨9, false⟩, ⟨0, false⟩, ⟨0, false⟩, .seq, .rlx, 1, 41⟩,
     .resvQuota ⟨3, ⟨0, false⟩, ⟨9, false⟩, ⟨0, false⟩, .seq, .rlx, 2, 3⟩,
     .resvQuota ⟨0, ⟨0, false⟩, ⟨9, false⟩, ⟨5, true⟩, .seq, .rlx, 2, 3⟩,
     .resvQuota ⟨0, ⟨0, false⟩, ⟨9, false⟩, ⟨0, false⟩, .die, .rlx, 2, 3⟩,
     .resvQuota ⟨0, ⟨0, false⟩, ⟨9, false⟩, ⟨0, false⟩, .seq, .rel, 2, 3⟩,
     .resvQuota ⟨0, ⟨0, false⟩, ⟨9, false⟩, ⟨0, false⟩, .seq, .rlx, 0, 3⟩,
     .resvQuota ⟨0, ⟨0, false⟩, ⟨9, false⟩, ⟨0, false⟩, .seq, .rlx, 2, 41⟩,
     .resvPool ⟨3, ⟨2, false⟩, ⟨0, false⟩, ⟨0, false⟩, .seq, .rlx, 3, 0⟩,
     .resvPool ⟨0, ⟨2, false⟩, ⟨5, true⟩, ⟨0, false⟩, .seq, .rlx, 3, 0⟩,
     .resvPool ⟨0, ⟨2, false⟩, ⟨0, false⟩, ⟨5, true⟩, .seq, .rlx, 3, 0⟩,
     .resvPool ⟨0, ⟨2, false⟩, ⟨0, false⟩, ⟨0, false⟩, .die, .rlx, 3, 0⟩,
     .resvPool ⟨0, ⟨2, false⟩, ⟨0, false⟩, ⟨0, false⟩, .seq, .rel, 3, 0⟩,
     .resvPool ⟨0, ⟨2, false⟩, ⟨0, false⟩, ⟨0, false⟩, .seq, .rlx, 0, 0⟩,
     .resvPool ⟨0, ⟨2, false⟩, ⟨0, false⟩, ⟨0, false⟩, .seq, .rlx, 3, 41⟩,
     .unresv ⟨3, ⟨12, false⟩, ⟨0, false⟩, ⟨0, false⟩, .seq, .rlx, 0, 0⟩,
     .unresv ⟨0, ⟨12, false⟩, ⟨5, true⟩, ⟨0, false⟩, .seq, .rlx, 0, 0⟩,
     .unresv ⟨0, ⟨12, false⟩, ⟨0, false⟩, ⟨5, true⟩, .seq, .rlx, 0, 0⟩,
     .unresv ⟨0, ⟨12, false⟩, ⟨0, false⟩, ⟨0, false⟩, .die, .rlx, 0, 0⟩,
     .unresv ⟨0, ⟨12, false⟩, ⟨0, false⟩, ⟨0, false⟩, .seq, .rel, 0, 0⟩,
     .unresv ⟨0, ⟨12, false⟩, ⟨0, false⟩, ⟨0, false⟩, .seq, .rlx, 1, 0⟩,
     .unresv ⟨0, ⟨12, false⟩, ⟨0, false⟩, ⟨0, false⟩, .seq, .rlx, 0, 41⟩,
     .disc ⟨3, ⟨9, false⟩, ⟨20, true⟩, ⟨0, false⟩, .seq, .rlx, 0, 0⟩,
     .disc ⟨0, ⟨9, false⟩, ⟨20, true⟩, ⟨5, true⟩, .seq, .rlx, 0, 0⟩,
     .disc ⟨0, ⟨9, false⟩, ⟨20, true⟩, ⟨0, false⟩, .die, .rlx, 0, 0⟩,
     .disc ⟨0, ⟨9, false⟩, ⟨20, true⟩, ⟨0, false⟩, .seq, .rel, 0, 0⟩,
     .disc ⟨0, ⟨9, false⟩, ⟨20, true⟩, ⟨0, false⟩, .seq, .rlx, 1, 0⟩,
     .disc ⟨0, ⟨9, false⟩, ⟨20, true⟩, ⟨0, false⟩, .seq, .rlx, 0, 41⟩,
     .umig ⟨3, ⟨62, false⟩, ⟨9, false⟩, ⟨2, false⟩, .seq, .rlx, 0, 0⟩,
     .umig ⟨0, ⟨62, false⟩, ⟨9, false⟩, ⟨2, false⟩, .die, .rlx, 0, 0⟩,
     .umig ⟨0, ⟨62, false⟩, ⟨9, false⟩, ⟨2, false⟩, .seq, .rel, 0, 0⟩] := by decide

theorem test_wf_refuses_tier_2 : refusesAll
    [.umig ⟨0, ⟨62, false⟩, ⟨9, false⟩, ⟨2, false⟩, .seq, .rlx, 1, 0⟩,
     .umig ⟨0, ⟨62, false⟩, ⟨9, false⟩, ⟨2, false⟩, .seq, .rlx, 0, 41⟩,
     .tstat ⟨62, ⟨5, true⟩, ⟨5, true⟩, ⟨0, false⟩, .seq, .rlx, 2, 0⟩,
     .tstat ⟨62, ⟨5, true⟩, ⟨0, false⟩, ⟨5, true⟩, .seq, .rlx, 2, 0⟩,
     .tstat ⟨62, ⟨5, true⟩, ⟨0, false⟩, ⟨0, false⟩, .die, .rlx, 2, 0⟩,
     .tstat ⟨62, ⟨5, true⟩, ⟨0, false⟩, ⟨0, false⟩, .seq, .rel, 2, 0⟩,
     .tstat ⟨62, ⟨5, true⟩, ⟨0, false⟩, ⟨0, false⟩, .seq, .rlx, 3, 0⟩,
     .tstat ⟨62, ⟨5, true⟩, ⟨0, false⟩, ⟨0, false⟩, .seq, .rlx, 2, 41⟩,
     .loffer ⟨20, ⟨9, false⟩, ⟨2, false⟩, ⟨5, true⟩, .die, .rlx, 2, 41⟩,
     .loffer ⟨20, ⟨9, false⟩, ⟨2, false⟩, ⟨5, true⟩, .seq, .rel, 2, 41⟩,
     .loffer ⟨20, ⟨9, false⟩, ⟨2, false⟩, ⟨5, true⟩, .seq, .rlx, 0x1000, 41⟩,
     .loffer ⟨20, ⟨9, false⟩, ⟨2, false⟩, ⟨5, true⟩, .seq, .rlx, 2, 7⟩,
     .ltake ⟨9, ⟨1, false⟩, ⟨5, true⟩, ⟨0, false⟩, .seq, .rlx, 0, 0⟩,
     .ltake ⟨9, ⟨1, false⟩, ⟨0, false⟩, ⟨5, true⟩, .seq, .rlx, 0, 0⟩,
     .ltake ⟨9, ⟨1, false⟩, ⟨0, false⟩, ⟨0, false⟩, .die, .rlx, 0, 0⟩,
     .ltake ⟨9, ⟨1, false⟩, ⟨0, false⟩, ⟨0, false⟩, .seq, .rel, 0, 0⟩,
     .ltake ⟨9, ⟨1, false⟩, ⟨0, false⟩, ⟨0, false⟩, .seq, .rlx, 1, 0⟩,
     .ltake ⟨9, ⟨1, false⟩, ⟨0, false⟩, ⟨0, false⟩, .seq, .rlx, 0, 41⟩,
     .lretFree ⟨0, ⟨6, false⟩, ⟨5, true⟩, ⟨0, false⟩, .seq, .rlx, 1, 0⟩,
     .lretFree ⟨0, ⟨6, false⟩, ⟨0, false⟩, ⟨5, true⟩, .seq, .rlx, 1, 0⟩,
     .lretFree ⟨0, ⟨6, false⟩, ⟨0, false⟩, ⟨0, false⟩, .die, .rlx, 1, 0⟩,
     .lretFree ⟨0, ⟨6, false⟩, ⟨0, false⟩, ⟨0, false⟩, .seq, .rel, 1, 0⟩,
     .lretFree ⟨0, ⟨6, false⟩, ⟨0, false⟩, ⟨0, false⟩, .seq, .rlx, 0, 0⟩,
     .lretFree ⟨0, ⟨6, false⟩, ⟨0, false⟩, ⟨0, false⟩, .seq, .rlx, 1, 41⟩] := by decide

theorem test_wf_refuses_xlat : refusesAll
    [.tlbinv ⟨3, ⟨0, false⟩, ⟨0, false⟩, 0x100⟩,
     .tlbinv ⟨0, ⟨5, true⟩, ⟨0, false⟩, 0x100⟩,
     .tlbinv ⟨0, ⟨0, false⟩, ⟨5, true⟩, 0x100⟩,
     .tlbinv ⟨0, ⟨0, false⟩, ⟨0, false⟩, 0⟩,
     .tlbprobe ⟨3, ⟨20, true⟩, ⟨5, true⟩, 0x100⟩,
     .tlbprobe ⟨3, ⟨20, true⟩, ⟨0, false⟩, 1⟩] := by decide

theorem test_wf_refuses_sync : refusesAll
    [.fence ⟨3, ⟨0, false⟩, ⟨0, false⟩, .ar, .clu, 0⟩,
     .fence ⟨0, ⟨5, true⟩, ⟨0, false⟩, .ar, .clu, 0⟩,
     .fence ⟨0, ⟨0, false⟩, ⟨5, true⟩, .ar, .clu, 0⟩,
     .fence ⟨0, ⟨0, false⟩, ⟨0, false⟩, .rlx, .clu, 0⟩,
     .fence ⟨0, ⟨0, false⟩, ⟨0, false⟩, .ar, .clu, 1⟩,
     .phase ⟨62, ⟨12, false⟩, ⟨5, true⟩, .rlx, .dev, 0⟩,
     .phase ⟨62, ⟨12, false⟩, ⟨0, false⟩, .ar, .dev, 0⟩,
     .phase ⟨62, ⟨12, false⟩, ⟨0, false⟩, .rlx, .seq, 0⟩,
     .phase ⟨62, ⟨12, false⟩, ⟨0, false⟩, .rlx, .dev, 1⟩,
     .bwait ⟨3, ⟨61, false⟩, ⟨12, false⟩, .rlx, .clu, 0⟩,
     .bwait ⟨0, ⟨61, false⟩, ⟨12, false⟩, .ar, .clu, 0⟩,
     .bwait ⟨0, ⟨61, false⟩, ⟨12, false⟩, .rlx, .seq, 0⟩,
     .bwait ⟨0, ⟨61, false⟩, ⟨12, false⟩, .rlx, .clu, 1⟩,
     .arrive ⟨3, ⟨5, true⟩, ⟨5, true⟩, .rlx, .seq, 0⟩,
     .arrive ⟨3, ⟨5, true⟩, ⟨0, false⟩, .ar, .seq, 0⟩,
     .arrive ⟨3, ⟨5, true⟩, ⟨0, false⟩, .rlx, .die, 0⟩,
     .arrive ⟨3, ⟨5, true⟩, ⟨0, false⟩, .rlx, .seq, 1⟩,
     .arriveRemote ⟨62, ⟨0, true⟩, ⟨1, false⟩, .ar, .seq, 1⟩,
     .arriveRemote ⟨62, ⟨0, true⟩, ⟨1, false⟩, .rlx, .die, 1⟩,
     .arriveRemote ⟨62, ⟨0, true⟩, ⟨1, false⟩, .rlx, .seq, 0⟩,
     .arriveLeave ⟨3, ⟨0, true⟩, ⟨0, false⟩, .rlx, .seq, 2⟩,
     .arriveLeave ⟨0, ⟨0, true⟩, ⟨5, true⟩, .rlx, .seq, 2⟩,
     .arriveLeave ⟨0, ⟨0, true⟩, ⟨0, false⟩, .ar, .seq, 2⟩,
     .arriveLeave ⟨0, ⟨0, true⟩, ⟨0, false⟩, .rlx, .die, 2⟩,
     .arriveLeave ⟨0, ⟨0, true⟩, ⟨0, false⟩, .rlx, .seq, 0⟩,
     .arriveJoin ⟨3, ⟨1, false⟩, ⟨0, false⟩, .rlx, .seq, 3⟩,
     .arriveJoin ⟨0, ⟨1, false⟩, ⟨5, true⟩, .rlx, .seq, 3⟩,
     .arriveJoin ⟨0, ⟨1, false⟩, ⟨0, false⟩, .ar, .seq, 3⟩,
     .arriveJoin ⟨0, ⟨1, false⟩, ⟨0, false⟩, .rlx, .die, 3⟩,
     .arriveJoin ⟨0, ⟨1, false⟩, ⟨0, false⟩, .rlx, .seq, 0⟩,
     .fput ⟨20, ⟨2, false⟩, ⟨5, true⟩, .rel, .dev, 0⟩,
     .fput ⟨3, ⟨2, false⟩, ⟨5, true⟩, .ar, .dev, 0⟩,
     .fput ⟨3, ⟨2, false⟩, ⟨5, true⟩, .rel, .dev, 2⟩,
     .fget ⟨60, ⟨61, false⟩, ⟨5, true⟩, .acq, .clu, 0⟩,
     .fget ⟨60, ⟨61, false⟩, ⟨0, false⟩, .ar, .clu, 0⟩,
     .fget ⟨60, ⟨61, false⟩, ⟨0, false⟩, .acq, .clu, 2⟩] := by decide

theorem test_wf_refuses_engines : refusesAll
    [.twk ⟨3, ⟨20, true⟩, ⟨5, true⟩, ⟨0, false⟩, .dev, .rel, 16, 0xffff⟩,
     .twk ⟨3, ⟨20, true⟩, ⟨0, false⟩, ⟨5, true⟩, .dev, .rel, 16, 0xffff⟩,
     .twk ⟨3, ⟨20, true⟩, ⟨0, false⟩, ⟨0, false⟩, .dev, .rlx, 16, 0xffff⟩,
     .twk ⟨3, ⟨20, true⟩, ⟨0, false⟩, ⟨0, false⟩, .dev, .rel, 0x1000, 0xffff⟩,
     .twkm ⟨0, ⟨2, false⟩, ⟨62, false⟩, ⟨5, true⟩, .dev, .rel, 1, 7⟩,
     .twkm ⟨0, ⟨2, false⟩, ⟨62, false⟩, ⟨0, false⟩, .dev, .rlx, 1, 7⟩,
     .twkm ⟨0, ⟨2, false⟩, ⟨62, false⟩, ⟨0, false⟩, .dev, .rel, 0x1000, 7⟩,
     .grant ⟨3, ⟨5, true⟩, ⟨61, false⟩, ⟨0, false⟩, .die, .rel, 0, 0x1234⟩,
     .grant ⟨0, ⟨5, true⟩, ⟨61, false⟩, ⟨5, true⟩, .die, .rel, 0, 0x1234⟩,
     .grant ⟨0, ⟨5, true⟩, ⟨61, false⟩, ⟨0, false⟩, .die, .rlx, 0, 0x1234⟩,
     .grant ⟨0, ⟨5, true⟩, ⟨61, false⟩, ⟨0, false⟩, .die, .rel, 16, 0x1234⟩,
     .copy ⟨4, ⟨20, true⟩, ⟨2, false⟩, ⟨5, true⟩, .die, .rlx, 0, 7⟩,
     .copy ⟨4, ⟨20, true⟩, ⟨2, false⟩, ⟨5, true⟩, .die, .rel, 1, 7⟩,
     .rcopy ⟨20, ⟨9, false⟩, ⟨9, false⟩, ⟨62, false⟩, .die, .rel, 1, 3⟩,
     .rcopy ⟨20, ⟨9, false⟩, ⟨9, false⟩, ⟨9, false⟩, .die, .rlx, 1, 3⟩,
     .rcopy ⟨20, ⟨9, false⟩, ⟨9, false⟩, ⟨9, false⟩, .die, .rel, 2, 3⟩,
     .evwait ⟨63, ⟨0, true⟩, ⟨5, true⟩, ⟨0, false⟩, .seq, .rlx, 0, 1⟩,
     .evwait ⟨63, ⟨0, true⟩, ⟨0, false⟩, ⟨5, true⟩, .seq, .rlx, 0, 1⟩,
     .evwait ⟨63, ⟨0, true⟩, ⟨0, false⟩, ⟨0, false⟩, .die, .rlx, 0, 1⟩,
     .evwait ⟨63, ⟨0, true⟩, ⟨0, false⟩, ⟨0, false⟩, .seq, .rel, 0, 1⟩,
     .evwait ⟨63, ⟨0, true⟩, ⟨0, false⟩, ⟨0, false⟩, .seq, .rlx, 2, 1⟩,
     .evwait ⟨63, ⟨0, true⟩, ⟨0, false⟩, ⟨0, false⟩, .seq, .rlx, 0, 41⟩] := by decide

theorem test_wf_refuses_tasks : refusesAll
    [.spawn ⟨20, ⟨1, false⟩, ⟨0, false⟩, 0⟩,
     .spawn ⟨3, ⟨1, false⟩, ⟨5, true⟩, 0⟩,
     .spawn ⟨3, ⟨1, false⟩, ⟨0, false⟩, 1⟩] := by decide

theorem test_wf_refuses_brick_config : refusesAll
    [.vset ⟨41, ⟨61, false⟩, ⟨5, true⟩, ⟨0, false⟩, .seq, .rlx, 1, 3⟩,
     .vset ⟨41, ⟨61, false⟩, ⟨0, false⟩, ⟨5, true⟩, .seq, .rlx, 1, 3⟩,
     .vset ⟨41, ⟨61, false⟩, ⟨0, false⟩, ⟨0, false⟩, .die, .rlx, 1, 3⟩,
     .vset ⟨41, ⟨61, false⟩, ⟨0, false⟩, ⟨0, false⟩, .seq, .rel, 1, 3⟩,
     .vset ⟨41, ⟨61, false⟩, ⟨0, false⟩, ⟨0, false⟩, .seq, .rlx, 2, 3⟩,
     .vset ⟨41, ⟨61, false⟩, ⟨0, false⟩, ⟨0, false⟩, .seq, .rlx, 1, 0x1234⟩,
     .vsetFree ⟨4, ⟨5, true⟩, ⟨0, false⟩, ⟨0, false⟩, .seq, .rlx, 2, 0⟩,
     .vsetFree ⟨4, ⟨0, false⟩, ⟨5, true⟩, ⟨0, false⟩, .seq, .rlx, 2, 0⟩,
     .vsetFree ⟨4, ⟨0, false⟩, ⟨0, false⟩, ⟨5, true⟩, .seq, .rlx, 2, 0⟩,
     .vsetFree ⟨4, ⟨0, false⟩, ⟨0, false⟩, ⟨0, false⟩, .die, .rlx, 2, 0⟩,
     .vsetFree ⟨4, ⟨0, false⟩, ⟨0, false⟩, ⟨0, false⟩, .seq, .rel, 2, 0⟩,
     .vsetFree ⟨4, ⟨0, false⟩, ⟨0, false⟩, ⟨0, false⟩, .seq, .rlx, 0, 0⟩,
     .vsetFree ⟨4, ⟨0, false⟩, ⟨0, false⟩, ⟨0, false⟩, .seq, .rlx, 2, 41⟩,
     .bfield ⟨60, ⟨0, false⟩, ⟨0, false⟩, ⟨0, false⟩, .seq, .rlx, 20, 7⟩,
     .bfield ⟨2, ⟨5, true⟩, ⟨0, false⟩, ⟨0, false⟩, .seq, .rlx, 20, 7⟩,
     .bfield ⟨2, ⟨0, false⟩, ⟨5, true⟩, ⟨0, false⟩, .seq, .rlx, 20, 7⟩,
     .bfield ⟨2, ⟨0, false⟩, ⟨0, false⟩, ⟨5, true⟩, .seq, .rlx, 20, 7⟩,
     .bfield ⟨2, ⟨0, false⟩, ⟨0, false⟩, ⟨0, false⟩, .die, .rlx, 20, 7⟩,
     .bfield ⟨2, ⟨0, false⟩, ⟨0, false⟩, ⟨0, false⟩, .seq, .rel, 20, 7⟩,
     .bfield ⟨2, ⟨0, false⟩, ⟨0, false⟩, ⟨0, false⟩, .seq, .rlx, 0x1000, 7⟩,
     .bfield ⟨2, ⟨0, false⟩, ⟨0, false⟩, ⟨0, false⟩, .seq, .rlx, 20, 0xffff⟩,
     .bhalo ⟨63, ⟨6, false⟩, ⟨5, true⟩, ⟨0, false⟩, .seq, .rlx, 0, 1⟩,
     .bhalo ⟨63, ⟨6, false⟩, ⟨0, false⟩, ⟨5, true⟩, .seq, .rlx, 0, 1⟩,
     .bhalo ⟨63, ⟨6, false⟩, ⟨0, false⟩, ⟨0, false⟩, .die, .rlx, 0, 1⟩,
     .bhalo ⟨63, ⟨6, false⟩, ⟨0, false⟩, ⟨0, false⟩, .seq, .rel, 0, 1⟩,
     .bhalo ⟨63, ⟨6, false⟩, ⟨0, false⟩, ⟨0, false⟩, .seq, .rlx, 1, 1⟩,
     .bhalo ⟨63, ⟨6, false⟩, ⟨0, false⟩, ⟨0, false⟩, .seq, .rlx, 0, 41⟩] := by decide

theorem test_wf_refuses_brick_move : refusesAll
    [.vmov ⟨62, ⟨6, false⟩, ⟨5, true⟩, ⟨0, false⟩, ⟨1, 2, 3⟩, ⟨0, 0, 0⟩, true, 0, .fp8b, .rne, 0⟩,
     .vmov ⟨62, ⟨6, false⟩, ⟨0, false⟩, ⟨5, true⟩, ⟨1, 2, 3⟩, ⟨0, 0, 0⟩, true, 0, .fp8b, .rne, 0⟩,
     .vmov ⟨62, ⟨6, false⟩, ⟨0, false⟩, ⟨0, false⟩, ⟨1, 2, 3⟩, ⟨0, 7, 1⟩, true, 0, .fp8b, .rne, 0⟩,
     .vmov ⟨62, ⟨6, false⟩, ⟨0, false⟩, ⟨0, false⟩, ⟨1, 2, 3⟩, ⟨0, 0, 0⟩, true, 0, .fp8b, .rna, 0⟩,
     .vmov ⟨62, ⟨6, false⟩, ⟨0, false⟩, ⟨0, false⟩, ⟨1, 2, 3⟩, ⟨0, 0, 0⟩, true, 0, .fp8b, .rne, 1⟩,
     .vbcast ⟨0, ⟨0, true⟩, ⟨9, false⟩, ⟨5, true⟩, ⟨0, 0, 0⟩, ⟨0, 0, 0⟩, true, 0, .n8, .rne, 1⟩,
     .vbcast ⟨0, ⟨0, true⟩, ⟨9, false⟩, ⟨0, false⟩, ⟨0, 7, 1⟩, ⟨0, 0, 0⟩, true, 0, .n8, .rne, 1⟩,
     .vbcast ⟨0, ⟨0, true⟩, ⟨9, false⟩, ⟨0, false⟩, ⟨0, 0, 0⟩, ⟨0, 7, 1⟩, true, 0, .n8, .rne, 1⟩,
     .vbcast ⟨0, ⟨0, true⟩, ⟨9, false⟩, ⟨0, false⟩, ⟨0, 0, 0⟩, ⟨0, 0, 0⟩, true, 0, .n8, .rna, 1⟩,
     .vbcast ⟨0, ⟨0, true⟩, ⟨9, false⟩, ⟨0, false⟩, ⟨0, 0, 0⟩, ⟨0, 0, 0⟩, true, 0, .n8, .rne, 0⟩,
     .vslide ⟨0, ⟨20, true⟩, ⟨20, true⟩, ⟨5, true⟩, ⟨0, 0, 0⟩, ⟨0, 0, 0⟩, true, 5, .f32, .rne, 1⟩,
     .vslide ⟨0, ⟨20, true⟩, ⟨20, true⟩, ⟨0, false⟩, ⟨0, 7, 1⟩, ⟨0, 0, 0⟩, true, 5, .f32, .rne, 1⟩,
     .vslide ⟨0, ⟨20, true⟩, ⟨20, true⟩, ⟨0, false⟩, ⟨0, 0, 0⟩, ⟨0, 7, 1⟩, true, 5, .f32, .rne, 1⟩,
     .vslide ⟨0, ⟨20, true⟩, ⟨20, true⟩, ⟨0, false⟩, ⟨0, 0, 0⟩, ⟨0, 0, 0⟩, false, 5, .f32, .rne, 1⟩,
     .vslide ⟨0, ⟨20, true⟩, ⟨20, true⟩, ⟨0, false⟩, ⟨0, 0, 0⟩, ⟨0, 0, 0⟩, true, 5, .f32, .rna, 1⟩,
     .vslide ⟨0, ⟨20, true⟩, ⟨20, true⟩, ⟨0, false⟩, ⟨0, 0, 0⟩, ⟨0, 0, 0⟩, true, 5, .f32, .rne, 2⟩,
     .vtrans ⟨20, ⟨5, true⟩, ⟨5, true⟩, ⟨0, false⟩, ⟨0, 0, 0⟩, ⟨0, 0, 0⟩, true, 5, .i32, .rne, 0⟩,
     .vtrans ⟨20, ⟨5, true⟩, ⟨0, false⟩, ⟨5, true⟩, ⟨0, 0, 0⟩, ⟨0, 0, 0⟩, true, 5, .i32, .rne, 0⟩,
     .vtrans ⟨20, ⟨5, true⟩, ⟨0, false⟩, ⟨0, false⟩, ⟨0, 7, 1⟩, ⟨0, 0, 0⟩, true, 5, .i32, .rne, 0⟩,
     .vtrans ⟨20, ⟨5, true⟩, ⟨0, false⟩, ⟨0, false⟩, ⟨0, 0, 0⟩, ⟨0, 7, 1⟩, true, 5, .i32, .rne, 0⟩,
     .vtrans ⟨20, ⟨5, true⟩, ⟨0, false⟩, ⟨0, false⟩, ⟨0, 0, 0⟩, ⟨0, 0, 0⟩, false, 5, .i32, .rne, 0⟩,
     .vtrans ⟨20, ⟨5, true⟩, ⟨0, false⟩, ⟨0, false⟩, ⟨0, 0, 0⟩, ⟨0, 0, 0⟩, true, 5, .i32, .rna, 0⟩,
     .vtrans ⟨20, ⟨5, true⟩, ⟨0, false⟩, ⟨0, false⟩, ⟨0, 0, 0⟩, ⟨0, 0, 0⟩, true, 5, .i32, .rne, 6⟩,
     .vcomp ⟨9, ⟨12, false⟩, ⟨5, true⟩, ⟨0, false⟩, ⟨0, 0, 0⟩, ⟨0, 0, 0⟩, true, 5, .n32, .rne, 0⟩,
     .vcomp ⟨9, ⟨12, false⟩, ⟨0, false⟩, ⟨5, true⟩, ⟨0, 0, 0⟩, ⟨0, 0, 0⟩, true, 5, .n32, .rne, 0⟩,
     .vcomp ⟨9, ⟨12, false⟩, ⟨0, false⟩, ⟨0, false⟩, ⟨0, 7, 1⟩, ⟨0, 0, 0⟩, true, 5, .n32, .rne, 0⟩,
     .vcomp ⟨9, ⟨12, false⟩, ⟨0, false⟩, ⟨0, false⟩, ⟨0, 0, 0⟩, ⟨0, 7, 1⟩, true, 5, .n32, .rne, 0⟩,
     .vcomp ⟨9, ⟨12, false⟩, ⟨0, false⟩, ⟨0, false⟩, ⟨0, 0, 0⟩, ⟨0, 0, 0⟩, false, 5, .n32, .rne, 0⟩,
     .vcomp ⟨9, ⟨12, false⟩, ⟨0, false⟩, ⟨0, false⟩, ⟨0, 0, 0⟩, ⟨0, 0, 0⟩, true, 5, .n32, .rna, 0⟩,
     .vcomp ⟨9, ⟨12, false⟩, ⟨0, false⟩, ⟨0, false⟩, ⟨0, 0, 0⟩, ⟨0, 0, 0⟩, true, 5, .n32, .rne, 1⟩,
     .vins ⟨1, ⟨6, false⟩, ⟨5, true⟩, ⟨5, true⟩, ⟨0, 0, 0⟩, ⟨0, 0, 0⟩, false, 0, .i32, .rne, 0⟩,
     .vins ⟨1, ⟨6, false⟩, ⟨5, true⟩, ⟨0, false⟩, ⟨0, 7, 1⟩, ⟨0, 0, 0⟩, false, 0, .i32, .rne, 0⟩,
     .vins ⟨1, ⟨6, false⟩, ⟨5, true⟩, ⟨0, false⟩, ⟨0, 0, 0⟩, ⟨0, 7, 1⟩, false, 0, .i32, .rne, 0⟩,
     .vins ⟨1, ⟨6, false⟩, ⟨5, true⟩, ⟨0, false⟩, ⟨0, 0, 0⟩, ⟨0, 0, 0⟩, true, 0, .i32, .rne, 0⟩,
     .vins ⟨1, ⟨6, false⟩, ⟨5, true⟩, ⟨0, false⟩, ⟨0, 0, 0⟩, ⟨0, 0, 0⟩, false, 5, .i32, .rne, 0⟩,
     .vins ⟨1, ⟨6, false⟩, ⟨5, true⟩, ⟨0, false⟩, ⟨0, 0, 0⟩, ⟨0, 0, 0⟩, false, 0, .i32, .rna, 0⟩,
     .vins ⟨1, ⟨6, false⟩, ⟨5, true⟩, ⟨0, false⟩, ⟨0, 0, 0⟩, ⟨0, 0, 0⟩, false, 0, .i32, .rne, 1⟩,
     .vgath ⟨60, ⟨12, false⟩, ⟨0, true⟩, ⟨5, true⟩, ⟨0, 0, 0⟩, ⟨0, 0, 0⟩, true, 0, .fp8b, .rne, 0⟩,
     .vgath ⟨60, ⟨12, false⟩, ⟨0, true⟩, ⟨0, false⟩, ⟨0, 7, 1⟩, ⟨0, 0, 0⟩, true, 0, .fp8b, .rne, 0⟩,
     .vgath ⟨60, ⟨12, false⟩, ⟨0, true⟩, ⟨0, false⟩, ⟨0, 0, 0⟩, ⟨0, 7, 1⟩, true, 0, .fp8b, .rne, 0⟩] := by decide

theorem test_wf_refuses_brick_move_2 : refusesAll
    [.vgath ⟨60, ⟨12, false⟩, ⟨0, true⟩, ⟨0, false⟩, ⟨0, 0, 0⟩, ⟨0, 0, 0⟩, true, 0, .fp8b, .rna, 0⟩,
     .vgath ⟨60, ⟨12, false⟩, ⟨0, true⟩, ⟨0, false⟩, ⟨0, 0, 0⟩, ⟨0, 0, 0⟩, true, 0, .fp8b, .rne, 1⟩] := by decide

theorem test_wf_refuses_mask : refusesAll
    [.mand ⟨9, ⟨2, false⟩, ⟨6, false⟩, 0⟩,
     .mand ⟨3, ⟨5, true⟩, ⟨6, false⟩, 0⟩,
     .mand ⟨3, ⟨2, false⟩, ⟨5, true⟩, 0⟩,
     .mand ⟨3, ⟨2, false⟩, ⟨6, false⟩, 1⟩,
     .mnot ⟨9, ⟨6, false⟩, ⟨0, false⟩, 0⟩,
     .mnot ⟨3, ⟨5, true⟩, ⟨0, false⟩, 0⟩,
     .mnot ⟨3, ⟨6, false⟩, ⟨5, true⟩, 0⟩,
     .mnot ⟨3, ⟨6, false⟩, ⟨0, false⟩, 1⟩,
     .mpopc ⟨9, ⟨5, true⟩, ⟨0, false⟩, 0⟩,
     .mpopc ⟨9, ⟨2, false⟩, ⟨5, true⟩, 0⟩,
     .mpopc ⟨9, ⟨2, false⟩, ⟨0, false⟩, 1⟩,
     .mset ⟨9, ⟨2, false⟩, ⟨0, false⟩, 1⟩,
     .mset ⟨3, ⟨2, false⟩, ⟨5, true⟩, 1⟩,
     .mset ⟨3, ⟨2, false⟩, ⟨0, false⟩, 2⟩] := by decide

theorem test_wf_refuses_brick_integer : refusesAll
    [.vadd ⟨0, ⟨62, false⟩, ⟨20, true⟩, ⟨5, true⟩, ⟨0, 7, 1⟩, ⟨0, 7, 1⟩, true, 5, .i32, .rne, 0⟩,
     .vadd ⟨0, ⟨62, false⟩, ⟨20, true⟩, ⟨0, false⟩, ⟨0, 7, 1⟩, ⟨0, 7, 1⟩, false, 5, .i32, .rne, 0⟩,
     .vadd ⟨0, ⟨62, false⟩, ⟨20, true⟩, ⟨0, false⟩, ⟨0, 7, 1⟩, ⟨0, 7, 1⟩, true, 5, .f32, .rne, 0⟩,
     .vadd ⟨0, ⟨62, false⟩, ⟨20, true⟩, ⟨0, false⟩, ⟨0, 7, 1⟩, ⟨0, 7, 1⟩, true, 5, .i32, .rna, 0⟩,
     .vadd ⟨0, ⟨62, false⟩, ⟨20, true⟩, ⟨0, false⟩, ⟨0, 7, 1⟩, ⟨0, 7, 1⟩, true, 5, .i32, .rne, 1⟩,
     .vabs ⟨60, ⟨0, false⟩, ⟨5, true⟩, ⟨0, false⟩, ⟨0, 7, 1⟩, ⟨0, 0, 0⟩, true, 5, .i8, .rne, 0⟩,
     .vabs ⟨60, ⟨0, false⟩, ⟨0, false⟩, ⟨5, true⟩, ⟨0, 7, 1⟩, ⟨0, 0, 0⟩, true, 5, .i8, .rne, 0⟩,
     .vabs ⟨60, ⟨0, false⟩, ⟨0, false⟩, ⟨0, false⟩, ⟨0, 7, 1⟩, ⟨0, 7, 1⟩, true, 5, .i8, .rne, 0⟩,
     .vabs ⟨60, ⟨0, false⟩, ⟨0, false⟩, ⟨0, false⟩, ⟨0, 7, 1⟩, ⟨0, 0, 0⟩, false, 5, .i8, .rne, 0⟩,
     .vabs ⟨60, ⟨0, false⟩, ⟨0, false⟩, ⟨0, false⟩, ⟨0, 7, 1⟩, ⟨0, 0, 0⟩, true, 5, .f32, .rne, 0⟩,
     .vabs ⟨60, ⟨0, false⟩, ⟨0, false⟩, ⟨0, false⟩, ⟨0, 7, 1⟩, ⟨0, 0, 0⟩, true, 5, .i8, .rna, 0⟩,
     .vabs ⟨60, ⟨0, false⟩, ⟨0, false⟩, ⟨0, false⟩, ⟨0, 7, 1⟩, ⟨0, 0, 0⟩, true, 5, .i8, .rne, 1⟩,
     .vcmp ⟨9, ⟨0, false⟩, ⟨12, false⟩, ⟨0, false⟩, ⟨1, 2, 3⟩, ⟨1, 2, 3⟩, true, 5, .n16, .rne, 0⟩,
     .vcmp ⟨2, ⟨0, false⟩, ⟨12, false⟩, ⟨5, true⟩, ⟨1, 2, 3⟩, ⟨1, 2, 3⟩, true, 5, .n16, .rne, 0⟩,
     .vcmp ⟨2, ⟨0, false⟩, ⟨12, false⟩, ⟨0, false⟩, ⟨1, 2, 3⟩, ⟨1, 2, 3⟩, false, 5, .n16, .rne, 0⟩,
     .vcmp ⟨2, ⟨0, false⟩, ⟨12, false⟩, ⟨0, false⟩, ⟨1, 2, 3⟩, ⟨1, 2, 3⟩, true, 5, .f32, .rne, 0⟩,
     .vcmp ⟨2, ⟨0, false⟩, ⟨12, false⟩, ⟨0, false⟩, ⟨1, 2, 3⟩, ⟨1, 2, 3⟩, true, 5, .n16, .rna, 0⟩,
     .vcmp ⟨2, ⟨0, false⟩, ⟨12, false⟩, ⟨0, false⟩, ⟨1, 2, 3⟩, ⟨1, 2, 3⟩, true, 5, .n16, .rne, 1⟩,
     .vsel ⟨60, ⟨5, true⟩, ⟨6, false⟩, ⟨5, true⟩, ⟨0, 0, 0⟩, ⟨0, 7, 1⟩, true, 0, .fp8a, .rne, 0⟩,
     .vsel ⟨60, ⟨5, true⟩, ⟨6, false⟩, ⟨0, false⟩, ⟨0, 0, 0⟩, ⟨0, 7, 1⟩, false, 0, .fp8a, .rne, 0⟩,
     .vsel ⟨60, ⟨5, true⟩, ⟨6, false⟩, ⟨0, false⟩, ⟨0, 0, 0⟩, ⟨0, 7, 1⟩, true, 0, .fp8a, .rna, 0⟩,
     .vsel ⟨60, ⟨5, true⟩, ⟨6, false⟩, ⟨0, false⟩, ⟨0, 0, 0⟩, ⟨0, 7, 1⟩, true, 0, .fp8a, .rne, 1⟩,
     .vclz ⟨4, ⟨9, false⟩, ⟨5, true⟩, ⟨0, false⟩, ⟨1, 2, 3⟩, ⟨0, 0, 0⟩, true, 5, .i16, .rne, 0⟩,
     .vclz ⟨4, ⟨9, false⟩, ⟨0, false⟩, ⟨5, true⟩, ⟨1, 2, 3⟩, ⟨0, 0, 0⟩, true, 5, .i16, .rne, 0⟩,
     .vclz ⟨4, ⟨9, false⟩, ⟨0, false⟩, ⟨0, false⟩, ⟨1, 2, 3⟩, ⟨0, 7, 1⟩, true, 5, .i16, .rne, 0⟩,
     .vclz ⟨4, ⟨9, false⟩, ⟨0, false⟩, ⟨0, false⟩, ⟨1, 2, 3⟩, ⟨0, 0, 0⟩, false, 5, .i16, .rne, 0⟩,
     .vclz ⟨4, ⟨9, false⟩, ⟨0, false⟩, ⟨0, false⟩, ⟨1, 2, 3⟩, ⟨0, 0, 0⟩, true, 5, .f32, .rne, 0⟩,
     .vclz ⟨4, ⟨9, false⟩, ⟨0, false⟩, ⟨0, false⟩, ⟨1, 2, 3⟩, ⟨0, 0, 0⟩, true, 5, .i16, .rna, 0⟩,
     .vclz ⟨4, ⟨9, false⟩, ⟨0, false⟩, ⟨0, false⟩, ⟨1, 2, 3⟩, ⟨0, 0, 0⟩, true, 5, .i16, .rne, 1⟩] := by decide

theorem test_wf_refuses_brick_float : refusesAll
    [.vfadd ⟨9, ⟨0, false⟩, ⟨20, true⟩, ⟨5, true⟩, ⟨0, 0, 0⟩, ⟨0, 7, 1⟩, true, 5, .f16, .rne, 0⟩,
     .vfadd ⟨9, ⟨0, false⟩, ⟨20, true⟩, ⟨0, false⟩, ⟨0, 0, 0⟩, ⟨0, 7, 1⟩, false, 5, .f16, .rne, 0⟩,
     .vfadd ⟨9, ⟨0, false⟩, ⟨20, true⟩, ⟨0, false⟩, ⟨0, 0, 0⟩, ⟨0, 7, 1⟩, true, 5, .i32, .rne, 0⟩,
     .vfadd ⟨9, ⟨0, false⟩, ⟨20, true⟩, ⟨0, false⟩, ⟨0, 0, 0⟩, ⟨0, 7, 1⟩, true, 5, .f16, .rsr, 0⟩,
     .vfadd ⟨9, ⟨0, false⟩, ⟨20, true⟩, ⟨0, false⟩, ⟨0, 0, 0⟩, ⟨0, 7, 1⟩, true, 5, .f16, .rne, 1⟩,
     .vfsqrt ⟨4, ⟨1, false⟩, ⟨5, true⟩, ⟨0, false⟩, ⟨0, 0, 0⟩, ⟨0, 0, 0⟩, true, 5, .f32, .dyn, 0⟩,
     .vfsqrt ⟨4, ⟨1, false⟩, ⟨0, false⟩, ⟨5, true⟩, ⟨0, 0, 0⟩, ⟨0, 0, 0⟩, true, 5, .f32, .dyn, 0⟩,
     .vfsqrt ⟨4, ⟨1, false⟩, ⟨0, false⟩, ⟨0, false⟩, ⟨0, 0, 0⟩, ⟨0, 7, 1⟩, true, 5, .f32, .dyn, 0⟩,
     .vfsqrt ⟨4, ⟨1, false⟩, ⟨0, false⟩, ⟨0, false⟩, ⟨0, 0, 0⟩, ⟨0, 0, 0⟩, false, 5, .f32, .dyn, 0⟩,
     .vfsqrt ⟨4, ⟨1, false⟩, ⟨0, false⟩, ⟨0, false⟩, ⟨0, 0, 0⟩, ⟨0, 0, 0⟩, true, 5, .i32, .dyn, 0⟩,
     .vfsqrt ⟨4, ⟨1, false⟩, ⟨0, false⟩, ⟨0, false⟩, ⟨0, 0, 0⟩, ⟨0, 0, 0⟩, true, 5, .f32, .rsr, 0⟩,
     .vfsqrt ⟨4, ⟨1, false⟩, ⟨0, false⟩, ⟨0, false⟩, ⟨0, 0, 0⟩, ⟨0, 0, 0⟩, true, 5, .f32, .dyn, 1⟩,
     .vfmin ⟨2, ⟨20, true⟩, ⟨0, false⟩, ⟨5, true⟩, ⟨0, 7, 1⟩, ⟨0, 7, 1⟩, true, 5, .f32, .rne, 0⟩,
     .vfmin ⟨2, ⟨20, true⟩, ⟨0, false⟩, ⟨0, false⟩, ⟨0, 7, 1⟩, ⟨0, 7, 1⟩, false, 5, .f32, .rne, 0⟩,
     .vfmin ⟨2, ⟨20, true⟩, ⟨0, false⟩, ⟨0, false⟩, ⟨0, 7, 1⟩, ⟨0, 7, 1⟩, true, 5, .i32, .rne, 0⟩,
     .vfmin ⟨2, ⟨20, true⟩, ⟨0, false⟩, ⟨0, false⟩, ⟨0, 7, 1⟩, ⟨0, 7, 1⟩, true, 5, .f32, .rna, 0⟩,
     .vfmin ⟨2, ⟨20, true⟩, ⟨0, false⟩, ⟨0, false⟩, ⟨0, 7, 1⟩, ⟨0, 7, 1⟩, true, 5, .f32, .rne, 1⟩,
     .vfabs ⟨62, ⟨9, false⟩, ⟨5, true⟩, ⟨0, false⟩, ⟨1, 2, 3⟩, ⟨0, 0, 0⟩, false, 0, .f32, .rne, 0⟩,
     .vfabs ⟨62, ⟨9, false⟩, ⟨0, false⟩, ⟨5, true⟩, ⟨1, 2, 3⟩, ⟨0, 0, 0⟩, false, 0, .f32, .rne, 0⟩,
     .vfabs ⟨62, ⟨9, false⟩, ⟨0, false⟩, ⟨0, false⟩, ⟨1, 2, 3⟩, ⟨0, 7, 1⟩, false, 0, .f32, .rne, 0⟩,
     .vfabs ⟨62, ⟨9, false⟩, ⟨0, false⟩, ⟨0, false⟩, ⟨1, 2, 3⟩, ⟨0, 0, 0⟩, false, 5, .f32, .rne, 0⟩,
     .vfabs ⟨62, ⟨9, false⟩, ⟨0, false⟩, ⟨0, false⟩, ⟨1, 2, 3⟩, ⟨0, 0, 0⟩, false, 0, .i32, .rne, 0⟩,
     .vfabs ⟨62, ⟨9, false⟩, ⟨0, false⟩, ⟨0, false⟩, ⟨1, 2, 3⟩, ⟨0, 0, 0⟩, false, 0, .f32, .rna, 0⟩,
     .vfabs ⟨62, ⟨9, false⟩, ⟨0, false⟩, ⟨0, false⟩, ⟨1, 2, 3⟩, ⟨0, 0, 0⟩, false, 0, .f32, .rne, 1⟩,
     .vfcmp ⟨9, ⟨20, true⟩, ⟨6, false⟩, ⟨0, false⟩, ⟨0, 0, 0⟩, ⟨0, 7, 1⟩, true, 5, .f16, .rne, 0⟩,
     .vfcmp ⟨0, ⟨20, true⟩, ⟨6, false⟩, ⟨5, true⟩, ⟨0, 0, 0⟩, ⟨0, 7, 1⟩, true, 5, .f16, .rne, 0⟩,
     .vfcmp ⟨0, ⟨20, true⟩, ⟨6, false⟩, ⟨0, false⟩, ⟨0, 0, 0⟩, ⟨0, 7, 1⟩, false, 5, .f16, .rne, 0⟩,
     .vfcmp ⟨0, ⟨20, true⟩, ⟨6, false⟩, ⟨0, false⟩, ⟨0, 0, 0⟩, ⟨0, 7, 1⟩, true, 5, .i32, .rne, 0⟩,
     .vfcmp ⟨0, ⟨20, true⟩, ⟨6, false⟩, ⟨0, false⟩, ⟨0, 0, 0⟩, ⟨0, 7, 1⟩, true, 5, .f16, .rna, 0⟩,
     .vfcmp ⟨0, ⟨20, true⟩, ⟨6, false⟩, ⟨0, false⟩, ⟨0, 0, 0⟩, ⟨0, 7, 1⟩, true, 5, .f16, .rne, 1⟩] := by decide

theorem test_wf_refuses_fused : refusesAll
    [.vfma ⟨9, ⟨5, true⟩, ⟨5, true⟩, ⟨9, false⟩, ⟨0, 0, 0⟩, ⟨1, 2, 3⟩, false, 5, .f32, .rna, 0⟩,
     .vfma ⟨9, ⟨5, true⟩, ⟨5, true⟩, ⟨9, false⟩, ⟨0, 0, 0⟩, ⟨1, 2, 3⟩, true, 5, .i32, .rna, 0⟩,
     .vfma ⟨9, ⟨5, true⟩, ⟨5, true⟩, ⟨9, false⟩, ⟨0, 0, 0⟩, ⟨1, 2, 3⟩, true, 5, .f32, .rsr, 0⟩,
     .vfma ⟨9, ⟨5, true⟩, ⟨5, true⟩, ⟨9, false⟩, ⟨0, 0, 0⟩, ⟨1, 2, 3⟩, true, 5, .f32, .rna, 1⟩] := by decide

theorem test_wf_refuses_convert : refusesAll
    [.vcvtn ⟨62, ⟨2, false⟩, ⟨5, true⟩, ⟨0, false⟩, ⟨1, 2, 3⟩, ⟨0, 0, 0⟩, false, 0, .bf16, .rne, 26⟩,
     .vcvtn ⟨62, ⟨2, false⟩, ⟨0, false⟩, ⟨5, true⟩, ⟨1, 2, 3⟩, ⟨0, 0, 0⟩, false, 0, .bf16, .rne, 26⟩,
     .vcvtn ⟨62, ⟨2, false⟩, ⟨0, false⟩, ⟨0, false⟩, ⟨1, 2, 3⟩, ⟨0, 7, 1⟩, false, 0, .bf16, .rne, 26⟩,
     .vcvtn ⟨62, ⟨2, false⟩, ⟨0, false⟩, ⟨0, false⟩, ⟨1, 2, 3⟩, ⟨0, 0, 0⟩, false, 5, .bf16, .rne, 26⟩,
     .vcvtn ⟨62, ⟨2, false⟩, ⟨0, false⟩, ⟨0, false⟩, ⟨1, 2, 3⟩, ⟨0, 0, 0⟩, false, 0, .i32, .rne, 26⟩,
     .vcvtn ⟨62, ⟨2, false⟩, ⟨0, false⟩, ⟨0, false⟩, ⟨1, 2, 3⟩, ⟨0, 0, 0⟩, false, 0, .bf16, .rne, 0⟩,
     .vcvtw ⟨4, ⟨20, true⟩, ⟨5, true⟩, ⟨0, false⟩, ⟨0, 0, 0⟩, ⟨0, 0, 0⟩, true, 0, .i16, .rne, 0⟩,
     .vcvtw ⟨4, ⟨20, true⟩, ⟨0, false⟩, ⟨5, true⟩, ⟨0, 0, 0⟩, ⟨0, 0, 0⟩, true, 0, .i16, .rne, 0⟩,
     .vcvtw ⟨4, ⟨20, true⟩, ⟨0, false⟩, ⟨0, false⟩, ⟨0, 0, 0⟩, ⟨0, 7, 1⟩, true, 0, .i16, .rne, 0⟩,
     .vcvtw ⟨4, ⟨20, true⟩, ⟨0, false⟩, ⟨0, false⟩, ⟨0, 0, 0⟩, ⟨0, 0, 0⟩, true, 0, .i32, .rne, 0⟩,
     .vcvtw ⟨4, ⟨20, true⟩, ⟨0, false⟩, ⟨0, false⟩, ⟨0, 0, 0⟩, ⟨0, 0, 0⟩, true, 0, .i16, .rna, 0⟩,
     .vcvtw ⟨4, ⟨20, true⟩, ⟨0, false⟩, ⟨0, false⟩, ⟨0, 0, 0⟩, ⟨0, 0, 0⟩, true, 0, .i16, .rne, 1⟩,
     .vcvti ⟨0, ⟨6, false⟩, ⟨5, true⟩, ⟨0, false⟩, ⟨0, 0, 0⟩, ⟨0, 0, 0⟩, false, 0, .i64, .rup, 16⟩,
     .vcvti ⟨0, ⟨6, false⟩, ⟨0, false⟩, ⟨5, true⟩, ⟨0, 0, 0⟩, ⟨0, 0, 0⟩, false, 0, .i64, .rup, 16⟩,
     .vcvti ⟨0, ⟨6, false⟩, ⟨0, false⟩, ⟨0, false⟩, ⟨0, 0, 0⟩, ⟨0, 7, 1⟩, false, 0, .i64, .rup, 16⟩,
     .vcvti ⟨0, ⟨6, false⟩, ⟨0, false⟩, ⟨0, false⟩, ⟨0, 0, 0⟩, ⟨0, 0, 0⟩, false, 5, .i64, .rup, 16⟩,
     .vcvti ⟨0, ⟨6, false⟩, ⟨0, false⟩, ⟨0, false⟩, ⟨0, 0, 0⟩, ⟨0, 0, 0⟩, false, 0, .i32, .rup, 16⟩,
     .vcvti ⟨0, ⟨6, false⟩, ⟨0, false⟩, ⟨0, false⟩, ⟨0, 0, 0⟩, ⟨0, 0, 0⟩, false, 0, .i64, .rsr, 16⟩,
     .vcvti ⟨0, ⟨6, false⟩, ⟨0, false⟩, ⟨0, false⟩, ⟨0, 0, 0⟩, ⟨0, 0, 0⟩, false, 0, .i64, .rup, 0⟩,
     .vq4 ⟨9, ⟨9, false⟩, ⟨0, false⟩, ⟨0, false⟩, ⟨0, 0, 0⟩, ⟨0, 0, 0⟩, false, 0, .f32, .rna, 2⟩,
     .vq4 ⟨3, ⟨9, false⟩, ⟨5, true⟩, ⟨0, false⟩, ⟨0, 0, 0⟩, ⟨0, 0, 0⟩, false, 0, .f32, .rna, 2⟩,
     .vq4 ⟨3, ⟨9, false⟩, ⟨0, false⟩, ⟨5, true⟩, ⟨0, 0, 0⟩, ⟨0, 0, 0⟩, false, 0, .f32, .rna, 2⟩,
     .vq4 ⟨3, ⟨9, false⟩, ⟨0, false⟩, ⟨0, false⟩, ⟨0, 7, 1⟩, ⟨0, 0, 0⟩, false, 0, .f32, .rna, 2⟩,
     .vq4 ⟨3, ⟨9, false⟩, ⟨0, false⟩, ⟨0, false⟩, ⟨0, 0, 0⟩, ⟨0, 7, 1⟩, false, 0, .f32, .rna, 2⟩,
     .vq4 ⟨3, ⟨9, false⟩, ⟨0, false⟩, ⟨0, false⟩, ⟨0, 0, 0⟩, ⟨0, 0, 0⟩, true, 0, .f32, .rna, 2⟩,
     .vq4 ⟨3, ⟨9, false⟩, ⟨0, false⟩, ⟨0, false⟩, ⟨0, 0, 0⟩, ⟨0, 0, 0⟩, false, 5, .f32, .rna, 2⟩,
     .vq4 ⟨3, ⟨9, false⟩, ⟨0, false⟩, ⟨0, false⟩, ⟨0, 0, 0⟩, ⟨0, 0, 0⟩, false, 0, .i32, .rna, 2⟩,
     .vq4 ⟨3, ⟨9, false⟩, ⟨0, false⟩, ⟨0, false⟩, ⟨0, 0, 0⟩, ⟨0, 0, 0⟩, false, 0, .f32, .rna, 0⟩] := by decide

theorem test_wf_refuses_reduce : refusesAll
    [.vredo ⟨0, ⟨0, true⟩, ⟨5, true⟩, ⟨5, true⟩, ⟨1, 2, 3⟩, ⟨0, 0, 0⟩, true, 0, .f64, .rup, 0⟩,
     .vredo ⟨0, ⟨0, true⟩, ⟨5, true⟩, ⟨0, false⟩, ⟨1, 2, 3⟩, ⟨0, 7, 1⟩, true, 0, .f64, .rup, 0⟩,
     .vredo ⟨0, ⟨0, true⟩, ⟨5, true⟩, ⟨0, false⟩, ⟨1, 2, 3⟩, ⟨0, 0, 0⟩, true, 0, .i32, .rup, 0⟩,
     .vredo ⟨0, ⟨0, true⟩, ⟨5, true⟩, ⟨0, false⟩, ⟨1, 2, 3⟩, ⟨0, 0, 0⟩, true, 0, .f64, .rsr, 0⟩,
     .vredo ⟨0, ⟨0, true⟩, ⟨5, true⟩, ⟨0, false⟩, ⟨1, 2, 3⟩, ⟨0, 0, 0⟩, true, 0, .f64, .rup, 1⟩,
     .vredt ⟨3, ⟨0, false⟩, ⟨5, true⟩, ⟨0, false⟩, ⟨0, 7, 1⟩, ⟨0, 0, 0⟩, true, 5, .bf16, .rup, 0⟩,
     .vredt ⟨3, ⟨0, false⟩, ⟨0, false⟩, ⟨5, true⟩, ⟨0, 7, 1⟩, ⟨0, 0, 0⟩, true, 5, .bf16, .rup, 0⟩,
     .vredt ⟨3, ⟨0, false⟩, ⟨0, false⟩, ⟨0, false⟩, ⟨0, 7, 1⟩, ⟨0, 7, 1⟩, true, 5, .bf16, .rup, 0⟩,
     .vredt ⟨3, ⟨0, false⟩, ⟨0, false⟩, ⟨0, false⟩, ⟨0, 7, 1⟩, ⟨0, 0, 0⟩, false, 5, .bf16, .rup, 0⟩,
     .vredt ⟨3, ⟨0, false⟩, ⟨0, false⟩, ⟨0, false⟩, ⟨0, 7, 1⟩, ⟨0, 0, 0⟩, true, 5, .i32, .rup, 0⟩,
     .vredt ⟨3, ⟨0, false⟩, ⟨0, false⟩, ⟨0, false⟩, ⟨0, 7, 1⟩, ⟨0, 0, 0⟩, true, 5, .bf16, .rsr, 0⟩,
     .vredt ⟨3, ⟨0, false⟩, ⟨0, false⟩, ⟨0, false⟩, ⟨0, 7, 1⟩, ⟨0, 0, 0⟩, true, 5, .bf16, .rup, 1⟩,
     .vredm ⟨4, ⟨61, false⟩, ⟨20, true⟩, ⟨5, true⟩, ⟨1, 2, 3⟩, ⟨0, 0, 0⟩, false, 0, .n16, .rne, 2⟩,
     .vredm ⟨4, ⟨61, false⟩, ⟨20, true⟩, ⟨0, false⟩, ⟨1, 2, 3⟩, ⟨0, 7, 1⟩, false, 0, .n16, .rne, 2⟩,
     .vredm ⟨4, ⟨61, false⟩, ⟨20, true⟩, ⟨0, false⟩, ⟨1, 2, 3⟩, ⟨0, 0, 0⟩, false, 5, .n16, .rne, 2⟩,
     .vredm ⟨4, ⟨61, false⟩, ⟨20, true⟩, ⟨0, false⟩, ⟨1, 2, 3⟩, ⟨0, 0, 0⟩, false, 0, .fp8a, .rne, 2⟩,
     .vredm ⟨4, ⟨61, false⟩, ⟨20, true⟩, ⟨0, false⟩, ⟨1, 2, 3⟩, ⟨0, 0, 0⟩, false, 0, .n16, .rna, 2⟩,
     .vredm ⟨4, ⟨61, false⟩, ⟨20, true⟩, ⟨0, false⟩, ⟨1, 2, 3⟩, ⟨0, 0, 0⟩, false, 0, .n16, .rne, 1⟩,
     .vredb ⟨20, ⟨9, false⟩, ⟨1, false⟩, ⟨5, true⟩, ⟨0, 7, 1⟩, ⟨0, 0, 0⟩, true, 0, .n32, .rne, 0⟩,
     .vredb ⟨20, ⟨9, false⟩, ⟨1, false⟩, ⟨0, false⟩, ⟨0, 7, 1⟩, ⟨0, 7, 1⟩, true, 0, .n32, .rne, 0⟩,
     .vredb ⟨20, ⟨9, false⟩, ⟨1, false⟩, ⟨0, false⟩, ⟨0, 7, 1⟩, ⟨0, 0, 0⟩, true, 0, .f32, .rne, 0⟩,
     .vredb ⟨20, ⟨9, false⟩, ⟨1, false⟩, ⟨0, false⟩, ⟨0, 7, 1⟩, ⟨0, 0, 0⟩, true, 0, .n32, .rna, 0⟩,
     .vredb ⟨20, ⟨9, false⟩, ⟨1, false⟩, ⟨0, false⟩, ⟨0, 7, 1⟩, ⟨0, 0, 0⟩, true, 0, .n32, .rne, 1⟩] := by decide

theorem test_wf_refuses_approx : refusesAll
    [.vrcp ⟨0, ⟨62, false⟩, ⟨5, true⟩, ⟨0, false⟩, ⟨0, 0, 0⟩, ⟨0, 0, 0⟩, true, 5, .f32, .rne, 0⟩,
     .vrcp ⟨0, ⟨62, false⟩, ⟨0, false⟩, ⟨5, true⟩, ⟨0, 0, 0⟩, ⟨0, 0, 0⟩, true, 5, .f32, .rne, 0⟩,
     .vrcp ⟨0, ⟨62, false⟩, ⟨0, false⟩, ⟨0, false⟩, ⟨0, 0, 0⟩, ⟨0, 7, 1⟩, true, 5, .f32, .rne, 0⟩,
     .vrcp ⟨0, ⟨62, false⟩, ⟨0, false⟩, ⟨0, false⟩, ⟨0, 0, 0⟩, ⟨0, 0, 0⟩, false, 5, .f32, .rne, 0⟩,
     .vrcp ⟨0, ⟨62, false⟩, ⟨0, false⟩, ⟨0, false⟩, ⟨0, 0, 0⟩, ⟨0, 0, 0⟩, true, 5, .i32, .rne, 0⟩,
     .vrcp ⟨0, ⟨62, false⟩, ⟨0, false⟩, ⟨0, false⟩, ⟨0, 0, 0⟩, ⟨0, 0, 0⟩, true, 5, .f32, .rna, 0⟩,
     .vrcp ⟨0, ⟨62, false⟩, ⟨0, false⟩, ⟨0, false⟩, ⟨0, 0, 0⟩, ⟨0, 0, 0⟩, true, 5, .f32, .rne, 1⟩] := by decide

theorem test_wf_refuses_matrix : refusesAll
    [.mstep ⟨3, ⟨6, false⟩, ⟨2, false⟩, ⟨1, false⟩, .seq, .rlx, 0, 0⟩,
     .mstep ⟨1, ⟨6, false⟩, ⟨2, false⟩, ⟨1, false⟩, .die, .rlx, 0, 0⟩,
     .mstep ⟨1, ⟨6, false⟩, ⟨2, false⟩, ⟨1, false⟩, .seq, .rel, 0, 0⟩,
     .mstep ⟨1, ⟨6, false⟩, ⟨2, false⟩, ⟨1, false⟩, .seq, .rlx, 1, 0⟩,
     .mstep ⟨1, ⟨6, false⟩, ⟨2, false⟩, ⟨1, false⟩, .seq, .rlx, 0, 41⟩,
     .mzero ⟨3, ⟨0, false⟩, ⟨0, false⟩, ⟨0, false⟩, .seq, .rlx, 0, 0⟩,
     .mzero ⟨1, ⟨5, true⟩, ⟨0, false⟩, ⟨0, false⟩, .seq, .rlx, 0, 0⟩,
     .mzero ⟨1, ⟨0, false⟩, ⟨5, true⟩, ⟨0, false⟩, .seq, .rlx, 0, 0⟩,
     .mzero ⟨1, ⟨0, false⟩, ⟨0, false⟩, ⟨5, true⟩, .seq, .rlx, 0, 0⟩,
     .mzero ⟨1, ⟨0, false⟩, ⟨0, false⟩, ⟨0, false⟩, .die, .rlx, 0, 0⟩,
     .mzero ⟨1, ⟨0, false⟩, ⟨0, false⟩, ⟨0, false⟩, .seq, .rel, 0, 0⟩,
     .mzero ⟨1, ⟨0, false⟩, ⟨0, false⟩, ⟨0, false⟩, .seq, .rlx, 1, 0⟩,
     .mzero ⟨1, ⟨0, false⟩, ⟨0, false⟩, ⟨0, false⟩, .seq, .rlx, 0, 41⟩,
     .mrda ⟨3, ⟨5, true⟩, ⟨5, true⟩, ⟨0, false⟩, .seq, .rlx, 0, 0⟩,
     .mrda ⟨3, ⟨1, false⟩, ⟨5, true⟩, ⟨5, true⟩, .seq, .rlx, 0, 0⟩,
     .mrda ⟨3, ⟨1, false⟩, ⟨5, true⟩, ⟨0, false⟩, .die, .rlx, 0, 0⟩,
     .mrda ⟨3, ⟨1, false⟩, ⟨5, true⟩, ⟨0, false⟩, .seq, .rel, 0, 0⟩,
     .mrda ⟨3, ⟨1, false⟩, ⟨5, true⟩, ⟨0, false⟩, .seq, .rlx, 1, 0⟩,
     .mrda ⟨3, ⟨1, false⟩, ⟨5, true⟩, ⟨0, false⟩, .seq, .rlx, 0, 41⟩,
     .mwra ⟨3, ⟨6, false⟩, ⟨20, true⟩, ⟨0, false⟩, .seq, .rlx, 0, 0⟩,
     .mwra ⟨1, ⟨6, false⟩, ⟨20, true⟩, ⟨5, true⟩, .seq, .rlx, 0, 0⟩,
     .mwra ⟨1, ⟨6, false⟩, ⟨20, true⟩, ⟨0, false⟩, .die, .rlx, 0, 0⟩,
     .mwra ⟨1, ⟨6, false⟩, ⟨20, true⟩, ⟨0, false⟩, .seq, .rel, 0, 0⟩,
     .mwra ⟨1, ⟨6, false⟩, ⟨20, true⟩, ⟨0, false⟩, .seq, .rlx, 1, 0⟩,
     .mwra ⟨1, ⟨6, false⟩, ⟨20, true⟩, ⟨0, false⟩, .seq, .rlx, 0, 41⟩,
     .mdrainBrk ⟨3, ⟨5, true⟩, ⟨5, true⟩, ⟨0, false⟩, .seq, .rlx, 0, 0⟩,
     .mdrainBrk ⟨3, ⟨1, false⟩, ⟨5, true⟩, ⟨5, true⟩, .seq, .rlx, 0, 0⟩,
     .mdrainBrk ⟨3, ⟨1, false⟩, ⟨5, true⟩, ⟨0, false⟩, .die, .rlx, 0, 0⟩,
     .mdrainBrk ⟨3, ⟨1, false⟩, ⟨5, true⟩, ⟨0, false⟩, .seq, .rel, 0, 0⟩,
     .mdrainBrk ⟨3, ⟨1, false⟩, ⟨5, true⟩, ⟨0, false⟩, .seq, .rlx, 1, 0⟩,
     .mdrainBrk ⟨3, ⟨1, false⟩, ⟨5, true⟩, ⟨0, false⟩, .seq, .rlx, 0, 41⟩,
     .mdrainMem ⟨3, ⟨5, true⟩, ⟨5, true⟩, ⟨5, true⟩, .seq, .rlx, 1, 41⟩,
     .mdrainMem ⟨3, ⟨1, false⟩, ⟨5, true⟩, ⟨5, true⟩, .die, .rlx, 1, 41⟩,
     .mdrainMem ⟨3, ⟨1, false⟩, ⟨5, true⟩, ⟨5, true⟩, .seq, .rel, 1, 41⟩,
     .mdrainMem ⟨3, ⟨1, false⟩, ⟨5, true⟩, ⟨5, true⟩, .seq, .rlx, 0, 41⟩,
     .mdrainMem ⟨3, ⟨1, false⟩, ⟨5, true⟩, ⟨5, true⟩, .seq, .rlx, 1, 0⟩] := by decide


/-- The line worked by hand under R17. -/
def workedLine : CodeLine :=
  (0x0000000C : BitVec 32) ++ (0x001838001C013200 : BitVec 64) ++ (0xFFC1 : BitVec 16) ++ (0 : BitVec 320) ++ (0x3001 : BitVec 16) ++
    (0x1508 : BitVec 16) ++ (0x930C : BitVec 16) ++ (0x0A14 : BitVec 16) ++ (0x0004 : BitVec 16)

theorem test_worked_line : workedLine.wellFormed = true ∧ workedLine.heads = 4 ∧
    (List.range 4).map (fun i => (decodeAt workedLine i).toOption) =
      [some (.addi ⟨5, ⟨0, false⟩, 12⟩),
       some (.vfadd ⟨3, ⟨6, false⟩, ⟨7, false⟩, ⟨0, false⟩, ⟨0, 0, 7⟩, ⟨0, 0, 0⟩, true, 1, .f32, .rne, 0⟩),
       some (.br ⟨2, 0x7FE, 1⟩), some .nop] := by decide +kernel
/-- R15: no head, a reserved header bit, 31 heads with a tail. -/
theorem test_ill_formed_lines : CodeLine.wellFormed 0 = false ∧ CodeLine.wellFormed 0x30010021 = false ∧
    CodeLine.wellFormed 0x0600001F = false := by decide +kernel
/-- R43: majors that no table names, a class of tail that the major does not take, an X that it does not have, a minor that its
table does not list, and a reserved code in a field. -/
theorem test_reserved_words_are_refused : [
    decode 0x0000 0, decode 0x1C00 0, decode 0xFC00 0, decode 0x0500 0, decode 0x0601 0, decode 0x0600 0xFF000000,
    decode 0x5200 0x30000018, decode 0x4200 0x07000000, decode 0x3002 0].all (fun r => r.toOption.isNone) = true := by decide +kernel

/-- A running sequencer 0 in a line at hand, with these scalars. -/
def running (l : NMap DWord) : Seq := { phase := .running, pc := 0x43, s := l }

/-- The machine with this sequencer as number 0, whose turn it is. -/
def st (q : Seq) : State := { seqs := [(0, q)] }

/-- The state after an instruction. -/
def after (i : Instr) (s : State) : State := match exec i s with | .next t => t | _ => s

/-- Elements of one brick from element 0 on. -/
def elems (b : Nat) (l : List DWord) : NMap DWord := l.zipIdx.map fun x => (8192 * b + x.2, x.1)

/-- A brick of any sequencer, as a list of its first n elements. -/
def brick (s : State) (b n : Nat) : List DWord := (List.range n).map (s.self.elem b)

/-- A running sequencer whose elements have 32 bits, with VL elements in a shape of 8 by 1 by 1. -/
def typed32 (vl : Nat) (l : NMap DWord) (b : NMap DWord) : Seq :=
  { running l with vtype := 0x1001A, vl := vl, mvl := 128, bricks := b }

/-- The base of the own scratchpad's window (R221). -/
def window : DWord := 0x00FE000000000000

/-- n bytes of the scratchpad of core 0. -/
def scratch (s : State) (o n : Nat) : Nat := s.mem.readLe (scratchLoc 0 o) n

/-- A state with n bytes of that scratchpad written. -/
def withScratch (s : State) (o n v : Nat) : State := { s with mem := s.mem.writeLe (scratchLoc 0 o) n v }

def r (n : Reg) : Src := ⟨n, false⟩
def no : Off := ⟨0, 0, 0⟩


theorem test_add_wraps : (after (.add ⟨3, r 1, r 2, 0⟩) (st (running [(1, 5), (2, -6)]))).self.scalar 3 = -1 := by decide +kernel
theorem test_add_falls_through : (after (.add ⟨3, r 1, r 2, 0⟩) (st (running []))).self.pc = 0x44 := by decide +kernel
theorem test_s0_takes_nothing : (after (.movi 0 7) (st (running []))).self.scalar 0 = 0 := by decide +kernel
theorem test_andn : (after (.andn ⟨3, r 1, r 2, 0⟩) (st (running [(1, 0xF0), (2, 0x3C)]))).self.scalar 3 = 0xC0 := by decide +kernel
theorem test_sra_takes_six_bits : (after (.sra ⟨3, r 1, r 2, 0⟩) (st (running [(1, -8), (2, 0x42)]))).self.scalar 3 = -2 := by decide +kernel
theorem test_mulh_signed : (after (.mulh ⟨3, r 1, r 1, 0⟩) (st (running [(1, -1)]))).self.scalar 3 = 0 := by decide +kernel
theorem test_mulhn_unsigned : (after (.mulhn ⟨3, r 1, r 1, 0⟩) (st (running [(1, -1)]))).self.scalar 3 = -2 := by decide +kernel
theorem test_div_truncates : (after (.div ⟨3, r 1, r 2, 0⟩) (st (running [(1, -7), (2, 2)]))).self.scalar 3 = -3 := by decide +kernel
theorem test_div_overflow : (after (.div ⟨3, r 1, r 2, 0⟩) (st (running [(1, 0x8000000000000000), (2, -1)]))).self.scalar 3 =
    0x8000000000000000 := by decide +kernel
theorem test_rem_sign : (after (.rem ⟨3, r 1, r 2, 0⟩) (st (running [(1, -7), (2, 2)]))).self.scalar 3 = -1 := by decide +kernel
theorem test_div_by_zero_traps : (after (.divn ⟨3, r 1, r 2, 0⟩) (st { running [(1, 1)] with tvec := 0x80 })).self.tcause = 0x19 := by decide +kernel
theorem test_sltni_extends : (after (.sltni ⟨3, r 1, 0x1FFFF⟩) (st (running [(1, 9)]))).self.scalar 3 = 1 := by decide +kernel
theorem test_clz_of_zero : (after (.clz ⟨3, r 1, r 0, 0⟩) (st (running []))).self.scalar 3 = 64 := by decide +kernel
theorem test_ctz : (after (.ctz ⟨3, r 1, r 0, 0⟩) (st (running [(1, 0x50)]))).self.scalar 3 = 4 := by decide +kernel
theorem test_popc : (after (.popc ⟨3, r 1, r 0, 0⟩) (st (running [(1, -1)]))).self.scalar 3 = 64 := by decide +kernel
theorem test_movi_extends : (after (.movi 3 0x80000000) (st (running []))).self.scalar 3 = 0xFFFFFFFF80000000 := by decide +kernel
theorem test_lea : (after (.lea 3 0x7FFFFFF 5) (st (running []))).self.scalar 3 = 0x5 := by decide +kernel
theorem test_fdiv_by_zero : (after (.fdiv ⟨3, r 1, r 2, 0, .rne, .f32⟩) (st (running [(1, 0x3F800000), (2, 0x80000000)]))).self.scalar 3 =
    0xFF800000 := by decide +kernel
theorem test_fadd_inexact_flag : (after (.fadd ⟨3, r 1, r 2, 0, .rne, .f32⟩) (st (running [(1, 0x3F800000), (2, 0x30000000)]))).self.fsr = 1 := by
  decide +kernel
theorem test_ffma_single_rounding : (after (.ffma ⟨3, r 1, r 2, 0, .rne, .f32⟩)
    (st (running [(1, 0x40400000), (2, 0x40000000), (3, 0xBF800000)]))).self.scalar 3 = 0x40A00000 := by decide +kernel
theorem test_fsqrt : (after (.fsqrt ⟨3, r 1, r 0, 0, .rne, .f64⟩) (st (running [(1, 0x4010000000000000)]))).self.scalar 3 =
    0x4000000000000000 := by decide +kernel
theorem test_fcmp_unordered : (after (.fcmp ⟨1, r 1, r 2, 2, .rne, .f32⟩) (st (running [(1, 0x7FC00000)]))).self.pred 1 = false := by decide +kernel
theorem test_pset_unsigned : (after (.pset ⟨1, r 1, r 2, 4⟩) (st (running [(1, 1), (2, -1)]))).self.pred 1 = true := by decide +kernel
theorem test_p0_stays_true : (after (.pset ⟨0, r 1, r 2, 7⟩) (st (running []))).self.pred 0 = true := by decide +kernel
theorem test_csel : (after (.csel ⟨3, r 1, r 2, 5⟩) (st (running [(1, 4), (2, 6)]))).self.scalar 3 = 6 := by decide +kernel
theorem test_br_inverted : (after (.br ⟨0x21, 1, 3⟩) (st (running []))).self.pc = 0x83 := by decide +kernel
theorem test_br_not_taken : (after (.br ⟨0x20, 1, 3⟩) (st (running []))).self.pc = 0x44 := by decide +kernel
theorem test_jl_links : (after (.jl ⟨1, 0x7FF, 3⟩) (st (running []))).self.scalar 1 = 0x44 := by decide +kernel
theorem test_jlr_reads_first : (after (.jlr ⟨1, r 1, r 0, 0⟩) (st (running [(1, 0x1234)]))).self.pc = 0x1234 := by decide +kernel
theorem test_loop_of_zero_exits : (after (.loop ⟨1, 1, 3⟩) (st (running []))).self.pc = 0x83 := by decide +kernel
theorem test_loop_pushes : (after (.loop ⟨1, 1, 3⟩) (st (running [(1, 9)]))).self.loops = [⟨0x44, 0x83, 9⟩] := by decide +kernel
theorem test_endl_counts : (after .endl (st { running [] with loops := [⟨0x100, 0x200, 2⟩] })).self.loops = [⟨0x100, 0x200, 1⟩] := by decide +kernel
theorem test_endl_pops : (after .endl (st { running [] with loops := [⟨0x100, 0x200, 1⟩] })).self.pc = 0x200 := by decide +kernel
theorem test_brkl : (after .brkl (st { running [] with loops := [⟨0x100, 0x200, 7⟩] })).self.loops = [] := by decide +kernel
theorem test_strip_advances : (after (.strip ⟨5, 1, 0, 1, 0, 2⟩)
    (st { typed32 8 [(1, 0x1000), (5, 20)] [] with slen := 8 })).self.scalar 1 = 0x1020 := by decide +kernel
theorem test_strip_counts : (after (.strip ⟨5, 1, 0, 1, 0, 2⟩)
    (st { typed32 8 [(1, 0x1000), (5, 20)] [] with slen := 8 })).self.scalar 5 = 12 := by decide +kernel
/-- R406 and the example of R410. -/
theorem test_trap_17 : (after (.trap ⟨0, r 5, r 0, 17⟩) (st { running [(5, 77)] with tvec := 0x80 })).self.tcause = 0x1120 := by decide +kernel
theorem test_trap_goes_on_after : (after (.trap ⟨0, r 5, r 0, 17⟩) (st { running [] with tvec := 0x80 })).self.tpc = 0x44 := by decide +kernel
theorem test_sret : (after .sret (st { running [] with tstat := 0x005, tpc := 0x99 })).self.pc = 0x99 := by decide +kernel
theorem test_sret_privilege : (after .sret (st { running [] with tstat := 0x005, tpc := 0x99 })).self.priv = false := by decide +kernel
theorem test_crd_lanes : (after (.crd ⟨3, r 0, r 0, 4⟩) (st (running []))).self.scalar 3 = 0x300000001 := by decide +kernel
theorem test_cwr_estart : (after (.estartWrite ⟨0, r 1, r 0, 0⟩) (st (running [(1, -1)]))).self.estart = 0xFFFFFFFFFF := by decide +kernel
theorem test_fsr_rm_6_reads_0 : (after (.fsrWrite ⟨0, r 1, r 0, 5⟩) (st (running [(1, 0x1803)]))).self.fsr = 3 := by decide +kernel
theorem test_user_writes_no_asid : (after (.asidWrite ⟨0, r 1, r 0, 0x21⟩) (st { running [(1, 9)] with tvec := 0x80 })).self.tcause = 0 := by decide +kernel
theorem test_empty_source_waits : (after (.add ⟨3, r 1, r 2, 0⟩)
    (st { running [] with sEmpty := 2 })).self.wait = some (.reg .scalar 1) := by decide +kernel
theorem test_empty_source_traps : (after (.add ⟨3, ⟨1, true⟩, r 2, 0⟩)
    (st { running [] with sEmpty := 2, tvec := 0x80 })).self.tcause = 6 := by decide +kernel

theorem test_st_bytes : scratch (after (.st ⟨1, .rlx, .seq, 1, r 2, 0x1FFFE⟩)
    (withScratch (st (running [(1, 0x1234567), (2, window + 10)])) 8 4 0xAABBCCDD)) 8 4 = 0xAABB4567 := by decide +kernel
theorem test_ld_sign : (after (.ld ⟨1, .rlx, .seq, 1, r 2, 2⟩)
    (withScratch (st (running [(2, window)])) 0 4 0x80011234)).self.scalar 1 = 0xFFFFFFFFFFFF8001 := by decide +kernel
theorem test_ld_misaligned : (after (.ld ⟨1, .rlx, .seq, 3, r 2, 4⟩)
    (st { running [(2, window)] with tvec := 0x80 })).self.tval = 0xFE000000000004 := by decide +kernel
theorem test_amo_add_old : (after (.amoAdd ⟨1, r 2, r 3, .rlx, .seq, 2⟩)
    (withScratch (st (running [(2, window), (3, 5)])) 0 8 (2 ^ 64 - 2))).self.scalar 1 = -2 := by decide +kernel
theorem test_amo_add_new : scratch (after (.amoAdd ⟨1, r 2, r 3, .rlx, .seq, 2⟩)
    (withScratch (st (running [(2, window), (3, 5)])) 0 8 (2 ^ 64 - 2))) 0 8 = 3 := by decide +kernel
theorem test_amo_min_signed : scratch (after (.amoMin ⟨1, r 2, r 3, .rlx, .seq, 1⟩)
    (withScratch (st (running [(2, window), (3, 5)])) 0 4 0x80000000)) 0 4 = 0x80000000 := by decide +kernel
theorem test_cas_refuses : scratch (after (.cas ⟨1, r 2, r 3, .rlx, .seq, 2⟩)
    (withScratch (st (running [(1, 8), (2, window), (3, 5)])) 0 8 7)) 0 8 = 7 := by decide +kernel
/-- R199: no 128-bit atomic in a scratchpad. -/
theorem test_cas2_not_in_scratchpad : (after (.cas2 ⟨4, r 2, r 6, .rlx, .seq, 0⟩)
    (st { running [(2, window)] with tvec := 0x80 })).self.tcause = 0x15 := by decide +kernel

/-- The walk worked under R95: the three tables, with a leaf, and supervisor code. -/
def mappedBy (leaf : Nat) (q : Seq) : State :=
  let put (m : Memory) (pa v : Nat) : Memory := m.writeLe (storeLoc pa) 16 v
  { seqs := [(0, { q with xlroot := 0x100 <<< 14, tstat := 1 })]
    windows := State.reset.windows
    keys := [(0, { mat := .generated 0 }), (5, { mat := .loaded 5 })]
    mem := put (put (put [] 0x400480 0x0000101000000001) 0x407450 0x0000102000000001) 0x4099E0 leaf }

/-- Its leaf, with KEY 5. -/
def mapped : Seq → State := mappedBy 0x080000000A0240B3


theorem test_walk : (after (.tlbprobe ⟨3, r 1, r 0, 0x080⟩) (mapped (running [(1, 0x00123456789ABCDE)]))).self.scalar 3 =
    (2 <<< 55) + (1 <<< 52) + 0x20009ABCDE := by decide +kernel
theorem test_home_slice : homeSlice (fun _ => 0) 0x20009ABCDE = 49 := by decide +kernel

/-- The state after a step of the agent whose inputs these are. -/
def moved (i : Input) (s : State) : State := match step { s with turns := [.agent i] } with | .next t => t | _ => s

/-! Bricks. The values of the worked examples are those that chapters 11, 16 and 18 print. -/

/-- R251 and the run table of the brick-trap program: 8 elements of 32 bits, VTYPE with 64 lanes. -/
theorem test_vset : (after (.vset ⟨5, r 9, r 0, r 0, .seq, .rlx, 0, 0x1A⟩)
    { st { phase := .running, pc := 0x43, s := [(9, 8)] } with dies := [(0, { ln := 0, gen := 1 })] }).self.vtype = 0x1001A := by decide +kernel
theorem test_vset_mvl : (after (.vset ⟨5, r 9, r 0, r 0, .seq, .rlx, 0, 0x1A⟩) (st (running [(9, 8)]))).self.mvl = 128 := by decide +kernel
theorem test_vset_free : (after (.vsetFree ⟨5, r 0, r 0, r 0, .seq, .rlx, 0, 0⟩) (st (typed32 8 [] (elems 3 [1])))).self.ill = true := by
  decide +kernel
theorem test_bfield : (after (.bfield ⟨8, r 0, r 0, r 0, .seq, .rlx, 0, 1⟩) (st (running []))).self.bfd = [(0, 0x8800000000000004)] := by decide +kernel
/-- The subtraction of the brick-trap program: the left neighbour of element 0 is the last element of the field's other brick. -/
theorem test_vfsub_neighbour : brick (after (.vfsub ⟨3, r 9, r 9, r 0, no, ⟨0, 0, 7⟩, false, 0, .f32, .rne, 0⟩)
    (st { typed32 8 [] (elems 8 [0, 0, 0, 0, 0, 0, 0, 0x42D80000] ++
        elems 9 [0x41300000, 0x41400000, 0x41500000, 0x41600000, 0x41700000, 0x41800000, 0x41880000, 0x41900000]) with
      bfd := [(0, 0x8800000000000004)] })) 3 8 =
    [0xC2C20000, 0x3F800000, 0x3F800000, 0x3F800000, 0x3F800000, 0x3F800000, 0x3F800000, 0x3F800000] := by decide +kernel
/-- The block worked under R76 and R295: 5, -2.5, 1 and thirteen zeros. -/
theorem test_vq4_codes : brick (after (.vq4 ⟨10, r 3, r 0, r 0, no, no, false, 0, .f32, .rne, 4⟩)
    (st { typed32 16 [] (elems 3 [0x40A00000, 0xC0200000, 0x3F800000]) with vtype := 0x10022 })) 10 2 = [0x2D7, 0] := by decide +kernel
theorem test_vq4_scale : (after (.vq4 ⟨10, r 3, r 0, r 0, no, no, false, 0, .f32, .rne, 4⟩)
    (st { typed32 16 [] (elems 3 [0x40A00000, 0xC0200000, 0x3F800000]) with vtype := 0x10022 })).self.elem 11 0 = 0x7B := by decide +kernel
theorem test_vrsq_exact : brick (after (.vrsq ⟨6, r 5, r 0, r 0, no, no, false, 0, .f32, .rne, 0⟩)
    (st (typed32 1 [] (elems 5 [0x41800000])))) 6 1 = [0x3E800000] := by decide +kernel
theorem test_vsadd_saturates : brick (after (.vsadd ⟨6, r 5, r 4, r 0, no, no, false, 0, .i32, .rne, 0⟩)
    (st (typed32 2 [] (elems 4 [1, -1] ++ elems 5 [0x7FFFFFFF, 0x80000000])))) 6 2 = [0x7FFFFFFF, 0x80000000] := by decide +kernel
theorem test_vmulh_unsigned : brick (after (.vmulh ⟨6, r 5, r 5, r 0, no, no, false, 0, .n32, .rne, 0⟩)
    (st (typed32 1 [] (elems 5 [0xFFFFFFFF])))) 6 1 = [0xFFFFFFFE] := by decide +kernel
theorem test_vdiv_by_zero : (after (.vdiv ⟨6, r 5, r 4, r 0, no, no, false, 0, .i32, .rne, 0⟩)
    (st { typed32 2 [] (elems 4 [1] ++ elems 5 [7, 7]) with tvec := 0x80 })).self.estart = 1 := by decide +kernel
theorem test_vadd_masked : brick (after (.vadd ⟨6, r 5, r 5, r 0, no, no, true, 1, .i32, .rne, 0⟩)
    (st { typed32 2 [] (elems 5 [3, 4] ++ elems 6 [1, 1]) with masks := [(1, 2)] })) 6 2 = [1, 8] := by decide +kernel
theorem test_vfma : brick (after (.vfma ⟨6, r 5, r 5, r 4, no, no, false, 0, .f32, .rne, 0⟩)
    (st (typed32 1 [] (elems 4 [0x3F800000] ++ elems 5 [0x40400000])))) 6 1 = [0x41200000] := by decide +kernel
theorem test_vredo : brick (after (.vredo ⟨4, r 3, r 2, r 0, no, no, false, 0, .f32, .rne, 0⟩)
    (st (typed32 3 [] (elems 3 [0x3F800000, 0x40000000, 0x40400000])))) 4 1 = [0x40C00000] := by decide +kernel
theorem test_vslide_wraps : brick (after (.vslide ⟨6, r 5, r 1, r 0, no, no, false, 0, .i32, .rne, 1⟩)
    (st (typed32 3 [(1, 1)] (elems 5 [7, 8, 9])))) 6 3 = [8, 9, 7] := by decide +kernel
theorem test_vcomp : brick (after (.vcomp ⟨6, r 5, r 0, r 0, no, no, true, 1, .i32, .rne, 0⟩)
    (st { typed32 3 [] (elems 5 [7, 8, 9]) with masks := [(1, 5)] })) 6 2 = [7, 9] := by decide +kernel
theorem test_vgath_outside : brick (after (.vgath ⟨6, r 5, r 4, r 0, no, no, false, 0, .i32, .rne, 0⟩)
    (st (typed32 2 [] (elems 4 [1, 2] ++ elems 5 [7, 8])))) 6 2 = [8, 0] := by decide +kernel
theorem test_vext_signed : (after (.vext ⟨6, r 5, r 1, r 0, no, no, false, 0, .i32, .rne, 0⟩)
    (st (typed32 2 [(1, 1)] (elems 5 [7, 0x80000000])))).self.scalar 6 = 0xFFFFFFFF80000000 := by decide +kernel
theorem test_vcmp : ((after (.vcmp ⟨1, r 5, r 4, r 0, no, no, false, 0, .i32, .rne, 4⟩)
    (st (typed32 2 [] (elems 4 [1, 1] ++ elems 5 [0xFFFFFFFF, 1])))).self.mask 1).setWidth 4 = 1 := by decide +kernel
theorem test_vcvtn_bf16 : brick (after (.vcvtn ⟨6, r 5, r 0, r 0, no, no, false, 0, .f32, .rne, 0x14⟩)
    (st (typed32 2 [] (elems 5 [0x3F808000, 0x3F818000])))) 6 2 = [0x3F80, 0x3F82] := by decide +kernel
theorem test_mset_first : ((after (.mset ⟨1, r 5, r 0, 0⟩) (st (typed32 8 [(5, 3)] []))).self.mask 1).setWidth 8 = 7 := by decide +kernel
theorem test_mnot_trims : ((after (.mnot ⟨1, r 2, r 0, 0⟩) (st (typed32 4 [] []))).self.mask 1).setWidth 8 = 15 := by decide +kernel
theorem test_mpopc : (after (.mpopc ⟨1, r 0, r 0, 0⟩) (st (typed32 8 [] []))).self.scalar 1 = 8 := by decide +kernel
theorem test_mfirst_none : (after (.mfirst ⟨1, r 2, r 0, 0⟩) (st (typed32 8 [] []))).self.scalar 1 = -1 := by decide +kernel
theorem test_vld_unit : brick (after (.vldUnit ⟨6, r 1, r 0, r 0, no, no, false, 0, .i32, .rne, 0⟩)
    (withScratch (st (typed32 2 [(1, window)] [])) 0 8 0x90ABCDEF12345678)) 6 2 = [0x12345678, 0x90ABCDEF] := by decide +kernel
theorem test_vst_masked : scratch (after (.vstUnit ⟨0, r 1, r 0, r 6, no, no, true, 1, .i32, .rne, 0⟩)
    (st { typed32 2 [(1, window)] (elems 6 [1, 2]) with masks := [(1, 2)] })) 0 8 = 2 <<< 32 := by decide +kernel
theorem test_vamo_add : scratch (after (.vamoAdd ⟨6, r 1, r 2, r 5, no, no, false, 0, .i32, .rne, 0⟩)
    (withScratch (st (typed32 2 [(1, window)] (elems 2 [0, 0] ++ elems 5 [3, 4]))) 0 4 10)) 0 4 = 17 := by decide +kernel
theorem test_ill_type_traps : (after (.vadd ⟨6, r 5, r 5, r 0, no, no, false, 0, .i64, .rne, 0⟩)
    (st { typed32 2 [] [] with tvec := 0x80 })).self.tcause = 5 := by decide +kernel
theorem test_mzero : ((after (.mzero ⟨1, r 0, r 0, r 0, .seq, .rlx, 0, 0⟩)
    { st (running []) with cores := [(0, { acc1 := { elems := [(0, 9)] } })] }).core 0).acc1.elems = [] := by decide +kernel
theorem test_mstep_needs_a_configuration : (after (.mstep ⟨0, r 1, r 2, r 3, .seq, .rlx, 0, 0⟩)
    (st { running [] with tvec := 0x80 })).self.tcause = 5 := by decide +kernel

/-! Synchronisation, events, tasks. -/

theorem test_fence : (after (.fence ⟨0, r 0, r 0, .ar, .dev, 0⟩) (st (running []))).self.pc = 0x44 := by decide +kernel
theorem test_arrive_completes : (arriveAt (mkCell 2 1 7)) = mkCell 2 0 8 := by decide +kernel
theorem test_arrive_counts : (arriveAt (mkCell 3 1 7)) = mkCell 3 2 7 := by decide +kernel
theorem test_departure_completes : departAt none (mkCell 3 2 7) = mkCell 2 0 8 := by decide +kernel
theorem test_put_keeps_a_full_cell : putAt 5 false (2 ^ 64 + 3) = 2 ^ 64 + 3 := by decide +kernel
theorem test_arrive_not_in_scratchpad : (after (.arrive ⟨1, r 2, r 0, .rlx, .seq, 0⟩)
    (st { running [(2, window)] with tvec := 0x80 })).self.tcause = 0x15 := by decide +kernel
theorem test_evpop : (after (.evpop ⟨8, r 0, r 0, 2⟩) (st { running [] with evq := { recs := [0x5000000000000000070000000000000004] } })).self.scalar 8 =
    4 := by decide +kernel
theorem test_evpop_empty : (after (.evpop ⟨8, r 0, r 0, 2⟩) (st { running [] with p := 5 })).self.pred 2 = false := by decide +kernel
theorem test_wfe_waits : (after .wfe (st (running []))).self.wait = some (.wfe 65536 false) := by decide +kernel
theorem test_yield : (after (.yieldSeq ⟨1, r 0, r 0, 0⟩) (st { running [] with p := 3 })).self.pred 1 = false := by decide +kernel
theorem test_halt_frees : (after .halt (st (running []))).self.phase = .free := by decide +kernel
/-- R341: no free sequencer of the core. -/
theorem test_fork_of_none_free : (after (.fork ⟨9, 1, 0⟩) { st (running []) with
    seqs := [(0, running []), (1, running []), (2, running []), (3, running [])] }).self.scalar 9 = 0x8000000000000000 := by decide +kernel
theorem test_rdv_of_no_child : (after (.rdv ⟨9, r 1, r 0, 0⟩) (st (running []))).self.scalar 9 = 0x8000000000000000 := by decide +kernel
theorem test_cancel_of_nothing : (after (.cancel ⟨9, r 1, r 0, 0⟩) (st (running [(1, 3)]))).self.scalar 9 = 0x8000000000000001 := by decide +kernel
theorem test_qstat_without_a_handle : (after (.qstat ⟨9, r 1, r 0, 0⟩) (st { running [] with tvec := 0x80 })).self.phase = .ending 2 := by decide +kernel
theorem test_resv_new_refuses_a_limit_of_zero : (after (.resvNew ⟨7, r 1, r 2, r 3, .seq, .rlx, 0, 0⟩) (st (running []))).self.scalar 7 =
    0x8000000000000004 := by decide +kernel
theorem test_copy_misaligned : ((after (.copy ⟨7, r 1, r 2, r 3, .seq, .rlx, 0, 0⟩) (st (running [(3, 6)]))).engines.map (·.2.stop)) = [some 0xF0] := by
  decide +kernel
theorem test_grant : ((after (.grant ⟨0, r 1, r 2, r 0, .seq, .rlx, 3, 9⟩) (st (running [(1, 0x100), (2, 0x40)]))).core 0).permits =
    [(3, ⟨0x100, 0x40, 9⟩)] := by decide +kernel

/-! Steps of other agents. -/

theorem test_step_runs_the_line : (match step ((st (running [])).withFetchWord 16 0x3001) with | .next t => t.self.pc | _ => 0) = 0x80 := by decide +kernel
theorem test_link_expires : ((moved (.linkExpiry 0 0) { st (running []) with cycle := 70000, epochAt := 70000, cores := [(0, { links := [⟨9, 0, 1000⟩] })] }).core 0).links = [] := by
  decide +kernel
theorem test_link_stays_young : ((moved (.linkExpiry 0 0) { st (running []) with cycle := 60000, epochAt := 60000, cores := [(0, { links := [⟨9, 0, 1000⟩] })] }).core 0).links =
    [⟨9, 0, 1000⟩] := by decide +kernel
theorem test_lease_taken : (moved (.leaseTakeReceived 3 7) { st (running []) with lend := [(3, { st := .offered, dev := 7 })] }).lend =
    [(3, { st := .lent, dev := 7 })] := by decide +kernel
theorem test_bad_flit : (moved (.dieFlitReceive 0 1 { num := 0, cls := .req, source := 0, dest := 1, payload := [], crcOk := false }) (st (running []))).linkDirs = [] := by
  decide +kernel
/-- R428: a flit in order is delivered, and the receiver acknowledges up to the next. -/
theorem test_flit_is_acknowledged : ((moved (.dieFlitReceive 0 1 { num := 0, cls := .req, source := 0, dest := 1, payload := [], crcOk := true }) (st (running []))).dir 0 1).acked =
    some (1, 0) := by decide +kernel
theorem test_mailbox_share : (moved (.mailboxShareTotal (some 3) 200) (st (running []))).shares = [(3, 200)] := by decide +kernel
theorem test_mailbox_refuses : (moved (.mailboxShareTotal (some 3) 256) (st (running []))).answer = .status 1 := by decide +kernel
theorem test_supply_fault : (moved .supplyFault (st (running []))).powered = false := by decide +kernel
theorem test_core_sleeps : ((moved (.coreSleep 1) (st (running []))).core 1).asleep = true := by decide +kernel
theorem test_long_latency : (moved (.longLatencyComplete 0 .scalar 4) (st { running [] with sEmpty := 16, outst := [(.scalar, 4, 0)] })).self.sEmpty = 0 := by
  decide +kernel
theorem test_combining_applies : (moved (.combiningWindowApply 160)
    { st (running []) with cores := [(0, { comb := [⟨scratchLoc 0 0, 0, 32, [5], .none, 0⟩] })] }).mem.readLe (scratchLoc 0 0) 4 = 5 := by decide +kernel

/-! Witnesses: for each statement with hypotheses, states and operands that meet them, clause by clause. -/

/-- A meaning runs to its end from a state, and p holds of its result and of the state it leaves. -/
def runsTo {α : Type} (m : M α) (s : State) (p : α → State → Bool) : Bool :=
  match m.run.run s with
  | (.ok a, t) => p a t
  | (.error _, _) => false

theorem runsTo_iff {α : Type} (m : M α) (s : State) (p : α → State → Bool) :
    runsTo m s p = true ↔ ∃ a t, Runs m s a t ∧ p a t = true := by
  unfold runsTo Runs
  rcases m.run.run s with ⟨r | a, t⟩
  · constructor
    · intro h; cases h
    · rintro ⟨_, _, h, _⟩; cases h
  · constructor
    · intro h; exact ⟨a, t, rfl, h⟩
    · rintro ⟨_, _, h, hp⟩; cases h; exact hp

/-- A meaning runs to its end. -/
def ends {α : Type} (m : M α) (s : State) : Bool := runsTo m s fun _ _ => true

/-- A meaning stops in a way that p admits. -/
def stopsBy {α : Type} (m : M α) (s : State) (p : Stop → Bool) : Bool :=
  match m.run.run s with
  | (.error e, _) => p e
  | (.ok _, _) => false

theorem stopsBy_iff {α : Type} (m : M α) (s : State) (p : Stop → Bool) :
    stopsBy m s p = true ↔ ∃ e t, StopsWith m s e t ∧ p e = true := by
  unfold stopsBy StopsWith
  rcases m.run.run s with ⟨r | a, t⟩
  · constructor
    · intro h; exact ⟨r, t, rfl, h⟩
    · rintro ⟨_, _, h, hp⟩; cases h; exact hp
  · constructor
    · intro h; cases h
    · rintro ⟨_, _, h, _⟩; cases h

/-- Every step of a list runs to its end, one after another, and p holds of the state they leave. -/
def runsAllTo {α : Type} (f : α → M Unit) : List α → State → (State → Bool) → Bool
  | [], s, p => p s
  | a :: l, s, p => runsTo (f a) s fun _ t => runsAllTo f l t p

theorem runsAllTo_iff {α : Type} (f : α → M Unit) (l : List α) (s : State) (p : State → Bool) :
    runsAllTo f l s p = true ↔ ∃ t, RunsAll f l s t ∧ p t = true := by
  induction l generalizing s with
  | nil => simp [runsAllTo, RunsAll]
  | cons a l ih =>
    simp only [runsAllTo, runsTo_iff, RunsAll, ih]
    constructor
    · rintro ⟨u, t, h, t', h', hp⟩; exact ⟨t', ⟨t, h, h'⟩, hp⟩
    · rintro ⟨t', ⟨t, h, h'⟩, hp⟩; exact ⟨(), t, h, t', h', hp⟩

/-- These scalars are full. -/
def full (s : State) (l : List Reg) : Bool := l.all fun x => !s.emptyReg .scalar x

/-- These bricks are full. -/
def fullB (s : State) (l : List Reg) : Bool := l.all fun x => !s.emptyReg .brick x

/-- A release at a scope need not wait. -/
def mayRel (s : State) (sc : Scope) : Bool :=
  (sc == .seq || ((drainCore (coreOf s.cur) s).unacked (coreOf s.cur)).isNone) &&
    (sc != .sys || !s.engines.any (fun x => x.2.ctx.seq == s.cur && x.2.kind == .rcopy))

theorem mayRel_iff (s : State) (sc : Scope) : mayRel s sc = true ↔ s.mayRelease sc := by
  unfold mayRel State.mayRelease
  cases sc <;> simp

/-- The type of elements is well formed and has this width. -/
def isTyped (s : State) (ty : Ty) : Bool := !s.self.ill && ty.width == s.self.sew

/-- A state with no register empty and VTYPE ill-formed. -/
def plain : State := st (running [(1, 5), (2, 6)])

/-- As the walk above, with KEY 0. -/
def paged : Seq → State := mappedBy 0x08000000000240B3

/-- A virtual address of its leaf. -/
def data : DWord := 0x0012345678000000

/-- A launch of one stage with room for two records of 16 bytes, and a memory-backed queue with four slots of 16 bytes. -/
def aLaunch : Launch where
  die := 0
  ctx := { seq := 0, core := 0, tenant := 0, priv := true, xlroot := 0x100 <<< 14, asid := 0, resvid := 0 }
  args := 0
  cpl := 0x0012345678001000
  useq := 0
  entry := 0
  widfmt := 0
  extents := []
  places := []
  prio := 1
  migratable := true
  fused := false
  trappol := 0
  energy := 0
  ctxtag := 0
  tvec := 0
  tsave := 0
  group := 5
  queues := [⟨0x0012345678002000, 0x0012345678003000, 2, 4⟩]
  stages := [{ entry := 0, depth := 2, logr := 4, feeder := none, minc := 1, maxc := 2, recs := [List.replicate 16 7] }]
  unstarted := []

/-- A sequencer of that launch, with its queues by handle. -/
def queued : State := { paged { running [(2, data)] with launch := some 7, queues :=
  [(0, .stage 7 0), (1, .memory 7 0), (2, .tiles 7 0), (3, .tasks 7 0)] } with launches := [(7, aLaunch)] }

/-- Two elements of 32 bits in the mapped page and in the window: b4 and b5 hold 0 and 4, and 3 and 4. -/
def vectors : State := paged { running [(1, data), (2, window), (3, 0x100000001), (4, 1), (5, 8), (6, 64)] with
  vtype := 0x1001A, vl := 2, mvl := 128, bricks := elems 4 [0, 1] ++ elems 5 [3, 4] }


theorem test_hyp_ScalarTwoSourceResults : full plain [1, 2, 3] = true := by decide +kernel
theorem test_hyp_ScalarDivision : full plain [1, 2, 3, 4] = true ∧ plain.self.scalar 2 ≠ 0 ∧ plain.self.scalar 4 = 0 := by decide +kernel
theorem test_hyp_ScalarMinMaxAndCompare : full plain [1, 2, 3] = true := by decide +kernel
theorem test_hyp_ScalarBitCounts : full plain [1, 3] = true := by decide +kernel
theorem test_hyp_ScalarImmediates : full plain [1, 3] = true := by decide +kernel
theorem test_hyp_ScalarConstantsAndCodeAddresses : full plain [3] = true := by decide +kernel
/-- A signalling NaN with every flag enabled meets the second clause of every operation, and no flag enabled the first. -/
theorem test_hyp_ScalarFloatResults :
    let s := st { running [(1, 0x7F800001), (2, 0x3F800000)] with fsr := 0x3E0 }
    full s [1, 2, 3] = true ∧ full plain [1, 2, 3] = true ∧ plain.self.enables = 0 ∧
    [fpAdd .fp32 0x7F800001 0x3F800000 .rne, fpSub .fp32 0x7F800001 0x3F800000 .rne, fpMul .fp32 0x7F800001 0x3F800000 .rne,
      fpDiv .fp32 0x7F800001 0x3F800000 .rne, fpMinMax .fp32 false 0x7F800001 0x3F800000,
      fpMinMax .fp32 true 0x7F800001 0x3F800000].all (fun x => x.2 &&& s.self.enables != 0) = true ∧
    [fpSqrt .fp32 0x7F800001 .rne, fpFma .fp32 false false 0x7F800001 0x3F800000 0 .rne,
      convert .fp32 (fcvtSource 0) 0x7FF0000000000001 .rne 0].all (fun x => x.2 &&& s.self.enables != 0) = true ∧
    (fpCmp .fp32 0 0x7F800001 0x3F800000).2 &&& s.self.enables ≠ 0 := by decide +kernel
theorem test_hyp_PredicateResults : full plain [1, 2, 3] = true ∧ plain.self.vl ≤ 8192 ∧
    (0 : BitVec 10).toNat % 4 < 3 := by decide +kernel
theorem test_hyp_BranchesAndCalls : full plain [1, 3] = true := by decide +kernel
theorem test_hyp_LoopsRun :
    let six := st { running [(1, 5)] with loops := List.replicate 6 ⟨0x40, 0x80, 2⟩ }
    let one := st { running [] with loops := [⟨0x40, 0x80, 1⟩] }
    full plain [1, 3] = true ∧ plain.self.scalar 3 = 0 ∧ plain.self.scalar 1 ≠ 0 ∧ plain.self.loops.length < 6 ∧
    one.self.loops = ⟨0x40, 0x80, 1⟩ :: [] ∧ one.self.launch = none ∧ full six [1] = true ∧ six.self.scalar 1 ≠ 0 ∧
    6 ≤ six.self.loops.length ∧ plain.self.loops = [] := by decide +kernel
theorem test_hyp_StripAdvances : full plain [5, 1, 2, 3, 4] = true := by decide +kernel
theorem test_hyp_EmptySourceTraps :
    let s := st { running [] with sEmpty := 2 }
    full plain [1] = true ∧ s.self.isEmpty .scalar 1 = true ∧ s.self.standing .scalar 1 = false := by decide +kernel
theorem test_hyp_ControlRegisterReads :
    let s := st { running [] with tstat := 1 }
    full s [3] = true ∧ s.self.priv = true ∧ full plain [3] = true ∧ ((0x005 : BitVec 10).toNat ∉ [0x020, 0x021, 0x030]) := by decide +kernel
theorem test_hyp_ControlRegisterWrites : let s := st { running [] with tstat := 1 }; full s [1] = true ∧ s.self.priv = true := by decide +kernel
theorem test_hyp_PrivilegeTraps : plain.self.priv = false ∧ (0x020 : BitVec 10).toNat ∈ [0x020, 0x021, 0x030] ∧
    (0x014 : BitVec 10).toNat ∉ [0x000, 0x005, 0x018, 0x019, 0x01A] ∧ wellFormed (.cwr ⟨0, r 1, r 0, 0x014⟩) = true := by decide +kernel
theorem test_hyp_TrapInstruction : full plain [5] = true ∧ plain.arrivesRemote plain.self.uid = false ∧
    delivery 0x20 { running [] with tvec := 0x80 } 0 = .handler := by decide +kernel
theorem test_hyp_SretReturns :
    let s := st { running [] with tstat := 4 }
    let t := { s with relov := { s.relov with cmds := [(6, { kind := .arrive 0 3, left := [(4, 1)] })] } }
    plain.self.tstat.getLsbD 2 = false ∧ s.self.tstat.getLsbD 2 = true ∧ s.arrivesRemote s.self.uid = false ∧
    t.self.tstat.getLsbD 2 = true ∧ t.arrivesRemote t.self.uid = true := by decide +kernel
theorem test_hyp_TrapEntrySavesAndSwitches :
    let q (t : BitVec 12) (pol : BitVec 2) : Seq := { running [] with tstat := t ||| (pol.setWidth 12 <<< 10) }
    ((q 5 0).inh = true ∧ (q 5 0).priv = true) ∧ ((q 4 0).inh = true ∧ (q 4 0).priv = false) ∧ (q 0 0).inh = false ∧
    (q 0 0).pol = 0 ∧ (q 0 1).pol = 1 ∧ 2 ≤ (q 0 2).pol ∧ (q 0 1).inh = false ∧ (q 0 2).inh = false := by decide +kernel
/-- A launch 7 whose line is raised on cluster 0: found before; raised 64 cycles ago; raised just now. -/
theorem test_hyp_AbortLineRaisedAndSampled :
    let s (x : Bool × Nat × Nat) := { st { running [] with launch := some 7, loops := [⟨0x40, 0x80, 1⟩] } with
      cycle := 100, clusters := [(0, { abort := [(7, x)] })] }
    let line (s : State) := s.self.launch.bind (NMap.get? (s.cluster (clusterOf s.cur)).abort)
    plain.self.launch = none ∧ line plain = none ∧ line (s (true, 99, 5)) = some (true, 99, 5) ∧ line (s (false, 36, 5)) = some (false, 36, 5) ∧
    36 + 64 ≤ (s (false, 36, 5)).cycle ∧ line (s (false, 37, 0)) = some (false, 37, 0) ∧ ¬(37 + 64 ≤ (s (false, 37, 0)).cycle) ∧ (s (false, 37, 0)).self.uid = 0 ∧
    (s (true, 99, 5)).self.loops ≠ [] ∧ mayRel plain .clu = true ∧ mayRel (s (true, 99, 5)) .clu = true ∧
    ((s (true, 99, 5)).released .clu).self.launch = some 7 := by decide +kernel
theorem test_hyp_ForkStartsASibling :
    let s := st { running [(1, 3)] with children := [⟨3, 9, none⟩] }
    let t := st { running [(1, 3)] with children := [⟨3, 9, some 0⟩] }
    let busy := { plain with seqs := [(0, running []), (1, running []), (2, running []), (3, running [])] }
    let free (s : State) := ((s.modSeq s.cur Seq.completeAll).released .core).freeSiblings (coreOf s.cur)
    plain.self.phase = .running ∧ (plain.modSeq 0 Seq.completeAll).self.sEmpty = 0 ∧ mayRel (plain.modSeq 0 Seq.completeAll) .core = true ∧
    mayRel (busy.modSeq 0 Seq.completeAll) .core = true ∧ free plain ≠ [] ∧ free busy = [] ∧
    full s [1, 4] = true ∧ s.self.children.find? (fun c => c.seqid == 3) = some ⟨3, 9, none⟩ ∧
    t.self.children.find? (fun c => c.seqid == 3) = some ⟨3, 9, some 0⟩ ∧ plain.self.children = [] := by decide +kernel
theorem test_hyp_HaltDoneAndYield :
    let u := plain.released .dev
    plain.enginesOf plain.cur = [] ∧ plain.arrivesRemote plain.self.uid = false ∧ mayRel plain .dev = true ∧ ends departAll u = true ∧
    u.self.work = none ∧ u.enginesOf plain.cur = [] ∧ u.arrivesRemote u.self.uid = false ∧ mayRel u .dev = true ∧
    ends departAll (u.released .dev) = true ∧
    (plain.setSeq plain.cur {}).readyHere plain.cur = [] ∧ (st { running [] with tstat := 1 }).self.priv = true ∧
    plain.self.evq.recs = [] ∧ plain.self.wait = none := by decide +kernel
/-- A work item of two sequencers, with none saved and with one saved. -/
theorem test_hyp_HaltDoneAndYield_of_work :
    let item : Seq := { running [] with work := some 3 }
    let two : State := { plain with seqs := [(0, item), (1, item)] }
    let more : State := { two with saved := [(9, { q := item, seq := 1 })] }
    let saveds (s : State) : NMap Saved := (s.released .dev).saved.filter (fun x => x.2.q.work == some 3)
    let ended (r : State) : State :=
      { r with seqs := NMap.mapVals r.seqs (fun m k =>
        if m ≠ r.cur ∧ k.work = some 3 ∧ k.phase = .running then { k with phase := .ending 0, wait := k.wait.filter Wait.isHost } else k) }
    let saved (s : State) : List Nat := (s.saved.filter (fun x => x.2.q.work == some 3)).map (·.1)
    let released (s : State) (f : State → Bool) : Bool :=
      runsAllTo (fun x => releaseSaved x.2) (saveds s) (s.released .dev) fun r => r.cur == s.cur && f (ended r)
    let meets (s : State) : Bool := decide (s.enginesOf s.cur = []) && !s.arrivesRemote s.self.uid && mayRel s .dev
    meets two = true ∧ meets more = true ∧ (two.released .dev).self.work = some 3 ∧ (more.released .dev).self.work = some 3 ∧
    released two (fun r => decide (saved r = []) && decide ((r.released .dev).self.bars = []) && meets r) = true ∧
    released more (fun r => decide (saved r = [9]) && runsAllTo (fun k => endSaved k 0) [9] r fun s2 =>
      s2.cur == more.cur && meets s2 && ends departAll (s2.released .dev)) = true := by
  decide +kernel
theorem test_hyp_EventQueueInstructions :
    let s := st { running [] with evq := { recs := [4, 5], drops := 3 } }
    let d := { st { running [] with tstat := 1 } with dies := [(0, { supq := { recs := [9] } })] }
    full s [0, 1, 2, 3, 8, 9, 10, 11] = true ∧ s.self.evq.recs = 4 :: [5] ∧ s.self.evq.drops ≠ 0 ∧ plain.self.evq.recs = [] ∧
    d.self.priv = true ∧ (d.die (dieOf d.cur)).supq.recs = [9] ∧ plain.self.scalar 3 = 0 ∧ plain.self.wait = none ∧
    (2 : BitVec 17).toNat % 32 ≤ s.self.evq.recs.length ∧ plain.self.evq.recs.length < (2 : BitVec 17).toNat % 32 := by decide +kernel

/-- In a mapped page, and in the own window; a misaligned address. -/
theorem test_hyp_ScalarLoadResult :
    let s := paged (running [(1, data + 8), (2, window)])
    let c := s.ctx s.cur
    full s [1, 2, 3] = true ∧ (data + 8).toNat % 2 ^ 56 % 8 = 0 ∧ (data + 8).toNat % 2 ^ 56 % 8 = 0 ∧ (data + 7).toNat % 2 ^ 56 % 8 ≠ 0 ∧
    runsTo (resolve c .l1 kRead (data + 8).toNat 8 0) s (fun x s1 =>
      runsTo (loadOrdered c x.2 8 false true kRead (data + 8).toNat 0) s1 fun v s2 => full s2 [3] && decide (v < 2 ^ 64)) = true ∧
    runsTo (resolve c .l1 kRead (data + 8).toNat 8 0) s (fun x s1 =>
      [false, true].all fun acq => runsTo (loadOrdered c x.2 8 acq false kRead (data + 8).toNat 0) (acquireL1 (coreOf s1.cur) .dev s1) fun v s2 => full s2 [3] && decide (v < 2 ^ 64)) = true ∧
    inWindow window.toNat = true ∧ windowTarget (coreOf s.cur) window.toNat = some (0, 0) ∧ (s.core 0).spOwner = s.self.tenant ∧
    (s.core 0).comb = [] ∧ s.badWords = [] := by decide +kernel
theorem test_hyp_ScalarStoreEffectAndFrame :
    let s := paged (running [(1, data + 8), (2, window)])
    let c := s.ctx s.cur
    full s [1, 2, 3] = true ∧ (data + 7).toNat % 2 ^ 56 % 8 ≠ 0 ∧
    inWindow (data + 8).toNat = false ∧ inWindow window.toNat = true ∧ s.badWords = [] ∧
    (let t := mappedBy 0x0800000000A740B3 (running [(1, data + 8)])
     runsTo (checkLeaf (t.ctx t.cur) .l1 kWrite (data + 8).toNat 8 0 .none) t (fun l _ => l.pte.scf != 0)) = true ∧
    runsTo (storePlace c (data + 8).toNat 8) s (fun p s1 => ends (storeBytes c p 8 5 true kWrite (data + 8).toNat 0) s1 &&
      runsTo (release .dev) s1 fun _ s2 => ends (storeBytes c p 8 5 false kWrite (data + 8).toNat 0) s2) = true ∧
    windowTarget (coreOf s.cur) window.toNat = some (0, 0) ∧ (s.core 0).spOwner = s.self.tenant ∧ (s.core 0).comb = [] := by decide +kernel
theorem test_hyp_ScalarAtomicsUpdate :
    let s := paged (running [(1, data + 8), (2, window)])
    let o : AArgs := ⟨3, r 1, r 4, .rlx, .seq, 2⟩
    full s [1, 2, 3, 4] = true ∧ (data + 7).toNat % 2 ^ 56 % 8 ≠ 0 ∧
    runsTo (scalarAtomic o (data + 8).toNat 8 (performs true true) ⟨0, 1, 0⟩) s (fun _ s1 => full s1 [3]) = true ∧
    windowTarget (coreOf s.cur) window.toNat = some (0, 0) ∧ (s.core 0).spOwner = s.self.tenant ∧ (s.core 0).comb = [] ∧
    s.badWords = [] ∧ 0 + 8 ≤ 2 ^ 20 ∧ inWindow window.toNat = true ∧ s.self.hostAns = none := by decide +kernel
theorem test_hyp_CompareAndSwap :
    let s := paged (running [(1, data + 16), (2, window)])
    let o : AArgs := ⟨4, r 1, r 6, .rlx, .seq, 2⟩
    full s [1, 2, 4, 5, 6, 7] = true ∧
    runsTo (scalarAtomic o (data + 16).toNat 8 (performs true true) ⟨casOp, 7, 0⟩) s
      (fun _ s1 => full s1 [4]) = true ∧
    runsTo (scalarAtomic o (data + 16).toNat 16 (performs false true) ⟨casOp, 7, 0⟩) s
      (fun _ s1 => full s1 [4, 5]) = true ∧
    (let c := s.ctx s.cur
     let va := (data + 16).toNat
     runsTo (atomicPlace c .l1 kRmw va 16 0 (performs false true)) s (fun p s1 => p.scratch.isNone && !isHost p.loc &&
      runsTo (gatherWords c p 16 kRmw va 0) s1 fun _ s2 =>
        full (if s2.valueUnder p.mat p.loc 16 = 0 then homeWrite p.mat p.loc 16 6 s2 else breakLinks (p.loc / 128) s2) [4, 5]) = true) ∧
    windowTarget (coreOf s.cur) window.toNat = some (0, 0) ∧ 0 + 8 ≤ 2 ^ 20 ∧ (s.core 0).spOwner = s.self.tenant ∧
    (s.core 0).comb = [] ∧ s.badWords = [] ∧ inWindow window.toNat = true ∧ s.self.hostAns = none := by decide +kernel
theorem test_hyp_FencesPerformAcquireAndRelease :
    mayRel plain .sys = true ∧ mayRel plain .dev = true := by decide +kernel
theorem test_hyp_BarrierArithmetic : 2 < 2 ^ 32 ∧ 1 < 2 ^ 32 ∧ 7 < 2 ^ 64 ∧ 2 ≤ 1 + 1 ∧ 0 + 1 < 2 ∧ 1 ≤ 2 ∧ (0 < 1 ∧ 2 - 1 ≤ 1) ∧
    (0 = 0 ∨ 0 < 2 - 1) ∧ (2 ^ 32 - 1 < 2 ^ 32 ∧ 2 ^ 32 - 1 ≤ (2 ^ 32 - 1) + 1 ∧ 0 + 1 < 2 ^ 32 - 1) := by decide +kernel
/-- A barrier cell in a mapped page: with an entry and without, and one that has passed phase 0 or not. -/
theorem test_hyp_BarrierInstructions :
    let va := data.toNat
    let s := paged (running [(1, data), (2, -1), (3, data + 8)])
    let t := paged { running [(1, data)] with bars := [(0, ⟨data.setWidth 56, none⟩)] }
    full s [1, 2, 3] = true ∧ s.self.launch = none ∧ (data + 8).toNat % 16 ≠ 0 ∧ va % 16 = 0 ∧
    runsTo (barrierEntry va) t (fun i t1 => decide (t1 = t) && decide (i = 0)) = true ∧
    runsTo (cellStep (t.ctx t.cur) va arriveAt) t (fun _ t1 => full t1 [3]) = true ∧
    runsTo (release .dev) t (fun _ t0 => runsTo (barrierEntry va) t0 fun _ t2 =>
      runsTo (cellStep (t2.ctx t2.cur) va arriveAt) t2 fun _ t1 => full t1 [3]) = true ∧ s.cellGot = none ∧
    ({ s with cores := [(0, { cells := [{ seq := 0, loc := 8, mat := .none, want := .phase 0, got := some 3 }] })] } : State).cellGot ≠ none ∧
    runsTo (barrierEntry va) s (fun i s1 => decide (i = 0) && (s1.self.barOf va).isNone) = true ∧
    s.self.bars.find? (fun x => x.2.va.toNat == va) = none ∧
    t.self.bars.find? (fun x => x.2.va.toNat == va) = some (0, ⟨data.setWidth 56, none⟩) ∧
    ends (cellStep (t.ctx t.cur) va (departAt none)) t = true ∧ t.self.barOf va = some 0 ∧ s.self.barOf va = none ∧
    s.waitRoom s.cur = true ∧
    runsTo (cellRead (s.ctx s.cur) va) s (fun x _ =>
      decide ((BitVec.ofNat 64 (cellPhase x.2) - s.self.scalar 2).toNat = 1 ∧ (BitVec.ofNat 64 (cellPhase x.2) - s.self.scalar 5).toNat = 0)) =
      true := by decide +kernel
theorem test_hyp_FutureCells :
    let va := data.toNat
    let s := paged (running [(1, data)])
    let put := match (execFput ⟨2, r 1, r 4, .rlx, .seq, 0⟩ s) with | .next t => t | _ => s
    futureFull 5 = false ∧ futureFull (2 ^ 64 + 5) = true ∧ full s [1, 2, 3] = true ∧ va % 16 = 0 ∧
    ends (cellStep (s.ctx s.cur) va (putAt 7 false)) s = true ∧
    runsTo (release .dev) s (fun _ t => decide (t.cur = s.cur ∧ t.self = s.self) && ends (cellStep (t.ctx t.cur) va (putAt 7 false)) t) = true ∧
    s.waitRoom s.cur = true ∧ put.waitRoom put.cur = true ∧ full put [1, 2, 3] = true ∧ s.cellGot = none ∧ put.cellGot = none ∧
    ({ s with cores := [(0, { cells := [{ seq := 0, loc := 8, mat := .none, want := .full false, got := some 3 }] })] } : State).cellGot = some 3 ∧
    runsTo (cellRead (s.ctx s.cur) va) s (fun x t => full t [3] && !futureFull x.2) = true ∧
    runsTo (cellRead (put.ctx put.cur) va) put (fun x t => full t [3] && futureFull x.2 &&
      runsTo (performAtomic (put.ctx put.cur) x.1 16 (fun v => some (v - 2 ^ 64)) kRmw va 0) t fun _ u => full u [3]) = true := by decide +kernel

theorem test_hyp_QueueInstructions :
    let s := queued
    let va := data.toNat
    let c := s.ctx s.cur
    let pushes (n : Nat) (f : State → Nat → Bool) : Bool := runsTo (resolve c .l1 kRead va n 0) s fun x s1 =>
      runsTo (loadBytes c x.2 n false kRead va 0) s1 fun rec s2 => mayRel s2 .dev && f (s2.released .dev) rec
    let store (n : Nat) (p : Place) (v : Nat) : M Unit := storeBytes c p n v true kWrite va 0
    full s [2, 3] = true ∧ s.self.launch.bind (NMap.get? (s.cluster (clusterOf s.cur)).abort) = none ∧
    NMap.get? s.self.queues 9 = none ∧ NMap.get? s.self.queues 0 = some (.stage 7 0) ∧ (QHandle.stage 7 0).pushable = true ∧
    pushes 16 (fun s3 _ => (s3.stageAt 7 0).isSome) = true ∧
    pushes (2 ^ s.logr (.memory 7 0)) (fun s3 rec => match s3.memQueue 7 0 with | some m => ends (pushMemory m rec) s3 | none => false) = true ∧
    pushes (2 ^ s.logr (.tiles 7 0)) (fun s3 rec => ends (pushTile 7 0 rec) s3) = true ∧
    (QHandle.stage 7 0).poppable = true ∧ (QHandle.memory 7 0).poppable = true ∧
    runsTo (endsWorker 0 (.stage 7 0)) s (fun b t => !b && decide (t = s)) = true ∧
    runsTo (storePlace c va 16) s (fun p s1 => ends (popStage 7 0 (store 16 p)) s1) = true ∧
    ({ aLaunch with stages := [{ entry := 0, depth := 2, logr := 4, feeder := none, minc := 1, maxc := 2 }] }.stages[0]?).map (·.recs) = some [] ∧
    runsTo (storePlace c va 16) s (fun p s1 => match s1.memQueue 7 0 with
      | some m => ends (popMemory 1 m (store 16 p)) s1 | none => false) = true ∧
    runsTo (queueCounts (.memory 7 0)) s (fun x s1 => decide (x.1 < 65536 ∧ x.2.1 < 65536) && full s1 [3]) = true ∧
    runsTo (queueCounts (.stage 7 0)) s (fun x s1 => decide (x = (1, 2, 0) ∧ s1 = s)) = true := by decide +kernel

theorem test_hyp_BrickLoads :
    let s := vectors
    let c := s.ctx s.cur
    let loads (k : Nat) (b : Src) (e : Nat) : M Unit := do
      let (v, fl) ← loadElem c (s.formOf k b) 32 .f32 .rne (eaSum 32 (eaOf data.toNat 32) (s.self.elemOffset (s.formOf k b) e)) e
      raiseFlags fl e
      modMe (·.setElem 6 e (BitVec.ofNat 64 v))
    isTyped s .f32 = true ∧ full s [1, 2, 3, 4, 5, 6] = true ∧ fullB s [4, 6] = true ∧ s.self.activeFrom false 0 = [0, 1] ∧
    baseAligned data.toNat 32 = true ∧ baseAligned (data.toNat + 2) 32 = false ∧
    runsAllTo (loads 0 (r 0)) [0, 1] s (fun _ => true) = true ∧ runsAllTo (loads 1 (r 3)) [0, 1] s (fun _ => true) = true ∧
    runsAllTo (loads 2 (r 4)) [0, 1] s (fun _ => true) = true ∧ runsAllTo (loads 3 (r 4)) [0, 1] s (fun _ => true) = true ∧
    inWindow window.toNat = true ∧ windowTarget (coreOf s.cur) window.toNat = some (0, 0) ∧ 0 + s.self.vl * 4 ≤ 2 ^ 20 ∧
    (s.core 0).spOwner = s.self.tenant ∧ (s.core 0).comb = [] ∧ s.badWords = [] ∧ window.toNat % 4 = 0 ∧ s.self.vl ≤ 8192 := by
  decide +kernel
theorem test_hyp_BrickStores :
    let s := vectors
    let c := s.ctx s.cur
    let ea (k : Nat) (b : Src) (e : Nat) : Nat := eaSum 32 (eaOf data.toNat 32) (s.self.elemOffset (s.formOf k b) e)
    let meets (k : Nat) (b : Src) : Bool := runsTo ([0, 1].foldlM (fun (acc : List (Nat × Nat × Ahead)) e => do
        return acc ++ [(e, ea k b e, ← lookAhead c (s.formOf k b) 32 .f32 e (ea k b e))]) []) s fun ahead s1 =>
      (upToFault (ahead.map (fun y => (y.1, y.2.2)))).all (fun y => !y.2.scaled) &&
      runsAllTo (fun e => storeElem c (s.formOf k b) 32 .f32 .rne 5 e (ea k b e)) [0, 1] s1 fun _ => true
    isTyped s .f32 = true ∧ full s [1, 2, 3, 4, 5, 6] = true ∧ fullB s [4, 5] = true ∧ s.self.activeFrom false 0 = [0, 1] ∧
    meets 0 (r 0) = true ∧ meets 1 (r 3) = true ∧ meets 2 (r 4) = true ∧ meets 3 (r 4) = true ∧ s.self.mode .rne true ≠ .rsr ∧
    windowTarget (coreOf s.cur) window.toNat = some (0, 0) ∧ (s.core 0).spOwner = s.self.tenant ∧ (s.core 0).comb = [] ∧
    s.badWords = [] ∧ s.self.vl ≤ 8192 := by decide +kernel
theorem test_hyp_BrickAtomicsUpdate :
    let s := vectors
    let c := s.ctx s.cur
    isTyped s .i32 = true ∧ full s [1] = true ∧ fullB s [4, 5, 6] = true ∧ s.self.activeFrom false 0 = [0, 1] ∧
    ({ vectors with seqs := [(0, { vectors.self with vl := 0 })] }).self.activeFrom false 0 = [] ∧
    runsTo (offerAll (fun e => offerVamo c 4 (s.self.atomicVa 32 data.toNat 4 e) e (performs true true) ⟨0, 1, 0⟩) [0, 1]) s (fun x s1 =>
      x.2 == none && runsTo (performOrder x.1) s1 fun l s2 => runsAllTo (fun x => do
        let old ← match x.done with
          | some old => pure old
          | none => performAtomic c x.place 4 (fun old => some ((old + 1) % 2 ^ 32)) kRmw x.va x.elem
        modMe (·.setElem 6 x.elem (BitVec.ofNat 64 old))) l s2 fun _ => true) = true := by decide +kernel
theorem test_hyp_ScatterAccumulates :
    let s := vectors
    let e (l : Nat) : CombEntry := ⟨l, 0, 32, [5], .none, 0⟩
    isTyped s .i32 = true ∧ full s [2] = true ∧ fullB s [4, 5] = true ∧ s.self.activeFrom false 0 = [0, 1] ∧
    runsTo (offerAll (fun e => offerAtomic (s.ctx s.cur) kRmw 4 (s.self.atomicVa 32 window.toNat 4 e) e (performs true false)) [0, 1]) s
      (fun x _ => x.2 == none && x.1.all (fun x => x.place.scratch.isSome && !x.place.ic)) = true ∧
    runsTo (offerAll (fun e => offerAtomic (s.ctx s.cur) kRmw 4 (s.self.atomicVa 32 data.toNat 4 e) e (performs true false)) [0, 1]) s
      (fun x _ => x.2 == none && x.1.all (fun x => x.place.scratch.isNone && !x.place.ic)) = true ∧
    (let s := mappedBy 0x08000000000242B3 s.self
     let c := s.ctx s.cur
     runsTo (offerAll (fun e => offerAtomic c kRmw 4 (s.self.atomicVa 32 data.toNat 4 e) e (performs true false)) [0, 1]) s fun y s1 =>
      y.2 == none && y.1.all (fun x => x.place.ic) && runsAllTo (fun x => do
        modify fun s => (y.1.filter (fun z => decide (z.elem < x.elem) && !z.place.ic)).foldl (fun s z => settle z.place.loc 4 s) s
        let _ ← performAtomic c x.place 4 (fun old => some (atomicOp 0 32 old 5)) kRmw x.va x.elem) y.1 s1 fun _ => true) = true ∧
    ([e 8].all (fun x => !x.covers 8 4 || decide (x.loc = 8 ∧ x.op = 0 ∧ x.width = 32 ∧ x.mat = .none))) = true ∧
    ([e 8].all (fun x => !x.covers 12 4)) = true ∧ 0 < (e 12).bytes ∧
    ((List.range 64).map (fun i => e (4 * i))).all (fun x => !x.covers 1024 4) = true := by decide +kernel
theorem test_hyp_LinksAndConditionalStores :
    let s := { vectors with seqs := [(0, { vectors.self with vl := 1 })] }
    let c := s.ctx s.cur
    let offers (kind : Nat) := offerAll (fun e => offerAtomic c kind 4 (s.self.atomicVa 32 data.toNat 4 e) e (performs false false)) [0]
    isTyped s .i32 = true ∧ full s [1] = true ∧ fullB s [4, 5, 6] = true ∧ s.self.activeFrom false 0 = [0] ∧
    baseAligned data.toNat 32 = true ∧
    runsTo (offers kWatch) s (fun x s1 => x.2 == none && runsAllTo (fun x => do
        gatherWords c x.place 4 kWatch x.va x.elem
        modify (recallLine (x.place.loc / 128))
        let v := (← get).valueUnder x.place.mat x.place.loc 4
        forEach (wordsOf x.place.loc 4) fun w => modify (dropUnreg c.core w)
        modify fun s => s.modCore c.core (·.addLink (x.place.loc / 128) c.seq s.cycle)
        modMe (·.setElem 6 x.elem (BitVec.ofNat 64 v))) x.1 s1 fun _ => true) = true ∧
    (s.core 0).links.length ≤ 64 ∧ ({ vectors with seqs := [(0, { vectors.self with vl := 0 })] }).self.activeFrom false 0 = [] ∧
    runsTo (offers kRmw) s (fun x s1 => x.2 == none && match x.1 with
      | [y] => y.elem == 0 && s1.cur == s.cur && !(settle y.place.loc 4 s1).linked s.cur (y.place.loc / 128)
      | _ => false) = true ∧
    (let t := after (.glink ⟨6, r 1, r 4, r 0, no, no, false, 0, .i32, .rne, 0⟩) s
     full t [1] = true ∧ fullB t [4, 5] = true ∧
     runsTo (offerAll (fun e => offerAtomic (t.ctx t.cur) kRmw 4 (t.self.atomicVa 32 data.toNat 4 e) e (performs false false)) [0]) t fun x s1 =>
      x.2 == none && match x.1 with
      | [y] => let s2 := settle y.place.loc 4 s1
        y.elem == 0 && s1.cur == t.cur && s2.linked t.cur (y.place.loc / 128) && y.place.scratch.isNone &&
          ends (gatherWords (t.ctx t.cur) y.place 4 kRmw y.va 0) s2
      | _ => false) = true := by decide +kernel
theorem test_hyp_VwaitWatchesWords :
    let s := { vectors with seqs := [(0, { vectors.self with vl := 0 })] }
    let e : WaitEntry := ⟨0, 0, data.toNat, 3, 64, 32, false, 0, 5, .none, false, true⟩
    let t := { vectors with seqs := [(0, { vectors.self with wait := some (.vwait 1 7) })], cores := [(0, { waits := [(0, e)] })] }
    isTyped s .i32 = true ∧ full s [1, 7] = true ∧ fullB s [4, 5] = true ∧ s.self.wait = none ∧ s.self.activeFrom false 0 = [] ∧
    s.self.estart.toNat ≤ s.self.vl ∧ t.self.wait = some (.vwait 1 7) ∧ full t [7] = true ∧
    (t.core (coreOf t.cur)).waits.all (fun x => !(x.2.seq == t.cur && !x.2.fired)) = true ∧
    NMap.get? (t.core 0).waits 0 = some e := by decide +kernel
theorem test_hyp_CacheMaintenance :
    let s := paged (running [(1, data), (2, 64), (3, 0x100000), (4, 192)])
    let size (b : DWord) : Nat := Min.min (data.toNat + b.toNat) (2 ^ 56) - data.toNat
    full s [0, 1, 2, 3, 4] = true ∧ s.self.scalar 5 = 0 ∧ 512 * 1024 < size 0x100000 ∧ (64 : DWord) ≠ 0 ∧ size 64 ≤ 512 * 1024 ∧
    ends (extentOf data.toNat (data.toNat + 64 - 1)) s = true ∧ s.self.priv = true ∧ ((drainCore 0 s).unacked 0).isNone = true ∧ (s.self.scalar 2).toNat ≤ 191 ∧
    191 < (s.self.scalar 4).toNat := by decide +kernel
theorem test_hyp_TlbInstructions :
    let s := paged (running [(1, data)])
    s.self.priv = true ∧ full s [1, 2, 3] = true ∧ ((0 : BitVec 10).extractLsb' 4 3).toNat = 0 ∧
    mayRel s .dev = true ∧ (s.released .dev).engines = [] ∧ (s.released .dev).hostOps = [] ∧ (s.released .dev).tiles = [] ∧
    ((0x10 : BitVec 10).extractLsb' 4 3).toNat = 1 ∧ ((0x20 : BitVec 10).extractLsb' 4 3).toNat = 2 ∧ s.self.scalar 1 ≠ 0 ∧ ((0x30 : BitVec 10).extractLsb' 4 3).toNat = 3 ∧ s.self.scalar 3 = 0 ∧
    runsTo (probe (s.ctx s.cur) kRead data.toNat) s (fun x t => x.toOption.isSome && full t [3]) = true ∧
    runsTo (probe (s.ctx s.cur) kRead 0) s (fun x t => !x.toOption.isSome && full t [3]) = true := by decide +kernel
theorem test_hyp_ReservationInstructions :
    let s := paged (running [(1, 4), (2, 8), (3, 2), (4, 2000), (5, 2000), (6, 0x8000000000000000), (7, 0), (8, 64), (9, 1)])
    let u := plain
    let s1 := s.released .dev
    let bad (a b c : Nat) : Bool := b == 0 || decide (2 ^ 26 < b) || decide (b < a) || decide (b < c)
    let t := ({ s with resvs := [(0, { cap := 4, limit := 8 })] } : State).released .dev
    full s [0, 1, 2, 3, 4, 5, 6, 7, 8, 9, 10] = true ∧ mayRel s .dev = true ∧ bad 4 0 2 = true ∧ bad 2000 2000 2 = false ∧ 1280 - s1.reserved 0 < 2000 ∧
    bad 4 8 2 = false ∧ 4 ≤ 1280 - s1.reserved 0 ∧ s1.freeResvs 0 ≠ [] ∧
    (u.self.priv = false ∧ mayRel u .dev = true ∧ NMap.getD (u.released .dev).quotas 0 0 < (u.released .dev).heldBy 0 0 + 4) ∧
    ¬(s1.self.priv = false) ∧ (s.self.scalar 6).getLsbD 63 = true ∧ (s.self.scalar 7).getLsbD 63 = false ∧
    (t.resvOf t.self.tenant 0).isSome = true ∧ s1.resvOf s1.self.tenant 0 = none ∧ s.self.priv = true ∧
    (s.self.scalar 8).toNat % 64 = 0 ∧ (s.self.scalar 9).toNat % 64 ≠ 0 := by decide +kernel

theorem get?_const {α : Type} (x : α) (k : Nat) (l : List Nat) (h : k ∈ l) : NMap.get? (l.map fun i => (i, x)) k = some x := by
  induction l with
  | nil => cases h
  | cons a l ih =>
    simp only [List.map_cons, NMap.get?]
    split
    · rfl
    · next hk => exact ih ((List.mem_cons.mp h).resolve_left hk)

/-- With every reservation of a die in use, none is free. -/
theorem test_hyp_ReservationInstructions_none_free (l : NMap Resv) (hl : l = (upFrom 0 1024).map fun i => (i, { cap := 0, limit := 1 })) :
    (({ paged (running []) with resvs := l } : State).released .dev).freeResvs 0 = [] := by
  have h : (({ paged (running []) with resvs := l } : State).released .dev).resvs = l := rfl
  unfold State.freeResvs
  rw [h, hl, List.filter_eq_nil_iff]
  intro k hk
  rw [Nat.mul_zero] at hk
  rw [get?_const _ k _ hk]; simp

/-- The walk above with a level-3 table: page 0 unbacked in reservation 0 with LF, page 1 backed; a frame in the pool of die 0. -/
def tiered (l : NMap DWord) : State :=
  let put (m : Memory) (pa v : Nat) : Memory := m.writeLe (storeLoc pa) 16 v
  { mappedBy 0x0000103000000001 (running l) with
    resvs := [(0, { cap := 4, limit := 8, pages := [3] }), (1, { cap := 4, limit := 8 })]
    dies := [(0, { pool := 0x500000 })]
    mem := put (put (put (put (put (put [] 0x400480 0x0000101000000001) 0x407450 0x0000102000000001) 0x4099E0 0x0000103000000001)
      0x40C000 0x00000030000260B7) 0x40C010 0x00004800000240B3) 0x500000 1 |>.writeLe (storeLoc 0x500040) 8 0x4800010000 }

theorem test_hyp_TierPageLoops :
    let s := tiered [(1, data), (2, 1), (3, data + 0x10000), (4, data + 1), (5, 1)]
    let s1 := s.released .dev
    let c := s1.ctx s1.cur
    let done := { s1 with seqs := [(0, { s1.self with estart := 1 })] }
    full s [0, 1, 2, 3, 4, 5] = true ∧ mayRel s .dev = true ∧ data.toNat % 65536 = 0 ∧ (data + 1).toNat % 65536 ≠ 0 ∧
    s1.self.estart.toNat < Min.min (s.self.scalar 2).toNat (2 ^ 40) ∧ Min.min (s.self.scalar 2).toNat (2 ^ 40) ≤ done.self.estart.toNat ∧
    Min.min (s.self.scalar 0).toNat (2 ^ 40) ≤ s1.self.estart.toNat ∧
    runsTo (pageLeaf c kRmw (pageVa data 0) 0) s1 (fun l s2 => l.pte.kind == 3 && l.pte.lf &&
      ((s2.resvOf c.tenant 1).any fun r => decide (l.pte.frame % 2 ^ 26 < r.limit) && decide (r.pages.length < r.cap)) &&
      ends (checkLines (unbackedLoc 0 0 0) 65536 false l.level kRmw (pageVa data 0) 0 (pure ())) (readyRange (unbackedLoc 0 0 0) 65536 s2) &&
      runsTo (framePage c l kRmw (pageVa data 0) 0) s2 (fun ok _ => ok) &&
      runsTo (framePage c l kRmw (pageVa data 0) 0) { s2 with dies := [] } (fun ok _ => !ok)) = true ∧
    runsTo (pageLeaf c kRmw (pageVa (data + 0x10000) 0) 0) s1 (fun l _ => l.pte.kind != 3) = true ∧
    runsTo (do
        let p ← pageLeaf c kRead (pageVa (data + 0x10000) 0) 0
        let ch ← pageLeaf c kWrite (pageVa data 0) 0
        if p.pte.kind = 3 ∧ p.level = 3 ∧ ch.level = 3 ∧ p.pte.lf = true then
          promote c p kRead (pageVa (data + 0x10000) 0) 0
          return (← pageLeaf c kRead (pageVa (data + 0x10000) 0) 0, ← pageLeaf c kWrite (pageVa data 0) 0)
        else return (p, ch)) s1
      (fun l _ => l.1.level == 3 && l.2.level == 3 && l.1.pte.kind == 1 && !l.1.pte.ic && Pte.scf l.1.pte == 0 && l.2.pte.kind == 3) = true ∧
    runsTo (probe { c with priv := false } kRead data.toNat) s1 (fun _ t => full t [6]) = true ∧ s.self.priv = true := by decide +kernel
theorem test_hyp_LeaseInstructions :
    let s := paged (running [(1, 0x10000), (2, 0x20000), (3, 9), (4, window)])
    let s1 := s.released .dev
    let lent := { s1 with lend := [(0, { st := .lent, base := 0x10000, pages := 1, dev := 9 })] }
    let desc (slot fsize dbw : Nat) : Nat := 9 + 3 * 2 ^ 16 + slot * 2 ^ 24 + 0x100000 * 2 ^ 64 + fsize * 2 ^ 128 + dbw * 2 ^ 192
    let loads (v : Nat) : Bool := runsTo (resolve (s1.ctx s1.cur) .l1 kRead window.toNat 64 0) (withScratch s1 0 64 v) fun x t =>
      runsTo (loadBytes (s1.ctx s1.cur) x.2 64 false kRead window.toNat 0) t fun w u => w == v && full u [7]
    s.self.priv = true ∧ mayRel s .dev = true ∧ full s [1, 2, 3, 4, 7] = true ∧ lendable s1 0x10000 0x20000 0 = true ∧ lendable s1 0x10000 0x20000 9 = false ∧
    s1.lentOut 0x10000 0x20000 = false ∧ lent.lentOut 0x10000 0x20000 = true ∧
    (List.range 128).all (fun i => (NMap.getD s1.lend i {}).st == .free) = true ∧
    ((List.range 128).filter fun i => (NMap.getD ((List.range 128).map fun i => (i, ({ st := .lent } : LendEntry))) i {}).st == .free) = [] ∧
    window.toNat % 64 = 0 ∧ loads (desc 0 0x20000 900) = true ∧ (takeDesc (desc 0 0x20000 900)).reserved = false ∧
    128 ≤ (takeDesc (desc 200 0x20000 900)).slot ∧ NMap.get? s1.offers (256 * 9 + 3) = none ∧
    NMap.get? [(256 * 9 + 3, (0, 2, 1))] (256 * 9 + 3) = some (0, 2, 1) ∧ s1.slotFor (takeDesc (desc 0 0x20000 900)) = some 0 ∧
    ({ s1 with borrow := [(0, { st := .lost })] } : State).slotFor (takeDesc (desc 0 0x20000 900)) = none ∧
    oneRange 0x100000 0x20000 = true ∧ 0x100000 % 65536 = 0 ∧ 2 * 65536 ≤ 0x20000 ∧ ¬2 * 65536 ≤ 0x10000 ∧ minDbw 2 1 = 14 ∧ 13 < minDbw 2 1 ∧
    minDbw 2 1 ≤ 14 ∧ s1.dbwInUse + 14 ≤ 1750 ∧ 1750 < s1.dbwInUse + 1751 ∧
    (lent.entryAt 0).st = .lent ∧ (s1.entryAt 0).st = .free ∧ ({ s1 with lend := [(0, { st := .offered })] } : State).entryAt 0 ≠ {} ∧
    (({ s1 with borrow := [(0, { st := .active })] } : State).slotAt 0).st = .active ∧ (s1.slotAt 0).st ≠ .active ∧
    (({ s1 with borrow := [(0, { st := .demoted })] } : State).slotAt 0).st = .demoted := by decide +kernel

/-- An engine command is accepted, as `State.accepts`. -/
def acceptsTo (c : EngCmd) (s : State) : Bool :=
  ((drainCore (coreOf s.cur) s).unacked (coreOf s.cur)).isNone && runsTo (translateSource c) (drainCore (coreOf s.cur) s) fun src s1 =>
    if !c.memDst then true
    else runsTo (translateDest { c with srcPages := src }) s1 fun l s2 => runsTo (placeDest { c with srcPages := src } l) s2 fun c1 s3 =>
      runsTo (translateSource c1) s3 fun src1 s4 => runsTo (checkDest { c1 with srcPages := src1 }) s4 fun c2 s5 =>
        ends (registerDest s2.nextCmd c2) s5

theorem test_hyp_EngineCommands :
    let s := paged (running [(1, window), (2, 3), (3, 64), (4, data), (5, window + 0x1000)])
    let o : MArgs := ⟨7, r 1, r 2, r 3, .seq, .rlx, 0, 0⟩
    let desc (sva dva : Nat) : Nat := sva + dva * 2 ^ 64 + 64 * 2 ^ 128 + 2 ^ 160 + 2 ^ 192
    let base (kind : EngKind) : EngCmd := { kind := kind, ctx := s.ctx s.cur, d := o.d }
    let walk (kind : EngKind) (v : Nat) : EngCmd := walkOf v { base kind with src := trowelOf 0, started := false }
    let toWindow (v : Nat) : EngCmd := { walk .walk v with branches := [{ core := 0, base := 0x1000 }] }
    let toMemory (v : Nat) : EngCmd := { walk .walk v with memDst := true }
    let fits (c : EngCmd) : Bool := decide (c.memoryPages ≤ 4096) && c.sourceFits && c.branchesFit
    full s [1, 2, 3, 4, 5, 7] = true ∧ window.toNat % 64 = 0 ∧ inScratch 0 (window.toNat + 0x1000) = true ∧ inScratch 0 data.toNat = false ∧
    ((toWindow (desc data.toNat (window.toNat + 0x1000))).branches.all fun b =>
      ((toWindow (desc data.toNat (window.toNat + 0x1000))).coresOf b).all fun k => (s.core k).spOwner == s.self.tenant) = true ∧ (s.walksOf (trowelOf (coreOf s.cur))).length < 16 ∧
    runsTo (resolve (s.ctx s.cur) .l1 kRead window.toNat 64 0) (withScratch s 0 64 (desc data.toNat (window.toNat + 0x1000))) (fun x t =>
      runsTo (loadBytes (s.ctx s.cur) x.2 64 false kRead window.toNat 0) t fun w _ => w == desc data.toNat (window.toNat + 0x1000)) = true ∧
    badWalk 0 (walk .walk 0) = true ∧
    badWalk (desc data.toNat (window.toNat + 0x1000)) (toWindow (desc data.toNat (window.toNat + 0x1000))) = false ∧
    fits (toWindow (desc data.toNat (window.toNat + 0x1000))) = true ∧ acceptsTo (toWindow (desc data.toNat (window.toNat + 0x1000))) s = true ∧
    fits (toMemory (desc window.toNat data.toNat)) = true ∧ badWalk (desc window.toNat data.toNat) (toMemory (desc window.toNat data.toNat)) = false ∧
    acceptsTo (toMemory (desc window.toNat data.toNat)) s = true ∧ (s.core 0).spOwner = s.self.tenant ∧
    acceptsTo { walk .multicast (desc data.toNat 0x1000) with branches := [{ core := 0, base := 0x1000 }, { core := 1, base := 0x1000 }] } s = true ∧
    acceptsTo { base .copy with sva := data.toNat, dva := window.toNat, rowb := 64,
                                branches := [{ core := 0, base := 0, credit := true }] } s = true ∧
    acceptsTo { base .rcopy with sva := data.toNat, dva := 0x1000, rowb := 64, dev := 9 } s = true ∧ s.members 9 ≠ [] ∧ s.members 0xFF01 = [] ∧
    ends (release .dev) s = true ∧ 0x100 + 0x40 ≤ 2 ^ 20 ∧ bits 0x10 4 2 = 1 ∧ 2 ≤ bits 0x20 4 2 := by decide +kernel

/-- A save area in the own window that says format 1, its size, and an ill-formed VTYPE; every other dword 0. -/
def anArea (s : State) : State := withScratch (withScratch (withScratch s 0 8 1) 0x18 8 0xA00) 0x308 8 0x80000000

theorem test_hyp_TasksLaunchesAndContexts :
    let s := { queued with
      seqs := [(0, { queued.self with s := [(1, window), (2, 3)], work := some 0, group := 5, tsave := window })], works := [(0, .task 7 1 0)] }
    let loads (v : Nat) (f : State → Bool) : Bool := runsTo (resolve (s.ctx s.cur) .l1 kRead window.toNat 64 0) (withScratch s 0 64 v) fun x t =>
      runsTo (loadBytes (s.ctx s.cur) x.2 64 false kRead window.toNat 0) t fun w u => w == v && f u
    let good : Nat := 2 ^ 456
    let loadsHead (f : List Nat → State → Bool) : Bool := runsTo (loadRun (s.ctx s.cur) window.toNat 0 0x140) (anArea s) f
    full s [1, 2, 3] = true ∧ s.self.wait = none ∧ s.self.launch = some 7 ∧ s.self.work = some 0 ∧
    loads 0 (fun _ => taskBad 0) = true ∧ loads good (fun _ => !taskBad good) = true ∧
    loads 0 (fun t => let u := t.released .dev
      mayRel t .dev && runsTo (submitLaunch (hiveCtx (dieOf u.cur) (u.ctx u.cur)) (dieOf u.cur) u.self.group 0) u fun _ v => full v [3]) = true ∧
    s.groupHolds s.self.tenant 5 = true ∧ mayRel s .dev = true ∧ groupKey s.self.tenant (s.self.scalar 2).toNat = 3 ∧
    (plain.groupHolds plain.self.tenant 3 || plain.marks.any (fun m => m.2 == 3)) = false ∧
    (let t := { plain with seqs := [(0, { plain.self with wait := some (.cancel 5) })] }
     t.self.wait = some (.cancel 5) ∧ t.cancels.any (fun c => c.1 == 5) = false) ∧
    (plain.self.tsave.extractLsb' 12 44).toNat * 4096 = 0 ∧ (s.self.tsave.extractLsb' 12 44).toNat * 4096 ≠ 0 ∧
    runsTo needSaved s (fun _ s1 =>
      let s2 := s1.modCore (coreOf s1.cur) fun c => { c with links := c.links.filter (fun l => l.seq != s1.cur) }
      runsAllTo (fun x => storeDword (s2.ctx s2.cur) ((window.toNat + 8 * x.2) % 2 ^ 56) x.1)
        (areaDwords s2 s2.cur s2.self 3 s2.self.nextPc).zipIdx s2 fun t => full t [3]) = true ∧
    window.toNat % 4096 = 0 ∧
    loadsHead (fun head t => areaOk head && full t [3] && t.self.priv &&
      runsTo (loadRun (s.ctx s.cur) window.toNat 0x140 0) t fun _ t1 => runsTo (loadRun (s.ctx s.cur) window.toNat 0x140 0) t1 fun _ t3 =>
        full t3 [3] && ends needSaved t3) = true ∧
    runsTo (loadRun (s.ctx s.cur) window.toNat 0 0x140) s (fun head _ => !areaOk head) = true ∧
    plain.engines.any (fun x => x.2.ctx.seq == plain.cur && x.2.kind == .rcopy) = false ∧
    (plain.relov.devno = Config.deviceNumber) ∧
    (let t : State := { st (running [(1, 16), (2, 8), (3, 0xFF00), (4, 24)]) with relov := { devno := 9 } }
     full t [1, 2, 3, 4, 5] = true ∧ (t.self.scalar 4).toNat % 16 ≠ 0 ∧ (t.self.scalar 1).toNat % 16 = 0 ∧
     0xFF00 ≤ (t.self.scalar 3).toNat % 65536 ∧ (t.self.scalar 2).toNat % 65536 ≠ t.relov.devno ∧
     (t.self.scalar 2).toNat % 65536 < 0xFF00) := by decide +kernel
/-- A user's sequencer loads an area whose TSTAT asks for supervisor privilege. -/
theorem test_hyp_TasksLaunchesAndContexts_sneaks :
    let s := withScratch (anArea { vectors with seqs := [(0, { vectors.self with tstat := vectors.self.tstat &&& 0xFFE, s := [(1, window)] })] }) 0x3D8 8 1
    runsTo (loadRun (s.ctx s.cur) window.toNat 0 0x140) s (fun head t =>
      areaOk head && !t.self.priv && (savedCr head 0x1B).getLsbD 0 && full t [3] &&
      runsTo (loadRun (s.ctx s.cur) window.toNat 0x140 0) t fun _ t1 => runsTo (loadRun (s.ctx s.cur) window.toNat 0x140 0) t1 fun _ t3 => full t3 [3])
      = true := by decide +kernel

/-- Spawn requests, one of which names a spawner that still waits, at the Hive of die 0. -/
theorem test_hyp_TasksLaunchesAndContexts_arrival :
    let t : Task := { launch := 7, die := 0, core := 0, entry := 0, args := [], prio := 3, place := 1, wid := 0 }
    let s (w : Option Wait) := { queued with
      seqs := [(0, { queued.self with wait := w })], spawns := [(4, ⟨0, 0, 2, 5, t⟩)], input := .spawnArrival 0 }
    (s none).spawns.find? (fun x => x.2.task.die == 0) = some (4, ⟨0, 0, 2, 5, t⟩) ∧
    (s none).marks.any (fun m => m.1 == 0 && m.2 == 5) = false ∧ (s none).tasksOf 7 0 < 1024 ∧
    NMap.get? (s none).launches 7 = some aLaunch ∧ ((s (some (.spawn 4))).seq 0).wait = some (.spawn 4) ∧
    ((s (some (.spawn 4))).seq 0).live = true ∧ ((s (some (.spawn 4))).seq 0).uid = 0 ∧ ((s none).seq 0).wait ≠ some (.spawn 4) := by
  decide +kernel

theorem test_hyp_BrickShapesMovesAndMasks :
    let s := vectors
    let ill := plain
    full s [1, 2, 3, 7] = true ∧ fullB s [4, 5, 6] = true ∧ runsTo needBricksDone s (fun _ s1 => full s1 [1, 7]) = true ∧
    3 < bits 7 0 3 ∧ ¬(3 < bits 0x1A 0 3 ∨ bits 0x1A 3 3 = 7 ∨ bits 0x1A 6 3 = 7 ∨ bits 0x1A 9 3 = 7) ∧
    full (settleBanks 0 (s.modSeq 0 fun _ => grantBricks s.self 2 3 0 0 8 (s.claims 0) (s.core 0).banks (s.die 0).ln false)) [7] = true ∧
    full (settleBanks 0 s) [7] = true ∧ (0 : BitVec 14).getLsbD 12 = false ∧ (0x1000 : BitVec 14).getLsbD 12 = true ∧
    runsTo (resolve (s.ctx s.cur) .l1 kRead window.toNat 64 0) s (fun x t =>
      runsTo (loadBytes (s.ctx s.cur) x.2 64 false kRead window.toNat 0) t fun v u => full u [7] && haloOk (BitVec.ofNat 512 v)) = true ∧
    haloOk (BitVec.ofNat 512 (2 ^ 511)) = false ∧ window.toNat % 64 = 0 ∧ s.self.vl ≤ 8192 ∧ isTyped s .i32 = true ∧
    isTyped s .i64 = false ∧ isTyped ill .i32 = false ∧ s.self.ill = false ∧ ill.self.ill = true ∧
    (List.range s.self.vl).find? ((s.self.mask 1).getLsbD) = none ∧ (List.range s.self.vl).find? ((s.self.mask 0).getLsbD) = some 0 := by
  decide +kernel
/-- Bricks 4 and 5 with no offset: a zero divisor at element 0, and a signalling NaN there with every flag enabled. -/
theorem test_hyp_ElementArithmetic :
    let s := vectors
    let t := { vectors with seqs := [(0, { vectors.self with bricks := elems 4 [0x7F800001, 0x7F800001], fsr := 0x3E0 })] }
    let q := s.self
    isTyped s .i32 = true ∧ isTyped s .f32 = true ∧ (q.reachRegs 5 no).all (fun r => !q.isEmpty .brick (BitVec.ofNat 6 r)) = true ∧
    fullB s [4, 5, 6] = true ∧ q.activeFrom false 0 = [0, 1] ∧ q.reachesMem 5 no = false ∧
    q.readAt .i32 5 no 0 = some 3 ∧ q.readAt .i32 5 no 1 = some 4 ∧ q.readAt .i32 4 no 0 = some 0 ∧ q.readAt .i32 4 no 1 = some 1 ∧
    (3 : Nat) ≠ 0 ∧ q.enables = 0 ∧ (fpAdd .fp32 3 0 .rne).2 &&& q.enables = 0 ∧
    (fpAdd .fp32 0x7F800001 0 .rne).2 &&& t.self.enables ≠ 0 ∧ t.self.readAt .f32 4 no 0 = some 0x7F800001 ∧
    q.mode .rne false ≠ .rsr ∧
    runsAllTo (elementStep (s.ctx s.cur) q ⟨6, r 5, r 4, r 0, no, no, false, 0, .i32, .rne, 0⟩ (.brick 4 no) false .rne
      (fun x y _ _ => pure ((x + y) % 2 ^ 32, 0)) (fun e v => modMe (·.setElem 6 e (BitVec.ofNat 64 v)))) [0, 1] s (fun _ => true) = true := by
  decide +kernel
/-- A configuration with FP8 operands in the own window, 64 columns of K, and no epilogue. -/
def configured : State := { vectors with
  seqs := [(0, { vectors.self with
    s := [(1, window), (2, 0), (3, window + 0x4000)], mtcfg := 0x8000000000000000, tcfg := (3 ||| 0x10 <<< 8 ||| 3 <<< 16 ||| 0x10 <<< 24 ||| 1 <<< 32) <<< 256 })] }

theorem test_hyp_QuantisingReductionsAndMatrix :
    let s := configured
    let q := s.self
    let cfg := Cfg.of q.tcfg
    let v16 (n : Nat) := { vectors with seqs := [(0, { vectors.self with vl := n, vtype := 0x10022 })] }
    let o : VArgs := ⟨6, r 5, r 4, r 0, no, no, false, 0, .f32, .rne, 4⟩
    let addrs : StepAddrs := { a := window.toNat, b := 0, asc := 0, bsc := 0 }
    isTyped (v16 16) .f32 = true ∧ fullB (v16 16) [4, 5, 6, 7] = true ∧ (v16 16).self.estart.toNat % 16 = 0 ∧
    runsAllTo (quantGroup o .rne) (upFrom 0 1) (v16 16) (fun _ => true) = true ∧ (v16 16).self.vl % 16 = 0 ∧
    runsAllTo (quantGroup o .rne) (upFrom 0 1) (v16 20) (fun _ => true) = true ∧ (v16 20).self.vl % 16 ≠ 0 ∧
    isTyped s .i32 = true ∧ (q.reachRegs 5 no).all (fun r => !q.isEmpty .brick (BitVec.ofNat 6 r)) = true ∧ q.reachesMem 5 no = false ∧
    q.readAt .f32 5 no 0 = some 3 ∧ q.readAt .f32 5 no 1 = some 4 ∧ q.vl ≠ 0 ∧ (v16 0).self.vl = 0 ∧
    (orderedSum .fp32 .rne 0 0 ⟨0, none⟩ [3, 4]).2.trap = none ∧ (orderedSum .fp32 .rne 0x1F 0 ⟨0, none⟩ [0x7F800001]).2.trap ≠ none ∧
    full s [1, 2, 3, 7] = true ∧ Cfg.reason cfg = none ∧ Cfg.reason (Cfg.of (2 ^ 511)) = some 1 ∧
    runsTo (resolve (s.ctx s.cur) .l1 kRead window.toNat 64 0) s (fun x t =>
      runsTo (loadBytes (s.ctx s.cur) x.2 64 false kRead window.toNat 0) t fun v u =>
        full u [7] && decide (Cfg.reason (Cfg.of (BitVec.ofNat 512 v)) = some 2)) = true ∧
    plain.self.mtcfg.getLsbD 63 = false ∧ q.mtcfg.getLsbD 63 = true ∧
    (stepOperands s 0 q.tenant cfg addrs).toOption = none ∧
    (stepOperands s 0 q.tenant cfg { addrs with b := window.toNat + 0x4000 }).toOption.isSome = true ∧ s.badWords = [] ∧
    (List.range 192).all (fun k => decide ((s.core k).comb = [])) = true ∧
    s.emptyReg .acc 0 = false ∧ s.emptyReg .acc 1 = false ∧
    ({ s with cores := [(0, { acc0 := { full := false, writer := some 0 } })] } : State).stepUnderWay 0 = true ∧
    runsTo (needBias cfg) s (fun bias t => decide (bias = none) && decide (coreOf t.cur = 0) && full t [7] && drainRefused cfg 0 63 2 window.toNat &&
      !drainRefused cfg 0 2 1 (window.toNat + 0x4000) && !drainRefused cfg 0 2 1 data.toNat && (biasBad t bias).isNone &&
      [window.toNat + 0x4000, data.toNat].all fun dst =>
        let rows := (drainRows t cfg bias [] 2 1 dst 0).1
        runsTo (drainIssue (s.ctx s.cur) cfg dst rows) t fun leaves u1 =>
          runsTo (drainRun 0 bias cfg.bias dst (drainMemory none (drainReady (s.ctx s.cur) leaves)) rows) u1 fun x u => decide (x.1 = 1) && x.2.isNone && full u [7]) = true := by
  decide +kernel
/-- With a BIAS array in the own window, one word of which has an uncorrectable error. -/
theorem test_hyp_QuantisingReductionsAndMatrix_bias :
    let s := { configured with badWords := [scratchLoc 0 0x8004], seqs := [(0, { configured.self with
      tcfg := configured.self.tcfg ||| (BitVec.ofNat 512 (window.toNat + 0x8000) <<< 384) })] }
    let cfg := Cfg.of s.self.tcfg
    let dst := window.toNat + 0x4000
    runsTo (needBias cfg) s (fun bias t => biasBad t bias == some 1 && s.self.mtcfg.getLsbD 63 && isTyped s .i32 &&
      runsTo (drainIssue (s.ctx s.cur) cfg dst (drainRows t cfg bias [] 2 1 dst 0).1) t fun leaves u1 =>
        runsTo (drainRun 0 bias cfg.bias dst (drainMemory none (drainReady (s.ctx s.cur) leaves)) (drainRows t cfg bias [] 2 1 dst 0).1) u1 fun x u =>
          decide (x.1 = 0) && (x.2.map (·.1) == some 0x28) && full u [7]) = true := by decide +kernel

theorem test_hyp_HomesCachesAndWakings :
    let e : CombEntry := ⟨scratchLoc 0 0, 0, 32, [5], .none, 0⟩
    let w (host fired : Bool) : WaitEntry := ⟨0, 0, window.toNat, 0, scratchLoc 0 0, 32, false, 0, 5, .none, host, fired⟩
    let core (c : Core) : State := { plain with cores := [(0, c)] }
    let waits (x : Wait) : State := paged { running [(2, -1)] with wait := some x }
    let full' := { waits (.fget data.toNat 3 false none) with mem := (waits (.fget data.toNat 3 false none)).mem.writeLe (storeLoc 0x2000000000) 16 (2 ^ 64 + 7) }
    let cmd : EngCmd := { kind := .walk, ctx := plain.ctx 0, ptag := 2, rowb := 64, branches := [{ core := 1, base := 0x100 }], started := false }
    let take (p : Permit) : State := { plain with engines := [(4, cmd)], cores := [(1, { permits := [(2, p)] })] }
    let b : Branch := { core := 1, base := 0x100 }
    NMap.getD ({ plain with homeComb := [(3, [e])] } : State).homeComb 3 [] = e :: [] ∧ (3 < 160) ∧ ((core { comb := [e] }).core 0).comb = e :: [] ∧
    NMap.get? ((core { waits := [(2, w false true)] }).core 0).waits 2 = some (w false true) ∧ (w false true).fired = true ∧
    (let t : State := { core {} with seqs := [(0, { running [] with wait := some (.vwait 1 3) })] }
     (t.core 0).waitsOf 0 = [] ∧ (t.seq 0).wait = some (.vwait 1 3) ∧
     runsTo (endVwait 1 3 true) { t with cur := 0 } (fun _ u => u.cur == 0) = true) ∧
    ((core { waits := [(2, w false true), (3, w false false)] }).core 0).waitsOf 0 ≠ [] ∧
    NMap.get? ((core { waits := [(2, w true false)] }).core 0).waits 2 = some (w true false) ∧ (w true false).host = true ∧
    (⟨9, 0, 5⟩ : Link).born + 65536 ≤ 65541 ∧ ([⟨9, 0, 5⟩] : List Link)[0]? = some ⟨9, 0, 5⟩ ∧
    0 + 16384 ≤ ({ plain with cycle := 16384 } : State).cycle ∧ plain.cycle < 0 + 16384 ∧
    isHost (128 * (storeLoc 0x8000000000000 / 128)) = true ∧ isHost (128 * (storeLoc 0x4000 / 128)) = false ∧
    ({ plain with functions := [(0, { barBase := 0, barSize := 0x10000 })] } : State).hdmLine (storeLoc 0x4000 / 128) = true ∧
    plain.hdmLine (storeLoc 0x4000 / 128) = false ∧ plain.hdmOpen (storeLoc 0x4000 / 128) 1 = false ∧
    plain.takesHost (storeLoc 0x4000 / 128) = true ∧
    plain.takesHost (storeLoc 0x8000000000000 / 128) = true ∧
    ({ plain with lines := [(storeLoc 0x4000 / 128, { e := 1 })] } : State).takesHost (storeLoc 0x4000 / 128) = false ∧
    (let s := waits (.bwait data.toNat 5 .dev)
     runsTo (sampleLine false) s (fun x t => !x && decide (t = s)) && runsTo (tryBwait data.toNat 5 .dev) s fun ok t => !ok && t.cur == 0) = true ∧
    (let s := waits (.bwait data.toNat (-1) .dev)
     runsTo (tryBwait data.toNat (-1) .dev) s fun ok t => ok && t.cur == 0) = true ∧
    runsTo (tryFget data.toNat 3 false none) full' (fun ok t => ok && t.cur == 0) = true ∧
    runsTo (tryFget data.toNat 3 false none) (waits (.fget data.toNat 3 false none)) (fun ok t => !ok && t.cur == 0) = true ∧
    runsTo (wfeDone 5 true) (waits (.wfe 5 true)) (fun ok t => ok && t.cur == 0) = true ∧
    runsTo (wfeDone 5 false) (waits (.wfe 5 false)) (fun ok t => !ok && t.cur == 0) = true ∧
    runsTo (evwaitDone false 0 none) plain (fun ok u => ok && runsTo (endEvwait false 3) u fun _ t => t.cur == 0) = true ∧
    runsTo (evwaitDone false 1 none) plain (fun ok u => !ok && u.cur == 0) = true ∧
    (st { running [] with sEmpty := 16, outst := [(.scalar, 4, 0)] }).self.standing .scalar 4 = true ∧
    cmd.branches.find? (fun b => b.core == 1) = some b ∧ cmd.stop = none ∧ (take ⟨0, 0x1000, 3⟩).mayStart 4 cmd = true ∧ b.credit = false ∧
    b.open' cmd.total = true ∧ cmd.within b.base cmd.dpitch cmd.dplane 0 0x1000 = true ∧
    cmd.within b.base cmd.dpitch cmd.dplane 0 0x20 = false ∧
    ((take ⟨0, 0x1000, 3⟩).core 1).spOwner = cmd.ctx.tenant ∧ 0 < (NMap.getD ((take ⟨0, 0x1000, 3⟩).core 1).permits 2 {}).credits ∧
    plain.idle 1 = true ∧ (plain.cluster 0).fused = none ∧ ((core { asleep := true }).core 0).asleep = true := by decide +kernel

/-- A leased line not at its home, and a page of a reservation with nothing stored behind it. -/
theorem test_hyp_HomesCachesAndWakings_lender :
    let b : BorrowSlot := { st := .active, pages := 2, ldev := 9 }
    let s : State := { plain with borrow := [(3, b)], resvs := [(0, { cap := 4, limit := 8, pages := [3] })] }
    s.lineHere (leasedLoc 3 0 0) = false ∧ stopsBy (askLender (leasedLoc 3 0 0)) s (fun _ => true) = true ∧
    s.backed (unbackedLoc 0 3 0) = true ∧ s.lineHere (unbackedLoc 0 4 0) = true ∧ s.backed (unbackedLoc 0 4 0) = false := by
  decide +kernel
/-- A home read and written; host windows open to reads and to writes. -/
theorem test_hyp_HomesCachesAndWakings_homes :
    (let s := paged (running [])
     let t := settle 0x4000 4 s
     s.lineHere 0x4000 = true ∧ s.backed 0x4000 = true ∧ t.plainKey 0x4000 = some 0 ∧ homeCheck (some 0) false 0x1000 t = .ok ∧ (t.core (t.holder 0 0x80)).l1Word 0x1000 = none ∧
     (NMap.get? (t.core (t.holder 0 0x80)).l1 0x80).any (fun l => l.key != 0) = false ∧ t.homeAnswers 0x4000 4 = true ∧ s.homeAnswers 0x4000 4 = true ∧
     0x4000 % 128 + 4 ≤ 128 ∧ (wordsOf 0x4000 4).all (fun w => decide (homeCheck (some 0) false w s = .ok)) = true) ∧
    (let host (r w : BitVec 1) : State := { plain with functions := [(0, { barBase := 0, barSize := 0x10000 })], windows :=
      [(2, (1 : BitVec 1) ++ (0 : BitVec 34) ++ (1 : BitVec 2) ++ (0 : BitVec 16) ++ (0 : BitVec 1) ++ w ++ r ++ (0xFF : BitVec 36) ++ (0 : BitVec 36))] }
     (host 1 0).hdmOpen 0x80 1 = true ∧ (host 1 1).hdmOpen 0x80 2 = true ∧ (host 1 0).hdmOpen 0x80 2 = false ∧
     (host 1 0).hdmLine 0x80 = true ∧ (host 0 1).hdmOpen 0x80 1 = false ∧ (host 0 1).hdmLine 0x80 = true ∧
     (host 0 1).takesHost 0x80 = true ∧ (host 1 0).takesHost 0x80 = true ∧ isHost (128 * 0x80) = false) := by
  decide +kernel
/-- A walk from the own window to the scratchpad of core 1; one from the mapped page; a remote copy; a walk with a credited branch. -/
theorem test_hyp_HomesCachesAndWakings_beats :
    let b : Branch := { core := 1, base := 0x100 }
    let cmd : EngCmd := { kind := .walk, ctx := plain.ctx 0, ptag := 2, sva := window.toNat, rowb := 64, branches := [b], started := false }
    let given : EngCmd := { cmd with started := true, rd := 64, buf := List.replicate 64 5, branches := [{ b with credit := true }] }
    let s (c : EngCmd) : State := { plain with engines := [(4, c)] }
    let s' := s given
    let begun (s : State) : State := s.modEngine 4 fun k => { k with started := true }
    let page := paged (running [])
    let c := page.ctx 0
    NMap.get? (s cmd).engines 4 = some cmd ∧ cmd.mayRead = true ∧ (s cmd).mayStart 4 cmd = true ∧ cmd.kind ≠ .rcopy ∧ cmd.sva % 4 = 0 ∧
    (s cmd).badWords = [] ∧ (s cmd).cores = [] ∧ inWindow (cmd.srcVa cmd.rd) = true ∧ cmd.beat / 4 = 16 ∧
    (List.range 16).all (fun i => inWindow (cmd.srcVa (cmd.rd + 4 * i)) &&
      windowTarget cmd.ctx.core (cmd.srcVa (cmd.rd + 4 * i)) == some (0, 4 * i)) = true ∧ ((s cmd).core 0).spOwner = cmd.ctx.tenant ∧
    ends (engineReadRun 4 cmd cmd.rd cmd.beat) (begun (s cmd)) = true ∧
    (runsTo (checkLeaf c .engine kRead data.toNat 4 0 .none) page fun l t =>
      let m (k : EngKind) : EngCmd := { cmd with kind := k, ctx := c, sva := data.toNat, srcPages := [(data.toNat / 65536, (l, t.keyMat (Pte.key l.pte)))] }
      let u (k : EngKind) : State := { t with engines := [(4, m k)] }
      [EngKind.walk, .rcopy].all fun k => (m k).mayRead && ends (engineReadRun 4 (m k) 0 (m k).beat) (begun (u k))) = true ∧
    given.mayRead = false ∧ given.branches = [{ b with credit := true }] ∧ given.stop = none ∧
    ({ b with credit := true } : Branch).open' given.total = true ∧ b.pos < given.rd ∧ s'.cores = [] ∧ s'.badWords = [] ∧
    (s'.core ((given.scratchOf b b.pos - scratchBase) / 2 ^ 20)).spOwner = given.ctx.tenant := by decide +kernel
/-- A copy with its bytes read, whose next word goes to 0x4000 of HBM: not due, out of reach, in a region lent, lost, bad, on a die
out of reach, and written. -/
theorem test_hyp_HomesCachesAndWakings_writes :
    let p : Place := { loc := 0x4000 }
    let c : EngCmd := {
      kind := .copy, ctx := plain.ctx 0, sva := window.toNat, dva := data.toNat, rowb := 64, memDst := true, rd := 64
      buf := List.replicate 64 5, dstPages := [(data.toNat / 65536, p)] }
    let s : State := { plain with engines := [(4, c)] }
    let due (c : EngCmd) : Bool := c.stop.isNone && c.memDst && decide (c.wr + 4 ≤ c.rd)
    let h : Place := { p with loc := 0x8000000004000, plain := true }
    let ans (p : Place) (s : State) : HomeAns := if p.plain then .ok else homeCheck none false (p.loc / 4) s
    (p.plain = false ∧ h.plain = true ∧ isLeased h.loc = false ∧ s.discarded c.ctx.tenant h = false ∧ s.lentOut h.loc 4 = false ∧
      ans h s = .ok ∧ s.bad h.loc 4 = false ∧ s.ownerOf 0x1000 ≠ some (.engine 4) ∧
      ({ s with lines := [(0x80, { e := 1 })] } : State).lineRec 0x80 = { e := 1 }) ∧
    due c = true ∧ due { c with wr := 64 } = false ∧ EngCmd.reaches { c with failAt := some (0, 9) } 0 = false ∧ c.reaches c.wr = true ∧
    c.dstPlace c.wr = some p ∧ s.discarded c.ctx.tenant p = false ∧ isLeased p.loc = false ∧ s.lentOut p.loc 4 = false ∧
    ({ s with lend := [(0, { st := .lent, base := 0, pages := 1 })] } : State).lentOut p.loc 4 = true ∧
    homeCheck none false 0x1000 s = .ok ∧ homeCheck none false 0x1000 { s with lines := [(0x80, { p := 1 })] } = .poisoned ∧
    ({ s with badWords := [0x4000] } : State).bad 0x4000 4 = true ∧ s.bad 0x4000 4 = false ∧ s.dieReachable 0x4000 = true ∧
    ({ s with unreachable := [0] } : State).dieReachable 0x4000 = false ∧ c.wr % 64 = 0 ∧ (4 : Nat) % 64 ≠ 0 := by
  decide +kernel

/-- The launch of `aLaunch` without stages or work, its completion word in the mapped page. -/
def emptyLaunch : Launch := { aLaunch with stages := [] }

/-- A parameter block of one level of one step, its operands and its tile in the own window. -/
def tileBlock : Nat :=
  1 + 64 * 2 ^ 32 + 2 ^ 64 + window.toNat * 2 ^ 832 + (window.toNat + 0x4000) * 2 ^ 896 + (window.toNat + 0x8000) * 2 ^ 960 +
    configured.self.tcfg.toNat * 2 ^ 1152

theorem test_hyp_HivesAndTiles :
    let base := paged (running [])
    let item : Launch := { emptyLaunch with unstarted := [(0, [(0, 1)])], extents := [1], places := [5] }
    let ready : State := { base with launches := [(7, item)] }
    let staged : State := { base with launches := [(7, { aLaunch with started := true })], cycle := 4096 }
    let runningOf (l : Launch) : State := { base with
      seqs := [(0, { base.self with launch := some 7, group := 5 })], launches := [(7, l)] }
    let saved : Saved := { q := { running [] with launch := some 7 }, seq := 8 }
    let r : TileRec := { launch := 7, die := 0, ctx := aLaunch.ctx, uid := 0, opb := 0x0012345678004000, starts := [], utag := 0,
                         waits := [], sigs := [3], place := 5, prio := 2 }
    let tiles (r : TileRec) : State := { base with tiles := [(2, r)] }
    let cancelled : State := { ready with cancels := [(5, 0)] }
    (cancelled.marks.any (fun m => m == (0, 5)) = false ∧
      cancelled.cancels.any (fun c => c.1 == 5 && (c.2 == 0 || cancelled.marks.any (fun m => m == (c.2, 5)))) = true ∧
      runsTo (reclaimGroup 0 5) { cancelled with marks := cancelled.marks ++ [(0, 5)] } (fun _ t => ends (completeGroup 5) t) = true) ∧
    ({ base with launches := [(7, emptyLaunch)] } : State).launchDone 7 emptyLaunch = true ∧
    ends (completeLaunch 7) { base with launches := [(7, emptyLaunch)] } = true ∧
    ends (writeCpl (hiveCtx 0 emptyLaunch.ctx) 0 emptyLaunch.cpl 0 (cplWord 0 emptyLaunch.outcome 0 0)) { base with launches := [(7, emptyLaunch)] } = true ∧
    ends (takeHostRecord 0 0) base = true ∧
    (match ready.bestFor 4 with | some b => ends (takeReady b 4) (notePassed false 4 b ready) | none => false) = true ∧
    (let l : Launch := { item with passed := [(1, 3, 0), (2, 9, 0)] }
     (l.passed.filter (fun x => !(x.1 ∈ l.aged) && decide (x.2.1 + 65536 ≤ 65539))).map (·.1) = [1]) ∧
    base.powered = true ∧ base.mgmt.linkUp = true ∧ ({ base with powered := false } : State).powered = false ∧
    (match bestOf (ready.lanes64 4) true (ready.readyItems 7 item 4 ++ ready.readyTasks 7 item 4) with
      | some b => !(ready.readyFor 4).any (fun a => a.before (ready.lanes64 4) true b) && ends (takeReady b 4) (notePassed true 4 b ready)
      | none => false) = true ∧
    (staged.cycle = 4096 ∧ aLaunch.stages ≠ [] ∧ aLaunch.reviewAt + 4096 ≤ staged.cycle ∧
      runsAllTo (fun x => reviewStage 7 x.2 x.1) aLaunch.stages.zipIdx staged (fun _ => true) = true) ∧
    ((runningOf emptyLaunch).seq 0).live = true ∧ (runningOf emptyLaunch).preemptable 0 = true ∧
    (let s : State := { base with launches := [(7, emptyLaunch)], saved := [(1, saved)] }
     (match (s.readyFor 8).find? (fun a => a.kind == .resume 1) with
      | some b => !(s.readyFor 8).any (fun a => a.before (s.lanes64 8) false b)
      | none => false) = true) ∧
    ((tiles r).tileReady r 0 = true ∧ (tiles r).tiles.any (fun x => (tiles r).tileReady x.2 0 && decide (r.prio < x.2.prio)) = false ∧
      ends (runTile 2 r 0) (tiles r) = true) ∧
    (let done : TileRec := { r with counts := some [1], next := 1, steps := 1, last := some 0 }
     done.stop = none ∧ done.counts = some [1] ∧ done.running = [] ∧ done.total [1] ≤ done.next ∧ done.last = some 0) := by decide +kernel
/-- A record of that launch with a step under way on core 0. -/
def begun (t : TileStep) : TileRec :=
  { launch := 7, die := 0, ctx := aLaunch.ctx, uid := 0, opb := 0x0012345678004000, starts := [], utag := 0, waits := [], sigs := [3],
    place := 5, prio := 2, counts := some [1], next := 1, running := [t] }

/-- Its step in a row group, and the machine that works on it. -/
def stepAt (group : Nat) : TileStep := { index := 0, cmd := 4, core := 0, block := tileBlock, group := group }
def atGroup (t : TileStep) : State := { paged (running []) with tiles := [(2, begun t)] }

/-- What that row group does. -/
def groupOf (t : TileStep) : M Flags := do
  tileGroup ((begun t).ctxOn t.core) (← tileChecks ((begun t).ctxOn t.core) t.block ((begun t).vector ((begun t).counts.getD []) t.index)) t

/-- A fold whose step runs from every state of a kind, to one of that kind, counts the whole list. -/
theorem foldlM_counts {β γ : Type} (step : Nat × Option γ → β → M (Nat × Option γ)) (I : State → Prop)
    (h : ∀ n b s, I s → ∃ t, I t ∧ Runs (step (n, none) b) s (n + 1, none) t) (l : List β) :
    ∀ n s, I s → ∃ t, Runs (l.foldlM step (n, none)) s (n + l.length, none) t := by
  induction l with
  | nil => intro n s _; exact ⟨s, rfl⟩
  | cons b l ih =>
    intro n s hs
    obtain ⟨u, hu, hr⟩ := h n b s hs
    obtain ⟨t, ht⟩ := ih (n + 1) u hu
    refine ⟨t, ?_⟩
    rw [List.foldlM_cons, List.length_cons, Nat.add_comm l.length, ← Nat.add_assoc]
    exact hr.bind ht

/-- With no word bad and no update combined, a drain to a scratchpad runs to its end. -/
theorem drainScratch_runs (core : Nat) (l : List (Nat × List Byte)) (s : State) (hb : s.badWords = [])
    (hc : ∀ k, (s.core k).comb = []) : ∃ t, Runs (drainScratch core l) s (l.length, none) t := by
  have hfind (l : List (Nat × List Byte)) : l.find? (fun _ => false) = none := by rw [List.find?_eq_none]; simp
  have h := foldlM_counts (β := Nat × List Byte) (γ := Nat × Nat) (fun acc r => do
      if acc.2.isSome then return acc
      let (met, s) := scratchRow core r (← get)
      set s
      return match met with
        | none => (acc.1 + 1, none)
        | some va => (acc.1, some (0x28, va))) (fun s => s.badWords = [] ∧ ∀ k, (s.core k).comb = []) (by
    rintro n r s ⟨hb, hc⟩
    have hr : (scratchRow core r s).1 = none ∧ (scratchRow core r s).2.badWords = [] ∧ ∀ k, ((scratchRow core r s).2.core k).comb = [] := by
      unfold scratchRow
      split
      · simp only [settleScratch, hc, List.any_nil, Bool.false_eq_true, if_false, State.bad, hb, hfind]
        exact ⟨trivial, trivial, hc⟩
      · exact ⟨rfl, hb, hc⟩
    refine ⟨_, hr.2, Runs.ite (fun h => absurd h (by simp)) fun _ => (Runs.get s).bind ?_⟩
    dsimp only
    generalize scratchRow core r s = x at hr ⊢
    obtain ⟨a, u⟩ := x
    obtain rfl : a = none := hr.1
    exact (Runs.set s u).bind (Runs.pure _ _)) l 0 s ⟨hb, hc⟩
  rw [Nat.zero_add] at h
  exact h

/-- A row group of that step runs. -/
theorem group_runs (g : Nat) (s : State) (hb : s.badWords = []) (hc : ∀ k, (s.core k).comb = [])
    (h : runsTo (tileChecks ((begun (stepAt g)).ctxOn 0) tileBlock ((begun (stepAt g)).vector [1] 0)) s (fun j u =>
      let dst := Machine.moved j.dst ((8 * g : Nat) * (j.cfg.cpitch : Int))
      u == s && settleOperands j.a j.b s == s && j.bias == none && !drainRefused j.cfg 0 (8 * g) 8 dst && inWindow j.dst &&
        runsTo (needScratch ((begun (stepAt g)).ctxOn 0) dst) s (fun _ u => u == s)) = true) :
    ∃ f t, Runs (groupOf (stepAt g)) s f t := by
  obtain ⟨j', u, hr, he⟩ := (runsTo_iff _ _ _).1 h
  simp only [Bool.and_eq_true, beq_iff_eq, Bool.not_eq_true'] at he
  obtain ⟨⟨⟨⟨⟨rfl, hs⟩, hj⟩, hd⟩, hw⟩, hn⟩ := he
  obtain ⟨_, u', hn, he'⟩ := (runsTo_iff _ _ _).1 hn
  rw [beq_iff_eq] at he'
  subst he'
  obtain ⟨t, ht⟩ := drainScratch_runs 0 (drainRows u' j'.cfg j'.bias (rowGroup (stepMemory u' j'.a j'.b) j'.a j'.b g []).1 (8 * g) 8
    (Machine.moved j'.dst ((8 * g : Nat) * (j'.cfg.cpitch : Int))) j'.cfg.cpitch).1 u' hb hc
  have hrun (k : List (Nat × List Byte) → M (Nat × Option (Nat × Nat))) (l : List (Nat × List Byte))
      (h : Runs (drainScratch 0 l) u' (l.length, none) t) : Runs (drainRun 0 j'.bias j'.biasVa j'.dst k l) u' (l.length, none) t := by
    unfold drainRun
    refine (Runs.get _).bind ?_
    rw [hj]
    exact Runs.ite (fun _ => h) fun h' => absurd hw h'
  refine ⟨(rowGroup (stepMemory u' j'.a j'.b) j'.a j'.b g []).2 ||| (drainRows u' j'.cfg j'.bias
    (rowGroup (stepMemory u' j'.a j'.b) j'.a j'.b g []).1 (8 * g) 8 (Machine.moved j'.dst ((8 * g : Nat) * (j'.cfg.cpitch : Int))) j'.cfg.cpitch).2,
    t, ?_⟩
  refine Runs.bind (m := tileChecks _ _ _) hr ?_
  unfold tileGroup
  refine (Runs.modify _ _).bind ?_
  rw [hs]
  refine (Runs.get _).bind ?_
  have hg : groupBad u' j'.a j'.b j'.addrs (stepAt g).group = none := by unfold groupBad; rw [if_pos hb]
  dsimp only
  rw [hg]
  refine Runs.ite (fun h' => absurd h' (by rw [Bool.not_eq_true]; exact hd)) fun _ => Runs.ite (fun _ => hn.bind ?_) fun h' => absurd hw h'
  exact (hrun _ _ ht).bind (Runs.pure _ _)

/-- A step under way on core 0: in its first and in its last row group, and one whose block stops it; and a record stopped. -/
theorem test_hyp_HivesAndTiles_groups :
    (∀ g ∈ [0, 7], ∃ f t, Runs (groupOf (stepAt g)) (atGroup (stepAt g)) f t) ∧
    (let bad : TileStep := { stepAt 0 with block := 0 }
     [stepAt 0, stepAt 7, bad].all (fun t => (begun t).stepOn 0 == some t && (atGroup t).tileReady (begun t) 0 &&
       !(atGroup t).tiles.any (fun x => (atGroup t).tileReady x.2 0 && decide ((begun t).prio < x.2.prio))) = true ∧
     stopsBy (groupOf bad) (atGroup bad) (fun e => match e with | .trap _ => true | _ => false) = true ∧
     (begun bad).running ≠ [] ∧ (stepAt 0).group < 7 ∧ 7 ≤ (stepAt 7).group ∧ stepAt 0 ∈ (begun (stepAt 0)).running ∧
     (let stopped : TileRec := { begun bad with running := [], last := some 0, stop := some (0x28, 0, 5) }
      stopped.running = [] ∧ stopped.stop = some (0x28, 0, 5) ∧ stopped.last = some 0)) := by
  refine ⟨fun g hg => ?_, by decide +kernel⟩
  rcases List.mem_cons.mp hg with rfl | hg
  · exact group_runs 0 _ rfl (fun _ => rfl) (by decide +kernel)
  · obtain rfl := List.mem_singleton.mp hg
    exact group_runs 7 _ rfl (fun _ => rfl) (by decide +kernel)

theorem test_hyp_LeasesLinksAndGateway :
    let lend (e : LendEntry) : State := { plain with lend := [(3, e)] }
    let borrow (b : BorrowSlot) : State := { plain with borrow := [(3, b)] }
    let pull : BorrowSlot := { st := .demoting, pages := 2, fbase := 0x100000 }
    let line := leasedLoc 3 0 0 / 128
    let flit (n : BitVec 16) (ok : Bool) : Flit := { num := n, cls := .req, source := 0, dest := 1, payload := [], crcOk := ok }
    let down : State := { plain with linkStates := [(boundaryKey 0 1, .retraining 5)] }
    let p : Packet := { dst := 0, src := 4, kind := .ack, flow := 0, num := 0, tag := 0, addr := 0, hcrc := 0, rsvd := 0, payload := [], crc := 0, stomp := false }
    let good : Packet := { p with crc := packetCrc p }
    let relov (r : Relov) : State := { plain with cycle := 300, relov := r }
    NMap.getD (lend { st := .offered, dev := 9 }).lend 3 {} = { st := .offered, dev := 9 } ∧
    (NMap.getD (borrow { st := .active }).borrow 3 {}).st = .active ∧ (NMap.getD (lend { st := .lent }).lend 3 {}).st = .lent ∧
    (borrow pull).fallbackLent pull 0 = false ∧
    ({ borrow pull with lend := [(0, { st := .lent, base := 0x100000, pages := 1, dev := 9 })] } : State).fallbackLent pull 0 = true ∧
    pull.nextLine = some 0 ∧ (NMap.get? ({ borrow pull with leasedHere := [(line, ())] } : State).leasedHere line).isSome = true ∧
    NMap.get? (borrow pull).leasedHere line = none ∧ pull.pulling ≠ some 0 ∧ (borrow pull).goingBack line = false ∧ ({ pull with cursor := 2 } : BorrowSlot).pages ≤ 2 ∧
    ({ st := .reclaiming, deadline := some 0 } : LendEntry).st = .reclaiming ∧ 0 ≤ plain.cycle ∧
    diePair 0 1 = true ∧ plain.hopServes 0 1 = true ∧ ((flit 5 true).num.toNat + 65536 - (plain.dir 0 1).expect) % 65536 < 64 ∧
    64 ≤ ((flit 99 true).num.toNat + 65536 - (plain.dir 0 1).expect) % 65536 ∧ (flit 0 false).crcOk = false ∧
    ({ plain with linkStates := [(boundaryKey 0 1, .out)] } : State).hopServes 0 1 = false ∧ plain.boundary 0 1 = .up ∧
    down.boundary 0 1 = .retraining 5 ∧
    runsAllTo (fun x => dropUnreachable x.1 x.2) [(0, 1), (0, 2), (0, 3), (1, 2), (1, 3), (2, 3)]
      (reroute 1 0 (reroute 0 1 (down.setBoundary 0 1 .out))) (fun _ => true) = true ∧
    p.stomp = false ∧ packetOk { good with rsvd := 1 } 0 = false ∧ packetOk good 0 = true ∧ ends (receivePacket good) plain = true ∧
    plain.relov.recv.all (fun x => x.1 % 2 ^ 20 != flowKey 4 0) = true ∧
    (let s := relov { recv := [(recvKey 4 0 0, {})] }
     (s.relov.recv.map (·.1)).filter (fun k => k % 2 ^ 20 == flowKey 4 0) = [recvKey 4 0 0] ∧ (s.recvFlow (recvKey 4 0 0)).held = [] ∧
     (s.recvFlow (recvKey 4 0 0)).ackAt + 256 ≤ s.cycle) ∧
    NMap.get? (relov { send := [(flowKey 4 0, {})] }).relov.send (flowKey 4 0) = some {} ∧ NMap.get? plain.relov.cmds 6 = none ∧
    (let c (k : RKind) : RCmd := { kind := k, left := [(4, 1)] }
     NMap.get? (relov { cmds := [(6, c (.arrive 0 3))] }).relov.cmds 6 = some (c (.arrive 0 3)) ∧
     NMap.get? (relov { cmds := [(6, c (.data 2))] }).relov.cmds 6 = some (c (.data 2)) ∧ (NMap.get? (c (.data 2)).left 4).isSome = true) ∧
    (relov { send := [(flowKey 4 0, { unacked := [{ pkt := p, sent := 16, first := 0, last := 0 }] })] }).pathBad 4 =
      decide (16 ≤ 16 ∧ 0 + 8192 ≤ 300) ∧
    ({ relov { send := [(flowKey 4 0, { unacked := [{ pkt := p, sent := 16, first := 0, last := 0 }] })] } with cycle := 9000 } : State).pathBad 4 = true ∧
    (let g : GwEntry := { pa := 0x4000, add := true, value := 5, born := 0 }
     let s : State := relov { comb := [g] }
     let t := settleRange 0x4000 8 s
     let ans (s : State) : List HomeAns := (wordsOf 0x4000 8).map fun w => homeCheck none false w s
     plain.relov.comb[0]? = none ∧ s.relov.comb[0]? = some g ∧ t.bad 0x4000 8 = false ∧ ans t = [.ok, .ok] ∧
     ({ t with badWords := [0x4000] } : State).bad 0x4000 8 = true ∧
     ans (settleRange 0x4000 8 { s with lines := [(0x80, { p := 1 })] }) = [.poisoned, .ok] ∧
     ans (settleRange 0x4000 8 { s with lines := [(0x80, { e := 1 })] }) = [.held, .ok]) := by decide +kernel

theorem reviewDie_runs (d : Nat) (s : State) : ∃ t, Runs (reviewDie d) s () t := by
  have hk : Runs freshFree s s.freeCtr { s with freeCtr := s.freeCtr + 1 } := rfl
  by_cases h : s.powered = true
  · by_cases hl : lanesAllowed (Config.hottest d s.freeCtr) = 0
    · exact ⟨_, Runs.bind hk (Runs.bind (Runs.get _) (Runs.ite (fun _ => Runs.ite (fun _ => Runs.modify _ _) fun h' => absurd hl h') fun h' => absurd h h'))⟩
    · exact ⟨_, Runs.bind hk (Runs.bind (Runs.get _) (Runs.ite (fun _ => Runs.ite (fun h' => absurd h' hl) fun _ => Runs.modify _ _) fun h' => absurd h h'))⟩
  · exact ⟨_, Runs.bind hk (Runs.bind (Runs.get _) (Runs.ite (fun h' => absurd h' h) fun _ => Runs.pure _ _))⟩

/-- What a power review reads is free, so that one can always run is shown for every state. -/
theorem test_hyp_HostPowerAndManagement_review (s : State) : ∃ t, RunsAll reviewDie (List.range 4) s t := by
  obtain ⟨a, ha⟩ := reviewDie_runs 0 s
  obtain ⟨b, hb⟩ := reviewDie_runs 1 a
  obtain ⟨c, hc⟩ := reviewDie_runs 2 b
  obtain ⟨d, hd⟩ := reviewDie_runs 3 c
  exact ⟨d, a, ha, b, hb, c, hc, d, hd, rfl⟩

theorem test_hyp_HostPowerAndManagement :
    let up : State := { paged (running []) with functions := [(0, { barBase := 0x10000, barSize := 0x1000 })], windows :=
      [(2, (1 : BitVec 1) ++ (0 : BitVec 34) ++ (1 : BitVec 2) ++ (0 : BitVec 16) ++ (7 : BitVec 3) ++ (0xFF : BitVec 36) ++ (0 : BitVec 36))] }
    up.hostUp = true ∧ (0 : Nat) < 64 ∧ ends (controlRead 0 0 8) up = true ∧
    up.barPlace 0 0x10 8 kRead = some 0x10010 ∧ up.barPlace 0 0x2000 8 kRead = none ∧ up.barPlace 0 0x10 8 kWrite = some 0x10010 ∧
    up.barPlace 0 0x10 8 kRmw = some 0x10010 ∧ up.barPlace 0 0x2000 8 kWrite = none ∧
    runsTo (outsideReady 0x10010 8) up (fun ok _ => ok) = true ∧ completes .fetchAdd 8 = true ∧ 0x10010 % 8 = 0 ∧
    (let op : HostRequest := ⟨0, 1, 0x8000000000000, 8, 0, 5, 0⟩
     let o : SentOp := { req := op, ctx := plain.ctx 0, uid := 0, va := 0 }
     let s (w : Option Wait) : State := { st { running [] with wait := w } with hostOps := [o] }
     plain.hostOps.find? (fun o => o.ctx.seq == 0) = none ∧ (s none).hostOps.find? (fun o => o.ctx.seq == 0) = some o ∧
     [true, false].all (fun ok => [some (.host op), none].all fun w =>
       let u : State := { s w with hostOps := (s w).hostOps.erase o }
       let r := if ok then hostPerforms op u else (0, u)
       (r.2.seq 0).uid == o.uid && (r.2.seq 0).wait == w) = true) ∧ 0 + 1024 ≤ ({ up with cycle := 1024 } : State).cycle ∧
    0 + 1050000 ≤ ({ up with cycle := 1050000 } : State).cycle ∧ up.powered = true ∧
    up.mgmtUp = true ∧ up.mgmt.pendingMgmt = false ∧
    ({ up.mgmt with pendingMgmt := true } : Mgmt).pendingMgmt = true ∧ ({ healthBy := some 5 } : Mgmt).healthBy = some 5 ∧
    (let down : State := { up with mgmt := { up.mgmt with restartUntil := some 9 } }
     down.mgmtUp = false ∧ down.mgmt.linkUp = true ∧ down.powered = true ∧ ({ up with powered := false } : State).powered = false) ∧
    (flushHeld { up with mgmt := { up.mgmt with session := true } }).mgmt.session = true ∧ (flushHeld up).mgmt.session = false ∧
    (flushHeld up).cycle < (flushHeld up).mgmt.powerAt + 1050000 ∧
    (flushHeld up).mgmt.powerAt + 1050000 ≤ (flushHeld { up with cycle := 1050000 }).cycle ∧
    up.mgmt.linkUp = true ∧ NMap.get? up.functions 1 = none := by decide +kernel

/-- Bring-up fails at its first step where every key of the chains of both management images is revoked. Whether it succeeds rests on
free values of the model, so the other case has no state that shows it. -/
theorem test_hyp_HostPowerAndManagement_refused_image (c k : Nat) :
    (bringUp { revoked := (Config.chainKeys []).getD [] } false c k).failedStep = some 1 := by
  have h (m : Mgmt) (i : Image) (hm : m.revoked = (Config.chainKeys []).getD []) (hi : i.chain = []) : m.accepts i = false := by
    unfold Mgmt.accepts
    rw [hi]
    cases hk : Config.chainKeys [] with
    | none => rfl
    | some keys => cases keys <;> simp [hm, hk]
  have hf (m : Mgmt) (hm : m.revoked = (Config.chainKeys []).getD []) (hs : m.slots = []) : m.firstAccepted = none := by
    unfold Mgmt.firstAccepted
    rw [List.find?_eq_none]
    intro i _
    rw [h m _ hm (by unfold Mgmt.image; rw [hs]; rfl)]; simp
  unfold bringUp
  simp only
  rw [hf _ rfl rfl]

/-- A page that may be fetched from, with a line at its first address. -/
def fetching (pc : Pc) (line : CodeLine) : State :=
  let s := mappedBy 0x0800000000004053 { phase := .running, pc := pc }
  { s with turns := [.seq 0], mem := s.mem.writeLe (storeLoc 0x2000000000) 64 line.toNat }

theorem test_hyp_StepRunsDecoded :
    let pc : Pc := data.setWidth 56
    let here (s : State) : State := { s with cur := 0, turns := [] }
    let l : LineSnap := ⟨lineOf pc, 0x30010001⟩
    let entered : State := { st { running [] with pc := pc, line := some l } with turns := [.seq 0] }
    let stops (s : State) (f : Stop → Bool) : Bool := match fetchLine.run.run s with | (.error e, _) => f e | _ => false
    let found : Trap := { cause := 0x10, tval := 7, estart := some 0 }
    let trapping : State := { st { running [] with pc := pc, line := some l, wait := some (.trapping found) } with turns := [.seq 0] }
    (decide (trapping.self.wait = some (.trapping found)) && !trapping.epochDue && decide (trapping.departures = []) &&
      decide (entered.self.wait = none) && decide ((here entered).self.line.any (fun l => l.addr == lineOf (here entered).self.pc)) &&
      entered.powered && !entered.epochDue && decide (entered.departures = []) && decide ((entered.seq 0).phase = .running) && !(entered.seq 0).preempt &&
      runsTo fetchLine (here entered) (fun x t => decide (x = l ∧ t = here entered)) && decide (l.addr = lineOf (here entered).self.pc) &&
      (decodeAt l.code 0).toOption.isSome && (decodeAt 0x00000001 0).toOption.isNone &&
      (here (fetching pc 0)).self.line.isNone &&
      runsTo (readLine ((here (fetching pc 0)).ctx 0) data.toNat) (here (fetching pc 0)) (fun c _ => !c.wellFormed) &&
      runsTo (readLine ((here (fetching (pc + 5) 0x30010001)).ctx 0) data.toNat) (here (fetching (pc + 5) 0x30010001))
        (fun c _ => c.wellFormed && decide (c.heads ≤ indexOf (pc + 5))) &&
      runsTo (readLine ((here (fetching pc 0x30010001)).ctx 0) data.toNat) (here (fetching pc 0x30010001))
        (fun c _ => c.wellFormed && decide (indexOf pc < c.heads)) &&
      stops (here (fetching pc 0)) (fun e => match e with | .trap t => t.cause == 2 | _ => false) &&
      stops { here (fetching pc 0) with seqs := [(0, { (fetching pc 0).self with pc := 0 })] } (fun e => match e with
        | .trap t => t.cause == 8 | _ => false)) = true := by decide +kernel
theorem test_hyp_MemoryStaysCanonical : plain.mem.wf = true ∧
    (match step { plain with turns := [.seq 1] } with | .next t => t.mem.wf | _ => false) = true := by decide +kernel
theorem test_hyp_EncodeThenDecode : wellFormed (.add ⟨3, r 1, r 2, 0⟩) = true ∧
    encode (.add ⟨3, r 1, r 2, 0⟩) = some (0x060C, 0x41000) := by decide +kernel
theorem test_hyp_DecodeThenEncode : (0x41000 : BitVec 64).toNat < 2 ^ (8 * tailBytes (headTl 0x060C)) ∧
    decode 0x060C 0x41000 = .ok (.add ⟨3, r 1, r 2, 0⟩) := ⟨by decide +kernel, rfl⟩
theorem test_hyp_EveryInstructionAnswers : plain.powered = true ∧ ({ plain with powered := false, turns := [.seq 0] } : State).powered = false := by
  decide +kernel
theorem test_hyp_RegisterInstructionsFrame : encode (.add ⟨3, r 1, r 2, 0⟩) = some (0x060C, 0x41000) ∧
    ((0x060C : BitVec 16).extractLsb' 10 6).toNat ∈ [1, 2, 3, 4, 5, 6] ∧
    (match exec (.add ⟨3, r 1, r 2, 0⟩) plain with | .next _ => true | _ => false) = true := by decide +kernel

end Sys2Proof.Tests
end

section
/-! PROOFS. Encoding and decoding undo each other (O57, O58), and words written out decode (O53). -/

namespace Sys2Proof

/-- Whatever a table of minor codes (R40) answers is encoded with the table's major, tail class and X, the minor code, and the
operands it was given; `dst` is their first register and `pack` writes the tail. -/
def TableEncodes {α : Type} (g : Nat → α → Option Instr) (m : BitVec 6) (tl x : BitVec 2) (dst : α → Reg)
    (pack : BitVec 8 → α → BitVec 64) : Prop :=
  ∀ n o i, g n o = some i → encode i = some (packHead m tl (dst o) x, pack (BitVec.ofNat 8 n) o)

/-! The instructions that share a minor code share its encoding. -/

theorem encode_cwrOf (o : RArgs) : encode (cwrOf o) = some (packHead 0x0C 2 o.d 0, packR 0x01 o) := by
  unfold cwrOf
  split <;> rfl

theorem encode_flctxOf (o : RArgs) : encode (flctxOf o) = some (packHead 0x16 2 o.d 0, packR 0x02 o) := by
  unfold flctxOf
  split <;> rfl

theorem encode_resvOf (o : MArgs) : encode (resvOf o) = some (packHead 0x17 3 o.d 0, packM 0x00 o) := by
  unfold resvOf
  split <;> rfl

theorem encode_lretOf (o : MArgs) : encode (lretOf o) = some (packHead 0x17 3 o.d 0, packM 0x13 o) := by
  unfold lretOf
  split <;> rfl

theorem encode_arriveOf (o : SArgs) : encode (arriveOf o) = some (packHead 0x19 2 o.d 0, packS 0x03 o) := by
  unfold arriveOf
  split <;> rfl

theorem encode_vsetOf (o : MArgs) : encode (vsetOf o) = some (packHead 0x20 3 o.d 0, packM 0x00 o) := by
  unfold vsetOf
  split <;> rfl

theorem encode_mdrainOf (o : MArgs) : encode (mdrainOf o) = some (packHead 0x30 3 o.d 0, packM 0x05 o) := by
  unfold mdrainOf
  split <;> rfl

/-! Each table, row by row. -/

theorem minor01x0_encodes : TableEncodes minor01x0 0x01 2 0 RArgs.d packR := by
  intro n o i h
  unfold minor01x0 at h
  split at h <;> cases h <;> rfl

theorem minor02x0_encodes : TableEncodes minor02x0 0x02 2 0 IArgs.d packI := by
  intro n o i h
  unfold minor02x0 at h
  split at h <;> cases h <;> rfl

theorem minor04x0_encodes : TableEncodes minor04x0 0x04 2 0 FArgs.d packF := by
  intro n o i h
  unfold minor04x0 at h
  split at h <;> cases h <;> rfl

theorem minor06x1_encodes : TableEncodes minor06x1 0x06 2 1 RArgs.d packR := by
  intro n o i h
  unfold minor06x1 at h
  split at h
  · cases h; rfl
  · cases h

theorem minor06x2_encodes : TableEncodes minor06x2 0x06 2 2 RArgs.d packR := by
  intro n o i h
  unfold minor06x2 at h
  split at h
  · cases h; rfl
  · cases h

theorem minor09x1_encodes : TableEncodes minor09x1 0x09 2 1 RArgs.d packR := by
  intro n o i h
  unfold minor09x1 at h
  split at h <;> cases h <;> rfl

theorem minor0Ax0_encodes : TableEncodes minor0Ax0 0x0A 2 0 RArgs.d packR := by
  intro n o i h
  unfold minor0Ax0 at h
  split at h <;> cases h <;> rfl

theorem minor0Bx0_encodes : TableEncodes minor0Bx0 0x0B 2 0 RArgs.d packR := by
  intro n o i h
  unfold minor0Bx0 at h
  split at h <;> cases h <;> rfl

theorem minor0Cx0_encodes : TableEncodes minor0Cx0 0x0C 2 0 RArgs.d packR := by
  intro n o i h
  unfold minor0Cx0 at h
  split at h <;> cases h
  · rfl
  · exact encode_cwrOf o
  · rfl
  · rfl
  · rfl
  · rfl

theorem minor12x0_encodes : TableEncodes minor12x0 0x12 3 0 VArgs.d packV := by
  intro n o i h
  unfold minor12x0 at h
  split at h <;> cases h <;> rfl

theorem minor13x0_encodes : TableEncodes minor13x0 0x13 3 0 VArgs.d packV := by
  intro n o i h
  unfold minor13x0 at h
  split at h <;> cases h <;> rfl

theorem minor14x0_encodes : TableEncodes minor14x0 0x14 2 0 AArgs.d packA := by
  intro n o i h
  unfold minor14x0 at h
  split at h <;> cases h <;> rfl

theorem minor15x0_encodes : TableEncodes minor15x0 0x15 3 0 VArgs.d packV := by
  intro n o i h
  unfold minor15x0 at h
  split at h <;> cases h <;> rfl

theorem minor16x0_encodes : TableEncodes minor16x0 0x16 2 0 RArgs.d packR := by
  intro n o i h
  unfold minor16x0 at h
  split at h <;> cases h
  · rfl
  · rfl
  · exact encode_flctxOf o

theorem minor17x0_encodes : TableEncodes minor17x0 0x17 3 0 MArgs.d packM := by
  intro n o i h
  unfold minor17x0 at h
  split at h <;> cases h
  · exact encode_resvOf o
  · rfl
  · rfl
  · rfl
  · rfl
  · rfl
  · rfl
  · rfl
  · rfl
  · rfl
  · exact encode_lretOf o

theorem minor18x0_encodes : TableEncodes minor18x0 0x18 2 0 RArgs.d packR := by
  intro n o i h
  unfold minor18x0 at h
  split at h <;> cases h <;> rfl

theorem minor19x0_encodes : TableEncodes minor19x0 0x19 2 0 SArgs.d packS := by
  intro n o i h
  unfold minor19x0 at h
  split at h <;> cases h
  · rfl
  · rfl
  · rfl
  · exact encode_arriveOf o
  · rfl
  · rfl

theorem minor1Ax0_encodes : TableEncodes minor1Ax0 0x1A 3 0 MArgs.d packM := by
  intro n o i h
  unfold minor1Ax0 at h
  split at h <;> cases h <;> rfl

theorem minor1Bx0_encodes : TableEncodes minor1Bx0 0x1B 2 0 RArgs.d packR := by
  intro n o i h
  unfold minor1Bx0 at h
  split at h <;> cases h <;> rfl

theorem minor20x0_encodes : TableEncodes minor20x0 0x20 3 0 MArgs.d packM := by
  intro n o i h
  unfold minor20x0 at h
  split at h <;> cases h
  · exact encode_vsetOf o
  · rfl
  · rfl

theorem minor21x0_encodes : TableEncodes minor21x0 0x21 3 0 VArgs.d packV := by
  intro n o i h
  unfold minor21x0 at h
  split at h <;> cases h <;> rfl

theorem minor22x0_encodes : TableEncodes minor22x0 0x22 2 0 RArgs.d packR := by
  intro n o i h
  unfold minor22x0 at h
  split at h <;> cases h <;> rfl

theorem minor23x0_encodes : TableEncodes minor23x0 0x23 3 0 VArgs.d packV := by
  intro n o i h
  unfold minor23x0 at h
  split at h <;> cases h <;> rfl

theorem minor24x0_encodes : TableEncodes minor24x0 0x24 3 0 VArgs.d packV := by
  intro n o i h
  unfold minor24x0 at h
  split at h <;> cases h <;> rfl

theorem minor25x0_encodes : TableEncodes minor25x0 0x25 3 0 VArgs.d packV := by
  intro n o i h
  unfold minor25x0 at h
  split at h <;> cases h <;> rfl

theorem minor26x0_encodes : TableEncodes minor26x0 0x26 3 0 VArgs.d packV := by
  intro n o i h
  unfold minor26x0 at h
  split at h <;> cases h <;> rfl

theorem minor27x0_encodes : TableEncodes minor27x0 0x27 3 0 VArgs.d packV := by
  intro n o i h
  unfold minor27x0 at h
  split at h <;> cases h <;> rfl

theorem minor28x0_encodes : TableEncodes minor28x0 0x28 3 0 VArgs.d packV := by
  intro n o i h
  unfold minor28x0 at h
  split at h <;> cases h <;> rfl

theorem minor30x0_encodes : TableEncodes minor30x0 0x30 3 0 MArgs.d packM := by
  intro n o i h
  unfold minor30x0 at h
  split at h <;> cases h
  · rfl
  · rfl
  · rfl
  · rfl
  · rfl
  · exact encode_mdrainOf o

/-! From a table to the words of a major. -/

theorem decodeMinor_eq_ok {α : Type} {f : α → Option Instr} {o : Option α} {i : Instr} (h : decodeMinor f o = .ok i) :
    ∃ a, o = some a ∧ f a = some i := by
  unfold decodeMinor at h
  split at h
  · next a =>
    refine ⟨a, rfl, ?_⟩
    unfold orError at h
    split at h <;> cases h
    assumption
  · cases h

/-- What a table of minor codes decodes is encoded as the word it was read from, if packing the operands read gives the tail. -/
theorem encode_of_decodeMinor {α : Type} {g : Nat → α → Option Instr} {m : BitVec 6} {tl x : BitVec 2} {dst : α → Reg}
    {pack : BitVec 8 → α → BitVec 64} {n : BitVec 8} {o : Option α} {d : Reg} {t : BitVec 64} {i : Instr}
    (hg : TableEncodes g m tl x dst pack) (hp : ∀ {a}, o = some a → pack n a = t ∧ dst a = d)
    (h : decodeMinor (g n.toNat) o = .ok i) : encode i = some (packHead m tl d x, t) := by
  obtain ⟨a, ho, ha⟩ := decodeMinor_eq_ok h
  obtain ⟨rfl, rfl⟩ := hp ho
  rw [hg _ _ _ ha, BitVec.ofNat_toNat, BitVec.setWidth_eq]

theorem packR_of_unpackR {d : Reg} {t : BitVec 64} {o : RArgs} (h : t.toNat < 2 ^ 32) (u : some (unpackR d t) = some o) :
    packR (t.extractLsb' 24 8) o = t ∧ o.d = d := by
  obtain rfl := Option.some.inj u
  exact ⟨packR_unpackR d h, rfl⟩

theorem packI_of_unpackI {d : Reg} {t : BitVec 64} {o : IArgs} (h : t.toNat < 2 ^ 32) (u : some (unpackI d t) = some o) :
    packI (t.extractLsb' 24 8) o = t ∧ o.d = d := by
  obtain rfl := Option.some.inj u
  exact ⟨packI_unpackI d h, rfl⟩

/-- A body without a minor code: its instruction is encoded with the tail it packs. -/
theorem encode_of_ok {i j : Instr} {h : BitVec 16} {t t' : BitVec 64} (hb : (.ok j : Except DecodeError Instr) = .ok i)
    (e : encode j = some (h, t')) (ht : t' = t) : encode i = some (h, t) := by
  cases hb
  rw [e, ht]

/-- A tail of class 0 holds nothing. -/
theorem tail_eq_zero {t : BitVec 64} (h : t.toNat < 2 ^ (8 * tailBytes Form.none.tl)) : 0 = t :=
  (BitVec.eq_of_toNat_eq (Nat.lt_one_iff.1 h)).symm

/-- A head without operands whose D must be 0 (R339). -/
theorem encode_of_zeroD {i j : Instr} {m : BitVec 6} {x : BitVec 2} {d : Reg} {t : BitVec 64}
    (e : encode j = some (packHead m 0 0 x, 0)) (hl : t.toNat < 2 ^ (8 * tailBytes Form.none.tl))
    (h : (if d == 0 then .ok j else .error .illFormed : Except DecodeError Instr) = .ok i) :
    encode i = some (packHead m 0 d x, t) := by
  split at h
  · next hd =>
    obtain rfl := beq_iff_eq.1 hd
    exact encode_of_ok h e (tail_eq_zero hl)
  · cases h

/-- The heads of major 0x0C, X = 1, are told apart by D alone. -/
theorem encode_of_system {i : Instr} {d : Reg} {t : BitVec 64} (hl : t.toNat < 2 ^ (8 * tailBytes Form.none.tl))
    (h : decodeBody 0x0C 1 d t = .ok i) : encode i = some (packHead 0x0C 0 d 1, t) := by
  have hd (k : Reg) (hk : d.toNat = k.toNat) : k = d := BitVec.eq_of_toNat_eq hk.symm
  simp only [decodeBody] at h
  split at h
  · next hk => obtain rfl := hd 0 hk; exact encode_of_ok h rfl (tail_eq_zero hl)
  · next hk => obtain rfl := hd 1 hk; exact encode_of_ok h rfl (tail_eq_zero hl)
  · next hk => obtain rfl := hd 2 hk; exact encode_of_ok h rfl (tail_eq_zero hl)
  · next hk => obtain rfl := hd 3 hk; exact encode_of_ok h rfl (tail_eq_zero hl)
  · cases h

/-- A load or store has its order, scope and type in place of a minor code (R41). -/
theorem encode_of_access {i : Instr} {c : LArgs → Instr} {m : BitVec 6} {d : Reg} {t : BitVec 64}
    (e : ∀ o, encode (c o) = some (packHead m 2 o.d 0, packL o)) (hl : t.toNat < 2 ^ 32)
    (h : (do return c (← orError .reservedValue (unpackL d t)) : Except DecodeError Instr) = .ok i) :
    encode i = some (packHead m 2 d 0, t) := by
  cases u : unpackL d t with
  | none => rw [u] at h; cases h
  | some o =>
    rw [u] at h
    obtain ⟨hp, rfl⟩ := packL_unpackL hl u
    exact encode_of_ok h (e o) hp

/-- `lea` packs its displacement and head as they stand in the tail (R21). -/
theorem lea_tail {t : BitVec 64} (h : t.toNat < 2 ^ 32) : (t.extractLsb' 5 27 ++ t.extractLsb' 0 5 : BitVec 32).setWidth 64 = t := by
  have hj : t.extractLsb' 5 27 ++ t.extractLsb' 0 5 = t.extractLsb' 0 32 := field_join t rfl
  rw [hj]
  exact low32 h

/-- What the body of a word decodes to is encoded as that word: one case for each assigned major and X (R40). -/
theorem encode_of_decodeBody {maj x : Nat} {f : Form} {d : Reg} {t : BitVec 64} {i : Instr} (hf : formOf maj x = some f)
    (hl : t.toNat < 2 ^ (8 * tailBytes f.tl)) (hb : decodeBody maj x d t = .ok i) :
    encode i = some (packHead (BitVec.ofNat 6 maj) f.tl d (BitVec.ofNat 2 x), t) := by
  unfold formOf at hf
  split at hf <;> cases hf
  · exact encode_of_decodeMinor minor01x0_encodes (packR_of_unpackR hl) hb
  · exact encode_of_decodeMinor minor02x0_encodes (packI_of_unpackI hl) hb
  · exact encode_of_ok hb rfl (low32 hl)
  · exact encode_of_ok hb rfl rfl
  · exact encode_of_ok hb rfl (lea_tail hl)
  · exact encode_of_decodeMinor minor04x0_encodes (packF_unpackF hl) hb
  · exact encode_of_ok hb rfl (packB_unpackB d hl)
  · exact encode_of_ok hb rfl (packB_unpackB d hl)
  · exact encode_of_ok hb rfl (packB_unpackB d hl)
  · exact encode_of_decodeMinor minor06x1_encodes (packR_of_unpackR hl) hb
  · exact encode_of_decodeMinor minor06x2_encodes (packR_of_unpackR hl) hb
  · exact encode_of_ok hb rfl (packB_unpackB d hl)
  · exact encode_of_zeroD rfl hl hb
  · exact encode_of_zeroD rfl hl hb
  · exact encode_of_ok hb rfl (packIs_unpackIs d hl)
  · exact encode_of_ok hb rfl (packB_unpackB d hl)
  · exact encode_of_decodeMinor minor09x1_encodes (packR_of_unpackR hl) hb
  · exact encode_of_decodeMinor minor0Ax0_encodes (packR_of_unpackR hl) hb
  · exact encode_of_decodeMinor minor0Bx0_encodes (packR_of_unpackR hl) hb
  · exact encode_of_decodeMinor minor0Cx0_encodes (packR_of_unpackR hl) hb
  · exact encode_of_system hl hb
  · exact encode_of_access (fun _ => rfl) hl hb
  · exact encode_of_access (fun _ => rfl) hl hb
  · exact encode_of_decodeMinor minor12x0_encodes packV_unpackV hb
  · exact encode_of_decodeMinor minor13x0_encodes packV_unpackV hb
  · exact encode_of_decodeMinor minor14x0_encodes (packA_unpackA hl) hb
  · exact encode_of_decodeMinor minor15x0_encodes packV_unpackV hb
  · exact encode_of_decodeMinor minor16x0_encodes (packR_of_unpackR hl) hb
  · exact encode_of_decodeMinor minor17x0_encodes packM_unpackM hb
  · exact encode_of_decodeMinor minor18x0_encodes (packR_of_unpackR hl) hb
  · exact encode_of_decodeMinor minor19x0_encodes (packS_unpackS hl) hb
  · exact encode_of_decodeMinor minor1Ax0_encodes packM_unpackM hb
  · exact encode_of_decodeMinor minor1Bx0_encodes (packR_of_unpackR hl) hb
  · exact encode_of_decodeMinor minor20x0_encodes packM_unpackM hb
  · exact encode_of_decodeMinor minor21x0_encodes packV_unpackV hb
  · exact encode_of_decodeMinor minor22x0_encodes (packR_of_unpackR hl) hb
  · exact encode_of_decodeMinor minor23x0_encodes packV_unpackV hb
  · exact encode_of_decodeMinor minor24x0_encodes packV_unpackV hb
  · exact encode_of_decodeMinor minor25x0_encodes packV_unpackV hb
  · exact encode_of_decodeMinor minor26x0_encodes packV_unpackV hb
  · exact encode_of_decodeMinor minor27x0_encodes packV_unpackV hb
  · exact encode_of_decodeMinor minor28x0_encodes packV_unpackV hb
  · exact encode_of_decodeMinor minor30x0_encodes packM_unpackM hb

/-! The decoder. -/

/-- What a word that decodes has passed (R40 to R43). -/
theorem decode_eq_ok {h : BitVec 16} {t : BitVec 64} {i : Instr} (e : decode h t = .ok i) :
    ∃ f, formOf (h.extractLsb' 10 6).toNat (h.extractLsb' 0 2).toNat = some f ∧ headTl h = f.tl ∧
      decodeBody (h.extractLsb' 10 6).toNat (h.extractLsb' 0 2).toNat (h.extractLsb' 2 6) t = .ok i ∧ wellFormed i = true := by
  simp only [decode] at e
  split at e
  · cases e
  split at e
  · cases e
  next f hf =>
  split at e
  · next ht =>
    split at e
    · next j hb =>
      split at e
      · next hw => cases e; exact ⟨f, hf, ht, hb, hw⟩
      · cases e
    · cases e
  · cases e

/-- Settles O58: the encoder puts back each field that the decoder read, table by table. -/
theorem decodeThenEncode : Obligations.DecodeThenEncode := by
  intro h t i hl e
  obtain ⟨f, hf, ht, hb, hw⟩ := decode_eq_ok e
  rw [ht] at hl
  have he := encode_of_decodeBody hf hl hb
  rw [BitVec.ofNat_toNat, BitVec.setWidth_eq, BitVec.ofNat_toNat, BitVec.setWidth_eq, ← ht, packHead_fields] at he
  exact ⟨hw, he⟩

/-- Settles O57: the round trip of each encoded instruction is a law of its own (Laws/PerInstr); the steps of other agents have no
encoding. -/
theorem encodeThenDecode : Obligations.EncodeThenDecode := by
  intro i
  cases i with
  | add o => exact Laws.RoundTrip.add o
  | sub o => exact Laws.RoundTrip.sub o
  | andB o => exact Laws.RoundTrip.andB o
  | orB o => exact Laws.RoundTrip.orB o
  | xorB o => exact Laws.RoundTrip.xorB o
  | andn o => exact Laws.RoundTrip.andn o
  | shl o => exact Laws.RoundTrip.shl o
  | shr o => exact Laws.RoundTrip.shr o
  | sra o => exact Laws.RoundTrip.sra o
  | mul o => exact Laws.RoundTrip.mul o
  | mulh o => exact Laws.RoundTrip.mulh o
  | mulhn o => exact Laws.RoundTrip.mulhn o
  | div o => exact Laws.RoundTrip.div o
  | divn o => exact Laws.RoundTrip.divn o
  | rem o => exact Laws.RoundTrip.rem o
  | remn o => exact Laws.RoundTrip.remn o
  | min o => exact Laws.RoundTrip.min o
  | max o => exact Laws.RoundTrip.max o
  | minn o => exact Laws.RoundTrip.minn o
  | maxn o => exact Laws.RoundTrip.maxn o
  | slt o => exact Laws.RoundTrip.slt o
  | sltn o => exact Laws.RoundTrip.sltn o
  | clz o => exact Laws.RoundTrip.clz o
  | ctz o => exact Laws.RoundTrip.ctz o
  | popc o => exact Laws.RoundTrip.popc o
  | addi o => exact Laws.RoundTrip.addi o
  | andi o => exact Laws.RoundTrip.andi o
  | ori o => exact Laws.RoundTrip.ori o
  | xori o => exact Laws.RoundTrip.xori o
  | shli o => exact Laws.RoundTrip.shli o
  | shri o => exact Laws.RoundTrip.shri o
  | srai o => exact Laws.RoundTrip.srai o
  | slti o => exact Laws.RoundTrip.slti o
  | sltni o => exact Laws.RoundTrip.sltni o
  | movi d imm => exact Laws.RoundTrip.movi d imm
  | moviW64 d imm => exact Laws.RoundTrip.moviW64 d imm
  | lea d disp head => exact Laws.RoundTrip.lea d disp head
  | fadd o => exact Laws.RoundTrip.fadd o
  | fsub o => exact Laws.RoundTrip.fsub o
  | fmul o => exact Laws.RoundTrip.fmul o
  | ffma o => exact Laws.RoundTrip.ffma o
  | fdiv o => exact Laws.RoundTrip.fdiv o
  | fsqrt o => exact Laws.RoundTrip.fsqrt o
  | fmin o => exact Laws.RoundTrip.fmin o
  | fmax o => exact Laws.RoundTrip.fmax o
  | fcmp o => exact Laws.RoundTrip.fcmp o
  | fcvt o => exact Laws.RoundTrip.fcvt o
  | br o => exact Laws.RoundTrip.br o
  | j o => exact Laws.RoundTrip.j o
  | jl o => exact Laws.RoundTrip.jl o
  | jlr o => exact Laws.RoundTrip.jlr o
  | jr o => exact Laws.RoundTrip.jr o
  | loop o => exact Laws.RoundTrip.loop o
  | endl => exact Laws.RoundTrip.endl
  | brkl => exact Laws.RoundTrip.brkl
  | strip o => exact Laws.RoundTrip.strip o
  | fork o => exact Laws.RoundTrip.fork o
  | rdv o => exact Laws.RoundTrip.rdv o
  | abortLine o => exact Laws.RoundTrip.abortLine o
  | abchk o => exact Laws.RoundTrip.abchk o
  | qpush o => exact Laws.RoundTrip.qpush o
  | qpop o => exact Laws.RoundTrip.qpop o
  | qstat o => exact Laws.RoundTrip.qstat o
  | pset o => exact Laws.RoundTrip.pset o
  | pand o => exact Laws.RoundTrip.pand o
  | por o => exact Laws.RoundTrip.por o
  | pxor o => exact Laws.RoundTrip.pxor o
  | pnot o => exact Laws.RoundTrip.pnot o
  | ptest o => exact Laws.RoundTrip.ptest o
  | csel o => exact Laws.RoundTrip.csel o
  | crd o => exact Laws.RoundTrip.crd o
  | cwr o => exact Laws.RoundTrip.cwr o
  | fsrWrite o => exact Laws.RoundTrip.fsrWrite o
  | estartWrite o => exact Laws.RoundTrip.estartWrite o
  | xlrootWrite o => exact Laws.RoundTrip.xlrootWrite o
  | asidWrite o => exact Laws.RoundTrip.asidWrite o
  | sventryWrite o => exact Laws.RoundTrip.sventryWrite o
  | tstatWrite o => exact Laws.RoundTrip.tstatWrite o
  | trap o => exact Laws.RoundTrip.trap o
  | evpop o => exact Laws.RoundTrip.evpop o
  | ctxsv o => exact Laws.RoundTrip.ctxsv o
  | ctxld o => exact Laws.RoundTrip.ctxld o
  | nop => exact Laws.RoundTrip.nop
  | halt => exact Laws.RoundTrip.halt
  | wfe => exact Laws.RoundTrip.wfe
  | sret => exact Laws.RoundTrip.sret
  | ld o => exact Laws.RoundTrip.ld o
  | st o => exact Laws.RoundTrip.st o
  | vldUnit o => exact Laws.RoundTrip.vldUnit o
  | vldShaped o => exact Laws.RoundTrip.vldShaped o
  | vlds o => exact Laws.RoundTrip.vlds o
  | vldx o => exact Laws.RoundTrip.vldx o
  | vstUnit o => exact Laws.RoundTrip.vstUnit o
  | vstShaped o => exact Laws.RoundTrip.vstShaped o
  | vsts o => exact Laws.RoundTrip.vsts o
  | vstx o => exact Laws.RoundTrip.vstx o
  | amoAdd o => exact Laws.RoundTrip.amoAdd o
  | amoAnd o => exact Laws.RoundTrip.amoAnd o
  | amoOr o => exact Laws.RoundTrip.amoOr o
  | amoXor o => exact Laws.RoundTrip.amoXor o
  | amoMin o => exact Laws.RoundTrip.amoMin o
  | amoMax o => exact Laws.RoundTrip.amoMax o
  | amoMinn o => exact Laws.RoundTrip.amoMinn o
  | amoMaxn o => exact Laws.RoundTrip.amoMaxn o
  | amoSwap o => exact Laws.RoundTrip.amoSwap o
  | amoFaddF32 o => exact Laws.RoundTrip.amoFaddF32 o
  | amoFaddBf16 o => exact Laws.RoundTrip.amoFaddBf16 o
  | cas o => exact Laws.RoundTrip.cas o
  | cas2 o => exact Laws.RoundTrip.cas2 o
  | vamoAdd o => exact Laws.RoundTrip.vamoAdd o
  | vamoAnd o => exact Laws.RoundTrip.vamoAnd o
  | vamoOr o => exact Laws.RoundTrip.vamoOr o
  | vamoXor o => exact Laws.RoundTrip.vamoXor o
  | vamoMin o => exact Laws.RoundTrip.vamoMin o
  | vamoMax o => exact Laws.RoundTrip.vamoMax o
  | vamoMinn o => exact Laws.RoundTrip.vamoMinn o
  | vamoMaxn o => exact Laws.RoundTrip.vamoMaxn o
  | vamoSwap o => exact Laws.RoundTrip.vamoSwap o
  | vamoFaddF32 o => exact Laws.RoundTrip.vamoFaddF32 o
  | vamoFaddBf16 o => exact Laws.RoundTrip.vamoFaddBf16 o
  | glink o => exact Laws.RoundTrip.glink o
  | scond o => exact Laws.RoundTrip.scond o
  | saccAdd o => exact Laws.RoundTrip.saccAdd o
  | saccAnd o => exact Laws.RoundTrip.saccAnd o
  | saccOr o => exact Laws.RoundTrip.saccOr o
  | saccXor o => exact Laws.RoundTrip.saccXor o
  | saccMin o => exact Laws.RoundTrip.saccMin o
  | saccMax o => exact Laws.RoundTrip.saccMax o
  | saccMinn o => exact Laws.RoundTrip.saccMinn o
  | saccMaxn o => exact Laws.RoundTrip.saccMaxn o
  | saccFaddF32 o => exact Laws.RoundTrip.saccFaddF32 o
  | saccFaddBf16 o => exact Laws.RoundTrip.saccFaddBf16 o
  | vwait o => exact Laws.RoundTrip.vwait o
  | skim o => exact Laws.RoundTrip.skim o
  | wbr o => exact Laws.RoundTrip.wbr o
  | flctx o => exact Laws.RoundTrip.flctx o
  | flctxAll o => exact Laws.RoundTrip.flctxAll o
  | tlbinv o => exact Laws.RoundTrip.tlbinv o
  | tlbprobe o => exact Laws.RoundTrip.tlbprobe o
  | resvNew o => exact Laws.RoundTrip.resvNew o
  | resvUse o => exact Laws.RoundTrip.resvUse o
  | resvQuota o => exact Laws.RoundTrip.resvQuota o
  | resvPool o => exact Laws.RoundTrip.resvPool o
  | unresv o => exact Laws.RoundTrip.unresv o
  | disc o => exact Laws.RoundTrip.disc o
  | umig o => exact Laws.RoundTrip.umig o
  | promo o => exact Laws.RoundTrip.promo o
  | tstat o => exact Laws.RoundTrip.tstat o
  | cfork o => exact Laws.RoundTrip.cfork o
  | loffer o => exact Laws.RoundTrip.loffer o
  | ltake o => exact Laws.RoundTrip.ltake o
  | lrecl o => exact Laws.RoundTrip.lrecl o
  | lretRet o => exact Laws.RoundTrip.lretRet o
  | lretFree o => exact Laws.RoundTrip.lretFree o
  | fence o => exact Laws.RoundTrip.fence o
  | phase o => exact Laws.RoundTrip.phase o
  | bwait o => exact Laws.RoundTrip.bwait o
  | arrive o => exact Laws.RoundTrip.arrive o
  | arriveRemote o => exact Laws.RoundTrip.arriveRemote o
  | arriveLeave o => exact Laws.RoundTrip.arriveLeave o
  | arriveJoin o => exact Laws.RoundTrip.arriveJoin o
  | fput o => exact Laws.RoundTrip.fput o
  | fget o => exact Laws.RoundTrip.fget o
  | twk o => exact Laws.RoundTrip.twk o
  | twkm o => exact Laws.RoundTrip.twkm o
  | grant o => exact Laws.RoundTrip.grant o
  | copy o => exact Laws.RoundTrip.copy o
  | rcopy o => exact Laws.RoundTrip.rcopy o
  | evwait o => exact Laws.RoundTrip.evwait o
  | spawn o => exact Laws.RoundTrip.spawn o
  | cancel o => exact Laws.RoundTrip.cancel o
  | done o => exact Laws.RoundTrip.done o
  | yieldSeq o => exact Laws.RoundTrip.yieldSeq o
  | launch o => exact Laws.RoundTrip.launch o
  | vset o => exact Laws.RoundTrip.vset o
  | vsetFree o => exact Laws.RoundTrip.vsetFree o
  | bfield o => exact Laws.RoundTrip.bfield o
  | bhalo o => exact Laws.RoundTrip.bhalo o
  | vmov o => exact Laws.RoundTrip.vmov o
  | vbcast o => exact Laws.RoundTrip.vbcast o
  | vslide o => exact Laws.RoundTrip.vslide o
  | vtrans o => exact Laws.RoundTrip.vtrans o
  | vcomp o => exact Laws.RoundTrip.vcomp o
  | vexp o => exact Laws.RoundTrip.vexp o
  | vins o => exact Laws.RoundTrip.vins o
  | vext o => exact Laws.RoundTrip.vext o
  | vgath o => exact Laws.RoundTrip.vgath o
  | mand o => exact Laws.RoundTrip.mand o
  | mor o => exact Laws.RoundTrip.mor o
  | mxor o => exact Laws.RoundTrip.mxor o
  | mnot o => exact Laws.RoundTrip.mnot o
  | mpopc o => exact Laws.RoundTrip.mpopc o
  | mfirst o => exact Laws.RoundTrip.mfirst o
  | miota o => exact Laws.RoundTrip.miota o
  | mset o => exact Laws.RoundTrip.mset o
  | vadd o => exact Laws.RoundTrip.vadd o
  | vsub o => exact Laws.RoundTrip.vsub o
  | vmul o => exact Laws.RoundTrip.vmul o
  | vmulh o => exact Laws.RoundTrip.vmulh o
  | vdiv o => exact Laws.RoundTrip.vdiv o
  | vrem o => exact Laws.RoundTrip.vrem o
  | vmin o => exact Laws.RoundTrip.vmin o
  | vmax o => exact Laws.RoundTrip.vmax o
  | vabs o => exact Laws.RoundTrip.vabs o
  | vand o => exact Laws.RoundTrip.vand o
  | vor o => exact Laws.RoundTrip.vor o
  | vxor o => exact Laws.RoundTrip.vxor o
  | vshl o => exact Laws.RoundTrip.vshl o
  | vshr o => exact Laws.RoundTrip.vshr o
  | vsra o => exact Laws.RoundTrip.vsra o
  | vsadd o => exact Laws.RoundTrip.vsadd o
  | vssub o => exact Laws.RoundTrip.vssub o
  | vcmp o => exact Laws.RoundTrip.vcmp o
  | vsel o => exact Laws.RoundTrip.vsel o
  | vclz o => exact Laws.RoundTrip.vclz o
  | vpopc o => exact Laws.RoundTrip.vpopc o
  | vfadd o => exact Laws.RoundTrip.vfadd o
  | vfsub o => exact Laws.RoundTrip.vfsub o
  | vfmul o => exact Laws.RoundTrip.vfmul o
  | vfdiv o => exact Laws.RoundTrip.vfdiv o
  | vfsqrt o => exact Laws.RoundTrip.vfsqrt o
  | vfmin o => exact Laws.RoundTrip.vfmin o
  | vfmax o => exact Laws.RoundTrip.vfmax o
  | vfabs o => exact Laws.RoundTrip.vfabs o
  | vfneg o => exact Laws.RoundTrip.vfneg o
  | vfcmp o => exact Laws.RoundTrip.vfcmp o
  | vfclass o => exact Laws.RoundTrip.vfclass o
  | vfma o => exact Laws.RoundTrip.vfma o
  | vfms o => exact Laws.RoundTrip.vfms o
  | vfnma o => exact Laws.RoundTrip.vfnma o
  | vfnms o => exact Laws.RoundTrip.vfnms o
  | vcvtn o => exact Laws.RoundTrip.vcvtn o
  | vcvtw o => exact Laws.RoundTrip.vcvtw o
  | vcvti o => exact Laws.RoundTrip.vcvti o
  | vq4 o => exact Laws.RoundTrip.vq4 o
  | vredo o => exact Laws.RoundTrip.vredo o
  | vredt o => exact Laws.RoundTrip.vredt o
  | vredm o => exact Laws.RoundTrip.vredm o
  | vredb o => exact Laws.RoundTrip.vredb o
  | vrcp o => exact Laws.RoundTrip.vrcp o
  | vrsq o => exact Laws.RoundTrip.vrsq o
  | vexp2 o => exact Laws.RoundTrip.vexp2 o
  | vlog2 o => exact Laws.RoundTrip.vlog2 o
  | mcfg o => exact Laws.RoundTrip.mcfg o
  | mstep o => exact Laws.RoundTrip.mstep o
  | mzero o => exact Laws.RoundTrip.mzero o
  | mrda o => exact Laws.RoundTrip.mrda o
  | mwra o => exact Laws.RoundTrip.mwra o
  | mdrainBrk o => exact Laws.RoundTrip.mdrainBrk o
  | mdrainMem o => exact Laws.RoundTrip.mdrainMem o
  | _ => exact Laws.RoundTrip.of_none rfl

/-- The word of a well-formed instruction decodes to it. -/
theorem decode_of_encode {i : Instr} {h : BitVec 16} {t : BitVec 64} (w : wellFormed i = true) (e : encode i = some (h, t)) :
    decode h t = .ok i := (encodeThenDecode i w h t e).1

/-- Settles O53: each word is the encoding of its instruction, which is well formed. -/
theorem decodeWords : Obligations.DecodeWords :=
  ⟨decode_of_encode rfl rfl, decode_of_encode rfl rfl, decode_of_encode rfl rfl, decode_of_encode rfl rfl,
    decode_of_encode rfl rfl, decode_of_encode rfl rfl, decode_of_encode rfl rfl, decode_of_encode rfl rfl,
    decode_of_encode rfl rfl, decode_of_encode rfl rfl, decode_of_encode rfl rfl⟩

end Sys2Proof
end

section
/-! PROOFS. Empty sources, privilege, and the turn of a running sequencer (O12, O15, O52). -/

namespace Sys2Proof.Machine

section
variable {s : State}

/-! Empty sources (R35). -/

theorem emptySource_eq (f : RegFile) (r : Reg) : emptySource f r =
    { cause := 0x06, tval := BitVec.ofNat 64 (64 * (match f with | .scalar => 0 | .brick => 1 | .acc => 2) + r.toNat) } := by
  cases f <;> rfl

/-- An empty source without W, its producer not finished, is waited for. -/
theorem StopsWith.needFull_wait {f : RegFile} {a : Src} (h : ¬s.full f a.reg) (hw : a.w = false)
    (hs : s.self.standing f a.reg = false) : StopsWith (needFull f a) s (.wait (.reg f a.reg)) s := by
  unfold State.full at h
  refine (Runs.mySeq s).bindStop ((Runs.get s).bindStop ?_)
  rw [if_pos (by simpa using h), if_neg (by simp [hw]), if_neg (by simp [hs])]
  exact StopsWith.stopWait _ _

/-- A binary scalar instruction stops where the check of its first source does. -/
theorem StopsWith.salu2 {o : RArgs} {f : DWord → DWord → DWord} {st : Stop} {s' : State}
    (h : StopsWith (needFull .scalar o.sa) s st s') : StopsWith (salu2 o f) s st s' := h.bind.bind

/-! Privilege (R39, R44). -/

theorem exec_illegalInstruction (s : State) : exec .illegalInstruction s = .next (s.trapped (illegalHead s.self.head)) := by
  have h : StopsWith (mySeq >>= fun q => stopTrap (α := Cont) (illegalHead q.head)) s (.trap (illegalHead s.self.head)) s :=
    (Runs.mySeq s).bindStop (StopsWith.stopTrap _ _)
  exact execSeq_stop h

theorem crTrap_eq (n : BitVec 10) : crTrap n.toNat = { cause := 0x04, tval := n.setWidth 64, estart := some 0 } := by
  simp only [crTrap, BitVec.ofNat_toNat]

theorem execCrd_privilege {o : RArgs} (hp : s.self.priv = false) (h : crUserReadable o.mod.toNat = false) :
    execCrd o s = .next (s.trapped (crTrap o.mod.toNat)) := by
  refine execNext_trap ((Runs.mySeq s).bindStop ?_)
  rw [if_pos (by simp [hp, h])]
  exact (StopsWith.stopTrap _ _).bind

/-- Every `cwr` checks its register before anything else. -/
theorem StopsWith.cwrSource {o : RArgs} (hp : s.self.priv = false) (h : crUserWritable o.mod.toNat = false) :
    StopsWith (cwrSource o) s (.trap (crTrap o.mod.toNat)) s := by
  refine (Runs.mySeq s).bindStop ?_
  rw [if_pos (by simp [hp, h])]
  exact (StopsWith.stopTrap _ _).bind

/-- A supervisor's instruction checks its privilege before anything else. -/
theorem execNext_needSupervisor {k : Unit → M Unit} (hp : s.self.priv = false) :
    execNext (needSupervisor >>= k) s = .next (s.trapped (privilegeTrap s.self)) :=
  execNext_trap (StopsWith.needSupervisor hp).bind

/-! Entering a line (R15 to R17). -/

theorem Runs.myCtx (s : State) : Runs myCtx s (s.ctx s.cur) s := rfl

/-- The line that control stands in is used as it is. -/
theorem Runs.fetchLine_line {l : LineSnap} (h : s.self.line = some l) (ha : l.addr = lineOf s.self.pc) : Runs fetchLine s l s := by
  refine (Runs.mySeq s).bind ?_
  rw [h]
  exact Runs.ite (fun _ => Runs.pure _ _) fun hn => absurd ha hn

/-- Anywhere else the line at the PC is entered. -/
theorem run_fetchLine_enters (h : ∀ l, s.self.line = some l → l.addr ≠ lineOf s.self.pc) :
    fetchLine.run.run s = enterLine.run.run s := by
  unfold fetchLine
  rw [run_bind, Runs.mySeq s]
  dsimp only
  split
  · next l hl => rw [if_neg (h l hl)]
  · rfl

theorem Runs.fetchLine_enters {l : LineSnap} {u : State} (hl : ∀ l, s.self.line = some l → l.addr ≠ lineOf s.self.pc)
    (h : Runs enterLine s l u) : Runs fetchLine s l u := (run_fetchLine_enters hl).trans h

theorem StopsWith.fetchLine_enters {e : Stop} {u : State} (hl : ∀ l, s.self.line = some l → l.addr ≠ lineOf s.self.pc)
    (h : StopsWith enterLine s e u) : StopsWith fetchLine s e u := (run_fetchLine_enters hl).trans h

/-- The line that control stands in is recorded. -/
def State.entering (s : State) (l : LineSnap) : State := s.modSeq s.cur fun q => { q with line := some l }

section
variable {c : CodeLine} {u : State} (hr : Runs (readLine (s.ctx s.cur) ((lineOf s.self.pc).toNat * 64)) s c u)
include hr

theorem StopsWith.enterLine_illFormed (hc : c.wellFormed = false) :
    StopsWith enterLine s (.trap { cause := 0x02, tval := c.header.setWidth 64, estart := some 0 }) u := by
  refine (Runs.mySeq s).bindStop ((Runs.myCtx s).bindStop (hr.bindStop ?_))
  rw [if_pos (by simp [hc])]
  exact (StopsWith.stopTrap _ _).bind

theorem StopsWith.enterLine_noHead (hc : c.wellFormed = true) (hi : c.heads ≤ indexOf s.self.pc) :
    StopsWith enterLine s (.trap { cause := 0x03, tval := (s.self.cameFrom.getD s.self.pc).setWidth 64, estart := some 0 }) u := by
  refine (Runs.mySeq s).bindStop ((Runs.myCtx s).bindStop (hr.bindStop ?_))
  rw [if_neg (by simp [hc]), if_pos hi]
  exact (StopsWith.stopTrap _ _).bind

theorem Runs.enterLine (hc : c.wellFormed = true) (hi : indexOf s.self.pc < c.heads) :
    Runs enterLine s ⟨lineOf s.self.pc, c⟩ u := by
  refine (Runs.mySeq s).bind ((Runs.myCtx s).bind (hr.bind ?_))
  rw [if_neg (by simp [hc]), if_neg (Nat.not_le.2 hi)]
  exact Runs.pure _ _

end

/-! Fetching an instruction (R14, R43). -/

/-- What a head stands for: the instruction it decodes to, or the illegal one. -/
def headInstr : Except DecodeError Instr → Instr
  | .ok i => i
  | .error _ => .illegalInstruction

theorem StopsWith.fetchInstr_found {t : Trap} (h : s.self.wait = some (.trapping t)) : StopsWith fetchInstr s (.trap t) s := by
  refine StopsWith.bind ((Runs.mySeq s).bindStop ?_)
  rw [h]
  exact StopsWith.stopTrap _ _

section
variable (hp : ∀ x, s.self.wait ≠ some (.trapping x))
include hp

theorem Runs.trapFound : Runs trapFound s () s := by
  refine (Runs.mySeq s).bind ?_
  split
  · exact absurd ‹_› (hp _)
  · exact Runs.pure _ _

theorem StopsWith.fetchInstr {e : Stop} {u : State} (h : StopsWith fetchLine s e u) : StopsWith fetchInstr s e u :=
  (Runs.trapFound hp).bindStop h.bind

variable {l : LineSnap} {u : State} (h : Runs fetchLine s l u)
include h

theorem Runs.fetchInstr : Runs fetchInstr s (headInstr (decodeAt l.code (indexOf (u.entering l).self.pc))) (u.entering l) := by
  refine (Runs.trapFound hp).bind (h.bind ((Runs.modMe _ u).bind ((Runs.mySeq _).bind ?_)))
  unfold State.entering
  split
  · next i hi => rw [hi]; exact Runs.pure _ _
  · next e hi => rw [hi]; exact Runs.pure _ _

end

/-! The turn of a running sequencer. -/

theorem preemptNow_not {n : Nat} (h : (s.seq n).preempt = false) : preemptNow n s = (false, s) := by
  simp only [preemptNow, h, Bool.false_and, Bool.false_eq_true, if_false]

theorem stepRunning_ok {n : Nat} {i : Instr} {u : State} (hp : (s.seq n).preempt = false) (h : Runs fetchInstr s i u) :
    stepRunning n s = exec i u := by
  unfold Runs at h
  simp only [stepRunning, preemptNow_not hp, h]

theorem stepRunning_stop {n : Nat} {e : Stop} {u : State} (hp : (s.seq n).preempt = false) (h : StopsWith fetchInstr s e u) :
    stepRunning n s = finishStep (.error e) u := by
  unfold StopsWith at h
  simp only [stepRunning, preemptNow_not hp, h]

theorem stepSeq_running {n : Nat} (hw : s.powered = true) (hr : (s.seq n).phase = .running) :
    stepSeq n s = stepRunning n { s with cur := n } := by
  unfold stepSeq
  generalize ht : ({ s with cur := n } : State) = t
  have hw' : t.powered = true := ht ▸ hw
  have hr' : (t.seq n).phase = .running := ht ▸ hr
  simp only [hw', hr', Bool.not_true, Bool.false_eq_true, if_false]

/-- Where no epoch is due and no departure waits, a step is the turn laid down. -/
theorem step_turn {x : Turn} {rest : List Turn} (ht : s.turns = x :: rest) (he : s.epochDue = false) (hd : s.departures = []) :
    step s = stepTurn x { s with turns := rest } := by
  have hb : s.beforeTurn = s := if_pos hd
  simp only [step, he, hb, ht, Bool.false_eq_true, if_false]

end

/-- Settles O12: the check of a source by cases on the register and W, and `add` stops where that check of its first source does. -/
theorem emptySourceTraps : Obligations.EmptySourceTraps := by
  intro f a s code trap
  have ht : trap = emptySource f a.reg := (emptySource_eq f a.reg).symm
  rw [ht]
  refine ⟨Runs.needFull, StopsWith.needFull_trap, StopsWith.needFull_wait, ?_⟩
  rintro o rfl rfl hf
  exact ⟨fun hw => execNext_trap (StopsWith.needFull_trap hf hw).salu2,
    fun hw hs => execNext_stop (StopsWith.needFull_wait hf hw hs).salu2⟩

/-- Settles O15: the checks of privilege come first in each of these meanings. -/
theorem privilegeTraps : Obligations.PrivilegeTraps := by
  refine ⟨exec_illegalInstruction, ?_⟩
  intro s hp trap
  refine ⟨fun o => ?_, fun o i hi => ?_⟩
  · have ht : trap (o.mod.setWidth 64) = crTrap o.mod.toNat := (crTrap_eq o.mod).symm
    rw [ht]
    refine ⟨fun h => execCrd_privilege hp ?_, fun h i hi _ => ?_, fun i hi => ?_⟩
    · simp only [List.mem_cons, List.not_mem_nil, or_false] at h
      obtain h | h | h := h <;> rw [h] <;> rfl
    · have stop : StopsWith (cwrSource o) s (.trap (crTrap o.mod.toNat)) s := StopsWith.cwrSource hp (decide_eq_false h)
      simp only [List.mem_cons, List.not_mem_nil, or_false] at hi
      obtain rfl | rfl | rfl | rfl | rfl := hi
      · exact execNext_trap stop.bind
      · exact execNext_trap stop.bind
      · exact execSeq_stop stop.bind
      · exact execSeq_stop stop.bind
      · exact execNext_trap stop.bind
    · simp only [List.mem_cons, List.not_mem_nil, or_false] at hi
      obtain rfl | rfl | rfl | rfl := hi <;> exact execNext_needSupervisor hp
  · simp only [List.mem_cons, List.not_mem_nil, or_false] at hi
    obtain rfl | rfl | rfl | rfl | rfl | rfl | rfl := hi <;> exact execNext_needSupervisor hp

/-- Settles O52: the turn laid down is the sequencer's, its line is entered or at hand, and what the head decodes to is executed. -/
theorem stepRunsDecoded : Obligations.StepRunsDecoded := by
  intro s n rest hw ht hr hpre he hd t q plain
  have turn : step s = stepRunning n t := (step_turn ht he hd).trans (stepSeq_running hw hr)
  have runs {i : Instr} {u : State} (h : Runs fetchInstr t i u) : step s = exec i u := turn.trans (stepRunning_ok hpre h)
  have stops {e : Stop} {u : State} (h : StopsWith fetchInstr t e u) : step s = finishStep (.error e) u :=
    turn.trans (stepRunning_stop hpre h)
  refine ⟨fun x hx => stops (.fetchInstr_found hx), ?_, fun x u hp hx => stops (.fetchInstr hp hx),
    fun w u hp hx => stops (.fetchInstr hp hx), fun l hl ha => .fetchLine_line hl ha, fun hl c u hc =>
      ⟨fun h => .fetchLine_enters hl (.enterLine_illFormed hc h), fun h hi => .fetchLine_enters hl (.enterLine_noHead hc h hi),
        fun h hi => .fetchLine_enters hl (.enterLine hc h hi)⟩⟩
  intro l u hp hl v
  have executes : step s = exec (headInstr (decodeAt l.code (indexOf v.self.pc))) v := runs (.fetchInstr hp hl)
  refine ⟨fun i hi => ?_, fun e he => ?_⟩
  · rw [executes, hi]; rfl
  · rw [executes, he]; exact exec_illegalInstruction v

end Sys2Proof.Machine
end

section
/-! PROOFS. `tlbinv` and `tlbprobe` (O39). -/

namespace Sys2Proof.Machine

section
variable {s : State}

/-! What a `tlbinv` may have to wait for (R109). -/

/-- What the engines, the host and the tile engines have under way. -/
def State.underWay (s : State) : NMap EngCmd × List SentOp × NMap TileRec := (s.engines, s.hostOps, s.tiles)

/-- Nothing is under way outside the sequencers: no engine command, no AtomicOp at the host, and no tile record with a step running. -/
def State.quiescent (s : State) : Prop := s.engines = [] ∧ s.hostOps = [] ∧ ∀ x ∈ s.tiles, x.2.running = []

theorem State.quiescent.of_underWay {t : State} (e : t.underWay = s.underWay) (h : s.quiescent) : t.quiescent := by
  simp only [State.underWay, Prod.mk.injEq] at e
  obtain ⟨he, hh, ht⟩ := e
  rw [State.quiescent, he, hh, ht]
  exact h

/-- A fold of steps that each leave what is under way leaves it. -/
theorem foldl_underWay {α : Type} {f : State → α → State} (k : ∀ s a, (f s a).underWay = s.underWay) (l : List α) (s : State) :
    (l.foldl f s).underWay = s.underWay := by
  induction l generalizing s with
  | nil => rfl
  | cons a l ih => rw [List.foldl_cons, ih, k]

theorem dropCoreTlb_underWay (drop : TlbEntry → Bool) (c : Nat) (s : State) : (dropCoreTlb drop c s).underWay = s.underWay :=
  foldl_underWay (fun s n => by split <;> rfl) _ _

theorem dropScope_underWay (sc : Scope) (c : Nat) (drop : TlbEntry → Bool) (wdrop : WalkEntry → Bool) (s : State) :
    (dropScope sc c drop wdrop s).underWay = s.underWay :=
  (foldl_underWay (fun _ _ => by rfl) _ _).trans (foldl_underWay (fun s c => dropCoreTlb_underWay drop c s) _ _)

theorem restartWaits_underWay (cores : List Nat) (sel : Selection) (s : State) :
    (restartWaits cores sel s).underWay = s.underWay := foldl_underWay (fun _ _ => by rfl) _ _

theorem State.quiescent.invalidate (sc : Scope) (c : Nat) (sel : Selection) (h : s.quiescent) : (invalidate sc c sel s).quiescent := by
  obtain ⟨he, hh, ht⟩ := h.of_underWay (dropScope_underWay sc c sel.entry sel.table s)
  refine ⟨?_, hh, ht⟩
  rw [Machine.invalidate, he]
  rfl

theorem State.quiescent.restartWaits (cores : List Nat) (sel : Selection) (h : s.quiescent) : (restartWaits cores sel s).quiescent :=
  h.of_underWay (restartWaits_underWay cores sel s)

theorem TileRec.sentThrough_of_not_running {r : TileRec} (h : r.running = []) (cores : List Nat) (sel : Selection) :
    r.sentThrough cores sel = false := by
  rw [TileRec.sentThrough, h]; rfl

/-! `tlbinv` (R109). -/

/-- The scope that SCOPE, MOD[9:7], names. -/
def tlbinvScope (n : Nat) : Scope :=
  match n with
  | 1 => .core | 2 => .clu | 3 => .die | _ => .dev

/-- What TYPE, MOD[6:4], selects: nothing where its range is empty. -/
def tlbinvSelection (ty : Nat) (len : DWord) (asid : BitVec 16) (va : Nat) : Option Selection :=
  match ty with
  | 0 => some .all
  | 1 => some (.byAsid asid)
  | 2 => some (.byRange asid va va)
  | _ => if len = 0 then none else some (.byRange asid va (Min.min (va + len.toNat) (2 ^ 56) - 1))

/-- A `tlbinv` once it has released: what is selected is dropped, and accesses sent through it are waited for. -/
def dropSelected (sc : Scope) (sel : Option Selection) : M Unit := do
  match sel with
  | none => pure ()
  | some sel =>
    let core := coreOf (← me)
    let cores := coresIn sc core
    modify (invalidate sc core sel)
    modify (restartWaits cores sel)
    let s ← get
    if s.engines.any (fun x => engineInScope sc core x.2 && x.2.sentThrough sel) || s.hostOps.any (·.sentThrough cores sel) ||
        s.tiles.any (fun x => x.2.sentThrough cores sel) then
      stopWait .engines

/-- A `tlbinv` once the length of its range is read. -/
def tlbinvFrom (o : RArgs) (len : DWord) : M Unit := do
  let a ← readS o.sa
  let b ← readS o.sb
  release (tlbinvScope (o.mod.extractLsb' 7 3).toNat)
  dropSelected (tlbinvScope (o.mod.extractLsb' 7 3).toNat)
    (tlbinvSelection (o.mod.extractLsb' 4 3).toNat len (b.extractLsb' 0 16) (a.toNat % 2 ^ 56))

/-- Only the form on a range reads a length. -/
theorem exec_tlbinv (o : RArgs) (s : State) : exec (.tlbinv o) s = execNext (do
    needSupervisor
    if (o.mod.extractLsb' 4 3).toNat = 3 then readReg o.d >>= tlbinvFrom o else tlbinvFrom o 0) s := rfl

theorem Runs.dropSelected_none (sc : Scope) (s : State) : Runs (dropSelected sc none) s () s := Runs.pure _ _

/-- Where nothing is under way, nothing is waited for. -/
theorem Runs.dropSelected_some (h : s.quiescent) (sc : Scope) (sel : Selection) : Runs (dropSelected sc (some sel)) s ()
    (restartWaits (coresIn sc (coreOf s.cur)) sel (invalidate sc (coreOf s.cur) sel s)) := by
  obtain ⟨he, hh, ht⟩ := (h.invalidate sc (coreOf s.cur) sel).restartWaits (coresIn sc (coreOf s.cur)) sel
  refine (Runs.me s).bind ((Runs.modify _ _).bind ((Runs.modify _ _).bind ((Runs.get _).bind ?_)))
  rw [if_neg]
  · exact Runs.pure _ _
  · rw [he, hh]
    simpa using fun k r hr => TileRec.sentThrough_of_not_running (ht (k, r) hr) _ _

/-- A `tlbinv` reads its operands, releases, and drops what its form selects. -/
theorem exec_tlbinv_of_dropSelected {o : RArgs} {sc : Scope} {sel : Option Selection} {t : State}
    (hsc : tlbinvScope (o.mod.extractLsb' 7 3).toNat = sc)
    (hsel : tlbinvSelection (o.mod.extractLsb' 4 3).toNat (if (o.mod.extractLsb' 4 3).toNat = 3 then s.self.scalar o.d else 0)
      ((s.self.scalar o.sb.reg).extractLsb' 0 16) ((s.self.scalar o.sa.reg).toNat % 2 ^ 56) = sel)
    (hp : s.self.priv = true) (ha : s.full .scalar o.sa.reg) (hb : s.full .scalar o.sb.reg) (hd : s.full .scalar o.d)
    (hr : s.mayRelease sc) (h : Runs (dropSelected sc sel) (s.released sc) () t) : exec (.tlbinv o) s = .next (t.fell id) := by
  have rest : Runs (tlbinvFrom o (if (o.mod.extractLsb' 4 3).toNat = 3 then s.self.scalar o.d else 0)) s () t := by
    subst hsc hsel
    exact (Runs.readS ha).bind ((Runs.readS hb).bind ((Runs.release hr).bind h))
  rw [exec_tlbinv]
  refine execNext_ok ((Runs.needSupervisor hp).bind (.ite (fun ht => ?_) fun ht => ?_))
  · rw [if_pos ht] at rest
    exact (Runs.readReg hd).bind rest
  · rw [if_neg ht] at rest
    exact rest

theorem Selection.byAsid_entry_iff (a : BitVec 16) (e : TlbEntry) :
    (Selection.byAsid a).entry e = true ↔ Pte.g e.pte = false ∧ e.asid = a := by
  simp only [Selection.byAsid, Bool.and_eq_true, Bool.not_eq_true', beq_iff_eq]

theorem Selection.byRange_entry_iff (a : BitVec 16) (lo hi : Nat) (e : TlbEntry) :
    (Selection.byRange a lo hi).entry e = true ↔ (Pte.g e.pte = true ∨ e.asid = a) ∧
      e.page * 2 ^ levelShift e.level ≤ hi ∧ lo < e.page * 2 ^ levelShift e.level + 2 ^ levelShift e.level := by
  simp only [Selection.byRange, TlbEntry.maps, Bool.and_eq_true, Bool.or_eq_true, beq_iff_eq, decide_eq_true_eq, and_assoc]

/-! `tlbprobe` (R110). -/

/-- As `execNext_modMe`, where the meaning has changed more before it changes its own sequencer. -/
theorem execNext_modMe_last {m : M Unit} {t : State} {f : Seq → Seq} (h : Runs m s () (t.modSeq t.cur f)) :
    execNext m s = .next (t.fell f) :=
  calc execNext m s = execNext (modMe f) t := (execNext_ok h).trans (execNext_ok (Runs.modMe f t)).symm
    _ = .next (t.fell f) := execNext_modMe (Runs.modMe f t)

/-- An instruction whose last act is to write a long-latency result. -/
theorem execNext_sentLong {m : M Unit} {t : State} {r : Reg} {v : DWord}
    (h : Runs m s () (if r = 0 then t else t.modSeq t.cur (·.sentLong r v t.cycle))) :
    execNext m s = .next (t.fell (·.sentLong r v t.cycle)) := by
  by_cases h0 : r = 0
  · rw [if_pos h0] at h
    rw [execNext_ok h]
    simp only [State.fell, Seq.sentLong, if_pos h0]
  · rw [if_neg h0] at h
    exact execNext_modMe_last h

/-- The access kind that KIND, MOD[9:8], names. -/
def probeKind (n : Nat) : Nat :=
  match n with
  | 0 => kRead | 1 => kWrite | 2 => kFetch | _ => kRmw

theorem getD_eq_probeKind (n : Nat) : [kRead, kWrite, kFetch, kRmw].getD n kRmw = probeKind n := by
  match n with
  | 0 | 1 | 2 | 3 | _ + 4 => rfl

/-- A `tlbprobe` whose probe ends sends the result word. -/
theorem exec_tlbprobe {o : RArgs} {r : Except XFault (Leaf × Bool)} {t : State} (hp : s.self.priv = true)
    (ha : s.full .scalar o.sa.reg) (hd : s.full .scalar o.d)
    (h : Runs (probe (if o.mod.getLsbD 7 then { s.ctx s.cur with priv := false } else s.ctx s.cur)
      (probeKind (o.mod.extractLsb' 8 2).toNat) ((s.self.scalar o.sa.reg).toNat % 2 ^ 56)) s r t) (ht : t.full .scalar o.d) :
    exec (.tlbprobe o) s =
      .next (t.fell (·.sentLong o.d (probeResult ((s.self.scalar o.sa.reg).toNat % 2 ^ 56) r) t.cycle)) :=
  execNext_sentLong ((Runs.needSupervisor hp).bind ((Runs.readS ha).bind ((Runs.needWritable hd).bind
    ((Runs.myCtx s).bind (h.bind (Runs.writeLong ht))))))

theorem probeResult_ok (va : Nat) (l : Leaf) (hit : Bool) : probeResult va (.ok (l, hit)) =
    BitVec.ofNat 64 ((if hit then 2 ^ 57 else 0) + l.level * 2 ^ 55 + l.pte.kind * 2 ^ 52 +
      (if l.pte.kind = 1 ∨ l.pte.kind = 4 then l.pa va else 0)) := by
  simp only [probeResult, Bool.or_eq_true, beq_iff_eq]

end

/-- Settles O39: `tlbinv` by the selection of each of its forms, `tlbprobe` by what its probe finds. -/
theorem tlbInstructions : Obligations.TlbInstructions := by
  intro o s hp ha hb hd scopeCode sc type s1 asid at' len drops
  have selects {sel : Selection} (hsel : tlbinvSelection type (if type = 3 then s.self.scalar o.d else 0) asid at' = some sel) :
      drops sel := fun hr he hh ht =>
    exec_tlbinv_of_dropSelected rfl hsel hp ha hb hd hr (.dropSelected_some (s := s1) ⟨he, hh, ht⟩ sc sel)
  refine ⟨fun ht => selects (by rw [ht]; rfl), fun ht => selects (by rw [ht]; rfl), fun ht => selects (by rw [ht]; rfl),
    fun ht hl => selects ?_, fun e lo hi => ?_, fun ht hr hl => ?_, fun r s2 hrun hd2 => ?_⟩
  · rw [ht]
    exact if_neg fun h0 => hl (congrArg BitVec.toNat h0)
  · exact ⟨rfl, Selection.byAsid_entry_iff asid e, Selection.byRange_entry_iff asid lo hi e⟩
  · have nothing : tlbinvSelection type (if type = 3 then s.self.scalar o.d else 0) asid at' = none := by
      rw [ht, if_pos rfl, hl]; rfl
    exact exec_tlbinv_of_dropSelected rfl nothing hp ha hb hd hr (.dropSelected_none sc s1)
  · rw [getD_eq_probeKind] at hrun
    rw [exec_tlbprobe hp ha hd hrun hd2]
    cases r with
    | error f => rfl
    | ok x => rw [probeResult_ok]

end Sys2Proof.Machine
end

section
/-! PROOFS. Cache maintenance by a sequencer (O38). -/

namespace Sys2Proof.Machine

section
variable {s t : State}

/-- An instruction that falls through leaves what its meaning leaves, and the PC advanced. -/
theorem execNext_fell {m : M Unit} (h : Runs m s () t) : execNext m s = .next (t.fell id) := execNext_ok h

theorem Runs.ite_pos {α : Type} {c : Prop} [Decidable c] {m k : M α} {a : α} (hc : c) (h : Runs m s a t) :
    Runs (if c then m else k) s a t := .ite (fun _ => h) (absurd hc)

theorem Runs.ite_neg {α : Type} {c : Prop} [Decidable c] {m k : M α} {a : α} (hc : ¬c) (h : Runs k s a t) :
    Runs (if c then m else k) s a t := .ite (absurd · hc) fun _ => h

/-! Ranges (R176). -/

theorem rangeOf_zero (a : DWord) : rangeOf a 0 = none := by rw [rangeOf, if_pos rfl]

/-- The last byte of a range of at least one byte, from the bytes of it that lie below 2^56. -/
theorem rangeOf_of_ne_zero {a b : DWord} (h : b ≠ 0) : rangeOf a b = some (a.toNat % 2 ^ 56,
    a.toNat % 2 ^ 56 + (Min.min (a.toNat % 2 ^ 56 + b.toNat) (2 ^ 56) - a.toNat % 2 ^ 56) - 1) := by
  have hlo : a.toNat % 2 ^ 56 < 2 ^ 56 := Nat.mod_lt _ (by decide)
  rw [rangeOf, if_neg h]
  congr 2
  omega

/-- Above 512 KiB a range stands for all that an L1 holds, translated or not. -/
theorem Runs.extentOf_all {lo hi : Nat} (h : 512 * 1024 < hi - lo + 1) : Runs (extentOf lo hi) s .all s :=
  .ite_pos h (Runs.pure _ _)

/-! `skim` and `wbr` (R177, R178). -/

section
variable {o : RArgs} {lo hi : Nat} {x : Extent} (ha : s.full .scalar o.sa.reg) (hb : s.full .scalar o.sb.reg)
include ha hb

theorem exec_skim_nothing (h : s.self.scalar o.sb.reg = 0) : exec (.skim o) s = .next (s.fell id) := by
  refine execNext_same ((Runs.readS ha).bind ((Runs.readS hb).bind ?_))
  rw [h, rangeOf_zero]
  exact Runs.pure _ _

theorem exec_skim_extent (hr : rangeOf (s.self.scalar o.sa.reg) (s.self.scalar o.sb.reg) = some (lo, hi))
    (hx : Runs (extentOf lo hi) s x t) : exec (.skim o) s =
      .next (((t.l1Cores (coreOf t.cur)).foldl (fun s k => s.modCore k (·.skimLines x.hasLine)) t).fell id) := by
  refine execNext_fell ((Runs.readS ha).bind ((Runs.readS hb).bind ?_))
  rw [hr]
  exact hx.bind ((Runs.me t).bind (Runs.modify _ t))

variable (hm : o.mod.getLsbD 1 = false)
include hm

theorem exec_wbr_nothing (h : s.self.scalar o.sb.reg = 0) : exec (.wbr o) s = .next (s.fell id) := by
  refine execNext_same (Runs.ite_neg (Bool.eq_false_iff.1 hm) ((Runs.readS ha).bind ((Runs.readS hb).bind ?_)))
  rw [h, rangeOf_zero]
  exact Runs.pure _ _

/-- The registrations of the core come first, then its registered words go home. -/
theorem exec_wbr_extent (hr : rangeOf (s.self.scalar o.sa.reg) (s.self.scalar o.sb.reg) = some (lo, hi))
    (hx : Runs (extentOf lo hi) s x t) : exec (.wbr o) s =
      .next ((((drainCore (coreOf t.cur) t).l1Cores (coreOf t.cur)).foldl
        (fun s k => writeLinesHome k x.hasLine (!o.mod.getLsbD 0) s) (drainCore (coreOf t.cur) t)).fell id) := by
  refine execNext_fell (Runs.ite_neg (Bool.eq_false_iff.1 hm) ((Runs.readS ha).bind ((Runs.readS hb).bind ?_)))
  rw [hr]
  exact hx.bind ((Runs.me t).bind ((Runs.modify _ t).bind ((Runs.modify _ _).bind
    (Runs.ite_neg (Bool.eq_false_iff.1 hm) (Runs.pure _ _)))))

end

/-! `flctx` and `flctx.all` (R179). -/

theorem Runs.flushTarget {a : DWord} (h : a.toNat ≤ 191) : Runs (flushTarget a) s a.toNat s :=
  .ite_neg (Nat.not_lt.2 h) (Runs.pure _ _)

theorem StopsWith.flushTarget {a : DWord} (h : 191 < a.toNat) :
    StopsWith (flushTarget a) s (.trap { cause := 0x09, tval := a, estart := some 0 }) s := by
  unfold Machine.flushTarget
  rw [if_pos h]
  exact (StopsWith.stopTrap _ _).bind

section
variable {o : RArgs} (hp : s.self.priv = true) (ha : s.full .scalar o.sa.reg)
include hp ha

section
variable (hk : (s.self.scalar o.sa.reg).toNat ≤ 191) (hu : (drainCore (coreOf s.cur) s).unacked (coreOf s.cur) = none)
include hk hu

theorem exec_flctx (hb : s.full .scalar o.sb.reg) : exec (.flctx o) s = .next
    ((flushTag (s.self.scalar o.sa.reg).toNat (some (s.self.scalar o.sb.reg)) (drainCore (coreOf s.cur) s)).fell id) :=
  execNext_fell ((Runs.needSupervisor hp).bind ((Runs.readS ha).bind ((Runs.readS hb).bind ((Runs.flushTarget hk).bind
    ((Runs.storesAcked hu).bind (Runs.modify _ _))))))

theorem exec_flctxAll : exec (.flctxAll o) s = .next
    ((flushTag (s.self.scalar o.sa.reg).toNat none (drainCore (coreOf s.cur) s)).fell id) :=
  execNext_fell ((Runs.needSupervisor hp).bind ((Runs.readS ha).bind ((Runs.flushTarget hk).bind
    ((Runs.storesAcked hu).bind (Runs.modify _ _)))))

end

/-- Both flushes check the number of the core before they wait for anything. -/
theorem exec_flush_noCore (hb : s.full .scalar o.sb.reg) (hk : 191 < (s.self.scalar o.sa.reg).toNat) :
    ∀ i ∈ [Instr.flctx o, .flctxAll o],
      exec i s = .next (s.trapped { cause := 0x09, tval := s.self.scalar o.sa.reg, estart := some 0 }) := by
  intro i hi
  simp only [List.mem_cons, List.not_mem_nil, or_false] at hi
  obtain rfl | rfl := hi
  · exact execNext_trap ((Runs.needSupervisor hp).bindStop ((Runs.readS ha).bindStop ((Runs.readS hb).bindStop
      (StopsWith.flushTarget hk).bind)))
  · exact execNext_trap ((Runs.needSupervisor hp).bindStop ((Runs.readS ha).bindStop (StopsWith.flushTarget hk).bind))

end

end

/-- Settles O38: `skim` and `wbr` by what their range stands for, the flushes by the number of their core. -/
theorem cacheMaintenance : Obligations.CacheMaintenance := by
  intro o s ha hb a b c lo size
  have range (h : b ≠ 0) : rangeOf a b = some (lo, lo + size - 1) := rangeOf_of_ne_zero h
  have long (h : 512 * 1024 < size) : b ≠ 0 := by
    rintro h0
    have hb0 : b.toNat = 0 := congrArg BitVec.toNat h0
    omega
  have all (h : 512 * 1024 < size) : Runs (extentOf lo (lo + size - 1)) s .all s := .extentOf_all (by omega)
  refine ⟨fun h => ⟨exec_skim_nothing ha hb h, fun hm => exec_wbr_nothing ha hb hm h⟩,
    fun h => exec_skim_extent ha hb (range (long h)) (all h),
    fun h hm => exec_wbr_extent ha hb hm (range (long h)) (all h),
    fun h0 _ x t hx => ⟨exec_skim_extent ha hb (range h0) hx, fun hm => exec_wbr_extent ha hb hm (range h0) hx⟩,
    fun hp hk hu => ⟨exec_flctx hp ha hk hu hb, exec_flctxAll hp ha hk hu⟩,
    fun hp hk => exec_flush_noCore hp ha hb hk⟩

end Sys2Proof.Machine
end

section
/-! PROOFS. The steps of homes, caches, engines and waiting sequencers (O48): agents, homes, caches, the host, and waits. -/

namespace Sys2Proof.Machine

section
variable {s t : State} {α : Type}

/-! Running an agent's step, and on behalf of a sequencer. -/

/-- What an agent's step did before it stopped stays. -/
theorem execAgent_stop {m : M Unit} {st : Stop} (h : StopsWith m s st t) : execAgent m s = .next t.tick := by
  unfold StopsWith at h
  simp only [execAgent, h]

theorem Runs.tryCatch {m : M α} {k : Stop → M α} {a : α} (h : Runs m s a t) : Runs (MonadExcept.tryCatch m k) s a t := by
  unfold Runs at *
  rw [run_tryCatch, h]

theorem Runs.onBehalf {n : Nat} {m : M α} {a : α} (h : Runs m { s with cur := n } a t) :
    Runs (onBehalf n m) s a { t with cur := s.cur } :=
  (Runs.get s).bind ((Runs.modify _ s).bind (h.tryCatch.bind ((Runs.modify _ t).bind (Runs.pure _ _))))

theorem Runs.passWait {n : Nat} (hc : t.cur = n) : Runs passWait t () (t.modSeq n Seq.advance) := by
  subst hc
  exact Runs.modMe _ _

/-! Combining windows and links (R212, R215). -/

theorem exec_combiningWindowApply {k : Nat} (hi : s.input = .combiningWindowApply k) (h : applyOldest k s = t) :
    exec .combiningWindowApply s = .next t.tick := by
  subst h
  show execCombiningWindowApply s = _
  simp only [execCombiningWindowApply, hi, execAgent_modify]

theorem applyOldest_home {k : Nat} {e : CombEntry} {rest : List CombEntry} (hk : k < 160)
    (h : NMap.getD s.homeComb k [] = e :: rest) :
    applyOldest k s = applyComb e { s with homeComb := NMap.set s.homeComb k rest } := by
  simp only [applyOldest, if_pos hk, h]

theorem applyOldest_core {k : Nat} {e : CombEntry} {rest : List CombEntry} (h : (s.core k).comb = e :: rest) :
    applyOldest (160 + k) s = applyComb e (s.modCore k fun c => { c with comb := rest }) := by
  simp only [applyOldest, if_neg (Nat.not_lt.2 (Nat.le_add_right 160 k)), Nat.add_sub_cancel_left, h]

theorem exec_linkExpiry {core k : Nat} {l : Link} (hi : s.input = .linkExpiry core k) (hl : (s.core core).links[k]? = some l)
    (ho : l.born + 65536 ≤ s.cycle) :
    exec .linkExpiry s = .next (s.modCore core fun c => { c with links := c.links.eraseIdx k }).tick := by
  show execLinkExpiry s = _
  simp only [execLinkExpiry, hi, execAgent_modify, hl, if_pos ho]

/-! The wait table (R217). -/

/-- An entry of a wait table is freed. -/
def State.freeWait (s : State) (core k : Nat) : State := s.modCore core fun c => { c with waits := NMap.erase c.waits k }

/-- What VWAIT_FIRE does once an entry of a sequencer is freed: with the last one its `vwait` ends. -/
def endVwaitIfLast (core n : Nat) : M Unit := do
  match ((← get).seq n).wait with
  | some (.vwait cov d) =>
    if ((← get).core core).waitsOf n == [] then
      onBehalf n (do
        endVwait cov d true
        passWait)
  | _ => pure ()

theorem exec_vwaitFire {core k : Nat} {e : WaitEntry} (hi : s.input = .vwaitFire core k)
    (he : NMap.get? (s.core core).waits k = some e) (hf : e.fired = true)
    (h : Runs (endVwaitIfLast core e.seq) (s.freeWait core k) () t) : exec .vwaitFire s = .next t.tick := by
  show execVwaitFire s = _
  simp only [execVwaitFire, hi]
  refine execAgent_ok ((Runs.get s).bind ?_)
  simp only [he, if_pos hf]
  exact (Runs.modify _ s).bind h

section
variable {core n : Nat}

/-- Entries of the `vwait` are left, or the sequencer no longer waits in one. -/
theorem Runs.endVwaitIfLast_not (h : (s.core core).waitsOf n ≠ [] ∨ ∀ cov d, (s.seq n).wait ≠ some (.vwait cov d)) :
    Runs (endVwaitIfLast core n) s () s := by
  refine (Runs.get s).bind ?_
  split
  · next cov d hw =>
    have hleft : (s.core core).waitsOf n ≠ [] := h.resolve_right fun h => h cov d hw
    exact (Runs.get s).bind (Runs.ite_neg (mt beq_iff_eq.1 hleft) (Runs.pure _ _))
  · exact Runs.pure _ _

theorem Runs.endVwaitIfLast {cov : DWord} {d : Reg} (h0 : (s.core core).waitsOf n = [])
    (hw : (s.seq n).wait = some (.vwait cov d)) (hr : Runs (endVwait cov d true) { s with cur := n } () t) (hc : t.cur = n) :
    Runs (endVwaitIfLast core n) s () { t.modSeq n Seq.advance with cur := s.cur } := by
  refine (Runs.get s).bind ?_
  rw [hw]
  exact (Runs.get s).bind (Runs.ite_pos (beq_iff_eq.2 h0) (Runs.onBehalf (hr.bind (Runs.passWait hc))))

end

theorem exec_vwaitHostPoll {core k : Nat} {e : WaitEntry} (hi : s.input = .vwaitHostPoll core k)
    (he : NMap.get? (s.core core).waits k = some e) (hh : e.host = true) :
    exec .vwaitHostPoll s = .next (evalWaits e.loc (e.width / 8) s).tick := by
  show execVwaitHostPoll s = _
  simp only [execVwaitHostPoll, hi, execAgent_modify, he, if_pos hh]

/-! Requests at the homes (R123, R155 to R157). -/

/-- A line that stands at its home is asked of no lender. -/
theorem Runs.askLender {loc : Nat} (h : s.lineHere loc = true) : Runs (askLender loc) s () s := by
  refine (Runs.get s).bind ?_
  simp only [h, Bool.not_true, Bool.false_and, Bool.false_eq_true, if_false]
  exact Runs.pure _ _

/-- A reader whose L1 holds neither the word nor its line under another key gets a copy. -/
theorem exec_homeReadRequest {core loc key h : Nat} (hi : s.input = .homeReadRequest core loc) (hl : s.lineHere loc = true)
    (ht : settle (4 * (loc / 4)) 4 s = t) (hk : t.plainKey (4 * (loc / 4)) = some key)
    (hc : homeCheck (some core) false (loc / 4) t = .ok) (hh : t.holder core (loc / 4 / 32) = h)
    (hw : (t.core h).l1Word (loc / 4) = none) (ho : (NMap.get? (t.core h).l1 (loc / 4 / 32)).any (fun l => l.key != key) = false)
    (ha : t.homeAnswers (4 * (loc / 4)) 4 = true) :
    exec .homeReadRequest s =
      .next (fillL1 h (loc / 4) (homeValue (t.lineMat (4 * (loc / 4))) (loc / 4) t) key t).tick := by
  show execHomeReadRequest s = _
  simp only [execHomeReadRequest, hi]
  rw [execAgent_ok ((Runs.askLender hl).bind (Runs.modify _ s))]
  simp only [ht, hk, hc, hh, hw, ho, ha, Option.isNone_none, decide_true, Bool.not_false, Bool.and_self, if_true]

/-- A request for a line that its lender has is asked there, and nothing else is done. -/
theorem exec_homeRequest_asks {core loc : Nat} {data : List Byte} {st : Stop} (h : StopsWith (askLender loc) s st t) :
    (s.input = .homeReadRequest core loc → exec .homeReadRequest s = .next t.tick) ∧
    (s.input = .homeWriteThrough core loc data → exec .homeWriteThrough s = .next t.tick) := by
  refine ⟨fun hi => ?_, fun hi => ?_⟩
  · show execHomeReadRequest s = _
    simp only [execHomeReadRequest, hi]
    exact execAgent_stop h.bind
  · show execHomeWriteThrough s = _
    simp only [execHomeWriteThrough, hi]
    exact execAgent_stop h.bind

theorem exec_homeRegistration {core : Nat} (hi : s.input = .homeRegistration core) :
    exec .homeRegistration s = .next (recordNext core s).tick := by
  show execHomeRegistration s = _
  simp only [execHomeRegistration, hi, execAgent_modify]

theorem State.homeAnswers_lineHere {loc n : Nat} (h : s.homeAnswers loc n = true) : s.lineHere loc = true := by
  simp only [State.homeAnswers, Bool.and_eq_true] at h
  obtain ⟨⟨⟨⟨-, hl⟩, -⟩, -⟩, -⟩ := h
  exact hl

section
variable {core loc : Nat} {data : List Byte} (hi : s.input = .homeWriteThrough core loc data)
include hi

theorem exec_homeWriteThrough (hd : data ≠ []) (hn : loc % 128 + data.length ≤ 128) (ha : s.homeAnswers loc data.length = true)
    (hb : s.backed loc = true) (hc : ∀ w ∈ wordsOf loc data.length, homeCheck (some core) false w s = .ok) :
    exec .homeWriteThrough s = .next (State.tick ((wordsOf loc data.length).foldl (fun s w => dropUnreg core w s)
      (homeWrite ((recordRange loc data.length s).lineMat loc) loc data.length (leNat data) (recordRange loc data.length s)))) := by
  have h0 : data.length ≠ 0 := fun h => hd (List.length_eq_zero_iff.1 h)
  have hk : (wordsOf loc data.length).any (fun w => homeCheck (some core) false w s != .ok) = false :=
    List.any_eq_false.2 fun w hw => by simp [hc w hw]
  show execHomeWriteThrough s = _
  simp only [execHomeWriteThrough, hi]
  rw [execAgent_ok ((Runs.askLender (State.homeAnswers_lineHere ha)).bind (Runs.modify _ s))]
  simp only [h0, Nat.not_lt.2 hn, ha, hb, hk, decide_false, Bool.or_false, Bool.not_true, Bool.false_eq_true, if_false]

/-- A home with no place for the bytes takes none of them. -/
theorem exec_homeWriteThrough_unbacked (hl : s.lineHere loc = true) (hb : s.backed loc = false) :
    exec .homeWriteThrough s = .next s.tick := by
  show execHomeWriteThrough s = _
  simp only [execHomeWriteThrough, hi]
  rw [execAgent_ok ((Runs.askLender hl).bind (Runs.modify _ s))]
  simp only [hb, Bool.not_false, Bool.or_true, Bool.true_or, if_true]

end

/-! Epochs, lost lines, sleep and standing results (R34, R161, R163, R171). -/

theorem exec_epochTick_due (h : s.epochAt + 16384 ≤ s.cycle) : exec .epochTick s = .next (epochTick s).tick := by
  show execAgent _ s = _
  rw [execAgent_modify, if_pos h]

theorem exec_epochTick_notDue (h : s.cycle < s.epochAt + 16384) : exec .epochTick s = .next s.tick := by
  show execAgent _ s = _
  rw [execAgent_modify, if_neg (Nat.not_le.2 h)]

theorem exec_l1UncorrectableError {core line : Nat} (hi : s.input = .l1UncorrectableError core line) :
    exec .l1UncorrectableError s = .next (loseLine core line s).tick := by
  show execL1UncorrectableError s = _
  simp only [execL1UncorrectableError, hi, execAgent_modify]

theorem exec_coreSleep {core : Nat} (hi : s.input = .coreSleep core) (h : s.idle core = true)
    (hf : (s.cluster (core / 8)).fused = none) :
    exec .coreSleep s = .next (s.modCore core fun c => { c with asleep := true }).tick := by
  show execCoreSleep s = _
  simp only [execCoreSleep, hi, execAgent_modify, h, hf, Option.isNone_none, Bool.and_self, if_true]

theorem exec_coreWake {core : Nat} (hi : s.input = .coreWake core) (h : (s.core core).asleep = true) :
    exec .coreWake s = .next (s.modCore core fun c => { c.skimAll with asleep := false }).tick := by
  show execCoreWake s = _
  simp only [execCoreWake, hi, execAgent_modify, wakeCore, if_pos h]

theorem exec_longLatencyComplete {n : Nat} {file : RegFile} {reg : Reg} (hi : s.input = .longLatencyComplete n file reg)
    (h : (s.seq n).standing file reg = true) :
    exec .longLatencyComplete s = .next (s.modSeq n (·.complete file reg)).tick := by
  show execLongLatencyComplete s = _
  simp only [execLongLatencyComplete, hi, execAgent_modify, if_pos h]

/-! The host at a line (R114, R445, R447). -/

section
variable {line : Nat}

/-- Only HDM lines are open to the host. -/
theorem State.hdmOpen_of_not_hdmLine {need : Nat} (h : s.hdmLine line = false) : s.hdmOpen line need = false := by
  simp only [State.hdmOpen, h, Bool.false_and]

theorem hostRefused_other (write : Bool) (h : s.hdmLine line = false) : hostRefused line write s = s := by
  simp only [hostRefused, h, Bool.not_false, if_true]

theorem hostRefused_write (h : s.hdmLine line = true) : hostRefused line true s = { s with hostDrops := s.hostDrops + 1 } := by
  simp only [hostRefused, h, Bool.not_true, Bool.false_eq_true, if_false, if_true]

theorem hostRefused_read (h : s.hdmLine line = true) : hostRefused line false s = { s with answer := .unsupported } := by
  simp only [hostRefused, h, Bool.not_true, Bool.false_eq_true, if_false]

theorem hostReads_host (h : isHost (128 * line) = true) : hostReads line s = recallLine line (settle (128 * line) 128 s) := by
  simp only [hostReads, if_pos h]

theorem hostReads_hdm (h : isHost (128 * line) = false) (ho : s.hdmOpen line 1 = true) :
    hostReads line s = { recallLine line (settle (128 * line) 128 s) with
      hostLines := NMap.set (recallLine line (settle (128 * line) 128 s)).hostLines line [] } := by
  simp only [hostReads, h, ho, Bool.false_eq_true, if_false, if_true]

theorem hostReads_refused (h : isHost (128 * line) = false) (ho : s.hdmOpen line 1 = false) :
    hostReads line s = hostRefused line false s := by
  simp only [hostReads, h, ho, Bool.false_eq_true, if_false]

/-- A line of HBM outside the host's window is none of its. -/
theorem hostReads_other (h : isHost (128 * line) = false) (hl : s.hdmLine line = false) : hostReads line s = s :=
  (hostReads_refused h (State.hdmOpen_of_not_hdmLine hl)).trans (hostRefused_other _ hl)

theorem hostWrites_host (data : List Byte) (h : isHost (128 * line) = true) : hostWrites line data s =
    evalWaits (128 * line) 128 (breakLinks line (hostFill line data (hostTakesLine line s))) := by
  simp only [hostWrites, if_pos h]

/-- What the host writes in an HDM line stays with it, but comes home at once where a word of the line is watched. -/
def hostHolds (line : Nat) (data : List Byte) (s : State) : State :=
  let u : State := { hostTakesLine line s with hostLines := NMap.set (hostTakesLine line s).hostLines line (data.take 128) }
  if u.watched (128 * line) 128 || u.cellsTouched (128 * line) 128 != [] then snoopHost line u else u

theorem hostWrites_hdm {data : List Byte} (h : isHost (128 * line) = false)
    (ho : s.hdmOpen line (if data = [] then 1 else 2) = true) : hostWrites line data s = hostHolds line data s := by
  simp only [hostWrites, h, beq_iff_eq, ho, Bool.false_eq_true, if_false, if_true, hostHolds]

theorem hostWrites_refused {data : List Byte} (h : isHost (128 * line) = false)
    (ho : s.hdmOpen line (if data = [] then 1 else 2) = false) : hostWrites line data s = hostRefused line (data != []) s := by
  simp only [hostWrites, h, beq_iff_eq, ho, Bool.false_eq_true, if_false]

theorem hostWrites_other (data : List Byte) (h : isHost (128 * line) = false) (hl : s.hdmLine line = false) :
    hostWrites line data s = s :=
  (hostWrites_refused h (State.hdmOpen_of_not_hdmLine hl)).trans (hostRefused_other _ hl)

end

section
variable {n : Nat} {data : List Byte}

theorem exec_hostSharedRead (hi : s.input = .hostSharedRead n) (h : s.takesHost (storeLoc (128 * n) / 128) = true)
    (hr : hostReads (storeLoc (128 * n) / 128) s = t) : exec .hostSharedRead s = .next t.tick := by
  subst hr
  show execHostSharedRead s = _
  simp only [execHostSharedRead, hi, execAgent_modify, if_pos h]

theorem exec_hostSharedRead_later (hi : s.input = .hostSharedRead n) (h : s.takesHost (storeLoc (128 * n) / 128) = false) :
    exec .hostSharedRead s = .next s.tick := by
  show execHostSharedRead s = _
  simp only [execHostSharedRead, hi, execAgent_modify, h, Bool.false_eq_true, if_false]

theorem exec_hostExclusiveRequest (hi : s.input = .hostExclusiveRequest n data)
    (h : s.takesHost (storeLoc (128 * n) / 128) = true) (hw : hostWrites (storeLoc (128 * n) / 128) data s = t) :
    exec .hostExclusiveRequest s = .next t.tick := by
  subst hw
  show execHostExclusiveRequest s = _
  simp only [execHostExclusiveRequest, hi, execAgent_modify, if_pos h]

theorem exec_hostExclusiveRequest_later (hi : s.input = .hostExclusiveRequest n data)
    (h : s.takesHost (storeLoc (128 * n) / 128) = false) : exec .hostExclusiveRequest s = .next s.tick := by
  show execHostExclusiveRequest s = _
  simp only [execHostExclusiveRequest, hi, execAgent_modify, h, Bool.false_eq_true, if_false]

end

/-! Waits looked at again (R238, R349, R397, R400). -/

/-- A sequencer looked at by an agent: where its wait has ended, it goes on. -/
def State.lookedAt (s t : State) (n : Nat) (ok : Bool) : State := { (if ok then t.modSeq n Seq.advance else t) with cur := s.cur }

section
variable {n : Nat} {ok : Bool} (hc : t.cur = n)
include hc

theorem Runs.passIf : Runs (if ok then Machine.passWait else Pure.pure ()) t () (if ok then t.modSeq n Seq.advance else t) := by
  cases ok
  · exact Runs.pure _ _
  · exact Runs.passWait hc

theorem Runs.wakeWith {m : M Bool} (h : Runs m { s with cur := n } ok t) : Runs (wakeWith n m) s () (s.lookedAt t n ok) :=
  Runs.onBehalf (h.bind (Runs.passIf hc))

/-- The abort line sampled first is not raised. -/
theorem Runs.wakeSampling {m : M Bool} (hs : Runs (sampleLine false) { s with cur := n } false { s with cur := n })
    (h : Runs m { s with cur := n } ok t) : Runs (wakeSampling n m) s () (s.lookedAt t n ok) :=
  Runs.onBehalf (hs.bind (h.bind (Runs.passIf hc)))

theorem exec_bwaitWake {va : Nat} {p : DWord} {sc : Scope} (hi : s.input = .bwaitWake n)
    (hw : (s.seq n).wait = some (.bwait va p sc)) (hs : Runs (sampleLine false) { s with cur := n } false { s with cur := n })
    (h : Runs (tryBwait va p sc) { s with cur := n } ok t) : exec .bwaitWake s = .next (s.lookedAt t n ok).tick := by
  show execBwaitWake s = _
  simp only [execBwaitWake, hi]
  refine execAgent_ok ((Runs.get s).bind ?_)
  rw [hw]
  exact Runs.wakeSampling hc hs h

theorem exec_fgetWake {va : Nat} {d : Reg} {take : Bool} {acq : Option Scope} (hi : s.input = .fgetWake n)
    (hw : (s.seq n).wait = some (.fget va d take acq)) (h : Runs (tryFget va d take acq) { s with cur := n } ok t) :
    exec .fgetWake s = .next (s.lookedAt t n ok).tick := by
  show execFgetWake s = _
  simp only [execFgetWake, hi]
  refine execAgent_ok ((Runs.get s).bind ?_)
  rw [hw]
  exact Runs.wakeWith hc h

theorem exec_wfeWake {dl : Nat} {c : Bool} (hi : s.input = .wfeWake n) (hw : (s.seq n).wait = some (.wfe dl c))
    (h : Runs (wfeDone dl c) { s with cur := n } ok t) : exec .wfeWake s = .next (s.lookedAt t n ok).tick := by
  show execWfeWake s = _
  simp only [execWfeWake, hi]
  refine execAgent_ok ((Runs.get s).bind ?_)
  rw [hw]
  exact Runs.wakeWith hc h

/-- The record count is written where the `evwait` has ended. -/
theorem exec_evwaitWake {sup : Bool} {k : Nat} {dl : Option Nat} {d : Reg} {u : State} (hi : s.input = .evwaitWake n)
    (hw : (s.seq n).wait = some (.evwait sup k dl d)) (h : Runs (evwaitDone sup k dl) { s with cur := n } ok u)
    (he : if ok then Runs (endEvwait sup d) u () t else t = u) : exec .evwaitWake s = .next (s.lookedAt t n ok).tick := by
  show execEvwaitWake s = _
  simp only [execEvwaitWake, hi]
  refine execAgent_ok ((Runs.get s).bind ?_)
  rw [hw]
  refine Runs.onBehalf (h.bind ?_)
  cases ok with
  | false =>
    have hu : t = u := he
    rw [← hu]
    exact Runs.pure _ _
  | true =>
    have hr : Runs (endEvwait sup d) u () t := he
    exact hr.bind (Runs.passWait hc)

end

end

end Sys2Proof.Machine
end

section
/-! PROOFS. The engines' steps (O48): credits, beats, writes at homes, completion. -/

namespace Sys2Proof.Machine

section
variable {s t : State} {n : Nat} {c : EngCmd}

/-! Credits (R227). -/

theorem exec_permitCreditTake {core : Nat} (hi : s.input = .permitCreditTake n core) (h : takeCredit n core s = t) :
    exec .permitCreditTake s = .next t.tick := by
  subst h
  show execPermitCreditTake s = _
  simp only [execPermitCreditTake, hi, execAgent_modify]

/-- A permit covers a branch at a core that the command's tenant holds (R221, R227). -/
def State.permitCovers (s : State) (c : EngCmd) (core : Nat) (b : Branch) : Bool :=
  let p := NMap.getD (s.core core).permits c.ptag {}
  c.within b.base c.dpitch c.dplane p.base p.len && (s.core core).spOwner == c.ctx.tenant

theorem takeCredit_eq {core : Nat} {b : Branch} (he : NMap.get? s.engines n = some c)
    (hf : c.branches.find? (fun b => b.core == core) = some b) (hs : c.stop = none) (hm : s.mayStart n c = true)
    (hc : b.credit = false) (ho : b.open' c.total = true) (hp : 0 < (NMap.getD (s.core core).permits c.ptag {}).credits) :
    takeCredit n core s =
      if s.permitCovers c core b then
        (s.modCore core (·.setPermit c.ptag { NMap.getD (s.core core).permits c.ptag {} with
          credits := (NMap.getD (s.core core).permits c.ptag {}).credits - 1 })).setEngine n
            { (c.modBranch core fun b => { b with credit := true }) with started := true }
      else s.setEngine n { (c.modBranch core fun b => { b with refused := true }).trim with started := true } := by
  simp only [takeCredit, he, hf, hs, hm, hc, ho, hp, Option.isNone_none, Bool.not_false, decide_true, Bool.and_self, if_true]
  rfl

/-! What is met while performing (R230). -/

/-- A meaning that runs to its end has nothing caught. -/
theorem Runs.caught {α ε : Type} {m : M α} {k : Stop → M (Except ε α)} {a : α} (h : Runs m s a t) :
    Runs (MonadExcept.tryCatch (do return Except.ok (← m)) k) s (.ok a) t := Runs.tryCatch (h.bind (Runs.pure _ t))

theorem Runs.catchTrap_trap {α : Type} {m : M α} {x : Trap} (h : StopsWith m s (.trap x) t) :
    Runs (catchTrap m) s (.error (x.cause, x.tval.toNat % 2 ^ 56)) t := by
  have hb : StopsWith (do return Except.ok (ε := Nat × Nat) (← m)) s (.trap x) t := h.bind
  unfold Runs StopsWith at *
  unfold catchTrap
  rw [run_tryCatch, hb]
  rfl

/-! The source of a beat (R221, R228). -/

theorem State.bad_of_badWords_nil {loc k : Nat} (h : s.badWords = []) : s.bad loc k = false := by
  rw [State.bad, h]
  rfl

theorem settleScratch_of_comb_nil {k loc m : Nat} (h : (s.core k).comb = []) : settleScratch k loc m s = s := by
  simp only [settleScratch, h, List.any_nil, Bool.false_eq_true, if_false]

theorem Runs.loadScratch {k loc m : Nat} (h : (s.core k).comb = []) :
    Runs (loadScratch k loc m) s (s.mem.readLe loc m) s := by
  have hm := Runs.modify (settleScratch k loc m) s
  rw [settleScratch_of_comb_nil h] at hm
  exact hm.bind ((Runs.get s).bind (Runs.pure _ _))

/-- A window access to a scratchpad of the tenant's own (R221). -/
theorem Runs.windowPlace {x : Ctx} {kind va m e k o : Nat} (ht : windowTarget x.core va = some (k, o)) (hk : kind ≠ kFetch)
    (ho : (s.core k).spOwner = x.tenant) (hl : o + m ≤ 2 ^ 20) :
    Runs (windowPlace x kind va m e) s { loc := scratchLoc k o, scratch := some k } s := by
  refine (Runs.get s).bind ?_
  rw [ht]
  refine Runs.ite_neg (fun h => ?_) (Runs.pure _ _)
  simp only [Bool.or_eq_true, beq_iff_eq, bne_iff_ne, decide_eq_true_eq] at h
  obtain (h | h) | h := h
  · exact hk h
  · exact h ho
  · exact Nat.not_lt.2 hl h

/-- The four bytes of the source from byte k on are those at a location, in a scratchpad that the tenant holds. -/
def EngCmd.windowWord (c : EngCmd) (s : State) (k loc : Nat) : Prop :=
  inWindow (c.srcVa k) = true ∧ ∃ x o, windowTarget c.ctx.core (c.srcVa k) = some (x, o) ∧ o + 4 ≤ 2 ^ 20 ∧
    (s.core x).spOwner = c.ctx.tenant ∧ loc = scratchLoc x o

section
variable (hb : s.badWords = []) (hq : ∀ x, (s.core x).comb = [])
include hb hq

theorem Runs.engineRead_windowWord {k loc : Nat} (h : c.windowWord s k loc) :
    Runs (engineRead n c (c.srcVa k) 4) s (s.mem.readLe loc 4) s := by
  obtain ⟨hw, x, o, ht, hl, ho, rfl⟩ := h
  exact Runs.ite_pos hw ((Runs.windowPlace ht (by decide) ho hl).bind ((Runs.get s).bind
    (Runs.ite_neg (Bool.eq_false_iff.1 (State.bad_of_badWords_nil hb)) (Runs.loadScratch (hq x)))))

end

/-- A fold of reads that leave the state gathers their bytes in order. -/
theorem Runs.foldlM_gather {α : Type} {f : α → M Nat} {g : α → Nat} {m : Nat} (l : List α) (acc : List Byte)
    (h : ∀ i ∈ l, Runs (f i) s (g i) s) :
    Runs (l.foldlM (fun acc i => do return acc ++ leBytes m (← f i)) acc) s (acc ++ l.flatMap fun i => leBytes m (g i)) s := by
  induction l generalizing acc with
  | nil => simpa using Runs.pure acc s
  | cons i l ih =>
    rw [List.foldlM_cons, List.flatMap_cons, ← List.append_assoc]
    exact Runs.bind (a := acc ++ leBytes m (g i)) ((h i List.mem_cons_self).bind (Runs.pure _ s))
      (ih _ fun j hj => h j (List.mem_cons_of_mem i hj))

theorem Runs.engineReadRun_window {k m : Nat} {loc : Nat → Nat} (hb : s.badWords = []) (hq : ∀ x, (s.core x).comb = [])
    (ha : c.sva % 4 = 0) (h : ∀ i < m / 4, c.windowWord s (k + 4 * i) (loc i)) :
    Runs (engineReadRun n c k m) s ((List.range (m / 4)).flatMap fun i => leBytes 4 (s.mem.readLe (loc i) 4)) s :=
  Runs.ite_pos ha (Runs.foldlM_gather _ [] fun i hi => Runs.engineRead_windowWord hb hq (h i (List.mem_range.1 hi)))

/-! A beat (R233). -/

theorem State.modEngine_badWords (s : State) (n : Nat) (f : EngCmd → EngCmd) : (s.modEngine n f).badWords = s.badWords := by
  unfold State.modEngine
  split <;> rfl

theorem State.modEngine_cores (s : State) (n : Nat) (f : EngCmd → EngCmd) : (s.modEngine n f).cores = s.cores := by
  unfold State.modEngine
  split <;> rfl

theorem State.modEngine_mem (s : State) (n : Nat) (f : EngCmd → EngCmd) : (s.modEngine n f).mem = s.mem := by
  unfold State.modEngine
  split <;> rfl

/-- The command has started. -/
def State.begun (s : State) (n : Nat) : State := s.modEngine n fun k => { k with started := true }

/-- The bytes of a beat are in the command's buffer. -/
def State.gotBeat (s : State) (n : Nat) (c : EngCmd) (data : List Byte) : State :=
  s.modEngine n fun k => { k with rd := k.rd + c.beat, buf := k.buf ++ data }

/-- A remote copy's beat leaves as a packet. -/
def State.sentBeat (s : State) (n : Nat) (c : EngCmd) (data : List Byte) : State :=
  (sendData n c c.rd data (noteRequest c.ctx c.beat s)).modEngine n fun k =>
    { k with rd := k.rd + c.beat, wr := k.wr + c.beat, bufBase := k.rd + c.beat }

/-- The bytes of a beat, read, go where the command's kind says. -/
def State.tookBeat (s : State) (n : Nat) (c : EngCmd) (data : List Byte) : State :=
  if c.kind = .rcopy then s.sentBeat n c data else s.gotBeat n c data

/-- The end of a beat: each branch takes its next one, and signals that are due go out. -/
def State.beatEnds (s : State) (n : Nat) (c : EngCmd) : State :=
  sendSignals n (c.branches.foldl (fun u b => deliverBeat n b.core u) s)

/-- The last part of `engineBeat`, whatever was read. -/
def endBeat (n : Nat) (c : EngCmd) : M Unit := do
  modify fun s => c.branches.foldl (fun s b => deliverBeat n b.core s) s
  modify (sendSignals n)

theorem Runs.endBeat (n : Nat) (c : EngCmd) (s : State) : Runs (endBeat n c) s () (s.beatEnds n c) :=
  (Runs.modify _ s).bind (Runs.modify _ _)

theorem exec_trowelBeat (hi : s.input = .trowelBeat n) (h : Runs (engineBeat n) s () t) : exec .trowelBeat s = .next t.tick := by
  show execTrowelBeat s = _
  simp only [execTrowelBeat, hi]
  exact execAgent_ok h

section
variable (he : NMap.get? s.engines n = some c)
include he

theorem Runs.engineBeat_noRead (h : c.mayRead = false ∨ s.mayStart n c = false) :
    Runs (engineBeat n) s () (s.beatEnds n c) := by
  refine (Runs.get s).bind ?_
  rw [he]
  refine Runs.ite_neg ?_ (Runs.endBeat n c s)
  rw [Bool.and_eq_true]
  rintro ⟨hr, hm⟩
  rcases h with h | h
  · rw [h] at hr; cases hr
  · rw [h] at hm; cases hm

theorem Runs.engineBeat_read {data : List Byte} (hr : c.mayRead = true) (hm : s.mayStart n c = true)
    (h : Runs (engineReadRun n c c.rd c.beat) (s.begun n) data t) : Runs (engineBeat n) s ()
    (((enginePays c (c.srcVa c.rd) c.beat t).tookBeat n c data).beatEnds n c) := by
  refine (Runs.get s).bind ?_
  rw [he]
  refine Runs.ite_pos (by rw [hr, hm]; rfl) ((Runs.modify _ s).bind (h.caught.bind ((Runs.modify _ t).bind ?_)))
  by_cases hk : c.kind = .rcopy
  · rw [State.tookBeat, if_pos hk]
    exact Runs.ite_pos (beq_iff_eq.2 hk) ((Runs.modify _ _).bind ((Runs.modify _ _).bind ((Runs.modify _ _).bind
      (Runs.endBeat n c _))))
  · rw [State.tookBeat, if_neg hk]
    exact Runs.ite_neg (mt beq_iff_eq.1 hk) ((Runs.modify _ _).bind (Runs.endBeat n c _))

theorem Runs.engineBeat_got {data : List Byte} (hk : c.kind ≠ .rcopy) (hr : c.mayRead = true) (hm : s.mayStart n c = true)
    (h : Runs (engineReadRun n c c.rd c.beat) (s.begun n) data t) : Runs (engineBeat n) s ()
    (((enginePays c (c.srcVa c.rd) c.beat t).gotBeat n c data).beatEnds n c) := by
  have := Runs.engineBeat_read he hr hm h
  rwa [State.tookBeat, if_neg hk] at this

theorem Runs.engineBeat_sent {data : List Byte} (hk : c.kind = .rcopy) (hr : c.mayRead = true) (hm : s.mayStart n c = true)
    (h : Runs (engineReadRun n c c.rd c.beat) (s.begun n) data t) : Runs (engineBeat n) s ()
    (((enginePays c (c.srcVa c.rd) c.beat t).sentBeat n c data).beatEnds n c) := by
  have := Runs.engineBeat_read he hr hm h
  rwa [State.tookBeat, if_pos hk] at this

/-- A source in scratchpads of the tenant's own is read as it stands, and pays at no port. -/
theorem Runs.engineBeat_window {loc : Nat → Nat} (hr : c.mayRead = true) (hm : s.mayStart n c = true) (hk : c.kind ≠ .rcopy)
    (ha : c.sva % 4 = 0) (hb : s.badWords = []) (hq : ∀ x, (s.core x).comb = []) (hw : inWindow (c.srcVa c.rd) = true)
    (h : ∀ i < c.beat / 4, c.windowWord s (c.rd + 4 * i) (loc i)) : Runs (engineBeat n) s ()
    (((s.begun n).gotBeat n c ((List.range (c.beat / 4)).flatMap fun i => leBytes 4 (s.mem.readLe (loc i) 4))).beatEnds n c) := by
  have hcore (k : Nat) : (s.begun n).core k = s.core k := by rw [State.core, State.begun, State.modEngine_cores]; rfl
  have hread := Runs.engineReadRun_window (n := n) (s := s.begun n) (c := c) (k := c.rd) (m := c.beat) (loc := loc)
    ((State.modEngine_badWords _ _ _).trans hb) (fun x => by rw [hcore, hq]) ha
    (fun i hi => by simpa only [EngCmd.windowWord, hcore] using h i hi)
  have hpay : enginePays c (c.srcVa c.rd) c.beat (s.begun n) = s.begun n := by rw [enginePays, if_pos hw]
  have hmem : (s.begun n).mem = s.mem := State.modEngine_mem _ _ _
  have := Runs.engineBeat_got he hk hr hm hread
  rwa [hpay, hmem] at this

end

/-! A branch takes its beat (R221, R233). -/

/-- Without memory errors and without entries in combining windows, only memory changes. -/
theorem writeScratch_quiet (c : EngCmd) (b : Branch) (k : Nat) (data : List Byte) (s : State) (hb : s.badWords = [])
    (hq : ∀ x, (s.core x).comb = []) : ∃ m, writeScratch c b k data s = (true, { s with mem := m }) := by
  fun_induction writeScratch c b k data s with
  | case1 k x0 x1 x2 x3 rest s loc hbad => rw [State.bad_of_badWords_nil hb] at hbad; cases hbad
  | case2 k x0 x1 x2 x3 rest s loc hbad u ih =>
    have hu : u = s := settleScratch_of_comb_nil (hq _)
    rw [hu] at ih ⊢
    exact ih hb hq
  | case3 => exact ⟨_, rfl⟩

/-- The branch's bytes that its next beat takes: up to a line of a copy's destination, 64 else. -/
def EngCmd.takes (c : EngCmd) (b : Branch) : Nat := Min.min (if c.kind = .copy then 128 - c.dstVa b.pos % 128 else 64) (c.rd - b.pos)

/-- What stands after the branch's next bytes are written in its scratchpad. -/
def EngCmd.delivered (c : EngCmd) (b : Branch) (s : State) : State :=
  (writeScratch c b b.pos ((c.buf.drop (b.pos - c.bufBase)).take (c.takes b)) s).2

theorem EngCmd.delivered_mem {b : Branch} (hb : s.badWords = []) (hq : ∀ x, (s.core x).comb = []) :
    c.delivered b s = { s with mem := (c.delivered b s).mem } := by
  obtain ⟨m, h⟩ := writeScratch_quiet c b b.pos ((c.buf.drop (b.pos - c.bufBase)).take (c.takes b)) s hb hq
  rw [EngCmd.delivered, h]

theorem deliverBeat_quiet {b : Branch} {core : Nat} (he : NMap.get? s.engines n = some c)
    (hf : c.branches.find? (fun b => b.core == core) = some b) (hs : c.stop = none) (hc : b.credit = true)
    (ho : b.open' c.total = true) (hp : b.pos < c.rd)
    (hw : (s.core ((c.scratchOf b b.pos - scratchBase) / 2 ^ 20)).spOwner = c.ctx.tenant) (hb : s.badWords = [])
    (hq : ∀ x, (s.core x).comb = []) : deliverBeat n core s = (c.delivered b s).modEngine n fun k =>
      (k.modBranch core fun b' => { b' with pos := b'.pos + c.takes b }).trim := by
  obtain ⟨m, h⟩ := writeScratch_quiet c b b.pos ((c.buf.drop (b.pos - c.bufBase)).take (c.takes b)) s hb hq
  have hd : c.delivered b s = { s with mem := m } := by rw [EngCmd.delivered, h]
  rw [hd]
  unfold EngCmd.takes at h ⊢
  simp only [deliverBeat, he, hf, hs, hc, ho, hp, hw, Option.isNone_none, decide_true, Bool.and_self, if_true, bne_self_eq_false,
    Bool.false_eq_true, if_false, beq_iff_eq, h]

/-- The one branch of a command that reads no more takes its next beat. -/
theorem exec_trowelBeat_delivers {b : Branch} (hi : s.input = .trowelBeat n) (he : NMap.get? s.engines n = some c)
    (hr : c.mayRead = false) (hbr : c.branches = [b]) (hs : c.stop = none) (hc : b.credit = true) (ho : b.open' c.total = true)
    (hp : b.pos < c.rd) (hw : (s.core ((c.scratchOf b b.pos - scratchBase) / 2 ^ 20)).spOwner = c.ctx.tenant)
    (hb : s.badWords = []) (hq : ∀ x, (s.core x).comb = []) : exec .trowelBeat s =
      .next (sendSignals n ((c.delivered b s).modEngine n fun k =>
        (k.modBranch b.core fun b' => { b' with pos := b'.pos + c.takes b }).trim)).tick := by
  have hf : c.branches.find? (fun b' => b'.core == b.core) = some b := by simp [hbr]
  have h := Runs.engineBeat_noRead he (.inl hr)
  rw [State.beatEnds, hbr, List.foldl_cons, List.foldl_nil, deliverBeat_quiet he hf hs hc ho hp hw hb hq] at h
  exact exec_trowelBeat hi h

/-! An engine's write at its home (R124, R166). -/

theorem exec_engineWriteAtHome (hi : s.input = .engineWriteAtHome n) (h : Runs (engineWriteNext n) s () t) :
    exec .engineWriteAtHome s = .next t.tick := by
  show execEngineWriteAtHome s = _
  simp only [execEngineWriteAtHome, hi]
  exact execAgent_ok h

/-- Whether a command has a buffered word to write in memory. -/
def EngCmd.writeDue (c : EngCmd) : Prop := c.stop = none ∧ c.memDst = true ∧ c.wr + 4 ≤ c.rd

theorem EngCmd.writeDue_iff : (c.stop.isNone && c.memDst && decide (c.wr + 4 ≤ c.rd)) = true ↔ c.writeDue := by
  simp only [EngCmd.writeDue, Bool.and_eq_true, Option.isNone_iff_eq_none, decide_eq_true_eq, and_assoc]

section
variable {p : Place} {va : Nat} (hl : isLeased p.loc = false)
include hl

theorem writeGoes_notLeased : writeGoes p s = if s.lentOut p.loc 4 then .stop 0x09 else .place p := by
  simp only [writeGoes, hl, Bool.false_eq_true, if_false]

theorem Runs.wordPlace (ho : s.lentOut p.loc 4 = false) : Runs (wordPlace p va) s p s := by
  refine (Runs.get s).bind ?_
  rw [writeGoes_notLeased hl, ho]
  exact Runs.ite_neg (Bool.eq_false_iff.1 hl) (Runs.pure _ _)

theorem StopsWith.wordPlace_lent (ho : s.lentOut p.loc 4 = true) :
    StopsWith (wordPlace p va) s (.trap (xtrap 0x09 p.level kWrite va 0)) s := by
  refine (Runs.get s).bindStop ?_
  rw [writeGoes_notLeased hl, ho]
  exact StopsWith.stopTrap _ _

end

section
variable (he : NMap.get? s.engines n = some c)
include he

theorem Runs.engineWriteNext_notDue (h : ¬c.writeDue) : Runs (engineWriteNext n) s () s := by
  refine (Runs.get s).bind ?_
  rw [he]
  exact Runs.ite_neg (mt EngCmd.writeDue_iff.1 h) (Runs.pure _ _)

section
variable (hd : c.writeDue)
include hd

theorem Runs.engineWriteNext_unreached (hr : c.reaches c.wr = false) :
    Runs (engineWriteNext n) s () (stopEngine n ((c.failAt.map (·.2)).getD 0) s) := by
  refine (Runs.get s).bind ?_
  rw [he]
  refine Runs.ite_pos (EngCmd.writeDue_iff.2 hd) ?_
  rw [hr]
  exact Runs.set _ _

section
variable {p : Place} (hr : c.reaches c.wr = true) (hp : c.dstPlace c.wr = some p) (hx : s.discarded c.ctx.tenant p = false)
  (hl : isLeased p.loc = false)
include hr hp hx hl

/-- A page of the tenant's that is not leased stays where it is, but its region may have been lent. -/
theorem Runs.engineWriteNext_lent (ho : s.lentOut p.loc 4 = true) : Runs (engineWriteNext n) s () (stopEngine n 0x09 s) := by
  refine (Runs.get s).bind ?_
  rw [he]
  refine Runs.ite_pos (EngCmd.writeDue_iff.2 hd) ?_
  rw [hr, hp]
  exact Runs.ite_neg (Bool.eq_false_iff.1 hx) ((Runs.catchTrap_trap (StopsWith.wordPlace_lent hl ho)).bind (Runs.modify _ s))

theorem Runs.engineWriteNext_place (ho : s.lentOut p.loc 4 = false) : Runs (engineWriteNext n) s () (writeWordAt n c p s) := by
  refine (Runs.get s).bind ?_
  rw [he]
  refine Runs.ite_pos (EngCmd.writeDue_iff.2 hd) ?_
  rw [hr, hp]
  exact Runs.ite_neg (Bool.eq_false_iff.1 hx) ((Runs.caught (Runs.wordPlace hl ho)).bind (Runs.modify _ s))

end

end

end

/-! The word at its home (R112, R166, R171, R430). -/

section
variable {p : Place}

/-- What the home answers an engine: its writes take no part in races, so that the requesting core is not looked at. -/
def State.engineAnswer (s : State) (p : Place) : HomeAns := if p.plain then .ok else homeCheck none false (p.loc / 4) s

theorem HomeWord.answer_engine (x : Ctx) : HomeWord.answer ⟨p, p.loc / 4⟩ x false s = s.engineAnswer p := by
  simp only [HomeWord.answer, State.engineAnswer, homeCheck, Bool.and_false, Bool.false_and]

theorem writeWordAt_poisoned (h : s.engineAnswer p = .poisoned) : writeWordAt n c p s = stopEngine n 0x10 s := by
  simp only [writeWordAt, HomeWord.answer_engine, h]

/-- A request of 64 bytes, or what is left, pays at the port with its first word (R449). -/
def EngCmd.paysWrite (c : EngCmd) (s : State) : State :=
  if c.wr % 64 = 0 then noteRequest c.ctx (Min.min 64 (c.total - c.wr)) s else s

theorem writeWordAt_eq (h : s.engineAnswer p ≠ .poisoned) : writeWordAt n c p s =
    if s.bad (4 * (p.loc / 4)) 4 then stopEngine n 0x28 s
    else if !p.plain && !s.dieReachable (4 * (p.loc / 4)) then stopEngine n 0x29 s
    else if s.engineAnswer p == .held && s.ownerOf (p.loc / 4) != some (.engine n) then s
    else finishWord n c (p.loc / 4) p (c.paysWrite s) := by
  simp only [writeWordAt, HomeWord.answer_engine, EngCmd.paysWrite]

section
variable (h : s.engineAnswer p ≠ .poisoned)
include h

theorem writeWordAt_bad (hb : s.bad (4 * (p.loc / 4)) 4 = true) : writeWordAt n c p s = stopEngine n 0x28 s := by
  rw [writeWordAt_eq h, if_pos hb]

variable (hb : s.bad (4 * (p.loc / 4)) 4 = false)
include hb

theorem writeWordAt_unreachable (hf : p.plain = false) (hu : s.dieReachable (4 * (p.loc / 4)) = false) :
    writeWordAt n c p s = stopEngine n 0x29 s := by
  rw [writeWordAt_eq h, hb, if_neg Bool.false_ne_true, if_pos (by rw [hf, hu]; rfl)]

theorem writeWordAt_written (hu : p.plain = true ∨ s.dieReachable (4 * (p.loc / 4)) = true)
    (hh : s.engineAnswer p = .ok ∨ s.ownerOf (p.loc / 4) = some (.engine n)) :
    writeWordAt n c p s = finishWord n c (p.loc / 4) p (c.paysWrite s) := by
  have hreach : ¬(!p.plain && !s.dieReachable (4 * (p.loc / 4))) = true := by
    rcases hu with hu | hu <;> simp [hu]
  have hheld : ¬(s.engineAnswer p == .held && s.ownerOf (p.loc / 4) != some (.engine n)) = true := by
    rcases hh with hh | hh <;> simp [hh]
  rw [writeWordAt_eq h, hb, if_neg Bool.false_ne_true, if_neg hreach, if_neg hheld]

end

end

/-! Completion (R231). -/

theorem exec_engineCommandComplete (hi : s.input = .engineCommandComplete n) :
    exec .engineCommandComplete s = .next (completeEngine n s).tick := by
  show execEngineCommandComplete s = _
  simp only [execEngineCommandComplete, hi, execAgent_modify]

end

end Sys2Proof.Machine
end

section
/-! PROOFS. What the steps of homes, caches, engines and waiting sequencers do (O48). -/

namespace Sys2Proof.Machine

/-- Settles O48: each step by the condition that holds of it. -/
theorem homesCachesAndWakings : Obligations.HomesCachesAndWakings := by
  intro s runs
  refine ⟨fun k e rest hi hk h => exec_combiningWindowApply hi (applyOldest_home hk h),
    fun k e rest hi h => exec_combiningWindowApply hi (applyOldest_core h),
    ?vwaitFire,
    fun core k e hi he hh => exec_vwaitHostPoll hi he hh,
    fun core k l hi hl ho => exec_linkExpiry hi hl ho,
    fun core loc key hi hl hk hc hw ho ha => exec_homeReadRequest hi hl rfl hk hc rfl hw ho ha,
    fun core loc data u st _ h => exec_homeRequest_asks h,
    fun core hi => exec_homeRegistration hi,
    fun core loc data hi hd hn ha hb hc => exec_homeWriteThrough hi hd hn ha hb hc,
    fun core loc data hi hl hb => exec_homeWriteThrough_unbacked hi hl hb,
    exec_epochTick_due, exec_epochTick_notDue,
    fun core line hi => exec_l1UncorrectableError hi,
    ?hostReads, ?hostWrites, ?wakes,
    fun n file reg hi h => exec_longLatencyComplete hi h,
    ?credit, ?beat, ?write,
    fun n hi => exec_engineCommandComplete hi,
    fun core hi h hf => exec_coreSleep hi h hf,
    fun core hi h => exec_coreWake hi h⟩
  case vwaitFire =>
    rintro core k e t hi he hf rfl
    exact ⟨fun h => exec_vwaitFire hi he hf (.endVwaitIfLast_not h),
      fun cov d u h0 hw hr hc => exec_vwaitFire hi he hf (.endVwaitIfLast h0 hw hr hc)⟩
  case hostReads =>
    intro n hi line t
    refine ⟨fun ht hh => exec_hostSharedRead hi ht (hostReads_host hh),
      fun ht hh ho => exec_hostSharedRead hi ht (hostReads_hdm hh ho),
      fun ht hh hl ho => exec_hostSharedRead hi ht ((hostReads_refused hh ho).trans (hostRefused_read hl)), fun h => ?_⟩
    cases ht : s.takesHost line with
    | false => exact exec_hostSharedRead_later hi ht
    | true =>
      obtain ⟨hh, hl⟩ := h.resolve_left (by rw [ht]; nofun)
      exact exec_hostSharedRead hi ht (hostReads_other hh hl)
  case hostWrites =>
    intro n data hi line t u w
    refine ⟨fun ht hh => exec_hostExclusiveRequest hi ht (hostWrites_host data hh),
      fun ht hh ho => exec_hostExclusiveRequest hi ht (hostWrites_hdm hh ho),
      fun ht hh hl ho hd => ?_, fun ht hh hl ho hd => ?_, fun h => ?_⟩
    · refine exec_hostExclusiveRequest hi ht ((hostWrites_refused hh ?_).trans ?_)
      · rwa [if_neg hd]
      · rw [bne_iff_ne.2 hd]
        exact hostRefused_write hl
    · subst hd
      exact exec_hostExclusiveRequest hi ht ((hostWrites_refused hh ho).trans (hostRefused_read hl))
    · cases ht : s.takesHost line with
      | false => exact exec_hostExclusiveRequest_later hi ht
      | true =>
        obtain ⟨hh, hl⟩ := h.resolve_left (by rw [ht]; nofun)
        exact exec_hostExclusiveRequest hi ht (hostWrites_other data hh hl)
  case wakes =>
    intro n ok t hc
    exact ⟨fun va p sc hi hw hs h => exec_bwaitWake hc hi hw hs h, fun va d take acq hi hw h => exec_fgetWake hc hi hw h,
      fun dl c hi hw h => exec_wfeWake hc hi hw h, fun sup k dl d u hi hw h he => exec_evwaitWake hc hi hw h he⟩
  case credit =>
    intro n core c b hi he hf hs hm hc ho hp p covers
    have credit := takeCredit_eq he hf hs hm hc ho hp
    refine ⟨fun h => ?_, fun h => ?_⟩
    · exact exec_permitCreditTake hi (credit.trans (if_pos h))
    · exact exec_permitCreditTake hi (credit.trans (if_neg (Bool.eq_false_iff.1 h)))
  case beat =>
    intro n c hi he begun got ends
    refine ⟨fun h => exec_trowelBeat hi (Runs.engineBeat_noRead he h),
      fun hr hm data t h => ⟨fun hk => exec_trowelBeat hi (Runs.engineBeat_got he hk hr hm h),
        fun hk => exec_trowelBeat hi (Runs.engineBeat_sent he hk hr hm h)⟩,
      fun hr hm hk ha hb hq loc hw h => exec_trowelBeat hi (Runs.engineBeat_window he hr hm hk ha hb hq hw h),
      fun b hr hbr hs hc ho hp hw hb hq => ⟨EngCmd.delivered_mem hb hq, ?_⟩⟩
    exact exec_trowelBeat_delivers hi he hr hbr hs hc ho hp hw hb hq
  case write =>
    intro n c hi he stops due
    refine ⟨fun h => exec_engineWriteAtHome hi (.engineWriteNext_notDue he h),
      fun hd hr => exec_engineWriteAtHome hi (.engineWriteNext_unreached he hd hr),
      fun p hd hr hp hx hl => ⟨fun ho => exec_engineWriteAtHome hi (.engineWriteNext_lent he hd hr hp hx hl ho), fun ho => ?_⟩⟩
    have word {t : State} (h : writeWordAt n c p s = t) : runs .engineWriteAtHome t :=
      exec_engineWriteAtHome hi (h ▸ .engineWriteNext_place he hd hr hp hx hl ho)
    exact ⟨fun h => word (writeWordAt_poisoned h), fun h hb => word (writeWordAt_bad h hb),
      fun h hb hf hu => word (writeWordAt_unreachable h hb hf hu),
      fun hh h hb hu => ⟨rfl, word (writeWordAt_written h hb hu hh)⟩⟩

end Sys2Proof.Machine
end

section
/-! PROOFS. What loads and stores share: bytes of memory apart from one another, scratchpad windows, steps over elements (R181, R182,
R221). -/

namespace Sys2Proof.Machine

section
variable {s t : State}

theorem Runs.bind_iff {α β : Type} {m : M α} {f : α → M β} {b : β} :
    Runs (m >>= f) s b t ↔ ∃ a u, Runs m s a u ∧ Runs (f a) u b t := by
  refine ⟨fun h => ?_, fun ⟨_, _, h, k⟩ => h.bind k⟩
  unfold Runs at h
  rw [run_bind] at h
  split at h
  · next a u hm => exact ⟨a, u, hm, h⟩
  · cases h

/-- A trap is no end of a meaning. -/
theorem not_runs_stopTrap_bind {α β : Type} {x : Trap} {f : α → M β} {b : β} : ¬Runs (stopTrap x >>= f) s b t := by
  intro h
  obtain ⟨_, _, h, _⟩ := Runs.bind_iff.1 h
  cases h

/-- A meaning that ends passed a check on its way. -/
theorem Runs.of_check {α : Type} {c : Prop} [Decidable c] {x : Trap} {k : Unit → M α} {a : α}
    (h : Runs (if c then do let r ← stopTrap x; k r else k ()) s a t) : ¬c ∧ Runs (k ()) s a t := by
  split at h
  · exact absurd h not_runs_stopTrap_bind
  · exact ⟨‹_›, h⟩

theorem StopsWith.ite_neg {α : Type} {c : Prop} [Decidable c] {m k : M α} {st : Stop} (hc : ¬c) (h : StopsWith k s st t) :
    StopsWith (if c then m else k) s st t := by rwa [if_neg hc]

/-- A step taken only under a condition, with what follows it in either case. -/
theorem Runs.whenThen {α : Type} {c : Prop} [Decidable c] {m : M Unit} {k : Unit → M α} {u : State} {a : α}
    (h : Runs (if c then m else Pure.pure ()) s () u) (hk : Runs (k ()) u a t) :
    Runs (if c then do let r ← m; k r else k ()) s a t := by
  split at h
  · next hc => exact Runs.ite_pos hc (h.bind hk)
  · next hc =>
    cases h
    exact Runs.ite_neg hc hk

/-- An instruction whose meaning ends with a change of its own sequencer. -/
theorem execWhole_modMe {m : M Unit} {f : Seq → Seq} (h : Runs m s () (t.modSeq t.cur f)) : execWhole m s = .next (t.fell f) := by
  rw [execWhole_ok h]
  simp only [State.fell, State.modSeq, State.setSeq_cur, State.seq_setSeq_self]
  congr 2
  simp only [State.setSeq, NMap.set_set]

/-! Bytes of memory. -/

theorem Memory.readLe_congr {m m' : Memory} (n : Nat) : ∀ {loc : Nat}, (∀ i, loc ≤ i → i < loc + n → m'.read i = m.read i) →
    m'.readLe loc n = m.readLe loc n := by
  induction n with
  | zero => exact fun _ => rfl
  | succ n ih =>
    intro loc h
    simp only [Memory.readLe]
    rw [h loc (by omega) (by omega), ih fun i hl hi => h i (by omega) (by omega)]

/-- A read of bytes that lie apart from those written. -/
theorem Memory.readLe_writeLe_apart {m : Memory} {loc n v a k : Nat} (h : a + k ≤ loc ∨ loc + n ≤ a) :
    (m.writeLe loc n v).readLe a k = m.readLe a k :=
  Memory.readLe_congr k fun i hl hi => Memory.read_writeLe_outside n m loc v i (by omega)

theorem Memory.readLe_lt (m : Memory) (n : Nat) : ∀ loc, m.readLe loc n < 2 ^ (8 * n) := by
  induction n with
  | zero => exact fun _ => Nat.one_pos
  | succ n ih =>
    intro loc
    simp only [Memory.readLe]
    have hb := (m.read loc).isLt
    have hn := ih (loc + 1)
    rw [Nat.mul_succ, Nat.pow_add]
    omega

/-! Scratchpad windows (R221). -/

/-- The two windows: the core's own scratchpad, and those of its cluster. -/
theorem windowTarget_iff {c va k x : Nat} : windowTarget c va = some (k, x) ↔
    (va % 2 ^ 48 < 2 ^ 20 ∧ k = c ∧ x = va % 2 ^ 48) ∨
    (2 ^ 32 ≤ va % 2 ^ 48 ∧ va % 2 ^ 48 < 2 ^ 32 + 2 ^ 23 ∧ k = c / 8 * 8 + (va % 2 ^ 48 - 2 ^ 32) / 2 ^ 20 ∧
      x = (va % 2 ^ 48 - 2 ^ 32) % 2 ^ 20) := by
  unfold windowTarget
  generalize va % 2 ^ 48 = o
  dsimp only
  split
  · simp only [Option.some.injEq, Prod.mk.injEq]
    omega
  · split
    · next h => simp only [Bool.and_eq_true, decide_eq_true_eq] at h
                simp only [Option.some.injEq, Prod.mk.injEq]
                omega
    · next h => simp only [Bool.and_eq_true, decide_eq_true_eq] at h
                simp only [reduceCtorEq, false_iff]
                omega

/-- A window's scratchpad offset, and how far the windows reach. -/
theorem windowTarget_lt {c va k x : Nat} (h : windowTarget c va = some (k, x)) : x < 2 ^ 20 ∧ va % 2 ^ 48 < 2 ^ 33 := by
  rw [windowTarget_iff] at h
  omega

/-- A later byte of the same scratchpad. -/
theorem windowTarget_add {c va k x i : Nat} (h : windowTarget c va = some (k, x)) (hi : x + i < 2 ^ 20) :
    windowTarget c (va + i) = some (k, x + i) := by
  have hlt := (windowTarget_lt h).2
  rw [windowTarget_iff] at h ⊢
  have hm : (va + i) % 2 ^ 48 = va % 2 ^ 48 + i := by omega
  omega

theorem inWindow_add {va i : Nat} (h : inWindow va = true) (hi : va % 2 ^ 48 + i < 2 ^ 48) : inWindow (va + i) = true := by
  simp only [inWindow, beq_iff_eq] at h ⊢
  omega

/-- A whole number of units into the window is as many into the scratchpad. -/
theorem windowTarget_dvd {c va k x n : Nat} (h : windowTarget c va = some (k, x)) (hn : n ∣ 2 ^ 20) (hv : n ∣ va) : n ∣ x := by
  have hp (i : Nat) (hi : 20 ≤ i) : n ∣ 2 ^ i := Nat.dvd_trans hn (Nat.pow_dvd_pow 2 hi)
  have h48 : n ∣ va % 2 ^ 48 := (Nat.dvd_mod_iff (hp 48 (by omega))).2 hv
  rw [windowTarget_iff] at h
  rcases h with ⟨_, _, hx⟩ | ⟨_, _, _, hx⟩ <;> rw [hx]
  · exact h48
  · exact (Nat.dvd_mod_iff hn).2 (Nat.dvd_sub h48 (hp 32 (by omega)))

/-- An aligned access in a window lies within the scratchpad. -/
theorem windowTarget_room {c va k x n : Nat} (h : windowTarget c va = some (k, x)) (hn : n ∣ 2 ^ 20) (hv : n ∣ va) :
    x + n ≤ 2 ^ 20 := by
  obtain ⟨a, rfl⟩ := windowTarget_dvd h hn hv
  obtain ⟨b, hb⟩ := hn
  have hlt := (windowTarget_lt h).1
  rw [hb] at hlt ⊢
  exact Nat.mul_succ n a ▸ Nat.mul_le_mul_left n (Nat.lt_of_mul_lt_mul_left hlt)

/-- A part of a quiet window. -/
theorem State.quietWindow.part {va n k x i m : Nat} (h : s.quietWindow va n k x) (hm : 0 < m) (hi : i + m ≤ n) :
    s.quietWindow (va + i) m k (x + i) := by
  obtain ⟨hw, ht, hx, ho, hc, hb⟩ := h
  have hlt := (windowTarget_lt ht).2
  exact ⟨inWindow_add hw (by omega), windowTarget_add ht (by omega), by omega, ho, hc, hb⟩

section
variable {va n k x : Nat} (h : s.quietWindow va n k x)
include h

theorem Runs.windowPlace_quiet {kind e : Nat} (hk : kind ≠ kFetch) :
    Runs (Machine.windowPlace (s.ctx s.cur) kind va n e) s { loc := scratchLoc k x, scratch := some k } s := by
  obtain ⟨_, ht, hx, ho, _, _⟩ := h
  exact Runs.windowPlace ht hk ho hx

/-- A window stands for a page without a leaf. -/
theorem Runs.resolveFor_quiet {buf : Buffer} {kind e : Nat} {tests : LeafTests} (hk : kind ≠ kFetch) (hv : va < 2 ^ 56) :
    Runs (resolveFor (s.ctx s.cur) buf kind va n e tests) s (none, { loc := scratchLoc k x, scratch := some k }) s := by
  unfold resolveFor
  dsimp only
  rw [Nat.mod_eq_of_lt hv, if_pos h.1]
  exact (Runs.windowPlace_quiet h hk).bind (Runs.pure _ _)

end

section
variable {c : Ctx} {k loc n kind va e : Nat} (hc : (s.core k).comb = []) (hb : s.badWords = [])
include hc hb

theorem Runs.loadOrdered_scratch {acq plain : Bool} :
    Runs (loadOrdered c { loc := loc, scratch := some k } n acq plain kind va e) s (s.mem.readLe loc n) s :=
  (Runs.get s).bind (Runs.ite_neg (Bool.eq_false_iff.1 (State.bad_of_badWords_nil hb)) (Runs.loadScratch hc))

theorem Runs.storeBytes_scratch {v : Nat} {relaxed : Bool} :
    Runs (storeBytes c { loc := loc, scratch := some k } n v relaxed kind va e) s () { s with mem := s.mem.writeLe loc n v } := by
  refine (Runs.get s).bind (Runs.ite_neg (Bool.eq_false_iff.1 (State.bad_of_badWords_nil hb)) ?_)
  have hm := Runs.modify (settleScratch k loc n) s
  rw [settleScratch_of_comb_nil hc] at hm
  exact hm.bind (Runs.modify _ s)

end

/-! Traps (R96, R182, R184; log 13). -/

/-- What a leaf is tested for after its permission, where every other check of it passes (R96, R184). -/
theorem StopsWith.checkLeaf_after {c : Ctx} {buf : Buffer} {kind va n e cause : Nat} {tests : LeafTests} {l : Leaf}
    (h : Runs (checkLeaf c buf kind va n e .none) s l t) (hf : tests.badFormat l = false) (ha : tests.after l = some cause) :
    StopsWith (checkLeaf c buf kind va n e tests) s (.trap (xtrap cause l.level kind (va % 2 ^ 56) e)) t := by
  obtain ⟨k, u, hk, h⟩ := Runs.bind_iff.1 h
  obtain ⟨v, u', hv, h⟩ := Runs.bind_iff.1 h
  cases hv
  refine hk.bindStop ((Runs.get u).bindStop ?_)
  dsimp only at h ⊢
  cases ht : tierFault u c.tenant k with
  | some => rw [ht] at h; exact absurd h not_runs_stopTrap_bind
  | none =>
    rw [ht] at h
    obtain ⟨_, h⟩ := Runs.of_check h
    obtain ⟨hp, h⟩ := Runs.of_check h
    cases h
    refine .ite_neg (Bool.eq_false_iff.1 hf) (.ite_neg hp ?_)
    rw [ha]
    exact .stopTrap _ _

theorem misaligned_read {a e : Nat} (h : a < 2 ^ 56) :
    misaligned kRead a e = { cause := 0x0D, tval := BitVec.ofNat 64 a, estart := some e } := by
  rw [misaligned, xtrap, tvalOf, Nat.mod_eq_of_lt h]
  simp [kRead]

theorem misaligned_write {a e : Nat} (h : a < 2 ^ 56) :
    misaligned kWrite a e = { cause := 0x0D, tval := BitVec.ofNat 64 (2 ^ 56 + a), estart := some e } := by
  rw [misaligned, xtrap, tvalOf, Nat.mod_eq_of_lt h]
  simp [kWrite]

end

end Sys2Proof.Machine
end

section
/-! PROOFS. Scalar loads and stores (O23, O24). -/

namespace Sys2Proof.Machine

section
variable {s : State} {o : LArgs}

/-! Types and addresses (R41, R184). -/

theorem scalarBytes_eq (ty : BitVec 3) : scalarBytes ty.toNat = [1, 2, 4, 8].getD (ty.toNat % 4) 1 := by
  revert ty
  decide

theorem scalarBytes_dvd (ty : BitVec 3) : scalarBytes ty.toNat ∣ 8 := by
  revert ty
  decide

/-- The address of a scalar access. -/
def State.scalarVa (s : State) (o : LArgs) : Nat := (s.self.scalar o.sa.reg + o.imm.signExtend 64).toNat % 2 ^ 56

theorem State.scalarVa_lt (s : State) (o : LArgs) : s.scalarVa o < 2 ^ 56 := Nat.mod_lt _ (by decide)

/-- An aligned scalar access of a window lies in the scratchpad (R182, R221). -/
theorem State.quietWindow_of_aligned {va k x : Nat} (ty : BitVec 3) (ha : va % scalarBytes ty.toNat = 0) (hw : inWindow va = true)
    (ht : windowTarget (coreOf s.cur) va = some (k, x)) (ho : (s.core k).spOwner = s.self.tenant) (hc : (s.core k).comb = [])
    (hb : s.badWords = []) : s.quietWindow va (scalarBytes ty.toNat) k x :=
  ⟨hw, ht, windowTarget_room ht (Nat.dvd_trans (scalarBytes_dvd ty) ⟨2 ^ 17, rfl⟩) (Nat.dvd_of_mod_eq_zero ha), ho, hc, hb⟩

/-- The register takes the signed value of the bits, or the bits (R183). -/
theorem scalarExtend_eq (w v : Nat) : BitVec.ofInt 64 (sext w v) = (BitVec.ofNat w v).signExtend 64 := by
  rw [BitVec.signExtend, BitVec.toInt_eq_toNat_cond, BitVec.toNat_ofNat, sext]

/-- The register's value for the n bytes of a type: signed or zero-extended (R183). -/
def scalarExtended (ty : BitVec 3) (v : Nat) : DWord :=
  if ty.toNat < 4 then (BitVec.ofNat (8 * scalarBytes ty.toNat) v).signExtend 64 else BitVec.ofNat 64 v

theorem scalarExtended_eq (ty : BitVec 3) (v : Nat) :
    (if ty.toNat < 4 then BitVec.ofInt 64 (sext (8 * scalarBytes ty.toNat) v) else BitVec.ofNat 64 v) = scalarExtended ty v := by
  rw [scalarExtended, scalarExtend_eq]

/-- A result of another unit, and control falls through (R14, R34). -/
theorem execWhole_writeLong {t : State} {m : M Unit} {r : Reg} {v : DWord}
    (h : Runs m s () (if r = 0 then t else t.modSeq t.cur (·.sentLong r v t.cycle))) :
    execWhole m s = .next (t.fell (·.sentLong r v t.cycle)) := by
  by_cases h0 : r = 0
  · rw [if_pos h0] at h
    rw [execWhole_ok h]
    simp only [State.fell, Seq.sentLong, if_pos h0]
  · rw [if_neg h0] at h
    exact execWhole_modMe h

section
variable (ha : s.full .scalar o.sa.reg)
include ha

theorem Runs.scalarAddr : Runs (scalarAddr o) s (s.scalarVa o) s := (Runs.readS ha).bind (Runs.pure _ _)

variable (hd : s.full .scalar o.d)
include hd

/-! `ld` (R183 to R185). -/

theorem exec_ld_misaligned (h : s.scalarVa o % scalarBytes o.ty.toNat ≠ 0) : exec (.ld o) s =
    .next (s.trapped { cause := 0x0D, tval := BitVec.ofNat 64 (s.scalarVa o), estart := some 0 }) := by
  refine (execWhole_trap ((Runs.scalarAddr ha).bindStop ((Runs.needWritable hd).bindStop ?_)))
  rw [← misaligned_read (s.scalarVa_lt o)]
  dsimp only
  rw [if_pos h]
  exact (StopsWith.stopTrap _ _).bind

/-- The word is had from its place, after the acquire of an acquire load. -/
theorem exec_ld {l : Option Leaf} {p : Place} {v : Nat} {s1 s2 : State} (h : s.scalarVa o % scalarBytes o.ty.toNat = 0)
    (hr : Runs (resolve (s.ctx s.cur) .l1 kRead (s.scalarVa o) (scalarBytes o.ty.toNat) 0) s (l, p) s1)
    (hv : Runs (loadOrdered (s.ctx s.cur) p (scalarBytes o.ty.toNat) (o.ord == .acq && o.scope != .seq) (o.ord != .acq) kRead
      (s.scalarVa o) 0) (if o.ord = .acq then acquireL1 (coreOf s1.cur) o.scope s1 else s1) v s2)
    (h2 : s2.full .scalar o.d) :
    exec (.ld o) s = .next (s2.fell (·.sentLong o.d (scalarExtended o.ty v) s2.cycle)) := by
  have hacq : Runs (if o.ord == .acq then acquire o.scope else pure ()) s1 ()
      (if o.ord = .acq then acquireL1 (coreOf s1.cur) o.scope s1 else s1) := by
    simp only [beq_iff_eq]
    split
    · exact Runs.acquire _ _
    · exact Runs.pure _ _
  rw [← scalarExtended_eq]
  exact execWhole_writeLong ((Runs.scalarAddr ha).bind ((Runs.needWritable hd).bind (Runs.ite_neg (fun hn => hn h)
    ((Runs.get s).bind (hr.bind (Runs.whenThen hacq (hv.bind (Runs.writeLong h2))))))))

/-- A relaxed load of a scratchpad reads memory, which is unchanged (R221). -/
theorem exec_ld_quiet {k x : Nat} (h : s.scalarVa o % scalarBytes o.ty.toNat = 0) (ho : o.ord = .rlx)
    (hq : s.quietWindow (s.scalarVa o) (scalarBytes o.ty.toNat) k x) : exec (.ld o) s = .next (s.fell
      (·.sentLong o.d (scalarExtended o.ty (s.mem.readLe (scratchLoc k x) (scalarBytes o.ty.toNat))) s.cycle)) := by
  obtain ⟨_, _, _, _, hc, hb⟩ := id hq
  refine exec_ld ha hd h (Runs.resolveFor_quiet hq (by decide) (s.scalarVa_lt o)) ?_ hd
  rw [ho]
  exact Runs.loadOrdered_scratch hc hb

/-! `st` (R183, R184). -/

theorem exec_st_misaligned (h : s.scalarVa o % scalarBytes o.ty.toNat ≠ 0) : exec (.st o) s =
    .next (s.trapped { cause := 0x0D, tval := BitVec.ofNat 64 (2 ^ 56 + s.scalarVa o), estart := some 0 }) := by
  refine execWhole_trap ((Runs.scalarAddr ha).bindStop ((Runs.readReg hd).bindStop ?_))
  rw [← misaligned_write (s.scalarVa_lt o)]
  dsimp only
  rw [if_pos h]
  exact (StopsWith.stopTrap _ _).bind

/-- A page with a scale array: no part of a block is written (R184, R192). -/
theorem exec_st_scaled {l : Leaf} {s1 : State} (h : s.scalarVa o % scalarBytes o.ty.toNat = 0)
    (hw : inWindow (s.scalarVa o) = false)
    (hl : Runs (checkLeaf (s.ctx s.cur) .l1 kWrite (s.scalarVa o) (scalarBytes o.ty.toNat) 0 .none) s l s1)
    (hs : l.pte.scf ≠ 0) : exec (.st o) s = .next (s1.trapped (xtrap 0x0C l.level kWrite (s.scalarVa o) 0)) := by
  have hc := StopsWith.checkLeaf_after (tests := scalarStoreTests) (cause := 0x0C) hl rfl (by simp [scalarStoreTests, hs])
  refine execWhole_trap ((Runs.scalarAddr ha).bindStop ((Runs.readReg hd).bindStop (.ite_neg (fun hn => hn h)
    ((Runs.get s).bindStop (StopsWith.bind (StopsWith.bind ?_))))))
  unfold resolveFor
  dsimp only
  rw [Nat.mod_eq_of_lt (s.scalarVa_lt o)] at hc ⊢
  exact .ite_neg (Bool.eq_false_iff.1 hw) hc.bind.bind

/-- The bytes go to their place, after the release of a release store. -/
theorem exec_st {p : Place} {s1 s2 s3 : State} (h : s.scalarVa o % scalarBytes o.ty.toNat = 0)
    (hp : Runs (storePlace (s.ctx s.cur) (s.scalarVa o) (scalarBytes o.ty.toNat)) s p s1)
    (hr : Runs (if o.ord = .rel then release o.scope else pure ()) s1 () s2)
    (hs : Runs (storeBytes (s.ctx s.cur) p (scalarBytes o.ty.toNat)
      ((s.self.scalar o.d).toNat % 2 ^ (8 * scalarBytes o.ty.toNat)) (o.ord == .rlx) kWrite (s.scalarVa o) 0) s2 () s3) :
    exec (.st o) s = .next (s3.fell id) := by
  simp only [← beq_iff_eq (a := o.ord)] at hr
  exact execWhole_ok ((Runs.scalarAddr ha).bind ((Runs.readReg hd).bind (Runs.ite_neg (fun hn => hn h)
    ((Runs.get s).bind (hp.bind (Runs.whenThen hr hs))))))

/-- A relaxed store to a scratchpad writes its bytes and nothing else (R221). -/
theorem exec_st_quiet {k x : Nat} (h : s.scalarVa o % scalarBytes o.ty.toNat = 0) (ho : o.ord = .rlx)
    (hq : s.quietWindow (s.scalarVa o) (scalarBytes o.ty.toNat) k x) : exec (.st o) s =
    .next ({ s with mem := s.mem.writeLe (scratchLoc k x) (scalarBytes o.ty.toNat)
                             ((s.self.scalar o.d).toNat % 2 ^ (8 * scalarBytes o.ty.toNat)) }.fell id) := by
  obtain ⟨_, _, _, _, hc, hb⟩ := id hq
  refine exec_st ha hd h ((Runs.resolveFor_quiet hq (by decide) (s.scalarVa_lt o)).bind (Runs.pure _ _)) (s2 := s) ?_
    (Runs.storeBytes_scratch hc hb)
  rw [ho]
  exact Runs.pure _ _

end
end

/-- Settles O23: a misaligned address stops before its page is looked at; else the place gives the bytes, in a quiet window those of
memory. -/
theorem scalarLoadResult : Obligations.ScalarLoadResult := by
  intro o s ha hd
  rw [← scalarBytes_eq]
  refine ⟨exec_ld_misaligned ha hd, fun h l p s1 v s2 hr hv h2 _ => exec_ld ha hd h hr hv h2,
    fun h ho k x hw ht hown hc hb => exec_ld_quiet ha hd h ho (State.quietWindow_of_aligned o.ty h hw ht hown hc hb)⟩

/-- Settles O24: as a load, with the checks of a scaled page; in a quiet window memory alone changes, and there only the bytes
written. -/
theorem scalarStoreEffectAndFrame : Obligations.ScalarStoreEffectAndFrame := by
  intro o s ha hd
  rw [← scalarBytes_eq]
  refine ⟨exec_st_misaligned ha hd, fun h hw l s1 hl hs => exec_st_scaled ha hd h hw hl hs,
    fun h p s1 s2 s3 hp hr hs => exec_st ha hd h hp hr hs, fun h ho k x hw ht hown hc hb => ?_⟩
  refine ⟨_, exec_st_quiet ha hd h ho (State.quietWindow_of_aligned o.ty h hw ht hown hc hb), ?_,
    fun loc hl => Memory.read_writeLe_outside _ _ _ _ _ hl, rfl⟩
  have hp : 256 ^ scalarBytes o.ty.toNat = 2 ^ (8 * scalarBytes o.ty.toNat) := (Nat.pow_mul 2 8 _).symm
  exact (Memory.readLe_writeLe _ _ _ _).trans (by rw [hp, Nat.mod_mod])

end Sys2Proof.Machine
end

section
/-! PROOFS. What brick loads and stores share: steps over elements, address forms, elements of scratchpad windows (R181, R182, R187,
R188, R221). -/

namespace Sys2Proof.Machine

section
variable {s t u : State} {α : Type}

/-! Steps over elements. -/

theorem Runs.atElement {m : M α} {a : α} {e : Nat} (h : Runs m s a t) : Runs (atElement e m) s a t := by
  unfold Runs at *
  unfold Machine.atElement
  rw [run_tryCatch, h]

theorem RunsAll.imp {f g : α → M Unit} (h : ∀ a u v, Runs (f a) u () v → Runs (g a) u () v) {l : List α} :
    ∀ {s : State}, RunsAll f l s t → RunsAll g l s t := by
  induction l with
  | nil => exact id
  | cons a l ih => exact fun ⟨u, ha, hl⟩ => ⟨u, h a _ u ha, ih hl⟩

theorem Runs.forEach {f : α → M Unit} {l : List α} : ∀ {s : State}, RunsAll f l s t → Runs (forEach l f) s () t := by
  induction l with
  | nil =>
    intro s h
    cases h
    exact Runs.pure _ _
  | cons a l ih =>
    intro s ⟨u, ha, hl⟩
    rw [Machine.forEach, List.foldlM_cons]
    exact ha.bind (ih hl)

/-! Falling through. -/

/-- What falling through does, it does to the sequencer as it stands. -/
theorem State.fell_congr {f g : Seq → Seq} (h : f s.self = g s.self) : s.fell f = s.fell g := by
  have h' : f (s.seq s.cur) = g (s.seq s.cur) := h
  rw [State.fell, State.fell, State.modSeq, State.modSeq, h']

theorem State.bricks_fell (f : Seq → Seq) (s : State) : (s.fell f).self.bricks = (f s.self).bricks := by
  have h : (s.fell f).self = (f s.self).advance := State.seq_setSeq_self _ _ _
  rw [h, Seq.advance_bricks]

/-! The checks of a brick access, and its address form (R182, R187, R188). -/

theorem Runs.needType {ty : Ty} (h : s.self.typed ty) : Runs (needType ty) s () s := by
  refine (Runs.mySeq s).bind (Runs.ite_neg ?_ (Runs.pure _ _))
  simp [h.1, h.2]

theorem Runs.checkBase {kind base w : Nat} {es : List Nat} (h : es = [] ∨ baseAligned base w = true) :
    Runs (checkBase kind base w es) s () s := by
  cases es with
  | nil => exact Runs.pure _ _
  | cons e rest => exact Runs.ite_neg (by simpa using h) (Runs.pure _ _)

theorem StopsWith.checkBase {kind base w e : Nat} {rest : List Nat} (h : baseAligned base w = false) :
    StopsWith (checkBase kind base w (e :: rest)) s (.trap (misaligned kind base e)) s := by
  show StopsWith (if (!baseAligned base w) = true then _ else _) _ _ _
  rw [if_pos (by rw [h]; rfl)]
  exact .stopTrap _ _

theorem Runs.shapedForm {b : Src} (h : s.formFull 1 b) : Runs (shapedForm b) s (s.formOf 1 b) s := (Runs.readS h).bind (Runs.pure _ _)

theorem Runs.stridedForm {b : Src} (h : s.formFull 2 b) : Runs (stridedForm b) s (s.formOf 2 b) s :=
  (Runs.readS h.1).bind ((Runs.readS (a := ⟨b.reg + 1, b.w⟩) h.2.1).bind
    ((Runs.readS (a := ⟨b.reg + 2, b.w⟩) h.2.2).bind (Runs.pure _ _)))

theorem Runs.indexedForm {b : Src} (h : s.formFull 3 b) : Runs (indexedForm b) s (s.formOf 3 b) s :=
  (Runs.needFull h).bind (Runs.pure _ _)

/-- The base of a brick access, its memory width, its active elements, and where each lies (R181, R182, R187). -/
def State.brickBase (s : State) (o : VArgs) : Nat := (s.self.scalar o.sa.reg).toNat % 2 ^ 56

def brickWidth (o : VArgs) : Nat := mwBits (o.vmod.toNat % 8) o.ty

def State.brickElems (s : State) (o : VArgs) : List Nat := s.self.activeFrom o.me o.msel

def State.brickEa (s : State) (o : VArgs) (f : AddrForm) (e : Nat) : Nat :=
  eaSum (brickWidth o) (eaOf (s.brickBase o) (brickWidth o)) (s.self.elemOffset f e)

theorem State.brickBase_lt (s : State) (o : VArgs) : s.brickBase o < 2 ^ 56 := Nat.mod_lt _ (by decide)

theorem State.mem_brickElems {o : VArgs} {e : Nat} (h : e ∈ s.brickElems o) : e < s.self.vl := by
  simp only [State.brickElems, Seq.activeFrom, upFrom, List.mem_filter, List.mem_map, List.mem_range] at h
  omega

/-! Elements of a window (R221). -/

/-- Two states agree in all that an access to a window looks at, but for memory. -/
def State.sameWindows (u s : State) : Prop := u.ctx u.cur = s.ctx s.cur ∧ u.cores = s.cores ∧ u.badWords = s.badWords

theorem State.sameWindows.refl (s : State) : s.sameWindows s := ⟨rfl, rfl, rfl⟩

theorem State.sameWindows.setElem {b e : Nat} {v : DWord} (h : u.sameWindows s) :
    (u.modSeq u.cur (·.setElem b e v)).sameWindows s := by
  refine ⟨Eq.trans ?_ h.1, h.2⟩
  simp only [State.ctx, State.modSeq, State.setSeq_cur, State.seq_setSeq_self]
  rfl

theorem State.sameWindows.quietWindow {va n k x : Nat} (h : u.sameWindows s) (hq : s.quietWindow va n k x) :
    u.quietWindow va n k x := by
  obtain ⟨hctx, hcores, hbad⟩ := h
  have hcore : coreOf u.cur = coreOf s.cur := congrArg Ctx.core hctx
  have ht : u.self.tenant = s.self.tenant := congrArg Ctx.tenant hctx
  simpa only [State.quietWindow, State.core, hcore, ht, hcores, hbad] using hq

theorem width_eq (ty : Ty) : ty.width = 8 * (ty.width / 8) := by cases ty <;> rfl

theorem width_cases (ty : Ty) : ty.width = 8 ∨ ty.width = 16 ∨ ty.width = 32 ∨ ty.width = 64 := by cases ty <;> decide

theorem width_pos (ty : Ty) : 0 < ty.width / 8 := by cases ty <;> decide

theorem spanBytes_width (ty : Ty) : spanBytes ty.width 0 = ty.width / 8 := by cases ty <;> rfl

/-- Neither of the two widths that are packed in their own way (R182). -/
theorem width_ne (ty : Ty) : ty.width ≠ 3 ∧ ty.width ≠ 4 := by cases ty <;> decide

section
variable {w : Nat} (h3 : w ≠ 3)
include h3

theorem epp_of_ne : epp w = 65536 * 8 / w := if_neg h3

theorem eaVa_of_ne (ea : Nat) : eaVa ea w = ea / (65536 * 8 / w) % 2 ^ 40 * 65536 + ea % (65536 * 8 / w) * w / 8 := by
  rw [eaVa, slotPlace, if_neg h3, epp_of_ne h3]

variable (h4 : w ≠ 4)
include h4

theorem eaOf_of_ne (va : Nat) : eaOf va w = va / 65536 % 2 ^ 40 * (65536 * 8 / w) + va % 65536 / (w / 8) := by
  unfold eaOf
  dsimp only
  rw [if_neg h4, if_neg h3, epp_of_ne h3]

theorem baseAligned_of_ne (va : Nat) : baseAligned va w = (va % 65536 % (w / 8) == 0) := by
  unfold baseAligned
  dsimp only
  rw [if_neg h4, if_neg h3]

end

theorem eaSum_natCast (w a e : Nat) : eaSum w a (e : Int) = (a + e) % (2 ^ 40 * epp w) := by
  rw [eaSum, ← Int.natCast_add, ← Int.natCast_emod, Int.toNat_natCast]

/-- Without a stride the elements of whole bytes lie one after another from an aligned base (R182, R187). -/
theorem eaVa_unit {base e : Nat} (ty : Ty) (ha : base % (ty.width / 8) = 0) (hv : base + ty.width / 8 * e < 2 ^ 56) :
    eaVa (eaSum ty.width (eaOf base ty.width) (e : Int)) ty.width = base + ty.width / 8 * e := by
  obtain ⟨h3, h4⟩ := width_ne ty
  rw [eaVa_of_ne h3, eaSum_natCast, epp_of_ne h3, eaOf_of_ne h3 h4]
  rcases width_cases ty with h | h | h | h <;> rw [h] at ha hv ⊢ <;> omega

theorem baseAligned_width {base : Nat} (ty : Ty) (ha : base % (ty.width / 8) = 0) : baseAligned base ty.width = true := by
  obtain ⟨h3, h4⟩ := width_ne ty
  rw [baseAligned_of_ne h3 h4, beq_iff_eq]
  rcases width_cases ty with h | h | h | h <;> rw [h] at ha ⊢ <;> omega

/-- With its own width for the memory width an element lies a whole number of bytes from the base. -/
theorem brickWidth_raw {o : VArgs} (h : o.vmod.toNat % 8 = 0) : brickWidth o = o.ty.width := by
  rw [brickWidth, h]
  rfl

section
variable {o : VArgs} {k x e : Nat} (hq : s.quietWindow (s.brickBase o) (s.self.vl * (o.ty.width / 8)) k x) (he : e ∈ s.brickElems o)
include hq he

/-- An active element of a unit-stride access lies in the window of all of them. -/
theorem State.quietWindow.elem :
    s.quietWindow (s.brickBase o + o.ty.width / 8 * e) (o.ty.width / 8) k (x + o.ty.width / 8 * e) := by
  refine hq.part (width_pos o.ty) ?_
  rw [← Nat.mul_succ, Nat.mul_comm]
  exact Nat.mul_le_mul_right _ (State.mem_brickElems he)

theorem State.eaVa_brickEa (hm : o.vmod.toNat % 8 = 0) (ha : s.brickBase o % (o.ty.width / 8) = 0) :
    eaVa (s.brickEa o .unit e) o.ty.width = s.brickBase o + o.ty.width / 8 * e := by
  obtain ⟨_, _, hx, _⟩ := hq.elem he
  obtain ⟨_, ht, _⟩ := hq
  have hlt := (windowTarget_lt ht).2
  have hb := s.brickBase_lt o
  rw [State.brickEa, brickWidth_raw hm]
  exact eaVa_unit o.ty ha (by omega)

end

/-- The spot of an element at a VA in a window. -/
def windowSpot (va : Nat) : ElemSpot := ⟨none, va, va, 0, 0⟩

section
variable {va k x : Nat} {ty : Ty} {f : AddrForm} {kind ea e : Nat} (h : s.quietWindow va (ty.width / 8) k x) (hk : kind ≠ kFetch)
include h hk

theorem Runs.spotOf_quiet (he : eaVa ea ty.width = va) :
    Runs (spotOf (s.ctx s.cur) f kind ty.width ty ea e) s (windowSpot va) s := by
  unfold spotOf
  rw [he]
  dsimp only
  refine Runs.ite_pos h.1 (Runs.ite_neg ?_ ((Runs.windowPlace_quiet h hk).bind (Runs.pure _ _)))
  simp

theorem Runs.spotPlace_quiet :
    Runs (spotPlace (s.ctx s.cur) f kind (ty.width / 8) e (windowSpot va)) s { loc := scratchLoc k x, scratch := some k } s :=
  Runs.windowPlace_quiet h hk

end

end

end Sys2Proof.Machine
end

section
/-! PROOFS. Brick loads (O32). -/

namespace Sys2Proof.Machine

section
variable {s t u : State} {o : VArgs}

/-! The load of every active element (R188). -/

/-- The load of one active element. -/
def State.loadStep (s : State) (o : VArgs) (f : AddrForm) (e : Nat) : M Unit := do
  let (v, fl) ← loadElem (s.ctx s.cur) f (brickWidth o) o.ty (s.self.mode o.rnd false) (s.brickEa o f e) e
  raiseFlags fl e
  modMe (·.setElem o.d.toNat e (BitVec.ofNat 64 v))

section
variable {f : AddrForm} (ht : s.self.typed o.ty) (ha : s.full .scalar o.sa.reg) (hd : s.full .brick o.d)
include ht ha hd

theorem Runs.brickLoad (hb : s.brickElems o = [] ∨ baseAligned (s.brickBase o) (brickWidth o) = true)
    (h : RunsAll (s.loadStep o f) (s.brickElems o) s t) :
    Runs (brickLoad o f) s () (t.modSeq t.cur fun q => { q with estart := 0 }) :=
  (Runs.needType ht).bind ((Runs.readS ha).bind ((Runs.needFull hd).bind ((Runs.mySeq s).bind ((Runs.checkBase hb).bind
    ((Runs.get s).bind ((Runs.forEach (h.imp fun _ _ _ h => h.atElement)).bind (Runs.modMe _ t)))))))

/-- A base off its boundary stops the first active element. -/
theorem StopsWith.brickLoad {e : Nat} {rest : List Nat} (he : s.brickElems o = e :: rest)
    (hb : baseAligned (s.brickBase o) (brickWidth o) = false) : StopsWith (brickLoad o f) s
      (.trap { cause := 0x0D, tval := BitVec.ofNat 64 (s.brickBase o), estart := some e }) s := by
  refine (Runs.needType ht).bindStop ((Runs.readS ha).bindStop ((Runs.needFull hd).bindStop ((Runs.mySeq s).bindStop ?_)))
  have hc := StopsWith.checkBase (s := s) (kind := kRead) (e := e) (rest := rest) hb
  rw [misaligned_read (s.brickBase_lt o), ← he] at hc
  exact hc.bind

end

/-- What a load leaves when its active elements are loaded: a gather's brick is pending (R34, R36). -/
def brickLoaded (k : Nat) (o : VArgs) (es : List Nat) (cycle : Nat) (q : Seq) : Seq :=
  if k = 3 then { q.setEmpty .brick o.d with
    estart := 0
    outst := q.outst ++ [(.brick, o.d, cycle)]
    pend := es.foldl (fun p e => NMap.set p (1024 * o.d.toNat + e / 8) ()) q.pend }
  else { q with estart := 0 }

theorem Runs.brickPending (d : Reg) (es : List Nat) (s : State) : Runs (brickPending d es) s () (s.modSeq s.cur fun q =>
    { q.setEmpty .brick d with
      outst := q.outst ++ [(.brick, d, s.cycle)]
      pend := es.foldl (fun p e => NMap.set p (1024 * d.toNat + e / 8) ()) q.pend }) := rfl

/-- An instruction loads by address form k: it completes, or its base is off its boundary. -/
def State.loadsBrick (s : State) (o : VArgs) (i : Instr) (k : Nat) : Prop :=
  (∀ t, s.brickElems o = [] ∨ baseAligned (s.brickBase o) (brickWidth o) = true →
    RunsAll (s.loadStep o (s.formOf k o.sb)) (s.brickElems o) s t →
    exec i s = .next (t.fell (brickLoaded k o (s.brickElems o) t.cycle))) ∧
  (∀ e rest, s.brickElems o = e :: rest → baseAligned (s.brickBase o) (brickWidth o) = false →
    exec i s = .next (s.trapped { cause := 0x0D, tval := BitVec.ofNat 64 (s.brickBase o), estart := some e }))

section
variable (ht : s.self.typed o.ty) (ha : s.full .scalar o.sa.reg) (hd : s.full .brick o.d)
include ht ha hd

theorem loadsBrick_vldUnit : s.loadsBrick o (.vldUnit o) 0 :=
  ⟨fun _ hb h => execWhole_modMe (Runs.brickLoad ht ha hd hb h), fun _ _ he hb => execWhole_trap (StopsWith.brickLoad ht ha hd he hb)⟩

theorem loadsBrick_vldShaped (hf : s.formFull 1 o.sb) : s.loadsBrick o (.vldShaped o) 1 :=
  ⟨fun _ hb h => execWhole_modMe ((Runs.needType ht).bind ((Runs.shapedForm hf).bind (Runs.brickLoad ht ha hd hb h))),
    fun _ _ he hb => execWhole_trap ((Runs.needType ht).bindStop ((Runs.shapedForm hf).bindStop (StopsWith.brickLoad ht ha hd he hb)))⟩

theorem loadsBrick_vlds (hf : s.formFull 2 o.sb) : s.loadsBrick o (.vlds o) 2 :=
  ⟨fun _ hb h => execWhole_modMe ((Runs.needType ht).bind ((Runs.stridedForm hf).bind (Runs.brickLoad ht ha hd hb h))),
    fun _ _ he hb => execWhole_trap ((Runs.needType ht).bindStop ((Runs.stridedForm hf).bindStop (StopsWith.brickLoad ht ha hd he hb)))⟩

theorem loadsBrick_vldx (hf : s.formFull 3 o.sb) : s.loadsBrick o (.vldx o) 3 := by
  refine ⟨fun t hb h => ?_, fun _ _ he hb => execWhole_trap ((Runs.needType ht).bindStop ((Runs.mySeq s).bindStop
    ((Runs.indexedForm hf).bindStop (StopsWith.brickLoad ht ha hd he hb).bind)))⟩
  have hp := Runs.brickPending o.d (s.brickElems o) (t.modSeq t.cur fun q => { q with estart := 0 })
  rw [show exec (.vldx o) s = _ from execWhole_modMe ((Runs.needType ht).bind ((Runs.mySeq s).bind ((Runs.indexedForm hf).bind
    ((Runs.brickLoad ht ha hd hb h).bind hp))))]
  simp only [State.fell, State.modSeq, State.setSeq_cur, State.seq_setSeq_self]
  congr 2
  simp only [State.setSeq, NMap.set_set]
  rfl

end

/-! Elements written one after another. -/

/-- Elements of a brick written in order. -/
def Seq.withElems (q : Seq) (b : Nat) (v : Nat → DWord) (es : List Nat) : Seq := es.foldl (fun q e => q.setElem b e (v e)) q

/-- They change the bricks alone. -/
theorem Seq.withElems_eq (b : Nat) (v : Nat → DWord) (es : List Nat) :
    ∀ q : Seq, q.withElems b v es = { q with bricks := (q.withElems b v es).bricks } := by
  induction es with
  | nil => exact fun _ => rfl
  | cons e es ih => exact fun q => ih (q.setElem b e (v e))

theorem Seq.elem_withElems_of_not_mem {b : Nat} {v : Nat → DWord} {b' e' : Nat} (he' : e' < 8192) (es : List Nat) :
    ∀ {q : Seq}, (∀ e ∈ es, e < 8192) → b' ≠ b ∨ e' ∉ es → (q.withElems b v es).elem b' e' = q.elem b' e' := by
  induction es with
  | nil => exact fun _ _ => rfl
  | cons e es ih =>
    intro q hes h
    have he := hes e List.mem_cons_self
    refine (ih (fun e h => hes e (List.mem_cons_of_mem _ h)) ?_).trans (Seq.elem_setElem_of_ne q _ ?_)
    · exact h.imp_right fun h hm => h (List.mem_cons_of_mem _ hm)
    · rcases h with h | h
      · omega
      · have : e' ≠ e := fun hq => h (hq ▸ List.mem_cons_self)
        omega

/-- Each stands, whatever is written after it: a value depends on its element alone. -/
theorem Seq.elem_withElems_of_mem {b : Nat} {v : Nat → DWord} {e' : Nat} (es : List Nat) :
    ∀ {q : Seq}, (∀ e ∈ es, e < 8192) → e' ∈ es → (q.withElems b v es).elem b e' = v e' := by
  induction es with
  | nil => exact fun _ h => nomatch h
  | cons e es ih =>
    intro q hes h
    have hes' : ∀ e ∈ es, e < 8192 := fun e h => hes e (List.mem_cons_of_mem _ h)
    by_cases hm : e' ∈ es
    · exact ih hes' hm
    · obtain rfl : e' = e := (List.mem_cons.1 h).resolve_right hm
      exact (Seq.elem_withElems_of_not_mem (hes e' h) es hes' (.inr hm)).trans (Seq.elem_setElem_self q b e' _)

/-- Steps that each write one element, run to their end. -/
theorem RunsAll.setElems {step : Nat → M Unit} {b : Nat} {v : Nat → DWord} {P : State → Prop} (es : List Nat)
    (h : ∀ e ∈ es, ∀ u, P u →
      Runs (step e) u () (u.modSeq u.cur (·.setElem b e (v e))) ∧ P (u.modSeq u.cur (·.setElem b e (v e)))) :
    ∀ {s : State}, P s → ∃ t, RunsAll step es s t ∧ ∀ f, t.fell f = s.fell fun q => f (q.withElems b v es) := by
  induction es with
  | nil => exact fun {s} _ => ⟨s, rfl, fun _ => rfl⟩
  | cons e es ih =>
    intro s hs
    obtain ⟨hrun, hp⟩ := h e List.mem_cons_self s hs
    obtain ⟨t, ht, hf⟩ := ih (fun e h' => h e (List.mem_cons_of_mem _ h')) hp
    refine ⟨t, ⟨_, hrun, ht⟩, fun f => (hf f).trans ?_⟩
    simp only [State.fell, State.modSeq, State.setSeq_cur, State.seq_setSeq_self]
    congr 1
    simp only [State.setSeq, NMap.set_set]
    rfl

/-! A raw unit-stride load of a window (R221). -/

theorem Runs.loadElem_quiet {va k x : Nat} {ty : Ty} {f : AddrForm} {mode : Rnd} {ea e : Nat}
    (h : s.quietWindow va (ty.width / 8) k x) (he : eaVa ea ty.width = va) :
    Runs (loadElem (s.ctx s.cur) f ty.width ty mode ea e) s (s.mem.readLe (scratchLoc k x) (ty.width / 8), 0) s := by
  obtain ⟨_, _, _, _, hc, hb⟩ := id h
  have hlt : s.mem.readLe (scratchLoc k x) (ty.width / 8) < 2 ^ ty.width := by
    have := Memory.readLe_lt s.mem (ty.width / 8) (scratchLoc k x)
    rwa [← width_eq] at this
  have hv : s.mem.readLe (scratchLoc k x) (ty.width / 8) / 2 ^ 0 % 2 ^ ty.width = s.mem.readLe (scratchLoc k x) (ty.width / 8) := by
    rw [Nat.pow_zero, Nat.div_one, Nat.mod_eq_of_lt hlt]
  refine (Runs.spotOf_quiet h (by decide) he).bind ?_
  dsimp only [windowSpot, Option.bind_none]
  rw [spanBytes_width]
  refine Runs.bind (Runs.bind (Runs.spotPlace_quiet h (by decide)) ?_) (Runs.pure _ _)
  have hl := (Runs.loadOrdered_scratch (c := s.ctx s.cur) (loc := scratchLoc k x) (n := ty.width / 8) (kind := kRead) (va := va)
    (e := e) (acq := false) (plain := true) hc hb).bind
    (f := fun v => Pure.pure (v / 2 ^ 0 % 2 ^ ty.width)) (Runs.pure _ s)
  rw [hv] at hl
  exact hl

/-- Every active element of a raw unit-stride load takes its bytes of the scratchpad. -/
theorem RunsAll.loadStep_quiet {k x : Nat} (hm : o.vmod.toNat % 8 = 0)
    (hq : s.quietWindow (s.brickBase o) (s.self.vl * (o.ty.width / 8)) k x) (ha : s.brickBase o % (o.ty.width / 8) = 0) :
    ∃ t, RunsAll (s.loadStep o .unit) (s.brickElems o) s t ∧ ∀ f, t.fell f = s.fell fun q => f (q.withElems o.d.toNat
      (fun e => BitVec.ofNat 64 (s.mem.readLe (scratchLoc k (x + o.ty.width / 8 * e)) (o.ty.width / 8))) (s.brickElems o)) := by
  refine RunsAll.setElems (P := fun u => u.sameWindows s ∧ u.mem = s.mem) _ (fun e he u ⟨hu, hmem⟩ => ⟨?_, hu.setElem, hmem⟩)
    ⟨.refl s, rfl⟩
  have hl := Runs.loadElem_quiet (f := .unit) (mode := s.self.mode o.rnd false) (e := e) (hu.quietWindow (hq.elem he))
    (State.eaVa_brickEa hq he hm ha)
  have hf := Runs.raiseFlags (f := 0) (e := e) (s := u) (BitVec.zero_and)
  rw [hu.1, hmem] at hl
  unfold State.loadStep
  rw [brickWidth_raw hm]
  exact hl.bind (hf.bind (Runs.modMe _ u))

theorem exec_vldUnit_quiet {k x : Nat} (ht : s.self.typed o.ty) (hsa : s.full .scalar o.sa.reg) (hd : s.full .brick o.d)
    (hm : o.vmod.toNat % 8 = 0) (hq : s.quietWindow (s.brickBase o) (s.self.vl * (o.ty.width / 8)) k x)
    (ha : s.brickBase o % (o.ty.width / 8) = 0) : exec (.vldUnit o) s = .next (s.fell fun q =>
      { q.withElems o.d.toNat (fun e => BitVec.ofNat 64 (s.mem.readLe (scratchLoc k (x + o.ty.width / 8 * e)) (o.ty.width / 8)))
          (s.brickElems o) with estart := 0 }) := by
  obtain ⟨t, hall, hfell⟩ := RunsAll.loadStep_quiet hm hq ha
  rw [(loadsBrick_vldUnit ht hsa hd).1 t (.inr (brickWidth_raw hm ▸ baseAligned_width o.ty ha)) hall, hfell]
  rfl

/-- A raw unit-stride load of a window writes its active elements, and no other element of any brick (R188, R221). -/
theorem vldUnit_window {k x : Nat} (ht : s.self.typed o.ty) (hsa : s.full .scalar o.sa.reg) (hd : s.full .brick o.d)
    (hm : o.vmod.toNat % 8 = 0) (hq : s.quietWindow (s.brickBase o) (s.self.vl * (o.ty.width / 8)) k x)
    (ha : s.brickBase o % (o.ty.width / 8) = 0) (hvl : s.self.vl ≤ 8192) : ∃ t, exec (.vldUnit o) s = .next t ∧
      (∀ e ∈ s.brickElems o, t.self.elem o.d.toNat e =
        BitVec.ofNat 64 (s.mem.readLe (scratchLoc k (x + o.ty.width / 8 * e)) (o.ty.width / 8))) ∧
      (∀ b e, e < 8192 → b ≠ o.d.toNat ∨ e ∉ s.brickElems o → t.self.elem b e = s.self.elem b e) ∧
      t = s.fell fun q => { q with bricks := t.self.bricks, estart := 0 } := by
  have hes : ∀ e ∈ s.brickElems o, e < 8192 := fun e he => Nat.lt_of_lt_of_le (State.mem_brickElems he) hvl
  refine ⟨_, exec_vldUnit_quiet ht hsa hd hm hq ha, fun e he => ?_, fun b e he h => ?_, State.fell_congr ?_⟩
  · rw [Seq.elem, State.bricks_fell]
    exact Seq.elem_withElems_of_mem _ hes he
  · rw [Seq.elem, State.bricks_fell]
    exact Seq.elem_withElems_of_not_mem he _ hes h
  · rw [State.bricks_fell]
    dsimp only
    rw [Seq.withElems_eq]

end

/-- Settles O32: each form by its meaning, the window by its elements one after another. -/
theorem brickLoads : Obligations.BrickLoads :=
  ⟨fun _ _ ht ha hd => ⟨fun _ => loadsBrick_vldUnit ht ha hd, loadsBrick_vldShaped ht ha hd, loadsBrick_vlds ht ha hd,
    loadsBrick_vldx ht ha hd⟩, fun _ _ _ _ ht hsa hd hm hq ha hvl => vldUnit_window ht hsa hd hm hq ha hvl⟩

end Sys2Proof.Machine
end

section
/-! PROOFS. Brick stores (O33). -/

namespace Sys2Proof.Machine

section
variable {s t u : State} {o : VArgs}

/-! The store of every active element (R188, R190). -/

/-- The store of one active element. -/
def State.storeStep (s : State) (o : VArgs) (f : AddrForm) (e : Nat) : M Unit :=
  storeElem (s.ctx s.cur) f (brickWidth o) o.ty (s.self.mode o.rnd true) o.sc.reg.toNat e (s.brickEa o f e)

/-- What the run-ahead finds, added to what it has found. -/
def State.aheadStep (s : State) (o : VArgs) (f : AddrForm) (acc : List (Nat × Nat × Ahead)) (e : Nat) :
    M (List (Nat × Nat × Ahead)) := do
  return acc ++ [(e, s.brickEa o f e, ← lookAhead (s.ctx s.cur) f (brickWidth o) o.ty e (s.brickEa o f e))]

/-- Of the elements that the run-ahead looks at none lies on a page with a scale array. -/
def noneScaled (ahead : List (Nat × Nat × Ahead)) : Prop :=
  (upToFault (ahead.map (fun y => (y.1, y.2.2)))).all (fun y => !y.2.scaled) = true

theorem noneScaled.not_any {ahead : List (Nat × Nat × Ahead)} (h : noneScaled ahead) :
    ¬(upToFault (ahead.map (fun y => (y.1, y.2.2)))).any (fun y => y.2.scaled) = true := by
  intro ha
  obtain ⟨y, hy, hs⟩ := List.any_eq_true.1 ha
  have hn := List.all_eq_true.1 h y hy
  rw [hs] at hn
  cases hn

/-- An instruction stores by address form k, where no page has a scale array. -/
def State.storesBrick (s : State) (o : VArgs) (i : Instr) (k : Nat) : Prop :=
  s.brickElems o = [] ∨ baseAligned (s.brickBase o) (brickWidth o) = true → ∀ ahead s1 s2,
    Runs ((s.brickElems o).foldlM (s.aheadStep o (s.formOf k o.sb)) []) s ahead s1 → noneScaled ahead →
    RunsAll (s.storeStep o (s.formOf k o.sb)) (s.brickElems o) s1 s2 →
    exec i s = .next (s2.fell fun q => { q with estart := 0 })

section
variable (ht : s.self.typed o.ty) (ha : s.full .scalar o.sa.reg) (hc : s.full .brick o.sc.reg)
include ht ha hc

theorem Runs.brickStore {f : AddrForm} {ahead : List (Nat × Nat × Ahead)} {s1 s2 : State}
    (hb : s.brickElems o = [] ∨ baseAligned (s.brickBase o) (brickWidth o) = true)
    (hl : Runs ((s.brickElems o).foldlM (s.aheadStep o f) []) s ahead s1) (hn : noneScaled ahead)
    (h : RunsAll (s.storeStep o f) (s.brickElems o) s1 s2) :
    Runs (brickStore o f) s () (s2.modSeq s2.cur fun q => { q with estart := 0 }) :=
  (Runs.needType ht).bind ((Runs.readS ha).bind ((Runs.needFull hc).bind ((Runs.mySeq s).bind ((Runs.checkBase hb).bind
    ((Runs.get s).bind (hl.bind (Runs.ite_neg hn.not_any
      ((Runs.forEach (h.imp fun _ _ _ h => h.atElement)).bind (Runs.modMe _ s2)))))))))

theorem storesBrick_vstUnit : s.storesBrick o (.vstUnit o) 0 :=
  fun hb _ _ _ hl hn h => execWhole_modMe (Runs.brickStore ht ha hc hb hl hn h)

theorem storesBrick_vstShaped (hf : s.formFull 1 o.sb) : s.storesBrick o (.vstShaped o) 1 :=
  fun hb _ _ _ hl hn h => execWhole_modMe ((Runs.needType ht).bind ((Runs.shapedForm hf).bind (Runs.brickStore ht ha hc hb hl hn h)))

theorem storesBrick_vsts (hf : s.formFull 2 o.sb) : s.storesBrick o (.vsts o) 2 :=
  fun hb _ _ _ hl hn h => execWhole_modMe ((Runs.needType ht).bind ((Runs.stridedForm hf).bind (Runs.brickStore ht ha hc hb hl hn h)))

theorem storesBrick_vstx (hf : s.formFull 3 o.sb) : s.storesBrick o (.vstx o) 3 :=
  fun hb _ _ _ hl hn h => execWhole_modMe ((Runs.needType ht).bind ((Runs.indexedForm hf).bind (Runs.brickStore ht ha hc hb hl hn h)))

end

/-! Bytes written one element after another. -/

/-- Elements of n bytes written in order. -/
def Memory.withElems (m : Memory) (n : Nat) (loc v : Nat → Nat) (es : List Nat) : Memory :=
  es.foldl (fun m e => m.writeLe (loc e) n (v e)) m

theorem Memory.read_withElems_outside {n a : Nat} {loc v : Nat → Nat} (es : List Nat) :
    ∀ {m : Memory}, (∀ e ∈ es, a < loc e ∨ loc e + n ≤ a) → (m.withElems n loc v es).read a = m.read a := by
  induction es with
  | nil => exact fun _ => rfl
  | cons e es ih =>
    exact fun h => (ih fun e h' => h e (List.mem_cons_of_mem _ h')).trans
      (Memory.read_writeLe_outside _ _ _ _ _ (h e List.mem_cons_self))

/-- Elements that lie apart all stand. -/
theorem Memory.readLe_withElems {n e' : Nat} {loc v : Nat → Nat} (hd : ∀ e, e ≠ e' → loc e' + n ≤ loc e ∨ loc e + n ≤ loc e')
    (es : List Nat) : ∀ {m : Memory}, e' ∈ es → (m.withElems n loc v es).readLe (loc e') n = v e' % 256 ^ n := by
  induction es with
  | nil => exact fun h => nomatch h
  | cons e es ih =>
    intro m h
    by_cases hm : e' ∈ es
    · exact ih hm
    · obtain rfl : e' = e := (List.mem_cons.1 h).resolve_right hm
      refine (Memory.readLe_congr n fun i hl hi => Memory.read_withElems_outside es fun e he => ?_).trans (Memory.readLe_writeLe _ _ _ _)
      have := hd e fun hq => hm (hq ▸ he)
      omega

/-- Steps that each write the bytes of one element, run to their end. -/
theorem RunsAll.writeElems {step : Nat → M Unit} {n : Nat} {loc v : Nat → Nat} {P : State → Prop} (es : List Nat)
    (h : ∀ e ∈ es, ∀ u, P u → ∃ u', Runs (step e) u () u' ∧ P u' ∧ u'.mem = u.mem.writeLe (loc e) n (v e) ∧
      ∀ f, u'.fell f = { u.fell f with mem := u'.mem }) :
    ∀ {s : State}, P s → ∃ t, RunsAll step es s t ∧ ∀ f, t.fell f = { s.fell f with mem := s.mem.withElems n loc v es } := by
  induction es with
  | nil => exact fun {s} _ => ⟨s, rfl, fun _ => rfl⟩
  | cons e es ih =>
    intro s hs
    obtain ⟨u, hrun, hp, hmem, hfell⟩ := h e List.mem_cons_self s hs
    obtain ⟨t, ht, hf⟩ := ih (fun e h' => h e (List.mem_cons_of_mem _ h')) hp
    refine ⟨t, ⟨u, hrun, ht⟩, fun f => ?_⟩
    rw [hf, hfell, hmem]
    rfl

/-! A raw unit-stride store of a window (R221). -/

/-- The run-ahead reads no leaf in a window. -/
theorem Runs.aheadStep_quiet {k x e : Nat} {acc : List (Nat × Nat × Ahead)} (hm : o.vmod.toNat % 8 = 0)
    (hq : s.quietWindow (s.brickBase o) (s.self.vl * (o.ty.width / 8)) k x) (ha : s.brickBase o % (o.ty.width / 8) = 0)
    (he : e ∈ s.brickElems o) : Runs (s.aheadStep o .unit acc e) s
      (acc ++ [(e, s.brickEa o .unit e, .spot (windowSpot (s.brickBase o + o.ty.width / 8 * e)))]) s := by
  have hs := Runs.spotOf_quiet (f := .unit) (kind := kWrite) (e := e) (hq.elem he) (by decide) (State.eaVa_brickEa hq he hm ha)
  have hl : Runs (lookAhead (s.ctx s.cur) .unit (brickWidth o) o.ty e (s.brickEa o .unit e)) s
      (.spot (windowSpot (s.brickBase o + o.ty.width / 8 * e))) s := by
    have hb := hs.bind (f := fun y => Pure.pure (Ahead.spot y)) (Runs.pure _ s)
    rw [brickWidth_raw hm]
    unfold Runs at *
    unfold lookAhead
    rw [run_tryCatch, hb]
  exact hl.bind (Runs.pure _ s)

theorem Runs.ahead_quiet {k x : Nat} (hm : o.vmod.toNat % 8 = 0)
    (hq : s.quietWindow (s.brickBase o) (s.self.vl * (o.ty.width / 8)) k x) (ha : s.brickBase o % (o.ty.width / 8) = 0)
    (es : List Nat) : ∀ acc, (∀ e ∈ es, e ∈ s.brickElems o) → Runs (es.foldlM (s.aheadStep o .unit) acc) s
      (acc ++ es.map fun e => (e, s.brickEa o .unit e, .spot (windowSpot (s.brickBase o + o.ty.width / 8 * e)))) s := by
  induction es with
  | nil => exact fun acc _ => by simpa using Runs.pure acc s
  | cons e es ih =>
    intro acc h
    have hrest := ih (acc ++ [(e, s.brickEa o .unit e, .spot (windowSpot (s.brickBase o + o.ty.width / 8 * e)))])
      fun e h' => h e (List.mem_cons_of_mem _ h')
    rw [List.append_assoc, List.singleton_append] at hrest
    rw [List.foldlM_cons, List.map_cons]
    exact (Runs.aheadStep_quiet hm hq ha (h e List.mem_cons_self)).bind hrest

theorem mem_of_mem_upToFault {y : Nat × Ahead} : ∀ {l : List (Nat × Ahead)}, y ∈ upToFault l → y ∈ l
  | [], h => h
  | z :: l, h => by
    unfold upToFault at h
    split at h
    · rw [List.mem_singleton.1 h]
      exact List.mem_cons_self
    · exact (List.mem_cons.1 h).elim (fun h => h ▸ List.mem_cons_self) fun h => List.mem_cons_of_mem _ (mem_of_mem_upToFault h)

/-- Spots of windows have no leaf, so no scale array. -/
theorem noneScaled_windowSpots (ea va : Nat → Nat) (es : List Nat) :
    noneScaled (es.map fun e => (e, ea e, .spot (windowSpot (va e)))) := by
  refine List.all_eq_true.2 fun y hy => ?_
  have hy' := mem_of_mem_upToFault hy
  simp only [List.map_map, List.mem_map, Function.comp] at hy'
  obtain ⟨e, _, rfl⟩ := hy'
  rfl

/-- What the store of an element to a window leaves: the generators are put back as they stand, and memory alone changes. -/
def State.storedElem (s : State) (m : Memory) : State := { s with mem := m }.modSeq s.cur fun q => { q with gens := s.self.gens }

@[simp] theorem State.storedElem_mem (s : State) (m : Memory) : (s.storedElem m).mem = m := rfl

theorem State.storedElem_self (s : State) (m : Memory) : (s.storedElem m).self = s.self := State.seq_setSeq_self _ _ _

theorem State.sameWindows.storedElem {m : Memory} (h : u.sameWindows s) : (u.storedElem m).sameWindows s := by
  have hself : (u.storedElem m).seq u.cur = u.seq u.cur := u.storedElem_self m
  refine ⟨Eq.trans ?_ h.1, h.2⟩
  show (u.storedElem m).ctx u.cur = u.ctx u.cur
  rw [State.ctx, State.ctx, hself]

theorem State.fell_storedElem (s : State) (m : Memory) (f : Seq → Seq) : (s.storedElem m).fell f = { s.fell f with mem := m } := by
  have hself : (s.storedElem m).seq s.cur = s.seq s.cur := s.storedElem_self m
  show ((s.storedElem m).modSeq s.cur fun q => (f q).advance).tick = _
  rw [State.modSeq, hself]
  simp only [State.storedElem, State.setSeq, State.modSeq, NMap.set_set]
  rfl

/-- A store of one element to a window. -/
theorem Runs.storeElem_quiet {va k x b ea e : Nat} {ty : Ty} {f : AddrForm} {mode : Rnd} (hr : mode ≠ .rsr)
    (h : s.quietWindow va (ty.width / 8) k x) (he : eaVa ea ty.width = va) :
    Runs (storeElem (s.ctx s.cur) f ty.width ty mode b e ea) s ()
      (s.storedElem (s.mem.writeLe (scratchLoc k x) (ty.width / 8) ((s.self.elem b e).toNat % 2 ^ ty.width))) := by
  obtain ⟨_, _, _, _, hc, hb⟩ := id h
  have hdraw : Runs (drawFor mode e) s (s.self, 0) s := by
    refine (Runs.mySeq s).bind ?_
    rw [if_neg (by simpa using hr)]
    exact Runs.pure _ _
  refine (Runs.spotOf_quiet h (by decide) he).bind ((Runs.mySeq s).bind (hdraw.bind ?_))
  dsimp only [encodeElem, windowSpot, Option.bind_none]
  refine (Runs.spotPlace_quiet h (by decide)).bind (Runs.ite_neg (by simp) ?_)
  exact (Runs.storeBytes_scratch hc hb).bind ((Runs.raiseFlags BitVec.zero_and).bind (Runs.modMe _ _))

section
variable {k x : Nat} (hm : o.vmod.toNat % 8 = 0) (hr : s.self.mode o.rnd true ≠ .rsr)
  (hq : s.quietWindow (s.brickBase o) (s.self.vl * (o.ty.width / 8)) k x) (ha : s.brickBase o % (o.ty.width / 8) = 0)
include hm hr hq ha

/-- Every active element of a raw unit-stride store goes to its bytes of the scratchpad. -/
theorem RunsAll.storeStep_quiet : ∃ t, RunsAll (s.storeStep o .unit) (s.brickElems o) s t ∧ ∀ f, t.fell f =
    { s.fell f with
      mem := s.mem.withElems (o.ty.width / 8) (fun e => scratchLoc k (x + o.ty.width / 8 * e))
        (fun e => (s.self.elem o.sc.reg.toNat e).toNat % 2 ^ o.ty.width) (s.brickElems o) } := by
  refine RunsAll.writeElems (P := fun u => u.sameWindows s ∧ u.self = s.self) _ (fun e he u ⟨hu, hself⟩ => ?_) ⟨.refl s, rfl⟩
  have hs := Runs.storeElem_quiet (f := .unit) (b := o.sc.reg.toNat) (e := e) hr (hu.quietWindow (hq.elem he))
    (State.eaVa_brickEa hq he hm ha)
  rw [hu.1, hself] at hs
  refine ⟨_, ?_, ⟨hu.storedElem, (u.storedElem_self _).trans hself⟩, rfl, u.fell_storedElem _⟩
  rw [State.storeStep, brickWidth_raw hm]
  exact hs

variable (ht : s.self.typed o.ty) (hsa : s.full .scalar o.sa.reg) (hc : s.full .brick o.sc.reg)
include ht hsa hc

theorem exec_vstUnit_quiet : exec (.vstUnit o) s = .next { s.fell (fun q => { q with estart := 0 }) with
    mem := s.mem.withElems (o.ty.width / 8) (fun e => scratchLoc k (x + o.ty.width / 8 * e))
      (fun e => (s.self.elem o.sc.reg.toNat e).toNat % 2 ^ o.ty.width) (s.brickElems o) } := by
  obtain ⟨t, hall, hfell⟩ := RunsAll.storeStep_quiet hm hr hq ha
  rw [← hfell]
  exact storesBrick_vstUnit ht hsa hc (.inr (brickWidth_raw hm ▸ baseAligned_width o.ty ha)) _ s t
    (Runs.ahead_quiet hm hq ha _ [] fun _ he => he) (noneScaled_windowSpots _ _ _) hall

/-- A raw unit-stride store to a window writes its active elements, and no other byte (R188, R221). -/
theorem vstUnit_window : ∃ t, exec (.vstUnit o) s = .next t ∧
    (∀ e ∈ s.brickElems o, t.mem.readLe (scratchLoc k (x + o.ty.width / 8 * e)) (o.ty.width / 8) =
      (s.self.elem o.sc.reg.toNat e).toNat % 2 ^ o.ty.width) ∧
    (∀ loc, (∀ e ∈ s.brickElems o, loc < scratchLoc k (x + o.ty.width / 8 * e) ∨
      scratchLoc k (x + o.ty.width / 8 * e) + o.ty.width / 8 ≤ loc) → t.mem.read loc = s.mem.read loc) ∧
    t = { s.fell (fun q => { q with estart := 0 }) with mem := t.mem } := by
  refine ⟨_, exec_vstUnit_quiet hm hr hq ha ht hsa hc, fun e he => ?_, fun loc h => Memory.read_withElems_outside _ h, rfl⟩
  refine (Memory.readLe_withElems (fun e' hne => ?_) _ he).trans ?_
  · have hmul {a b : Nat} (h : a < b) : o.ty.width / 8 * a + o.ty.width / 8 ≤ o.ty.width / 8 * b := Nat.mul_le_mul_left _ h
    unfold scratchLoc
    rcases Nat.lt_or_gt_of_ne hne with h | h <;> have := hmul h <;> omega
  · have hp : 256 ^ (o.ty.width / 8) = 2 ^ o.ty.width := (Nat.pow_mul 2 8 _).symm.trans (by rw [← width_eq])
    rw [hp, Nat.mod_mod]

end

end

/-- Settles O33: each form by its meaning, the window by its elements one after another, which lie apart. -/
theorem brickStores : Obligations.BrickStores :=
  ⟨fun _ _ ht ha hc => ⟨fun _ => storesBrick_vstUnit ht ha hc, storesBrick_vstShaped ht ha hc, storesBrick_vsts ht ha hc,
    storesBrick_vstx ht ha hc⟩, fun _ _ _ _ ht hsa hc hm hr hq ha _ => vstUnit_window hm hr hq ha ht hsa hc⟩

end Sys2Proof.Machine
end

section
/-! PROOFS. What an access to memory leaves of the sequencers (O26, O36): whose turn it is, and every sequencer but for the
translation it keeps (R100). One lemma an operation, in the order of the model. -/

namespace Sys2Proof.Machine

/-- A sequencer, its one-entry translation buffer aside. -/
def Seq.program (q : Seq) : Seq := { q with unitTlb := none }

/-- Whose turn it is, and the sequencers, their one-entry translation buffers aside. -/
def State.program (s : State) : Nat × (Nat → Seq) := (s.cur, fun n => (s.seq n).program)

section
variable {α β : Type}

/-! Operations on the state. -/

theorem State.program_cur {s t : State} (h : t.program = s.program) : t.cur = s.cur := congrArg Prod.fst h

theorem State.program_self {s t : State} (h : t.program = s.program) : t.self.program = s.self.program := by
  rw [State.self, State.self, State.program_cur h]
  exact congrFun (congrArg Prod.snd h) s.cur

theorem State.program_mask {s t : State} (h : t.program = s.program) (i : Nat) : t.self.mask i = s.self.mask i := by
  have hm := congrArg (fun q : Seq => q.mask i) (State.program_self h)
  exact hm

theorem State.program_nextPc {s t : State} (h : t.program = s.program) : t.self.nextPc = s.self.nextPc := by
  have hn := congrArg Seq.nextPc (State.program_self h)
  exact hn

/-- From a state that has kept the program, what changes neither part keeps it. -/
theorem State.program_of_seqs {s t u : State} (h : u.program = s.program) (hc : t.cur = u.cur) (hq : t.seqs = u.seqs) :
    t.program = s.program := by
  rw [← h]
  simp only [State.program, State.seq, hc, hq]

theorem ite_program {p : Prop} [Decidable p] {s t u : State} (ht : t.program = s.program) (hu : u.program = s.program) :
    (if p then t else u).program = s.program := by
  split
  · exact ht
  · exact hu

/-- A change of a translation buffer is none of the program. -/
theorem State.modSeq_program (s : State) (n : Nat) (e : Option TlbEntry) :
    (s.modSeq n fun q => { q with unitTlb := e }).program = s.program := by
  refine Prod.ext rfl (funext fun k => ?_)
  by_cases h : k = n
  · subst h
    simp only [State.program, State.modSeq, State.seq_setSeq_self]
    rfl
  · simp only [State.program, State.modSeq, State.seq_setSeq_of_ne _ _ h]

theorem State.modCore_program (s : State) (n : Nat) (f : Core → Core) : (s.modCore n f).program = s.program := rfl

theorem State.modCluster_program (s : State) (n : Nat) (f : Cluster → Cluster) : (s.modCluster n f).program = s.program := rfl

theorem State.cores_program (s : State) (l : NMap Core) : { s with cores := l }.program = s.program := rfl

theorem State.mem_program (s : State) (m : Memory) : { s with mem := m }.program = s.program := rfl

theorem State.lineMats_program (s : State) (l : NMap KeyMat) : { s with lineMats := l }.program = s.program := rfl

theorem foldl_program {f : State → α → State} (k : ∀ s a, (f s a).program = s.program) (l : List α) (s : State) :
    (l.foldl f s).program = s.program := by
  induction l generalizing s with
  | nil => rfl
  | cons a l ih => exact (ih _).trans (k s a)

/-- As `foldl_program`, from a state that has kept the program. -/
theorem foldl_program_of {f : State → α → State} (k : ∀ s a, (f s a).program = s.program) (l : List α) {s t : State}
    (h : t.program = s.program) : (l.foldl f t).program = s.program := (foldl_program k l t).trans h

theorem recallWord_program (w : Nat) (s : State) : (recallWord w s).program = s.program := by
  unfold recallWord
  split
  · dsimp only
    split <;> rfl
  · rfl

theorem recallWords_program (ws : List Nat) (s : State) : (recallWords ws s).program = s.program :=
  foldl_program (fun s w => recallWord_program w s) ws s

theorem recallLine_program (line : Nat) (s : State) : (recallLine line s).program = s.program := recallWords_program _ s

theorem rekey_program (m : KeyMat) (loc : Nat) (s : State) : (rekey m loc s).program = s.program := by
  unfold rekey
  split
  · rfl
  · have h := recallLine_program (loc / 128) s
    generalize recallLine (loc / 128) s = u at h ⊢
    exact State.program_of_seqs h rfl rfl

theorem readyUnder_program (m : KeyMat) (loc : Nat) (s : State) : (readyUnder m loc s).program = s.program := by
  unfold readyUnder
  split
  · rfl
  · exact recallLine_program _ s

theorem breakLinks_program (line : Nat) (s : State) : (breakLinks line s).program = s.program := by
  unfold breakLinks
  split <;> rfl

theorem fireWaits_program (loc n : Nat) (s : State) : (fireWaits loc n s).program = s.program := by
  unfold fireWaits
  split <;> rfl

theorem emptyFuture_program (loc : Nat) (s : State) : (emptyFuture loc s).program = s.program :=
  State.program_of_seqs (recallWord_program _ s) rfl rfl

theorem feedCell_program (x : Nat × Nat) (s : State) : (feedCell x s).program = s.program := by
  unfold feedCell
  split
  · dsimp only
    split
    · rfl
    · split
      · exact emptyFuture_program _ s
      · rfl
  · rfl

theorem feedCells_program (loc n : Nat) (s : State) : (feedCells loc n s).program = s.program := by
  unfold feedCells
  dsimp only
  split
  · rfl
  · exact (fireWaits_program _ _ _).trans (foldl_program (fun s x => feedCell_program x s) _ _)

theorem evalWaits_program (loc n : Nat) (s : State) : (evalWaits loc n s).program = s.program :=
  (feedCells_program _ _ _).trans (fireWaits_program _ _ s)

theorem makeRoom_program (line : Nat) (s : State) : (makeRoom line s).program = s.program := by
  unfold makeRoom
  dsimp only
  split
  · split
    · rfl
    · exact (breakLinks_program _ _).trans (recallWords_program _ s)
  · rfl

theorem makeLineRoom_program (line : Nat) (s : State) : (makeLineRoom line s).program = s.program := by
  unfold makeLineRoom
  dsimp only
  split
  · rfl
  · split
    · rfl
    · exact (breakLinks_program _ _).trans (recallLine_program _ _)

theorem snoopHost_program (line : Nat) (s : State) : (snoopHost line s).program = s.program := by
  unfold snoopHost
  split
  · dsimp only
    split
    · rfl
    · exact (evalWaits_program _ _ _).trans (breakLinks_program _ _)
  · rfl

theorem applyComb_program (e : CombEntry) (s : State) : (applyComb e s).program = s.program :=
  (evalWaits_program _ _ _).trans ((breakLinks_program _ _).trans ((rekey_program _ _ _).trans (snoopHost_program _ s)))

theorem settle_program (loc n : Nat) (s : State) : (settle loc n s).program = s.program := by
  unfold settle
  dsimp only
  split
  · exact foldl_program_of (fun s e => applyComb_program e s) _ (snoopHost_program _ s)
  · exact snoopHost_program _ s

theorem registerWord_program (c w : Nat) (relaxed : Bool) (s : State) : (registerWord c w relaxed s).program = s.program := by
  unfold registerWord
  extract_lets t u v r r' x
  have ht : t.program = s.program := (breakLinks_program _ _).trans ((makeLineRoom_program _ _).trans (settle_program _ _ s))
  have hu : u.program = s.program := ite_program ht ((rekey_program _ _ _).trans ((recallWord_program w t).trans ht))
  have hv : v.program = s.program := ite_program hu ((makeRoom_program _ u).trans hu)
  clear_value t u v
  have hx : x.program = s.program := State.program_of_seqs hv rfl rfl
  exact ite_program ((evalWaits_program _ _ _).trans ((recallWord_program _ x).trans hx)) hx

theorem recordEntry_program (c : Nat) (p : PendReg) (s : State) : (recordEntry c p s).program = s.program := by
  unfold recordEntry
  dsimp only
  split
  · split
    · rfl
    · split
      · rfl
      · exact registerWord_program _ _ _ _
  · rfl

theorem recordNext_program (c : Nat) (s : State) : (recordNext c s).program = s.program := by
  unfold recordNext
  split
  · exact recordEntry_program _ _ s
  · rfl

theorem drainReg_program (c : Nat) (s : State) : (drainReg c s).program = s.program :=
  foldl_program (fun s _ => recordNext_program c s) _ s

theorem recordRange_program (loc n : Nat) (s : State) : (recordRange loc n s).program = s.program := by
  refine foldl_program (fun s x => foldl_program (fun s p => ?_) _ s) _ s
  split
  · rfl
  · exact recordEntry_program _ _ s

theorem drainCore_program (c : Nat) (s : State) : (drainCore c s).program = s.program :=
  foldl_program (fun s k => drainReg_program k s) _ s

theorem homeWrite_program (m : KeyMat) (loc n v : Nat) (s : State) : (homeWrite m loc n v s).program = s.program :=
  (evalWaits_program _ _ _).trans ((breakLinks_program _ _).trans ((rekey_program _ _ _).trans
    ((recallWords_program _ _).trans (settle_program _ _ s))))

theorem notePort_program (core tenant n : Nat) (s : State) : (notePort core tenant n s).program = s.program := by
  unfold notePort
  dsimp only
  split <;> split <;> rfl

theorem noteRequest_program (c : Ctx) (n : Nat) (s : State) : (noteRequest c n s).program = s.program := notePort_program _ _ _ s

theorem writeHomeLine_program (c line : Nat) (keep : Bool) (s : State) : (writeHomeLine c line keep s).program = s.program := by
  have hw (ws : List Nat) : (recallWords ws (if ws = [] then s else notePort c (s.core c).spOwner (4 * ws.length) s)).program =
      s.program := by
    refine (recallWords_program _ _).trans ?_
    split
    · rfl
    · exact notePort_program _ _ _ s
  unfold writeHomeLine
  dsimp only
  split
  · exact hw _
  · exact foldl_program_of (fun _ _ => by rfl) _ (hw _)

theorem dropLineEverywhere_program (line : Nat) (s : State) : (dropLineEverywhere line s).program = s.program :=
  (State.cores_program _ _).trans (recallLine_program line s)

/-! Translation (R91 to R106). -/

theorem readEntry_program (x : DWord) (a : Nat) (s : State) : (readEntry x a s).2.program = s.program := by
  unfold readEntry
  dsimp only
  split
  · rfl
  split
  · rfl
  split
  · rfl
  split
  · rfl
  split
  · rfl
  · exact (readyUnder_program _ _ _).trans (settle_program _ _ s)

theorem walkFrom_program (x : DWord) (va fuel : Nat) : ∀ (level table : Nat) (s : State),
    (walkFrom x va fuel level table s).2.program = s.program := by
  induction fuel with
  | zero => exact fun _ _ _ => rfl
  | succ fuel ih =>
    intro level table s
    have hr := readEntry_program x (table + 16 * bits va (levelShift level) 10) s
    unfold walkFrom
    dsimp only
    split
    · next h => rw [h] at hr; exact hr
    · next h => rw [h] at hr; exact hr
    · next h =>
      rw [h] at hr
      split
      · exact hr
      · split
        · exact hr
        · split
          · exact (ih _ _ _).trans hr
          · exact hr

theorem walk_program (c : Ctx) (va : Nat) (s : State) : (walk c va s).2.program = s.program := walkFrom_program _ _ _ _ _ s

theorem State.install_program (s : State) (c : Ctx) (b : Buffer) (va : Nat) (e : TlbEntry) :
    (s.install c b va e).program = s.program := by
  unfold State.install
  cases b with
  | unit => exact State.modSeq_program _ _ _
  | l1 => rfl
  | gather => rfl
  | engine => rfl

theorem noteLease_program (c : Ctx) (p : Pte) (s : State) : (noteLease c p s).program = s.program := by
  unfold noteLease
  dsimp only
  split <;> rfl

theorem installLeaf_program (c : Ctx) (buf : Buffer) (va : Nat) (l : Leaf) (s : State) :
    (installLeaf c buf va l s).program = s.program := (noteLease_program _ _ _).trans (State.install_program _ _ _ _ _)

theorem dropCoreTlb_program (drop : TlbEntry → Bool) (core : Nat) (s : State) : (dropCoreTlb drop core s).program = s.program := by
  refine foldl_program_of (fun s n => ?_) _ (State.modCore_program _ _ _)
  split
  · exact State.modSeq_program _ _ _
  · rfl

theorem dropStale_program (c : Ctx) (va : Nat) (s : State) : (dropStale c va s).program = s.program :=
  (State.modCluster_program _ _ _).trans (dropCoreTlb_program _ _ s)

theorem dropScope_program (sc : Scope) (core : Nat) (drop : TlbEntry → Bool) (wdrop : WalkEntry → Bool) (s : State) :
    (dropScope sc core drop wdrop s).program = s.program :=
  (foldl_program (fun s k => State.modCluster_program s k _) _ _).trans (foldl_program (fun s c => dropCoreTlb_program drop c s) _ s)

theorem dropPage_program (asid : BitVec 16) (va : Nat) (s : State) : (dropPage asid va s).program = s.program :=
  State.program_of_seqs (dropScope_program _ _ _ _ s) rfl rfl

theorem rewriteLeaf_program (c : Ctx) (l : Leaf) (va : Nat) (p : Pte) (s : State) : (rewriteLeaf c l va p s).program = s.program :=
  (dropPage_program _ _ _).trans (homeWrite_program _ _ _ _ s)

/-! Pages copied and framed (R117 to R121). -/

theorem settleRange_program (loc n : Nat) (s : State) : (settleRange loc n s).program = s.program := by
  have h (l : List (Nat × List Byte)) : (l.foldl (fun s x => snoopHost x.1 s) s).program = s.program :=
    foldl_program (fun s x => snoopHost_program x.1 s) l s
  unfold settleRange
  dsimp only
  split
  · exact h _
  · exact foldl_program_of (fun s e => applyComb_program e s) _ (h _)

theorem readyRange_program (loc n : Nat) (s : State) : (readyRange loc n s).program = s.program :=
  (recordRange_program _ _ _).trans (settleRange_program _ _ s)

theorem forgetLines_program (loc n : Nat) (s : State) : (forgetLines loc n s).program = s.program :=
  foldl_program_of (fun _ _ => by rfl) _ (readyRange_program loc n s)

theorem moveLines_program (src dst n key : Nat) (mat : KeyMat) (s : State) : (moveLines src dst n key mat s).program = s.program :=
  foldl_program (fun _ _ => by rfl) _ s

theorem overwritten_program (loc n : Nat) (s : State) : (overwritten loc n s).program = s.program := evalWaits_program _ _ _

theorem unmaterialise_program (resv page : Nat) (s : State) : (unmaterialise resv page s).program = s.program :=
  forgetLines_program _ _ s

theorem redirectEngines_program (src : Nat) (p : Place) (s : State) : (redirectEngines src p s).program = s.program := rfl

theorem lateFrame_program (c : Ctx) (l : Leaf) (va f : Nat) (s : State) : (lateFrame c l va f s).program = s.program := by
  unfold lateFrame
  extract_lets resv page r src live s1 cells m d s2 s3 s4 s5 s6 s7
  have h1 : s1.program = s.program := readyRange_program _ _ s
  have h2 : s2.program = s.program := (forgetLines_program _ _ s1).trans h1
  clear_value s1 s2
  have h3 : s3.program = s.program := (State.mem_program _ _).trans h2
  have h4 : s4.program = s.program := ite_program (foldl_program_of (fun s i => State.lineMats_program s _) _ h3) h3
  have h5 : s5.program = s.program := (moveLines_program _ _ _ _ _ _).trans ((overwritten_program _ _ s4).trans h4)
  have h6 : s6.program = s.program := ite_program ((unmaterialise_program _ _ s5).trans h5) h5
  have h7 : s7.program = s.program := (redirectEngines_program _ _ s6).trans h6
  exact (rewriteLeaf_program _ _ _ _ s7).trans h7

theorem abandonCopy_program (c : Ctx) (s : State) : (abandonCopy c s).program = s.program := by
  unfold abandonCopy
  split <;> rfl

/-! L1 copies (R156, R201). -/

theorem evictLine_program (c line : Nat) (s : State) : (evictLine c line s).program = s.program :=
  (writeHomeLine_program _ _ _ _).trans (recordRange_program _ _ s)

theorem dropUnreg_program (core w : Nat) (s : State) : (dropUnreg core w s).program = s.program := rfl

theorem sendLineRead_program (slot line : Nat) (pull : Bool) (s : State) : (sendLineRead slot line pull s).program = s.program := rfl

theorem materialise_program (resv page : Nat) (s : State) : (materialise resv page s).program = s.program := rfl

/-! Meanings, one after another. -/

/-- A meaning that keeps the program, however it ends. -/
structure KeepsProgram (m : M α) : Prop where
  run : ∀ s : State, (m.run.run s).2.program = s.program

theorem KeepsProgram.pure (a : α) : KeepsProgram (Pure.pure a : M α) := ⟨fun _ => rfl⟩

theorem KeepsProgram.stopTrap (t : Trap) : KeepsProgram (stopTrap t : M α) := ⟨fun _ => rfl⟩

theorem KeepsProgram.stopWait (w : Wait) : KeepsProgram (stopWait w : M α) := ⟨fun _ => rfl⟩

theorem KeepsProgram.throw (e : Stop) : KeepsProgram (throw e : M α) := ⟨fun _ => rfl⟩

theorem KeepsProgram.get : KeepsProgram (get : M State) := ⟨fun _ => rfl⟩

theorem KeepsProgram.modify {f : State → State} (k : ∀ s, (f s).program = s.program) : KeepsProgram (modify f : M PUnit) := ⟨k⟩

theorem KeepsProgram.bind {m : M α} {f : α → M β} (h : KeepsProgram m) (k : ∀ a, KeepsProgram (f a)) : KeepsProgram (m >>= f) := by
  refine ⟨fun s => ?_⟩
  rw [run_bind]
  have hs := h.run s
  generalize m.run.run s = r at hs ⊢
  obtain ⟨_ | a, t⟩ := r
  · exact hs
  · exact ((k a).run t).trans hs

theorem KeepsProgram.tryCatch {m : M α} {f : Stop → M α} (h : KeepsProgram m) (k : ∀ e, KeepsProgram (f e)) :
    KeepsProgram (MonadExcept.tryCatch m f) := by
  refine ⟨fun s => ?_⟩
  rw [run_tryCatch]
  have hs := h.run s
  generalize m.run.run s = r at hs ⊢
  obtain ⟨e | a, t⟩ := r
  · exact ((k e).run t).trans hs
  · exact hs

theorem KeepsProgram.ite {p : Prop} [Decidable p] {m k : M α} (hm : KeepsProgram m) (hk : KeepsProgram k) :
    KeepsProgram (if p then m else k) := by
  split
  · exact hm
  · exact hk

/-- A check that stops, with what follows it. -/
theorem KeepsProgram.check {p : Prop} [Decidable p] {x : Trap} {k : Unit → M α} (hk : KeepsProgram (k ())) :
    KeepsProgram (if p then do let r ← Machine.stopTrap x; k r else k ()) :=
  .ite (.bind (.stopTrap x) fun _ => hk) hk

/-- A meaning keeps the program of one state. -/
def KeepsAt (m : M α) (s : State) : Prop := (m.run.run s).2.program = s.program

theorem KeepsProgram.at {m : M α} (h : KeepsProgram m) (s : State) : KeepsAt m s := h.run s

/-- What is bound is the state itself. -/
theorem KeepsProgram.getBind {f : State → M β} (k : ∀ s, KeepsAt (f s) s) : KeepsProgram (MonadState.get >>= f) := ⟨k⟩

theorem KeepsAt.ite {p : Prop} [Decidable p] {m k : M α} {s : State} (hm : KeepsAt m s) (hk : KeepsAt k s) :
    KeepsAt (if p then m else k) s := by
  split
  · exact hm
  · exact hk

/-- A check that stops, with what follows it. -/
theorem KeepsAt.check {p : Prop} [Decidable p] {x : Trap} {k : Unit → M α} {s : State} (hk : KeepsAt (k ()) s) :
    KeepsAt (if p then do let r ← Machine.stopTrap x; k r else k ()) s := .ite rfl hk

theorem KeepsAt.set {s t : State} (h : t.program = s.program) : KeepsAt (set t : M PUnit) s := h

theorem KeepsAt.setThen {f : PUnit → M β} {s t : State} (h : t.program = s.program) (k : KeepsProgram (f ())) :
    KeepsAt (MonadStateOf.set t >>= f) s := (k.run t).trans h

theorem KeepsProgram.forEach {f : α → M Unit} (k : ∀ a, KeepsProgram (f a)) (l : List α) : KeepsProgram (forEach l f) := by
  induction l with
  | nil => exact .pure ()
  | cons a l ih =>
    rw [Machine.forEach, List.foldlM_cons]
    exact .bind (k a) fun _ => ih

/-- What a meaning that runs to its end leaves. -/
theorem KeepsProgram.of_runs {m : M α} {s t : State} {a : α} (h : KeepsProgram m) (hr : Runs m s a t) : t.program = s.program := by
  have hs := h.run s
  rw [hr] at hs
  exact hs

/-! Entries and leaves (R91 to R106). -/

theorem rereadEntry_keepsProgram (c : Ctx) (l : Leaf) : KeepsProgram (rereadEntry c l) := by
  refine .getBind fun s => ?_
  have h := readEntry_program c.xlroot l.entry s
  generalize readEntry c.xlroot l.entry s = x at h ⊢
  obtain ⟨r, t⟩ := x
  refine KeepsAt.setThen h ?_
  cases r with
  | ok p => exact .pure _
  | held => exact .stopWait _
  | fault cause => exact .pure _

theorem orEntry_keepsProgram (c : Ctx) (l : Leaf) (b : Pte) : KeepsProgram (orEntry c l b) := by
  refine .bind (rereadEntry_keepsProgram c l) fun r => ?_
  cases r with
  | none => exact .pure _
  | some p => exact .ite (.bind (.modify fun s => homeWrite_program _ _ _ _ s) fun _ => .pure _) (.pure _)

theorem findLeaf_keepsProgram (c : Ctx) (buf : Buffer) (kind va e : Nat) : KeepsProgram (findLeaf c buf kind va e) := by
  refine .getBind fun s => ?_
  cases s.lookup c buf va with
  | some t => exact KeepsAt.setThen ((noteLease_program _ _ _).trans (State.install_program s _ _ _ _)) (.pure _)
  | none =>
    have h := walk_program c va s
    generalize walk c va s = x at h ⊢
    obtain ⟨⟨r, tables⟩, t⟩ := x
    refine KeepsAt.setThen h ?_
    rcases r with (f | a) | l
    · exact .stopTrap _
    · exact .stopWait _
    · have htail : KeepsProgram (do
          modify fun s => installLeaf c buf va { l with pte := l.pte ||| pteA } (s.installTables c va tables)
          return { l with pte := l.pte ||| pteA }) :=
        .bind (.modify fun s => (installLeaf_program _ _ _ _ _).trans (State.modCluster_program s _ _)) fun _ => .pure _
      have hk := KeepsProgram.ite (p := l.pte.a) (.bind (.pure true) fun _ => htail) (.bind (orEntry_keepsProgram c l pteA) fun _ => htail)
      dsimp only
      cases tierFault t c.tenant l with
      | none => exact hk
      | some cause => exact .bind (.stopTrap _) fun _ => hk

theorem checkLeaf_keepsProgram (c : Ctx) (buf : Buffer) (kind va n e : Nat) (tests : LeafTests) :
    KeepsProgram (checkLeaf c buf kind va n e tests) := by
  refine .bind (findLeaf_keepsProgram _ _ _ _ _) fun l => .bind .get fun s => ?_
  have hafter : KeepsProgram (match tests.after l with
      | some cause => stopTrap (xtrap cause l.level kind (va % 2 ^ 56) e)
      | none => pure l) := by
    cases tests.after l with
    | none => exact .pure l
    | some cause => exact .stopTrap _
  have hk := KeepsProgram.check (p := tests.badFormat l) (x := xtrap 0x0E l.level kind (va % 2 ^ 56) e) (k := fun _ => _)
    (KeepsProgram.check (p := !(l.pte.permits kind c.priv) || !leafPhysicalOk s c l (va % 2 ^ 56) n kind)
      (x := xtrap 0x09 l.level kind (va % 2 ^ 56) e) (k := fun _ => _) hafter)
  dsimp only at hk ⊢
  cases tierFault s c.tenant l with
  | none => exact hk
  | some cause => exact .bind (.stopTrap _) fun _ => hk

theorem setDirty_keepsProgram (c : Ctx) (buf : Buffer) (kind va n e : Nat) (tests : LeafTests) (l : Leaf) :
    KeepsProgram (setDirty c buf kind va n e tests l) := by
  refine .ite (.pure l) (.bind (orEntry_keepsProgram c l pteD) fun same => .bind (.modify (dropStale_program c va)) fun _ => ?_)
  have htail (l : Leaf) : KeepsProgram (do
      modify (dropStale c va)
      modify (installLeaf c buf va l)
      return l) :=
    .bind (.modify (dropStale_program c va)) fun _ => .bind (.modify (installLeaf_program c buf va l)) fun _ => .pure l
  have hset (l : Leaf) := KeepsProgram.ite (p := same || l.pte.d) (.bind (.pure true) fun _ => htail { l with pte := l.pte ||| pteD })
    (.bind (orEntry_keepsProgram c l pteD) fun _ => htail { l with pte := l.pte ||| pteD })
  exact .ite (.bind (.pure l) hset) (.bind (checkLeaf_keepsProgram _ _ _ _ _ _ _) hset)

theorem currentLeaf_keepsProgram (c : Ctx) (buf : Buffer) (kind va n e : Nat) (tests : LeafTests) (l : Leaf) :
    KeepsProgram (currentLeaf c buf kind va n e tests l) := by
  refine .bind (rereadEntry_keepsProgram c l) fun r => ?_
  split
  · exact .pure _
  · exact .bind (.modify (dropStale_program c va)) fun _ => checkLeaf_keepsProgram _ _ _ _ _ _ _

theorem translateFor_keepsProgram (c : Ctx) (buf : Buffer) (kind va n e : Nat) (tests : LeafTests) :
    KeepsProgram (translateFor c buf kind va n e tests) := by
  refine .bind (checkLeaf_keepsProgram _ _ _ _ _ _ _) fun l => .ite (.pure l) ?_
  have htail (now : Leaf) := KeepsProgram.ite (p := l.pte.kind == 4 && now.pte ||| Pte.loose != l.pte ||| Pte.loose)
    (.bind (.modify (abandonCopy_program c)) fun _ => setDirty_keepsProgram c buf kind (va % 2 ^ 56) n e tests now)
    (setDirty_keepsProgram c buf kind (va % 2 ^ 56) n e tests now)
  exact .ite (.bind (currentLeaf_keepsProgram _ _ _ _ _ _ _ l) htail) (.bind (.pure l) htail)

/-! Pages got for a store (R117 to R121). -/

theorem checkLines_keepsProgram (loc n : Nat) (plain : Bool) (level kind va e : Nat) {tested : M Unit} (h : KeepsProgram tested) :
    KeepsProgram (checkLines loc n plain level kind va e tested) :=
  .bind .get fun _ => .check (.bind h fun _ => .bind .get fun _ => .check (.check (.ite (.stopWait _) (.pure _))))

theorem poolWord_keepsProgram (pa n level kind va e : Nat) : KeepsProgram (poolWord pa n level kind va e) :=
  .bind .get fun _ => .check (.bind (.modify (readyRange_program _ n)) fun _ =>
    .bind (checkLines_keepsProgram _ _ _ _ _ _ _ (.pure _)) fun _ => .bind .get fun _ => .pure _)

theorem popFrame_keepsProgram (pool level kind va e : Nat) (n : Nat) : KeepsProgram (popFrame pool level kind va e n) := by
  induction n with
  | zero => exact .pure _
  | succ n ih =>
    exact .bind (poolWord_keepsProgram _ _ _ _ _ _) fun f => .bind (.modify fun s => homeWrite_program _ _ _ _ s) fun _ =>
      .ite (.pure _) ih

theorem poolPop_keepsProgram (die level kind va e : Nat) : KeepsProgram (poolPop die level kind va e) :=
  .bind .get fun _ => .ite (.pure _) (.bind (poolWord_keepsProgram _ _ _ _ _ _) fun n => popFrame_keepsProgram _ _ _ _ _ n)

theorem framePage_keepsProgram (c : Ctx) (l : Leaf) (kind va e : Nat) : KeepsProgram (framePage c l kind va e) := by
  refine .bind (poolPop_keepsProgram _ _ _ _ _) fun r => ?_
  cases r with
  | none => exact .pure _
  | some f => exact .bind .get fun _ => .check (.check (.bind (.modify (lateFrame_program c l va f)) fun _ => .pure _))

theorem storeUnbacked_keepsProgram (c : Ctx) (l : Leaf) (kind va e : Nat) : KeepsProgram (storeUnbacked c l kind va e) :=
  .getBind fun s => .ite ((KeepsProgram.pure _).at s) (.ite (.setThen (materialise_program _ _ s) (.pure _)) (.ite
    ((KeepsProgram.bind (framePage_keepsProgram c l kind va e) fun _ => .ite (.pure _) (.stopTrap _)).at s) rfl))

theorem cowCopy_keepsProgram (c : Ctx) (l : Leaf) (kind va e : Nat) : KeepsProgram (cowCopy c l kind va e) := by
  refine .bind (.modify (readyRange_program _ _)) fun _ => .bind (checkLines_keepsProgram _ _ _ _ _ _ _
    (.bind .get fun _ => .ite (.stopTrap _) (.pure _))) fun _ => .getBind fun s => ?_
  extract_lets r i cells s1 s2 dst s3 s4 who
  have h1 : s1.program = s.program := rfl
  have h2 : s2.program = s.program := ite_program h1 ((materialise_program _ _ s1).trans h1)
  have h3 : s3.program = s.program := (forgetLines_program _ _ s2).trans h2
  have h4 : s4.program = s.program := (overwritten_program _ _ _).trans ((State.mem_program s3 _).trans h3)
  exact .set ((rewriteLeaf_program _ _ _ _ _).trans ((State.cores_program s4 _).trans h4))

/-! The place of an access (R94, R117 to R127, R221). -/

theorem needLeasedLine_keepsProgram (loc : Nat) : KeepsProgram (needLeasedLine loc) :=
  .getBind fun _ => .ite (.ite (.setThen (sendLineRead_program _ _ _ _) (.stopWait _)) rfl) rfl

theorem needUnpoisoned_keepsProgram (loc n level kind va e : Nat) : KeepsProgram (needUnpoisoned loc n level kind va e) :=
  .bind .get fun _ => .ite (.stopTrap _) (.pure _)

theorem placeFor_keepsProgram (c : Ctx) (buf : Buffer) (kind va n e : Nat) (tests : LeafTests) (fuel : Nat) :
    ∀ l, KeepsProgram (placeFor c buf kind va n e tests fuel l) := by
  induction fuel with
  | zero => exact fun l => .bind .get fun _ => .pure _
  | succ fuel ih =>
    intro l
    have hagain : KeepsProgram (do
        let l ← translateFor c buf kind va n e tests
        placeFor c buf kind va n e tests fuel l) := .bind (translateFor_keepsProgram _ _ _ _ _ _ _) ih
    refine .bind .get fun s => ?_
    dsimp only
    split
    · exact .pure _
    · split
      · exact .bind (needLeasedLine_keepsProgram _) fun _ => .pure _
      · exact .check (.pure _)
      · exact .stopWait _
      · exact .bind (needUnpoisoned_keepsProgram _ _ _ _ _ _) fun _ => .stopTrap _
    · exact .ite (.bind (needUnpoisoned_keepsProgram _ _ _ _ _ _) fun _ =>
        .bind (storeUnbacked_keepsProgram _ _ _ _ _) fun _ => .ite hagain (.pure _)) (.pure _)
    · exact .ite (.bind (cowCopy_keepsProgram _ _ _ _ _) fun _ => hagain) (.pure _)

theorem windowPlace_keepsProgram (c : Ctx) (kind va n e : Nat) : KeepsProgram (windowPlace c kind va n e) := by
  refine .bind .get fun s => ?_
  split
  · exact .check (.pure _)
  · exact .stopTrap _

theorem resolveFor_keepsProgram (c : Ctx) (buf : Buffer) (kind va n e : Nat) (tests : LeafTests) :
    KeepsProgram (resolveFor c buf kind va n e tests) :=
  .ite (.bind (windowPlace_keepsProgram _ _ _ _ _) fun _ => .pure _) (.bind (translateFor_keepsProgram _ _ _ _ _ _ _) fun l =>
    .bind (placeFor_keepsProgram _ _ _ _ _ _ _ _ l) fun _ => .pure _)

theorem atomicPlace_keepsProgram (c : Ctx) (buf : Buffer) (kind va n e : Nat) (ok : Target → Bool) :
    KeepsProgram (atomicPlace c buf kind va n e ok) :=
  .bind (resolveFor_keepsProgram _ _ _ _ _ _ _) fun _ => .check (.pure _)

/-! An access at its place (R192, R195, R201). -/

theorem dropForeign_keepsProgram (c : Ctx) (p : Place) (w : Nat) : KeepsProgram (dropForeign c p w) := by
  refine .getBind fun s => ?_
  dsimp only
  split
  · exact .ite (.setThen (evictLine_program _ _ s) (.bind .get fun _ => .ite (.stopWait _) (.pure _))) rfl
  · rfl

theorem ownStoresFirst_keepsProgram (c : Ctx) (ws : List Nat) : KeepsProgram (ownStoresFirst c ws) := by
  refine .bind .get fun s => .ite (.bind (.modify (drainCore_program c.core)) fun _ => .bind .get fun t => ?_) (.pure _)
  split
  · exact .stopWait _
  · exact .pure _

theorem checkOwners_keepsProgram (c : Ctx) (plain : Bool) (ws : List HomeWord) (kind va e : Nat) :
    KeepsProgram (checkOwners c plain ws kind va e) := by
  refine .bind .get fun s => ?_
  split
  · exact .stopTrap _
  · exact .stopTrap _
  · exact .pure _

theorem checkWords_keepsProgram (c : Ctx) (plain : Bool) (ws : List HomeWord) (kind va e : Nat) :
    KeepsProgram (checkWords c plain ws kind va e) := by
  refine .bind (checkOwners_keepsProgram _ _ _ _ _ _) fun _ => .bind .get fun s => ?_
  split
  · exact .stopTrap _
  · exact .stopTrap _
  · exact .stopWait _
  · exact .pure _

theorem gatherWords_keepsProgram (c : Ctx) (p : Place) (n kind va e : Nat) : KeepsProgram (gatherWords c p n kind va e) := by
  have htail : KeepsProgram (do
      modify (recallWords (wordsOf p.loc n))
      modify (readyUnder p.mat p.loc)) :=
    .bind (.modify (recallWords_program _)) fun _ => .modify (readyUnder_program _ _)
  exact .bind (.forEach (dropForeign_keepsProgram c p) _) fun _ => .bind (ownStoresFirst_keepsProgram _ _) fun _ =>
    .bind (.modify (noteRequest_program c n)) fun _ => .bind (.modify (settle_program p.loc n)) fun _ =>
    .bind (checkWords_keepsProgram _ _ _ _ _ _) fun _ =>
    .ite (.bind (.modify (dropLineEverywhere_program _)) fun _ => htail) htail

theorem offerAtomic_keepsProgram (c : Ctx) (kind n va e : Nat) (ok : Target → Bool) : KeepsProgram (offerAtomic c kind n va e ok) := by
  refine .bind (atomicPlace_keepsProgram _ _ _ _ _ _ _) fun p => .ite (.bind .get fun _ => .check (.pure _)) ?_
  refine .bind (.forEach (dropForeign_keepsProgram c p) _) fun _ => .bind (ownStoresFirst_keepsProgram _ _) fun _ =>
    .bind (.tryCatch (checkWords_keepsProgram _ _ _ _ _ _) fun st => ?_) fun _ => .pure _
  exact .ite (.bind (.modify (noteRequest_program c n)) fun _ => .throw st) (.throw st)

end

end Sys2Proof.Machine
end

section
/-! PROOFS. Scalar atomics (O25, O26). -/

namespace Sys2Proof.Machine

section
variable {s s1 : State} {o : AArgs}

theorem misaligned_rmw {a e : Nat} (h : a < 2 ^ 56) :
    misaligned kRmw a e = { cause := 0x0D, tval := BitVec.ofNat 64 (3 * 2 ^ 56 + a), estart := some e } := by
  rw [misaligned, xtrap, tvalOf, Nat.mod_eq_of_lt h]
  simp [kRmw]

/-! The target of a place (R197, R221). -/

theorem scratchBase_le_scratchLoc (k x : Nat) : scratchBase ≤ scratchLoc k x := by
  unfold scratchLoc
  omega

theorem targetOf_scratchLoc (k x : Nat) : targetOf (scratchLoc k x) = .scratch :=
  if_pos (decide_eq_true (scratchBase_le_scratchLoc k x))

theorem isHost_scratchLoc (k x : Nat) : isHost (scratchLoc k x) = false := by
  have h := scratchBase_le_scratchLoc k x
  simp only [scratchBase] at h
  simp only [isHost, isHostCoherent, isHostPlain, Bool.or_eq_false_iff, Bool.and_eq_false_iff, decide_eq_false_iff_not]
  omega

/-! One atomic at its place (R200, R203, R210). -/

theorem Runs.takeAnswer_none {va e : Nat} (h : s.self.hostAns = none) : Runs (takeAnswer va e) s none s := by
  refine (Runs.mySeq s).bind ?_
  rw [h]
  exact Runs.pure _ _

/-- A scratchpad's memory after an operation that gives `r`, what it writes. -/
def State.performedAt (s : State) (loc n : Nat) : Option Nat → State
  | some v => { s with mem := s.mem.writeLe loc n v }
  | none => s

theorem Runs.performAtomic_scratch {c : Ctx} {k loc n kind va e : Nat} {f : Nat → Option Nat} (hc : (s.core k).comb = [])
    (hb : s.badWords = []) : Runs (performAtomic c { loc := loc, scratch := some k } n f kind va e) s (s.mem.readLe loc n)
      (s.performedAt loc n (f (s.mem.readLe loc n))) := by
  have hm := Runs.modify (settleScratch k loc n) s
  rw [settleScratch_of_comb_nil hc] at hm
  refine (Runs.get s).bind (Runs.ite_neg (Bool.eq_false_iff.1 (State.bad_of_badWords_nil hb)) (hm.bind ((Runs.get s).bind ?_)))
  dsimp only
  cases f (s.mem.readLe loc n) with
  | none => exact (Runs.pure _ _).bind (Runs.pure _ _)
  | some v => exact (Runs.modify _ s).bind (Runs.pure _ _)

/-- Changes of the state, one for each of a list. -/
theorem runs_forEach_modify {α : Type} (f : α → State → State) (l : List α) :
    ∀ s : State, Runs (forEach l fun a => modify (f a)) s () (l.foldl (fun s a => f a s) s) := by
  induction l with
  | nil => exact fun s => Runs.pure _ s
  | cons a l ih =>
    intro s
    rw [forEach, List.foldlM_cons]
    exact (Runs.modify (f a) s).bind (ih (f a s))

/-- The copies that a core holds of the words of n bytes are dropped (R201). -/
def State.droppedWords (s : State) (core loc n : Nat) : State := (wordsOf loc n).foldl (fun s w => dropUnreg core w s) s

/-- A home after an operation that gives `r`, what it writes. -/
def State.performedHome (s : State) (core : Nat) (p : Place) (n : Nat) : Option Nat → State
  | some v => (homeWrite p.mat p.loc n v s).droppedWords core p.loc n
  | none => (breakLinks (p.loc / 128) s).droppedWords core p.loc n

/-- Each step drops for the core of its own state: it is one core all along. -/
theorem State.droppedWords_eq (s : State) (loc n : Nat) :
    (wordsOf loc n).foldl (fun s w => dropUnreg (coreOf s.cur) w s) s = s.droppedWords (coreOf s.cur) loc n := by
  unfold State.droppedWords
  generalize wordsOf loc n = l
  induction l generalizing s with
  | nil => rfl
  | cons w l ih => exact ih (dropUnreg (coreOf s.cur) w s)

theorem State.droppedWords_program (s : State) (core loc n : Nat) : (s.droppedWords core loc n).program = s.program :=
  foldl_program (fun s w => dropUnreg_program core w s) _ s

theorem State.performedHome_program (s : State) (core : Nat) (p : Place) (n : Nat) (v : Option Nat) :
    (s.performedHome core p n v).program = s.program := by
  cases v with
  | none => exact (State.droppedWords_program _ _ _ _).trans (breakLinks_program _ s)
  | some v => exact (State.droppedWords_program _ _ _ _).trans (homeWrite_program _ _ _ _ s)

theorem State.performedHome_ite {q : Prop} [Decidable q] (s : State) (core : Nat) (p : Place) (n v : Nat) :
    s.performedHome core p n (if q then some v else none) =
      (if q then homeWrite p.mat p.loc n v s else breakLinks (p.loc / 128) s).droppedWords core p.loc n := by
  split <;> rfl

theorem Runs.performAtomic_home {c : Ctx} {p : Place} {n kind va e : Nat} {f : Nat → Option Nat} {t : State} (hs : p.scratch = none)
    (hg : Runs (gatherWords c p n kind va e) s () t) : Runs (performAtomic c p n f kind va e) s (t.valueUnder p.mat p.loc n)
      (t.performedHome c.core p n (f (t.valueUnder p.mat p.loc n))) := by
  unfold performAtomic
  rw [hs]
  refine hg.bind ((Runs.get t).bind ?_)
  dsimp only
  cases f (t.valueUnder p.mat p.loc n) with
  | none =>
    refine (Runs.modify _ t).bind ?_
    exact (runs_forEach_modify (dropUnreg c.core) _ _).bind (Runs.pure _ _)
  | some v =>
    refine (Runs.modify _ t).bind ?_
    exact (runs_forEach_modify (dropUnreg c.core) _ _).bind (Runs.pure _ _)

theorem Runs.atomicPlace_quiet {buf : Buffer} {kind a n e k x : Nat} {ok : Target → Bool} (hk : kind ≠ kFetch) (ha : a < 2 ^ 56)
    (hq : s.quietWindow a n k x) (hok : ok .scratch = true) :
    Runs (atomicPlace (s.ctx s.cur) buf kind a n e ok) s { loc := scratchLoc k x, scratch := some k } s := by
  unfold Machine.atomicPlace
  rw [Nat.mod_eq_of_lt ha]
  refine (Runs.resolveFor_quiet hq hk ha).bind (Runs.ite_neg ?_ (Runs.pure _ _))
  simp [targetOf_scratchLoc, hok]

/-! A scalar atomic (R202 to R205). -/

theorem StopsWith.scalarAtomic_misaligned {a n : Nat} {ok : Target → Bool} {f : AtomicDo} (h : a % n ≠ 0) :
    StopsWith (scalarAtomic o a n ok f) s (.trap (misaligned kRmw a 0)) s := by
  unfold Machine.scalarAtomic
  rw [if_pos h]
  exact (StopsWith.stopTrap _ s).bind

section
variable {a n : Nat} {ok : Target → Bool} {f : AtomicDo} (ha : a % n = 0) (ho : o.ord = .rlx) (hh : s.self.hostAns = none)
include ha ho hh

/-- A relaxed atomic at a place of the device. -/
theorem Runs.scalarAtomic {p : Place} {old : Nat} {t : State} (hp : Runs (atomicPlace (s.ctx s.cur) .l1 kRmw a n 0 ok) s p s1)
    (hl : isHost p.loc = false) (hf : Runs (performAtomic (s.ctx s.cur) p n (f.result n) kRmw a 0) s1 old t) :
    Runs (scalarAtomic o a n ok f) s old t := by
  unfold Machine.scalarAtomic
  rw [ho]
  refine Runs.ite_neg (fun h => h ha) ((Runs.takeAnswer_none hh).bind ((Runs.myCtx s).bind (hp.bind ?_)))
  simp only [releases, acquires, hl, Bool.false_eq_true, if_false]
  exact hf.bind (Runs.pure _ _)

/-- In a quiet window it reads and writes memory alone (R221). -/
theorem Runs.scalarAtomic_quiet {k x : Nat} (hlt : a < 2 ^ 56) (hq : s.quietWindow a n k x) (hok : ok .scratch = true) :
    Runs (Machine.scalarAtomic o a n ok f) s (s.mem.readLe (scratchLoc k x) n)
      (s.performedAt (scratchLoc k x) n (f.result n (s.mem.readLe (scratchLoc k x) n))) := by
  obtain ⟨_, _, _, _, hc, hb⟩ := id hq
  exact Runs.scalarAtomic ha ho hh (Runs.atomicPlace_quiet (by decide) hlt hq hok) (isHost_scratchLoc k x)
    (Runs.performAtomic_scratch hc hb)

end

/-- The address of a scalar atomic. -/
def State.amoVa (s : State) (o : AArgs) : Nat := (s.self.scalar o.sa.reg).toNat % 2 ^ 56

theorem State.amoVa_lt (s : State) (o : AArgs) : s.amoVa o < 2 ^ 56 := Nat.mod_lt _ (by decide)

/-- The n bytes of a register that a scalar atomic takes. -/
def State.amoValue (s : State) (o : AArgs) (r : Reg) : Nat := (s.self.scalar r).toNat % 2 ^ (8 * amoBytes o)

theorem State.full_performedAt {f : RegFile} {r : Reg} (loc n : Nat) (v : Option Nat) (h : s.full f r) :
    (s.performedAt loc n v).full f r := by
  cases v <;> exact h

theorem State.performedAt_cycle (s : State) (loc n : Nat) (v : Option Nat) : (s.performedAt loc n v).cycle = s.cycle := by
  cases v <;> rfl

section
variable (ha : s.full .scalar o.sa.reg) (hb : s.full .scalar o.sb.reg) (hd : s.full .scalar o.d)
include ha hb hd

/-! `amo` (R200, R202). -/

theorem StopsWith.amo_misaligned {op : Nat} (h : s.amoVa o % amoBytes o ≠ 0) : StopsWith (amo op o) s
    (.trap { cause := 0x0D, tval := BitVec.ofNat 64 (3 * 2 ^ 56 + s.amoVa o), estart := some 0 }) s := by
  rw [← misaligned_rmw (s.amoVa_lt o)]
  exact (Runs.readS ha).bindStop ((Runs.readS hb).bindStop ((Runs.readReg hd).bindStop (StopsWith.scalarAtomic_misaligned h).bind))

theorem execWhole_amo {op old : Nat} (h : Runs (scalarAtomic o (s.amoVa o) (amoBytes o) (performs true (hostOperation op))
      ⟨op, s.amoValue o o.sb.reg, 0⟩) s old s1) (h1 : s1.full .scalar o.d) :
    execWhole (amo op o) s = .next (s1.fell (·.sentLong o.d (BitVec.ofNat 64 old) s1.cycle)) :=
  execWhole_writeLong ((Runs.readS ha).bind ((Runs.readS hb).bind ((Runs.readReg hd).bind (h.bind (Runs.writeLong h1)))))

end

/-! `cas` and `cas2` (R203). -/

/-- What a compare and swap writes: the new value where the old one is the one expected. -/
theorem AtomicDo.result_cas (new expected n old : Nat) :
    (AtomicDo.mk casOp new expected).result n old = if old = expected then some new else none := if_pos rfl

theorem State.performedAt_ite {p : Prop} [Decidable p] (s : State) (loc n v : Nat) :
    s.performedAt loc n (if p then some v else none) = { s with mem := if p then s.mem.writeLe loc n v else s.mem } := by
  split <;> rfl

section
variable (ha : s.full .scalar o.sa.reg) (hb : s.full .scalar o.sb.reg) (hd : s.full .scalar o.d)
include ha hb hd

theorem exec_cas {old : Nat} (h : Runs (scalarAtomic o (s.amoVa o) (amoBytes o) (performs true true)
      ⟨casOp, s.amoValue o o.sb.reg, s.amoValue o o.d⟩) s old s1) (h1 : s1.full .scalar o.d) :
    exec (.cas o) s = .next (s1.fell (·.sentLong o.d (BitVec.ofNat 64 old) s1.cycle)) :=
  execWhole_writeLong ((Runs.readS ha).bind ((Runs.readS hb).bind ((Runs.readReg hd).bind (h.bind (Runs.writeLong h1)))))

theorem exec_cas_quiet {k x : Nat} (h : s.amoVa o % amoBytes o = 0) (ho : o.ord = .rlx) (hh : s.self.hostAns = none)
    (hq : s.quietWindow (s.amoVa o) (amoBytes o) k x) : exec (.cas o) s =
    .next ((s.performedAt (scratchLoc k x) (amoBytes o) (if s.mem.readLe (scratchLoc k x) (amoBytes o) = s.amoValue o o.d
        then some (s.amoValue o o.sb.reg) else none)).fell
      (·.sentLong o.d (BitVec.ofNat 64 (s.mem.readLe (scratchLoc k x) (amoBytes o))) s.cycle)) := by
  have hrun := Runs.scalarAtomic_quiet (ok := performs true true) (f := ⟨casOp, s.amoValue o o.sb.reg, s.amoValue o o.d⟩) h ho hh
    (s.amoVa_lt o) hq rfl
  rw [exec_cas ha hb hd hrun (State.full_performedAt _ _ _ hd), AtomicDo.result_cas, State.performedAt_cycle]

end

/-- The two registers of a pair as one value. -/
def Seq.pair (q : Seq) (r : Reg) : Nat := (q.scalar r).toNat + 2 ^ 64 * (q.scalar (r + 1)).toNat

/-- A long-latency result written; s0 takes nothing. -/
def State.sent (s : State) (r : Reg) (v : DWord) : State := if r = 0 then s else s.modSeq s.cur (·.sentLong r v s.cycle)

theorem State.fell_modSeq (s : State) (f g : Seq → Seq) : (s.modSeq s.cur g).fell f = s.fell fun q => f (g q) := by
  simp only [State.fell, State.modSeq, State.setSeq_cur, State.seq_setSeq_self]
  congr 1
  simp only [State.setSeq, NMap.set_set]

theorem State.fell_sent (s : State) (r : Reg) (v : DWord) (f : Seq → Seq) :
    (s.sent r v).fell f = s.fell fun q => f (q.sentLong r v s.cycle) := by
  unfold State.sent
  split
  · next h => exact State.fell_congr (by rw [Seq.sentLong, if_pos h])
  · exact State.fell_modSeq s f _

theorem State.sent_cycle (s : State) (r : Reg) (v : DWord) : (s.sent r v).cycle = s.cycle := by
  unfold State.sent
  split <;> rfl

theorem Seq.isEmpty_sentLong {r k : Reg} (q : Seq) (v : DWord) (t : Nat) (hk : k ≠ r) :
    (q.sentLong r v t).isEmpty .scalar k = q.isEmpty .scalar k := by
  have hne : k.toNat ≠ r.toNat := fun e => hk (BitVec.eq_of_toNat_eq e)
  unfold Seq.sentLong
  split
  · rfl
  · next h0 =>
    simp only [Seq.setScalar, if_neg h0, Seq.setEmpty, Seq.isEmpty, BitVec.getLsbD_or, BitVec.getLsbD_shiftLeft]
    have hbit : (!decide (k.toNat < r.toNat) && (1 : BitVec 64).getLsbD (k.toNat - r.toNat)) = false := by
      simp [BitVec.getLsbD_one]
      omega
    rw [Bool.and_assoc, hbit, Bool.and_false, Bool.or_false]

theorem State.full_sent {r k : Reg} {v : DWord} (hk : k ≠ r) (h : s.full .scalar k) : (s.sent r v).full .scalar k := by
  unfold State.sent
  split
  · exact h
  · show ((s.modSeq s.cur _).seq s.cur).isEmpty .scalar k = false
    rw [State.modSeq, State.seq_setSeq_self, Seq.isEmpty_sentLong _ _ _ hk]
    exact h

section
variable {t : State} (ha : s.full .scalar o.sa.reg) (hb : s.full .scalar o.sb.reg) (hb' : s.full .scalar (o.sb.reg + 1))
  (hd : s.full .scalar o.d) (hd' : s.full .scalar (o.d + 1))
include ha hb hb' hd hd'

theorem exec_cas2 {old : Nat} (h : Runs (scalarAtomic o (s.amoVa o) 16 (performs false true)
      ⟨casOp, s.self.pair o.sb.reg, s.self.pair o.d⟩) s old t) (h1 : t.full .scalar o.d) (h2 : t.full .scalar (o.d + 1)) :
    exec (.cas2 o) s = .next (t.fell fun q =>
      (q.sentLong o.d (BitVec.ofNat 64 old) t.cycle).sentLong (o.d + 1) (BitVec.ofNat 64 (old / 2 ^ 64)) t.cycle) := by
  have hne : o.d + 1 ≠ o.d := by
    simp
  have hw := Runs.writeLong (v := BitVec.ofNat 64 (old / 2 ^ 64)) (State.full_sent (v := BitVec.ofNat 64 old) hne h2)
  rw [show exec (.cas2 o) s = _ from execWhole_ok ((Runs.readS ha).bind ((Runs.readS hb).bind
    ((Runs.readS (a := ⟨o.sb.reg + 1, o.sb.w⟩) hb').bind ((Runs.readReg hd).bind ((Runs.readReg hd').bind
      (h.bind ((Runs.writeLong h1).bind hw)))))))]
  show Host.Outcome.next (((t.sent o.d _).sent (o.d + 1) _).fell id) = _
  rw [State.fell_sent, State.fell_sent, State.sent_cycle]
  rfl

end

/-- An instruction is the `amo` of an operation, `f` on the old value. -/
def State.amoIs (s : State) (o : AArgs) (i : Instr) (op : Nat) (host : Bool) (f : Nat → Nat) : Prop :=
  (s.amoVa o % amoBytes o ≠ 0 → exec i s =
    .next (s.trapped { cause := 0x0D, tval := BitVec.ofNat 64 (3 * 2 ^ 56 + s.amoVa o), estart := some 0 })) ∧
  (∀ old s1, Runs (scalarAtomic o (s.amoVa o) (amoBytes o) (performs true host) ⟨op, s.amoValue o o.sb.reg, 0⟩) s old s1 →
    s1.full .scalar o.d → exec i s = .next (s1.fell (·.sentLong o.d (BitVec.ofNat 64 old) s1.cycle))) ∧
  (s.amoVa o % amoBytes o = 0 → o.ord = .rlx → ∀ k x, inWindow (s.amoVa o) = true →
    windowTarget (coreOf s.cur) (s.amoVa o) = some (k, x) → x + amoBytes o ≤ 2 ^ 20 → (s.core k).spOwner = s.self.tenant →
    (s.core k).comb = [] → s.badWords = [] → s.self.hostAns = none →
    let old := s.mem.readLe (scratchLoc k x) (amoBytes o)
    exec i s = .next ((s.performedAt (scratchLoc k x) (amoBytes o) (some (f old))).fell
      (·.sentLong o.d (BitVec.ofNat 64 old) s.cycle)))

theorem State.amoIs_of_result {i : Instr} {op : Nat} {host : Bool} {f : Nat → Nat} (ha : s.full .scalar o.sa.reg)
    (hb : s.full .scalar o.sb.reg) (hd : s.full .scalar o.d) (hi : exec i s = execWhole (amo op o) s)
    (hh : host = hostOperation op)
    (hf : ∀ x, (AtomicDo.mk op (s.amoValue o o.sb.reg) 0).result (amoBytes o) x = some (f x)) : s.amoIs o i op host f := by
  subst hh
  unfold State.amoIs
  rw [hi]
  refine ⟨fun h => execWhole_trap (StopsWith.amo_misaligned ha hb hd h), fun old s1 h h1 => execWhole_amo ha hb hd h h1,
    fun h ho k x hw ht hx hown hc hbad hans => ?_⟩
  have hrun := Runs.scalarAtomic_quiet (ok := performs true (hostOperation op)) (f := ⟨op, s.amoValue o o.sb.reg, 0⟩) h ho hans
    (s.amoVa_lt o) ⟨hw, ht, hx, hown, hc, hbad⟩ rfl
  rw [execWhole_amo ha hb hd hrun (State.full_performedAt _ _ _ hd), hf]
  rfl

end

/-- Settles O25: a misaligned address stops before its page is looked at; else the word's old value is the result, in a quiet window
that of memory, which holds what the operation makes of it. -/
theorem scalarAtomicsUpdate : Obligations.ScalarAtomicsUpdate := by
  intro o s ha hb hd
  let w := 8 * amoBytes o
  let v := s.amoValue o o.sb.reg
  have is (i : Instr) (op : Nat) (host : Bool) (f : Nat → Nat) := State.amoIs_of_result (i := i) (op := op) (host := host) (f := f) ha hb hd
  exact ⟨is _ 0 true (fun x => (x + v) % 2 ^ w) rfl rfl fun _ => rfl, is _ 1 false (· &&& v) rfl rfl fun _ => rfl,
    is _ 2 false (· ||| v) rfl rfl fun _ => rfl, is _ 3 false (· ^^^ v) rfl rfl fun _ => rfl,
    is _ 8 true (fun _ => v) rfl rfl fun _ => rfl,
    is _ 4 false (fun x => if sext w x ≤ sext w v then x else v) rfl rfl fun _ => rfl,
    is _ 5 false (fun x => if sext w x ≤ sext w v then v else x) rfl rfl fun _ => rfl,
    is _ 6 false (fun x => if x ≤ v then x else v) rfl rfl fun _ => rfl,
    is _ 7 false (fun x => if x ≤ v then v else x) rfl rfl fun _ => rfl,
    is _ 9 false (fun x => (fpAdd .fp32 x v .rne).1) rfl rfl fun _ => rfl,
    is _ 10 false (fun x => (fpAdd .bf16 x v .rne).1) rfl rfl fun _ => rfl⟩

/-- Settles O26: both compare at the word's place; `cas2` at a home writes there or leaves the word as it came home. -/
theorem compareAndSwap : Obligations.CompareAndSwap := by
  refine ⟨fun o s ha hb hd => ⟨fun old s1 h h1 => exec_cas ha hb hd h h1, fun h ho k x hw ht hx hown hc hbad hans => ?_⟩,
    fun o s ha hb hb' hd hd' => ⟨fun old s1 h h1 h2 => exec_cas2 ha hb hb' hd hd' h h1 h2,
      fun h ho hans p s1 s2 hp hs hl hg h1 h2 => ?_⟩⟩
  · rw [exec_cas_quiet ha hb hd h ho hans ⟨hw, ht, hx, hown, hc, hbad⟩, State.performedAt_ite]
    rfl
  · have hcur : s2.cur = s.cur := State.program_cur (((gatherWords_keepsProgram _ _ _ _ _ _).of_runs hg).trans
      ((atomicPlace_keepsProgram _ _ _ _ _ _ _).of_runs hp))
    have hf := Runs.performAtomic_home (f := (AtomicDo.mk casOp (s.self.pair o.sb.reg) (s.self.pair o.d)).result 16) hs hg
    rw [AtomicDo.result_cas, State.performedHome_ite] at hf
    have hu : (if s2.valueUnder p.mat p.loc 16 = s.self.pair o.d then homeWrite p.mat p.loc 16 (s.self.pair o.sb.reg) s2
        else breakLinks (p.loc / 128) s2).cur = s.cur :=
      (State.program_cur (ite_program (homeWrite_program _ _ _ _ s2) (breakLinks_program _ s2))).trans hcur
    have hrun := exec_cas2 ha hb hb' hd hd' (Runs.scalarAtomic h ho hans hp hl hf)
    rw [show (s.ctx s.cur).core = coreOf s.cur from rfl, ← hu, ← State.droppedWords_eq] at hrun
    exact hrun h1 h2

end Sys2Proof.Machine
end

section
/-! PROOFS. What brick atomics share: their elements offered in order, and how the instruction ends (R206 to R210). -/

namespace Sys2Proof.Machine

section
variable {s t : State}

theorem Runs.waitFirst_none (s : State) : Runs (waitFirst none) s () s := Runs.pure _ s

theorem Runs.stopElem_none (s : State) : Runs (stopElem none) s () s := Runs.pure _ s

theorem Runs.needBrick {a : Src} (h : s.full .brick a.reg) : Runs (needBrick a) s () s := Runs.needFull h

theorem Runs.clearEstart (s : State) : Runs clearEstart s () (s.modSeq s.cur fun q => { q with estart := 0 }) := Runs.modMe _ s

theorem Runs.sentBrick (d : Reg) (es : List Nat) (s : State) :
    Runs (Machine.brickPending d es) s () (s.modSeq s.cur (·.sentBrick d es s.cycle)) := Runs.brickPending d es s

/-- The address of element e of a brick atomic (R207). -/
def State.atomicAddr (s : State) (o : VArgs) (e : Nat) : Nat := s.self.atomicVa o.ty.width (s.brickBase o) o.sb.reg.toNat e

/-- The bits of element e of the data brick of a brick atomic. -/
def State.atomicData (s : State) (o : VArgs) (e : Nat) : Nat := (s.self.elem o.sc.reg.toNat e).toNat % 2 ^ o.ty.width

/-- A base that lies on the boundary of its elements, where there is one. -/
def State.atomicAligned (s : State) (o : VArgs) : Prop := s.brickElems o = [] ∨ baseAligned (s.brickBase o) o.ty.width = true

theorem RunsAll.of_runs {α : Type} {step : α → M Unit} {g : α → State → State} {l : List α}
    (h : ∀ x ∈ l, ∀ u, Runs (step x) u () (g x u)) : ∀ s, RunsAll step l s (l.foldl (fun u x => g x u) s) := by
  induction l with
  | nil => exact fun s => rfl
  | cons x l ih =>
    exact fun s => ⟨g x s, h x List.mem_cons_self s, ih (fun y hy => h y (List.mem_cons_of_mem x hy)) (g x s)⟩

end

end Sys2Proof.Machine
end

section
/-! PROOFS. `vamo` (O34). -/

namespace Sys2Proof.Machine

section
variable {s : State} {o : VArgs}

/-- Whether a `vamo` puts the old values in b[D] (R210). -/
def vamoReturns (o : VArgs) : Bool := !o.vmod.getLsbD 0

/-- What a `vamo` does to element e. -/
def State.vamoDo (s : State) (o : VArgs) (op e : Nat) : AtomicDo := ⟨op, s.atomicData o e, 0⟩

/-- One accepted element performed by an operation `f` on the old word and the element's own. -/
def State.vamoStep (s : State) (o : VArgs) (f : Nat → Nat → Nat) (x : Offered) : M Unit := do
  let old ← match x.done with
    | some old => pure old
    | none => performAtomic (s.ctx s.cur) x.place (o.ty.width / 8) (fun old => some (f old (s.atomicData o x.elem))) kRmw x.va x.elem
  if vamoReturns o then modMe (·.setElem o.d.toNat x.elem (BitVec.ofNat 64 old))

/-- What a `vamo` leaves of its sequencer: ESTART 0, and b[D] pending if it was written (R34, R36). -/
def vamoEnded (o : VArgs) (es : List Nat) (cycle : Nat) (q : Seq) : Seq :=
  if vamoReturns o then { q.sentBrick o.d es cycle with estart := 0 } else { q with estart := 0 }

/-- An operation of R41 that writes every word. -/
theorem AtomicDo.result_op {op v n : Nat} {f : Nat → Nat → Nat} (hop : op ≠ casOp) (hf : atomicOp op (8 * n) = f) :
    (AtomicDo.mk op v 0).result n = fun old => some (f old v) := by
  funext old
  rw [← hf]
  exact if_neg hop

section
variable (ht : s.self.typed o.ty) (ha : s.full .scalar o.sa.reg) (hb : s.full .brick o.sb.reg) (hc : s.full .brick o.sc.reg)
  (hd : s.full .brick o.d)
include ht ha hb hc hd

/-- Every element accepted, and performed in the order chosen. -/
theorem execWhole_vamo {op : Nat} {f : Nat → Nat → Nat} {l l' : List Offered} {s1 s2 s3 : State} (hop : op ≠ casOp)
    (hf : atomicOp op o.ty.width = f) (hbase : s.atomicAligned o)
    (hl : Runs (offerAll (fun e => offerVamo (s.ctx s.cur) (o.ty.width / 8) (s.atomicAddr o e) e
      (performs true (hostOperation op)) (s.vamoDo o op e)) (s.brickElems o)) s (l, none) s1)
    (hp : Runs (performOrder l) s1 l' s2) (hr : RunsAll (s.vamoStep o f) l' s2 s3) :
    execWhole (vamo op o) s = .next (s3.fell (vamoEnded o (s.brickElems o) s3.cycle)) := by
  rw [width_eq] at hf
  unfold State.vamoStep vamoReturns at hr
  simp only [← AtomicDo.result_op hop hf] at hr
  have hdest : Runs (if (!o.vmod.getLsbD 0) = true then needBrickDest o.d else pure ()) s () s :=
    Runs.ite (fun _ => Runs.needWritable hd) fun _ => Runs.pure _ s
  have hpend : Runs (if (!o.vmod.getLsbD 0) = true then brickPending o.d (s.brickElems o) else pure ()) s3 ()
      (if (!o.vmod.getLsbD 0) = true then s3.modSeq s3.cur (·.sentBrick o.d (s.brickElems o) s3.cycle) else s3) := by
    split
    · exact Runs.sentBrick _ _ s3
    · exact Runs.pure _ s3
  rw [show execWhole (vamo op o) s = _ from execWhole_modMe <| (Runs.needType ht).bind <| (Runs.readS ha).bind <| (Runs.needBrick hb).bind <| (Runs.needBrick hc).bind <|
    Runs.whenThen hdest <| (Runs.mySeq s).bind <| (Runs.checkBase hbase).bind <| (Runs.myCtx s).bind <| hl.bind <|
    (Runs.waitFirst_none s1).bind <| hp.bind <| (Runs.forEach hr).bind <| (Runs.stopElem_none s3).bind <|
    Runs.whenThen hpend <| Runs.clearEstart _]
  unfold vamoEnded vamoReturns
  split
  · rw [State.fell_modSeq]
  · rfl

/-- With no active element it does nothing else. -/
theorem execWhole_vamo_none {op : Nat} {f : Nat → Nat → Nat} (hop : op ≠ casOp) (hf : atomicOp op o.ty.width = f)
    (h : s.brickElems o = []) : execWhole (vamo op o) s = .next (s.fell (vamoEnded o [] s.cycle)) := by
  have hl : Runs (offerAll (fun e => offerVamo (s.ctx s.cur) (o.ty.width / 8) (s.atomicAddr o e) e
      (performs true (hostOperation op)) (s.vamoDo o op e)) (s.brickElems o)) s ([], none) s := by
    rw [h]
    exact Runs.pure _ s
  rw [execWhole_vamo ht ha hb hc hd hop hf (.inl h) hl (l' := []) (Runs.pure _ s) rfl, h]

end

/-- An instruction is the `vamo` of an operation, `f` on the old word and the element's own. -/
def State.vamoIs (s : State) (o : VArgs) (i : Instr) (op : Nat) (host : Bool) (f : Nat → Nat → Nat) : Prop :=
  (s.brickElems o = [] → exec i s = .next (s.fell (vamoEnded o [] s.cycle))) ∧
  (s.atomicAligned o → ∀ l s1 l' s2 s3,
    Runs (offerAll (fun e => offerVamo (s.ctx s.cur) (o.ty.width / 8) (s.atomicAddr o e) e (performs true host)
      (s.vamoDo o op e)) (s.brickElems o)) s (l, none) s1 →
    Runs (performOrder l) s1 l' s2 → RunsAll (s.vamoStep o f) l' s2 s3 →
    exec i s = .next (s3.fell (vamoEnded o (s.brickElems o) s3.cycle)))

theorem State.vamoIs_of_op {i : Instr} {op : Nat} {host : Bool} {f : Nat → Nat → Nat} (ht : s.self.typed o.ty)
    (ha : s.full .scalar o.sa.reg) (hb : s.full .brick o.sb.reg) (hc : s.full .brick o.sc.reg) (hd : s.full .brick o.d)
    (hi : exec i s = execWhole (vamo op o) s) (hh : host = hostOperation op) (hop : op ≠ casOp)
    (hf : atomicOp op o.ty.width = f) : s.vamoIs o i op host f := by
  subst hh
  unfold State.vamoIs
  rw [hi]
  exact ⟨execWhole_vamo_none ht ha hb hc hd hop hf,
    fun hbase l s1 l' s2 s3 hl hp hr => execWhole_vamo ht ha hb hc hd hop hf hbase hl hp hr⟩

end

/-- Settles O34: the elements offered, ordered and performed one after another are the instruction. -/
theorem brickAtomicsUpdate : Obligations.BrickAtomicsUpdate := by
  intro o s ht ha hb hc hd
  let w := o.ty.width
  have is (i : Instr) (op : Nat) (host : Bool) (f : Nat → Nat → Nat) :=
    State.vamoIs_of_op (i := i) (op := op) (host := host) (f := f) ht ha hb hc hd
  exact ⟨is _ 0 true (fun x v => (x + v) % 2 ^ w) rfl rfl (by decide) rfl, is _ 1 false (fun x v => x &&& v) rfl rfl (by decide) rfl,
    is _ 2 false (fun x v => x ||| v) rfl rfl (by decide) rfl, is _ 3 false (fun x v => x ^^^ v) rfl rfl (by decide) rfl,
    is _ 4 false (fun x v => if sext w x ≤ sext w v then x else v) rfl rfl (by decide) rfl,
    is _ 5 false (fun x v => if sext w x ≤ sext w v then v else x) rfl rfl (by decide) rfl,
    is _ 6 false (fun x v => if x ≤ v then x else v) rfl rfl (by decide) rfl,
    is _ 7 false (fun x v => if x ≤ v then v else x) rfl rfl (by decide) rfl,
    is _ 8 true (fun _ v => v) rfl rfl (by decide) rfl,
    is _ 9 false (fun x v => (fpAdd .fp32 x v .rne).1) rfl rfl (by decide) rfl,
    is _ 10 false (fun x v => (fpAdd .bf16 x v .rne).1) rfl rfl (by decide) rfl⟩

end Sys2Proof.Machine
end

section
/-! PROOFS. `sacc` and the combining windows (O35). -/

namespace Sys2Proof.Machine

section
variable {s : State} {o : VArgs}

/-- What precedes an element's entry into the window of its home slice: its words come home, the host is snooped, links on its line are
broken, and the copies of its core dropped (R212, R215). -/
def State.combReady (s : State) (c : Ctx) (n : Nat) (x : Offered) : State :=
  if x.place.scratch.isSome then s
  else (breakLinks (x.place.loc / 128) (recallWords (wordsOf x.place.loc n)
    (snoopHost (x.place.loc / 128) (noteRequest c n s)))).droppedWords c.core x.place.loc n

/-- An element accepted by a window: merged into it, or a new entry of it. -/
def State.combTaken (s : State) (o : VArgs) (op : Nat) (x : Offered) (u : State) : State :=
  let r := u.combReady (s.ctx s.cur) (o.ty.width / 8) x
  acceptComb ⟨x.place.loc, op, o.ty.width, [s.atomicData o x.elem], x.place.mat, r.cycle⟩ x.place.scratch r

/-- The elements before one that still wait in windows. -/
def lowerWaiting (l : List Offered) (x : Offered) : List Offered := l.filter fun y => decide (y.elem < x.elem) && !y.place.ic

/-- An accepted element: performed at once on a device-class page (R104), else merged. -/
def State.saccStep (s : State) (o : VArgs) (op : Nat) (l : List Offered) (x : Offered) : M Unit := do
  if x.place.ic then
    modify (applyPending (o.ty.width / 8) (lowerWaiting l x))
    let _ ← performAtomic (s.ctx s.cur) x.place (o.ty.width / 8)
      (fun old => some (atomicOp op o.ty.width old (s.atomicData o x.elem))) kRmw x.va x.elem
  else modify (s.combTaken o op x)

/-- An element on no device-class page. -/
theorem runs_saccElem_comb {op : Nat} {lower : List Offered} {x : Offered} (hx : x.place.ic = false) (u : State) :
    Runs (saccElem (s.ctx s.cur) op o.ty.width lower x (s.atomicData o x.elem)) u () (s.combTaken o op x u) := by
  unfold saccElem State.combTaken State.combReady
  dsimp only
  refine Runs.ite_neg (Bool.eq_false_iff.1 hx) ?_
  cases x.place.scratch with
  | some k => exact Runs.ite_neg Bool.false_ne_true (Runs.modify _ u)
  | none =>
    refine Runs.ite_pos rfl ((Runs.modify _ u).bind ((Runs.modify _ _).bind ((Runs.modify _ _).bind ((Runs.modify _ _).bind ?_))))
    exact (runs_forEach_modify (dropUnreg (s.ctx s.cur).core) _ _).bind (Runs.modify _ _)

theorem runs_saccElem {op : Nat} {l : List Offered} {x : Offered} {u v : State} (h : Runs (s.saccStep o op l x) u () v) :
    Runs (saccElem (s.ctx s.cur) op o.ty.width (lowerWaiting l x) x (s.atomicData o x.elem)) u () v := by
  by_cases hx : x.place.ic = true
  · unfold State.saccStep at h
    unfold saccElem
    rw [if_pos hx] at h ⊢
    exact h
  · rw [State.saccStep, if_neg hx] at h
    cases h
    exact runs_saccElem_comb (Bool.eq_false_iff.2 hx) u

section
variable (ht : s.self.typed o.ty) (ha : s.full .scalar o.sa.reg) (hb : s.full .brick o.sb.reg) (hc : s.full .brick o.sc.reg)
include ht ha hb hc

theorem execWhole_sacc {op : Nat} {l : List Offered} {s1 s2 : State} (hbase : s.atomicAligned o)
    (hl : Runs (offerAll (fun e => offerAtomic (s.ctx s.cur) kRmw (o.ty.width / 8) (s.atomicAddr o e) e (performs true false))
      (s.brickElems o)) s (l, none) s1)
    (hr : RunsAll (s.saccStep o op l) l s1 s2) :
    execWhole (sacc op o) s = .next (s2.fell fun q => { q with estart := 0 }) :=
  execWhole_modMe <| (Runs.needType ht).bind <| (Runs.readS ha).bind <| (Runs.needBrick hb).bind <| (Runs.needBrick hc).bind <|
    (Runs.mySeq s).bind <| (Runs.checkBase hbase).bind <| (Runs.myCtx s).bind <| hl.bind <| (Runs.waitFirst_none s1).bind <|
    (Runs.forEach (hr.imp fun _ _ _ => runs_saccElem)).bind <| (Runs.stopElem_none s2).bind <| Runs.clearEstart s2

/-- With no element on a device-class page each is merged in turn. -/
theorem execWhole_sacc_comb {op : Nat} {l : List Offered} {s1 : State} (hbase : s.atomicAligned o)
    (hl : Runs (offerAll (fun e => offerAtomic (s.ctx s.cur) kRmw (o.ty.width / 8) (s.atomicAddr o e) e (performs true false))
      (s.brickElems o)) s (l, none) s1) (hic : ∀ x ∈ l, x.place.ic = false) :
    execWhole (sacc op o) s = .next ((l.foldl (fun u x => s.combTaken o op x u) s1).fell fun q => { q with estart := 0 }) := by
  refine execWhole_sacc ht ha hb hc hbase hl (RunsAll.of_runs (fun x hx u => ?_) s1)
  rw [State.saccStep, if_neg (Bool.eq_false_iff.1 (hic x hx))]
  exact Runs.modify _ u

end

/-- An instruction is the `sacc` of an operation. -/
def State.saccIs (s : State) (o : VArgs) (i : Instr) (op : Nat) : Prop :=
  s.atomicAligned o → ∀ l s1,
    Runs (offerAll (fun e => offerAtomic (s.ctx s.cur) kRmw (o.ty.width / 8) (s.atomicAddr o e) e (performs true false))
      (s.brickElems o)) s (l, none) s1 →
    ((∀ x ∈ l, x.place.ic = false) →
      exec i s = .next ((l.foldl (fun u x => s.combTaken o op x u) s1).fell fun q => { q with estart := 0 })) ∧
    (∀ s2, RunsAll (s.saccStep o op l) l s1 s2 → exec i s = .next (s2.fell fun q => { q with estart := 0 }))

theorem State.saccIs_of_exec {i : Instr} {op : Nat} (ht : s.self.typed o.ty) (ha : s.full .scalar o.sa.reg)
    (hb : s.full .brick o.sb.reg) (hc : s.full .brick o.sc.reg) (hi : exec i s = execWhole (sacc op o) s) : s.saccIs o i op := by
  unfold State.saccIs
  rw [hi]
  exact fun hbase l s1 hl => ⟨execWhole_sacc_comb ht ha hb hc hbase hl, fun s2 => execWhole_sacc ht ha hb hc hbase hl⟩

end

/-! A window takes an element (R215, log 60). -/

section
variable {l : List CombEntry} {e x : CombEntry}

/-- Two entries are of one word, operation, width and key. -/
def CombEntry.same (e x : CombEntry) : Bool := x.loc == e.loc && x.op == e.op && x.width == e.width && x.mat == e.mat

theorem CombEntry.same_iff : e.same x = true ↔ x.loc = e.loc ∧ x.op = e.op ∧ x.width = e.width ∧ x.mat = e.mat := by
  simp only [CombEntry.same, Bool.and_eq_true, beq_iff_eq, and_assoc]

/-- An entry of the same word covers bytes of it. -/
theorem CombEntry.covers_of_same (h : e.same x = true) (hn : 0 < e.bytes) : x.covers e.loc e.bytes = true := by
  obtain ⟨hl, _, hw, _⟩ := CombEntry.same_iff.1 h
  have hb : x.bytes = e.bytes := by rw [CombEntry.bytes, hw]; rfl
  simp only [CombEntry.covers, hl, hb, Bool.and_eq_true, decide_eq_true_eq]
  omega

/-- Where only entries of the same word cover its bytes, none leaves for them. -/
theorem mergeComb_eq (h : ∀ x ∈ l, x.covers e.loc e.bytes = true → e.same x = true) : mergeComb l e =
    if l.any e.same then (l.map (fun x => if e.same x then { x with values := x.values ++ e.values } else x), [])
    else if l.length < 64 then (l ++ [e], []) else (l.drop 1 ++ [e], l.take 1) := by
  have hout : l.filter (fun x => x.covers e.loc e.bytes && !e.same x) = [] :=
    List.filter_eq_nil_iff.2 fun x hx hc => by
      obtain ⟨hcov, hne⟩ := Bool.and_eq_true_iff.1 hc
      rw [h x hx hcov] at hne
      exact Bool.noConfusion hne
  have hkeep : l.filter (fun x => !(x.covers e.loc e.bytes) || e.same x) = l :=
    List.filter_eq_self.2 fun x hx => by
      cases hc : x.covers e.loc e.bytes with
      | false => rfl
      | true => rw [h x hx hc]; rfl
  show (let out := l.filter (fun x => x.covers e.loc e.bytes && !e.same x)
    let l := l.filter (fun x => !(x.covers e.loc e.bytes) || e.same x)
    if l.any e.same then (l.map (fun x => if e.same x then { x with values := x.values ++ e.values } else x), out)
    else if l.length < 64 then (l ++ [e], out) else (l.drop 1 ++ [e], out ++ l.take 1)) = _
  rw [hout, hkeep]
  rfl

theorem mergeComb_same (h : ∀ x ∈ l, x.covers e.loc e.bytes = true → e.same x = true) (hx : x ∈ l) (hs : e.same x = true) :
    { x with values := x.values ++ e.values } ∈ (mergeComb l e).1 ∧ (mergeComb l e).2 = [] ∧ (mergeComb l e).1.length = l.length := by
  rw [mergeComb_eq h, if_pos (List.any_eq_true.2 ⟨x, hx, hs⟩)]
  exact ⟨List.mem_map.2 ⟨x, hx, if_pos hs⟩, rfl, List.length_map _⟩

theorem mergeComb_new (h : ∀ x ∈ l, x.covers e.loc e.bytes = false) (hn : 0 < e.bytes) :
    mergeComb l e = if l.length < 64 then (l ++ [e], []) else (l.drop 1 ++ [e], l.take 1) := by
  have hnone : ¬l.any e.same = true := fun ha => by
    obtain ⟨x, hx, hs⟩ := List.any_eq_true.1 ha
    exact Bool.eq_false_iff.1 (h x hx) (CombEntry.covers_of_same hs hn)
  rw [mergeComb_eq fun x hx hc => absurd hc (Bool.eq_false_iff.1 (h x hx)), if_neg hnone]

end

/-- Settles O35: the elements enter their windows one after another, and a window finds the entry of its word or makes one. -/
theorem scatterAccumulates : Obligations.ScatterAccumulates := by
  refine ⟨fun o s ht ha hb hc => ?_, fun l e h => ⟨fun x hx hloc hop hw hm => ?_, fun hcov hn hlen => ?_, fun hcov hn hlen => ?_⟩⟩
  · have is (i : Instr) (op : Nat) := State.saccIs_of_exec (i := i) (op := op) ht ha hb hc
    exact ⟨is _ 0 rfl, is _ 1 rfl, is _ 2 rfl, is _ 3 rfl, is _ 4 rfl, is _ 5 rfl, is _ 6 rfl, is _ 7 rfl, is _ 9 rfl, is _ 10 rfl⟩
  · exact mergeComb_same (fun x hx hc => CombEntry.same_iff.2 (h x hx hc)) hx (CombEntry.same_iff.2 ⟨hloc, hop, hw, hm⟩)
  · rw [mergeComb_new hcov hn, if_pos hlen]
  · rw [mergeComb_new hcov hn, if_neg (by omega)]

end Sys2Proof.Machine
end

section
/-! PROOFS. `glink` and `scond` (O36). -/

namespace Sys2Proof.Machine

section
variable {s t : State} {o : VArgs}

/-! `glink` (R211). -/

/-- One element read at its home, and a link set on its line. -/
def State.glinkStep (s : State) (o : VArgs) (x : Offered) : M Unit := do
  gatherWords (s.ctx s.cur) x.place (o.ty.width / 8) kWatch x.va x.elem
  modify (recallLine (x.place.loc / 128))
  let v := (← get).valueUnder x.place.mat x.place.loc (o.ty.width / 8)
  forEach (wordsOf x.place.loc (o.ty.width / 8)) fun w => modify (dropUnreg (s.ctx s.cur).core w)
  modify fun u => u.modCore (s.ctx s.cur).core (·.addLink (x.place.loc / 128) (s.ctx s.cur).seq u.cycle)
  modMe (·.setElem o.d.toNat x.elem (BitVec.ofNat 64 v))

theorem exec_glink {l : List Offered} {s1 s2 : State} (ht : s.self.typed o.ty) (ha : s.full .scalar o.sa.reg)
    (hb : s.full .brick o.sb.reg) (hd : s.full .brick o.d) (hbase : s.atomicAligned o)
    (hl : Runs (offerAll (fun e => offerAtomic (s.ctx s.cur) kWatch (o.ty.width / 8) (s.atomicAddr o e) e (performs false false))
      (s.brickElems o)) s (l, none) s1)
    (hr : RunsAll (s.glinkStep o) l s1 s2) :
    exec (.glink o) s = .next (s2.fell fun q => { q.sentBrick o.d (s.brickElems o) s2.cycle with estart := 0 }) := by
  have hend : Runs (do
      Machine.brickPending o.d (s.brickElems o)
      Machine.clearEstart) s2 () ((s2.modSeq s2.cur (·.sentBrick o.d (s.brickElems o) s2.cycle)).modSeq s2.cur fun q =>
        { q with estart := 0 }) := (Runs.sentBrick o.d (s.brickElems o) s2).bind (Runs.clearEstart _)
  rw [show exec (.glink o) s = _ from execWhole_modMe (t := s2.modSeq s2.cur (·.sentBrick o.d (s.brickElems o) s2.cycle)) <|
    (Runs.needType ht).bind <| (Runs.readS ha).bind <|
    (Runs.needBrick hb).bind <| (Runs.needWritable hd).bind <| (Runs.mySeq s).bind <| (Runs.checkBase hbase).bind <|
    (Runs.myCtx s).bind <| hl.bind <| (Runs.waitFirst_none s1).bind <| (Runs.forEach hr).bind <|
    (Runs.stopElem_none s2).bind hend]
  rw [State.fell_modSeq]

/-! Links (R211). -/

theorem dropFirst_length {α : Type} {p : α → Bool} : ∀ {l : List α}, l.any p = true → (dropFirst p l).length + 1 = l.length
  | [], h => nomatch h
  | x :: l, h => by
    unfold dropFirst
    by_cases hx : p x = true
    · rw [if_pos hx]
      rfl
    · rw [if_neg hx, List.length_cons, dropFirst_length (by simpa [hx] using h), List.length_cons]

/-- A full table gives up a link for the new one. -/
theorem Core.addLink_links (c : Core) (line n born : Nat) : ∃ l, (c.addLink line n born).links = l ++ [⟨line, n, born⟩] ∧
    (c.links.length ≤ 64 → l.length < 64) := by
  refine ⟨_, rfl, fun h => ?_⟩
  have hf := List.length_filter_le (fun x : Link => !(x.line == line && x.seq == n)) c.links
  generalize c.links.filter (fun x => !(x.line == line && x.seq == n)) = l at hf ⊢
  split
  · assumption
  · next hfull =>
    split
    · next hany =>
      have := dropFirst_length hany
      omega
    · rw [List.length_drop]
      omega

theorem Core.mem_addLink (c : Core) (line n born : Nat) : (⟨line, n, born⟩ : Link) ∈ (c.addLink line n born).links := by
  obtain ⟨l, h, _⟩ := c.addLink_links line n born
  rw [h]
  exact List.mem_append_right l (List.mem_singleton.2 rfl)

theorem Core.addLink_length {c : Core} {line n born : Nat} (h : c.links.length ≤ 64) : (c.addLink line n born).links.length ≤ 64 := by
  obtain ⟨l, hl, hlen⟩ := c.addLink_links line n born
  have := hlen h
  rw [hl, List.length_append, List.length_singleton]
  omega

/-! The mask of `scond` (R213, R219). -/

theorem one_shiftLeft_eq (i : Nat) : (1 : BitVec 8192) <<< i = BitVec.twoPow 8192 i := (BitVec.twoPow_eq 8192 i).symm

theorem getLsbD_setBit {e : Nat} (he : e < 8192) (m : BitVec 8192) (i : Nat) (b : Bool) :
    (if b then m ||| ((1 : BitVec 8192) <<< i) else m &&& ~~~((1 : BitVec 8192) <<< i)).getLsbD e =
      if e = i then b else m.getLsbD e := by
  rw [one_shiftLeft_eq]
  by_cases h : e = i
  · subst h
    cases b <;> simp [he]
  · cases b <;> simp [BitVec.getElem_twoPow, he, h]

/-- Each bit named takes its value. -/
theorem getLsbD_setBits {e : Nat} (he : e < 8192) (f : Nat → Bool) (l : List Nat) : ∀ m : BitVec 8192,
    (setBits m (l.map fun i => (i, f i))).getLsbD e = if e ∈ l then f e else m.getLsbD e := by
  induction l with
  | nil => exact fun m => rfl
  | cons i l ih =>
    intro m
    refine (ih _).trans ?_
    rw [getLsbD_setBit he]
    by_cases hl : e ∈ l
    · simp [hl]
    · by_cases h : e = i <;> simp [hl, h]

theorem twoPow_sub_one {w : Nat} (hw : 0 < w) (n : Nat) : BitVec.twoPow w n - 1#w = BitVec.ofNat w (2 ^ n - 1) := by
  have h : BitVec.twoPow w n = BitVec.ofNat w (2 ^ n) := by
    apply BitVec.eq_of_toNat_eq
    rw [BitVec.toNat_twoPow, BitVec.toNat_ofNat]
  rw [h, BitVec.ofNat_sub_ofNat_of_le _ _ (Nat.one_lt_two_pow (Nat.ne_of_gt hw)) Nat.one_le_two_pow]

theorem getLsbD_keepLow {n e : Nat} (he : e < 8192) (m : BitVec 8192) :
    (keepLow n m).getLsbD e = (decide (e < n) && m.getLsbD e) := by
  have h : (1 : BitVec 8192) <<< n - 1 = BitVec.ofNat 8192 (2 ^ n - 1) := by
    rw [one_shiftLeft_eq]
    exact twoPow_sub_one (by decide) n
  rw [keepLow, h, BitVec.getLsbD_and, BitVec.getLsbD_ofNat, Nat.testBit_two_pow_sub_one, decide_eq_true he, Bool.true_and,
    Bool.and_comm]

/-! `scond` (R213, R219). -/

/-- The mask as `scond` leaves it where its elements below VL all end: each bit from ESTART its outcome, and none above VL. -/
def Seq.scondMask (q : Seq) (o : VArgs) (m : BitVec 8192) (won : Nat → Bool) : BitVec 8192 :=
  if q.vl ≤ q.estart.toNat || ({ q with estart := 0 }).activeFrom o.me o.msel == [] then 0
  else keepLow q.vl (setBits m ((upFrom q.estart.toNat (q.vl - q.estart.toNat)).map fun e => (e, won e)))

theorem mem_upFrom {a n e : Nat} : e ∈ upFrom a n ↔ a ≤ e ∧ e < a + n := by
  simp only [upFrom, List.mem_map, List.mem_range]
  exact ⟨fun ⟨i, hi, h⟩ => by omega, fun h => ⟨e - a, by omega, by omega⟩⟩

theorem Seq.activeFrom_zero (q : Seq) (me : Bool) (msel : BitVec 3) :
    ({ q with estart := 0 }).activeFrom me msel = q.activeAll me msel := by
  simp only [Seq.activeFrom, Seq.activeAll, upFrom, BitVec.ofNat_eq_ofNat, BitVec.toNat_zero, Nat.sub_zero, Nat.zero_add]
  rw [List.map_id']
  rfl

theorem Seq.getLsbD_scondMask {q : Seq} {o : VArgs} {m : BitVec 8192} {won : Nat → Bool} {e : Nat} (he : e < 8192) :
    (q.scondMask o m won).getLsbD e =
      (decide (q.estart.toNat < q.vl ∧ q.activeAll o.me o.msel ≠ [] ∧ e < q.vl) &&
        if q.estart.toNat ≤ e then won e else m.getLsbD e) := by
  unfold Seq.scondMask
  rw [Seq.activeFrom_zero]
  split
  · next h =>
    have hf : ¬(q.estart.toNat < q.vl ∧ q.activeAll o.me o.msel ≠ [] ∧ e < q.vl) := by
      simp only [Bool.or_eq_true, decide_eq_true_eq, beq_iff_eq] at h
      rintro ⟨h1, h2, _⟩
      exact h.elim (fun h => by omega) h2
    rw [decide_eq_false hf, Bool.false_and]
    exact BitVec.getLsbD_zero
  · next h =>
    simp only [Bool.or_eq_true, decide_eq_true_eq, beq_iff_eq, not_or, Nat.not_le] at h
    rw [getLsbD_keepLow he, getLsbD_setBits he]
    simp only [h.1, h.2, ne_eq, not_false_eq_true, true_and, mem_upFrom]
    by_cases hv : e < q.vl
    · have hlt : e < q.estart.toNat + (q.vl - q.estart.toNat) := by omega
      simp [hlt, hv]
    · simp [hv]

/-- The elements accepted, each with whether its store goes through: its link stands, and no lower element has its place (R213). -/
def State.scondTried (s : State) (n : Nat) (l : List Offered) : List (Offered × Bool) :=
  l.map fun x => (x, s.linked n (x.place.loc / 128) && !l.any fun y => decide (y.elem < x.elem) && y.place.loc == x.place.loc)

/-- Whether the store of element e went through. -/
def scondWon (tried : List (Offered × Bool)) (e : Nat) : Bool := tried.any fun x => x.1.elem == e && x.2

/-- The links of a sequencer on a line are gone. -/
def State.unlinked (s : State) (n line : Nat) : State :=
  s.modCore (coreOf n) fun k => { k with links := k.links.filter fun y => !(y.line == line && y.seq == n) }

/-- The store of one accepted element, and the links that it consumes. -/
def State.scondStep (s : State) (o : VArgs) : Offered × Bool → M Unit := fun (x, ok) => do
  if ok then
    let _ ← performAtomic (s.ctx s.cur) x.place (o.ty.width / 8) (fun _ => some (s.atomicData o x.elem)) kRmw x.va x.elem
  else modify (noteRequest (s.ctx s.cur) (o.ty.width / 8))
  modify (·.unlinked s.cur (x.place.loc / 128))

/-- What waits for the accepted elements' words comes to their homes (R215, R445). -/
def State.settled (s : State) (n : Nat) (l : List Offered) : State := l.foldl (fun u x => settle x.place.loc n u) s

theorem State.self_fell (s : State) (f : Seq → Seq) : (s.fell f).self = (f s.self).advance := State.seq_setSeq_self _ _ _

theorem State.masks_fell (s : State) (f : Seq → Seq) : (s.fell f).self.masks = (f s.self).masks := by
  rw [State.self_fell, Seq.advance_masks]

theorem State.mask_fell (s : State) (f : Seq → Seq) (i : Nat) : (s.fell f).self.mask i = (f s.self).mask i := by
  rw [Seq.mask, State.masks_fell]
  rfl

/-- Of two writes of one mask the later stands. -/
theorem Seq.setMask_setMask (q : Seq) (i : Nat) (v : BitVec 8192) (f : BitVec 8192 → BitVec 8192) :
    (q.setMask i v).setMask i (f ((q.setMask i v).mask i)) = q.setMask i (f v) := by
  by_cases h : i = 0
  · simp only [Seq.setMask, if_pos h]
  · rw [Seq.mask_setMask_self _ _ _ h]
    simp only [Seq.setMask, if_neg h, NMap.set_set]

theorem Seq.setMask_eq (q : Seq) (i : Nat) (v : BitVec 8192) : q.setMask i v = { q with masks := (q.setMask i v).masks } := by
  unfold Seq.setMask
  split <;> rfl

section
variable (ht : s.self.typed o.ty) (ha : s.full .scalar o.sa.reg) (hb : s.full .brick o.sb.reg) (hc : s.full .brick o.sc.reg)
include ht ha hb hc

theorem exec_scond {l : List Offered} {s1 s3 : State} (hbase : s.atomicAligned o)
    (hl : Runs (offerAll (fun e => offerAtomic (s.ctx s.cur) kRmw (o.ty.width / 8) (s.atomicAddr o e) e (performs false false))
      (s.brickElems o)) s (l, none) s1)
    (hr : RunsAll (s.scondStep o) ((s1.settled (o.ty.width / 8) l).scondTried s.cur l) (s1.settled (o.ty.width / 8) l) s3) :
    exec (.scond o) s = .next (s3.fell fun q => { q.setMask o.d.toNat (s.self.scondMask o (q.mask o.d.toNat)
      (scondWon ((s1.settled (o.ty.width / 8) l).scondTried s.cur l))) with estart := 0 }) := by
  have hsettle : Runs (forEach l fun x => modify (settle x.place.loc (o.ty.width / 8))) s1 () (s1.settled (o.ty.width / 8) l) :=
    runs_forEach_modify _ _ _
  rw [show exec (.scond o) s = _ from execWhole_modMe <| (Runs.needType ht).bind <| (Runs.readS ha).bind <|
    (Runs.needBrick hb).bind <| (Runs.needBrick hc).bind <| (Runs.mySeq s).bind <| (Runs.checkBase hbase).bind <|
    (Runs.myCtx s).bind <| hl.bind <| (Runs.waitFirst_none s1).bind <| hsettle.bind <| (Runs.get _).bind <|
    (Runs.forEach hr).bind <| (Runs.modMe _ s3).bind <| (Runs.stopElem_none _).bind <| (Runs.modMe _ _).bind <| Runs.clearEstart _]
  rw [State.fell_modSeq, State.fell_modSeq]
  refine congrArg (fun f => Host.Outcome.next (s3.fell f)) (funext fun q => ?_)
  exact congrArg (fun k : Seq => { k with estart := 0 }) (Seq.setMask_setMask q o.d.toNat _ fun m =>
    if s.self.vl ≤ s.self.estart.toNat || ({ s.self with estart := 0 }).activeFrom o.me o.msel == [] then 0 else keepLow s.self.vl m)

/-- What `scond` leaves: the elements' effects, and each bit of m[D]. -/
theorem scond_leaves {l : List Offered} {s1 s3 : State} (hbase : s.atomicAligned o)
    (hl : Runs (offerAll (fun e => offerAtomic (s.ctx s.cur) kRmw (o.ty.width / 8) (s.atomicAddr o e) e (performs false false))
      (s.brickElems o)) s (l, none) s1)
    (hr : RunsAll (s.scondStep o) ((s1.settled (o.ty.width / 8) l).scondTried s.cur l) (s1.settled (o.ty.width / 8) l) s3) :
    ∃ t, exec (.scond o) s = .next t ∧
      (∀ e < 8192, o.d ≠ 0 → (t.self.mask o.d.toNat).getLsbD e =
        (decide (s.self.estart.toNat < s.self.vl ∧ s.self.activeAll o.me o.msel ≠ [] ∧ e < s.self.vl) &&
          if s.self.estart.toNat ≤ e then scondWon ((s1.settled (o.ty.width / 8) l).scondTried s.cur l) e
          else (s3.self.mask o.d.toNat).getLsbD e)) ∧
      t = s3.fell fun q => { q with masks := t.self.masks, estart := 0 } := by
  refine ⟨_, exec_scond ht ha hb hc hbase hl hr, fun e he hd => ?_, State.fell_congr ?_⟩
  · have hd' : o.d.toNat ≠ 0 := fun h => hd (BitVec.eq_of_toNat_eq h)
    rw [State.mask_fell, ← Seq.getLsbD_scondMask he]
    exact congrArg (fun m : BitVec 8192 => m.getLsbD e) (Seq.mask_setMask_self _ _ _ hd')
  · rw [State.masks_fell]
    exact congrArg (fun k : Seq => { k with estart := 0 }) (Seq.setMask_eq _ _ _)

end

/-- With no active element no word is looked at. -/
theorem scond_none (ht : s.self.typed o.ty) (ha : s.full .scalar o.sa.reg) (hb : s.full .brick o.sb.reg) (hc : s.full .brick o.sc.reg)
    (h : s.brickElems o = []) : ∃ t, exec (.scond o) s = .next t ∧
      (∀ e < 8192, o.d ≠ 0 → (t.self.mask o.d.toNat).getLsbD e = (decide (e < s.self.estart.toNat ∧ s.self.estart.toNat < s.self.vl ∧
        s.self.activeAll o.me o.msel ≠ []) && (s.self.mask o.d.toNat).getLsbD e)) ∧
      t = s.fell fun q => { q with masks := t.self.masks, estart := 0 } := by
  have hl : Runs (offerAll (fun e => offerAtomic (s.ctx s.cur) kRmw (o.ty.width / 8) (s.atomicAddr o e) e (performs false false))
      (s.brickElems o)) s ([], none) s := by
    rw [h]
    exact Runs.pure _ s
  obtain ⟨t, he, hm, hf⟩ := scond_leaves ht ha hb hc (.inl h) hl rfl
  refine ⟨t, he, fun e he hd => (hm e he hd).trans ?_, hf⟩
  by_cases hlow : s.self.estart.toNat ≤ e
  · rw [if_pos hlow, decide_eq_false (p := e < _ ∧ _) fun h => by omega, Bool.false_and]
    exact Bool.and_false _
  · rw [if_neg hlow]
    congr 1
    rw [decide_eq_decide]
    exact ⟨fun ⟨h1, h2, _⟩ => ⟨by omega, h1, h2⟩, fun ⟨_, h1, h2⟩ => ⟨h1, h2, by omega⟩⟩

section
variable {e : Nat} {x : Offered} {s1 : State} (ht : s.self.typed o.ty) (ha : s.full .scalar o.sa.reg) (hb : s.full .brick o.sb.reg)
  (hc : s.full .brick o.sc.reg) (hact : s.brickElems o = [e]) (hbase : baseAligned (s.brickBase o) o.ty.width = true)
  (hl : Runs (offerAll (fun e => offerAtomic (s.ctx s.cur) kRmw (o.ty.width / 8) (s.atomicAddr o e) e (performs false false)) [e]) s
    ([x], none) s1) (hx : x.elem = e)
include hact

theorem State.lone_active : s.self.estart.toNat ≤ e ∧ e < s.self.vl ∧ s.self.activeAll o.me o.msel ≠ [] := by
  have hmem : e ∈ s.self.activeFrom o.me o.msel := by
    rw [show s.self.activeFrom o.me o.msel = [e] from hact]
    exact List.mem_singleton.2 rfl
  obtain ⟨hup, ha⟩ := List.mem_filter.1 hmem
  rw [mem_upFrom] at hup
  exact ⟨hup.1, by omega, List.ne_nil_of_mem (List.mem_filter.2 ⟨List.mem_range.2 (by omega), ha⟩)⟩

end

theorem State.scondTried_one (s : State) (n : Nat) (x : Offered) :
    s.scondTried n [x] = [(x, s.linked n (x.place.loc / 128))] := by
  simp [State.scondTried]

theorem scondWon_one (x : Offered) (ok : Bool) (e : Nat) : scondWon [(x, ok)] e = (x.elem == e && ok) := by
  simp [scondWon]

theorem State.unlinked_program (s : State) (n line : Nat) : (s.unlinked n line).program = s.program := State.modCore_program _ _ _

theorem Seq.nextPc_masks (q : Seq) (m : NMap (BitVec 8192)) (e : BitVec 40) :
    ({ q with masks := m, estart := e }).nextPc = q.nextPc := rfl

theorem State.fell_mem (s : State) (f : Seq → Seq) : (s.fell f).mem = s.mem := rfl

theorem State.fell_lines (s : State) (f : Seq → Seq) : (s.fell f).lines = s.lines := rfl

theorem State.unlinked_mem (s : State) (n line : Nat) : (s.unlinked n line).mem = s.mem := rfl

theorem State.unlinked_lines (s : State) (n line : Nat) : (s.unlinked n line).lines = s.lines := rfl

theorem offerAll_keepsProgram {offer : Nat → M Offered} (k : ∀ e, KeepsProgram (offer e)) (es : List Nat) :
    KeepsProgram (offerAll offer es) := by
  induction es with
  | nil => exact .pure _
  | cons e es ih =>
    refine .bind (.tryCatch (.bind (k e) fun _ => .pure _) fun _ => .pure _) fun r => ?_
    cases r with
    | error st => exact .pure _
    | ok x => exact .bind ih fun _ => .pure _

/-- What leaves memory and the records of homes. -/
theorem noteRequest_memory (c : Ctx) (n : Nat) (s : State) : (noteRequest c n s).mem = s.mem ∧ (noteRequest c n s).lines = s.lines := by
  unfold noteRequest notePort
  dsimp only
  split <;> split <;> exact ⟨rfl, rfl⟩

section
variable {e : Nat} {x : Offered} {s1 : State} (ht : s.self.typed o.ty) (ha : s.full .scalar o.sa.reg) (hb : s.full .brick o.sb.reg)
  (hc : s.full .brick o.sc.reg) (hact : s.brickElems o = [e]) (hbase : baseAligned (s.brickBase o) o.ty.width = true)
  (hl : Runs (offerAll (fun e => offerAtomic (s.ctx s.cur) kRmw (o.ty.width / 8) (s.atomicAddr o e) e (performs false false)) [e]) s
    ([x], none) s1) (hx : x.elem = e)
include ht ha hb hc hact hbase hl hx

/-- `scond` with one accepted element, whose link stands or not. -/
theorem scond_one {ok : Bool} {s3 : State} (hk : (settle x.place.loc (o.ty.width / 8) s1).linked s.cur (x.place.loc / 128) = ok)
    (hr : Runs (s.scondStep o (x, ok)) (settle x.place.loc (o.ty.width / 8) s1) () s3) : ∃ t, exec (.scond o) s = .next t ∧
      (∀ f < 8192, o.d ≠ 0 → (t.self.mask o.d.toNat).getLsbD f =
        (decide (f < s.self.vl) && if s.self.estart.toNat ≤ f then decide (f = e) && ok else (s3.self.mask o.d.toNat).getLsbD f)) ∧
      t = s3.fell fun q => { q with masks := t.self.masks, estart := 0 } := by
  obtain ⟨hlow, hvl, hall⟩ := State.lone_active hact
  have htried : (s1.settled (o.ty.width / 8) [x]).scondTried s.cur [x] = [(x, ok)] := by
    rw [State.scondTried_one]
    exact congrArg (fun b => [(x, b)]) hk
  rw [← hact] at hl
  obtain ⟨t, he, hm, hf⟩ := scond_leaves ht ha hb hc (.inr hbase) hl (s3 := s3) (by rw [htried]; exact ⟨s3, hr, rfl⟩)
  refine ⟨t, he, fun f hf hd => (hm f hf hd).trans ?_, hf⟩
  have hlt : s.self.estart.toNat < s.self.vl := Nat.lt_of_le_of_lt hlow hvl
  rw [htried, scondWon_one, hx]
  simp only [hlt, hall, ne_eq, not_false_eq_true, true_and]
  rw [BEq.comm]
  rfl

/-- No link: nothing is written. -/
theorem scond_notLinked (hk : (settle x.place.loc (o.ty.width / 8) s1).linked s.cur (x.place.loc / 128) = false) :
    ∃ t, exec (.scond o) s = .next t ∧ t.mem = (settle x.place.loc (o.ty.width / 8) s1).mem ∧
      t.lines = (settle x.place.loc (o.ty.width / 8) s1).lines ∧ (o.d ≠ 0 → e < 8192 → (t.self.mask o.d.toNat).getLsbD e = false) ∧
      t.self.estart = 0 ∧ t.self.pc = s1.self.nextPc := by
  generalize hs2 : settle x.place.loc (o.ty.width / 8) s1 = s2 at hk ⊢
  have hr : Runs (s.scondStep o (x, false)) s2 () ((noteRequest (s.ctx s.cur) (o.ty.width / 8) s2).unlinked s.cur (x.place.loc / 128)) :=
    (Runs.modify _ s2).bind (Runs.modify _ _)
  obtain ⟨hmem, hlines⟩ := noteRequest_memory (s.ctx s.cur) (o.ty.width / 8) s2
  have hprog : ((noteRequest (s.ctx s.cur) (o.ty.width / 8) s2).unlinked s.cur (x.place.loc / 128)).program = s1.program := by
    rw [← hs2]
    exact (State.unlinked_program _ _ _).trans ((noteRequest_program _ _ _).trans (settle_program _ _ s1))
  subst hs2
  obtain ⟨t, he, hm, hf⟩ := scond_one ht ha hb hc hact hbase hl hx hk hr
  refine ⟨t, he, ?_, ?_, fun hd hlt => ?_, ?_, ?_⟩
  · rw [hf, State.fell_mem, State.unlinked_mem, hmem]
  · rw [hf, State.fell_lines, State.unlinked_lines, hlines]
  · rw [hm e hlt hd, if_pos (State.lone_active hact).1, Bool.and_false, Bool.and_false]
  · rw [hf, State.self_fell, Seq.advance_estart]
  · rw [hf, State.self_fell, Seq.advance_pc, Seq.nextPc_masks, State.program_nextPc hprog]

/-- A link: the element's word is written at its home, and the links of the sequencer on its line are gone. -/
theorem scond_linked {s3 : State} (hk : (settle x.place.loc (o.ty.width / 8) s1).linked s.cur (x.place.loc / 128) = true)
    (hs : x.place.scratch = none)
    (hg : Runs (gatherWords (s.ctx s.cur) x.place (o.ty.width / 8) kRmw x.va e) (settle x.place.loc (o.ty.width / 8) s1) () s3) :
    ∃ t, exec (.scond o) s = .next t ∧
      (∀ f < 8192, o.d ≠ 0 → (t.self.mask o.d.toNat).getLsbD f =
        (decide (f = e) || (decide (f < s.self.estart.toNat) && (s.self.mask o.d.toNat).getLsbD f))) ∧
      t = (((homeWrite x.place.mat x.place.loc (o.ty.width / 8) (s.atomicData o e) s3).droppedWords (coreOf s.cur) x.place.loc
        (o.ty.width / 8)).unlinked s.cur (x.place.loc / 128)).fell fun q => { q with masks := t.self.masks, estart := 0 } := by
  subst hx
  have hr : Runs (s.scondStep o (x, true)) (settle x.place.loc (o.ty.width / 8) s1) () _ :=
    (Runs.performAtomic_home hs hg).bind (Runs.modify _ _)
  obtain ⟨t, he, hm, hf⟩ := scond_one ht ha hb hc hact hbase hl rfl hk hr
  refine ⟨t, he, fun f hlt hd => ?_, hf⟩
  obtain ⟨hlow, hvl, _⟩ := State.lone_active hact
  have hprog := (State.unlinked_program (s3.performedHome (s.ctx s.cur).core x.place (o.ty.width / 8)
    (some (s.atomicData o x.elem))) s.cur (x.place.loc / 128)).trans <| (State.performedHome_program _ _ _ _ _).trans <|
    ((gatherWords_keepsProgram _ _ _ _ _ _).of_runs hg).trans <| (settle_program _ _ s1).trans <|
    (offerAll_keepsProgram (fun _ => offerAtomic_keepsProgram _ _ _ _ _ _) _).of_runs hl
  rw [hm f hlt hd, State.program_mask hprog, Bool.and_true]
  by_cases hf : s.self.estart.toNat ≤ f
  · rw [if_pos hf, decide_eq_false (Nat.not_lt.2 hf), Bool.false_and, Bool.or_false, ← Bool.decide_and, decide_eq_decide]
    omega
  · have hne : f ≠ x.elem := by omega
    rw [if_neg hf, decide_eq_true (show f < s.self.vl by omega), decide_eq_false hne, decide_eq_true (Nat.lt_of_not_le hf),
      Bool.false_or]

end
end

/-- Settles O36: each element of `glink` is read and linked in turn; the one element of `scond` is stored or not as its link stands, and
the mask has its outcome. -/
theorem linksAndConditionalStores : Obligations.LinksAndConditionalStores := by
  refine ⟨fun o s ht ha hb hd hbase l s1 s2 hl hr => exec_glink ht ha hb hd hbase hl hr,
    fun c line n born => ⟨⟨_, c.mem_addLink line n born, rfl, rfl, rfl⟩, Core.addLink_length⟩,
    fun o s ht ha hb hc => ⟨fun h _ => scond_none ht ha hb hc h, fun e x s1 hact hbase hvl hl hx _ => ⟨fun hk => ?_,
      fun hk hs s3 hg => scond_linked ht ha hb hc hact hbase hl hx hk hs hg⟩⟩⟩
  have hlt : e < 8192 := Nat.lt_of_lt_of_le (State.lone_active hact).2.1 hvl
  obtain ⟨t, he, hmem, hlines, hbit, hend⟩ := scond_notLinked ht ha hb hc hact hbase hl hx hk
  exact ⟨t, he, hmem, hlines, fun hd => hbit hd hlt, hend⟩

end Sys2Proof.Machine
end

section
/-! PROOFS. `vwait` (O37). -/

namespace Sys2Proof.Machine

section
variable {s : State} {o : VArgs}

/-- A meaning that runs to its end arms what it arms. -/
theorem Runs.asArming {α : Type} {m : M α} {t : State} {a : α} (h : Runs m s a t) : Runs (asArming m) s a t := h.tryCatch

/-- What `vwait` leaves of its sequencer with k elements covered (R216, R219; log 111). -/
def vwaitEnded (k : DWord) (d : Reg) (cycle : Nat) (q : Seq) : Seq :=
  { q.sentLong d k cycle with slen := (if 2 ^ 63 ≤ k.toNat then 0 else k.toNat), estart := 0 }

/-- The state that a `vwait` ends in. -/
def State.vwaitOver (s : State) (k : DWord) (d : Reg) : State :=
  let u := (s.sent d k).modSeq (s.sent d k).cur fun q => { q with slen := if 2 ^ 63 ≤ k.toNat then 0 else k.toNat }
  u.modSeq u.cur fun q => { q with estart := 0 }

theorem State.fell_vwaitOver (s : State) (k : DWord) (d : Reg) : (s.vwaitOver k d).fell id = s.fell (vwaitEnded k d s.cycle) := by
  unfold State.vwaitOver
  dsimp only
  rw [State.fell_modSeq, State.fell_modSeq, State.fell_sent]
  rfl

/-- It ends, after an acquire at dev if it has watched. -/
theorem Runs.endVwait {k : DWord} {d : Reg} {watched : Bool} {t : State}
    (ha : Runs (if watched then Machine.acquire .dev else Pure.pure ()) s () t) (hd : t.full .scalar d) :
    Runs (Machine.endVwait k d watched) s () (t.vwaitOver k d) := by
  unfold Machine.endVwait
  exact Runs.whenThen ha ((Runs.writeLong hd).bind ((Runs.modMe _ _).bind (Runs.clearEstart _)))

/-- The entries of a sequencer that have fired are freed. -/
def State.reaped (s : State) (n : Nat) : State :=
  s.modCore (coreOf n) fun c => { c with waits := c.waits.filter fun x => !(x.2.seq == n && x.2.fired) }

/-- What `vwait` does by what its sequencer waits for. -/
def vwaitAfter (o : VArgs) (q : Seq) : M Unit := do
  match q.wait with
  | some (.vwait k d) => if ← reapWaits (← me) then endVwait k d true else stopWait (.vwait k d)
  | _ =>
    match ← asArming (allOrWait (armVwait o)) with
    | none => pure ()
    | some covered => if ← reapWaits (← me) then endVwait covered o.d true else stopWait (.vwait covered o.d)

theorem exec_vwait (o : VArgs) (s : State) : exec (.vwait o) s = execNext (do vwaitAfter o (← mySeq)) s := rfl

theorem runs_vwaitAfter_none {u : State} (hw : s.self.wait = none) (h : Runs (armVwait o) s none u) :
    Runs (vwaitAfter o s.self) s () u := by
  unfold vwaitAfter
  rw [hw]
  exact h.allOrWait.asArming.bind (Runs.pure _ u)

theorem runs_vwaitAfter_fired {k : DWord} {d : Reg} {t u : State} (hw : s.self.wait = some (.vwait k d))
    (hr : Runs (reapWaits s.cur) s true t) (h : Runs (endVwait k d true) t () u) : Runs (vwaitAfter o s.self) s () u := by
  unfold vwaitAfter
  rw [hw]
  exact (Runs.me s).bind (hr.bind (Runs.ite_pos rfl h))

/-! No element to watch (R219; log 54). -/

theorem exec_vwait_none (ht : s.self.typed o.ty) (ha : s.full .scalar o.sa.reg) (hb : s.full .brick o.sb.reg)
    (hc : s.full .brick o.sc.reg) (hd : s.full .scalar o.d) (hw : s.self.wait = none) (h : s.brickElems o = []) :
    exec (.vwait o) s = .next (s.fell (vwaitEnded (BitVec.ofNat 64 s.self.vl - BitVec.ofNat 64 s.self.estart.toNat) o.d s.cycle)) := by
  have hend : Runs (endVwait (BitVec.ofNat 64 s.self.vl - BitVec.ofNat 64 s.self.estart.toNat) o.d false) s () _ :=
    Runs.endVwait (Runs.pure _ s) hd
  have harm : Runs (armVwait o) s none _ := (Runs.needType ht).bind ((Runs.readS ha).bind ((Runs.needBrick hb).bind
    ((Runs.needBrick hc).bind ((Runs.needWritable hd).bind ((Runs.mySeq s).bind ((Runs.checkBase (.inl h)).bind
      (Runs.ite_pos h (hend.bind (Runs.pure _ _)))))))))
  rw [exec_vwait, execNext_fell ((Runs.mySeq s).bind (runs_vwaitAfter_none hw harm)), State.fell_vwaitOver]

/-! Every entry has fired (R216, R217). -/

theorem acquireL1_program (c : Nat) (sc : Scope) (s : State) : (acquireL1 c sc s).program = s.program :=
  ite_program (ite_program rfl (foldl_program (fun s k => State.modCore_program s k _) _ s))
    (ite_program rfl (State.modCore_program _ _ _))

theorem acquireL1_cycle (c : Nat) (sc : Scope) (s : State) : (acquireL1 c sc s).cycle = s.cycle := by
  have hfold (l : List Nat) : ∀ s : State, (l.foldl (fun s k => s.modCore k Core.skimAll) s).cycle = s.cycle := by
    induction l with
    | nil => exact fun _ => rfl
    | cons k l ih => exact fun s => ih _
  unfold acquireL1
  split
  · split
    · rfl
    · exact hfold _ s
  · split <;> rfl

theorem State.full_of_program {t : State} (h : t.program = s.program) {r : Reg} (hr : s.full .scalar r) : t.full .scalar r := by
  have he := congrArg (fun q : Seq => q.isEmpty .scalar r) (State.program_self h)
  exact Eq.trans he hr

theorem Runs.reapWaits {n : Nat} (h : (s.core (coreOf n)).waits.all (fun x => !(x.2.seq == n && !x.2.fired)) = true) :
    Runs (reapWaits n) s true (s.reaped n) := by
  have hnone : ((s.reaped n).core (coreOf n)).waitsOf n = [] := by
    unfold State.reaped State.modCore Core.waitsOf
    rw [State.core_setCore_self, List.filter_filter, List.filter_eq_nil_iff]
    intro x hx
    have hf := List.all_eq_true.1 h x hx
    intro hs
    simp only [Bool.and_eq_true, Bool.not_eq_true', Bool.and_eq_false_iff] at hs hf
    grind
  refine (Runs.modify _ s).bind ((Runs.get _).bind ?_)
  have hb : (((s.reaped n).core (coreOf n)).waitsOf n == []) = true := beq_iff_eq.2 hnone
  rw [← hb]
  exact Runs.pure _ _

theorem exec_vwait_fired {k : DWord} {d : Reg} (hw : s.self.wait = some (.vwait k d)) (hd : s.full .scalar d)
    (hall : (s.core (coreOf s.cur)).waits.all (fun x => !(x.2.seq == s.cur && !x.2.fired)) = true) :
    exec (.vwait o) s = .next ((acquireL1 (coreOf s.cur) .dev (s.reaped s.cur)).fell (vwaitEnded k d s.cycle)) := by
  have hend := Runs.endVwait (s := s.reaped s.cur) (k := k) (d := d) (watched := true) (Runs.acquire .dev _)
    (State.full_of_program ((acquireL1_program _ _ _).trans (State.modCore_program s _ _)) hd)
  rw [exec_vwait, execNext_fell ((Runs.mySeq s).bind (runs_vwaitAfter_fired hw (Runs.reapWaits hall) hend)),
    State.fell_vwaitOver, acquireL1_cycle]
  rfl

end

/-! Words watched (R217). -/

theorem WaitEntry.holds_eq (e : WaitEntry) (v : Nat) : e.holds v = (match e.cond with
    | 0 => decide (v = e.operand)
    | 1 => decide (v ≠ e.operand)
    | _ => if e.signed then decide (sext e.width e.operand ≤ sext e.width v) else decide (e.operand ≤ v)) := by
  unfold WaitEntry.holds
  rcases e.cond with _ | _ | c
  · rfl
  · exact decide_not.symm
  · rfl

theorem get?_mapVals {α : Type} (m : NMap α) (f : Nat → α → α) (i : Nat) :
    NMap.get? (NMap.mapVals m f) i = (NMap.get? m i).map (f i) := by
  induction m with
  | nil => rfl
  | cons x m ih =>
    obtain ⟨j, a⟩ := x
    show (if i = j then some (f j a) else NMap.get? (NMap.mapVals m f) i) = (if i = j then some a else NMap.get? m i).map (f i)
    split
    · next h => rw [h]; rfl
    · exact ih

/-- An entry that has fired stays so. -/
theorem Core.get?_fireWhere {c : Core} {p : WaitEntry → Bool} {i : Nat} {e : WaitEntry} (h : NMap.get? c.waits i = some e) :
    NMap.get? (c.fireWhere p).waits i = some { e with fired := e.fired || p e } := by
  rw [Core.fireWhere, get?_mapVals, h]
  rfl

/-- Settles O37: with nothing to watch or nothing left to wait for, a `vwait` ends; what fires an entry is its condition. -/
theorem vwaitWatchesWords : Obligations.VwaitWatchesWords :=
  ⟨fun _ _ ht ha hb hc hd hw h => exec_vwait_none ht ha hb hc hd hw h, fun _ _ _ _ hw hd hall => exec_vwait_fired hw hd hall,
    WaitEntry.holds_eq, fun _ _ _ _ h => Core.get?_fireWhere h⟩

end Sys2Proof.Machine
end

section
/-! PROOFS. Event queues: `evpop` and `evwait` (O22). -/

namespace Sys2Proof.Machine

section
variable {s t : State}

/-! The queue that an instruction names (R238, R243). -/

/-- The sequencer's own queue, or with `.sup` that of its die. -/
def State.queueOf (s : State) (sup : Bool) : EventQueue := if sup then (s.die (dieOf s.cur)).supq else s.self.evq

/-- The state with another queue in its place. -/
def State.withQueue (s : State) (sup : Bool) (e : EventQueue) : State :=
  if sup then s.modDie (dieOf s.cur) fun d => { d with supq := e } else s.modSeq s.cur fun q => { q with evq := e }

theorem Runs.eventQueue (sup : Bool) (s : State) : Runs (Machine.eventQueue sup) s (s.queueOf sup) s := rfl

theorem Runs.setEventQueue (sup : Bool) (e : EventQueue) (s : State) : Runs (Machine.setEventQueue sup e) s () (s.withQueue sup e) :=
  rfl

@[simp] theorem State.cur_withQueue (s : State) (sup : Bool) (e : EventQueue) : (s.withQueue sup e).cur = s.cur := by
  cases sup <;> rfl

@[simp] theorem State.mem_withQueue (s : State) (sup : Bool) (e : EventQueue) : (s.withQueue sup e).mem = s.mem := by
  cases sup <;> rfl

theorem State.self_withQueue (s : State) (sup : Bool) (e : EventQueue) :
    (s.withQueue sup e).self = { s.self with evq := if sup then s.self.evq else e } := by
  cases sup
  · exact State.seq_setSeq_self _ _ _
  · rfl

theorem State.queueOf_withQueue (s : State) (sup : Bool) (e : EventQueue) : (s.withQueue sup e).queueOf sup = e := by
  cases sup
  · exact congrArg Seq.evq (State.self_withQueue s false e)
  · exact congrArg Die.supq (State.die_setDie_self _ _ _)

theorem State.fell_cur (s : State) (f : Seq → Seq) : (s.fell f).cur = s.cur := rfl

/-- Falling through leaves the queues, where nothing else is done to the sequencer's own. -/
theorem State.queueOf_fell {f : Seq → Seq} (h : (f s.self).evq = s.self.evq) (sup : Bool) :
    (s.fell f).queueOf sup = s.queueOf sup := by
  cases sup
  · show (s.fell f).self.evq = s.self.evq
    rw [State.self_fell, Seq.advance_evq, h]
  · rfl

/-- The oldest record leaves, and with none dropped nothing takes the space (R240). -/
theorem EventQueue.pop_of_drops_zero {e : EventQueue} {r : BitVec 256} {rest : List (BitVec 256)} (he : e.recs = r :: rest)
    (h : e.drops = 0) : e.pop.recs = rest ∧ e.pop.drops = 0 := by
  simp only [EventQueue.pop, he, h, if_true, List.drop_succ_cons, List.drop_zero, and_self]

/-- The overflow record takes the space that appears (R240). -/
theorem EventQueue.pop_of_drops {e : EventQueue} {r : BitVec 256} {rest : List (BitVec 256)} (he : e.recs = r :: rest)
    (h : e.drops ≠ 0) : e.pop.recs = rest ++ [Record.bits { kind := 0x0F, count := e.drops }] ∧ e.pop.drops = 0 := by
  simp only [EventQueue.pop, he, h, if_false, List.drop_succ_cons, List.drop_zero, and_self]

/-! What an instruction leaves of its sequencer. -/

theorem Seq.nextPc_congr {q r : Seq} (hp : q.pc = r.pc) (hl : q.line = r.line) : q.nextPc = r.nextPc := by
  rw [Seq.nextPc, Seq.nextPc, hp, hl]

/-- A predicate but p0 reads what was written to it (R31). -/
theorem Seq.pred_setPred_self (q : Seq) {i : Nat} (v : Bool) (h0 : i ≠ 0) (hi : i < 16) : (q.setPred i v).pred i = v := by
  have hbit : ((1 : BitVec 16) <<< i).getLsbD i = true := by
    rw [BitVec.getLsbD_shiftLeft, decide_eq_true hi, decide_eq_false (Nat.lt_irrefl i), Nat.sub_self]
    rfl
  rw [Seq.pred, Seq.setPred, if_neg h0, beq_false_of_ne h0, Bool.false_or, BitVec.getLsbD_or, BitVec.getLsbD_and,
    BitVec.getLsbD_not, hbit, Bool.not_true, Bool.and_false, Bool.and_false, Bool.false_or]
  cases v
  · exact BitVec.getLsbD_zero
  · exact hbit

theorem State.fell_pc (s : State) (f : Seq → Seq) : (s.fell f).self.pc = (f s.self).nextPc := by
  rw [State.self_fell, Seq.advance_pc]

theorem State.fell_scalar (s : State) (f : Seq → Seq) (r : Reg) : (s.fell f).self.scalar r = (f s.self).scalar r := by
  rw [State.self_fell, Seq.scalar, Seq.scalar, Seq.advance_s]

theorem State.fell_pred (s : State) (f : Seq → Seq) (i : Nat) : (s.fell f).self.pred i = (f s.self).pred i := by
  rw [State.self_fell, Seq.pred, Seq.pred, Seq.advance_p]

/-- A long-latency result stands in its register (R34). -/
theorem Seq.scalar_sentLong_self (q : Seq) {r : Reg} (v : DWord) (t : Nat) (h : r ≠ 0) : (q.sentLong r v t).scalar r = v := by
  rw [Seq.sentLong, if_neg h]
  exact Seq.scalar_setScalar_self q r v h

theorem Seq.nextPc_sentLong (q : Seq) (r : Reg) (v : DWord) (t : Nat) : (q.sentLong r v t).nextPc = q.nextPc := by
  unfold Seq.sentLong
  split
  · rfl
  · exact Seq.nextPc_congr (Seq.setScalar_pc q r v) (Seq.setScalar_line q r v)

/-! Several scalars written. -/

/-- The values of g in the scalars that f names, one after another. -/
def Seq.setScalars (f : Nat → Reg) (g : Nat → DWord) (l : List Nat) (q : Seq) : Seq :=
  l.foldl (fun q i => q.setScalar (f i) (g i)) q

section
variable {f : Nat → Reg} {g : Nat → DWord} {l : List Nat}

theorem Seq.setScalar_with_s (q : Seq) (r : Reg) (v : DWord) (m : NMap DWord) :
    { q.setScalar r v with s := m } = { q with s := m } := by
  unfold Seq.setScalar
  split <;> rfl

theorem Seq.setScalars_eq (l : List Nat) : ∀ q : Seq, q.setScalars f g l = { q with s := (q.setScalars f g l).s } := by
  induction l with
  | nil => exact fun _ => rfl
  | cons i l ih => exact fun q => (ih _).trans (Seq.setScalar_with_s q _ _ _)

theorem Seq.scalar_setScalars_of_ne {k : Reg} (h : ∀ i ∈ l, k ≠ f i) : ∀ q : Seq, (q.setScalars f g l).scalar k = q.scalar k := by
  induction l with
  | nil => exact fun _ => rfl
  | cons i l ih =>
    intro q
    exact (ih (fun j hj => h j (List.mem_cons_of_mem i hj)) _).trans (Seq.scalar_setScalar_of_ne q _ (h i List.mem_cons_self))

/-- A scalar named once holds its value. -/
theorem Seq.scalar_setScalars_of_mem {i : Nat} (hi : i ∈ l) (h0 : f i ≠ 0) (hf : ∀ j ∈ l, f j = f i → j = i) :
    ∀ q : Seq, (q.setScalars f g l).scalar (f i) = g i := by
  induction l with
  | nil => exact absurd hi List.not_mem_nil
  | cons j l ih =>
    intro q
    by_cases hl : i ∈ l
    · exact ih hl (fun k hk => hf k (List.mem_cons_of_mem j hk)) _
    · obtain rfl : i = j := (List.mem_cons.1 hi).resolve_right hl
      have hne : ∀ k ∈ l, f i ≠ f k := fun k hk e => hl (hf k (List.mem_cons_of_mem i hk) e.symm ▸ hk)
      exact (Seq.scalar_setScalars_of_ne hne _).trans (Seq.scalar_setScalar_self q (f i) (g i) h0)

end

theorem State.modSeq_modSeq (s : State) (n : Nat) (f g : Seq → Seq) : (s.modSeq n g).modSeq n f = s.modSeq n fun q => f (g q) := by
  rw [State.modSeq, State.modSeq, State.seq_setSeq_self, State.setSeq, State.setSeq_seqs, NMap.set_set]
  rfl

theorem State.full_setScalar {k : Reg} (r : Reg) (v : DWord) (h : s.full .scalar k) :
    (s.modSeq s.cur (·.setScalar r v)).full .scalar k := by
  show ((s.modSeq s.cur (·.setScalar r v)).seq s.cur).isEmpty .scalar k = false
  rw [State.modSeq, State.seq_setSeq_self, Seq.isEmpty, Seq.setScalar_sEmpty]
  exact h

/-- Full scalars written one after another change the sequencer once. -/
theorem Runs.writeScalars {f : Nat → Reg} {g : Nat → DWord} (l : List Nat) : ∀ {s : State} (i : Nat),
    (∀ j ∈ i :: l, s.full .scalar (f j)) →
      Runs (Machine.forEach (i :: l) fun j => Machine.writeS (f j) (g j)) s () (s.modSeq s.cur (·.setScalars f g (i :: l))) := by
  induction l with
  | nil => exact fun i h => Runs.forEach ⟨_, Runs.writeS (h i List.mem_cons_self), rfl⟩
  | cons j l ih =>
    intro s i h
    have hrest := ih (s := s.modSeq s.cur (·.setScalar (f i) (g i))) j
      fun k hk => State.full_setScalar _ _ (h k (List.mem_cons_of_mem i hk))
    rw [show (s.modSeq s.cur (·.setScalar (f i) (g i))).cur = s.cur from rfl, State.modSeq_modSeq] at hrest
    rw [Machine.forEach, List.foldlM_cons]
    exact (Runs.writeS (h i List.mem_cons_self)).bind hrest

/-- Checks that pass leave the state as it is. -/
theorem Runs.forEach_checks {α : Type} {f : α → M Unit} (l : List α) (h : ∀ a ∈ l, Runs (f a) s () s) :
    Runs (Machine.forEach l f) s () s := by
  induction l with
  | nil => exact Runs.pure _ s
  | cons a l ih =>
    rw [Machine.forEach, List.foldlM_cons]
    exact (h a List.mem_cons_self).bind (ih fun b hb => h b (List.mem_cons_of_mem a hb))

section
variable {α : Type} {sup : Bool} {k : Unit → M α} (hp : sup = true → s.self.priv = true)
include hp

/-- A supervisor, or a user with its own queue, passes the check of `.sup` (R238, R243). -/
theorem run_queuePrivilege :
    (if sup = true then do let r ← needSupervisor; k r else k ()).run.run s = (k ()).run.run s := by
  split
  · next hs =>
    have hn : needSupervisor.run.run s = (.ok (), s) := Runs.needSupervisor (hp hs)
    rw [run_bind, hn]
  · rfl

theorem Runs.queuePrivilege {a : α} (h : Runs (k ()) s a t) :
    Runs (if sup = true then do let r ← Machine.needSupervisor; k r else k ()) s a t := (run_queuePrivilege hp).trans h

theorem StopsWith.queuePrivilege {st : Stop} (h : StopsWith (k ()) s st t) :
    StopsWith (if sup = true then do let r ← Machine.needSupervisor; k r else k ()) s st t := (run_queuePrivilege hp).trans h

end

/-! `evpop` (R243). -/

section
variable {o : RArgs} (hp : o.mod.getLsbD 4 = true → s.self.priv = true)
  (hd : ∀ i < 4, s.full .scalar (o.d + BitVec.ofNat 6 i))

/-- The scalar that takes dword i of a record. -/
def recordReg (o : RArgs) (i : Nat) : Reg := o.d + BitVec.ofNat 6 i

/-- The state with a record in its four scalars, and gone from its queue. -/
def State.popped (s : State) (o : RArgs) (r : BitVec 256) : State :=
  (s.modSeq s.cur (·.setScalars (recordReg o) (recordDword r) (List.range 4))).withQueue (o.mod.getLsbD 4)
    (s.queueOf (o.mod.getLsbD 4)).pop

include hp hd

theorem exec_evpop_empty (he : (s.queueOf (o.mod.getLsbD 4)).recs = []) :
    exec (.evpop o) s = .next (s.fell (·.setPred (o.mod.toNat % 16) false)) := by
  show execEvpop o s = _
  refine execNext_modMe (Runs.queuePrivilege hp ?_)
  refine (Runs.forEach_checks _ fun i hi => Runs.needWritable (hd i (List.mem_range.1 hi))).bind ((Runs.eventQueue _ s).bind ?_)
  dsimp only
  rw [he]
  exact Runs.modMe _ s

theorem exec_evpop_record {r : BitVec 256} {rest : List (BitVec 256)} (he : (s.queueOf (o.mod.getLsbD 4)).recs = r :: rest) :
    exec (.evpop o) s = .next ((s.popped o r).fell (·.setPred (o.mod.toNat % 16) true)) := by
  show execEvpop o s = _
  refine execNext_modMe_last (Runs.queuePrivilege hp ?_)
  refine (Runs.forEach_checks _ fun i hi => Runs.needWritable (hd i (List.mem_range.1 hi))).bind ((Runs.eventQueue _ s).bind ?_)
  dsimp only
  rw [he]
  exact (Runs.writeScalars [1, 2, 3] 0 fun i hi => hd i (by simpa using List.mem_range.1 hi)).bind
    ((Runs.setEventQueue _ _ _).bind (Runs.modMe _ _))

end

section
variable (s : State) (o : RArgs) (r : BitVec 256)

theorem State.self_popped : (s.popped o r).self = { s.self with
    s := (s.self.setScalars (recordReg o) (recordDword r) (List.range 4)).s
    evq := if o.mod.getLsbD 4 then s.self.evq else (s.queueOf (o.mod.getLsbD 4)).pop } := by
  have hs : (s.modSeq s.cur (·.setScalars (recordReg o) (recordDword r) (List.range 4))).self =
      s.self.setScalars (recordReg o) (recordDword r) (List.range 4) := State.seq_setSeq_self _ _ _
  rw [State.popped, State.self_withQueue, hs, Seq.setScalars_eq]

theorem State.cur_popped : (s.popped o r).cur = s.cur := State.cur_withQueue _ _ _

theorem State.queueOf_popped : (s.popped o r).queueOf (o.mod.getLsbD 4) = (s.queueOf (o.mod.getLsbD 4)).pop :=
  State.queueOf_withQueue _ _ _

theorem State.scalar_popped (k : Reg) :
    (s.popped o r).self.scalar k = (s.self.setScalars (recordReg o) (recordDword r) (List.range 4)).scalar k := by
  rw [State.self_popped]
  rfl

/-- The four scalars of a record are distinct (R243). -/
theorem recordReg_inj {i j : Nat} (hi : i < 4) (hj : j < 4) (h : recordReg o j = recordReg o i) : j = i := by
  have h' : BitVec.ofNat 6 j = BitVec.ofNat 6 i := (BitVec.add_right_inj o.d).1 h
  have ht := congrArg BitVec.toNat h'
  simp only [BitVec.toNat_ofNat] at ht
  omega

end

/-! `evwait` (R238). -/

theorem execNext_wait {m : M Unit} {w : Wait} (h : StopsWith m s (.wait w) t) : execNext m s = .next (t.setWait t.cur w).tick :=
  execNext_stop h

theorem Runs.evwaitDone (sup : Bool) (n : Nat) (deadline : Option Nat) (s : State) : Runs (Machine.evwaitDone sup n deadline) s
    (decide (n ≤ (s.queueOf sup).recs.length) || deadline.any fun t => decide (t ≤ s.cycle)) s := rfl

section
variable {o : MArgs} (hp : o.mod.getLsbD 0 = true → s.self.priv = true) (ha : s.full .scalar o.sa.reg) (hd : s.full .scalar o.d)
include hp ha hd

/-- With the records held, nothing else ends the wait (R238). -/
theorem exec_evwait_held (h : o.imm.toNat % 32 ≤ (s.queueOf (o.mod.getLsbD 0)).recs.length) : exec (.evwait o) s =
    .next (s.fell (·.sentLong o.d (BitVec.ofNat 64 (s.queueOf (o.mod.getLsbD 0)).recs.length) s.cycle)) := by
  show execEvwait o s = _
  refine execNext_sentLong (Runs.queuePrivilege hp ?_)
  refine (Runs.readS ha).bind ((Runs.needWritable hd).bind ((Runs.mySeq s).bind ((Runs.evwaitDone _ _ _ s).bind
    (Runs.ite_pos ?_ ((Runs.eventQueue _ s).bind (Runs.writeLong hd))))))
  rw [decide_eq_true h, Bool.true_or]

theorem exec_evwait_waits (h : (s.queueOf (o.mod.getLsbD 0)).recs.length < o.imm.toNat % 32) (h0 : s.self.scalar o.sa.reg = 0)
    (hw : s.self.wait = none) : exec (.evwait o) s =
    .next (s.setWait s.cur (.evwait (o.mod.getLsbD 0) (o.imm.toNat % 32) none o.d)).tick := by
  show execEvwait o s = _
  refine execNext_wait (StopsWith.queuePrivilege hp ?_)
  refine (Runs.readS ha).bindStop ((Runs.needWritable hd).bindStop ((Runs.mySeq s).bindStop ?_))
  dsimp only
  rw [hw, h0]
  refine (Runs.evwaitDone _ _ _ s).bindStop (.ite_neg ?_ (.stopWait _ s))
  rw [decide_eq_false (Nat.not_le.2 h)]
  exact Bool.false_ne_true

end

end

/-- Settles O22: `evpop` writes the oldest record's dwords to four distinct scalars and removes it; `evwait` looks at the number of
records held. -/
theorem eventQueueInstructions : Obligations.EventQueueInstructions := by
  intro s sup hp
  refine ⟨?_, ?_⟩
  · rintro o rfl hd
    refine ⟨exec_evpop_empty hp hd, fun r rest he _ => ⟨_, exec_evpop_record hp hd he, ?_, ?_, ?_, ?_, ?_, ?_⟩⟩
    · intro i hi h0
      rw [State.fell_scalar, Seq.scalar, Seq.setPred_s, ← Seq.scalar, State.scalar_popped]
      exact Seq.scalar_setScalars_of_mem (List.mem_range.2 hi) h0 (fun j hj => recordReg_inj o hi (List.mem_range.1 hj)) _
    · intro k hk
      rw [State.fell_scalar, Seq.scalar, Seq.setPred_s, ← Seq.scalar, State.scalar_popped]
      exact Seq.scalar_setScalars_of_ne (fun i hi => hk i (List.mem_range.1 hi)) _
    · have hq := State.queueOf_fell (s := s.popped o r) (f := (·.setPred (o.mod.toNat % 16) true)) (Seq.setPred_evq _ _ _)
        (o.mod.getLsbD 4)
      rw [State.queueOf_popped, State.queueOf, State.fell_cur, State.cur_popped] at hq
      intro e'
      have he' : e' = (s.queueOf (o.mod.getLsbD 4)).pop := hq
      rw [he']
      exact ⟨EventQueue.pop_of_drops_zero he, EventQueue.pop_of_drops he⟩
    · intro h0
      rw [State.fell_pred, Seq.pred_setPred_self _ _ h0 (Nat.mod_lt _ (by decide))]
    · rw [State.fell_pc, Seq.nextPc_congr (Seq.setPred_pc _ _ _) (Seq.setPred_line _ _ _), State.self_popped]
      rfl
    · rw [State.fell_mem, State.popped, State.mem_withQueue]
      rfl
  · rintro o rfl ha hd
    refine ⟨fun h => ⟨_, exec_evwait_held hp ha hd h, fun h0 => ?_, ?_, State.fell_mem _ _⟩, exec_evwait_waits hp ha hd⟩
    · rw [State.fell_scalar, Seq.scalar_sentLong_self _ _ _ h0]
      rfl
    · rw [State.fell_pc, Seq.nextPc_sentLong]

end Sys2Proof.Machine
end

section
/-! PROOFS. Engine commands: `twk`, `twkm`, `copy`, `rcopy` and `grant` (O43). -/

namespace Sys2Proof.Machine

section
variable {s t u : State} {c : EngCmd}

/-- An instruction that falls through leaves what its meaning leaves, and the PC advanced. -/
theorem execWhole_fell {m : M Unit} (h : Runs m s () t) : execWhole m s = .next (t.fell id) := execWhole_ok h

/-- One of two meanings by a condition, with what follows either. -/
theorem Runs.iteThen {α β : Type} {p : Prop} [Decidable p] {m m' : M β} {k : β → M α} {a : α} {b : β}
    (h : Runs (if p then m else m') s b t) (hk : Runs (k b) t a u) : Runs (if p then m >>= k else m' >>= k) s a u := by
  split at h
  · next hp => exact Runs.ite_pos hp (h.bind hk)
  · next hp => exact Runs.ite_neg hp (h.bind hk)

/-- As `Runs.whenThen`, where what follows stops. -/
theorem StopsWith.whenThen {α : Type} {p : Prop} [Decidable p] {m : M Unit} {k : Unit → M α} {st : Stop}
    (h : Runs (if p then m else Pure.pure ()) s () t) (hk : StopsWith (k ()) t st u) :
    StopsWith (if p then do let r ← m; k r else k ()) s st u := by
  split at h
  · next hp => rw [if_pos hp]; exact h.bindStop hk
  · next hp =>
    cases h
    exact .ite_neg hp hk

/-! Issue (R228, R229). -/

/-- A command that its engine does not take: it stops with 0xF0 and goes nowhere (R226, R233). -/
def EngCmd.refuse (c : EngCmd) : EngCmd := { c with stop := some 0xF0, branches := [] }

theorem Runs.enqueueEngine (c : EngCmd) (s : State) : Runs (Machine.enqueueEngine c) s () (s.entered c) := by
  refine (Runs.get s).bind ((Runs.modify _ s).bind ?_)
  unfold State.entered
  by_cases h0 : c.d = 0
  · rw [if_pos h0]
    exact Runs.ite_neg (not_not_intro h0) (Runs.pure _ _)
  · rw [if_neg h0]
    exact Runs.ite_pos h0 (Runs.modMe _ _)

/-- Where the command is a walk, its Trowel has room (R224). -/
def State.roomFor (s : State) (c : EngCmd) : Prop := c.isWalk = true → (s.walksOf (trowelOf c.ctx.core)).length < 16

theorem State.roomFor.not_full (h : s.roomFor c) :
    ¬(c.isWalk && decide (16 ≤ (s.walksOf (trowelOf c.ctx.core)).length)) = true := by
  rw [Bool.and_eq_true, decide_eq_true_eq]
  exact fun ⟨hw, hl⟩ => Nat.not_lt.2 hl (h hw)

theorem State.roomFor_of_trowelRoom (h : s.trowelRoom) (hc : c.ctx = s.ctx s.cur) : s.roomFor c := by
  intro _
  rw [hc]
  exact h

theorem State.roomFor_of_not_walk (h : c.isWalk = false) : s.roomFor c := fun hw => absurd hw (Bool.eq_false_iff.1 h)

theorem Runs.issueEngine_refused (hroom : s.roomFor c) : Runs (issueEngine c true) s () (s.entered c.refuse) :=
  (Runs.get s).bind (Runs.ite_neg hroom.not_full (Runs.ite_pos rfl (Runs.enqueueEngine _ s)))

theorem Runs.issueEngine_accepted (hroom : s.roomFor c) (h : s.accepts c u) : Runs (issueEngine c false) s () u := by
  obtain ⟨hacked, src, s1, hsrc, hdest⟩ := h
  refine (Runs.get s).bind (Runs.ite_neg hroom.not_full (Runs.ite_neg Bool.false_ne_true
    ((Runs.storesAcked hacked).bind (hsrc.bind ?_))))
  rcases hdest with ⟨hm, rfl⟩ | ⟨hm, l, s2, c1, s3, src1, s4, c2, s5, s6, hl, hplace, hagain, hcheck, hregister, rfl⟩
  · exact Runs.ite_neg (Bool.eq_false_iff.1 hm) (Runs.enqueueEngine _ s1)
  · exact Runs.ite_pos hm (hl.bind ((Runs.get s2).bind (hplace.bind (hagain.bind (hcheck.bind
      (hregister.bind (Runs.enqueueEngine _ s6)))))))

/-- The receiving scratchpads belong to the tenant (R221, R239). -/
theorem Runs.checkBranches (h : s.ownsBranches c) (hc : c.ctx = s.ctx s.cur) : Runs (Machine.checkBranches c) s () s := by
  refine (Runs.get s).bind (Runs.forEach_checks _ fun b hb => Runs.forEach_checks _ fun k hk => Runs.ite_neg ?_ (Runs.pure _ s))
  rw [bne_iff_ne, hc]
  exact not_not_intro (h b hb k hk)

/-! What the commands read (R225, R226, R234). -/

section
variable {o : MArgs}

/-- Every command waits for its status register, and releases where its order says so (R234). -/
theorem Runs.engineOrder (hd : s.full .scalar o.d)
    (h : Runs (if o.ord == .rel then Machine.release o.scope else Pure.pure ()) s () t) :
    Runs (Machine.engineOrder o) s () t := (Runs.needWritable hd).bind h

theorem Runs.readDescriptor {a v : Nat} (ha : a % 64 = 0) (h : s.loads a 64 v t) : Runs (Machine.readDescriptor a) s v t := by
  obtain ⟨l, p, s1, hplace, hload⟩ := h
  exact Runs.ite_neg (not_not_intro ha) ((Runs.myCtx s).bind (hplace.bind hload))

/-- What every command says of its issuer and its completion (R229, R234). -/
def State.command (s : State) (o : MArgs) (kind : EngKind) : EngCmd :=
  { kind := kind, ctx := s.ctx s.cur, d := o.d, ev := o.mod.getLsbD 4, utag := o.imm.toNat }

/-- A walk from its descriptor v, not yet started, with its Trowel and its permit tag (R224, R225, R227). -/
def State.walkCommand (s : State) (o : MArgs) (kind : EngKind) (v : Nat) : EngCmd :=
  walkOf v { s.command o kind with src := trowelOf (s.ctx s.cur).core, ptag := o.mod.toNat % 16, started := false }

/-- A command for the place that its destination names: a scratchpad of its window, nothing where the window has none there, or memory
(R221). `credit`: it takes no permit (R236). -/
def EngCmd.aimed (c : EngCmd) (credit : Bool) : EngCmd :=
  match inWindow c.dva, windowTarget c.ctx.core c.dva with
  | true, some (k, off) => { c with branches := [{ core := k, base := off, credit := credit }] }
  | true, none => c
  | false, _ => { c with memDst := true }

theorem EngCmd.aimed_eq {credit : Bool} (hm : c.memDst = false) (hb : c.branches = []) : c.aimed credit = { c with
    memDst := !inWindow c.dva
    branches := if inWindow c.dva then
      (windowTarget c.ctx.core c.dva).toList.map fun x => { core := x.1, base := x.2, credit := credit } else [] } := by
  unfold EngCmd.aimed
  cases inWindow c.dva with
  | false => simp only [hb, Bool.not_false, Bool.false_eq_true, if_false]
  | true =>
    cases windowTarget c.ctx.core c.dva with
    | none => simp only [← hm, ← hb, Bool.not_true, if_true, Option.toList_none, List.map_nil]
    | some x => simp only [← hm, Bool.not_true, if_true, Option.toList_some, List.map_cons, List.map_nil]

/-- A command whose receiving scratchpads are checked before it issues. -/
theorem Runs.checkedIssue (hc : c.ctx = s.ctx s.cur) (howns : s.ownsBranches c) (hroom : s.roomFor c) (h : s.accepts c u) :
    Runs (do Machine.checkBranches c; issueEngine c false) s () u :=
  (Runs.checkBranches howns hc).bind (Runs.issueEngine_accepted hroom h)

/-! `twk` (R226). -/

/-- The refusals of `twk`. -/
def twkRefuses (core v : Nat) (c : EngCmd) : Bool :=
  badWalk v c || !(inScratch core c.sva || inScratch core c.dva) || 4096 < c.memoryPages || !c.sourceFits || !c.branchesFit

theorem twkRefuses_iff {core v : Nat} : twkRefuses core v c = true ↔ badWalk v c = true ∨
    (inScratch core c.sva = false ∧ inScratch core c.dva = false) ∨ 4096 < c.memoryPages ∨ c.sourceFits = false ∨
      c.branchesFit = false := by
  simp only [twkRefuses, Bool.or_eq_true, Bool.not_eq_true', Bool.or_eq_false_iff, decide_eq_true_eq, or_assoc]

/-- What `twk` does with its command. -/
def sendTwk (core v : Nat) (c : EngCmd) : M Unit := do
  if twkRefuses core v c then issueEngine c true
  else
    if inWindow c.dva && c.branches == [] then stopTrap (xtrap 0x09 0 kWrite c.dva 0)
    checkBranches c
    issueEngine c false

/-- The command of a `twk` from its descriptor. -/
def State.twkCommand (s : State) (o : MArgs) (v : Nat) : EngCmd :=
  EngCmd.aimed { s.walkCommand o .walk v with dva := (s.walkCommand o .walk v).dva % 2 ^ 56 } false

theorem Runs.sendTwk_refused {core v : Nat} (hroom : s.roomFor c) (h : twkRefuses core v c = true) :
    Runs (sendTwk core v c) s () (s.entered c.refuse) := Runs.ite_pos h (Runs.issueEngine_refused hroom)

theorem Runs.sendTwk_accepted {core v : Nat} (hroom : s.roomFor c) (h : ¬twkRefuses core v c = true)
    (hdest : inWindow c.dva = true → c.branches ≠ []) (hc : c.ctx = s.ctx s.cur) (howns : s.ownsBranches c) (hu : s.accepts c u) :
    Runs (sendTwk core v c) s () u := by
  refine Runs.ite_neg h (Runs.ite_neg ?_ (Runs.checkedIssue hc howns hroom hu))
  rw [Bool.and_eq_true, beq_iff_eq]
  exact fun ⟨hw, hb⟩ => hdest hw hb

/-! `twkm` (R233). -/

/-- The refusals of `twkm` with a member mask m. -/
def twkmRefuses (m v : Nat) (c : EngCmd) : Bool :=
  m = 0 || badWalk v c || inScratch c.ctx.core c.sva || 4096 < c.memoryPages || !c.branchesFit

theorem twkmRefuses_iff {m v : Nat} : twkmRefuses m v c = true ↔ m = 0 ∨ badWalk v c = true ∨ inScratch c.ctx.core c.sva = true ∨
    4096 < c.memoryPages ∨ c.branchesFit = false := by
  simp only [twkmRefuses, Bool.or_eq_true, Bool.not_eq_true', decide_eq_true_eq, or_assoc]

/-- What `twkm` does with its command. -/
def sendTwkm (m v : Nat) (c : EngCmd) : M Unit := do
  if twkmRefuses m v c then issueEngine c true
  else
    checkBranches c
    issueEngine c false

/-- The command of a `twkm` from its descriptor: a branch to each member of m in the cluster, at one offset. -/
def State.twkmCommand (s : State) (o : MArgs) (m v : Nat) : EngCmd :=
  { s.walkCommand o .multicast v with
    branches := ((List.range 8).filter (fun i => bit m i)).map fun i =>
      { core := (s.ctx s.cur).core / 8 * 8 + i, base := (s.walkCommand o .multicast v).dva } }

theorem Runs.sendTwkm_refused {m v : Nat} (hroom : s.roomFor c) (h : twkmRefuses m v c = true) :
    Runs (sendTwkm m v c) s () (s.entered c.refuse) := Runs.ite_pos h (Runs.issueEngine_refused hroom)

theorem Runs.sendTwkm_accepted {m v : Nat} (hroom : s.roomFor c) (h : ¬twkmRefuses m v c = true) (hc : c.ctx = s.ctx s.cur)
    (howns : s.ownsBranches c) (hu : s.accepts c u) : Runs (sendTwkm m v c) s () u :=
  Runs.ite_neg h (Runs.checkedIssue hc howns hroom hu)

/-! `copy` (R236). -/

/-- The refusals of `copy`. -/
def copyRefuses (d a n : Nat) (c : EngCmd) : Bool :=
  d % 4 ≠ 0 || a % 4 ≠ 0 || n % 4 ≠ 0 || 2 ^ 32 < n || 4096 < c.srcTouched.length || 4096 < c.dstTouched.length

theorem copyRefuses_iff {d a n : Nat} : copyRefuses d a n c = true ↔ d % 4 ≠ 0 ∨ a % 4 ≠ 0 ∨ n % 4 ≠ 0 ∨ 2 ^ 32 < n ∨
    4096 < c.srcTouched.length ∨ 4096 < c.dstTouched.length := by
  simp only [copyRefuses, Bool.or_eq_true, decide_eq_true_eq, or_assoc]

/-- What `copy` of n bytes does with its command. -/
def sendCopy (d a n : Nat) (c : EngCmd) : M Unit := do
  if copyRefuses d a n c then issueEngine c true
  else if n = 0 then issueEngine c false
  else
    checkWindow c
    checkBranches c
    issueEngine c false

/-- The command of a `copy` of n bytes from a to d. -/
def State.copyCommand (s : State) (o : MArgs) (d a n : Nat) : EngCmd :=
  EngCmd.aimed { s.command o .copy with
    src := 8 * ((s.ctx s.cur).core / 48) + Config.copyEngine s.nextCmd % 8, sva := a, dva := d, rowb := n } true

/-- A copy's window reaches scratchpads as far as the copy goes (R103, R221). -/
theorem Runs.checkWindow (h : inWindow c.dva = true → c.branches ≠ [] ∧ c.branchesFit = true) :
    Runs (Machine.checkWindow c) s () s := by
  unfold Machine.checkWindow
  refine Runs.ite (fun hw => ?_) fun _ => Runs.pure _ s
  obtain ⟨hne, hfit⟩ := h hw
  cases hb : c.branches with
  | nil => exact absurd hb hne
  | cons b l => exact Runs.ite_neg (by rw [hfit]; exact Bool.false_ne_true) (Runs.pure _ s)

section
variable {d a n : Nat} (hroom : s.roomFor c)
include hroom

theorem Runs.sendCopy_refused (h : copyRefuses d a n c = true) : Runs (sendCopy d a n c) s () (s.entered c.refuse) :=
  Runs.ite_pos h (Runs.issueEngine_refused hroom)

variable (h : ¬copyRefuses d a n c = true) (hu : s.accepts c u)
include h hu

/-- A copy of nothing goes nowhere, so nothing is asked of where it would go (R236). -/
theorem Runs.sendCopy_empty (h0 : n = 0) : Runs (sendCopy d a n c) s () u :=
  Runs.ite_neg h (Runs.ite_pos h0 (Runs.issueEngine_accepted hroom hu))

theorem Runs.sendCopy_accepted (hdest : inWindow c.dva = true → c.branches ≠ [] ∧ c.branchesFit = true) (hc : c.ctx = s.ctx s.cur)
    (howns : s.ownsBranches c) : Runs (sendCopy d a n c) s () u :=
  Runs.ite_neg h (Runs.ite (fun _ => Runs.issueEngine_accepted hroom hu)
    fun _ => (Runs.checkWindow hdest).bind (Runs.checkedIssue hc howns hroom hu))

end

/-! `rcopy` (R237). -/

/-- The signal's PA, where a signal is asked for. -/
def State.signalOf (s : State) (o : MArgs) : Option Nat :=
  if o.mod.getLsbD 0 then some (s.self.scalar (o.sc.reg + 2)).toNat else none

/-- The refusals of `rcopy`. -/
def State.rcopyRefuses (s : State) (c : EngCmd) : Bool :=
  c.rowb % 4 != 0 || decide (2 ^ 32 < c.rowb) || c.sig.any (fun x => x % 8 != 0) || s.members c.dev == []

theorem State.rcopyRefuses_iff : s.rcopyRefuses c = true ↔ c.rowb % 4 ≠ 0 ∨ 2 ^ 32 < c.rowb ∨ c.sig.any (fun x => x % 8 != 0) = true ∨
    s.members c.dev = [] := by
  simp only [State.rcopyRefuses, Bool.or_eq_true, bne_iff_ne, decide_eq_true_eq, beq_iff_eq, or_assoc]

/-- The command of an `rcopy` of n bytes from a to pa at a device. -/
def State.rcopyCommand (s : State) (o : MArgs) (pa a n dev : Nat) (sig : Option Nat) : EngCmd :=
  { s.command o .rcopy with src := dev, sva := a, dva := pa % 2 ^ 52, rowb := n, dev := dev, sig := sig }

/-! Issuing a command: what is read, the release, and the command as it is then. -/

/-- A register read as a VA. -/
def State.vaIn (s : State) (r : Reg) : Nat := (s.self.scalar r).toNat % 2 ^ 56

theorem Runs.readSignal (h : s.full .scalar (o.sc.reg + 2)) :
    Runs (if o.mod.getLsbD 0 then (do return some (← Machine.readS ⟨o.sc.reg + 2, o.sc.w⟩).toNat) else Pure.pure none) s
      (s.signalOf o) s := by
  unfold State.signalOf
  by_cases h0 : o.mod.getLsbD 0 = true
  · rw [if_pos h0, if_pos h0]
    exact (Runs.readS (a := ⟨o.sc.reg + 2, o.sc.w⟩) h).bind (Runs.pure _ s)
  · rw [if_neg h0, if_neg h0]
    exact Runs.pure _ s

section
variable {s1 : State} (ha : s.full .scalar o.sa.reg) (hd : s.full .scalar o.d)
  (horder : Runs (if o.ord == .rel then Machine.release o.scope else Pure.pure ()) s () s1)
include ha hd horder

section
variable {v : Nat} (hal : s.vaIn o.sa.reg % 64 = 0) (hl : s1.loads (s.vaIn o.sa.reg) 64 v t)
include hal hl

theorem exec_twk (hc : t.twkCommand o v = c) (h : Runs (sendTwk (t.ctx t.cur).core v c) t () u) :
    exec (.twk o) s = .next (u.fell id) := by
  subst hc
  exact execWhole_fell ((Runs.readS ha).bind ((Runs.engineOrder hd horder).bind ((Runs.readDescriptor hal hl).bind
    ((Runs.myCtx t).bind h))))

theorem exec_twkm {m : Nat} (hb : s.full .scalar o.sb.reg) (hm : (s.self.scalar o.sb.reg).toNat % 256 = m)
    (hc : t.twkmCommand o m v = c) (h : Runs (sendTwkm m v c) t () u) : exec (.twkm o) s = .next (u.fell id) := by
  subst hm hc
  exact execWhole_fell ((Runs.readS ha).bind ((Runs.readS hb).bind ((Runs.engineOrder hd horder).bind
    ((Runs.readDescriptor hal hl).bind ((Runs.myCtx t).bind h)))))

end

section
variable {n : Nat} (hb : s.full .scalar o.sb.reg) (hc : s.full .scalar o.sc.reg) (hn : (s.self.scalar o.sc.reg).toNat = n)
include hb hc hn

theorem exec_copy (hcmd : s1.copyCommand o (s.vaIn o.sa.reg) (s.vaIn o.sb.reg) n = c)
    (h : Runs (sendCopy (s.vaIn o.sa.reg) (s.vaIn o.sb.reg) n c) s1 () u) : exec (.copy o) s = .next (u.fell id) := by
  subst hn hcmd
  exact execWhole_fell ((Runs.readS ha).bind ((Runs.readS hb).bind ((Runs.readS hc).bind ((Runs.engineOrder hd horder).bind
    ((Runs.myCtx s1).bind ((Runs.get s1).bind h))))))

theorem exec_rcopy {dev : Nat} {refused : Bool} (hdev : s.full .scalar (o.sc.reg + 1)) (hsig : s.full .scalar (o.sc.reg + 2))
    (hm : (s.self.scalar (o.sc.reg + 1)).toNat % 65536 = dev)
    (hcmd : s1.rcopyCommand o (s.self.scalar o.sa.reg).toNat (s.vaIn o.sb.reg) n dev (s.signalOf o) = c)
    (hr : s1.rcopyRefuses c = refused) (h : Runs (issueEngine c refused) s1 () u) : exec (.rcopy o) s = .next (u.fell id) := by
  subst hn hm hcmd hr
  exact execWhole_fell ((Runs.readS ha).bind ((Runs.readS hb).bind ((Runs.readS hc).bind
    ((Runs.readS (a := ⟨o.sc.reg + 1, o.sc.w⟩) hdev).bind (Runs.iteThen (Runs.readSignal hsig)
      ((Runs.engineOrder hd horder).bind ((Runs.myCtx s1).bind ((Runs.get s1).bind h))))))))

end

end

end

/-! `grant` (R235). -/

section
variable {o : MArgs} {s1 : State}

/-- What `grant` does with a range from a of b bytes, its form, and an amount n of credits, to the permit of tag t. -/
def grantTo (a b : DWord) (form t n : Nat) (p : Permit) : M Unit := do
  match form with
  | 0 =>
    if 2 ^ 20 < a.toNat + b.toNat || a.toNat % 4 ≠ 0 || b.toNat % 4 ≠ 0 then
      stopTrap { cause := 0x09, tval := a, estart := some 0 }
    modMyCore (·.setPermit t ⟨a.toNat, b.toNat, n⟩)
  | 1 => modMyCore (·.setPermit t { p with credits := Min.min (p.credits + n) 65535 })
  | _ => modMyCore (·.setPermit t { p with credits := 0 })

/-- The permit that a `grant` names. -/
def State.permitOf (s : State) (o : MArgs) : Permit := NMap.getD (s.core (coreOf s.cur)).permits (o.mod.toNat % 16) {}

section
variable {a b : DWord} {k n : Nat} {p : Permit}

theorem Runs.grantTo_range (hr : a.toNat + b.toNat ≤ 2 ^ 20) (ha : a.toNat % 4 = 0) (hb : b.toNat % 4 = 0) :
    Runs (grantTo a b 0 k n p) s () (s.modCore (coreOf s.cur) (·.setPermit k ⟨a.toNat, b.toNat, n⟩)) := by
  refine Runs.ite_neg ?_ (Runs.modify _ s)
  simp only [Bool.or_eq_true, decide_eq_true_eq]
  omega

/-- A range outside the scratchpad, or not on words (R235). -/
theorem StopsWith.grantTo_range (h : 2 ^ 20 < a.toNat + b.toNat ∨ a.toNat % 4 ≠ 0 ∨ b.toNat % 4 ≠ 0) :
    StopsWith (grantTo a b 0 k n p) s (.trap { cause := 0x09, tval := a, estart := some 0 }) s := by
  have hc : (decide (2 ^ 20 < a.toNat + b.toNat) || decide (a.toNat % 4 ≠ 0) || decide (b.toNat % 4 ≠ 0)) = true := by
    simpa only [Bool.or_eq_true, decide_eq_true_eq, or_assoc] using h
  unfold grantTo
  dsimp only
  rw [if_pos hc]
  exact (StopsWith.stopTrap _ s).bind

theorem Runs.grantTo_add : Runs (grantTo a b 1 k n p) s ()
    (s.modCore (coreOf s.cur) (·.setPermit k { p with credits := Min.min (p.credits + n) 65535 })) := Runs.modify _ s

theorem Runs.grantTo_revoke {form : Nat} (h : 2 ≤ form) : Runs (grantTo a b form k n p) s ()
    (s.modCore (coreOf s.cur) (·.setPermit k { p with credits := 0 })) := by
  obtain ⟨i, rfl⟩ := Nat.exists_eq_add_of_le' h
  exact Runs.modify _ s

end

variable (ha : s.full .scalar o.sa.reg) (hb : s.full .scalar o.sb.reg)
  (horder : Runs (if o.ord == .rel then Machine.release o.scope else Pure.pure ()) s () s1)
include ha hb horder

theorem exec_grant {form : Nat} (hf : bits o.mod.toNat 4 2 = form)
    (h : Runs (grantTo (s.self.scalar o.sa.reg) (s.self.scalar o.sb.reg) form (o.mod.toNat % 16) o.imm.toNat (s1.permitOf o)) s1 () t) :
    exec (.grant o) s = .next (t.fell id) := by
  subst hf
  exact execNext_fell ((Runs.readS ha).bind ((Runs.readS hb).bind (Runs.whenThen horder ((Runs.myCore s1).bind h))))

theorem exec_grant_trap {form : Nat} {x : Trap} (hf : bits o.mod.toNat 4 2 = form)
    (h : StopsWith (grantTo (s.self.scalar o.sa.reg) (s.self.scalar o.sb.reg) form (o.mod.toNat % 16) o.imm.toNat (s1.permitOf o)) s1
      (.trap x) s1) : exec (.grant o) s = .next (s1.trapped x) := by
  subst hf
  exact execNext_trap ((Runs.readS ha).bindStop ((Runs.readS hb).bindStop (StopsWith.whenThen horder ((Runs.myCore s1).bindStop h))))

end

end

/-- Settles O43: each command is the one described, and its engine takes it, or refuses it, after the release; a permit is set. -/
theorem engineCommands : Obligations.EngineCommands := by
  intro o s s1 ha hb hn hd horder a b n refused issues base walk
  refine ⟨?_, ?_, ?_, ?_, ?_⟩
  · intro v t hal hl hroom c0 d c bad
    have hr : t.roomFor c := State.roomFor_of_trowelRoom hroom rfl
    have hbad : twkRefuses (t.ctx t.cur).core v c = true ↔ bad := twkRefuses_iff
    have run {u : State} (h : Runs (sendTwk (t.ctx t.cur).core v c) t () u) : issues (.twk o) u :=
      exec_twk ha hd horder hal hl (EngCmd.aimed_eq rfl rfl) h
    exact ⟨fun h => run (.sendTwk_refused hr (hbad.2 h)),
      fun u h hdest howns hu => run (.sendTwk_accepted hr (mt hbad.1 h) hdest rfl howns hu)⟩
  · intro v t hal hl hroom c0 m c bad
    have hr : t.roomFor c := State.roomFor_of_trowelRoom hroom rfl
    have hbad : twkmRefuses m v c = true ↔ bad := twkmRefuses_iff
    have run {u : State} (h : Runs (sendTwkm m v c) t () u) : issues (.twkm o) u := exec_twkm ha hd horder hal hl hb rfl rfl h
    exact ⟨fun h => run (.sendTwkm_refused hr (hbad.2 h)), fun u h howns hu => run (.sendTwkm_accepted hr (mt hbad.1 h) rfl howns hu)⟩
  · intro d c bad
    have hr : s1.roomFor c := State.roomFor_of_not_walk rfl
    have hbad : copyRefuses d (s.vaIn o.sb.reg) n.toNat c = true ↔ bad := copyRefuses_iff
    have run {u : State} (h : Runs (sendCopy d (s.vaIn o.sb.reg) n.toNat c) s1 () u) : issues (.copy o) u :=
      exec_copy ha hd horder hb hn rfl (EngCmd.aimed_eq rfl rfl) h
    exact ⟨fun h => run (.sendCopy_refused hr (hbad.2 h)),
      fun u h h0 hu => run (.sendCopy_empty hr (mt hbad.1 h) hu (congrArg BitVec.toNat h0)),
      fun u h hdest howns hu => run (.sendCopy_accepted hr (mt hbad.1 h) hu hdest rfl howns)⟩
  · intro hdev hsig sig dev c bad
    have hr : s1.roomFor c := State.roomFor_of_not_walk rfl
    have hbad : s1.rcopyRefuses c = true ↔ bad := State.rcopyRefuses_iff
    have run {refused : Bool} {u : State} (hf : s1.rcopyRefuses c = refused) (h : Runs (issueEngine c refused) s1 () u) :
        issues (.rcopy o) u := exec_rcopy ha hd horder hb hn rfl hdev hsig rfl rfl hf h
    exact ⟨fun h => run (hbad.2 h) (.issueEngine_refused hr),
      fun u h hu => run (Bool.eq_false_iff.2 (mt hbad.1 h)) (.issueEngine_accepted hr hu)⟩
  · intro t p sets form
    exact ⟨fun h0 hr h1 h2 => exec_grant ha hb horder h0 (.grantTo_range hr h1 h2),
      fun h0 h => exec_grant_trap ha hb horder h0 (.grantTo_range h), fun h1 => exec_grant ha hb horder h1 .grantTo_add,
      fun h2 => exec_grant ha hb horder rfl (.grantTo_revoke h2)⟩

end Sys2Proof.Machine
end

section
/-! PROOFS. `vset`, `bfield` and `bhalo` (O45): the granted shape, the fields and the halos. -/

namespace Sys2Proof.Machine

section
variable {s t : State}

/-! A long-latency result as the last act of a meaning (R34). -/

/-- Which registers are full depends on the marks of empty ones alone. -/
theorem State.full_modSeq {f : Seq → Seq} {r : Reg} (hf : (f s.self).sEmpty = s.self.sEmpty) (h : s.full .scalar r) :
    (s.modSeq s.cur f).full .scalar r := by
  show ((s.modSeq s.cur f).seq s.cur).isEmpty .scalar r = false
  rw [State.modSeq, State.seq_setSeq_self, Seq.isEmpty, show f (s.seq s.cur) = f s.self from rfl, hf]
  exact h

/-- The sequencer changed, then a result sent. -/
theorem Runs.modMe_writeLong {f : Seq → Seq} {r : Reg} {v : DWord} (hf : (f s.self).sEmpty = s.self.sEmpty) (h : s.full .scalar r) :
    Runs (do Machine.modMe f; Machine.writeLong r v) s () ((s.modSeq s.cur f).sent r v) :=
  (Runs.modMe f s).bind (Runs.writeLong (State.full_modSeq hf h))

theorem execNext_modMe_sentLong {m : M Unit} {f : Seq → Seq} {r : Reg} {v : DWord} (h : Runs m s () ((t.modSeq t.cur f).sent r v)) :
    execNext m s = .next (t.fell fun q => (f q).sentLong r v t.cycle) := by
  rw [execNext_sentLong h, State.fell_modSeq]
  rfl

/-- A result sent, then ESTART cleared. -/
theorem execNext_sentLong_clearEstart {m : M Unit} {r : Reg} {v : DWord}
    (h : Runs m s () ((t.sent r v).modSeq (t.sent r v).cur fun q => { q with estart := 0 })) :
    execNext m s = .next (t.fell fun q => { q.sentLong r v t.cycle with estart := 0 }) := by
  rw [execNext_modMe_last h, State.fell_sent]

/-! The grant of `vset` (R251). -/

/-- With enough turns the shape is reduced until it fits; a single element always does. -/
theorem reduceShape_fits (m k : Nat) : ∀ x y z : Nat, x + y + z ≤ k →
    2 ^ ((reduceShape m k (x, y, z)).1 + (reduceShape m k (x, y, z)).2.1 + (reduceShape m k (x, y, z)).2.2) ≤ Max.max m 1 := by
  induction k with
  | zero =>
    intro x y z h
    obtain ⟨rfl, rfl, rfl⟩ : x = 0 ∧ y = 0 ∧ z = 0 := by omega
    exact Nat.le_max_right m 1
  | succ k ih =>
    intro x y z h
    rw [reduceShape]
    split
    · next hfits => exact hfits
    · next hbig =>
      have hpos : x + y + z ≠ 0 := fun h0 => hbig (by rw [h0]; exact Nat.le_max_right m 1)
      split
      · exact ih x y (z - 1) (by omega)
      · split
        · exact ih x (y - 1) z (by omega)
        · exact ih (x - 1) y z (by omega)

section
variable {g q : Seq} {code x y z avl sumClaims banks ln : Nat} {fit : Bool}
  (hg : g = grantBricks q code x y z avl sumClaims banks ln fit)
include hg

/-- VL is what is asked for, or all elements of the shape reduced to what fits. -/
theorem grantBricks_vl : g.vl = if g.mvl = 0 then 0 else Min.min avl (2 ^ ((reduceShape g.mvl 24 (x, y, z)).1 +
    (reduceShape g.mvl 24 (x, y, z)).2.1 + (reduceShape g.mvl 24 (x, y, z)).2.2)) := by
  subst hg
  rfl

theorem grantBricks_vl_le_avl : g.vl ≤ avl := by
  rw [grantBricks_vl hg]
  split
  · exact Nat.zero_le avl
  · exact Nat.min_le_left _ _

theorem grantBricks_vl_le_mvl (h : x + y + z ≤ 24) : g.vl ≤ g.mvl := by
  rw [grantBricks_vl hg]
  split
  · exact Nat.zero_le _
  · next hm =>
    have hfits := reduceShape_fits g.mvl 24 x y z h
    rw [Nat.max_eq_left (Nat.one_le_iff_ne_zero.2 hm)] at hfits
    exact Nat.le_trans (Nat.min_le_right _ _) hfits

end

/-! `vset` (R249, R251, R253). -/

/-- The type that `vset` asks for has a code that no type has. -/
def vsetRefuses (o : MArgs) : Prop :=
  3 < bits o.imm.toNat 0 3 ∨ bits o.imm.toNat 3 3 = 7 ∨ bits o.imm.toNat 6 3 = 7 ∨ bits o.imm.toNat 9 3 = 7

/-- VTYPE with VILL and the type asked for, and no elements (log 78). -/
def Seq.refuseType (q : Seq) (o : MArgs) : Seq :=
  { q with vtype := (q.vtype &&& 0xFFFFFFFFFFFFF000) ||| BitVec.ofNat 64 (2 ^ 31 + o.imm.toNat % 4096), vl := 0, slen := 0 }

/-- The sequencer with what `vset` grants it in its core. -/
def State.granted (s : State) (o : MArgs) (avl : Nat) : Seq :=
  grantBricks s.self (bits o.imm.toNat 0 3) (bits o.imm.toNat 3 3) (bits o.imm.toNat 6 3) (bits o.imm.toNat 9 3) avl
    (s.claims (coreOf s.cur)) (s.core (coreOf s.cur)).banks (s.die (dieOf s.cur)).ln (o.mod.getLsbD 0)

theorem vsetRefuses_iff (o : MArgs) : (decide (3 < bits o.imm.toNat 0 3) || decide (bits o.imm.toNat 3 3 = 7) ||
    decide (bits o.imm.toNat 6 3 = 7) || decide (bits o.imm.toNat 9 3 = 7)) = true ↔ vsetRefuses o := by
  simp only [vsetRefuses, Bool.or_eq_true, decide_eq_true_eq, or_assoc]

section
variable {o : MArgs} {s1 : State} (hd : s.full .scalar o.d) (hb : Runs needBricksDone s () s1)
include hd hb

theorem exec_vset_refused (ha : s.full .scalar o.sa.reg) (hd1 : s1.full .scalar o.d) (h : vsetRefuses o) :
    exec (.vset o) s = .next (s1.fell fun q => (q.refuseType o).sentLong o.d 0 s1.cycle) :=
  execNext_modMe_sentLong ((Runs.readS ha).bind ((Runs.needWritable hd).bind (hb.bind
    (.ite_pos ((vsetRefuses_iff o).2 h) (.modMe_writeLong (f := (·.refuseType o)) rfl hd1)))))

theorem exec_vset_granted (ha : s.full .scalar o.sa.reg) (h : ¬vsetRefuses o)
    (ht : t = settleBanks (coreOf s1.cur) (s1.modSeq s1.cur fun _ => s1.granted o (s.self.scalar o.sa.reg).toNat))
    (hdt : t.full .scalar o.d) :
    exec (.vset o) s = .next (t.fell (·.sentLong o.d (BitVec.ofNat 64 t.self.vl) t.cycle)) := by
  subst ht
  exact execNext_sentLong ((Runs.readS ha).bind ((Runs.needWritable hd).bind (hb.bind (.ite_neg (mt (vsetRefuses_iff o).1 h)
    ((Runs.get s1).bind ((Runs.me s1).bind ((Runs.modMe _ s1).bind ((Runs.modify _ _).bind
      ((Runs.mySeq _).bind (Runs.writeLong hdt))))))))))

theorem exec_vsetFree (ht : t = settleBanks (coreOf s1.cur) (s1.modSeq s1.cur Seq.freeBricks)) (hdt : t.full .scalar o.d) :
    exec (.vsetFree o) s = .next (t.fell (·.sentLong o.d 0 t.cycle)) := by
  subst ht
  exact execNext_sentLong ((Runs.needWritable hd).bind (hb.bind ((Runs.modMe _ s1).bind ((Runs.modify _ _).bind (Runs.writeLong hdt)))))

end

/-! `bfield` (R256). -/

section
variable {o : MArgs}

/-- The descriptor number that `bfield` names, and the descriptor that it sets there. -/
def bfieldIndex (o : MArgs) : Nat := bits o.imm.toNat 12 2

def bfieldValue (o : MArgs) : DWord :=
  BitVec.ofNat 64 (2 ^ 63 + o.d.toNat * 2 ^ 56 + bits o.imm.toNat 14 2 * 2 ^ 28 + o.mod.toNat % 4096 * 2 ^ 16 +
    bits o.imm.toNat 8 4 * 2 ^ 10 + bits o.imm.toNat 4 4 * 2 ^ 6 + bits o.imm.toNat 0 4 * 2 ^ 2)

/-- A descriptor with V cleared. -/
def bfdOff (f : DWord) : DWord := f &&& 0x7FFFFFFFFFFFFFFF

/-- The descriptors with V of one cleared. -/
def bfdCleared (l : NMap DWord) (n : Nat) : NMap DWord := NMap.modify l n 0 bfdOff

/-- The descriptors with one set, and V cleared of the others that overlap it. -/
def bfdSet (l : NMap DWord) (n : Nat) (v : DWord) : NMap DWord :=
  NMap.set (NMap.mapVals l fun i b => if i != n && bfdValid b && bfdOverlaps b v then bfdOff b else b) n v

theorem getD_bfdSet_of_ne {l : NMap DWord} {n i : Nat} {v : DWord} (h : i ≠ n) : NMap.getD (bfdSet l n v) i 0 =
    if bfdValid (NMap.getD l i 0) = true ∧ bfdOverlaps (NMap.getD l i 0) v = true then bfdOff (NMap.getD l i 0) else NMap.getD l i 0 := by
  rw [bfdSet, NMap.getD_set_of_ne _ _ _ h, NMap.getD, NMap.getD, get?_mapVals]
  cases NMap.get? l i with
  | none => exact (if_neg fun hv => absurd hv.1 (by decide)).symm
  | some b => simp [h]

theorem exec_bfield_clears (h : o.mod.getLsbD 12 = true) :
    exec (.bfield o) s = .next (s.fell fun q => { q with bfd := bfdCleared q.bfd (bfieldIndex o) }) :=
  execNext_modMe (.ite_pos h (Runs.modMe _ s))

theorem exec_bfield_sets (h : o.mod.getLsbD 12 = false) :
    exec (.bfield o) s = .next (s.fell fun q => { q with bfd := bfdSet q.bfd (bfieldIndex o) (bfieldValue o) }) :=
  execNext_modMe (.ite_neg (Bool.eq_false_iff.1 h) (Runs.modMe _ s))

theorem State.bfd_fell (s : State) (f : Seq → Seq) : (s.fell f).self.bfd = (f s.self).bfd := by
  rw [State.self_fell, Seq.advance_bfd]

/-- An instruction that changes the descriptors alone. -/
theorem changesFields {i : Instr} {g : NMap DWord → NMap DWord} (h : exec i s = .next (s.fell fun q => { q with bfd := g q.bfd })) :
    ∃ t, exec i s = .next t ∧ t = s.fell (fun q => { q with bfd := t.self.bfd }) ∧ t.self.bfd = g s.self.bfd :=
  ⟨_, h, State.fell_congr (by rw [State.bfd_fell]), State.bfd_fell s _⟩

end

/-! `bhalo` (R258). -/

section
variable {o : MArgs}

/-- A halo register is invalid, and its copy gone. -/
def Seq.clearHalo (q : Seq) (n : Nat) : Seq :=
  { q with halo := NMap.modify q.halo n 0 (fun v => v &&& ~~~(1 : DWord)), haloCopy := NMap.erase q.haloCopy n }

/-- A halo register holds the address of a descriptor, and a copy of it. -/
def Seq.takeHalo (q : Seq) (n a : Nat) (d : BitVec 512) : Seq :=
  { q with halo := NMap.set q.halo n (BitVec.ofNat 64 (a + 1)), haloCopy := NMap.set q.haloCopy n d }

theorem exec_bhalo_clears (hd : s.full .scalar o.d) (h : o.mod.getLsbD 0 = true) :
    exec (.bhalo o) s = .next (s.fell fun q => (q.clearHalo (o.imm.toNat % 4)).sentLong o.d 0 s.cycle) :=
  execNext_modMe_sentLong ((Runs.needWritable hd).bind (.ite_pos h (.modMe_writeLong (f := (·.clearHalo (o.imm.toNat % 4))) rfl hd)))

/-- A `bhalo` once its descriptor is read. -/
def takeDescriptor (o : MArgs) (a : Nat) (d : BitVec 512) : M Unit := do
  if haloOk d then
    modMe (·.takeHalo (o.imm.toNat % 4) a d)
    writeLong o.d 0
  else
    modMe (·.clearHalo (o.imm.toNat % 4))
    writeLong o.d (BitVec.ofNat 64 (2 ^ 63 + 1))

theorem exec_bhalo_reads {v : Nat} {f : Seq → Seq} {k : DWord} (ha : s.full .scalar o.sa.reg) (hd : s.full .scalar o.d)
    (h : o.mod.getLsbD 0 = false) (hal : (s.self.scalar o.sa.reg).toNat % 2 ^ 56 % 64 = 0)
    (hl : s.loads ((s.self.scalar o.sa.reg).toNat % 2 ^ 56) 64 v t)
    (hrun : Runs (takeDescriptor o ((s.self.scalar o.sa.reg).toNat % 2 ^ 56) (BitVec.ofNat 512 v)) t () ((t.modSeq t.cur f).sent o.d k)) :
    exec (.bhalo o) s = .next (t.fell fun q => (f q).sentLong o.d k t.cycle) := by
  obtain ⟨l, p, s1, hplace, hload⟩ := hl
  exact execNext_modMe_sentLong ((Runs.needWritable hd).bind (.ite_neg (Bool.eq_false_iff.1 h) ((Runs.readS ha).bind
    (.ite_neg (not_not_intro hal) ((Runs.myCtx s).bind (hplace.bind (hload.bind hrun)))))))

theorem Runs.takeDescriptor_ok {a : Nat} {d : BitVec 512} (hd : s.full .scalar o.d) (h : haloOk d = true) :
    Runs (takeDescriptor o a d) s () ((s.modSeq s.cur (·.takeHalo (o.imm.toNat % 4) a d)).sent o.d 0) :=
  .ite_pos h (.modMe_writeLong rfl hd)

theorem Runs.takeDescriptor_bad {a : Nat} {d : BitVec 512} (hd : s.full .scalar o.d) (h : haloOk d = false) :
    Runs (takeDescriptor o a d) s ()
      ((s.modSeq s.cur (·.clearHalo (o.imm.toNat % 4))).sent o.d (BitVec.ofNat 64 (2 ^ 63 + 1))) :=
  .ite_neg (Bool.eq_false_iff.1 h) (.modMe_writeLong rfl hd)

end

end

end Sys2Proof.Machine
end

section
/-! PROOFS. Moves and permutations of brick elements (O45). -/

namespace Sys2Proof.Machine

section
variable {s : State} {o : VArgs}

/-! An ill-formed type (R188, log 132). -/

theorem StopsWith.needType {ty : Ty} (h : ¬s.self.typed ty) : StopsWith (needType ty) s (.trap (illFormedType s.self)) s := by
  refine (Runs.mySeq s).bindStop ?_
  have hbad : (s.self.ill || ty.width != s.self.sew) = true := by
    simpa only [Seq.typed, Classical.not_and_iff_not_or_not, Bool.not_eq_false, Bool.or_eq_true, bne_iff_ne] using h
  rw [if_pos hbad]
  exact .stopTrap _ _

/-- The instructions of each shape check their type first. -/
theorem StopsWith.elementOp {binary third : Bool} {mode : Rnd} {f : Nat → Nat → Nat → Nat → M (Nat × Flags)}
    (h : ¬s.self.typed o.ty) :
    StopsWith (elementOp o binary third mode f) s (.trap (illFormedType s.self)) s := (StopsWith.needType h).bind.allOrWait_trap

theorem StopsWith.vfused {negProd negC : Bool} (h : ¬s.self.typed o.ty) :
    StopsWith (vfused o negProd negC) s (.trap (illFormedType s.self)) s := (Runs.mySeq s).bindStop (StopsWith.elementOp h)

theorem StopsWith.elementCmp {f : Nat → Nat → M (Bool × Flags)} (h : ¬s.self.typed o.ty) :
    StopsWith (elementCmp o f) s (.trap (illFormedType s.self)) s := (StopsWith.needType h).bind.allOrWait_trap

/-! Elements written, then ESTART cleared. -/

/-- The sequencer changed, then ESTART cleared. -/
theorem execNext_modMe_clearEstart {m : M Unit} {f : Seq → Seq}
    (h : ∀ t, Runs clearEstart (s.modSeq s.cur f) () t → Runs m s () t) :
    execNext m s = .next (s.fell fun q => { f q with estart := 0 }) := by
  rw [execNext_modMe_last (h _ (Runs.clearEstart _)), State.fell_modSeq]

/-- An instruction that writes the elements of a list, each its own value, writes the elements of any list of the same ones. -/
theorem writesBrick_of_exec {i : Instr} {d : Reg} {l es : List Nat} {f : Nat → DWord} (hl : ∀ e, e ∈ l ↔ e ∈ es)
    (hes : ∀ e ∈ es, e < 8192) (h : exec i s = .next (s.fell fun q => { q.withElems d.toNat f l with estart := 0 })) :
    WritesBrick i s d es f := by
  have hl' : ∀ e ∈ l, e < 8192 := fun e he => hes e ((hl e).1 he)
  have hbr : (s.fell fun q => { q.withElems d.toNat f l with estart := 0 }).self.bricks = (s.self.withElems d.toNat f l).bricks :=
    State.bricks_fell _ s
  have helem (b e : Nat) : (s.fell fun q => { q.withElems d.toNat f l with estart := 0 }).self.elem b e =
      (s.self.withElems d.toNat f l).elem b e := by rw [Seq.elem, hbr]; rfl
  refine ⟨_, h, fun e he => ?_, fun b e hlt hne => ?_, State.fell_congr ?_⟩
  · rw [helem]
    exact Seq.elem_withElems_of_mem l hl' ((hl e).2 he)
  · rw [helem]
    exact Seq.elem_withElems_of_not_mem hlt l hl' (hne.imp_right (mt (hl e).1))
  · rw [hbr, Seq.withElems_eq]

/-- A form that reads its sources before it writes (R268): the pairs of its rule are elements with their values. -/
theorem writesBrick_of_permute {i : Instr} {m : M Unit} {l : Seq → List (Nat × DWord)} {es : List Nat} {f : Nat → DWord}
    (hi : exec i s = execNext m s) (hm : ∀ t, Runs (permute' o l) s () t → Runs m s () t) (hes : ∀ e ∈ es, e < 8192)
    (hl : l s.self = es.map fun e => (e, f e)) : WritesBrick i s o.d es f := by
  have hrun : execNext m s = _ := execNext_modMe_clearEstart (s := s) fun t h => hm t ((Runs.mySeq s).bind ((Runs.modMe _ s).bind h))
  refine writesBrick_of_exec (fun _ => Iff.rfl) hes ((hi.trans hrun).trans ?_)
  simp only [hl, List.foldl_map]
  rfl

/-- A form that reads one brick and no scalar. -/
theorem writesBrick_of_brickSource {i : Instr} {l : Seq → List (Nat × DWord)} {es : List Nat} {f : Nat → DWord}
    (ht : s.self.typed o.ty) (hd : s.full .brick o.d) (ha : s.full .brick o.sa.reg)
    (hi : exec i s = execNext (do needType o.ty; needBrick o.sa; needBrickDest o.d; permute' o l) s) (hes : ∀ e ∈ es, e < 8192)
    (hl : l s.self = es.map fun e => (e, f e)) : WritesBrick i s o.d es f :=
  writesBrick_of_permute hi (fun _ h => (Runs.needType ht).bind ((Runs.needBrick ha).bind ((Runs.needWritable hd).bind h))) hes hl

theorem Seq.lt_of_mem_activeAll {q : Seq} {me : Bool} {msel : BitVec 3} {e : Nat} (h : e ∈ q.activeAll me msel) : e < q.vl :=
  List.mem_range.1 (List.mem_filter.1 h).1

/-- Each member of a list with its place. -/
theorem map_zipIdx_eq_range {β : Type} (l : List Nat) (g : Nat → β) :
    l.zipIdx.map (fun x => (x.2, g x.1)) = (List.range l.length).map fun j => (j, g (l.getD j 0)) := by
  apply List.ext_getElem
  · simp
  · intro j h1 h2
    simp at h1
    simp [h1]

theorem map_zipIdx_eq_idxOf {β : Type} {l : List Nat} (h : l.Nodup) (g : Nat → β) :
    l.zipIdx.map (fun x => (x.1, g x.2)) = l.map fun e => (e, g (l.idxOf e)) := by
  apply List.ext_getElem
  · simp
  · intro j h1 h2
    simp at h1
    simp [h.idxOf_getElem]

/-! The instructions (R266 to R269). -/

theorem activeFrom_lt (hv : s.self.vl ≤ 8192) : ∀ e ∈ s.self.activeFrom o.me o.msel, e < 8192 :=
  fun _ he => Nat.lt_of_lt_of_le (State.mem_brickElems (s := s) (o := o) he) hv

theorem activeAll_lt (hv : s.self.vl ≤ 8192) : ∀ e ∈ s.self.activeAll o.me o.msel, e < 8192 :=
  fun _ he => Nat.lt_of_lt_of_le (Seq.lt_of_mem_activeAll he) hv

section
variable (hv : s.self.vl ≤ 8192) (ht : s.self.typed o.ty) (hd : s.full .brick o.d)
include hv ht hd

theorem writesBrick_vbcast_scalar (hvs : o.vmod.getLsbD 0 = false) (ha : s.full .scalar o.sa.reg) :
    WritesBrick (.vbcast o) s o.d (s.self.activeFrom o.me o.msel)
      fun _ => BitVec.ofNat 64 ((s.self.scalar o.sa.reg).toNat % 2 ^ o.ty.width) := by
  have hrun : exec (.vbcast o) s = _ := execNext_modMe_clearEstart (s := s) fun _ h => (Runs.needType ht).bind
    (.ite_neg (Bool.eq_false_iff.1 hvs) ((Runs.readS ha).bind
      ((Runs.needWritable hd).bind ((Runs.mySeq s).bind ((Runs.modMe _ s).bind h)))))
  exact writesBrick_of_exec (fun _ => Iff.rfl) (activeFrom_lt hv) hrun

theorem writesBrick_vbcast_elem (hvs : o.vmod.getLsbD 0 = true) (ha : s.full .brick o.sa.reg) (hb : s.full .scalar o.sb.reg) :
    WritesBrick (.vbcast o) s o.d (s.self.activeFrom o.me o.msel)
      fun _ => if (s.self.scalar o.sb.reg).toNat < s.self.vl then s.self.bitsOf o.sa.reg.toNat (s.self.scalar o.sb.reg).toNat else 0 := by
  have hrun : exec (.vbcast o) s = _ := execNext_modMe_clearEstart (s := s) fun _ h => (Runs.needType ht).bind (.ite_pos hvs
    ((Runs.needBrick ha).bind ((Runs.readS hb).bind ((Runs.mySeq s).bind
      ((Runs.needWritable hd).bind ((Runs.mySeq s).bind ((Runs.modMe _ s).bind h)))))))
  exact writesBrick_of_exec (fun _ => Iff.rfl) (activeFrom_lt hv) hrun

theorem writesBrick_vins (ha : s.full .scalar o.sa.reg) (hb : s.full .scalar o.sb.reg) :
    WritesBrick (.vins o) s o.d (if (s.self.scalar o.sb.reg).toNat < s.self.vl then [(s.self.scalar o.sb.reg).toNat] else [])
      fun _ => BitVec.ofNat 64 ((s.self.scalar o.sa.reg).toNat % 2 ^ s.self.sew) := by
  refine writesBrick_of_permute rfl
    (fun _ h => (Runs.needType ht).bind ((Runs.readS ha).bind ((Runs.readS hb).bind ((Runs.needWritable hd).bind h)))) ?_ ?_
  · intro e he
    split at he
    · next hi => exact List.mem_singleton.1 he ▸ Nat.lt_of_lt_of_le hi hv
    · exact absurd he List.not_mem_nil
  · split <;> rfl

section
variable (ha : s.full .brick o.sa.reg)
include ha

theorem writesBrick_vtrans : WritesBrick (.vtrans o) s o.d (s.self.activeAll o.me o.msel)
    fun e => s.self.bitsOf o.sa.reg.toNat (s.self.transSource (o.vmod.toNat % 8) e) :=
  writesBrick_of_brickSource ht hd ha rfl (activeAll_lt hv) rfl

theorem writesBrick_vcomp : WritesBrick (.vcomp o) s o.d (List.range (s.self.activeAll o.me o.msel).length)
    fun j => s.self.bitsOf o.sa.reg.toNat ((s.self.activeAll o.me o.msel).getD j 0) := by
  refine writesBrick_of_brickSource ht hd ha rfl (fun e he => ?_) (map_zipIdx_eq_range _ _)
  have hlen : (s.self.activeAll o.me o.msel).length ≤ s.self.vl :=
    Nat.le_trans (List.length_filter_le _ _) (Nat.le_of_eq List.length_range)
  exact Nat.lt_of_lt_of_le (List.mem_range.1 he) (Nat.le_trans hlen hv)

theorem writesBrick_vexp : WritesBrick (.vexp o) s o.d (s.self.activeAll o.me o.msel)
    fun e => s.self.bitsOf o.sa.reg.toNat ((s.self.activeAll o.me o.msel).idxOf e) :=
  writesBrick_of_brickSource ht hd ha rfl (activeAll_lt hv)
    (map_zipIdx_eq_idxOf (List.nodup_range.filter _) _)

theorem writesBrick_vslide (hb : s.full .scalar o.sb.reg) : WritesBrick (.vslide o) s o.d (s.self.activeAll o.me o.msel)
    (s.self.slideElem o.sa.reg.toNat (s.self.scalar o.sb.reg).toInt (o.vmod.getLsbD 0)) :=
  writesBrick_of_permute rfl (fun _ h => (Runs.needType ht).bind ((Runs.needBrick ha).bind ((Runs.readS hb).bind
    ((Runs.needWritable hd).bind h)))) (activeAll_lt hv) rfl

theorem writesBrick_vgath (hb : s.full .brick o.sb.reg) : WritesBrick (.vgath o) s o.d (s.self.activeAll o.me o.msel)
    (s.self.gathElem o.sa.reg.toNat o.sb.reg.toNat) :=
  writesBrick_of_permute rfl (fun _ h => (Runs.needType ht).bind ((Runs.needBrick ha).bind ((Runs.needBrick hb).bind
    ((Runs.needWritable hd).bind h)))) (activeAll_lt hv) rfl

end

end

theorem exec_vext (ht : s.self.typed o.ty) (ha : s.full .brick o.sa.reg) (hb : s.full .scalar o.sb.reg) (hd : s.full .scalar o.d)
    {i : Nat} {x : DWord} (hi : (s.self.scalar o.sb.reg).toNat = i) (hx : s.self.bitsOf o.sa.reg.toNat i = x) :
    exec (.vext o) s = .next (s.fell fun q => { q.sentLong o.d
      (if i < s.self.vl then (if o.ty.isSigned then BitVec.ofInt 64 (sext s.self.sew x.toNat) else x) else 0) s.cycle with
      estart := 0 }) := by
  subst hi hx
  have hrun : exec (.vext o) s = _ := execNext_sentLong_clearEstart ((Runs.needType ht).bind ((Runs.needBrick ha).bind
    ((Runs.readS hb).bind ((Runs.needWritable hd).bind ((Runs.mySeq s).bind ((Runs.writeLong hd).bind (Runs.clearEstart _)))))))
  rw [hrun]
  simp only [BitVec.ofNat_toNat, BitVec.setWidth_eq]

/-- Every element instruction of the common moulds refuses a type that is ill-formed or of another width before all else. -/
theorem exec_illTyped (h : ¬s.self.typed o.ty) : ∀ i ∈ [Instr.vbcast o, .vslide o, .vtrans o, .vcomp o, .vexp o, .vins o, .vgath o,
    .vext o, .vadd o, .vfma o, .vcmp o, .vsel o, .vredo o], exec i s = .next (s.trapped (illFormedType s.self)) := by
  intro i hi
  have stop := StopsWith.needType h
  simp only [List.mem_cons, List.not_mem_nil, or_false] at hi
  obtain rfl | rfl | rfl | rfl | rfl | rfl | rfl | rfl | rfl | rfl | rfl | rfl | rfl := hi
  iterate 8 exact execNext_trap stop.bind
  · exact execNext_trap (StopsWith.elementOp h)
  · exact execNext_trap (StopsWith.vfused h)
  · exact execNext_trap (StopsWith.elementCmp h)
  · exact execWhole_trap stop.bind
  · exact execNext_trap stop.bind

end

end Sys2Proof.Machine
end

section
/-! PROOFS. Mask instructions, and what the brick and mask instructions do (O45). -/

namespace Sys2Proof.Machine

section
variable {s : State} {o : RArgs}

theorem Runs.needVtype (h : s.self.ill = false) : Runs needVtype s () s :=
  (Runs.mySeq s).bind (.ite_neg (Bool.eq_false_iff.1 h) (Runs.pure _ s))

theorem StopsWith.needVtype (h : s.self.ill = true) : StopsWith needVtype s (.trap (illFormedType s.self)) s := by
  refine (Runs.mySeq s).bindStop ?_
  rw [if_pos h]
  exact .stopTrap _ _

/-! A mask written (R270, R271). -/

/-- An instruction that writes a mask: below VL its bits are those given, above they are clear; m0 and every other mask are as before,
ESTART becomes 0, and nothing else changes. -/
def WritesMask (i : Instr) (s : State) (d : Reg) (f : Nat → Bool) : Prop :=
  ∃ t, exec i s = .next t ∧ t = s.fell (fun q => { q with masks := t.self.masks, estart := 0 }) ∧
    ∀ k e, e < 8192 → (t.self.mask k).getLsbD e =
      if k = d.toNat ∧ k ≠ 0 then decide (e < s.self.vl) && f e else (s.self.mask k).getLsbD e

/-- A mask as the mask instructions leave it. -/
def Seq.maskWritten (q : Seq) (d : Reg) (m : BitVec 8192) : Seq := { q.setMask d.toNat (keepLow q.vl m) with estart := 0 }

theorem Seq.getLsbD_maskWritten (q : Seq) (d : Reg) (m : BitVec 8192) (k : Nat) {e : Nat} (he : e < 8192) :
    ((q.maskWritten d m).mask k).getLsbD e =
      if k = d.toNat ∧ k ≠ 0 then decide (e < q.vl) && m.getLsbD e else (q.mask k).getLsbD e := by
  show ((q.setMask d.toNat (keepLow q.vl m)).mask k).getLsbD e = _
  split
  · next h =>
    obtain ⟨rfl, h0⟩ := h
    rw [Seq.mask_setMask_self _ _ _ h0, getLsbD_keepLow he]
  · next h =>
    by_cases hk : k = d.toNat
    · have h0 : k = 0 := Decidable.byContradiction fun h0 => h ⟨hk, h0⟩
      simp only [Seq.mask, if_pos h0]
    · rw [Seq.mask_setMask_of_ne _ _ hk]

theorem writesMask_of_runs {i : Instr} {m : M Unit} {g : Seq → BitVec 8192} {f : Nat → Bool} (hi : exec i s = execNext m s)
    (h : Runs m s () (s.modSeq s.cur fun q => q.maskWritten o.d (g q))) (hg : ∀ e, e < 8192 → (g s.self).getLsbD e = f e) :
    WritesMask i s o.d f := by
  refine ⟨_, hi.trans (execNext_modMe h), State.fell_congr ?_, fun k e he => ?_⟩
  · rw [State.masks_fell, Seq.maskWritten, Seq.setMask_eq]
  · rw [State.mask_fell, Seq.getLsbD_maskWritten _ _ _ _ he, hg e he]

section
variable (hv : s.self.ill = false)
include hv

theorem Runs.writeMask (d : Reg) (g : Seq → BitVec 8192) :
    Runs (writeMask d g) s () (s.modSeq s.cur fun q => q.maskWritten d (g q)) := (Runs.needVtype hv).bind (Runs.modMe _ s)

theorem writesMask_mand : WritesMask (.mand o) s o.d
    fun e => (s.self.mask o.sa.reg.toNat).getLsbD e && (s.self.mask o.sb.reg.toNat).getLsbD e :=
  writesMask_of_runs rfl (.writeMask hv _ _) fun _ _ => BitVec.getLsbD_and

theorem writesMask_mor : WritesMask (.mor o) s o.d
    fun e => (s.self.mask o.sa.reg.toNat).getLsbD e || (s.self.mask o.sb.reg.toNat).getLsbD e :=
  writesMask_of_runs rfl (.writeMask hv _ _) fun _ _ => BitVec.getLsbD_or

theorem writesMask_mxor : WritesMask (.mxor o) s o.d
    fun e => (s.self.mask o.sa.reg.toNat).getLsbD e ^^ (s.self.mask o.sb.reg.toNat).getLsbD e :=
  writesMask_of_runs rfl (.writeMask hv _ _) fun _ _ => BitVec.getLsbD_xor

theorem writesMask_mnot : WritesMask (.mnot o) s o.d fun e => !(s.self.mask o.sa.reg.toNat).getLsbD e :=
  writesMask_of_runs rfl (.writeMask hv _ _) fun e he => by rw [BitVec.getLsbD_not, decide_eq_true he, Bool.true_and]

end

/-! `mset` (R272). -/

theorem getLsbD_msetBits_upTo {e : Nat} (he : e < 8192) (v : DWord) : (msetBits 0 v).getLsbD e = decide (e < v.toNat) := by
  rw [msetBits]
  split
  · next h =>
    rw [BitVec.getLsbD_allOnes, decide_eq_true he, decide_eq_true (Nat.lt_of_lt_of_le he h)]
  · have h := getLsbD_keepLow (n := v.toNat) he (BitVec.allOnes 8192)
    rwa [keepLow, BitVec.allOnes_and, BitVec.getLsbD_allOnes, decide_eq_true he, Bool.and_true] at h

theorem getLsbD_msetBits_of {e : Nat} (he : e < 8192) (v : DWord) : (msetBits 1 v).getLsbD e = v.toNat.testBit e := by
  rw [msetBits, BitVec.getLsbD_setWidth, decide_eq_true he, Bool.true_and]
  rfl

/-- The forms that read no scalar: all bits, or none. -/
theorem getLsbD_msetBits_const {n e : Nat} (he : e < 8192) (v : DWord) (h : 2 ≤ n) : (msetBits n v).getLsbD e = decide (n = 2) := by
  match n, h with
  | 2, _ => exact (BitVec.getLsbD_allOnes).trans (decide_eq_true he)
  | n + 3, _ => exact BitVec.getLsbD_zero.trans (decide_eq_false (by omega)).symm

section
variable (hv : s.self.ill = false)
include hv

theorem writesMask_mset_scalar (hn : o.mod.toNat % 4 < 2) (ha : s.full .scalar o.sa.reg) : WritesMask (.mset o) s o.d fun e =>
    if o.mod.toNat % 4 = 0 then decide (e < (s.self.scalar o.sa.reg).toNat) else (s.self.scalar o.sa.reg).toNat.testBit e := by
  refine writesMask_of_runs rfl ((Runs.needVtype hv).bind (.iteThen (.ite_pos hn (Runs.readS ha)) (Runs.writeMask hv _ _))) fun e he => ?_
  rcases (by omega : o.mod.toNat % 4 = 0 ∨ o.mod.toNat % 4 = 1) with h | h
  · rw [h, if_pos rfl, getLsbD_msetBits_upTo he]
  · rw [h, if_neg Nat.one_ne_zero, getLsbD_msetBits_of he]

theorem writesMask_mset_const (hn : 2 ≤ o.mod.toNat % 4) : WritesMask (.mset o) s o.d fun _ => decide (o.mod.toNat % 4 = 2) := by
  have hread : Runs (if o.mod.toNat % 4 < 2 then readS o.sa else pure 0) s 0 s := .ite_neg (Nat.not_lt.2 hn) (Runs.pure 0 s)
  refine writesMask_of_runs (g := fun _ => msetBits (o.mod.toNat % 4) 0) rfl ((Runs.needVtype hv).bind
    (hread.iteThen (Runs.writeMask hv _ _))) fun e he => ?_
  exact getLsbD_msetBits_const he 0 hn

/-! Counts (R272). -/

section
variable (hd : s.full .scalar o.d)
include hd

theorem exec_mpopc : exec (.mpopc o) s = .next (s.fell fun q => { q.sentLong o.d
    (BitVec.ofNat 64 ((List.range s.self.vl).filter (s.self.mask o.sa.reg.toNat).getLsbD).length) s.cycle with estart := 0 }) :=
  execNext_sentLong_clearEstart ((Runs.needVtype hv).bind ((Runs.needWritable hd).bind ((Runs.mySeq s).bind
    ((Runs.writeLong hd).bind (Runs.clearEstart _)))))

theorem exec_mfirst {r : DWord}
    (hsome : ∀ e, (List.range s.self.vl).find? (s.self.mask o.sa.reg.toNat).getLsbD = some e → r = BitVec.ofNat 64 e)
    (hnone : (List.range s.self.vl).find? (s.self.mask o.sa.reg.toNat).getLsbD = none → r = BitVec.allOnes 64) :
    exec (.mfirst o) s = .next (s.fell fun q => { q.sentLong o.d r s.cycle with estart := 0 }) := by
  have hrun : exec (.mfirst o) s = _ := execNext_sentLong_clearEstart ((Runs.needVtype hv).bind ((Runs.needWritable hd).bind
    ((Runs.mySeq s).bind ((Runs.writeLong hd).bind (Runs.clearEstart _)))))
  rw [hrun]
  cases hf : (List.range s.self.vl).find? (s.self.mask o.sa.reg.toNat).getLsbD with
  | some e => rw [hsome e hf]
  | none => rw [hnone hf]

end

end

/-- Each element below n with the number of set bits below it, the last first. -/
theorem prefixCounts_eq (m : BitVec 8192) (n : Nat) :
    prefixCounts m n = (List.range n).reverse.map fun e => (e, ((List.range e).filter m.getLsbD).length) := by
  refine congrArg Prod.fst (a₂ := (_, ((List.range n).filter m.getLsbD).length)) ?_
  induction n with
  | zero => rfl
  | succ n ih =>
    rw [List.range_succ, List.foldl_append, ih]
    cases hb : m.getLsbD n <;> simp [hb]

theorem writesBrick_miota (hvl : s.self.vl ≤ 8192) (hv : s.self.ill = false) (hd : s.full .brick o.d) :
    WritesBrick (.miota o) s o.d (List.range s.self.vl) fun e =>
      BitVec.ofNat 64 (((List.range e).filter (s.self.mask o.sa.reg.toNat).getLsbD).length % 2 ^ s.self.sew) := by
  have hrun : exec (.miota o) s = _ := execNext_modMe_clearEstart (s := s) fun _ h => (Runs.needVtype hv).bind
    ((Runs.needWritable hd).bind ((Runs.modMe _ s).bind h))
  refine writesBrick_of_exec (l := (List.range s.self.vl).reverse) (fun _ => List.mem_reverse)
    (fun e he => Nat.lt_of_lt_of_le (List.mem_range.1 he) hvl) (hrun.trans (congrArg _ (State.fell_congr ?_)))
  simp only [prefixCounts_eq, List.foldl_map]
  rfl

/-- Every mask instruction refuses an ill-formed type before all else. -/
theorem exec_mask_illFormed (h : s.self.ill = true) : ∀ i ∈ [Instr.mand o, .mor o, .mxor o, .mnot o, .mpopc o, .mfirst o, .miota o,
    .mset o], exec i s = .next (s.trapped (illFormedType s.self)) := by
  intro i hi
  have stop := StopsWith.needVtype h
  simp only [List.mem_cons, List.not_mem_nil, or_false] at hi
  obtain rfl | rfl | rfl | rfl | rfl | rfl | rfl | rfl := hi <;> exact execNext_trap stop.bind

end

/-- Settles O45: the granted shape fits and is what `vset` leaves; fields and halos, moves and masks change what their rules name. -/
theorem brickShapesMovesAndMasks : Obligations.BrickShapesMovesAndMasks := by
  refine ⟨?_, ?_, ?_, ?_, ?_⟩
  · intro o s s1 ha hd hb hd1 im avl core bad
    have hshape : im 3 3 + im 6 3 + im 9 3 ≤ 24 := by
      simp only [im, bits]
      omega
    exact ⟨exec_vset_refused hd hb ha hd1, fun h => ⟨grantBricks_vl_le_avl rfl, grantBricks_vl_le_mvl rfl hshape,
      exec_vset_granted hd hb ha h rfl⟩, exec_vsetFree hd hb rfl⟩
  · intro o s n v noV old
    cases hm : o.mod.getLsbD 12 with
    | true =>
      obtain ⟨t, hexec, ht, hb⟩ := changesFields (g := fun l => bfdCleared l (bfieldIndex o)) (exec_bfield_clears (s := s) hm)
      refine ⟨t, hexec, ht, ?_, fun i hi => ?_⟩
      · rw [hb, if_pos rfl]
        exact NMap.getD_set_self ..
      · rw [hb, if_neg fun h => absurd h.1 (by decide)]
        exact NMap.getD_set_of_ne _ _ _ hi
    | false =>
      obtain ⟨t, hexec, ht, hb⟩ := changesFields (g := fun l => bfdSet l (bfieldIndex o) (bfieldValue o)) (exec_bfield_sets (s := s) hm)
      refine ⟨t, hexec, ht, ?_, fun i hi => ?_⟩
      · rw [hb, if_neg Bool.false_ne_true]
        exact NMap.getD_set_self ..
      · rw [hb]
        simp only [true_and]
        exact getD_bfdSet_of_ne hi
  · intro o s ha hd n a cleared
    refine ⟨exec_bhalo_clears hd, ?_⟩
    intro v t h hal hl hdt d
    exact ⟨fun hok => exec_bhalo_reads ha hd h hal hl (.takeDescriptor_ok hdt hok),
      fun hbad => exec_bhalo_reads ha hd h hal hl (.takeDescriptor_bad hdt hbad)⟩
  · intro o s hv q x i act writes
    refine ⟨fun ht hd => ⟨?_, ?_, ?_, ?_, ?_, ?_, ?_, ?_⟩, fun ht ha hb hd => ?_, ?_⟩
    · exact writesBrick_vbcast_scalar hv ht hd
    · exact writesBrick_vbcast_elem hv ht hd
    · exact writesBrick_vslide hv ht hd
    · exact writesBrick_vtrans hv ht hd
    · exact writesBrick_vcomp hv ht hd
    · exact writesBrick_vexp hv ht hd
    · exact writesBrick_vins hv ht hd
    · exact writesBrick_vgath hv ht hd
    · exact exec_vext (i := i) (x := x i) ht ha hb hd rfl rfl
    · exact exec_illTyped
  · intro o s hvl q a b v writes
    refine ⟨fun hv => ⟨?_, ?_, ?_, ?_, fun hn ha => ?_, ?_, ?_, ?_, ?_⟩, ?_⟩
    · exact writesMask_mand hv
    · exact writesMask_mor hv
    · exact writesMask_mxor hv
    · exact writesMask_mnot hv
    · have hv' : v = (s.self.scalar o.sa.reg).toNat := if_pos hn
      rw [hv']
      exact writesMask_mset_scalar hv hn ha
    · exact writesMask_mset_const hv
    · exact exec_mpopc hv
    · exact fun hd r => exec_mfirst hv hd
    · exact writesBrick_miota hvl hv
    · exact exec_mask_illFormed

end Sys2Proof.Machine
end

section
/-! PROOFS. What the element instructions share (O46, O47): their sources, one element, and elements one after another (R259, R261, R273
to R277). -/

namespace Sys2Proof.Machine

section
variable {s t u : State} {q : Seq} {o : VArgs} {c : Ctx}

/-! A sequencer changed, and nothing else. -/

/-- t is s with its own sequencer changed by g, written or not where that changes nothing. -/
def State.Becomes (s : State) (g : Seq → Seq) (t : State) : Prop :=
  t.cur = s.cur ∧ t.self = g s.self ∧ ∀ q, t.setSeq t.cur q = s.setSeq s.cur q

theorem State.Becomes.refl {g : Seq → Seq} (h : g s.self = s.self) : s.Becomes g s := ⟨rfl, h.symm, fun _ => rfl⟩

theorem State.Becomes.modSeq (g : Seq → Seq) (s : State) : s.Becomes g (s.modSeq s.cur g) := by
  refine ⟨rfl, State.seq_setSeq_self _ _ _, fun q => ?_⟩
  simp only [State.modSeq, State.setSeq, NMap.set_set]

theorem State.Becomes.trans {g f : Seq → Seq} (h : s.Becomes g t) (k : t.Becomes f u) : s.Becomes (fun q => f (g q)) u := by
  obtain ⟨hcur, hself, hset⟩ := h
  obtain ⟨kcur, kself, kset⟩ := k
  exact ⟨kcur.trans hcur, by rw [kself, hself], fun q => (kset q).trans (hset q)⟩

theorem State.Becomes.fell {g : Seq → Seq} (h : s.Becomes g t) (f : Seq → Seq) : t.fell f = s.fell fun q => f (g q) := by
  obtain ⟨_, hself, hset⟩ := h
  show (t.setSeq t.cur (f t.self).advance).tick = _
  rw [hset, hself]
  rfl

theorem State.Becomes.cycle {g : Seq → Seq} (h : s.Becomes g t) : t.cycle = s.cycle := by
  have hc : (t.setSeq t.cur t.self).cycle = (s.setSeq s.cur t.self).cycle := by rw [h.2.2]
  exact hc

/-- Steps that each change the sequencer alone, run to their end. -/
theorem RunsAll.becomes {step : Nat → M Unit} {g : Nat → Seq → Seq} {P : Seq → Prop} (l : List Nat)
    (h : ∀ e ∈ l, ∀ u : State, P u.self → P (g e u.self) ∧ ∃ t, Runs (step e) u () t ∧ u.Becomes (g e) t) :
    ∀ {s : State}, P s.self → ∃ t, RunsAll step l s t ∧ s.Becomes (fun q => l.foldl (fun q e => g e q) q) t := by
  induction l with
  | nil => exact fun {s} _ => ⟨s, rfl, .refl rfl⟩
  | cons e l ih =>
    intro s hs
    obtain ⟨hp, u, hu, hb⟩ := h e List.mem_cons_self s hs
    obtain ⟨t, ht, hb'⟩ := ih (fun e h' => h e (List.mem_cons_of_mem _ h')) (hb.2.1 ▸ hp : P u.self)
    exact ⟨t, ⟨u, hu, ht⟩, hb.trans hb'⟩

theorem Runs.forEach_becomes {step : Nat → M Unit} {g : Nat → Seq → Seq} (l : List Nat)
    (h : ∀ e ∈ l, ∀ u, Runs (step e) u () (u.modSeq u.cur (g e))) (s : State) :
    ∃ t, Runs (Machine.forEach l step) s () t ∧ s.Becomes (fun q => l.foldl (fun q e => g e q) q) t := by
  obtain ⟨t, ht, hb⟩ := RunsAll.becomes (P := fun _ => True) l (fun e he u _ => ⟨trivial, _, h e he u, .modSeq _ u⟩)
    (s := s) trivial
  exact ⟨t, Runs.forEach ht, hb⟩

/-- Of two changes of the sequencer the later is made to what the earlier left. -/
theorem Runs.modMe_then {α : Type} {m : M α} {a : α} {f g : Seq → Seq} (s : State) (h : ∀ u, Runs m u a (u.modSeq u.cur g)) :
    Runs (Machine.modMe f >>= fun _ => m) s a (s.modSeq s.cur fun q => g (f q)) := by
  have hm := h (s.modSeq s.cur f)
  rw [show (s.modSeq s.cur f).cur = s.cur from rfl, State.modSeq_modSeq] at hm
  exact (Runs.modMe f s).bind hm

theorem StopsWith.ite_pos {α : Type} {p : Prop} [Decidable p] {m k : M α} {st : Stop} (hp : p) (h : StopsWith m s st t) :
    StopsWith (if p then m else k) s st t := by rwa [if_pos hp]

/-! Sources. -/

theorem Runs.needSource {a : Src} {off : Off} (h : s.reachFull a.reg off) : Runs (Machine.needSource a off) s () s :=
  (Runs.mySeq s).bind (Runs.forEach_checks _ fun r hr => Runs.needBrick (h r hr))

/-- An element that its brick, its field or a zero face gives raises no flag (R259). -/
theorem Runs.readOff {ty : Ty} {b e x : Nat} {off : Off} (h : q.readAt ty b off e = some x) (s : State) :
    Runs (Machine.readOff c q ty b off e) s (x, 0) s := by
  unfold Seq.readAt at h
  by_cases hz : offZero off
  · rw [if_pos hz] at h
    cases h
    exact .ite_pos hz (Runs.pure _ s)
  · rw [if_neg hz] at h
    refine .ite_neg hz ?_
    cases hr : q.resolveElem b off e <;> rw [hr] at h <;> cases h <;> exact Runs.pure _ s

/-- The second operand of a binary instruction (R274). -/
def State.second (s : State) (o : VArgs) : Second :=
  if o.vmod.getLsbD 0 then .scalar ((s.self.scalar o.sb.reg).toNat % 2 ^ o.ty.width) else .brick o.sb.reg.toNat o.offB

/-- What the second operand reads is full. -/
def State.secondFull (s : State) (o : VArgs) : Prop :=
  if o.vmod.getLsbD 0 then s.full .scalar o.sb.reg else s.reachFull o.sb.reg o.offB

/-- A second operand gives y for element e, without going to memory. -/
def Second.gives (b : Second) (q : Seq) (ty : Ty) (e y : Nat) : Prop :=
  (∀ v, b = .scalar v → y = v) ∧ ∀ r off, b = .brick r off → q.readAt ty r off e = some y

/-- The second operand, where there is one. -/
def State.secondIf (s : State) (o : VArgs) (binary : Bool) : Second := if binary then s.second o else .none

theorem Runs.secondOf {binary : Bool} (h : binary = true → s.secondFull o) :
    Runs (Machine.secondOf o binary) s (s.secondIf o binary) s := by
  cases binary with
  | false => exact Runs.pure _ s
  | true =>
    have h := h rfl
    unfold State.secondFull at h
    unfold State.secondIf State.second
    by_cases hv : o.vmod.getLsbD 0
    · rw [if_pos hv] at h
      rw [if_pos rfl, if_pos hv]
      exact .ite_neg (by decide) (.ite_pos hv ((Runs.readS h).bind (Runs.pure _ s)))
    · rw [if_neg hv] at h
      rw [if_pos rfl, if_neg hv]
      exact .ite_neg (by decide) (.ite_neg hv ((Runs.needSource h).bind (Runs.pure _ s)))

theorem Runs.readSecond {binary : Bool} {ty : Ty} {e y : Nat} (h : binary = true → (s.second o).gives q ty e y) (u : State) :
    Runs (Machine.readSecond c q ty (s.secondIf o binary) e) u (if binary then y else 0, 0) u := by
  cases binary with
  | false => exact Runs.pure _ u
  | true =>
    obtain ⟨hscalar, hbrick⟩ := h rfl
    rw [State.secondIf, if_pos rfl, if_pos rfl]
    cases hb : s.second o with
    | none => exact absurd hb (by unfold State.second; split <;> nofun)
    | scalar v => rw [hscalar v hb]; exact Runs.pure _ u
    | brick r off => exact Runs.readOff (hbrick r off hb) u

/-! One element (R273 to R277, R83, R84). -/

theorem StopsWith.atElement {α : Type} {m : M α} {x : Trap} {e : Nat} (h : StopsWith m s (.trap x) t) :
    StopsWith (Machine.atElement e m) s (.trap { x with estart := some (x.estart.getD e) }) t := by
  unfold StopsWith at *
  unfold Machine.atElement
  rw [run_tryCatch, h]
  rfl

theorem Seq.enables_mergeFlags (q : Seq) (f : Flags) : (q.mergeFlags f).enables = q.enables := by
  simp only [Seq.enables, Seq.mergeFlags]
  ext i hi
  simp [BitVec.getElem_extractLsb']

theorem Seq.mergeFlags_zero (q : Seq) : q.mergeFlags 0 = q := by
  simp [Seq.mergeFlags]

/-- Flags none of which is enabled are merged (R83). -/
theorem Runs.raiseFlags_becomes {f : Flags} {e : Nat} (h : f &&& s.self.enables = 0) :
    ∃ t, Runs (Machine.raiseFlags f e) s () t ∧ s.Becomes (·.mergeFlags f) t := by
  refine ⟨_, Runs.raiseFlags h, ?_⟩
  split
  · next h0 =>
    subst h0
    exact .refl (Seq.mergeFlags_zero _)
  · exact .modSeq _ s

theorem noFlags_or (fl : Flags) : 0 ||| 0 ||| fl = fl := by simp

/-- The first and the second operand of element e are x and y, neither with a flag of a halo read. -/
def elementRead (c : Ctx) (q : Seq) (o : VArgs) (b : Second) (e x y : Nat) : Prop :=
  q.readAt o.ty o.sa.reg.toNat o.offA e = some x ∧ ∀ u, Runs (Machine.readSecond c q o.ty b e) u (y, 0) u

/-- The element of the third source. -/
def thirdOf (q : Seq) (o : VArgs) (third : Bool) (e : Nat) : Nat :=
  if third then (q.elem o.sc.reg.toNat e).toNat % 2 ^ o.ty.width else 0

section
variable {b : Second} {third : Bool} {mode : Rnd} {f : Nat → Nat → Nat → Nat → M (Nat × Flags)} {put : Nat → Nat → M Unit}
  {e x y v : Nat} {fl : Flags}

theorem Runs.drawFor (hm : mode ≠ .rsr) (s : State) : Runs (Machine.drawFor mode e) s (s.self, 0) s := by
  refine (Runs.mySeq s).bind ?_
  rw [if_neg (by simpa using hm)]
  exact Runs.pure _ s

theorem Runs.elementStep (hr : elementRead c q o b e x y) (hm : mode ≠ .rsr)
    (hf : f x y (thirdOf q o third e) 0 = Pure.pure (v, fl)) (hfl : fl &&& s.self.enables = 0) {g : Seq → Seq}
    (hput : ∀ u, Runs (put e v) u () (u.modSeq u.cur g)) :
    ∃ t, Runs (Machine.elementStep c q o b third mode f put e) s () t ∧ s.Becomes (fun q => g (q.mergeFlags fl)) t := by
  obtain ⟨u, hu, hb⟩ := Runs.raiseFlags_becomes (e := e) hfl
  refine ⟨u.modSeq u.cur g, Runs.atElement ?_, hb.trans (.modSeq g u)⟩
  refine (Runs.readOff hr.1 s).bind ((hr.2 s).bind ((Runs.drawFor hm s).bind ?_))
  refine Runs.bind (a := (v, fl)) (s1 := s) (show Runs (f x y (thirdOf q o third e) 0) s _ s from hf ▸ Runs.pure _ s) ?_
  dsimp only
  rw [noFlags_or]
  exact hu.bind ((hput u).bind (.ite_neg (by simpa using hm) (Runs.pure _ _)))

/-- An operation that stops, stops at its element. -/
theorem StopsWith.elementStep {k : Trap} (hr : elementRead c q o b e x y) (hm : mode ≠ .rsr)
    (hf : f x y (thirdOf q o third e) 0 = Machine.stopTrap k) :
    StopsWith (Machine.elementStep c q o b third mode f put e) s (.trap { k with estart := some (k.estart.getD e) }) s := by
  refine StopsWith.atElement ?_
  refine (Runs.readOff hr.1 s).bindStop ((hr.2 s).bindStop ((Runs.drawFor hm s).bindStop (StopsWith.bind ?_)))
  exact (show StopsWith (f x y (thirdOf q o third e) 0) s (.trap k) s from hf ▸ StopsWith.stopTrap _ s)

/-- An enabled flag stops it with every flag the element raised (R84). -/
theorem StopsWith.elementStep_flags (hr : elementRead c q o b e x y) (hm : mode ≠ .rsr)
    (hf : f x y (thirdOf q o third e) 0 = Pure.pure (v, fl)) (hfl : fl &&& s.self.enables ≠ 0) :
    StopsWith (Machine.elementStep c q o b third mode f put e) s (.trap (floatTrap fl e)) s := by
  refine StopsWith.atElement (x := floatTrap fl e) ?_
  refine (Runs.readOff hr.1 s).bindStop ((hr.2 s).bindStop ((Runs.drawFor hm s).bindStop ?_))
  refine Runs.bindStop (a := (v, fl)) (s1 := s) (show Runs (f x y (thirdOf q o third e) 0) s _ s from hf ▸ Runs.pure _ s) ?_
  dsimp only
  rw [noFlags_or]
  exact (StopsWith.raiseFlags hfl).bind

end

/-! The end (R34, R36, R470). -/

/-- A brick whose elements stand is pending, and ESTART is 0. -/
def Seq.brickSent (d : Reg) (es : List Nat) (cycle : Nat) (q : Seq) : Seq := { q.sentBrick d es cycle with estart := 0 }

theorem Runs.brickSent (d : Reg) (es : List Nat) (t : State) :
    Runs (do
      Machine.brickPending d es
      Machine.clearEstart) t () (t.modSeq t.cur (·.brickSent d es t.cycle)) :=
  Runs.modMe_then (f := (·.sentBrick d es t.cycle)) t Runs.clearEstart

/-- The first of several steps that stops stops them all. -/
theorem StopsWith.forEach_cons {α : Type} {f : α → M Unit} {a : α} {l : List α} {st : Stop} (h : StopsWith (f a) s st t) :
    StopsWith (Machine.forEach (a :: l) f) s st t := by
  rw [Machine.forEach, List.foldlM_cons]
  exact h.bind

/-- What an instruction does after it has read its sequencer, it does with the sequencer as it stands. -/
theorem execNext_mySeq {m : Seq → M Unit} (s : State) : execNext (mySeq >>= m) s = execNext (m s.self) s := by
  simp only [execNext, execSeq, run_bind, show mySeq.run.run s = (.ok s.self, s) from rfl]

end

end Sys2Proof.Machine
end

section
/-! PROOFS. Element instructions (O46). -/

namespace Sys2Proof.Machine

section
variable {s t : State} {o : VArgs}

/-! The common mould (R273 to R278). -/

/-- An operation that gives a result, or stops at a zero divisor (R280). -/
def guarded (ok : Nat → Bool) (g : Nat → Nat → Nat → Nat → Nat × Flags) (x y z r : Nat) : M (Nat × Flags) :=
  if ok y then pure (g x y z r) else stopTrap { cause := 0x19 }

/-- A result put in its element of b[D]. -/
def putElem (o : VArgs) (e v : Nat) : M Unit := modMe (·.setElem o.d.toNat e (BitVec.ofNat 64 v))

/-- A source can go to memory. -/
def State.reachesFar (s : State) (o : VArgs) (binary : Bool) : Bool :=
  s.self.reachesMem o.sa.reg.toNat o.offA || (s.secondIf o binary).reachesMem s.self

/-- What an element instruction leaves of its sequencer once its elements are done: b[D] is pending if a source could go to memory
(R34, R36), and ESTART is 0. -/
def elementsDone (far : Bool) (o : VArgs) (es : List Nat) (cycle : Nat) (q : Seq) : Seq :=
  if far then q.brickSent o.d es cycle else { q with estart := 0 }

theorem Runs.elementsDone (far : Bool) (es : List Nat) (t : State) :
    Runs (do
      if far then Machine.brickPending o.d es
      Machine.clearEstart) t () (t.modSeq t.cur (elementsDone far o es t.cycle)) := by
  cases far with
  | false => exact Runs.clearEstart t
  | true => exact Runs.brickSent o.d es t

section
variable {binary third : Bool} {mode : Rnd} {f : Nat → Nat → Nat → Nat → M (Nat × Flags)}
  (ht : s.self.typed o.ty) (ha : s.reachFull o.sa.reg o.offA) (hd : s.full .brick o.d) (hb : binary = true → s.secondFull o)
  (hc : third = true → s.full .brick o.sc.reg)
include hc

theorem Runs.needThird : Runs (if third then Machine.needBrick o.sc else Pure.pure ()) s () s :=
  .ite (fun h => Runs.needBrick (hc h)) fun _ => Runs.pure _ s

include ht ha hd hb

/-- An element instruction whose elements are done falls through. -/
theorem execNext_elementOp (h : RunsAll (elementStep (s.ctx s.cur) s.self o (s.secondIf o binary) third mode f (putElem o))
      (s.brickElems o) s t) :
    execNext (elementOp o binary third mode f) s = .next (t.fell (elementsDone (s.reachesFar o binary) o (s.brickElems o) t.cycle)) :=
  execNext_modMe_last (Runs.allOrWait ((Runs.needType ht).bind ((Runs.needSource ha).bind ((Runs.secondOf hb).bind
    (.whenThen (Runs.needThird hc) ((Runs.needWritable hd).bind ((Runs.mySeq s).bind ((Runs.myCtx s).bind
      ((Runs.forEach h).bind (Runs.elementsDone _ _ t))))))))))

/-- One whose first element stops takes its trap. -/
theorem execNext_elementOp_trap {e : Nat} {rest : List Nat} {k : Trap} (hes : s.brickElems o = e :: rest)
    (h : StopsWith (elementStep (s.ctx s.cur) s.self o (s.secondIf o binary) third mode f (putElem o) e) s (.trap k) s) :
    execNext (elementOp o binary third mode f) s = .next (s.trapped k) := by
  have hloop := StopsWith.forEach_cons (l := rest) h
  rw [← hes] at hloop
  exact execNext_trap (StopsWith.allOrWait_trap ((Runs.needType ht).bindStop ((Runs.needSource ha).bindStop ((Runs.secondOf hb).bindStop
    (.whenThen (Runs.needThird hc) ((Runs.needWritable hd).bindStop ((Runs.mySeq s).bindStop ((Runs.myCtx s).bindStop
      hloop.bind))))))))

end

/-! Operands that stay in registers. -/

/-- Every element has its operands without going to memory. -/
def State.reads (s : State) (o : VArgs) (binary : Bool) (x y : Nat → Nat) : Prop :=
  (∀ e ∈ s.brickElems o, s.self.readAt o.ty o.sa.reg.toNat o.offA e = some (x e)) ∧
  ∀ e ∈ s.brickElems o, binary = true → (s.second o).gives s.self o.ty e (y e)

theorem State.reads.elementRead {binary : Bool} {x y : Nat → Nat} {e : Nat} (h : s.reads o binary x y) (he : e ∈ s.brickElems o)
    (c : Ctx) : elementRead c s.self o (s.secondIf o binary) e (x e) (if binary then y e else 0) :=
  ⟨h.1 e he, Runs.readSecond (h.2 e he)⟩

/-- The result of an element of the mould, and its flags. -/
def elementValue (q : Seq) (o : VArgs) (binary third : Bool) (g : Nat → Nat → Nat → Nat → Nat × Flags) (x y : Nat → Nat)
    (e : Nat) : Nat × Flags := g (x e) (if binary then y e else 0) (thirdOf q o third e) 0

/-- Element e with its result in b[D], its flags merged. -/
def Seq.committed (q : Seq) (o : VArgs) (v : Nat → Nat × Flags) (e : Nat) : Seq :=
  (q.mergeFlags (v e).2).setElem o.d.toNat e (BitVec.ofNat 64 (v e).1)

section
variable {binary third : Bool} {mode : Rnd} {ok : Nat → Bool} {g : Nat → Nat → Nat → Nat → Nat × Flags} {x y : Nat → Nat}

/-- Elements none of which stops become their results, and their flags are merged. -/
theorem RunsAll.elementSteps {c : Ctx} (hr : s.reads o binary x y) (hm : mode ≠ .rsr)
    (hok : ∀ e ∈ s.brickElems o, ok (if binary then y e else 0) = true)
    (hfl : ∀ e ∈ s.brickElems o, (elementValue s.self o binary third g x y e).2 &&& s.self.enables = 0) :
    ∃ t, RunsAll (elementStep c s.self o (s.secondIf o binary) third mode (guarded ok g) (putElem o)) (s.brickElems o) s t ∧
      s.Becomes (fun q => (s.brickElems o).foldl (fun q e => q.committed o (elementValue s.self o binary third g x y) e) q) t := by
  refine RunsAll.becomes (P := fun q => q.enables = s.self.enables) _ (fun e he u hu => ⟨?_, ?_⟩) rfl
  · exact (Seq.enables_mergeFlags _ _).trans hu
  · have hf : guarded ok g (x e) (if binary then y e else 0) (thirdOf s.self o third e) 0 =
        pure (elementValue s.self o binary third g x y e) := if_pos (hok e he)
    exact Runs.elementStep (put := putElem o) (hr.elementRead he c) hm hf (by rw [hu]; exact hfl e he) fun u => Runs.modMe _ u

end

section
variable {binary third : Bool} {mode : Rnd} {ok : Nat → Bool} {g : Nat → Nat → Nat → Nat → Nat × Flags} {x y : Nat → Nat}
  (ht : s.self.typed o.ty) (ha : s.reachFull o.sa.reg o.offA) (hd : s.full .brick o.d) (hb : binary = true → s.secondFull o)
  (hc : third = true → s.full .brick o.sc.reg) (hr : s.reads o binary x y) (hm : mode ≠ .rsr)
include ht ha hd hb hc hr hm

/-- No zero divisor and no enabled flag: the elements are written, and nothing else changes but the flags and ESTART. -/
theorem execNext_elementOp_registers (hfar : s.reachesFar o binary = false)
    (hok : ∀ e ∈ s.brickElems o, ok (if binary then y e else 0) = true)
    (hfl : ∀ e ∈ s.brickElems o, (elementValue s.self o binary third g x y e).2 &&& s.self.enables = 0) :
    execNext (elementOp o binary third mode (guarded ok g)) s = .next (s.fell fun q =>
      { (s.brickElems o).foldl (fun q e => q.committed o (elementValue s.self o binary third g x y) e) q with estart := 0 }) := by
  obtain ⟨t, hrun, hbec⟩ := RunsAll.elementSteps hr hm hok hfl
  rw [execNext_elementOp ht ha hd hb hc hrun, hbec.fell, hfar]
  rfl

/-- A zero divisor at the first active element stops there (R280). -/
theorem execNext_elementOp_divides {e : Nat} {rest : List Nat} (hes : s.brickElems o = e :: rest)
    (hok : ok (if binary then y e else 0) = false) :
    execNext (elementOp o binary third mode (guarded ok g)) s = .next (s.trapped { cause := 0x19, estart := some e }) :=
  execNext_elementOp_trap ht ha hd hb hc hes (StopsWith.elementStep (k := { cause := 0x19 })
    (hr.elementRead (hes ▸ List.mem_cons_self) _) hm (if_neg (Bool.eq_false_iff.1 hok)))

/-- An enabled flag at the first active element stops there (R84). -/
theorem execNext_elementOp_flags {e : Nat} {rest : List Nat} (hes : s.brickElems o = e :: rest)
    (hok : ok (if binary then y e else 0) = true)
    (hfl : (elementValue s.self o binary third g x y e).2 &&& s.self.enables ≠ 0) :
    execNext (elementOp o binary third mode (guarded ok g)) s =
      .next (s.trapped (floatTrap (elementValue s.self o binary third g x y e).2 e)) :=
  execNext_elementOp_trap ht ha hd hb hc hes (StopsWith.elementStep_flags (hr.elementRead (hes ▸ List.mem_cons_self) _) hm
    (if_pos hok) hfl)

end

/-! The operations (R279 to R301). -/

section
variable {binary : Bool}

/-- A division (R280). -/
theorem guarded_ne_zero (g : Nat → Nat → Nat → Nat → Nat × Flags) :
    guarded (fun y => y != 0) g = fun x y z r => if y = 0 then elemDivideTrap else pure (g x y z r) := by
  funext x y z r
  unfold guarded
  by_cases h : y = 0
  · rw [if_pos h, if_neg (by simp [h])]
    rfl
  · rw [if_neg h, if_pos (by simpa using h)]

theorem execNext_vint (F : Int → Int → Int) (s : State) :
    execNext (vint o binary F) s = execNext (elementOp o binary false .rne
      (guarded (fun _ => true) fun x y _ _ => (wrap o.ty.width (F (intOf o.ty x) (intOf o.ty y)), 0))) s := rfl

theorem execNext_vbits (F : Nat → Nat → Nat) (s : State) :
    execNext (vbits o binary F) s = execNext (elementOp o binary false .rne
      (guarded (fun _ => true) fun x y _ _ => (F x y % 2 ^ o.ty.width, 0))) s := rfl

theorem execNext_vapx (op : Approx) (s : State) :
    execNext (vapx o op) s = execNext (elementOp o false false .rne
      (guarded (fun _ => true) fun x _ _ _ => approxOf op (Ty.fmt o.ty) x)) s := rfl

theorem execNext_vflt (F : NFmt → Nat → Nat → Rnd → Nat × Flags) (s : State) :
    execNext (vflt o binary F) s = execNext (elementOp o binary false (s.self.mode o.rnd false)
      (guarded (fun _ => true) fun x y _ _ => F (Ty.fmt o.ty) x y (s.self.mode o.rnd false))) s := execNext_mySeq s

theorem execNext_vfused (negProd negC : Bool) (s : State) :
    execNext (vfused o negProd negC) s = execNext (elementOp o true true (s.self.mode o.rnd false) (guarded (fun _ => true)
      fun x y z _ => fpFma (Ty.fmt o.ty) negProd negC x y z (s.self.mode o.rnd false))) s := execNext_mySeq s

theorem exec_vmov (s : State) : exec (.vmov o) s =
    execNext (elementOp o false false .rne (guarded (fun _ => true) fun x _ _ _ => (x, 0))) s := rfl

theorem exec_vdiv (s : State) : exec (.vdiv o) s = execNext (elementOp o true false .rne (guarded (fun y => y != 0)
    fun x y _ _ => (wrap o.ty.width (Int.tdiv (intOf o.ty x) (intOf o.ty y)), 0))) s := by
  rw [guarded_ne_zero]
  rfl

theorem exec_vrem (s : State) : exec (.vrem o) s = execNext (elementOp o true false .rne (guarded (fun y => y != 0)
    fun x y _ _ => (wrap o.ty.width (Int.tmod (intOf o.ty x) (intOf o.ty y)), 0))) s := by
  rw [guarded_ne_zero]
  rfl

/-- The conversions (R290 to R293): `vcvtn` alone accepts stochastic rounding, with the draw of its element. -/
theorem exec_vcvtn (s : State) : exec (.vcvtn o) s = execNext (elementOp o false false (s.self.mode o.rnd true)
    (guarded (fun _ => true) fun x _ _ r => convert (Ty.fmt (otherTy o)) (Ty.fmt o.ty) x (s.self.mode o.rnd true) r)) s :=
  execNext_mySeq (m := fun q => elementOp o false false (q.mode o.rnd true) fun x _ _ r =>
    pure (convert (Ty.fmt (otherTy o)) (Ty.fmt o.ty) x (q.mode o.rnd true) r)) s

theorem exec_vcvtw (s : State) : exec (.vcvtw o) s = execNext (elementOp o false false .rne (guarded (fun _ => true)
    fun x _ _ _ => convert (Ty.fmt o.ty) (Ty.fmt (otherTy o)) (x % 2 ^ (otherTy o).width) .rne 0)) s := rfl

theorem exec_vcvti (s : State) : exec (.vcvti o) s = execNext (elementOp o false false (s.self.mode o.rnd false)
    (guarded (fun _ => true) fun x _ _ _ => convert (Ty.fmt o.ty) (Ty.fmt (otherTy o)) x (s.self.mode o.rnd false) 0)) s :=
  execNext_mySeq (m := fun q => elementOp o false false (q.mode o.rnd false) fun x _ _ _ =>
    pure (convert (Ty.fmt o.ty) (Ty.fmt (otherTy o)) x (q.mode o.rnd false) 0)) s

/-- A number modulo 2^w. -/
theorem wrap_natCast (w n : Nat) : wrap w (n : Int) = n % 2 ^ w := by
  rw [wrap, ← Int.natCast_emod, Int.toNat_natCast]

end

/-! Comparisons (R281). -/

/-- The step of one element of a comparison. -/
def compareStep (s : State) (o : VArgs) (f : Nat → Nat → Bool × Flags) : Nat → M Unit :=
  elementStep (s.ctx s.cur) s.self o (s.second o) false .rne (fun x y _ _ => pure (if (f x y).1 then 1 else 0, (f x y).2))
    fun e v => modMe fun k => k.setMask o.d.toNat (setBits (k.mask o.d.toNat) [(e, v == 1)])

/-- The bit of one element of a comparison, and its flags. -/
def Seq.compared (q : Seq) (o : VArgs) (v : Nat → Bool × Flags) (e : Nat) : Seq :=
  (q.mergeFlags (v e).2).setMask o.d.toNat (setBits (q.mask o.d.toNat) [(e, (v e).1)])

theorem Seq.enables_setMask (q : Seq) (i : Nat) (m : BitVec 8192) : (q.setMask i m).enables = q.enables := by
  rw [Seq.setMask_eq]
  rfl

section
variable {x y : Nat → Nat} {f : Nat → Nat → Bool × Flags}

theorem RunsAll.compareSteps (hr : s.reads o true x y)
    (hfl : ∀ e ∈ s.brickElems o, (f (x e) (y e)).2 &&& s.self.enables = 0) :
    ∃ t, RunsAll (compareStep s o f) (s.brickElems o) s t ∧
      s.Becomes (fun q => (s.brickElems o).foldl (fun q e => q.compared o (fun e => f (x e) (y e)) e) q) t := by
  refine RunsAll.becomes (P := fun q => q.enables = s.self.enables) _ (fun e he u hu => ⟨?_, ?_⟩) rfl
  · exact ((Seq.enables_setMask _ _ _).trans (Seq.enables_mergeFlags _ _)).trans hu
  · obtain ⟨t, hrun, hb⟩ := Runs.elementStep (third := false)
      (f := fun x y _ _ => pure (if (f x y).1 then 1 else 0, (f x y).2)) (v := if (f (x e) (y e)).1 then 1 else 0)
      (put := fun e v => modMe fun k => k.setMask o.d.toNat (setBits (k.mask o.d.toNat) [(e, v == 1)]))
      (hr.elementRead he (s.ctx s.cur)) (nofun : Rnd.rne ≠ .rsr) rfl (by rw [hu]; exact hfl e he) fun u => Runs.modMe _ u
    refine ⟨t, hrun, ?_⟩
    have hbit : ((if (f (x e) (y e)).1 then 1 else 0) == 1) = (f (x e) (y e)).1 := by
      cases (f (x e) (y e)).1 <;> rfl
    rw [hbit] at hb
    exact hb

/-- A comparison none of whose flags is enabled writes its bits, and clears those at VL and above. -/
theorem execNext_elementCmp (ht : s.self.typed o.ty) (ha : s.reachFull o.sa.reg o.offA) (hb : s.secondFull o)
    (hr : s.reads o true x y) (hfl : ∀ e ∈ s.brickElems o, (f (x e) (y e)).2 &&& s.self.enables = 0) :
    execNext (elementCmp o fun x y => pure (f x y)) s = .next (s.fell fun q =>
      { ((s.brickElems o).foldl (fun q e => q.compared o (fun e => f (x e) (y e)) e) q).trimMask o.d.toNat with estart := 0 }) := by
  obtain ⟨t, hrun, hbec⟩ := RunsAll.compareSteps hr hfl
  have hend := Runs.clearEstart (t.modSeq t.cur (·.trimMask o.d.toNat))
  rw [show execNext (elementCmp o fun x y => pure (f x y)) s = _ from execNext_modMe_last (Runs.allOrWait ((Runs.needType ht).bind
    ((Runs.needSource ha).bind ((Runs.secondOf fun _ => hb).bind ((Runs.mySeq s).bind ((Runs.myCtx s).bind ((Runs.forEach hrun).bind
      ((Runs.modMe _ t).bind hend)))))))), State.fell_modSeq, hbec.fell]

end

/-! `vsel` (R282). -/

/-- The step of one element of a `vsel`. -/
def selectStep (s : State) (o : VArgs) (e : Nat) : M Unit := atElement e do
  let (x, f) ← readOff (s.ctx s.cur) s.self o.ty o.sa.reg.toNat o.offA e
  let (y, g) ← readSecond (s.ctx s.cur) s.self o.ty (s.second o) e
  raiseFlags (f ||| g) e
  modMe (·.setElem o.d.toNat e (BitVec.ofNat 64 (if (s.self.mask o.msel.toNat).getLsbD e then x else y)))

section
variable {x y : Nat → Nat}

theorem Runs.selectStep {u : State} {e : Nat} {x y : Nat} (hx : s.self.readAt o.ty o.sa.reg.toNat o.offA e = some x)
    (hy : (s.second o).gives s.self o.ty e y) : Runs (selectStep s o e) u () (u.modSeq u.cur
      (·.setElem o.d.toNat e (BitVec.ofNat 64 (if (s.self.mask o.msel.toNat).getLsbD e then x else y)))) := by
  have hflags : Runs (Machine.raiseFlags 0 e) u () u := Runs.raiseFlags BitVec.zero_and
  exact Runs.atElement ((Runs.readOff hx u).bind ((Runs.readSecond (binary := true) (fun _ => hy) u).bind
    (hflags.bind (Runs.modMe _ u))))

theorem exec_vsel (ht : s.self.typed o.ty) (ha : s.reachFull o.sa.reg o.offA) (hb : s.secondFull o) (hd : s.full .brick o.d)
    (hfar : s.reachesFar o true = false)
    (hr : ∀ e ∈ s.self.activeFrom false 0, s.self.readAt o.ty o.sa.reg.toNat o.offA e = some (x e) ∧
      (s.second o).gives s.self o.ty e (y e)) :
    exec (.vsel o) s = .next (s.fell fun q => { (s.self.activeFrom false 0).foldl (fun k e => k.setElem o.d.toNat e
      (BitVec.ofNat 64 (if (q.mask o.msel.toNat).getLsbD e then x e else y e))) q with estart := 0 }) := by
  obtain ⟨t, hrun, hbec⟩ := Runs.forEach_becomes (step := selectStep s o) (s.self.activeFrom false 0)
    (fun e he u => Runs.selectStep (hr e he).1 (hr e he).2) s
  rw [show exec (.vsel o) s = _ from execWhole_modMe ((Runs.needType ht).bind ((Runs.needSource ha).bind
    ((Runs.secondOf fun _ => hb).bind ((Runs.needWritable hd).bind ((Runs.mySeq s).bind ((Runs.myCtx s).bind
      (hrun.bind (Runs.elementsDone (s.reachesFar o true) (s.self.activeFrom false 0) t)))))))), hbec.fell, hfar]
  exact congrArg _ (State.fell_congr rfl)

end

end

/-- Settles O46: one mould gives every element instruction its results, its flags and its stops; comparisons and `vsel` read the same
sources. -/
theorem elementArithmetic : Obligations.ElementArithmetic := by
  intro o s ht ha q c es w i f m mn b bFull bGives mould
  have is {k : Instr} {binary third : Bool} {mode : Rnd} {ok : Nat → Bool} {g : Nat → Nat → Nat → Nat → Nat × Flags}
      (hk : exec k s = execNext (elementOp o binary third mode (guarded ok g)) s) (hu : binary = false → ∀ n, ok n = true) :
      mould k binary third mode ok g := by
    intro hd hb hc
    rw [hk]
    refine ⟨?_, fun s1 h => ?_⟩
    · intro x y hfar hm hx hy v
      have hr : s.reads o binary x y := ⟨hx, hy⟩
      have hok (e : Nat) : ok (if binary then y e else 0) = ok (y e) := by
        cases binary with
        | false => rw [hu rfl, hu rfl]
        | true => rfl
      refine ⟨fun h => ?_, fun e rest hes hbin hz => ?_, fun e rest hes hone hfl => ?_⟩
      · exact execNext_elementOp_registers ht ha hd hb hc hr hm hfar (fun e he => (hok e).trans (h e he).1) fun e he => (h e he).2
      · exact execNext_elementOp_divides ht ha hd hb hc hr hm hes ((hok e).trans hz)
      · exact execNext_elementOp_flags ht ha hd hb hc hr hm hes ((hok e).trans hone) hfl
    · exact execNext_elementOp ht ha hd hb hc h
  have vint {k : Instr} {binary : Bool} (F : Int → Int → Int) (hk : exec k s = execNext (Machine.vint o binary F) s) :
      mould k binary false .rne (fun _ => true) (fun x y _ _ => (wrap w (F (i x) (i y)), 0)) :=
    is (hk.trans (execNext_vint F s)) fun _ _ => rfl
  have vbits {k : Instr} {binary : Bool} (F : Nat → Nat → Nat) (hk : exec k s = execNext (Machine.vbits o binary F) s) :
      mould k binary false .rne (fun _ => true) (fun x y _ _ => (F x y % 2 ^ w, 0)) :=
    is (hk.trans (execNext_vbits F s)) fun _ _ => rfl
  have vflt {k : Instr} {binary : Bool} (F : NFmt → Nat → Nat → Rnd → Nat × Flags)
      (hk : exec k s = execNext (Machine.vflt o binary F) s) :
      mould k binary false m (fun _ => true) (fun x y _ _ => F f x y m) := is (hk.trans (execNext_vflt F s)) fun _ _ => rfl
  have vfused {k : Instr} (negProd negC : Bool) (hk : exec k s = execNext (Machine.vfused o negProd negC) s) :
      mould k true true m (fun _ => true) (fun x y z _ => fpFma f negProd negC x y z m) :=
    is (hk.trans (execNext_vfused negProd negC s)) fun _ _ => rfl
  have vapx {k : Instr} (op : Approx) (hk : exec k s = execNext (Machine.vapx o op) s) :
      mould k false false .rne (fun _ => true) (fun x _ _ _ => approxOf op f x) := is (hk.trans (execNext_vapx op s)) fun _ _ => rfl
  have vcount {k : Instr} (F : Nat → Nat) (hk : exec k s = execNext (Machine.vbits o false fun a _ => F a) s) :
      mould k false false .rne (fun _ => true) (fun x _ _ _ => (wrap w (F x : Int), 0)) := by
    simp only [wrap_natCast]
    exact vbits (fun a _ => F a) hk
  refine ⟨vint (· + ·) rfl, vint (· - ·) rfl, vint (· * ·) rfl, vint (fun a b => a * b / ((2 ^ w : Nat) : Int)) rfl,
    vint (fun a b => if a ≤ b then a else b) rfl, vint (fun a b => if a ≤ b then b else a) rfl, vint (fun a _ => (a.natAbs : Int)) rfl,
    vbits (· &&& ·) rfl, vbits (· ||| ·) rfl, vbits (· ^^^ ·) rfl, vbits (fun a b => a * 2 ^ (b % w)) rfl,
    vbits (fun a b => a / 2 ^ (b % w)) rfl, vbits (fun a b => wrap w (sext w a / ((2 ^ (b % w) : Nat) : Int))) rfl,
    vint (fun a b => clampTo o.ty (a + b)) rfl, vint (fun a b => clampTo o.ty (a - b)) rfl, vcount (clzOf w) rfl, vcount (popOf w) rfl,
    is (exec_vmov s) fun _ _ => rfl, is (exec_vdiv s) nofun, is (exec_vrem s) nofun,
    vflt fpAdd rfl, vflt fpSub rfl, vflt fpMul rfl, vflt fpDiv rfl, vflt (fun f a _ m => fpSqrt f a m) rfl,
    vflt (fun f a b _ => fpMinMax f false a b) rfl, vflt (fun f a b _ => fpMinMax f true a b) rfl,
    vflt (fun f a _ _ => (fpAbs f a, 0)) rfl, vflt (fun f a _ _ => (fpNeg f a, 0)) rfl, vflt (fun f a _ _ => (fpClass f a, 0)) rfl,
    vfused false false rfl, vfused false true rfl, vfused true true rfl, vfused true false rfl,
    is (exec_vcvtn s) fun _ _ => rfl, is (exec_vcvtw s) fun _ _ => rfl, is (exec_vcvti s) fun _ _ => rfl,
    vapx .rcp rfl, vapx .rsq rfl, vapx .exp2 rfl, vapx .log2 rfl, ?_,
    fun x y hb hd hfar hxy => exec_vsel (x := x) (y := y) ht ha hb hd hfar hxy⟩
  intro x y hb hxy compares
  have hr : s.reads o true x y := ⟨fun e he => (hxy e he).1, fun e he _ => (hxy e he).2⟩
  exact ⟨execNext_elementCmp ht ha hb (f := fun x y => (intCond (condOf o) (i x) (i y), 0)) hr,
    execNext_elementCmp ht ha hb (f := fpCmp f (condOf o)) hr⟩

end Sys2Proof.Machine
end

section
/-! PROOFS. `vq4` and the reductions (O47): R294 to R298. -/

namespace Sys2Proof.Machine

section
variable {s t : State} {o : VArgs}

/-! `vq4` (R294, R295). -/

/-- The whole groups of a `vq4`, from ESTART. -/
def Seq.quantGroups (q : Seq) : List Nat := upFrom (q.estart.toNat / 16) (q.vl / 16 - q.estart.toNat / 16)

section
variable (ht : s.self.typed o.ty) (ha : s.full .brick o.sa.reg) (hd : s.full .brick o.d) (hd' : s.full .brick (o.d + 1))
  (he : s.self.estart.toNat % 16 = 0) (h : RunsAll (quantGroup o (s.self.mode o.rnd true)) s.self.quantGroups s t)
include ht ha hd hd' he h

theorem exec_vq4_whole (hv : s.self.vl % 16 = 0) : exec (.vq4 o) s = .next (t.fell fun q => { q with estart := 0 }) :=
  execNext_modMe_last ((Runs.needType ht).bind ((Runs.needBrick ha).bind ((Runs.needWritable hd).bind ((Runs.needWritable hd').bind
    ((Runs.mySeq s).bind (.ite_neg (not_not_intro he) ((Runs.forEach h).bind (.ite_neg (not_not_intro hv) (Runs.clearEstart t)))))))))

/-- Elements past the last whole group stop it there (R295). -/
theorem exec_vq4_rest (hv : s.self.vl % 16 ≠ 0) :
    exec (.vq4 o) s = .next (t.trapped { cause := 0x0C, estart := some (16 * (s.self.vl / 16)) }) :=
  execNext_trap ((Runs.needType ht).bindStop ((Runs.needBrick ha).bindStop ((Runs.needWritable hd).bindStop
    ((Runs.needWritable hd').bindStop ((Runs.mySeq s).bindStop (.ite_neg (not_not_intro he) ((Runs.forEach h).bindStop
      (.ite_pos hv (StopsWith.stopTrap (quantTrap (16 * (s.self.vl / 16))) t).bind))))))))

end

/-! The sources of a reduction (R298). -/

/-- A fold whose steps leave the state. -/
theorem Runs.foldlM_same {α β : Type} {step : β → α → M β} {f : β → α → β} (l : List α)
    (h : ∀ a ∈ l, ∀ b, Runs (step b a) s (f b a) s) (b : β) : Runs (l.foldlM step b) s (l.foldl f b) s := by
  induction l generalizing b with
  | nil => exact Runs.pure b s
  | cons a l ih =>
    rw [List.foldlM_cons]
    exact (h a List.mem_cons_self b).bind (ih (fun a' h' => h a' (List.mem_cons_of_mem a h')) (f b a))

theorem Runs.stopTrapAt {α : Type} {m : M α} {a : α} {e : Nat} (h : Runs m s a t) : Runs (reduceSources.stopTrapAt e m) s a t := by
  unfold Runs at *
  unfold reduceSources.stopTrapAt
  rw [run_tryCatch, h]

/-- Elements with their values, none with a flag, gathered one after another. -/
theorem foldl_gather (x : Nat → Nat) (l : List Nat) (acc : List (Nat × Nat)) :
    l.foldl (fun (acc : List (Nat × Nat) × Flags) e => (acc.1 ++ [(e, x e)], acc.2 ||| 0)) (acc, 0) =
      (acc ++ l.map fun e => (e, x e), 0) := by
  induction l generalizing acc with
  | nil => simp
  | cons e l ih =>
    rw [List.foldl_cons, BitVec.or_self, ih, List.append_assoc]
    rfl

/-- The active elements with their values. -/
def State.reduced (s : State) (o : VArgs) (x : Nat → Nat) : List (Nat × Nat) := (s.self.activeAll o.me o.msel).map fun e => (e, x e)

/-- The first operand of a reduction has each active element without going to memory. -/
def State.reduceReads (s : State) (o : VArgs) (x : Nat → Nat) : Prop :=
  ∀ e ∈ s.self.activeAll o.me o.msel, s.self.readAt o.ty o.sa.reg.toNat o.offA e = some (x e)

theorem Runs.reduceSources {x : Nat → Nat} (hx : s.reduceReads o x) : Runs (reduceSources o) s (s.reduced o x, 0) s := by
  refine (Runs.mySeq s).bind ((Runs.myCtx s).bind ?_)
  have hfold := Runs.foldlM_same (s := s) (s.self.activeAll o.me o.msel)
    (step := fun (acc : List (Nat × Nat) × Flags) e => do
      let (v, fl) ← Machine.reduceSources.stopTrapAt e (Machine.readOff (s.ctx s.cur) s.self o.ty o.sa.reg.toNat o.offA e)
      if fl &&& s.self.enables != 0 then Machine.stopTrap (floatTrap fl e)
      return (acc.1 ++ [(e, v)], acc.2 ||| fl))
    (fun e he acc => (Runs.readOff (hx e he) s).stopTrapAt.bind (.ite_neg (by simp) (Runs.pure _ s))) ([], 0)
  rw [foldl_gather] at hfold
  exact hfold

/-! The reductions (R296 to R298). -/

/-- What a reduction leaves in b[D][0], and its flags. -/
def reducedTo (o : VArgs) (r : Nat × SumFlags) (q : Seq) : Seq :=
  { (q.mergeFlags r.2.all).setElem o.d.toNat 0 (BitVec.ofNat 64 r.1) with estart := 0 }

theorem Runs.reduceEnd {r : Nat × SumFlags} (h : r.2.trap = none) (s : State) : Runs (reduceEnd o 0 r false) s () (s.modSeq s.cur fun q =>
    (q.mergeFlags r.2.all).setElem o.d.toNat 0 (BitVec.ofNat 64 r.1)) := by
  unfold Machine.reduceEnd
  rw [h, BitVec.ofNat_eq_ofNat, BitVec.zero_or]
  have hput := Runs.modMe (·.setElem o.d.toNat 0 (BitVec.ofNat 64 r.1)) (s.modSeq s.cur (·.mergeFlags r.2.all))
  rw [show (s.modSeq s.cur (·.mergeFlags r.2.all)).cur = s.cur from rfl, State.modSeq_modSeq] at hput
  exact (Runs.modMe _ s).bind (hput.bind (.ite_neg (by decide) (Runs.pure _ _)))

theorem StopsWith.reduceEnd {r : Nat × SumFlags} {fl halo : Flags} {far : Bool} (h : r.2.trap = some fl) (s : State) :
    StopsWith (reduceEnd o halo r far) s (.trap (floatTrap fl 0)) s := by
  unfold Machine.reduceEnd
  rw [h]
  exact StopsWith.stopTrap _ s

section
variable {initial : Bool} {f : Seq → Nat → List (Nat × Nat) → Nat × SumFlags} {x : Nat → Nat} {r : Nat × SumFlags}

/-- The initial value of a reduction. -/
def State.initialOf (s : State) (o : VArgs) (initial : Bool) : Nat :=
  if initial then (s.self.elem o.sb.reg.toNat 0).toNat % 2 ^ o.ty.width else 0

variable (ht : s.self.typed o.ty) (ha : s.reachFull o.sa.reg o.offA) (hd : s.full .brick o.d)
  (hb : initial = true → s.full .brick o.sb.reg)
include hb

theorem Runs.needInitial : Runs (if initial then Machine.needBrick o.sb else Pure.pure ()) s () s :=
  .ite (fun h => Runs.needBrick (hb h)) fun _ => Runs.pure _ s

include ht ha hd

/-- With VL 0 nothing is written (R298). -/
theorem execNext_reduce_none (hv : s.self.vl = 0) :
    execNext (reduce o initial f) s = .next (s.fell fun q => { q with estart := 0 }) :=
  execNext_modMe_last ((Runs.needType ht).bind ((Runs.needSource ha).bind (.whenThen (Runs.needInitial hb) ((Runs.needWritable hd).bind
    ((Runs.mySeq s).bind (.ite_neg (not_not_intro hv) (Runs.clearEstart s)))))))

variable (hx : s.reduceReads o x) (hv : s.self.vl ≠ 0)
  (hr : f s.self (s.initialOf o initial) (s.reduced o x) = r)
include hx hv hr

theorem execNext_reduce (hfar : s.self.reachesMem o.sa.reg.toNat o.offA = false) (h : r.2.trap = none) :
    execNext (reduce o initial f) s = .next (s.fell (reducedTo o r)) := by
  subst hr
  have hend := Runs.reduceEnd (o := o) h s
  rw [← hfar] at hend
  rw [show execNext (reduce o initial f) s = _ from execNext_modMe_last ((Runs.needType ht).bind ((Runs.needSource ha).bind
    (.whenThen (Runs.needInitial hb) ((Runs.needWritable hd).bind ((Runs.mySeq s).bind (.ite_pos hv ((Runs.reduceSources hx).bind
      (hend.bind (Runs.clearEstart _))))))))), State.fell_modSeq]
  rfl

/-- An enabled flag stops a reduction before it writes (R298). -/
theorem execNext_reduce_trap {fl : Flags} (h : r.2.trap = some fl) :
    execNext (reduce o initial f) s = .next (s.trapped (floatTrap fl 0)) := by
  subst hr
  exact execNext_trap ((Runs.needType ht).bindStop ((Runs.needSource ha).bindStop (.whenThen (Runs.needInitial hb)
    ((Runs.needWritable hd).bindStop ((Runs.mySeq s).bindStop (.ite_pos hv ((Runs.reduceSources hx).bindStop
      (StopsWith.reduceEnd h s).bind)))))))

end

/-! The elements that a reduction folds. -/

theorem State.reduced_values (s : State) (o : VArgs) (x : Nat → Nat) :
    (s.reduced o x).map (·.2) = (s.self.activeAll o.me o.msel).map x := by
  rw [State.reduced, List.map_map]
  rfl

/-- The value of an element in a list of elements with their values. -/
theorem get?_map_pair (x : Nat → Nat) (l : List Nat) (k : Nat) :
    NMap.get? (l.map fun e => (e, x e)) k = if k ∈ l then some (x k) else none := by
  induction l with
  | nil => rfl
  | cons e l ih =>
    rw [List.map_cons, NMap.get?, ih]
    by_cases h : k = e
    · simp [h]
    · simp [h]

/-- The leaves of a tree sum: an element that does not take part is skipped in its place (R297). -/
theorem treeLeaves_reduced (s : State) (o : VArgs) (x : Nat → Nat) (n : Nat) : treeLeaves n (s.reduced o x) =
    (List.range n).map fun e => if e ∈ s.self.activeAll o.me o.msel then some (x e) else none := by
  simp only [treeLeaves, State.reduced, get?_map_pair]

/-! Each reduction as its fold. -/

theorem exec_vredo (s : State) : exec (.vredo o) s = execNext (reduce o true fun q init l =>
    orderedSum (Ty.fmt o.ty) (q.mode o.rnd false) q.enables init ⟨0, none⟩ (l.map (·.2))) s := rfl

theorem exec_vredt (s : State) : exec (.vredt o) s = execNext (reduce o false fun q _ l =>
    treeSum (Ty.fmt o.ty) (q.mode o.rnd false) q.enables 14 ⟨0, none⟩ (treeLeaves q.vl l)) s := rfl

theorem exec_vredm (s : State) : exec (.vredm o) s = execNext (reduce o true fun q init l =>
    l.foldl (fun (acc : Nat × SumFlags) x => ((leastMost o.ty (o.vmod.getLsbD 1) acc.1 x.2).1,
      acc.2.note q.enables (leastMost o.ty (o.vmod.getLsbD 1) acc.1 x.2).2)) (init, ⟨0, none⟩)) s := rfl

theorem exec_vredb (s : State) : exec (.vredb o) s = execNext (reduce o true fun _ init l =>
    (l.foldl (fun a x => bitwise (bits o.vmod.toNat 1 2) a x.2) init, ⟨0, none⟩)) s := rfl

end

end Sys2Proof.Machine
end

section
/-! PROOFS. Accumulators and `mstep` (O47): R303, R313 to R315. -/

namespace Sys2Proof.Machine

section
variable {s t u : State} {o : MArgs}

theorem execSeq_trap {m : M Cont} {k : Trap} (h : StopsWith m s (.trap k) t) : execSeq m s = .next (t.trapped k) := execSeq_stop h

/-! `mcfg` (R313). -/

/-- A configuration taken, with what MTCFG shows of it. -/
def Seq.configured (q : Seq) (v : BitVec 512) (m : DWord) : Seq := { q with tcfg := v, mtcfg := m }

theorem Seq.sEmpty_configured (q : Seq) (v : BitVec 512) (m : DWord) : (q.configured v m).sEmpty = q.sEmpty := rfl

/-- A bad one leaves none in force. -/
def Seq.unconfigured (q : Seq) : Seq := { q with mtcfg := q.mtcfg &&& 0x7FFFFFFFFFFFFFFF }

/-- An `mcfg` once its record is read. -/
def takeConfig (o : MArgs) (v : BitVec 512) : M Unit := do
  match (Cfg.of v).reason with
  | none =>
    modMe (·.configured v (Cfg.of v).reg)
    writeLong o.d 0
  | some k =>
    modMe (·.unconfigured)
    writeLong o.d (BitVec.ofNat 64 (2 ^ 63 + k))

theorem Runs.takeConfig_good {v : BitVec 512} (hd : s.full .scalar o.d) (h : (Cfg.of v).reason = none) :
    Runs (takeConfig o v) s () ((s.modSeq s.cur (·.configured v (Cfg.of v).reg)).sent o.d 0) := by
  unfold takeConfig
  rw [h]
  exact .modMe_writeLong (Seq.sEmpty_configured _ _ _) hd

theorem Runs.takeConfig_bad {v : BitVec 512} {k : Nat} (hd : s.full .scalar o.d) (h : (Cfg.of v).reason = some k) :
    Runs (takeConfig o v) s () ((s.modSeq s.cur (·.unconfigured)).sent o.d (BitVec.ofNat 64 (2 ^ 63 + k))) := by
  unfold takeConfig
  rw [h]
  exact .modMe_writeLong rfl hd

theorem exec_mcfg {v : Nat} {f : Seq → Seq} {k : DWord} (ha : s.full .scalar o.sa.reg) (hd : s.full .scalar o.d)
    (hal : (s.self.scalar o.sa.reg).toNat % 2 ^ 56 % 64 = 0) (hl : s.loads ((s.self.scalar o.sa.reg).toNat % 2 ^ 56) 64 v t)
    (hrun : Runs (takeConfig o (BitVec.ofNat 512 v)) t () ((t.modSeq t.cur f).sent o.d k)) :
    exec (.mcfg o) s = .next (t.fell fun q => (f q).sentLong o.d k t.cycle) := by
  obtain ⟨l, p, s1, hplace, hload⟩ := hl
  exact execNext_modMe_sentLong ((Runs.readS ha).bind ((Runs.needWritable hd).bind (.ite_neg (not_not_intro hal)
    ((Runs.myCtx s).bind (hplace.bind (hload.bind hrun))))))

/-! Accumulators (R303, R412). -/

theorem Core.accOf_setAcc_self (c : Core) (i : Nat) (a : Accum) : (c.setAcc i a).accOf i = a := by
  unfold Core.setAcc Core.accOf
  by_cases h : i = 0 <;> simp [h]

/-- A core has two: the other is as before. -/
theorem Core.accOf_setAcc_of_other (c : Core) {i j : Nat} (a : Accum) (h : i = 0 ↔ j ≠ 0) : (c.setAcc j a).accOf i = c.accOf i := by
  unfold Core.setAcc Core.accOf
  by_cases hi : i = 0
  · simp [hi, h.1 hi]
  · have hj : j = 0 := Decidable.byContradiction fun hj => hi (h.2 hj)
    simp [hi, hj]

/-- An accumulator of the sequencer's core. -/
def State.accum (s : State) (i : Nat) : Accum := (s.core (coreOf s.cur)).accOf i

/-- An accumulator of the core written by its sequencer. -/
def State.putAccum (s : State) (i : Nat) (l : NMap Word) (full : Bool) : State :=
  s.modCore (coreOf s.cur) fun c => c.setAcc i { elems := l, full := full, writer := some s.self.uid }

theorem Runs.putAcc (i : Nat) (l : NMap Word) (full : Bool) (s : State) : Runs (putAcc i l full) s () (s.putAccum i l full) := rfl

theorem Runs.writeAcc (i : Nat) (l : NMap Word) (s : State) : Runs (writeAcc i l) s () (s.putAccum i l true) := rfl

theorem Runs.myAcc (i : Nat) (s : State) : Runs (myAcc i) s (s.accum i) s := rfl

/-! The configuration (R314). -/

theorem Runs.needCfg (h : s.self.mtcfg.getLsbD 63 = true) : Runs needCfg s (Cfg.of s.self.tcfg) s :=
  (Runs.mySeq s).bind (.ite_neg (by simp [h]) (Runs.pure _ s))

theorem StopsWith.needCfg (h : s.self.mtcfg.getLsbD 63 = false) :
    StopsWith needCfg s (.trap { cause := 0x05, tval := s.self.mtcfg }) s :=
  (Runs.mySeq s).bindStop (.ite_pos (by rw [h]; rfl) (StopsWith.stopTrap _ s).bind)

/-! `mstep` (R314, R315). -/

/-- The addresses of a step. -/
def State.stepAddrs (s : State) (o : MArgs) : StepAddrs :=
  let c := Cfg.of s.self.tcfg
  { a := (c.abase + (s.self.scalar o.sa.reg).toNat) % 2 ^ 56
    b := (c.bbase + (s.self.scalar o.sb.reg).toNat) % 2 ^ 56
    asc := (c.asc + (s.self.scalar o.sc.reg).toNat % 2 ^ 32) % 2 ^ 56
    bsc := (c.bsc + (s.self.scalar o.sc.reg).toNat / 2 ^ 32) % 2 ^ 56 }

/-- The row groups of a step. -/
def stepGroups (o : MArgs) : Nat := if o.imm.toNat % 16 = 0 then 8 else o.imm.toNat % 16

/-- The operands of a step, checked. -/
def State.operands (s : State) (o : MArgs) : Except StepFault (MatOperand × MatOperand) :=
  stepOperands s (coreOf s.cur) s.self.tenant (Cfg.of s.self.tcfg) (s.stepAddrs o)

/-- The accumulator is full, or this step holds it empty (R303). -/
def State.accReady (s : State) (d : Reg) : Prop := s.full .acc d ∨ s.stepUnderWay d = true

theorem Runs.needStepAcc {d : Reg} (h : s.accReady d) :
    Runs (if !s.stepUnderWay d then needAcc d else Pure.pure ()) s () s := by
  by_cases hu : s.stepUnderWay d = true
  · exact .ite_neg (by simp [hu]) (Runs.pure _ s)
  · exact .ite_pos (by simp [hu]) (Runs.needWritable (h.resolve_right hu))

/-- The turn of a step whose operands are good: its row group, or its end. -/
def mstepTurn (o : MArgs) (a b : MatOperand) (x : StepAddrs) : M Cont := do
  let g := (← mySeq).estart.toNat / 8
  if g < stepGroups o then stepGroup o.d a b x g (stepGroups o)
  if g + 1 < stepGroups o then return .again
  finishMstep o.d
  return .next

section
variable (ha : s.full .scalar o.sa.reg) (hb : s.full .scalar o.sb.reg) (hc : s.full .scalar o.sc.reg) (hacc : s.accReady o.d)
include ha hb hc hacc

/-- Without a configuration a step traps (R320). -/
theorem exec_mstep_unconfigured (h : s.self.mtcfg.getLsbD 63 = false) :
    exec (.mstep o) s = .next (s.trapped { cause := 0x05, tval := s.self.mtcfg }) :=
  execSeq_trap ((Runs.readS ha).bindStop ((Runs.readS hb).bindStop ((Runs.readS hc).bindStop ((Runs.get s).bindStop
    (.whenThen (Runs.needStepAcc hacc) (StopsWith.needCfg h).bind)))))

theorem exec_mstep_fault {ft : StepFault} (h : s.self.mtcfg.getLsbD 63 = true) (ho : s.operands o = .error ft) :
    exec (.mstep o) s = .next (s.trapped { cause := ft.cause, tval := BitVec.ofNat 64 ft.va }) := by
  refine execSeq_trap ((Runs.readS ha).bindStop ((Runs.readS hb).bindStop ((Runs.readS hc).bindStop ((Runs.get s).bindStop
    (.whenThen (Runs.needStepAcc hacc) ((Runs.needCfg h).bindStop ((Runs.myCtx s).bindStop ((Runs.get s).bindStop ?_))))))))
  show StopsWith (match s.operands o with | .error f => throwStep f | .ok (a, b) => mstepTurn o a b (s.stepAddrs o)) s _ s
  rw [ho]
  exact StopsWith.stopTrap _ s

theorem exec_mstep_turn {a b : MatOperand} {k : Cont} (h : s.self.mtcfg.getLsbD 63 = true) (ho : s.operands o = .ok (a, b))
    (hrun : Runs (mstepTurn o a b (s.stepAddrs o)) s k t) : exec (.mstep o) s = finishStep (.ok k) t := by
  refine execSeq_ok ((Runs.readS ha).bind ((Runs.readS hb).bind ((Runs.readS hc).bind ((Runs.get s).bind
    (.whenThen (Runs.needStepAcc hacc) ((Runs.needCfg h).bind ((Runs.myCtx s).bind ((Runs.get s).bind ?_))))))))
  show Runs (match s.operands o with | .error f => throwStep f | .ok (a, b) => mstepTurn o a b (s.stepAddrs o)) s _ t
  rw [ho]
  exact hrun

end

/-- Operands in a scratchpad without combining entries are read as they stand. -/
theorem settleOperands_of_comb_nil (hq : ∀ k, (s.core k).comb = []) (a b : MatOperand) : settleOperands a b s = s := by
  simp only [settleOperands, settleScratch_of_comb_nil (hq _), ite_self]

/-- A row group done: ESTART names the next, and the flags so far stand with it (R83, R315). -/
def Seq.groupDone (d : Reg) (g : Nat) (fl : Flags) (q : Seq) : Seq :=
  { q with mstop := some ⟨d.toNat, 8 * (g + 1), fl⟩, estart := BitVec.ofNat 40 (8 * (g + 1)) }

/-- The row group of a step. -/
def State.rowGroup (s : State) (d : Reg) (a b : MatOperand) (g : Nat) : NMap Word × Flags :=
  Machine.rowGroup (stepMemory s a b) a b g (s.accum d.toNat).elems

/-- What a step leaves with its row group done. -/
def State.groupDone (s : State) (o : MArgs) (a b : MatOperand) (g : Nat) : State :=
  (s.putAccum o.d.toNat (s.rowGroup o.d a b g).1 (stepGroups o ≤ g + 1)).modSeq s.cur
    (·.groupDone o.d g (s.self.stepFlags o.d ||| (s.rowGroup o.d a b g).2))

theorem Runs.stepGroup {a b : MatOperand} {x : StepAddrs} {g : Nat} (hbad : s.badWords = []) (hq : ∀ k, (s.core k).comb = []) :
    Runs (stepGroup o.d a b x g (stepGroups o)) s () (s.groupDone o a b g) := by
  have hsettle := Runs.modify (settleOperands a b) s
  rw [settleOperands_of_comb_nil hq] at hsettle
  refine (Runs.mySeq s).bind (hsettle.bind ((Runs.get s).bind ?_))
  rw [show groupBad s a b x g = none from if_pos hbad]
  refine (Runs.myAcc o.d.toNat s).bind ?_
  unfold State.groupDone State.rowGroup
  generalize Machine.rowGroup (stepMemory s a b) a b g (s.accum o.d.toNat).elems = grp
  obtain ⟨l, fl⟩ := grp
  exact (Runs.putAcc _ _ _ s).bind (Runs.modMe_then
    (f := fun q => { q with mstop := some ⟨o.d.toNat, 8 * (g + 1), s.self.stepFlags o.d ||| fl⟩ })
    (s.putAccum o.d.toNat l (stepGroups o ≤ g + 1)) fun u => Runs.modMe _ u)

/-- The end of a step: its flags merged, and ESTART 0 (R314). -/
def Seq.stepEnded (d : Reg) (q : Seq) : Seq := { (q.mergeFlags (q.stepFlags d)) with mstop := none, estart := 0 }

theorem Runs.finishMstep (d : Reg) (s : State) : Runs (finishMstep d) s () (s.modSeq s.cur (·.stepEnded d)) :=
  Runs.modMe_then (f := fun q => { (q.mergeFlags (q.stepFlags d)) with mstop := none }) s Runs.clearEstart

section
variable {a b : MatOperand} {x : StepAddrs} (hbad : s.badWords = []) (hq : ∀ k, (s.core k).comb = [])
include hbad hq

/-- A row group before the last: a point where the step may be stopped (R328). -/
theorem Runs.mstepTurn_again (h : s.self.estart.toNat / 8 + 1 < stepGroups o) :
    Runs (mstepTurn o a b x) s .again (s.groupDone o a b (s.self.estart.toNat / 8)) :=
  (Runs.mySeq s).bind (.ite_pos (Nat.lt_of_succ_lt h) ((Runs.stepGroup hbad hq).bind (.ite_pos h (Runs.pure _ _))))

theorem Runs.mstepTurn_last (h : s.self.estart.toNat / 8 + 1 = stepGroups o) :
    Runs (mstepTurn o a b x) s .next ((s.groupDone o a b (s.self.estart.toNat / 8)).modSeq s.cur (·.stepEnded o.d)) :=
  (Runs.mySeq s).bind (.ite_pos (by omega) ((Runs.stepGroup hbad hq).bind (.ite_neg (by omega)
    ((Runs.finishMstep o.d _).bind (Runs.pure _ _)))))

end

theorem Runs.mstepTurn_past {a b : MatOperand} {x : StepAddrs} (h : stepGroups o ≤ s.self.estart.toNat / 8) :
    Runs (mstepTurn o a b x) s .next (s.modSeq s.cur (·.stepEnded o.d)) :=
  (Runs.mySeq s).bind (.ite_neg (by omega) (.ite_neg (by omega) ((Runs.finishMstep o.d s).bind (Runs.pure _ _))))

/-! What a turn of a step leaves (R303, R314, R315, R328). -/

/-- But for its sequencer and the accumulator it names, a step leaves memory, sequencers and accumulators as they are. -/
def State.stepsOnly (s t : State) (d : Reg) : Prop :=
  t.mem = s.mem ∧ (∀ n, n ≠ s.cur → t.seq n = s.seq n) ∧
  ∀ i, (i = 0 ↔ d.toNat ≠ 0) → (t.core (coreOf s.cur)).accOf i = s.accum i

/-- An accumulator written and the sequencer changed, in one cycle. -/
def State.stepped (s : State) (d : Reg) (l : NMap Word) (full : Bool) (g : Seq → Seq) : State :=
  ((s.putAccum d.toNat l full).modSeq s.cur g).tick

section
variable (s : State) (d : Reg) (l : NMap Word) (full : Bool) (g : Seq → Seq)

theorem State.stepsOnly_stepped : s.stepsOnly (s.stepped d l full g) d := by
  refine ⟨rfl, fun n hn => State.seq_setSeq_of_ne _ _ hn, fun i hi => ?_⟩
  show ((s.putAccum d.toNat l full).core (coreOf s.cur)).accOf i = s.accum i
  rw [State.putAccum, State.modCore, State.core_setCore_self, Core.accOf_setAcc_of_other _ _ hi]
  rfl

theorem State.accOf_stepped : ((s.stepped d l full g).core (coreOf s.cur)).accOf d.toNat =
    { elems := l, full := full, writer := some s.self.uid } := by
  show ((s.putAccum d.toNat l full).core (coreOf s.cur)).accOf d.toNat = _
  rw [State.putAccum, State.modCore, State.core_setCore_self, Core.accOf_setAcc_self]

theorem State.self_stepped : (s.stepped d l full g).self = g s.self := State.seq_setSeq_self _ _ _

end

/-- The flags that stand for the next row group are all those so far. -/
theorem Seq.stepFlags_groupDone (q : Seq) (d : Reg) {g : Nat} (fl : Flags) (hg : g < 15) :
    (q.groupDone d g fl).stepFlags d = fl := by
  have hrow : 8 * (g + 1) = (BitVec.ofNat 40 (8 * (g + 1))).toNat := by
    rw [BitVec.toNat_ofNat, Nat.mod_eq_of_lt (by omega)]
  refine if_pos ?_
  rw [decide_eq_true rfl, Bool.true_and]
  exact decide_eq_true hrow

theorem stepGroups_le (o : MArgs) : stepGroups o ≤ 15 := by
  unfold stepGroups
  split <;> omega

section
variable (ha : s.full .scalar o.sa.reg) (hb : s.full .scalar o.sb.reg) (hc : s.full .scalar o.sc.reg) (hacc : s.accReady o.d)
  (hcfg : s.self.mtcfg.getLsbD 63 = true) {a b : MatOperand} (ho : s.operands o = .ok (a, b))
include ha hb hc hacc hcfg ho

section
variable (hbad : s.badWords = []) (hq : ∀ k, (s.core k).comb = []) {g : Nat} (hg : s.self.estart.toNat / 8 = g)
include hbad hq hg

/-- A row group before the last: the accumulator is held empty, at a stopping point. -/
theorem exec_mstep_again (h : g + 1 < stepGroups o) :
    exec (.mstep o) s = .next (s.stepped o.d (s.rowGroup o.d a b g).1 false fun q =>
      { q.groupDone o.d g (s.self.stepFlags o.d ||| (s.rowGroup o.d a b g).2) with wait := none, atStop := true }) := by
  subst hg
  rw [exec_mstep_turn ha hb hc hacc hcfg ho (Runs.mstepTurn_again hbad hq h), State.groupDone, decide_eq_false (Nat.not_le.2 h)]
  exact congrArg (fun t : State => Host.Outcome.next t.tick) (State.modSeq_modSeq _ _ _ _)

/-- The last: the accumulator is full, the flags of all are merged, and control falls through. -/
theorem exec_mstep_last (h : g + 1 = stepGroups o) :
    exec (.mstep o) s = .next (s.stepped o.d (s.rowGroup o.d a b g).1 true fun q => Seq.advance
      { (q.mergeFlags (s.self.stepFlags o.d ||| (s.rowGroup o.d a b g).2)) with mstop := none, estart := 0 }) := by
  subst hg
  rw [exec_mstep_turn ha hb hc hacc hcfg ho (Runs.mstepTurn_last hbad hq h), State.groupDone, decide_eq_true (Nat.le_of_eq h.symm),
    State.modSeq_modSeq]
  have hlt : s.self.estart.toNat / 8 < 15 := by
    have := stepGroups_le o
    omega
  have hend (q : Seq) (fl : Flags) : (q.groupDone o.d (s.self.estart.toNat / 8) fl).stepEnded o.d =
      { (q.mergeFlags fl) with mstop := none, estart := 0 } := by
    rw [Seq.stepEnded, Seq.stepFlags_groupDone q o.d fl hlt]
    rfl
  simp only [hend]
  exact congrArg (fun t : State => Host.Outcome.next t.tick) (State.modSeq_modSeq _ _ _ _)

end

/-- A step that has no row group left merges its flags and falls through. -/
theorem exec_mstep_past (h : stepGroups o ≤ s.self.estart.toNat / 8) :
    exec (.mstep o) s = .next (s.fell (·.stepEnded o.d)) := by
  rw [exec_mstep_turn ha hb hc hacc hcfg ho (Runs.mstepTurn_past h)]
  exact congrArg (fun t : State => Host.Outcome.next t.tick) (State.modSeq_modSeq _ _ _ _)

end

end

end Sys2Proof.Machine
end

section
/-! PROOFS. Moves and drains of accumulators (O47): R303, R316 to R319. -/

namespace Sys2Proof.Machine

section
variable {s t u : State} {o : MArgs}

theorem State.Becomes.core {g : Seq → Seq} (h : s.Becomes g t) (k : Nat) : t.core k = s.core k := by
  have hc : (t.setSeq t.cur t.self).core k = (s.setSeq s.cur t.self).core k := by rw [h.2.2]
  exact hc

/-- An accumulator written before or after a change of the sequencer. -/
theorem State.Becomes.putAccum {g : Seq → Seq} (h : s.Becomes g t) (hu : (g s.self).uid = s.self.uid) (i : Nat) (l : NMap Word)
    (full : Bool) : (s.putAccum i l full).Becomes g (t.putAccum i l full) := by
  obtain ⟨hcur, hself, hset⟩ := h
  refine ⟨hcur, hself, fun q => ?_⟩
  have hc (s : State) : (s.putAccum i l full).setSeq s.cur q =
      (s.setSeq s.cur q).modCore (coreOf s.cur) fun c => c.setAcc i { elems := l, full := full, writer := some s.self.uid } := rfl
  show (t.putAccum i l full).setSeq t.cur q = (s.putAccum i l full).setSeq s.cur q
  rw [hc, hc, hset, hcur, hself, hu]

/-! Moves (R316, R317). -/

theorem exec_mzero (hd : s.full .acc o.d) : exec (.mzero o) s = .next ((s.putAccum o.d.toNat [] true).fell id) :=
  execNext_fell ((Runs.needWritable hd).bind (Runs.writeAcc _ _ s))

/-- The row of an accumulator that a move or a drain starts at. -/
def State.accRow (s : State) (o : MArgs) : Nat := (s.self.scalar o.sb.reg).toNat

/-- Element e of the rows of an accumulator from row r on. -/
def Accum.fromRow (a : Accum) (r e : Nat) : Word := a.at (r + e / 64) (e % 64)

theorem exec_mrda (ht : s.self.typed .i32) (ha : s.full .acc o.sa.reg) (hb : s.full .scalar o.sb.reg) (hd : s.full .brick o.d) :
    exec (.mrda o) s = .next (s.fell fun q => Seq.brickSent o.d (List.range q.vl) s.cycle
      ((List.range q.vl).foldl (fun q e => q.setElem o.d.toNat e (((s.accum o.sa.reg.toNat).fromRow (s.accRow o) e).setWidth 64)) q)) := by
  obtain ⟨t, hrun, hbec⟩ := Runs.forEach_becomes (List.range s.self.vl) (fun e _ u => Runs.modMe (·.setElem o.d.toNat e
    (((s.accum o.sa.reg.toNat).fromRow (s.accRow o) e).setWidth 64)) u) s
  rw [show exec (.mrda o) s = _ from execNext_modMe_last ((Runs.needType ht).bind ((Runs.needFull ha).bind ((Runs.readS hb).bind
    ((Runs.needWritable hd).bind ((Runs.myAcc _ s).bind ((Runs.mySeq s).bind (hrun.bind (Runs.brickSent o.d _ t)))))))), hbec.fell,
    hbec.cycle]
  exact congrArg _ (State.fell_congr rfl)

theorem exec_mwra (ht : s.self.typed .i32) (hd : s.full .acc o.d) (hb : s.full .scalar o.sb.reg) (ha : s.full .brick o.sa.reg) :
    exec (.mwra o) s = .next ((s.putAccum o.d.toNat ((List.range s.self.vl).foldl (fun l e =>
      Accum.put l (s.accRow o + e / 64) (e % 64) ((s.self.elem o.sa.reg.toNat e).setWidth 32)) (s.accum o.d.toNat).elems) true).fell
        fun q => { q with estart := 0 }) :=
  execNext_modMe_last ((Runs.needType ht).bind ((Runs.needBrick ha).bind ((Runs.readS hb).bind ((Runs.needWritable hd).bind
    ((Runs.mySeq s).bind ((Runs.myAcc _ s).bind ((Runs.writeAcc _ _ s).bind (Runs.clearEstart _))))))))

/-! `mdrain.brk` (R318, R319). -/

/-- Element e of a drain to a brick: the epilogue's result with its flags, or 0 past the last row. -/
def drainPut (d : Reg) (r : Nat) (y : Nat → Nat → Nat × Flags) (e : Nat) (q : Seq) : Seq :=
  if r + e / 64 ≤ 63 then (q.setElem d.toNat e (BitVec.ofNat 64 (y (r + e / 64) (e % 64)).1)).mergeFlags (y (r + e / 64) (e % 64)).2
  else q.setElem d.toNat e 0

theorem uid_drainPut (d : Reg) (r : Nat) (y : Nat → Nat → Nat × Flags) (e : Nat) (q : Seq) : (drainPut d r y e q).uid = q.uid := by
  unfold drainPut
  split <;> rfl

theorem uid_foldl_drainPut (d : Reg) (r : Nat) (y : Nat → Nat → Nat × Flags) (l : List Nat) (q : Seq) :
    (l.foldl (fun q e => drainPut d r y e q) q).uid = q.uid := by
  induction l generalizing q with
  | nil => rfl
  | cons e l ih => exact (ih _).trans (uid_drainPut d r y e q)

/-- The epilogue's result of an accumulator element. -/
def State.drained (s : State) (c : Cfg) (bias : Option Nat) (a : Accum) (row col : Nat) : Nat × Flags :=
  drainElem c .fp32 (biasOf s bias col) (a.at row col).toNat

/-- The step of one element of a drain to a brick. -/
def State.drainStep (s : State) (c : Cfg) (bias : Option Nat) (a : Accum) (d : Reg) (r e : Nat) : M Unit :=
  if r + e / 64 ≤ 63 then do
    let (v, f) := drainElem c .fp32 (biasOf s bias (e % 64)) (a.at (r + e / 64) (e % 64)).toNat
    modMe fun q => (q.setElem d.toNat e (BitVec.ofNat 64 v)).mergeFlags f
  else modMe (·.setElem d.toNat e 0)

theorem Runs.drainStep (s : State) (c : Cfg) (bias : Option Nat) (a : Accum) (d : Reg) (r e : Nat) (u : State) :
    Runs (s.drainStep c bias a d r e) u () (u.modSeq u.cur (drainPut d r (s.drained c bias a) e)) := by
  unfold State.drainStep drainPut State.drained
  by_cases hrow : r + e / 64 ≤ 63
  · simp only [if_pos hrow]
    generalize drainElem _ _ _ _ = y
    exact Runs.modMe _ u
  · simp only [if_neg hrow]
    exact Runs.modMe _ u

/-- The elements of an accumulator with n of them zeroed, from row r on. -/
def Accum.zeroRows (a : Accum) (r n : Nat) : NMap Word := (List.range n).foldl (fun l e => Accum.put l (r + e / 64) (e % 64) 0) a.elems

/-- Rows drained are zeroed if told to (R319). -/
def State.zeroedIf (s : State) (o : MArgs) (l : NMap Word) : State :=
  if o.mod.getLsbD 1 then s.putAccum o.sa.reg.toNat l true else s

theorem Runs.zeroIf (l : NMap Word) (s : State) :
    Runs (if o.mod.getLsbD 1 then Machine.writeAcc o.sa.reg.toNat l else Pure.pure ()) s () (s.zeroedIf o l) := by
  unfold State.zeroedIf
  split
  · exact Runs.writeAcc _ _ s
  · exact Runs.pure _ s

theorem State.Becomes.zeroedIf {g : Seq → Seq} (h : s.Becomes g t) (hu : (g s.self).uid = s.self.uid) (l : NMap Word) :
    (s.zeroedIf o l).Becomes g (t.zeroedIf o l) := by
  unfold State.zeroedIf
  split
  · exact h.putAccum hu _ _ _
  · exact h

theorem State.zeroedIf_cycle (s : State) (l : NMap Word) : (s.zeroedIf o l).cycle = s.cycle := by
  unfold State.zeroedIf
  split <;> rfl

section
variable {bias : Option Nat} (hcfg : s.self.mtcfg.getLsbD 63 = true) (ha : s.full .acc o.sa.reg) (hb : s.full .scalar o.sb.reg)
  (hbias : Runs (needBias (Cfg.of s.self.tcfg)) s bias t)
include hcfg ha hb hbias

section
variable (ht : s.self.typed .i32) (hd : s.full .brick o.d)
include ht hd

/-- A struck bias word stops the drain before the first element (R319; log 13). -/
theorem exec_mdrainBrk_struck {col : Nat} (h : biasBad t bias = some col) : exec (.mdrainBrk o) s =
    .next (t.trapped (xtrap 0x28 0 kRead ((Cfg.of s.self.tcfg).bias % 2 ^ 56 + 4 * col) 0)) := by
  refine execNext_trap ((Runs.needType ht).bindStop ((Runs.needCfg hcfg).bindStop ((Runs.needFull ha).bindStop ((Runs.readS hb).bindStop
    ((Runs.needWritable hd).bindStop (hbias.bindStop ((Runs.get t).bindStop ?_)))))))
  rw [h]
  exact (StopsWith.stopTrap _ t).bind

theorem exec_mdrainBrk {a : Accum} (hacc : t.accum o.sa.reg.toNat = a) (h : biasBad t bias = none) : exec (.mdrainBrk o) s =
    .next ((t.zeroedIf o (a.zeroRows (s.accRow o) t.self.vl)).fell fun q => Seq.brickSent o.d (List.range t.self.vl) t.cycle
      ((List.range t.self.vl).foldl (fun q e => drainPut o.d (s.accRow o) (t.drained (Cfg.of s.self.tcfg) bias a) e q) q)) := by
  subst hacc
  let l := (t.accum o.sa.reg.toNat).zeroRows (s.accRow o) t.self.vl
  obtain ⟨u, hrun, hbec⟩ := Runs.forEach_becomes (List.range t.self.vl)
    (fun e _ => Runs.drainStep t (Cfg.of s.self.tcfg) bias (t.accum o.sa.reg.toNat) o.d (s.accRow o) e) t
  have hzero := hbec.zeroedIf (o := o) (uid_foldl_drainPut _ _ _ _ _) l
  have hsent := Runs.brickSent o.d (List.range t.self.vl) (u.zeroedIf o l)
  rw [State.zeroedIf_cycle, hbec.cycle] at hsent
  refine Eq.trans (execNext_modMe_last ((Runs.needType ht).bind ((Runs.needCfg hcfg).bind ((Runs.needFull ha).bind
    ((Runs.readS hb).bind ((Runs.needWritable hd).bind (hbias.bind ((Runs.get t).bind ?_))))))))
    (congrArg Host.Outcome.next (hzero.fell (·.brickSent o.d (List.range t.self.vl) t.cycle)))
  rw [h]
  exact (Runs.myAcc _ t).bind ((Runs.mySeq t).bind (hrun.bind (.whenThen (Runs.zeroIf _ u) hsent)))

end

end

/-! `mdrain.mem` (R319). -/

section
variable {bias : Option Nat}

theorem Runs.freshFree (s : State) : Runs freshFree s s.freeCtr { s with freeCtr := s.freeCtr + 1 } := rfl

/-- The rows of a drain, and where it goes. -/
def drainCount (o : MArgs) : Nat := o.imm.toNat % 128

def State.drainDst (s : State) (o : MArgs) : Nat := (s.self.scalar o.sc.reg).toNat % 2 ^ 56

/-- The first n rows that the drain of s delivers, with the biases as they stand in t. -/
def State.drainRows (s : State) (o : MArgs) (bias : Option Nat) (a : Accum) (n : Nat) (t : State) : List (Nat × List Byte) × Flags :=
  Machine.drainRows t (Cfg.of s.self.tcfg) bias a.elems (s.accRow o) n (s.drainDst o) ((Cfg.of s.self.tcfg).cpitch : Int)

/-- An accumulator's elements without the rows that the drain of s delivers. -/
def State.drainLeft (s : State) (o : MArgs) (a : Accum) : NMap Word :=
  (upFrom (64 * s.accRow o) (64 * drainCount o)).foldl (fun l i => NMap.erase l i) a.elems

/-- The delivery of the rows of a drain. -/
def State.drainDelivery (s : State) (o : MArgs) (bias : Option Nat) (leaves : NMap Leaf) (rows : List (Nat × List Byte)) :
    M (Nat × Option (Nat × Nat)) :=
  drainRun (coreOf s.cur) bias (Cfg.of s.self.tcfg).bias (s.drainDst o) (drainMemory none (drainReady (s.ctx s.cur) leaves)) rows

/-- The end of a drain: f the flags of all its rows, x what was delivered. -/
def State.drainEnd (s : State) (o : MArgs) (bias : Option Nat) (a : Accum) (f : Flags) (x : Nat × Option (Nat × Nat)) : M Unit := do
  match x with
  | (_, none) =>
    modMe (·.mergeFlags f)
    if o.mod.getLsbD 1 then writeAcc o.sa.reg.toNat (s.drainLeft o a)
    writeLong o.d (BitVec.ofNat 64 (256 * drainCount o * 2 ^ 16))
  | (i, some (k, _)) =>
    modMe (·.mergeFlags (s.drainRows o bias a i (← get)).2)
    let v := 256 * i + Config.readAhead (← freshFree) % (256 * (drainCount o - i) + 1)
    writeLong o.d (BitVec.ofNat 64 (v * 2 ^ 16 + k))

theorem State.full_zeroedIf {l : NMap Word} {r : Reg} : (s.zeroedIf o l).full .scalar r ↔ s.full .scalar r := by
  unfold State.zeroedIf
  split <;> exact Iff.rfl

/-- Every row delivered. -/
theorem Runs.drainEnd_all {a : Accum} {f : Flags} {n : Nat} (hd : t.full .scalar o.d) :
    Runs (s.drainEnd o bias a f (n, none)) t () (((t.modSeq t.cur (·.mergeFlags f)).zeroedIf o (s.drainLeft o a)).sent o.d
      (BitVec.ofNat 64 (256 * drainCount o * 2 ^ 16))) :=
  (Runs.modMe _ t).bind (.whenThen (Runs.zeroIf _ _) (Runs.writeLong (State.full_zeroedIf.2 (State.full_modSeq rfl hd))))

/-- A drain stopped after i rows: a free part of the bytes of the rest counts too (log 26). -/
theorem Runs.drainEnd_stopped {a : Accum} {f : Flags} {i k va : Nat} (hd : t.full .scalar o.d) :
    Runs (s.drainEnd o bias a f (i, some (k, va))) t () ((State.modSeq { t with freeCtr := t.freeCtr + 1 } t.cur
      (·.mergeFlags (s.drainRows o bias a i t).2)).sent o.d
        (BitVec.ofNat 64 ((256 * i + Config.readAhead t.freeCtr % (256 * (drainCount o - i) + 1)) * 2 ^ 16 + k))) := by
  have hfree : Runs Machine.freshFree (t.modSeq t.cur (·.mergeFlags (s.drainRows o bias a i t).2)) t.freeCtr
      (State.modSeq { t with freeCtr := t.freeCtr + 1 } t.cur (·.mergeFlags (s.drainRows o bias a i t).2)) := Runs.freshFree _
  have hfull : (State.modSeq { t with freeCtr := t.freeCtr + 1 } t.cur (·.mergeFlags (s.drainRows o bias a i t).2)).full .scalar o.d :=
    State.full_modSeq (s := { t with freeCtr := t.freeCtr + 1 }) rfl hd
  refine (Runs.get t).bind ((Runs.modMe _ t).bind (hfree.bind ?_))
  exact Runs.writeLong hfull

section
variable (hcfg : s.self.mtcfg.getLsbD 63 = true) (ha : s.full .acc o.sa.reg) (hb : s.full .scalar o.sb.reg)
  (hbias : Runs (needBias (Cfg.of s.self.tcfg)) s bias t) (hc : s.full .scalar o.sc.reg) (hd : s.full .scalar o.d)
include hcfg ha hb hbias hc hd

theorem exec_mdrainMem_refused (hdt : t.full .scalar o.d)
    (h : drainRefused (Cfg.of s.self.tcfg) (coreOf s.cur) (s.accRow o) (drainCount o) (s.drainDst o) = true) :
    exec (.mdrainMem o) s = .next (t.fell (·.sentLong o.d 0xF0 t.cycle)) :=
  execWhole_writeLong ((Runs.needCfg hcfg).bind ((Runs.needFull ha).bind ((Runs.readS hb).bind ((Runs.readS hc).bind
    ((Runs.needWritable hd).bind ((Runs.myCtx s).bind (hbias.bind (.ite_pos h (Runs.writeLong hdt)))))))))

theorem exec_mdrainMem {a : Accum} {rows : List (Nat × List Byte) × Flags} {leaves : NMap Leaf} {x : Nat × Option (Nat × Nat)}
    {u1 u w : State} (hacc : t.accum o.sa.reg.toNat = a) (hrows : s.drainRows o bias a (drainCount o) t = rows)
    (h : drainRefused (Cfg.of s.self.tcfg) (coreOf s.cur) (s.accRow o) (drainCount o) (s.drainDst o) = false)
    (hissue : Runs (drainIssue (s.ctx s.cur) (Cfg.of s.self.tcfg) (s.drainDst o) rows.1) t leaves u1)
    (hrun : Runs (s.drainDelivery o bias leaves rows.1) u1 x u) (hend : Runs (s.drainEnd o bias a rows.2 x) u () w) :
    exec (.mdrainMem o) s = .next (w.fell id) := by
  subst hacc
  obtain ⟨runs, f⟩ := rows
  refine execWhole_fell ((Runs.needCfg hcfg).bind ((Runs.needFull ha).bind ((Runs.readS hb).bind ((Runs.readS hc).bind
    ((Runs.needWritable hd).bind ((Runs.myCtx s).bind (hbias.bind (.ite_neg (Bool.eq_false_iff.1 h) ((Runs.myAcc _ t).bind
      ((Runs.get t).bind ?_))))))))))
  have hrows' : Machine.drainRows t (Cfg.of s.self.tcfg) bias (t.accum o.sa.reg.toNat).elems (s.self.scalar o.sb.reg).toNat
    (o.imm.toNat % 128) ((s.self.scalar o.sc.reg).toNat % 2 ^ 56) ((Cfg.of s.self.tcfg).cpitch : Int) = (runs, f) := hrows
  rw [hrows']
  exact hissue.bind (hrun.bind hend)

section
variable {a : Accum} {rows : List (Nat × List Byte) × Flags} {leaves : NMap Leaf} {u1 u : State} {i : Nat}
  (hacc : t.accum o.sa.reg.toNat = a) (hrows : s.drainRows o bias a (drainCount o) t = rows)
  (h : drainRefused (Cfg.of s.self.tcfg) (coreOf s.cur) (s.accRow o) (drainCount o) (s.drainDst o) = false)
  (hissue : Runs (drainIssue (s.ctx s.cur) (Cfg.of s.self.tcfg) (s.drainDst o) rows.1) t leaves u1)
include hacc hrows h hissue

/-- Every row delivered: s[D] has the bytes of all. -/
theorem exec_mdrainMem_all (hrun : Runs (s.drainDelivery o bias leaves rows.1) u1 (i, none) u)
    (hdu : (u.zeroedIf o (s.drainLeft o a)).full .scalar o.d) : exec (.mdrainMem o) s =
    .next (((u.modSeq u.cur (·.mergeFlags rows.2)).zeroedIf o (s.drainLeft o a)).fell
      (·.sentLong o.d (BitVec.ofNat 64 (256 * drainCount o * 2 ^ 16)) u.cycle)) := by
  rw [exec_mdrainMem hcfg ha hb hbias hc hd hacc hrows h hissue hrun (Runs.drainEnd_all (State.full_zeroedIf.1 hdu)), State.fell_sent,
    State.zeroedIf_cycle]
  rfl

/-- A drain stopped: s[D] has the bytes written and the cause (R319). -/
theorem exec_mdrainMem_stopped {k va : Nat} (hrun : Runs (s.drainDelivery o bias leaves rows.1) u1 (i, some (k, va)) u)
    (hdu : u.full .scalar o.d) : exec (.mdrainMem o) s =
    .next (State.fell { u with freeCtr := u.freeCtr + 1 } fun q => (q.mergeFlags (s.drainRows o bias a i u).2).sentLong o.d
      (BitVec.ofNat 64 ((256 * i + Config.readAhead u.freeCtr % (256 * (drainCount o - i) + 1)) * 2 ^ 16 + k)) u.cycle) := by
  rw [exec_mdrainMem hcfg ha hb hbias hc hd hacc hrows h hissue hrun (Runs.drainEnd_stopped hdu), State.fell_sent]
  exact congrArg Host.Outcome.next (State.fell_modSeq _ _ _)

end

end

end

end

end Sys2Proof.Machine
end

section
/-! PROOFS. Quantising, reductions and the matrix instructions (O47). -/

namespace Sys2Proof.Machine

section
variable {s t u : State} {o : MArgs}

/-- A turn of `mstep` leaves all but its sequencer and the accumulator it names as they are; the accumulator has the sum of its row
group, and is empty until the last (R303, R314, R328). -/
theorem mstep_turn (ha : s.full .scalar o.sa.reg) (hb : s.full .scalar o.sb.reg) (hc : s.full .scalar o.sc.reg) (hacc : s.accReady o.d)
    (hcfg : s.self.mtcfg.getLsbD 63 = true) {a b : MatOperand} (ho : s.operands o = .ok (a, b)) (hbad : s.badWords = [])
    (hq : ∀ k, (s.core k).comb = []) {g : Nat} (hg : s.self.estart.toNat / 8 = g) {grp : NMap Word × Flags}
    (hgrp : s.rowGroup o.d a b g = grp) : ∃ t, exec (.mstep o) s = .next t ∧ s.stepsOnly t o.d ∧
      (g + 1 < stepGroups o →
        (t.core (coreOf s.cur)).accOf o.d.toNat = { elems := grp.1, full := false, writer := some s.self.uid } ∧
        t.self = { s.self with mstop := some ⟨o.d.toNat, 8 * (g + 1), s.self.stepFlags o.d ||| grp.2⟩,
                               estart := BitVec.ofNat 40 (8 * (g + 1)), wait := none, atStop := true }) ∧
      (g + 1 = stepGroups o →
        (t.core (coreOf s.cur)).accOf o.d.toNat = { elems := grp.1, full := true, writer := some s.self.uid } ∧
        t.self = { (s.self.mergeFlags (s.self.stepFlags o.d ||| grp.2)) with mstop := none, estart := 0 }.advance) ∧
      (stepGroups o ≤ g → (t.core (coreOf s.cur)).accOf o.d.toNat = s.accum o.d.toNat ∧
        t.self = { (s.self.mergeFlags (s.self.stepFlags o.d)) with mstop := none, estart := 0 }.advance) := by
  subst hgrp
  rcases Nat.lt_trichotomy (g + 1) (stepGroups o) with h | h | h
  · refine ⟨_, exec_mstep_again ha hb hc hacc hcfg ho hbad hq hg h, State.stepsOnly_stepped _ _ _ _ _,
      fun _ => ⟨State.accOf_stepped _ _ _ _ _, State.self_stepped _ _ _ _ _⟩, fun h' => ?_, fun h' => ?_⟩ <;> omega
  · refine ⟨_, exec_mstep_last ha hb hc hacc hcfg ho hbad hq hg h, State.stepsOnly_stepped _ _ _ _ _, fun h' => ?_,
      fun _ => ⟨State.accOf_stepped _ _ _ _ _, State.self_stepped _ _ _ _ _⟩, fun h' => ?_⟩ <;> omega
  · have hpast : stepGroups o ≤ g := Nat.le_of_lt_succ h
    refine ⟨_, exec_mstep_past ha hb hc hacc hcfg ho (hg ▸ hpast), ⟨rfl, fun n hn => State.seq_setSeq_of_ne _ _ hn, fun _ _ => rfl⟩,
      fun h' => ?_, fun h' => ?_, fun _ => ⟨rfl, State.self_fell _ _⟩⟩ <;> omega

end

/-- Settles O47: every clause names one instruction, or one shape, of the sections above. -/
theorem quantisingReductionsAndMatrix : Obligations.QuantisingReductionsAndMatrix := by
  refine ⟨?_, ?_⟩
  · intro o s ht q act
    refine ⟨?_, ?_⟩
    · intro ha hd hd' he g0 n s1 h
      exact ⟨exec_vq4_whole ht ha hd hd' he h, exec_vq4_rest ht ha hd hd' he h⟩
    · intro ha hd hfar x hx l init f m reduces
      have is {k : Instr} {initial : Bool} {F : Seq → Nat → List (Nat × Nat) → Nat × SumFlags} {r : Nat × SumFlags}
          (hk : exec k s = execNext (reduce o initial F) s) (hr : F s.self (s.initialOf o initial) (s.reduced o x) = r) :
          reduces k initial r := by
        intro hb
        rw [hk]
        exact ⟨execNext_reduce_none ht ha hd hb, fun hv => execNext_reduce ht ha hd hb hx hv hr hfar,
          fun fl hv => execNext_reduce_trap ht ha hd hb hx hv hr⟩
      refine ⟨is (exec_vredo s) ?_, is (exec_vredt s) ?_, is (exec_vredm s) rfl, is (exec_vredb s) ?_⟩
      · exact congrArg (orderedSum f m q.enables init ⟨0, none⟩) (s.reduced_values o x)
      · exact congrArg (treeSum f m q.enables 14 ⟨0, none⟩) (treeLeaves_reduced s o x q.vl)
      · rw [← s.reduced_values o x, List.foldl_map]
        rfl
  · intro o s ha hb hc q core va r cfg acc wrote
    refine ⟨?_, ?_, exec_mzero, fun ht ha' hd => exec_mrda ht ha' hb hd, fun ht hd ha' => exec_mwra ht hd hb ha', ?_⟩
    · intro v t hal hd hl hdt g
      exact ⟨fun h => exec_mcfg ha hd hal hl (.takeConfig_good hdt h), fun k h => exec_mcfg ha hd hal hl (.takeConfig_bad hdt h)⟩
    · intro z addrs ng g0 f0 accFull
      refine ⟨fun hacc => exec_mstep_unconfigured ha hb hc hacc, fun ft hacc h ho => exec_mstep_fault ha hb hc hacc h ho, ?_⟩
      intro a b hacc h ho hbad hq grp
      obtain ⟨t, hexec, ⟨hmem, hseq, hother⟩, hcases⟩ := mstep_turn ha hb hc hacc h ho hbad hq (g := g0) rfl (grp := grp) rfl
      exact ⟨t, hexec, hmem, hseq, hother, hcases⟩
    · intro bias t h ha' hbias t' y es
      have hacc (hcur : coreOf t.cur = core) : t.accum o.sa.reg.toNat = acc t o.sa.reg.toNat :=
        congrArg (fun k => (t.core k).accOf o.sa.reg.toNat) hcur
      refine ⟨fun col ht hd hstruck => exec_mdrainBrk_struck h ha' hb hbias ht hd hstruck,
        fun ht hd hnone hcur => exec_mdrainBrk h ha' hb hbias ht hd (hacc hcur) hnone, ?_⟩
      intro hd hdt hcur n dst rows after ends
      refine ⟨exec_mdrainMem_refused h ha' hb hbias hc hd hdt,
        fun leaves i u1 u hok hissue => ⟨fun hrun hdu => ?_, fun k va hrun hdu => ?_⟩⟩
      · exact exec_mdrainMem_all h ha' hb hbias hc hd (hacc hcur) rfl hok hissue hrun hdu
      · exact exec_mdrainMem_stopped h ha' hb hbias hc hd (hacc hcur) rfl hok hissue hrun hdu

end Sys2Proof.Machine
end
